-- ==== Sys2Proof/Config.lean ====
section
/-!
DEFINITION. What an implementation fixes and the free values: constants without a body, so that no proof can see a
value of them. Every statement about the machine holds for every value of each.
-/
namespace Sys2Proof.Config

/-- A free choice, applied to the counter State.fresh: which enabled move comes next, which of several allowed
outcomes occurs (log 3, 7). -/
opaque freeNat : Nat → Nat
/-- A free yes or no, applied to State.fresh: whether a faulted operation's byte is old or new, whether a butterfly merges,
whether a rare outcome that the spec allows occurs (log 7). -/
opaque freeBool : Nat → Bool
/-- Where the firmware places the device's copy of a launch block, by acceptance number (16 R318; log 12): a 256-byte
slot number. -/
opaque lpbSlot : Nat → Nat
/-- The write buffer holds one entry more than this; the spec gives no size (12 R298; log 17). -/
opaque writeBufferExtra : Nat
/-- The vat of a VD holds one region more than this at a home; the spec gives no size (16 R339; log 46). -/
opaque vatExtra : Nat → Nat → Nat
/-- The bytes beyond 16 that an entry of a park queue takes, by its kind: a remote access or transfer, a group operation, an image;
the spec gives the size of a message only (16 R333; log 46). -/
opaque parkExtra : Nat → Nat
/-- On which side a detour passes a retired router, and how many cycles it adds, up to four (23 R436; log 47). -/
opaque detourSide : Nat → Bool
opaque detourCost : Nat → Nat
/-- The port that a page hashes to within a route's port set (21 R406). -/
opaque portHash : Nat → Nat
/-- Whether the 1,024-bit read signature of deterministic mode cannot tell a line or granule read from another one written
(17 R347; log 14). -/
opaque sigMeets : Nat → Nat → Bool
/-- The bank of a home's TLB that the hash of a VD and a page number names (18 R374). -/
opaque tlbBank : Nat → Nat → Nat
/-- The VER of a capability record other than CORE, the address of the error log, the lane-retirement threshold, and what a read of
QTAIL of queues 0 to 2 gives: the spec states none of them (21 R393, R404; 23 R445; log 48). -/
opaque capVer : Nat → Nat
opaque errLogAt : Nat
opaque laneThreshold : Nat
opaque tailRead : Nat → Nat
/-- Over one flit more than how many the rate of a lane's corrected symbols is taken (21 R404; log 36). -/
opaque laneWindow : Nat
/-- A byte that another module answers for a read of the device's own, by State.fresh and the address (21 R405; log 10). -/
opaque farByte : Nat → Nat → BitVec 8

/-- A byte, by its offset, of a part of a vat region whose layout is not stated: a function of what is saved there (16 R339; log 46). -/
opaque vatByte : Nat → List Nat → BitVec 8

/-- The gateway of its field that a request takes, by the request's number (00 R5; log 57). -/
opaque gateway : Nat → Nat
/-- What a row under test delivers at one of the reads of March C−, as the bits that differ from what was written: by the test, the
background and the read (23 R440; log 35). -/
opaque cellFault : Nat → BitVec 256 → Nat → BitVec 256
/-- How many of the spare rows of a slice fail their test, by field and slice (23 R439, R440; log 35). -/
opaque badSpares : Nat → Nat → Nat
/-- A byte of the signature that the module identity key makes of some bytes (23 R430; log 35). -/
opaque sigByte : BitVec 3072 → List (BitVec 8) → Nat → BitVec 8

end Sys2Proof.Config
end

