-- ==== Sys2Proof/Word.lean ====
section
/-!
DEFINITION. The word types of the W1 and the plainest arithmetic on them.
-/
namespace Sys2Proof

/-- A general register's contents (02 R33). -/
abbrev Word := BitVec 32
/-- A pair, an address or an instruction word (02 R33, R47; 03 R51). -/
abbrev DWord := BitVec 64
abbrev Byte := BitVec 8
/-- A four-bit register field (03 R57). -/
abbrev Reg := BitVec 4
/-- A token number k0 to k15 (02 R34). -/
abbrev Tok := BitVec 4

/-- The 1 or 0 that a comparison writes. -/
def Word.ofBool (b : Bool) : Word := if b then 1 else 0

/-- The low and high half of a 64-bit value (02 R33: the low half lies in the even register). -/
def DWord.lo (d : DWord) : Word := d.extractLsb' 0 32
def DWord.hi (d : DWord) : Word := d.extractLsb' 32 32
/-- A 64-bit value from its low and high half. -/
def DWord.mk (lo hi : Word) : DWord := hi ++ lo

theorem DWord.lo_mk (lo hi : Word) : DWord.lo (DWord.mk lo hi) = lo := by
  unfold DWord.lo DWord.mk
  apply BitVec.eq_of_getLsbD_eq
  intro i h
  simp only [BitVec.getLsbD_extractLsb', BitVec.getLsbD_append, Nat.zero_add, h, decide_true, Bool.true_and, ite_true]

theorem DWord.hi_mk (lo hi : Word) : DWord.hi (DWord.mk lo hi) = hi := by
  unfold DWord.hi DWord.mk
  apply BitVec.eq_of_getLsbD_eq
  intro i h
  simp only [BitVec.getLsbD_extractLsb', BitVec.getLsbD_append, h, decide_true, Bool.true_and]
  rw [if_neg (by omega)]
  congr 1
  omega

end Sys2Proof
end

