-- ==== Sys2Proof/Syntax.lean ====
section
/-!
DEFINITION. The syntax of the W1: one constructor of Instr for each row of the opcode table. The first 173 are the
instruction words of 03 R76, each with its control fields and prefixes (Ctl) and its operand fields as 03 R78 to R89
name them; the other 104 are the device's events ("steps"), with what an event of that kind is about.
-/
namespace Sys2Proof

/-- A scope code (03 R82). -/
inductive Scope where | slotS | tileS | gangS | vdS | moduleS | systemS
  deriving DecidableEq, Repr

def Scope.code : Scope → Nat
  | slotS => 0 | tileS => 1 | gangS => 2 | vdS => 3 | moduleS => 4 | systemS => 5
def Scope.ofCode : Nat → Option Scope
  | 0 => some slotS | 1 => some tileS | 2 => some gangS | 3 => some vdS | 4 => some moduleS | 5 => some systemS
  | _ => none

/-- A prefix word (03 R70). -/
inductive Prefix where
  | ximm (v : BitVec 32)
  | trip
  | scope (s : Scope)
  deriving DecidableEq, Repr

/-- The control fields of an instruction word (03 R51), as they stand in it, and the prefixes before it. -/
structure Ctl where
  tok : Tok := 0
  thr : BitVec 6 := 0
  wc : Bool := false
  sgEn : Bool := false
  sgTok : Tok := 0
  sgInc : BitVec 2 := 0
  gap : BitVec 2 := 0
  pfx : List Prefix := []
  deriving DecidableEq, Repr

/-- Integer comparisons (03 R78). -/
inductive CC where | eq | ne | lt | le | ltu | leu
  deriving DecidableEq, Repr
def CC.code : CC → Nat | eq => 0 | ne => 1 | lt => 2 | le => 3 | ltu => 4 | leu => 5
def CC.ofCode : Nat → Option CC
  | 0 => some eq | 1 => some ne | 2 => some lt | 3 => some le | 4 => some ltu | 5 => some leu | _ => none

/-- Saturation of ADDS and SUBS (03 R79). -/
inductive Sat where | sgn | uns
  deriving DecidableEq, Repr
def Sat.code : Sat → Nat | sgn => 0 | uns => 1
def Sat.ofCode : Nat → Option Sat | 0 => some sgn | 1 => some uns | _ => none

/-- FCMP conditions (03 R79). -/
inductive FCC where | eq | ne | lt | le | un | ord
  deriving DecidableEq, Repr
def FCC.code : FCC → Nat | eq => 0 | ne => 1 | lt => 2 | le => 3 | un => 4 | ord => 5
def FCC.ofCode : Nat → Option FCC
  | 0 => some eq | 1 => some ne | 2 => some lt | 3 => some le | 4 => some un | 5 => some ord | _ => none

/-- FSGN operations (03 R79). -/
inductive SgnOp where | abs | neg | cps
  deriving DecidableEq, Repr
def SgnOp.code : SgnOp → Nat | abs => 0 | neg => 1 | cps => 2
def SgnOp.ofCode : Nat → Option SgnOp | 0 => some abs | 1 => some neg | 2 => some cps | _ => none

/-- FCVT codes (03 R79; 05 R127). -/
inductive Cvt where
  | f32i32 | f32u32 | i32f32 | u32f32 | f32bf16 | bf16f32 | f32f16 | f16f32 | f32i32z | f32u32z | fracf32
  deriving DecidableEq, Repr
def Cvt.code : Cvt → Nat
  | f32i32 => 0 | f32u32 => 1 | i32f32 => 2 | u32f32 => 3 | f32bf16 => 4 | bf16f32 => 5 | f32f16 => 6 | f16f32 => 7
  | f32i32z => 8 | f32u32z => 9 | fracf32 => 10
def Cvt.ofCode : Nat → Option Cvt
  | 0 => some f32i32 | 1 => some f32u32 | 2 => some i32f32 | 3 => some u32f32 | 4 => some f32bf16
  | 5 => some bf16f32 | 6 => some f32f16 | 7 => some f16f32 | 8 => some f32i32z | 9 => some f32u32z
  | 10 => some fracf32 | _ => none

/-- Sizes of LD (03 R81). -/
inductive LdSz where | b | bu | h | hu | w
  deriving DecidableEq, Repr
def LdSz.code : LdSz → Nat | b => 0 | bu => 1 | h => 2 | hu => 3 | w => 4
def LdSz.ofCode : Nat → Option LdSz
  | 0 => some b | 1 => some bu | 2 => some h | 3 => some hu | 4 => some w | _ => none

/-- Sizes of ST (03 R81). -/
inductive StSz where | b | h | w
  deriving DecidableEq, Repr
def StSz.code : StSz → Nat | b => 0 | h => 2 | w => 4
def StSz.ofCode : Nat → Option StSz | 0 => some b | 2 => some h | 4 => some w | _ => none

/-- Sizes of LDAQ, STRL and ACAS (03 R81). -/
inductive AqSz where | w | d
  deriving DecidableEq, Repr
def AqSz.code : AqSz → Nat | w => 4 | d => 6
def AqSz.ofCode : Nat → Option AqSz | 4 => some w | 6 => some d | _ => none

/-- Sizes of the integer atomics (03 R81); wn and dn return nothing. -/
inductive AtSz where | w | wn | d | dn
  deriving DecidableEq, Repr
def AtSz.code : AtSz → Nat | w => 4 | wn => 5 | d => 6 | dn => 7
def AtSz.ofCode : Nat → Option AtSz | 4 => some w | 5 => some wn | 6 => some d | 7 => some dn | _ => none

/-- Sizes of the FP32 atomics (03 R81). -/
inductive AfSz where | w | wn
  deriving DecidableEq, Repr
def AfSz.code : AfSz → Nat | w => 4 | wn => 5
def AfSz.ofCode : Nat → Option AfSz | 4 => some w | 5 => some wn | _ => none

/-- Kinds of CINV and CFLS (03 R81). -/
inductive LineKind where | line | all
  deriving DecidableEq, Repr
def LineKind.code : LineKind → Nat | line => 0 | all => 1
def LineKind.ofCode : Nat → Option LineKind | 0 => some line | 1 => some all | _ => none

/-- Kinds of FENCE (03 R83). -/
inductive FenceKind where | acq | rel | ar
  deriving DecidableEq, Repr
def FenceKind.code : FenceKind → Nat | acq => 1 | rel => 2 | ar => 3
def FenceKind.ofCode : Nat → Option FenceKind | 1 => some acq | 2 => some rel | 3 => some ar | _ => none

/-- PUT without and with a notification (03 R84). -/
inductive PutNote where
  | plain
  | note (tag : Byte) (mb : BitVec 2)
  deriving DecidableEq, Repr

/-- The element type T of a vector instruction (03 R85). -/
inductive ElTy where | f | i
  deriving DecidableEq, Repr
def ElTy.code : ElTy → Nat | f => 0 | i => 1
def ElTy.ofCode : Nat → Option ElTy | 0 => some f | 1 => some i | _ => none

/-- The type of VMIN and VMAX: T with the unsigned choice (03 R85). -/
inductive MinTy where | f | i | u
  deriving DecidableEq, Repr
def MinTy.code : MinTy → Nat | f => 0 | i => 1 | u => 3
def MinTy.ofCode : Nat → Option MinTy | 0 => some f | 1 => some i | 3 => some u | _ => none

/-- VCMP: T and comparison (03 R85). -/
inductive VCmp where | feq | fne | flt | fle | fun_ | ieq | ine | ilt | ile | iltu | ileu
  deriving DecidableEq, Repr
def VCmp.code : VCmp → Nat
  | feq => 0 | fne => 2 | flt => 4 | fle => 6 | fun_ => 12 | ieq => 1 | ine => 3 | ilt => 5 | ile => 7 | iltu => 9
  | ileu => 11
def VCmp.ofCode : Nat → Option VCmp
  | 0 => some feq | 2 => some fne | 4 => some flt | 6 => some fle | 12 => some fun_ | 1 => some ieq | 3 => some ine
  | 5 => some ilt | 7 => some ile | 9 => some iltu | 11 => some ileu | _ => none

/-- VLOGIC operations (03 R85). -/
inductive VLog where | and | or | xor | andn | not
  deriving DecidableEq, Repr
def VLog.code : VLog → Nat | and => 1 | or => 3 | xor => 5 | andn => 7 | not => 9
def VLog.ofCode : Nat → Option VLog
  | 1 => some and | 3 => some or | 5 => some xor | 7 => some andn | 9 => some not | _ => none

/-- The format of an operand slot and of MMG (03 R87). -/
inductive OFmt where | ts | i8 | bf
  deriving DecidableEq, Repr
def OFmt.code : OFmt → Nat | ts => 0 | i8 => 1 | bf => 2
def OFmt.ofCode : Nat → Option OFmt | 0 => some ts | 1 => some i8 | 2 => some bf | _ => none

/-- The role of an operand slot (03 R87). -/
inductive Role where | a | b
  deriving DecidableEq, Repr
def Role.toBool : Role → Bool | a => false | b => true
def Role.ofBool : Bool → Role | false => a | true => b

/-- The source of OLOAD (03 R87). -/
inductive OSrc where | l | w | g
  deriving DecidableEq, Repr
def OSrc.code : OSrc → Nat | l => 0 | w => 1 | g => 2
def OSrc.ofCode : Nat → Option OSrc | 0 => some l | 1 => some w | 2 => some g | _ => none

/-- GRED operations (03 R88). -/
inductive RedOp where | addI | addF | min | max | minu | maxu | and | or
  deriving DecidableEq, Repr
def RedOp.code : RedOp → Nat
  | addI => 0 | addF => 1 | min => 2 | max => 3 | minu => 4 | maxu => 5 | and => 6 | or => 7
def RedOp.ofCode : Nat → Option RedOp
  | 0 => some addI | 1 => some addF | 2 => some min | 3 => some max | 4 => some minu | 5 => some maxu | 6 => some and
  | 7 => some or | _ => none

/-- The name of a virtual tile: its launch, by acceptance number, and its number in the grid. -/
structure TileRef where
  l : Nat
  v : Nat
  deriving DecidableEq, Repr

/-- The name of a thread: its launch, the virtual tile whose thread table holds it, and its index there (THID). -/
structure TRef where
  l : Nat
  v : Nat
  th : Nat
  deriving DecidableEq, Repr

def TRef.tile (t : TRef) : TileRef := ⟨t.l, t.v⟩

/-- A storage word that an upset or a scrub names (22 R415): offsets are of the byte or word inside the unit. -/
inductive StoreUnit where
  | spad (v : TileRef) (off : Nat)
  | parity (v : TileRef) (off : Nat)
  | ctx (t : TRef)
  | slot (v : TileRef) (s w : Nat)
  | acc (v : TileRef) (a i : Nat)
  | rcache (v : TileRef) (line : Nat)
  | mbox (v : TileRef) (mb i : Nat)
  | detlog (t : TRef)
  | router (lt : Nat)
  | icache (v : TileRef) (line : Nat)
  | butterfly (fld : Nat)
  | gateway (fld g : Nat)
  | link (lt : Nat)
  | ws (fld off : Nat)
  | hbm (home off : Nat)
  | tlb (home bank : Nat)
  | atomicUnit (home : Nat)
  | copyEng (home : Nat)
  | port (p : Nat)
  | alu (t : TRef) (copy : Nat)
  deriving DecidableEq, Repr

/-- A unit that can be retired (23 R431, R434), by the KIND, UNIT and WHERE of its record. -/
structure RetUnit where
  kind : Nat
  unit : Nat
  place : Nat
  deriving DecidableEq, Repr

/-- What the physical function asks of the firmware about a page (18 R374, R378): map, unmap, rights, a mapping on
another module, a page made non-resident. The frame is the firmware's choice. -/
inductive PageReq where
  | map (vd home base size frame : Nat) (rd wr resident : Bool)
  | remote (vd home base size : Nat) (rd wr redwin : Bool) (modId rvd raddr : Nat)
  | rights (vd home base : Nat) (rd wr : Bool)
  | unmap (vd home base : Nat)
  | evict (vd home base : Nat)
  | moveTo (vd home base frame : Nat)
  deriving DecidableEq, Repr

/-- What a debug command is about (21 R411). -/
inductive DbgTarget where
  | thread (t : TRef)
  | tile (v : TileRef)
  | gang (l g : Nat)
  | launch (l : Nat)
  deriving DecidableEq, Repr

/-- One constructor for each row of the opcode table, the instruction words in its order, then the events. The
last ones take no arguments: what comes from outside stands in State.input while its event is taken. -/
inductive Instr where
  | add (c : Ctl) (rd ra rb : Reg)
  | sub (c : Ctl) (rd ra rb : Reg)
  | mul (c : Ctl) (rd ra rb : Reg)
  | mulh (c : Ctl) (rd ra rb : Reg)
  | mulhu (c : Ctl) (rd ra rb : Reg)
  | div (c : Ctl) (rd ra rb : Reg)
  | divu (c : Ctl) (rd ra rb : Reg)
  | rem (c : Ctl) (rd ra rb : Reg)
  | remu (c : Ctl) (rd ra rb : Reg)
  | and (c : Ctl) (rd ra rb : Reg)
  | or (c : Ctl) (rd ra rb : Reg)
  | xor (c : Ctl) (rd ra rb : Reg)
  | andn (c : Ctl) (rd ra rb : Reg)
  | shl (c : Ctl) (rd ra rb : Reg)
  | shr (c : Ctl) (rd ra rb : Reg)
  | sar (c : Ctl) (rd ra rb : Reg)
  | rol (c : Ctl) (rd ra rb : Reg)
  | clz (c : Ctl) (rd ra : Reg)
  | popc (c : Ctl) (rd ra : Reg)
  | brev (c : Ctl) (rd ra : Reg)
  | min (c : Ctl) (rd ra rb : Reg)
  | max (c : Ctl) (rd ra rb : Reg)
  | minu (c : Ctl) (rd ra rb : Reg)
  | maxu (c : Ctl) (rd ra rb : Reg)
  | adds (c : Ctl) (u : Sat) (rd ra rb : Reg)
  | subs (c : Ctl) (u : Sat) (rd ra rb : Reg)
  | cmp (c : Ctl) (cc : CC) (rd ra rb : Reg)
  | sel (c : Ctl) (rd ra rb rc : Reg)
  | mov (c : Ctl) (rd ra : Reg)
  | extb (c : Ctl) (sgn : Bool) (rd ra : Reg) (pos w1 : BitVec 5)
  | insb (c : Ctl) (rd ra : Reg) (pos w1 : BitVec 5)
  | hash (c : Ctl) (rd ra rb : Reg)
  | bswap (c : Ctl) (rd ra : Reg)
  | addi (c : Ctl) (rd ra : Reg) (imm : BitVec 24)
  | andi (c : Ctl) (rd ra : Reg) (imm : BitVec 24)
  | ori (c : Ctl) (rd ra : Reg) (imm : BitVec 24)
  | xori (c : Ctl) (rd ra : Reg) (imm : BitVec 24)
  | shli (c : Ctl) (rd ra : Reg) (imm : BitVec 24)
  | shri (c : Ctl) (rd ra : Reg) (imm : BitVec 24)
  | sari (c : Ctl) (rd ra : Reg) (imm : BitVec 24)
  | cmpi (c : Ctl) (cc : CC) (rd ra : Reg) (imm : BitVec 24)
  | movi (c : Ctl) (rd : Reg) (imm : BitVec 32)
  | movhi (c : Ctl) (rd : Reg) (imm : BitVec 32)
  | fadd (c : Ctl) (rd ra rb : Reg)
  | fsub (c : Ctl) (rd ra rb : Reg)
  | fmul (c : Ctl) (rd ra rb : Reg)
  | ffma (c : Ctl) (rd ra rb rc : Reg)
  | fmin (c : Ctl) (rd ra rb : Reg)
  | fmax (c : Ctl) (rd ra rb : Reg)
  | fcmp (c : Ctl) (cc : FCC) (rd ra rb : Reg)
  | fsgn (c : Ctl) (k : SgnOp) (rd ra rb : Reg)
  | frcp (c : Ctl) (rd ra : Reg)
  | frsq (c : Ctl) (rd ra : Reg)
  | fcvt (c : Ctl) (k : Cvt) (rd ra : Reg)
  | fcls (c : Ctl) (rd ra : Reg)
  | addp (c : Ctl) (rd ra rb : Reg)
  | addpi (c : Ctl) (rd ra : Reg) (imm : BitVec 24)
  | movp (c : Ctl) (rd ra : Reg)
  | cmpp (c : Ctl) (cc : CC) (rd ra rb : Reg)
  | br (c : Ctl) (off : BitVec 24)
  | bz (c : Ctl) (pair : Bool) (ra : Reg) (off : BitVec 24)
  | bnz (c : Ctl) (pair : Bool) (ra : Reg) (off : BitVec 24)
  | loop (c : Ctl) (ra : Reg) (off : BitVec 24)
  | call (c : Ctl) (off : BitVec 24)
  | pca (c : Ctl) (ra : Reg) (off : BitVec 24)
  | callr (c : Ctl) (ra : Reg)
  | jmpr (c : Ctl) (ra : Reg)
  | ret (c : Ctl)
  | dly (c : Ctl) (imm : BitVec 24)
  | yield (c : Ctl)
  | exit (c : Ctl)
  | wait (c : Ctl)
  | bkpt (c : Ctl) (imm : BitVec 24)
  | ld (c : Ctl) (sz : LdSz) (go : Bool) (rt pb : Reg) (off : BitVec 24)
  | st (c : Ctl) (sz : StSz) (go : Bool) (rt pb : Reg) (off : BitVec 24)
  | ldp (c : Ctl) (go : Bool) (rt pb : Reg) (off : BitVec 24)
  | stp (c : Ctl) (go : Bool) (rt pb : Reg) (off : BitVec 24)
  | ldaq (c : Ctl) (sz : AqSz) (rt pb : Reg) (off : BitVec 24)
  | strl (c : Ctl) (sz : AqSz) (rt pb : Reg) (off : BitVec 24)
  | aadd (c : Ctl) (sz : AtSz) (go : Bool) (rt pb : Reg) (off : BitVec 24)
  | aand (c : Ctl) (sz : AtSz) (go : Bool) (rt pb : Reg) (off : BitVec 24)
  | aor (c : Ctl) (sz : AtSz) (go : Bool) (rt pb : Reg) (off : BitVec 24)
  | axor (c : Ctl) (sz : AtSz) (go : Bool) (rt pb : Reg) (off : BitVec 24)
  | amin (c : Ctl) (sz : AtSz) (go : Bool) (rt pb : Reg) (off : BitVec 24)
  | amax (c : Ctl) (sz : AtSz) (go : Bool) (rt pb : Reg) (off : BitVec 24)
  | aminu (c : Ctl) (sz : AtSz) (go : Bool) (rt pb : Reg) (off : BitVec 24)
  | amaxu (c : Ctl) (sz : AtSz) (go : Bool) (rt pb : Reg) (off : BitVec 24)
  | axch (c : Ctl) (sz : AtSz) (go : Bool) (rt pb : Reg) (off : BitVec 24)
  | acas (c : Ctl) (sz : AqSz) (go : Bool) (rt pb : Reg) (off : BitVec 24)
  | afadd (c : Ctl) (sz : AfSz) (go : Bool) (rt pb : Reg) (off : BitVec 24)
  | afmin (c : Ctl) (sz : AfSz) (go : Bool) (rt pb : Reg) (off : BitVec 24)
  | afmax (c : Ctl) (sz : AfSz) (go : Bool) (rt pb : Reg) (off : BitVec 24)
  | cinv (c : Ctl) (k : LineKind) (pb : Reg) (off : BitVec 24)
  | cfls (c : Ctl) (k : LineKind) (pb : Reg) (off : BitVec 24)
  | fence (c : Ctl) (k : FenceKind) (sc : Scope)
  | pfence (c : Ctl) (paths : BitVec 5)
  | send (c : Ctl) (vt pl : Reg) (tag : BitVec 8) (mb : BitVec 2)
  | recv (c : Ctl) (pd gi : Reg) (mb : BitVec 2)
  | mpoll (c : Ctl) (rd : Reg) (mb : BitVec 2)
  | put (c : Ctl) (nt : PutNote) (vt dst src n : Reg)
  | get (c : Ctl) (dst vt src n : Reg)
  | migr (c : Ctl) (vt : Reg)
  | xin (c : Ctl) (loc gp sh : Reg)
  | xout (c : Ctl) (loc gp sh : Reg)
  | vadd (c : Ctl) (t : ElTy) (d a b n : Reg)
  | vsub (c : Ctl) (t : ElTy) (d a b n : Reg)
  | vmul (c : Ctl) (t : ElTy) (d a b n : Reg)
  | vfma (c : Ctl) (t : ElTy) (d a b e n : Reg)
  | vmin (c : Ctl) (t : MinTy) (d a b n : Reg)
  | vmax (c : Ctl) (t : MinTy) (d a b n : Reg)
  | vscl (c : Ctl) (t : ElTy) (d a b n : Reg)
  | vadds (c : Ctl) (t : ElTy) (d a b n : Reg)
  | vabs (c : Ctl) (t : ElTy) (d a n : Reg)
  | vneg (c : Ctl) (t : ElTy) (d a n : Reg)
  | vexp (c : Ctl) (d a n : Reg)
  | vlog (c : Ctl) (d a n : Reg)
  | vrcp (c : Ctl) (d a n : Reg)
  | vrsq (c : Ctl) (d a n : Reg)
  | vtanh (c : Ctl) (d a n : Reg)
  | vsum (c : Ctl) (t : ElTy) (d a n : Reg)
  | vmaxr (c : Ctl) (t : ElTy) (d a n : Reg)
  | vminr (c : Ctl) (t : ElTy) (d a n : Reg)
  | vargm (c : Ctl) (t : ElTy) (d a n : Reg)
  | vdot (c : Ctl) (t : ElTy) (d a b n : Reg)
  | vcmp (c : Ctl) (k : VCmp) (d a b n : Reg)
  | vsel (c : Ctl) (t : ElTy) (d a b e n : Reg)
  | vgath (c : Ctl) (t : ElTy) (d a b n : Reg)
  | vscat (c : Ctl) (t : ElTy) (d a b n : Reg)
  | vbcst (c : Ctl) (t : ElTy) (d a n : Reg)
  | viota (c : Ctl) (t : ElTy) (d a n : Reg)
  | vcopy (c : Ctl) (t : ElTy) (d a n : Reg)
  | vlogic (c : Ctl) (k : VLog) (d a b n : Reg)
  | vhash (c : Ctl) (d a b n : Reg)
  | wset (c : Ctl) (w : BitVec 3) (ra : Reg)
  | wget (c : Ctl) (w : BitVec 3) (ra : Reg)
  | qload (c : Ctl) (seeds : Bool) (ra rb : Reg) (cnt : BitVec 7)
  | qsave (c : Ctl) (seeds : Bool) (ra rb : Reg) (cnt : BitVec 7)
  | qseed (c : Ctl) (x : Bool) (ra rb : Reg)
  | qgen (c : Ctl) (rd ra rb : Reg)
  | qgenv (c : Ctl) (dst dim idx n : Reg)
  | oclm (c : Ctl) (s : Reg) (fm : OFmt) (role : Role)
  | orls (c : Ctl) (rd : Reg)
  | oload (c : Ctl) (k : OSrc) (s src len : Reg)
  | mmg (c : Ctl) (k : OFmt) (acc : BitVec 1) (sa sb fd : Reg)
  | mol (c : Ctl) (acc : BitVec 1) (sa lst n : Reg)
  | mdrn (c : Ctl) (acc : BitVec 1) (dst cs rs : Reg)
  | mclr (c : Ctl) (acc : BitVec 1)
  | mstat (c : Ctl) (rd : Reg) (acc : BitVec 1)
  | trst (c : Ctl) (rd : Reg)
  | tadd (c : Ctl) (rd : Reg) (imm : BitVec 24)
  | trd (c : Ctl) (rd ra : Reg)
  | gnew (c : Ctl) (rd ra : Reg)
  | gjoin (c : Ctl) (ra : Reg)
  | gleave (c : Ctl) (ra : Reg)
  | gfree (c : Ctl) (ra : Reg)
  | gcnt (c : Ctl) (rd ra : Reg)
  | gbar (c : Ctl) (ra k : Reg)
  | gred (c : Ctl) (k : RedOp) (h val cnt res tok : Reg)
  | copy (c : Ctl) (res : Bool) (ra : Reg)
  | cpyx (c : Ctl) (ra : Reg)
  | cpyq (c : Ctl) (rd ra : Reg)
  | lnch (c : Ctl) (ra : Reg)
  | trig (c : Ctl)
  | lwait (c : Ctl)
  | trap (c : Ctl) (imm : BitVec 24)
  | rett (c : Ctl) (nx : Bool)
  | srd (c : Ctl) (rd : Reg) (imm : BitVec 24) (sf : BitVec 4)
  | swr (c : Ctl) (ra : Reg) (imm : BitVec 24) (sf : BitVec 4)
  | spawn (c : Ctl) (se : Bool) (ti ent arg k : Reg)
  | reap (c : Ctl) (rd ra : Reg)
  | svc (c : Ctl) (imm : BitVec 24)
  | einj (c : Ctl) (gx gm tgt : Reg)
  | idem (c : Ctl)
  | fixedLatencyWriteback (t : TRef) (id : Nat)
  | longLatencyWrite (op : Nat)
  | signalPost (t : TRef) (region : Nat) (k : Tok) (n : Nat)
  | gapExpiry (t : TRef)
  | dlyExpiry (t : TRef)
  | takenTransferRefetch (t : TRef)
  | scalarFpTrap (t : TRef) (id : Nat)
  | reportDelivery (t : TRef)
  | consumedError (t : TRef)
  | deferredFaultReport (op : Nat)
  | retryLatchRelease (t : TRef)
  | threadReady (t : TRef)
  | vectorOpStart (op : Nat)
  | vectorOpComplete (op : Nat)
  | qruCommandComplete (op : Nat)
  | transferComplete (op : Nat)
  | oloadComplete (op : Nat)
  | gangLineRelease (l g : Nat)
  | mmgExecute (op : Nat)
  | molExecute (op : Nat)
  | mdrnExecute (op : Nat)
  | mclrExecute (op : Nat)
  | mstatExecute (op : Nat)
  | parityUpdate (v : TileRef) (w : Nat)
  | refreshWindowBegin (fld sl : Nat)
  | refreshWindowEnd (fld sl : Nat)
  | messageDelivery (op : Nat)
  | remoteAccessServe (op : Nat)
  | migrationDeparture (t : TRef)
  | migrationLanding (op : Nat)
  | returnHome (t : TRef)
  | homeAccess (op : Nat)
  | tlbWalkComplete (w : Nat)
  | notResidentReport (op : Nat)
  | pageResident (vd home base : Nat)
  | pageMoveSector (vd home base : Nat)
  | readCacheRefill (op : Nat)
  | writeBufferRelease (op : Nat)
  | groupOpAtHome (op : Nat)
  | groupAck (op : Nat)
  | copyUnitComplete (op : Nat)
  | launchAccept (vd q : Nat)
  | copyListEntry (l : Nat)
  | gangPlacement (l g : Nat) (place : Nat)
  | parkQueueDelivery (v : TileRef)
  | workDonation (l src dst : Nat)
  | vttCacheRefill (v : TileRef) (target : Nat)
  | gangSwapOut (l g : Nat)
  | gangRestore (l g : Nat) (place : Nat)
  | launchComplete (l : Nat)
  | quantumExpiry (l g : Nat)
  | dispatch (pool : Nat)
  | boostExpiry (pool : Nat)
  | preemption (l : Nat)
  | chunkCountCut (t : TRef)
  | commitTurn (l : Nat)
  | killFlood (l : Nat)
  | killSweepEnd (l : Nat)
  | killConfirm (l : Nat)
  | uncontainedError (u : StoreUnit)
  | voteRecord (p : Nat)
  | unitRetire (u : RetUnit) (reason : Nat)
  | droopEvent (fld mon : Nat)
  | woreriFlitReceive (port : Nat) (flit : List Byte)
  | woreriNakReplay (port : Nat) (seq : Nat)
  | laneRetrain (port lane : Nat)
  | reduceOpPerform (op : Nat)
  | svcReturn (t : TRef)
  | illegalOp (w : DWord)
  | vdCapped (vd : Nat)
  | allowancePeriodBegin
  | governorTick
  | hostLinkDown
  | hostLinkUp
  | qtailDoorbell
  | queueConfigWrite
  | hostWindowRead
  | hostWindowWrite
  | cmdKill
  | cmdKillvd
  | poolTableWrite
  | vdTableWrite
  | netctlWrite
  | routeWrite
  | dbgcertWrite
  | registerWrite
  | spdmSessionEstablish
  | debugStop
  | debugStep
  | debugWithdraw
  | debugArm
  | debugDisarm
  | debugRead
  | debugWrite
  | detach
  | endSession
  | sessionTimeout
  | moduleReset
  | powerLoss
  | temperatureChange
  | softError
  | scrub
  | physicalFunctionPageRequest
  | ringOscillatorWindow
  deriving DecidableEq, Repr

end Sys2Proof
end

