-- ==== Sys2Proof/Machine/Fp.lean ====
section
/-!
DEFINITION. Floating-point arithmetic (04): values, the one rounding operation, the operations of R98 to R106 and the
conversions of 05 R127. A value is exact (sign, integer, power of two); rounding happens once, at the end.
-/
namespace Sys2Proof.Machine

/-- Rounding modes (04 R98), with FPCTL.RM's codes (02 R29). -/
inductive RM where | rne | rz | rup | rdn
  deriving DecidableEq, Repr

def RM.ofBits (b : BitVec 2) : RM :=
  if b = 0 then .rne else if b = 1 then .rz else if b = 2 then .rup else .rdn

/-- A floating-point format: exponent and fraction bits (04 R90). -/
structure FFmt where
  eb : Nat
  mb : Nat

def fp32 : FFmt := ⟨8, 23⟩
def bf16 : FFmt := ⟨8, 7⟩
def fp16 : FFmt := ⟨5, 10⟩

def FFmt.bias (f : FFmt) : Nat := 2 ^ (f.eb - 1) - 1
/-- The exponent of the least subnormal's unit. -/
def FFmt.emin (f : FFmt) : Int := 1 - (f.bias : Int) - (f.mb : Int)
def FFmt.signBit (f : FFmt) : Nat := 2 ^ (f.eb + f.mb)
def FFmt.infBits (f : FFmt) : Nat := (2 ^ f.eb - 1) * 2 ^ f.mb
def FFmt.maxBits (f : FFmt) : Nat := f.infBits - 1
/-- The canonical NaN (04 R103). -/
def FFmt.nanBits (f : FFmt) : Nat := f.infBits + 2 ^ (f.mb - 1)

/-- An exact value: (−1)^neg × m × 2^e. -/
inductive FVal where
  | nan
  | inf (neg : Bool)
  | fin (neg : Bool) (m : Nat) (e : Int)
  deriving DecidableEq, Repr

/-- Exceptions: bits 0 to 4 are invalid, division by zero, overflow, underflow, inexact (02 R29). -/
abbrev Exc := BitVec 5
def excInvalid : Exc := 1
def excDiv0 : Exc := 2
def excOverflow : Exc := 4
def excUnderflow : Exc := 8
def excInexact : Exc := 16

def FVal.ofBits (f : FFmt) (b : Nat) : FVal :=
  let neg := decide (b / f.signBit % 2 = 1)
  let ex := b / 2 ^ f.mb % 2 ^ f.eb
  let fr := b % 2 ^ f.mb
  if ex = 2 ^ f.eb - 1 then (if fr = 0 then .inf neg else .nan)
  else if ex = 0 then .fin neg fr f.emin
  else .fin neg (fr + 2 ^ f.mb) (f.emin + (ex - 1 : Nat))

def FVal.isZero : FVal → Bool
  | .fin _ 0 _ => true | _ => false

def FVal.neg : FVal → FVal
  | .nan => .nan | .inf s => .inf !s | .fin s m e => .fin (!s) m e

/-- Whether rounding moves a magnitude up: `odd` the kept unit's lowest bit, `c` how the rest compares with half. -/
def roundsUp (rm : RM) (neg odd : Bool) (rest half : Nat) : Bool :=
  match rm with
  | .rne => decide (rest > half) || (decide (rest = half) && odd)
  | .rz => false
  | .rup => !neg && decide (rest ≠ 0)
  | .rdn => neg && decide (rest ≠ 0)

/-- Rounds m × 2^e (with a nonzero remainder below it when `sticky`) to a multiple of 2^q: the multiple and whether it
is inexact. -/
def roundTo (rm : RM) (neg : Bool) (m : Nat) (e : Int) (sticky : Bool) (q : Int) : Nat × Bool :=
  let m' := 4 * m + (if sticky then 1 else 0)
  let d := q - (e - 2)
  if d ≤ 0 then (m' * 2 ^ (-d).toNat, false)
  else
    let d := d.toNat
    let kept := m' / 2 ^ d
    let rest := m' % 2 ^ d
    let up := roundsUp rm neg (kept % 2 == 1) rest (2 ^ (d - 1))
    (if up then kept + 1 else kept, decide (rest ≠ 0))

/-- What overflow delivers (04 R98). -/
def overflowBits (f : FFmt) (rm : RM) (neg : Bool) : Nat :=
  match rm with
  | .rne => f.infBits
  | .rz => f.maxBits
  | .rup => if neg then f.maxBits else f.infBits
  | .rdn => if neg then f.infBits else f.maxBits

/-- Rounds a nonzero magnitude to a format, with the flags of 04 R100: the bits and the exceptions. The row of underflow is read of the
delivered bits below the smallest normal, an inexact result that rounds to zero among them: that its exact value, not what is
delivered, is the one that is non-zero, is the model's reading (DEDUCED, log 50). -/
def roundFin (f : FFmt) (rm : RM) (neg : Bool) (m : Nat) (e : Int) (sticky : Bool) : Nat × Exc :=
  let sgn := if neg then f.signBit else 0
  let q := max (e + (m.log2 : Int) - (f.mb : Int)) f.emin
  let (k, nx) := roundTo rm neg m e sticky q
  let bits := (q - f.emin).toNat * 2 ^ f.mb + k
  if bits ≥ f.infBits then (sgn + overflowBits f rm neg, excOverflow ||| excInexact)
  else
    (sgn + bits, (if nx then excInexact else 0) |||
      (if nx && decide (bits < 2 ^ f.mb) then excUnderflow else 0))

/-- Rounds an exact value to a format. -/
def FVal.round (f : FFmt) (rm : RM) : FVal → Nat × Exc
  | .nan => (f.nanBits, 0)
  | .inf s => ((if s then f.signBit else 0) + f.infBits, 0)
  | .fin s m e => if m = 0 then ((if s then f.signBit else 0), 0) else roundFin f rm s m e false

/-- A finite value as an integer multiple of 2^e'. Needs e' ≤ e. -/
def scaled (s : Bool) (m : Nat) (e e' : Int) : Int :=
  let v : Int := (m : Int) * 2 ^ (e - e').toNat
  if s then -v else v

def FVal.ofInt (z : Bool) (i : Int) (e : Int) : FVal :=
  if i = 0 then .fin z 0 e else .fin (decide (i < 0)) i.natAbs e

/-- The exact sum; ∞ − ∞ is invalid; the sign of a zero sum is 04 R98's. -/
def FVal.add (rm : RM) : FVal → FVal → FVal × Exc
  | .nan, _ => (.nan, 0)
  | _, .nan => (.nan, 0)
  | .inf s, .inf t => if s = t then (.inf s, 0) else (.nan, excInvalid)
  | .inf s, _ => (.inf s, 0)
  | _, .inf t => (.inf t, 0)
  | .fin s m e, .fin t n d =>
    let q := min e d
    let sum := scaled s m e q + scaled t n d q
    if sum = 0 then (.fin (if s = t then s else decide (rm = .rdn)) 0 q, 0)
    else (FVal.ofInt false sum q, 0)

/-- The exact product; 0 × ∞ is invalid. -/
def FVal.mul : FVal → FVal → FVal × Exc
  | .nan, _ => (.nan, 0)
  | _, .nan => (.nan, 0)
  | .inf s, .inf t => (.inf (s != t), 0)
  | .inf s, .fin t n _ => if n = 0 then (.nan, excInvalid) else (.inf (s != t), 0)
  | .fin s m _, .inf t => if m = 0 then (.nan, excInvalid) else (.inf (s != t), 0)
  | .fin s m e, .fin t n d => (.fin (s != t) (m * n) (e + d), 0)

/-- Rounds what an exact operation gave, joining its exceptions. -/
def rnd (f : FFmt) (rm : RM) (r : FVal × Exc) : Nat × Exc :=
  let (b, x) := r.1.round f rm
  (b, x ||| r.2)

def w32 (r : Nat × Exc) : Word × Exc := (BitVec.ofNat 32 r.1, r.2)
def v32 (w : Word) : FVal := FVal.ofBits fp32 w.toNat

/-- FADD, FSUB, FMUL, FFMA (05 R125). -/
def fpAdd (rm : RM) (a b : Word) : Word × Exc := w32 (rnd fp32 rm (FVal.add rm (v32 a) (v32 b)))
def fpSub (rm : RM) (a b : Word) : Word × Exc := w32 (rnd fp32 rm (FVal.add rm (v32 a) (v32 b).neg))
def fpMul (rm : RM) (a b : Word) : Word × Exc := w32 (rnd fp32 rm (FVal.mul (v32 a) (v32 b)))
def fpFma (rm : RM) (a b c : Word) : Word × Exc :=
  let p := FVal.mul (v32 a) (v32 b)
  let s := FVal.add rm p.1 (v32 c)
  w32 (rnd fp32 rm (s.1, s.2 ||| p.2))

/-- Orders two values that are no NaN, −0 below +0 (04 R104); `lt` is strict. -/
def FVal.ltTotal : FVal → FVal → Bool
  | .nan, _ => false
  | _, .nan => false
  | .inf s, .inf t => s && !t
  | .inf s, _ => s
  | _, .inf t => !t
  | .fin s m e, .fin t n d =>
    let q := min e d
    let x := scaled s m e q
    let y := scaled t n d q
    decide (x < y) || (decide (x = y) && s && !t && decide (x = 0))

/-- FMIN and FMAX (04 R104). -/
def fpMin (a b : Word) : Word :=
  match v32 a, v32 b with
  | .nan, .nan => 0x7FC00000
  | .nan, _ => b
  | _, .nan => a
  | x, y => if FVal.ltTotal y x then b else a
def fpMax (a b : Word) : Word :=
  match v32 a, v32 b with
  | .nan, .nan => 0x7FC00000
  | .nan, _ => b
  | _, .nan => a
  | x, y => if FVal.ltTotal x y then b else a

/-- IEEE comparisons: +0 equals −0, a NaN is unordered (05 R126). -/
def FVal.eqv : FVal → FVal → Bool
  | .nan, _ => false
  | _, .nan => false
  | .inf s, .inf t => s == t
  | .fin s m e, .fin t n d => let q := min e d; decide (scaled s m e q = scaled t n d q)
  | _, _ => false
def FVal.ltv (a b : FVal) : Bool := FVal.ltTotal a b && !FVal.eqv a b
def FVal.isNan : FVal → Bool
  | .nan => true | _ => false

def fpCmp (k : FCC) (a b : Word) : Bool :=
  let x := v32 a; let y := v32 b
  match k with
  | .eq => x.eqv y
  | .ne => !x.eqv y
  | .lt => x.ltv y
  | .le => x.ltv y || x.eqv y
  | .un => x.isNan || y.isNan
  | .ord => !(x.isNan || y.isNan)

/-- FSGN (05 R126). -/
def fpSgn (k : SgnOp) (a b : Word) : Word :=
  if (v32 a).isNan then 0x7FC00000
  else match k with
    | .abs => a &&& 0x7FFFFFFF
    | .neg => a ^^^ 0x80000000
    | .cps => (a &&& 0x7FFFFFFF) ||| (b &&& 0x80000000)

/-- FCLS (05 R126). -/
def fpClass (a : Word) : Word :=
  match v32 a with
  | .nan => 0x100
  | .inf true => 0x001
  | .inf false => 0x080
  | .fin s m _ =>
    if m = 0 then (if s then 0x008 else 0x010)
    else if m < 2 ^ 23 then (if s then 0x004 else 0x020)
    else (if s then 0x002 else 0x040)

/-- The quotient m1·2^e1 ÷ (m2·2^e2) of nonzero magnitudes, to 200 bits, and whether anything is left below. -/
def quoMag (m1 : Nat) (e1 : Int) (m2 : Nat) (e2 : Int) : Nat × Int × Bool :=
  let n := m1 * 2 ^ 200
  (n / m2, e1 - e2 - 200, decide (n % m2 ≠ 0))

/-- a ÷ b rounded (window scale divide 04 R110; reciprocals R106). -/
def fpDivV (f : FFmt) (rm : RM) : FVal → FVal → Nat × Exc
  | .nan, _ => (f.nanBits, 0)
  | _, .nan => (f.nanBits, 0)
  | .inf _, .inf _ => (f.nanBits, excInvalid)
  | .inf s, .fin t _ _ => ((if s != t then f.signBit else 0) + f.infBits, 0)
  | .fin s _ _, .inf t => ((if s != t then f.signBit else 0), 0)
  | .fin s m e, .fin t n d =>
    let sg := s != t
    if n = 0 then
      if m = 0 then (f.nanBits, excInvalid)
      else ((if sg then f.signBit else 0) + f.infBits, excDiv0)
    else if m = 0 then ((if sg then f.signBit else 0), 0)
    else
      let (k, ex, st) := quoMag m e n d
      roundFin f rm sg k ex st

def fpRcp (rm : RM) (a : Word) : Word × Exc := w32 (fpDivV fp32 rm (.fin false 1 0) (v32 a))

/-- 1/√x (04 R106): from an integer square root of 2^k / m with at least 100 bits. -/
def fpRsq (rm : RM) (a : Word) : Word × Exc :=
  match v32 a with
  | .nan => (0x7FC00000, 0)
  | .inf true => (0x7FC00000, excInvalid)
  | .inf false => (0, 0)
  | .fin s m e =>
    if m = 0 then ((if s then 0xFF800000 else 0x7F800000), excDiv0)
    else if s then (0x7FC00000, excInvalid)
    else
      let (m, e) : Nat × Int := if e % 2 = 0 then (m, e) else (2 * m, e - 1)
      let n := 2 ^ 300 / m
      let r := Nat.sqrt n
      w32 (roundFin fp32 rm false r (-e / 2 - 150) (decide (r * r * m ≠ 2 ^ 300)))

/-! ### Conversions -/

/-- To an integer format with range lo to hi (04 R105). -/
def toIntFmt (rm : RM) (lo hi : Int) : FVal → Int × Exc
  | .nan => (0, excInvalid)
  | .inf true => (lo, excInvalid)
  | .inf false => (hi, excInvalid)
  | .fin s m e =>
    let (k, nx) := roundTo rm s m e false 0
    let i : Int := if s then -(k : Int) else k
    if i < lo then (lo, excInvalid) else if hi < i then (hi, excInvalid)
    else (i, if nx then excInexact else 0)

def fpOfInt (rm : RM) (i : Int) : Word × Exc := w32 (rnd fp32 rm (FVal.ofInt false i 0, 0))

/-- FCVT (05 R127). -/
def fpCvt (k : Cvt) (rm : RM) (a : Word) : Word × Exc :=
  let toI (rm : RM) (lo hi : Int) : Word × Exc :=
    let r := toIntFmt rm lo hi (v32 a); (BitVec.ofInt 32 r.1, r.2)
  match k with
  | .f32i32 => toI rm (-2 ^ 31) (2 ^ 31 - 1)
  | .f32u32 => toI rm 0 (2 ^ 32 - 1)
  | .i32f32 => fpOfInt rm a.toInt
  | .u32f32 => fpOfInt rm a.toNat
  | .f32bf16 => w32 ((v32 a).round bf16 rm)
  | .bf16f32 => w32 ((FVal.ofBits bf16 (a.toNat % 2 ^ 16)).round fp32 .rne)
  | .f32f16 => w32 ((v32 a).round fp16 rm)
  | .f16f32 => w32 ((FVal.ofBits fp16 (a.toNat % 2 ^ 16)).round fp32 .rne)
  | .f32i32z => toI .rz (-2 ^ 31) (2 ^ 31 - 1)
  | .f32u32z => toI .rz 0 (2 ^ 32 - 1)
  | .fracf32 => w32 ((FVal.fin false (a.toNat / 256) (-24)).round fp32 .rne)

/-! ### Transcendentals (04 R106): fixed point with `tb` fraction bits, then one rounding -/

def tb : Nat := 700

/-- ∑ aⁿ/n! in fixed point, from the term given, while terms last. -/
def expSeries (a : Nat) : Nat → Nat → Nat → Nat → Nat
  | 0, _, _, acc => acc
  | fuel + 1, n, term, acc =>
    let term := term * a / 2 ^ tb / n
    expSeries a fuel (n + 1) term (acc + term)

/-- ∑ z^(2i+1)/(2i+1) in fixed point (atanh z). -/
def atanhSeries (z2 : Nat) : Nat → Nat → Nat → Nat → Nat
  | 0, _, _, acc => acc
  | fuel + 1, n, p, acc =>
    atanhSeries z2 fuel (n + 2) (p * z2 / 2 ^ tb) (acc + p / n)

def atanhFix (z : Nat) : Nat := atanhSeries (z * z / 2 ^ tb) 460 1 z 0

/-- ln 2 = 2 atanh(1/3). -/
def ln2Fix : Nat := 2 * atanhFix (2 ^ tb / 3)

/-- e^a for a fixed-point a ≥ 0, as (fraction, power of two). -/
def expFix (a : Nat) : Nat × Nat :=
  let k := a / ln2Fix
  (expSeries (a - k * ln2Fix) 200 1 (2 ^ tb) (2 ^ tb), k)

/-- A magnitude in fixed point; exact for every FP32 value. -/
def fixOf (m : Nat) (e : Int) : Nat := if e ≥ 0 then m * 2 ^ (tb + e.toNat) else m * 2 ^ tb / 2 ^ (-e).toNat

def fpExp (rm : RM) (a : Word) : Word × Exc :=
  match v32 a with
  | .nan => (0x7FC00000, 0)
  | .inf true => (0, 0)
  | .inf false => (0x7F800000, 0)
  | .fin s m e =>
    if m = 0 then (0x3F800000, 0)
    else if decide (m * 2 ^ e.toNat ≥ 200 * 2 ^ (-e).toNat) then
      w32 (roundFin fp32 rm false (2 ^ 30) (if s then -1000 else 1000) true)
    else
      let (t, k) := expFix (fixOf m e)
      if s then w32 (roundFin fp32 rm false (2 ^ (2 * tb) / t) (-(k : Int) - tb) true)
      else w32 (roundFin fp32 rm false t ((k : Int) - tb) true)

def fpLog (rm : RM) (a : Word) : Word × Exc :=
  match v32 a with
  | .nan => (0x7FC00000, 0)
  | .inf true => (0x7FC00000, excInvalid)
  | .inf false => (0x7F800000, 0)
  | .fin s m e =>
    if m = 0 then (0xFF800000, excDiv0)
    else if s then (0x7FC00000, excInvalid)
    else if a = 0x3F800000 then (0, 0)
    else
      let l := m.log2
      let f := m * 2 ^ tb / 2 ^ l
      let k : Int := e + l
      let lf := 2 * atanhFix ((f - 2 ^ tb) * 2 ^ tb / (f + 2 ^ tb))
      let r : Int := k * ln2Fix + lf
      w32 (roundFin fp32 rm (decide (r < 0)) r.natAbs (-(tb : Int)) true)

def fpTanh (rm : RM) (a : Word) : Word × Exc :=
  match v32 a with
  | .nan => (0x7FC00000, 0)
  | .inf s => ((if s then 0xBF800000 else 0x3F800000), 0)
  | .fin s m e =>
    if m = 0 then (a, 0)
    else if decide (m * 2 ^ e.toNat ≥ 100 * 2 ^ (-e).toNat) then
      w32 (roundFin fp32 rm s (2 ^ 200 - 1) (-200) true)
    else
      let (t, k) := expFix (2 * fixOf m e)
      let ex := t * 2 ^ k
      let one := 2 ^ tb
      w32 (roundFin fp32 rm s ((ex - one) * 2 ^ tb / (ex + one)) (-(tb : Int)) true)

end Sys2Proof.Machine
end

