-- ==== Sys2Proof/Machine/Table.lean ====
section
/-!
DEFINITION. The plain-data containers of State: tables (association lists) and byte memories in one canonical form.
-/
namespace Sys2Proof.Machine

/-- A table: at most one entry a key. -/
abbrev Assoc (κ α : Type) := List (κ × α)

def Assoc.get? {κ α : Type} [DecidableEq κ] : Assoc κ α → κ → Option α
  | [], _ => none
  | (k', a) :: t, k => if k' = k then some a else Assoc.get? t k

/-- Replaces the entry of a key, or adds it at the end. -/
def Assoc.set {κ α : Type} [DecidableEq κ] : Assoc κ α → κ → α → Assoc κ α
  | [], k, a => [(k, a)]
  | (k', a') :: t, k, a => if k' = k then (k, a) :: t else (k', a') :: Assoc.set t k a

def Assoc.del {κ α : Type} [DecidableEq κ] (t : Assoc κ α) (k : κ) : Assoc κ α :=
  t.filter fun e => e.1 ≠ k

/-- Applies `f` to the entry of a key, if there is one. -/
def Assoc.upd {κ α : Type} [DecidableEq κ] : Assoc κ α → κ → (α → α) → Assoc κ α
  | [], _, _ => []
  | (k', a') :: t, k, f => if k' = k then (k', f a') :: t else (k', a') :: Assoc.upd t k f

/-- A byte memory: the cells that differ from zero, by rising address. What an unlisted address reads as is zero
(log 4). -/
abbrev Memory := List Host.Cell

/-- The byte that an unlisted address reads as. -/
def Memory.blank : Byte := 0

def Memory.read : Memory → Nat → Byte
  | [], _ => Memory.blank
  | (a', b) :: t, a => if a' = a then b else Memory.read t a

/-- Writes a byte, keeping the canonical form. -/
def Memory.write : Memory → Nat → Byte → Memory
  | [], a, b => if b = Memory.blank then [] else [(a, b)]
  | (a', b') :: t, a, b =>
    if a < a' then (if b = Memory.blank then (a', b') :: t else (a, b) :: (a', b') :: t)
    else if a = a' then (if b = Memory.blank then t else (a, b) :: t)
    else (a', b') :: Memory.write t a b

/-- The canonical form: every listed address at least `lo`, rising strictly, and no listed byte blank. -/
def Memory.wfFrom : Nat → Memory → Bool
  | _, [] => true
  | lo, (a, b) :: t => decide (lo ≤ a) && decide (b ≠ Memory.blank) && Memory.wfFrom (a + 1) t

def Memory.wf (m : Memory) : Bool := Memory.wfFrom 0 m

/-- A memory that comes from outside, in the canonical form: the first cell of an address counts. -/
def Memory.canon (m : Memory) : Memory := m.foldr (fun c x => x.write c.1 c.2) []

/-- `n` bytes from address `a` upward. -/
def Memory.readN (m : Memory) (a : Nat) : Nat → List Byte
  | 0 => []
  | n + 1 => m.read a :: Memory.readN m (a + 1) n

/-- Writes bytes from address `a` upward. -/
def Memory.writeN (m : Memory) (a : Nat) : List Byte → Memory
  | [] => m
  | b :: bs => Memory.writeN (m.write a b) (a + 1) bs

/-- Little-endian value of bytes (04 R90). -/
def leNat : List Byte → Nat
  | [] => 0
  | b :: bs => b.toNat + 256 * leNat bs

/-- The low `n` bytes of a number, little-endian. -/
def leBytes (v : Nat) : Nat → List Byte
  | 0 => []
  | n + 1 => BitVec.ofNat 8 v :: leBytes (v / 256) n

/-- A set of numbers, in rising order. -/
def setInsert : List Nat → Nat → List Nat
  | [], a => [a]
  | b :: t, a => if a < b then a :: b :: t else if a = b then b :: t else b :: setInsert t a

def setErase (l : List Nat) (a : Nat) : List Nat := l.filter (· ≠ a)

end Sys2Proof.Machine
end

