-- ==== Sys2Proof/Machine/State.lean ====
section
/-!
DEFINITION. The state of a W1 module as plain data, and its value at reset. Each field's docstring names the rule
that gives it; the fields marked "the model's own" hold what the model needs to run one move at a time.
-/
namespace Sys2Proof.Machine

/-- Why a step stops. -/
inductive Fault where
  /-- Raised by a meaning of an instruction word when State.cur names no thread that State holds: the machine has no
  such situation, because an instruction word issues only from a thread's turn. Safe. -/
  | noThread
  deriving DecidableEq, Repr

/-- Why a step is refused. -/
inductive Refusal where
  /-- Raised by an arm of exec whose instruction has no meaning yet. Safe. -/
  | notModelled (mnemonic : String)
  deriving DecidableEq, Repr

/-! ### Threads -/

/-- A token: its count (02 R34) and the increments that landed in the present cycle, which count from now on and are
folded into the count, with the saturation of R35, when the cycle ends. -/
structure Token where
  count : Nat := 0
  inc : Nat := 0
  deriving DecidableEq, Repr

/-- One half of a trap bank (02 R32). -/
structure TrapHalf where
  tpc : DWord := 0
  tval : DWord := 0
  taux : DWord := 0
  tinst : DWord := 0
  tscL : Word := 0
  tscH : Word := 0
  tcause : Word := 0
  deriving DecidableEq, Repr

/-- A cause with its values (12 R304), and the word address and instruction word it records. -/
structure TrapInfo where
  cause : Nat
  tpc : DWord := 0
  tval : DWord := 0
  taux : DWord := 0
  tinst : DWord := 0
  deriving DecidableEq, Repr

/-- A post that an operation owes: token, increment, and the region it was issued in (22 R421). -/
structure Sig where
  tok : Tok
  inc : Nat
  region : Nat
  deriving DecidableEq, Repr

/-- A fixed-latency result not yet readable (02 R40, R41): when it lands, what it writes, the flags it ORs into SFLG
(04 R101), its post, and, for an instruction held under 05 R128, what its trap would need. -/
structure Flight where
  id : Nat
  due : Nat
  writes : List (Reg × Word) := []
  flags : BitVec 5 := 0
  sig : Option Sig := none
  fpTrap : Option TrapInfo := none
  giveBack : Option (Tok × Nat) := none
  /-- A token that a TRD reads at the end of its issue cycle, and where it goes (09 R227). -/
  trd : Option (Tok × Reg) := none
  deriving DecidableEq, Repr

/-- Where a consumed error was found (22 R414, R424): SRC and UNIT of its record, the consuming tile's number when none is given; and the
blast set of the structure where it was found, when that is not the consuming tile. -/
structure Found where
  src : Nat := 1
  unit : Option Nat := none
  pools : Option (BitVec 64) := none
  deriving DecidableEq, Repr

/-- A report of a thread's queue (12 R301): its cause and values, the home access it holds (06 R148), and whether it
is a consumed error (kind C of R303). -/
structure Report where
  cause : Nat
  tval : DWord := 0
  taux : DWord := 0
  heldOp : Option Nat := none
  consumed : Bool := false
  fxSeq : Option Nat := none
  poNum : Nat := 0
  chunk : Nat := 0
  /-- When it arrived, on the count of State.nextId; the model's own. -/
  stamp : Nat := 0
  /-- Of a consumed error. -/
  found : Found := {}
  /-- Delivered at the thread's next turn, whatever its next instruction waits for (22 R416). -/
  now : Bool := false
  deriving DecidableEq, Repr

/-- The busy resources of 12 R298, and the two holds that the order of a thread's own accesses needs (log 10, 11): the
entry of a destination, the outgoing queue, the engine queues, the copies tracked, a stale-row table, line refills, the
write buffer, the requests toward the homes; operations of the thread that must be performed first. -/
inductive Hold where
  | vtt (dest : Nat)
  | outQueue | vecQueue | qruQueue | arrayQueue | copies | refills | writeBuffer | homes
  | stale (off n : Nat)
  | order (ops : List Nat)
  deriving DecidableEq, Repr

/-- What keeps a thread from issuing (05 R137, R447; 06 R149, R162, R168, R170; 09 R247, R253; 12 R298, R300). -/
inductive Run where
  | ready
  | recv (mb seq : Nat) (c : Ctl) (pd gi : Reg)
  | lwait (issued : Option Ctl)
  | line
  | latch (h : Hold)
  | latched
  | trapDrain (i : TrapInfo) (restart : Bool)
  | migrDrain (dest : Nat) (go : Bool) (c : Ctl)
  | homeDrain (exiting : Bool)
  | svcDrain (n : DWord)
  | exitHeld
  | transit
  | evicted
  | service (n : DWord)
  | dead
  | exited
  deriving DecidableEq, Repr

/-- A home access held for its thread, and the trap level that took its report, once taken (06 R148). -/
structure Held where
  op : Nat
  level : Option Nat := none
  deriving DecidableEq, Repr

/-- What a release hands over to an acquire that meets it (11 R279): its scope, the operations and stores that happen before it, by
number, itself among them, and since when its thread uses no older line of the read cache. -/
structure Gift where
  scope : Scope
  ops : List Nat := []
  stamp : Nat := 0
  deriving DecidableEq, Repr

/-- A release that a location holds (11 R279): the number of its bytes, who made it, and what it hands over. -/
structure Mark where
  key : Nat
  size : Nat
  src : TRef
  gift : Gift
  deriving DecidableEq, Repr

/-- A global write as State.hist keeps it, for the reads that it does not happen before and for those that see it in another order
(11 R277, R285): the operations that made it, where, the bytes before and after, the releases that the bytes held before and those
that it leaves, what happens before it, its tile, whether the home orders it among its stores and atomics (R286), and whether it is
an atomic's. -/
structure Past where
  ids : List Nat
  key : Nat
  old : List Byte
  new : List Byte
  marks : List Mark := []
  leaves : List Mark := []
  view : List Nat := []
  tile : TileRef
  core : Bool := true
  keep : Bool := false
  deriving DecidableEq, Repr

/-- The copies of a TRIP follower already taken (03 R72): each copy's value and exceptions. -/
abbrev TripCopies := List (DWord × BitVec 5)

/-- A thread: its context image (02 R27 to R30), trap bank (R32), TVEC and TSAVE (R44, R50), region state (22 R419),
and what its slot and tile keep for it. -/
structure Thread where
  g : Vector Word 16 := Vector.replicate 16 0
  pc : DWord := 0
  tovf : BitVec 16 := 0
  rst : Bool := false
  uwchk : Bool := false
  tl : Nat := 0
  fpctl : Word := 0
  tok : Vector Token 16 := Vector.replicate 16 {}
  pend : BitVec 16 := 0
  sigTok : Tok := 0
  sigEn : Bool := false
  away : Bool := false
  exitedF : Bool := false
  lead : Bool := false
  homev : BitVec 24 := 0
  irpc : DWord := 0
  rethdr : DWord := 0
  lane : Word := 0xFFFFFFFF
  half1 : TrapHalf := {}
  half2 : TrapHalf := {}
  tvec : DWord := 0
  tsave : DWord := 0
  instret : Word := 0
  irtl : Nat := 0
  rcnt : Nat := 0
  acc : Vector Int 16 := Vector.replicate 16 0
  region : Nat := 0
  reports : List Report := []
  held : List Held := []
  /-- The current block: its header's address and LEN; none after a resumption (03 R66). -/
  block : Option (DWord × Nat) := none
  /-- How the thread came to its pc: 0 in sequence, 1 by a transfer or a start, 2 by a trap entry (12 R295). -/
  arrive : Nat := 0
  restarting : Bool := false
  run : Run := .ready
  slot : Option Nat := none
  gapUntil : Nat := 0
  dlyUntil : Nat := 0
  refetchUntil : Nat := 0
  skipTurn : Bool := false
  fpHold : Option Nat := none
  inflight : List Flight := []
  /-- For each register, the number of the latest producer whose result has landed (02 R41). -/
  landed : Vector Nat 16 := Vector.replicate 16 0
  trip : TripCopies := []
  /-- Upsets that strike the next copies of a TRIP follower, in order (22 R415 SRC 14); the model's own. -/
  upsets : List DWord := []
  cycleLatch : Option Word := none
  stopped : Bool := false
  /-- The debug session that stopped it; none for a captured BKPT. -/
  stopSlot : Option Nat := none
  stepPending : Bool := false
  bkptPass : Bool := false
  /-- Whether the thread has ever entered a trap level (02 R43); the model's own. -/
  entered : Bool := false
  /-- A home holds an access of it for a page that is not resident: it leaves its slot as soon as PEND allows (06 R149; 12
  R300). -/
  evictDue : Bool := false
  /-- Its context lines may be pushed out (05 R135; 12 R300). -/
  evictable : Bool := false
  /-- Lines of the read cache filled before this, on the count of State.nextId, serve no load of it (06 R153; 11 R279, R282). -/
  acqStamp : Nat := 0
  /-- By path, CORE, VEC, MTX, COPY, MSG: the operations and stores that happen before whatever the thread does next on it (11 R278,
  R282, R283); by track (Op.track): those that it has issued, with what happens before them; by token: those whose signals have
  posted to it, with what happens before them. -/
  before : Vector (List Nat) 5 := Vector.replicate 5 []
  past : Vector (List Nat) 7 := Vector.replicate 7 []
  posted : Vector (List Nat) 16 := Vector.replicate 16 []
  /-- The widest scope of a FENCE.rel or FENCE.ar of it, and the releases that its reads have met (11 R278). -/
  fenceRel : Option Scope := none
  heard : List Mark := []
  /-- When the thread became ready without a slot, for the order of 05 R447; the model's own. -/
  readySeq : Nat := 0
  deriving DecidableEq, Repr

/-! ### Deterministic mode (17) -/

/-- How a chunk ended, or why its lane waits (17 R346, R349). -/
inductive Cut where | opened | count | closing | fullLog | before
  deriving DecidableEq, Repr


/-! ### Operations in flight -/

/-- The access paths (11 R273). -/
inductive Path where | core | vec | mtx | copy | msg
  deriving DecidableEq, Repr

/-- The unit that an operation is with. -/
inductive Cls where
  | globalLoad | globalStore | globalAtomic | remote | weight | localAtomic | localAq | localStore | fence
  | cfls | send | transfer | xfer | vector | qru | oload | array | group | copy | launchQ | trig | spawn | reap | service
  | mpoll | migrate | hostAccess | pageFetch | blast
  deriving DecidableEq, Repr

/-- Where an operation stands; `missed` in the miss store of its home (18 R375). -/
inductive Phase where
  | waiting | sent | walking (w : Nat) | missed | held | heldNR | faulted | performed | reply | parked | done
  deriving DecidableEq, Repr

/-- A window descriptor (07 R188). -/
structure Window where
  fmt : Nat := 0
  smode : Nat := 0
  rnd : Nat := 0
  ovf : Nat := 0
  sbase : Nat := 0
  len : Nat := 0
  deriving DecidableEq, Repr

/-- An operation in flight: who issued it, from which word, with the operand values read at issue. -/
structure Op where
  t : TRef
  tile : TileRef
  vd : Nat := 0
  cls : Cls
  ins : Instr
  vals : List Word := []
  ea : DWord := 0
  size : Nat := 0
  data : List Byte := []
  acquire : Bool := false
  release : Bool := false
  scope : Scope := .tileS
  path : Path := .core
  waddr : DWord := 0
  tinst : DWord := 0
  after : List Nat := []
  sig : Option Sig := none
  gbar : Option Sig := none
  regs : List Reg := []
  region : Nat := 0
  phase : Phase := .waiting
  rm : BitVec 2 := 0
  ven : BitVec 5 := 0
  seq : Nat := 0
  res : List (Reg × Word) := []
  exc : BitVec 5 := 0
  fault : Option TrapInfo := none
  consumedF : Bool := false
  unit : Nat := 0
  prog : Nat := 0
  stamp : Nat := 0
  line : Nat := 0
  poison : Bool := false
  chunk : Nat := 0
  buffered : Bool := false
  /-- The window descriptors captured at issue (07 R173). -/
  wins : List Window := []
  /-- Released at a commit: its results and posts are applied when its lane's next chunk begins (17 R350). -/
  atStart : Bool := false
  killed : Bool := false
  /-- The cycle in which it was issued. -/
  born : Nat := 0
  /-- How many elements of an engine operation have been carried out, or which of its bytes or words, as ranges: first, and one
  past the last (11 R274). -/
  elems : Nat := 0
  parts : List (Nat × Nat) := []
  /-- The operations and stores that happen before it (11 R283). -/
  view : List Nat := []
  /-- The extents of its own tile's scratchpad that a vector operation reads, as its issue knows them (07 R187). -/
  srcs : List (Nat × Nat) := []
  /-- What it reads, once its reads are made and its writes are still to come (11 R271, R289): the scratchpad, or the bytes that it
  moves, with their poison. -/
  snap : Option Memory := none
  got : Option (List (Byte × Bool)) := none
  /-- The terms that a reduction has read. -/
  terms : List (Word × BitVec 5) := []
  /-- What a release hands over (11 R279). -/
  gives : Option Gift := none
  /-- When it arrived at its home or at the rim, on the count of State.nextId; 0 before it has (18 R375, R377; 21 R395). -/
  arrived : Nat := 0
  /-- The constituents of a reduce operation (21 R407, R408). -/
  count : Nat := 1
  /-- Where the error was found that it consumes. -/
  found : Found := {}
  /-- The words of its destination that have received poison (22 R416). -/
  bad : List Nat := []
  deriving DecidableEq, Repr

/-! ### Virtual tiles -/

/-- The state of an operand slot (08 R202). -/
inductive SlotSt where | free | claimed | filling | filled
  deriving DecidableEq, Repr

/-- An operand slot (08 R201 to R203): 16 KiB of contents with poison marks by word. -/
structure Slot where
  st : SlotSt := .free
  fmt : OFmt := .ts
  role : Role := .a
  k : Nat := 0
  cursor : Nat := 0
  mem : Memory := []
  flips : Assoc Nat DWord := []
  poison : List Nat := []
  deriving DecidableEq, Repr

/-- The drain report of an accumulator (08 R222). -/
structure DrainRep where
  unc : Bool := false
  ckfix : Bool := false
  dovf : Bool := false
  ncorr : Nat := 0
  row : Nat := 0
  col : Nat := 0
  deriving DecidableEq, Repr

/-- The format tag of an accumulator (08 R207). -/
inductive AccTag where | none | int | bf
  deriving DecidableEq, Repr

/-- An accumulator (08 R207, R216, R217, R222): the entries that are not zero by index row × 512 + column, the tag as
issue has left it and as execution has, SAT, CKINV, the checksum sums and the M sums that are not zero. -/
structure Acc where
  ent : Assoc Nat DWord := []
  tag : AccTag := .none
  tagX : AccTag := .none
  sat : Bool := false
  ckinv : Bool := false
  ck : Assoc Nat Int := []
  msum : Assoc Nat Word := []
  rep : DrainRep := {}
  deriving DecidableEq, Repr

/-- A QRU dimension (07 R192): the 32 direction numbers, the seed and the scramble enable. -/
structure QDim where
  v : Vector Word 32 := Vector.replicate 32 0
  seed : Word := 0
  scr : Bool := false
  deriving DecidableEq, Repr

/-- An undo record (17 R347): the old bytes of a scratchpad granule, of a QRU dimension, which stands from 2^20 + 256 × its
number on, or of a window descriptor, which stands from 2^21 + 32 × its number on, with the offsets that were written from the
first to one past the last, and its words that were poisoned; and (the model's own) a thread-table entry that REAP has freed or an access that RETT has released; with
the order in which the records were made. -/
inductive Undo where
  | gran (stamp addr : Nat) (old : List Byte) (lo hi : Nat) (bad : List Nat)
  | thr (stamp th : Nat) (old : Thread)
  | heldOp (stamp id : Nat) (old : Op)
  deriving DecidableEq, Repr

/-- An uncommitted chunk of a lane (17 R346 to R348): its start image, its undo records, its buffered operations, the
lines and granules it has read (all, and the first 32 for the log), the granules it has written in place, and how it was
cut. -/
structure Chunk where
  snap : Thread
  number : Nat := 0
  retired : Nat := 0
  undo : List Undo := []
  buffered : List Nat := []
  reads : List Nat := []
  readLog : List Nat := []
  writes : List Nat := []
  cut : Cut := .opened
  /-- When it began, on the count of State.nextId; the model's own. -/
  began : Nat := 0
  /-- Bytes of its half that the records counted before issue take (17 R348). -/
  logUsed : Nat := 0
  /-- The posts of its thread that were still to come when it began; the model's own. -/
  posts : List (Nat × Instr) := []
  deriving DecidableEq, Repr

/-- A lane (17 R344 to R355): the number of its next chunk to commit, the uncommitted chunks, the retired count of
the committed ones (02 R45), DETST's fields and DETADH:DETADL. -/
structure Lane where
  number : Nat := 0
  chunks : List Chunk := []
  committed : Nat := 0
  aliased : Bool := false
  roll : Bool := false
  sqc : Nat := 0
  detad : DWord := 0
  /-- Chunks below this number run only at their turns, and are not compared (17 R353). -/
  rerun : Nat := 0
  /-- Posts from other lanes, applied when the next chunk begins (17 R350). -/
  posts : List (Tok × Nat) := []
  /-- Its log holds an uncorrectable error, which is found when the log is read (22 R415 SRC 7). -/
  logBad : Bool := false
  deriving DecidableEq, Repr

/-- A mailbox entry (06 R160). -/
structure Msg where
  payload : DWord
  tag : Byte
  source : BitVec 24
  seq : Nat := 0
  op : Nat := 0
  poison : Bool := false
  /-- What happens before its sending (11 R278). -/
  gift : List Nat := []
  deriving DecidableEq, Repr

/-- A barrier arrival or a reduction arriver: whom to post, and where a result goes (09 R232, R233). -/
structure Arriver where
  op : Nat
  t : TRef
  tok : Tok
  raddr : Nat := 0
  deriving DecidableEq, Repr

/-- An open reduction phase (09 R233). -/
structure RedPhase where
  rop : RedOp
  n : Nat
  arr : List Arriver
  part : Word
  deriving DecidableEq, Repr

/-- A group record (09 R228). -/
structure Group where
  used : Bool := false
  count : Nat := 0
  gen : BitVec 3 := 0
  bar : List Arriver := []
  red : Option RedPhase := none
  deriving DecidableEq, Repr

/-- A tracked copy (09 R238): its state, the operation that runs it, and of a faulted one the cause and the home of its engine. -/
structure CopyTr where
  state : Nat
  op : Nat
  cause : Nat := 0
  home : Nat := 0
  deriving DecidableEq, Repr

/-- An entry of the first-exception record (12 R302). -/
structure FxEnt where
  seq : Nat
  cause : Nat
  thid : Nat
  tval : DWord
  deriving DecidableEq, Repr

/-- STATE of a virtual tile table entry (16 R329). -/
inductive Place where | absent | present | moving
  deriving DecidableEq, Repr

/-- A read-cache line (06 R152): its bytes, when it was filled, and the releases that its bytes hold. -/
structure Line where
  vdAddr : Nat
  bytes : List Byte
  stamp : Nat
  marks : List Mark := []
  deriving DecidableEq, Repr

/-- A stale group row with the cycle by which its last pending parity update lands (10 R263, R264). -/
structure Stale where
  grp : Nat
  row : Nat
  due : Nat
  deriving DecidableEq, Repr

/-- A CORE write to a scratchpad that engines may not yet see (07 R187; 11 R287): its number and the bytes that it replaced. -/
structure Lag where
  stamp : Nat
  off : Nat
  old : List Byte
  deriving DecidableEq, Repr

/-- A virtual tile of a launch. -/
structure VTile where
  /-- The scratchpad's contents as its ECC would deliver them, and, by 8-byte word, the bits of the stored word that
  are flipped (10 R259), the poisoned words, and the flipped bits of parity words. -/
  spad : Memory := []
  flips : Assoc Nat DWord := []
  poison : List Nat := []
  pflips : Assoc Nat DWord := []
  stale : List Stale := []
  win : Vector Window 8 := Vector.replicate 8 {}
  winNext : List (Nat × Nat × Window) := []
  slots : Vector Slot 16 := Vector.replicate 16 {}
  acc : Vector Acc 2 := Vector.replicate 2 {}
  qru : Assoc Nat QDim := []
  mbox : Vector (List Msg) 4 := Vector.replicate 4 []
  mseq : Nat := 0
  groups : Assoc Nat Group := []
  /-- MMGs at the gang line, in arrival order, by operation (08 R210). -/
  lineQ : List Nat := []
  triggered : Bool := false
  finished : Bool := false
  park : List Nat := []
  place : Place := .absent
  /-- Whether it has a region of its VD's vat (16 R339). -/
  region : Bool := false
  ltile : Nat := 0
  gen : BitVec 8 := 0
  copies : Assoc Nat CopyTr := []
  issueSeq : BitVec 32 := 0
  fx : List FxEnt := []
  fxOvf : Bool := false
  rcache : List Line := []
  /-- The lines that the instruction cache holds, by address: 512 of 64 bytes at the most (00 R5; 05 R133). -/
  icache : List Nat := []
  wsrfw : BitVec 6 := 0
  /-- Cached entries of the virtual tile table: the tile and whether it was PRESENT, with its GEN (16 R329). -/
  vttCache : Assoc Nat (Place × Nat × BitVec 8) := []
  issuedAt : Option Nat := none
  lag : List Lag := []
  /-- The lanes of slots whose threads have exited: squashes, counts and addresses stay with the lane (17 R344, R354). -/
  laneRec : Assoc Nat Lane := []
  deriving DecidableEq, Repr

/-! ### Launches -/

/-- A gang's state (16 R336). -/
inductive GangSt where | unstarted | resident | swapping | swapped | restoring | finished
  deriving DecidableEq, Repr

structure Gang where
  st : GangSt := .unstarted
  field : Nat := 0
  row : Nat := 0
  first : Nat := 0
  size : Nat := 1
  since : Nat := 0
  blockedSince : Option Nat := none
  swapSeq : Nat := 0
  preempt : Bool := false
  deriving DecidableEq, Repr

/-- The launch parameter block (16 R318, R319). -/
structure Block where
  entry : DWord := 0
  lid : Word := 0
  gsize : Nat := 1
  order : Nat := 0
  swz : Nat := 0
  det : Bool := false
  fpol : Bool := false
  prio : Nat := 0
  test : Bool := false
  w : Nat := 0
  h : Nat := 0
  chunk : Nat := 0
  heavy : Nat := 0
  qset : DWord := 0
  qfirst : Nat := 0
  qcount : Nat := 0
  tvec : DWord := 0
  tsave : DWord := 0
  crec : DWord := 0
  prods : List Nat := []
  image : DWord := 0
  imglen : Nat := 0
  copyl : DWord := 0
  ncopy : Nat := 0
  deriving DecidableEq, Repr

/-- How far a launch has come (16 R322, R323; 22 R426). -/
inductive LPhase where
  | copyList (i : Nat) | imageCopy | placing | killFlood | killSweep (at_ : Nat) | killConfirm (at_ : Nat) | ended
  deriving DecidableEq, Repr

/-- The escalation record (12 R297). -/
structure Escalation where
  h1 : TrapHalf
  h2 : TrapHalf
  third : TrapInfo
  thid : Nat
  vt : Nat
  deriving DecidableEq, Repr

/-- An accepted launch, with its completion record's fields (16; 21 R397). -/
structure Launch where
  vd : Nat
  queue : Nat
  blk : Block
  lpb : DWord := 0
  phase : LPhase := .copyList 0
  image : Memory := []
  /-- Its poisoned words (22 R416). -/
  imagePoison : List Nat := []
  prodL : List Nat := []
  tacc : Nat := 0
  tend : Nat := 0
  tilecyc : Nat := 0
  swaps : Nat := 0
  nesc : Nat := 0
  ndisc : Nat := 0
  nlate : Nat := 0
  latea : DWord := 0
  latew : Word := 0
  qovl : Bool := false
  status : Nat := 0
  esc : Option Escalation := none
  gangs : Assoc Nat Gang := []
  /-- The run of unstarted gangs of each field of the pool (16 R326, R328). -/
  runs : Assoc Nat (List Nat) := []
  summon : List Nat := []
  turnC : Nat := 0
  turnL : Nat := 0
  /-- The writes of the turns taken, as ranges of addresses with the count of State.nextId when they were performed (17
  R352). -/
  turnWrites : List (Nat × Nat × Nat) := []
  rerunLane : Option Nat := none
  armed : Bool := false
  lpbPage : Bool := false
  /-- What happens before the first issue of each of its threads (11 R278). -/
  before : List Nat := []
  deriving DecidableEq, Repr

/-- A detour entry of a router (23 R436): the retired router that is the next hop of a route, and the two routers beside it. -/
structure Detour where
  at_ : Nat
  dead : Nat
  via : List Nat
  deriving DecidableEq, Repr

/-! ### What comes from outside -/

/-- A launch that the host moves from another module (16 R341): that module's CAPV, the VD and queue that it belongs to here, its
block, its record, and the contents of its vat regions and of its table: tiles, threads, lanes and parked traffic, under the
other module's names. -/
structure Moved where
  capv : Nat
  vd : Nat
  queue : Nat
  block : List Byte
  launch : Launch
  tiles : List (Nat × VTile) := []
  threads : List (Nat × Nat × Thread) := []
  lanes : List (Nat × Nat × Lane) := []
  parked : List (Nat × Op) := []
  deriving DecidableEq, Repr

/-- An access that another module sends to a page of this one (18 R379; 21 R405, R407): the instruction that made it, the VD under
whose translation it is performed, its address, its data. -/
structure PortReq where
  ins : Instr
  vd : Nat
  ea : DWord
  data : List Byte := []
  /-- The constituents of a reduce operation that a switch has merged (R408). -/
  count : Nat := 1
  deriving DecidableEq, Repr

/-- What comes from outside the machine with an event (21; 22 R415; 23 R442): register writes, host accesses, debug
commands, upsets, temperatures, requests about pages, a launch that the host moves, the host port whose link goes or returns, the
accesses that a flit of another module carries. -/
inductive Input where
  | none
  | doorbell (vd q : Nat) (val : Word)
  | queueCfg (vd q reg : Nat) (val : DWord)
  | winRead (vd addr n : Nat)
  | winWrite (vd addr : Nat) (bs : List Byte)
  | kill (vd : Nat) (lid : Word)
  | table (i reg : Nat) (val : Nat)
  | word (val : Word)
  | reg (fn off : Nat) (val : DWord)
  | spdm (digest : Nat) (authOk : Bool) (vd : Nat)
  | debug (slot vd : Nat) (target : DbgTarget) (space off n : Nat) (bs : List Byte)
  | session (slot : Nat)
  | temp (fld sensor val : Nat)
  | upset (u : StoreUnit) (flip : DWord)
  | unit (u : StoreUnit)
  | page (r : PageReq)
  | ring (fld : Nat) (vals : List Nat)
  | moved (m : Moved)
  | hostPort (p : Nat)
  | requests (l : List PortReq)
  deriving DecidableEq, Repr

/-! ### The module -/

/-- A page of a home's page table (18 R374; 21 R405, R407). Addresses are offsets within the home. -/
structure Page where
  vd : Nat
  home : Nat
  base : Nat
  size : Nat
  frame : Nat
  rd : Bool
  wr : Bool
  resident : Bool := true
  redwin : Bool := false
  remote : Option (Nat × Nat × Nat) := none
  saved : Memory := []
  deriving DecidableEq, Repr

/-- An outstanding table walk (18 R375). -/
structure Walk where
  vd : Nat
  home : Nat
  page : Nat
  ops : List Nat := []
  deriving DecidableEq, Repr

/-- A page move (18 R379): the page, its old frame and the new one, and the cursor. -/
structure Move where
  vd : Nat
  home : Nat
  base : Nat
  frame : Nat
  newFrame : Nat
  cursor : Nat := 0
  deriving DecidableEq, Repr

/-- A field's monitors and power state (23 R442, R443), and the field's refresh windows (02 R46). -/
structure Fld where
  temp : Vector Nat 16 := Vector.replicate 16 25
  droop : Vector Nat 8 := Vector.replicate 8 0
  ring : Vector (BitVec 16) 4 := Vector.replicate 4 0
  nombud : Nat := 320
  curbud : Nat := 320
  stallUntil : Nat := 0
  hot : Bool := false
  hotCount : Nat := 0
  inWindow : List Nat := []
  deriving DecidableEq, Repr

/-- A pool record (18 R360, R361). -/
structure Pool where
  rows : BitVec 1024 := 0
  wsn : Nat := 0
  wsbase : Nat := 0
  lastOwed : Nat := 511
  /-- The launch, gang and field that the scheduler has chosen and that has still to be placed or restored (18 R366). -/
  choice : Option (Nat × Nat × Nat) := none
  deriving DecidableEq, Repr

/-- A launch queue of a virtual function (21 R393). -/
structure Queue where
  qbase : DWord := 0
  qlog : Nat := 4
  qhead : Word := 0
  tail : Word := 0
  qerr : Nat := 0
  qvec : Bool := false
  deriving DecidableEq, Repr

/-- A virtual device: VCTL, SCOPE, its scheduling record (18 R363 to R367) and its queues. -/
structure Vd where
  pool : Nat := 0
  en : Bool := false
  weight : Nat := 0
  cap : Nat := 100
  scope : BitVec 2 := 0
  used : Nat := 0
  lastd : Nat := 0
  owed : Bool := false
  capped : Bool := false
  boostUntil : Option Nat := none
  /-- Since when it is not runnable; none while it is (18 R367). -/
  idleSince : Option Nat := some 0
  /-- WEIGHT and CAP as they are in effect in this period (18 R363), without a boost. -/
  effWeight : Nat := 0
  effCap : Nat := 100
  boostArmed : Bool := false
  queues : Vector Queue 4 := Vector.replicate 4 {}
  /-- What happens before each LNCH whose block queue 3 holds, in order (11 R278). -/
  gifts : List (List Nat) := []
  deriving DecidableEq, Repr

/-- A flit that a port keeps for replay (21 R402): its sequence, its channel, the VD whose traffic it carries (512 and more: none),
its payload. -/
structure Kept where
  seq : BitVec 12
  vc : Nat
  vd : Nat
  payload : List Byte
  deriving DecidableEq, Repr

/-- A Woreri port (21 R400 to R404). -/
structure Port where
  width : Nat := 4
  /-- The lanes that have been retired, in order. -/
  lanes : List Nat := []
  nextSeq : BitVec 12 := 0
  /-- The last flits sent. -/
  replay : List Kept := []
  /-- The flits that its latest act has put on the link, and the channels and VDs of those that wait for a channel to open. -/
  out : List (List Byte) := []
  owed : List (Nat × Nat) := []
  lastGood : BitVec 12 := 0xFFF
  rx : Vector (List (List Byte)) 4 := Vector.replicate 4 []
  xoffOut : BitVec 4 := 0
  xoffIn : BitVec 4 := 0
  sendNak : Bool := false
  fails : Nat := 0
  /-- Corrected symbols by lane, over the flits of the window so far (R404). -/
  symbols : Vector Nat 4 := Vector.replicate 4 0
  seen : Nat := 0
  deriving DecidableEq, Repr

/-- A DBGCERT slot (21 R410): digest, VD, enable. -/
structure Cert where
  digest : Nat := 0
  vd : Nat := 0
  en : Bool := false
  deriving DecidableEq, Repr

/-- An unlocked debug session (21 R410, R412). -/
structure Session where
  slot : Nat
  vd : Nat
  lastMsg : Nat
  /-- The last value read by READ, and the status of the last command (21 R411). -/
  out : List Byte := []
  status : Nat := 0
  deriving DecidableEq, Repr

/-- An error-log record (22 R414). -/
structure ErrRec where
  seq : Nat
  time : Nat
  src : Nat
  unit : Nat
  sev : Nat
  cause : Nat
  count : Nat
  addr : DWord
  poolmap : BitVec 64
  vd : Nat
  lid : Word
  deriving DecidableEq, Repr

/-- A mordant record (23 R431). -/
structure MRec where
  seq : Nat
  kind : Nat
  reason : Nat
  unit : Nat
  place : Nat
  epoch : Nat
  cycleH : Nat
  deriving DecidableEq, Repr

/-- A copy of the mordant tables (23 R430): whether its MAGIC, FMT and signature are correct is one bit. -/
structure Mordant where
  gen : Nat := 0
  epoch : Nat := 0
  recs : List MRec := []
  valid : Bool := true
  deriving DecidableEq, Repr

/-- The module. -/
structure State where
  cycle : Nat
  cur : Option TRef
  iword : DWord
  /-- What came from outside with the event now being taken, and what is still to come, with its cycle. -/
  input : Input
  inputs : List (Nat × Instr × Input)
  agenda : List (Nat × Instr)
  nextId : Nat
  fresh : Nat
  ops : Assoc Nat Op
  threads : Assoc TRef Thread
  vtiles : Assoc TileRef VTile
  lanes : Assoc TRef Lane
  launches : Assoc Nat Launch
  nextLaunch : Nat
  hbm : Memory
  hbmPoison : List Nat
  hbmFlips : Assoc Nat DWord
  /-- The latest writes to the frames, newest last, and the releases that locations hold (11 R277, R279); the model's own. -/
  hist : List Past
  marks : List Mark
  /-- By launch: what happens before its triggering marks and the ends of its virtual tiles (09 R246, R247; 11 R278). -/
  trigs : Assoc Nat (List Nat)
  ws : Memory
  wsPoison : List Nat
  wsFlips : Assoc Nat DWord
  pages : List Page
  tlb : List (Nat × Nat × Nat)
  walks : Assoc Nat Walk
  /-- The first frame of each home's area for misses (18 R375). -/
  missArea : Vector Nat 64
  moves : List Move
  fields : Vector Fld 64
  stackTemp : Vector Nat 64
  /-- By physical tile: its TRIP votes since its last record, and when the next record may be (22 R417). -/
  votes : Assoc Nat (Nat × Nat)
  pools : Assoc Nat Pool
  vds : Assoc Nat Vd
  netctl : Nat
  modid : BitVec 16
  injallow : BitVec 512
  cmd : DWord
  cmdstat : Word
  cmdWait : List Nat
  bootStep : Nat
  bootState : Nat
  route : Vector Word 1024
  dbgcert : Vector Cert 8
  linkUp : Bool
  /-- The primary port, and the other host ports whose links are down (21 R389, R399). -/
  primary : Nat
  portsDown : List Nat
  /-- What waits for the primary link to return (21 R389). -/
  linkQueue : List (Instr × Input)
  /-- Completion interrupts, VD and vector: those that wait for the link, and those sent, in order (21 R389, R393). -/
  msix : List (Nat × Nat)
  msixOut : List (Nat × Nat)
  ports : Vector Port 64
  sessions : List Session
  errlog : List ErrRec
  errSeq : Nat
  mordA : Mordant
  mordB : Mordant
  epoch : Nat
  bootEpochDone : Bool
  /-- 2 bits a physical tile of the configuration descriptor (23 R437): the tiles that are not LIVE. -/
  tileState : Assoc Nat Nat
  /-- Retired banks in effect: physical tile, group, bank (4 for the parity bank) (10 R266, R268). -/
  bankOut : List (Nat × Nat × Nat)
  pcgOut : List (Nat × Nat)
  sliceOut : List (Nat × Nat)
  rowsOut : List (Nat × Nat × Nat)
  budgetOut : List Nat
  /-- Corrected words seen this boot, by unit (23 R434). -/
  corrected : List (RetUnit × Nat)
  /-- The live tiles in logical order at this boot (23 R435): the physical tiles left out of it. -/
  numberOut : List Nat
  /-- The detour tables, rebuilt at every boot (00 R8; 23 R436). -/
  detours : List Detour
  /-- The module identity key and the certificate, which live as long as the module (00 R7; 21 R410; 23 R430). -/
  idKey : BitVec 3072
  idCert : List Byte
  /-- What the host was last given: a window read's bytes, or the certificate as a debug session begins (21 R396, R410). -/
  hostOut : List Byte
  /-- The slot whose last debug message SPDM refused with SessionRequired (21 R412). -/
  spdmError : Option Nat
  shipped : Nat
  deriving DecidableEq, Repr

/-- The events that recur from reset: the pools' periods and the governor's tick (18 R364; 23 R443); and the ends of the
refresh windows that begin at cycle 0 (02 R46). -/
def State.resetAgenda : List (Nat × Instr) :=
  (List.range 64).map (fun f => (128, .refreshWindowEnd f 0)) ++ [(2 ^ 20, .governorTick), (2 ^ 24, .allowancePeriodBegin)]

/-- The module at the end of a boot (21 R392; 23 R439; log 2): no launch, no thread, every table at its value. -/
def State.reset : State where
  cycle := 0
  cur := none
  iword := 0
  input := .none
  inputs := []
  agenda := State.resetAgenda
  nextId := 1
  fresh := 0
  ops := []
  threads := []
  vtiles := []
  lanes := []
  launches := []
  nextLaunch := 0
  hbm := []
  hbmPoison := []
  hbmFlips := []
  hist := []
  marks := []
  trigs := []
  ws := []
  wsPoison := []
  wsFlips := []
  pages := []
  tlb := []
  walks := []
  missArea := Vector.replicate 64 (2 ^ 36 - 2 ^ 26)
  moves := []
  fields := Vector.replicate 64 { inWindow := [0] }
  stackTemp := Vector.replicate 64 25
  votes := []
  pools := []
  vds := []
  netctl := 64
  modid := 0
  injallow := 0
  cmd := 0
  cmdstat := 0
  cmdWait := []
  bootStep := 7
  bootState := 1
  route := Vector.replicate 1024 0
  dbgcert := Vector.replicate 8 {}
  linkUp := true
  primary := 0
  portsDown := []
  linkQueue := []
  msix := []
  msixOut := []
  ports := Vector.replicate 64 {}
  sessions := []
  errlog := []
  errSeq := 0
  mordA := {}
  mordB := {}
  epoch := 0
  bootEpochDone := false
  tileState := []
  bankOut := []
  pcgOut := []
  sliceOut := []
  rowsOut := []
  budgetOut := []
  corrected := []
  numberOut := []
  detours := []
  idKey := 0
  idCert := []
  hostOut := []
  spdmError := none
  shipped := 1

end Sys2Proof.Machine
end

