-- ==== Sys2Proof/Machine/Flags.lean ====
section
/-!
DEFINITION. Flags and conditions: the fields of STATUS, FLAGS and FPCTL as words (02 R28 to R30), the OR of exceptions
into FPCTL (04 R101), the token sum rule (02 R35) and the integer conditions (03 R78).
-/
namespace Sys2Proof.Machine

/-- Integer comparison of 32-bit or 64-bit values (03 R78). -/
def CC.holds {n : Nat} (k : CC) (a b : BitVec n) : Bool :=
  match k with
  | .eq => decide (a = b)
  | .ne => decide (a ≠ b)
  | .lt => a.slt b
  | .le => a.sle b
  | .ltu => a.ult b
  | .leu => a.ule b

/-- FPCTL's fields (02 R29). -/
def fpRM (f : Word) : BitVec 2 := f.extractLsb' 0 2
def fpSEN (f : Word) : BitVec 5 := f.extractLsb' 2 5
def fpVEN (f : Word) : BitVec 5 := f.extractLsb' 7 5
def fpSFLG (f : Word) : BitVec 5 := f.extractLsb' 16 5
def fpVFLG (f : Word) : BitVec 5 := f.extractLsb' 21 5

/-- ORs scalar exceptions into SFLG, vector exceptions into VFLG (04 R101). -/
def orSFLG (f : Word) (x : Exc) : Word := f ||| (x.setWidth 32 <<< 16)
def orVFLG (f : Word) (x : Exc) : Word := f ||| (x.setWidth 32 <<< 21)

/-- What a SWR leaves in FPCTL: the zero fields are ignored (02 R29). -/
def fpctlMask : Word := 0x03FF0FFF

/-- The number of the lowest exception raised and enabled, if any (05 R128; 07 R185). -/
def lowestEnabled (x en : BitVec 5) : Option Nat := (List.range 5).find? fun i => x.getLsbD i && en.getLsbD i

/-- STATUS as a word (02 R28). -/
def Thread.statusWord (t : Thread) : Word :=
  t.tovf ++ (0 : BitVec 12) ++ BitVec.ofBool t.rst ++ BitVec.ofBool t.uwchk ++ BitVec.ofNat 2 t.tl

/-- FLAGS as the image holds it (02 R30). -/
def Thread.flagsWord (t : Thread) : BitVec 16 :=
  (0 : BitVec 8) ++ t.sigTok ++ BitVec.ofBool t.sigEn ++ BitVec.ofBool t.away ++ BitVec.ofBool t.exitedF ++
    BitVec.ofBool t.lead

/-! ### Tokens (02 R34, R35) -/

/-- The count that a wait or TRD sees: posts of the present cycle included (03 R54; 09 R227). -/
def Token.value (k : Token) : Nat := min 255 (k.count + k.inc)

/-- Whether the sum of count and posts has passed 255. -/
def Token.over (k : Token) : Bool := decide (255 < k.count + k.inc)

/-- A consume of `n`: it comes off the sum before the cap (02 R35). -/
def Token.consume (k : Token) (n : Nat) : Token :=
  if n ≤ k.count then { k with count := k.count - n } else { count := 0, inc := k.count + k.inc - n }

/-- The end of a cycle: the posts join the count, which stops at 255. -/
def Token.fold (k : Token) : Token := { count := k.value, inc := 0 }

/-- A thread's token, and its replacement. -/
def Thread.tokAt (t : Thread) (k : Tok) : Token := t.tok[k.toFin]
def Thread.setTok (t : Thread) (k : Tok) (v : Token) : Thread := { t with tok := t.tok.set k.toFin v }

/-- Whether a wait on a token meets an overflow when it consumes `n`: TOVF is set in STATUS, or this cycle's posts pass 255
after the consume (02 R35; 03 R53 check 9; log 40). -/
def Thread.overAt (t : Thread) (k : Tok) (n : Nat) : Bool :=
  t.tovf.getLsbD k.toNat || decide (255 < (t.tokAt k).count + (t.tokAt k).inc - n)

/-- A post of `n` (02 R34). -/
def Thread.post (t : Thread) (k : Tok) (n : Nat) : Thread :=
  t.setTok k { t.tokAt k with inc := (t.tokAt k).inc + n }

/-- What TRD gives for a token once its cycle has ended: bit 8 tells of TOVF (09 R227). -/
def Thread.trdWord (t : Thread) (k : Tok) : Word :=
  BitVec.ofNat 32 ((t.tokAt k).count + (if t.tovf.getLsbD k.toNat then 256 else 0))

/-- The token reads of the cycle that ends take their values. -/
def Thread.readTokens (t : Thread) : Thread :=
  { t with inflight := t.inflight.map fun f =>
      match f.trd with
      | some (k, rd) => { f with trd := none, writes := [(rd, t.trdWord k)] }
      | none => f }

/-- Folds every token at the end of a cycle, setting TOVF where a sum passed 255. -/
def Thread.foldTokens (t : Thread) : Thread :=
  { t with
    tok := t.tok.map Token.fold
    tovf := (List.range 16).foldl (fun v i =>
      if ((t.tok[i]?).map Token.over).getD false then v ||| (1 <<< i) else v) t.tovf }

end Sys2Proof.Machine
end

