-- ==== Sys2Proof/WellFormed.lean ====
section
/-!
DEFINITION. Which terms of Instr are the reading of some words: prefixes that the instruction takes (03 R74, R75) and
operand fields inside the limits of 03 R79 to R89. What the types of the fields already say is not repeated here.
-/
namespace Sys2Proof

/-- The kind of a prefix, to tell two of one kind apart (03 R75). -/
def Prefix.kind : Prefix → Nat
  | .ximm _ => 0 | .trip => 1 | .scope _ => 2

def Ctl.hasTrip (c : Ctl) : Bool := c.pfx.any fun p => p.kind == 1

/-- The extended value of a 24-bit immediate field (03 R71): sign-extended, or with XIMM the 56 bits sign-extended,
as an integer. -/
def Ctl.imm (c : Ctl) (f : BitVec 24) : Int :=
  match c.pfx.findSome? (fun p => match p with | .ximm v => some v | _ => none) with
  | none => f.toInt
  | some v => (v ++ f : BitVec 56).toInt

/-- The scope that a prefix names, or the default (03 R73). -/
def Ctl.scope (c : Ctl) (dflt : Scope) : Scope :=
  (c.pfx.findSome? (fun p => match p with | .scope s => some s | _ => none)).getD dflt

/-- Which prefixes an opcode takes (03 R74). -/
def prefixOk (op : Nat) : Prefix → Bool
  | .ximm _ => [0x3, 0xf, 0x10, 0x11, 0x15, 0x16, 0x17, 0x23, 0x3d, 0x40, 0x41, 0x42, 0x43, 0x44, 0x48, 0x49, 0x4d, 0x50, 0x51, 0x52, 0x53, 0x54, 0x55
      , 0x56, 0x57, 0x58, 0x59, 0x5a, 0x5b, 0x5c, 0x5d, 0x5e, 0x5f, 0x60, 0x61, 0x62, 0x65, 0x66, 0xc1, 0xe0, 0xe2, 0xe3, 0xe6].contains op
  | .trip => (decide (0x01 ≤ op) && decide (op ≤ 0x2B)) || (decide (0x30 ≤ op) && decide (op ≤ 0x3F)) ||
      [0x41, 0x42, 0x50, 0x51, 0x52, 0x53].contains op
  | .scope _ => decide (0x50 ≤ op) && decide (op ≤ 0x62)

/-- Which opcodes have GO forms (03 R81). -/
def hasGo (op : Nat) : Bool := (decide (0x50 ≤ op) && decide (op ≤ 0x53)) || (decide (0x56 ≤ op) && decide (op ≤ 0x62))

/-- A prefix sequence of an opcode: at most three, of different kinds, each one that it takes (03 R75). A GO form takes XIMM
alone (06 R171). -/
def prefixesOk (op : Nat) (go : Bool) (ps : List Prefix) : Bool :=
  ps.all (fun p => prefixOk op p && (!go || (match p with | .ximm _ => true | _ => false))) &&
    decide ((ps.map Prefix.kind).Nodup)

/-- A GO form of a memory instruction (06 R169). -/
def Instr.goForm : Instr → Bool
  | .ld _ _ go .. => go | .st _ _ go .. => go | .ldp _ go .. => go | .stp _ go .. => go
  | .aadd _ _ go .. => go | .aand _ _ go .. => go | .aor _ _ go .. => go | .axor _ _ go .. => go
  | .amin _ _ go .. => go | .amax _ _ go .. => go | .aminu _ _ go .. => go | .amaxu _ _ go .. => go
  | .axch _ _ go .. => go | .acas _ _ go .. => go | .afadd _ _ go .. => go | .afmin _ _ go .. => go | .afmax _ _ go .. => go
  | _ => false

/-- The primary code of an instruction word (03 R76); none for an event and for ILLEGAL_OP. -/
def Instr.opcode : Instr → Option Nat
  | .add .. => some 0x01
  | .sub .. => some 0x02
  | .mul .. => some 0x04
  | .mulh .. => some 0x05
  | .mulhu .. => some 0x06
  | .div .. => some 0x07
  | .divu .. => some 0x08
  | .rem .. => some 0x09
  | .remu .. => some 0x0a
  | .and .. => some 0x0b
  | .or .. => some 0x0c
  | .xor .. => some 0x0d
  | .andn .. => some 0x0e
  | .shl .. => some 0x12
  | .shr .. => some 0x13
  | .sar .. => some 0x14
  | .rol .. => some 0x18
  | .clz .. => some 0x19
  | .popc .. => some 0x1a
  | .brev .. => some 0x1b
  | .min .. => some 0x1c
  | .max .. => some 0x1d
  | .minu .. => some 0x1e
  | .maxu .. => some 0x1f
  | .adds .. => some 0x20
  | .subs .. => some 0x21
  | .cmp .. => some 0x22
  | .sel .. => some 0x24
  | .mov .. => some 0x27
  | .extb .. => some 0x28
  | .insb .. => some 0x29
  | .hash .. => some 0x2a
  | .bswap .. => some 0x2b
  | .addi .. => some 0x03
  | .andi .. => some 0x0f
  | .ori .. => some 0x10
  | .xori .. => some 0x11
  | .shli .. => some 0x15
  | .shri .. => some 0x16
  | .sari .. => some 0x17
  | .cmpi .. => some 0x23
  | .movi .. => some 0x25
  | .movhi .. => some 0x26
  | .fadd .. => some 0x30
  | .fsub .. => some 0x31
  | .fmul .. => some 0x32
  | .ffma .. => some 0x33
  | .fmin .. => some 0x34
  | .fmax .. => some 0x35
  | .fcmp .. => some 0x36
  | .fsgn .. => some 0x37
  | .frcp .. => some 0x38
  | .frsq .. => some 0x39
  | .fcvt .. => some 0x3a
  | .fcls .. => some 0x3b
  | .addp .. => some 0x3c
  | .addpi .. => some 0x3d
  | .movp .. => some 0x3e
  | .cmpp .. => some 0x3f
  | .br .. => some 0x40
  | .bz .. => some 0x41
  | .bnz .. => some 0x42
  | .loop .. => some 0x43
  | .call .. => some 0x44
  | .pca .. => some 0x48
  | .callr .. => some 0x45
  | .jmpr .. => some 0x47
  | .ret .. => some 0x46
  | .dly .. => some 0x49
  | .yield .. => some 0x4a
  | .exit .. => some 0x4b
  | .wait .. => some 0x4c
  | .bkpt .. => some 0x4d
  | .ld .. => some 0x50
  | .st .. => some 0x51
  | .ldp .. => some 0x52
  | .stp .. => some 0x53
  | .ldaq .. => some 0x54
  | .strl .. => some 0x55
  | .aadd .. => some 0x56
  | .aand .. => some 0x57
  | .aor .. => some 0x58
  | .axor .. => some 0x59
  | .amin .. => some 0x5a
  | .amax .. => some 0x5b
  | .aminu .. => some 0x5c
  | .amaxu .. => some 0x5d
  | .axch .. => some 0x5e
  | .acas .. => some 0x5f
  | .afadd .. => some 0x60
  | .afmin .. => some 0x61
  | .afmax .. => some 0x62
  | .cinv .. => some 0x65
  | .cfls .. => some 0x66
  | .fence .. => some 0x63
  | .pfence .. => some 0x64
  | .send .. => some 0x70
  | .recv .. => some 0x71
  | .mpoll .. => some 0x72
  | .put .. => some 0x73
  | .get .. => some 0x74
  | .migr .. => some 0x75
  | .xin .. => some 0x76
  | .xout .. => some 0x77
  | .vadd .. => some 0x80
  | .vsub .. => some 0x81
  | .vmul .. => some 0x82
  | .vfma .. => some 0x83
  | .vmin .. => some 0x84
  | .vmax .. => some 0x85
  | .vscl .. => some 0x86
  | .vadds .. => some 0x87
  | .vabs .. => some 0x88
  | .vneg .. => some 0x89
  | .vexp .. => some 0x8a
  | .vlog .. => some 0x8b
  | .vrcp .. => some 0x8c
  | .vrsq .. => some 0x8d
  | .vtanh .. => some 0x8e
  | .vsum .. => some 0x8f
  | .vmaxr .. => some 0x90
  | .vminr .. => some 0x91
  | .vargm .. => some 0x92
  | .vdot .. => some 0x93
  | .vcmp .. => some 0x94
  | .vsel .. => some 0x95
  | .vgath .. => some 0x96
  | .vscat .. => some 0x97
  | .vbcst .. => some 0x98
  | .viota .. => some 0x99
  | .vcopy .. => some 0x9a
  | .vlogic .. => some 0x9b
  | .vhash .. => some 0x9c
  | .wset .. => some 0xa0
  | .wget .. => some 0xa1
  | .qload .. => some 0xa2
  | .qsave .. => some 0xa3
  | .qseed .. => some 0xa4
  | .qgen .. => some 0xa5
  | .qgenv .. => some 0xa6
  | .oclm .. => some 0xb0
  | .orls .. => some 0xb1
  | .oload .. => some 0xb2
  | .mmg .. => some 0xb3
  | .mol .. => some 0xb4
  | .mdrn .. => some 0xb5
  | .mclr .. => some 0xb6
  | .mstat .. => some 0xb7
  | .trst .. => some 0xc0
  | .tadd .. => some 0xc1
  | .trd .. => some 0xc2
  | .gnew .. => some 0xc3
  | .gjoin .. => some 0xc4
  | .gleave .. => some 0xc5
  | .gfree .. => some 0xc6
  | .gcnt .. => some 0xc9
  | .gbar .. => some 0xc7
  | .gred .. => some 0xc8
  | .copy .. => some 0xd0
  | .cpyx .. => some 0xd1
  | .cpyq .. => some 0xd2
  | .lnch .. => some 0xd3
  | .trig .. => some 0xd4
  | .lwait .. => some 0xd5
  | .trap .. => some 0xe0
  | .rett .. => some 0xe1
  | .srd .. => some 0xe2
  | .swr .. => some 0xe3
  | .spawn .. => some 0xe4
  | .reap .. => some 0xe5
  | .svc .. => some 0xe6
  | .einj .. => some 0xe7
  | .idem .. => some 0xe8
  | .fixedLatencyWriteback .. => none
  | .longLatencyWrite .. => none
  | .signalPost .. => none
  | .gapExpiry .. => none
  | .dlyExpiry .. => none
  | .takenTransferRefetch .. => none
  | .scalarFpTrap .. => none
  | .reportDelivery .. => none
  | .consumedError .. => none
  | .deferredFaultReport .. => none
  | .retryLatchRelease .. => none
  | .threadReady .. => none
  | .vectorOpStart .. => none
  | .vectorOpComplete .. => none
  | .qruCommandComplete .. => none
  | .transferComplete .. => none
  | .oloadComplete .. => none
  | .gangLineRelease .. => none
  | .mmgExecute .. => none
  | .molExecute .. => none
  | .mdrnExecute .. => none
  | .mclrExecute .. => none
  | .mstatExecute .. => none
  | .parityUpdate .. => none
  | .refreshWindowBegin .. => none
  | .refreshWindowEnd .. => none
  | .messageDelivery .. => none
  | .remoteAccessServe .. => none
  | .migrationDeparture .. => none
  | .migrationLanding .. => none
  | .returnHome .. => none
  | .homeAccess .. => none
  | .tlbWalkComplete .. => none
  | .notResidentReport .. => none
  | .pageResident .. => none
  | .pageMoveSector .. => none
  | .readCacheRefill .. => none
  | .writeBufferRelease .. => none
  | .groupOpAtHome .. => none
  | .groupAck .. => none
  | .copyUnitComplete .. => none
  | .launchAccept .. => none
  | .copyListEntry .. => none
  | .gangPlacement .. => none
  | .parkQueueDelivery .. => none
  | .workDonation .. => none
  | .vttCacheRefill .. => none
  | .gangSwapOut .. => none
  | .gangRestore .. => none
  | .launchComplete .. => none
  | .quantumExpiry .. => none
  | .allowancePeriodBegin => none
  | .dispatch .. => none
  | .boostExpiry .. => none
  | .preemption .. => none
  | .chunkCountCut .. => none
  | .commitTurn .. => none
  | .killFlood .. => none
  | .killSweepEnd .. => none
  | .killConfirm .. => none
  | .uncontainedError .. => none
  | .voteRecord .. => none
  | .unitRetire .. => none
  | .governorTick => none
  | .droopEvent .. => none
  | .woreriFlitReceive .. => none
  | .woreriNakReplay .. => none
  | .laneRetrain .. => none
  | .reduceOpPerform .. => none
  | .hostLinkDown => none
  | .hostLinkUp => none
  | .qtailDoorbell => none
  | .queueConfigWrite => none
  | .hostWindowRead => none
  | .hostWindowWrite => none
  | .cmdKill => none
  | .cmdKillvd => none
  | .poolTableWrite => none
  | .vdTableWrite => none
  | .netctlWrite => none
  | .routeWrite => none
  | .dbgcertWrite => none
  | .registerWrite => none
  | .spdmSessionEstablish => none
  | .debugStop => none
  | .debugStep => none
  | .debugWithdraw => none
  | .debugArm => none
  | .debugDisarm => none
  | .debugRead => none
  | .debugWrite => none
  | .detach => none
  | .endSession => none
  | .sessionTimeout => none
  | .svcReturn .. => none
  | .moduleReset => none
  | .powerLoss => none
  | .illegalOp .. => none
  | .temperatureChange => none
  | .softError => none
  | .scrub => none
  | .physicalFunctionPageRequest => none
  | .vdCapped .. => none
  | .ringOscillatorWindow => none

/-- The control fields of an instruction word. -/
def Instr.ctl : Instr → Ctl
  | .add c .. => c
  | .sub c .. => c
  | .mul c .. => c
  | .mulh c .. => c
  | .mulhu c .. => c
  | .div c .. => c
  | .divu c .. => c
  | .rem c .. => c
  | .remu c .. => c
  | .and c .. => c
  | .or c .. => c
  | .xor c .. => c
  | .andn c .. => c
  | .shl c .. => c
  | .shr c .. => c
  | .sar c .. => c
  | .rol c .. => c
  | .clz c .. => c
  | .popc c .. => c
  | .brev c .. => c
  | .min c .. => c
  | .max c .. => c
  | .minu c .. => c
  | .maxu c .. => c
  | .adds c .. => c
  | .subs c .. => c
  | .cmp c .. => c
  | .sel c .. => c
  | .mov c .. => c
  | .extb c .. => c
  | .insb c .. => c
  | .hash c .. => c
  | .bswap c .. => c
  | .addi c .. => c
  | .andi c .. => c
  | .ori c .. => c
  | .xori c .. => c
  | .shli c .. => c
  | .shri c .. => c
  | .sari c .. => c
  | .cmpi c .. => c
  | .movi c .. => c
  | .movhi c .. => c
  | .fadd c .. => c
  | .fsub c .. => c
  | .fmul c .. => c
  | .ffma c .. => c
  | .fmin c .. => c
  | .fmax c .. => c
  | .fcmp c .. => c
  | .fsgn c .. => c
  | .frcp c .. => c
  | .frsq c .. => c
  | .fcvt c .. => c
  | .fcls c .. => c
  | .addp c .. => c
  | .addpi c .. => c
  | .movp c .. => c
  | .cmpp c .. => c
  | .br c .. => c
  | .bz c .. => c
  | .bnz c .. => c
  | .loop c .. => c
  | .call c .. => c
  | .pca c .. => c
  | .callr c .. => c
  | .jmpr c .. => c
  | .ret c => c
  | .dly c .. => c
  | .yield c => c
  | .exit c => c
  | .wait c => c
  | .bkpt c .. => c
  | .ld c .. => c
  | .st c .. => c
  | .ldp c .. => c
  | .stp c .. => c
  | .ldaq c .. => c
  | .strl c .. => c
  | .aadd c .. => c
  | .aand c .. => c
  | .aor c .. => c
  | .axor c .. => c
  | .amin c .. => c
  | .amax c .. => c
  | .aminu c .. => c
  | .amaxu c .. => c
  | .axch c .. => c
  | .acas c .. => c
  | .afadd c .. => c
  | .afmin c .. => c
  | .afmax c .. => c
  | .cinv c .. => c
  | .cfls c .. => c
  | .fence c .. => c
  | .pfence c .. => c
  | .send c .. => c
  | .recv c .. => c
  | .mpoll c .. => c
  | .put c .. => c
  | .get c .. => c
  | .migr c .. => c
  | .xin c .. => c
  | .xout c .. => c
  | .vadd c .. => c
  | .vsub c .. => c
  | .vmul c .. => c
  | .vfma c .. => c
  | .vmin c .. => c
  | .vmax c .. => c
  | .vscl c .. => c
  | .vadds c .. => c
  | .vabs c .. => c
  | .vneg c .. => c
  | .vexp c .. => c
  | .vlog c .. => c
  | .vrcp c .. => c
  | .vrsq c .. => c
  | .vtanh c .. => c
  | .vsum c .. => c
  | .vmaxr c .. => c
  | .vminr c .. => c
  | .vargm c .. => c
  | .vdot c .. => c
  | .vcmp c .. => c
  | .vsel c .. => c
  | .vgath c .. => c
  | .vscat c .. => c
  | .vbcst c .. => c
  | .viota c .. => c
  | .vcopy c .. => c
  | .vlogic c .. => c
  | .vhash c .. => c
  | .wset c .. => c
  | .wget c .. => c
  | .qload c .. => c
  | .qsave c .. => c
  | .qseed c .. => c
  | .qgen c .. => c
  | .qgenv c .. => c
  | .oclm c .. => c
  | .orls c .. => c
  | .oload c .. => c
  | .mmg c .. => c
  | .mol c .. => c
  | .mdrn c .. => c
  | .mclr c .. => c
  | .mstat c .. => c
  | .trst c .. => c
  | .tadd c .. => c
  | .trd c .. => c
  | .gnew c .. => c
  | .gjoin c .. => c
  | .gleave c .. => c
  | .gfree c .. => c
  | .gcnt c .. => c
  | .gbar c .. => c
  | .gred c .. => c
  | .copy c .. => c
  | .cpyx c .. => c
  | .cpyq c .. => c
  | .lnch c .. => c
  | .trig c => c
  | .lwait c => c
  | .trap c .. => c
  | .rett c .. => c
  | .srd c .. => c
  | .swr c .. => c
  | .spawn c .. => c
  | .reap c .. => c
  | .svc c .. => c
  | .einj c .. => c
  | .idem c => c
  | .fixedLatencyWriteback .. => {}
  | .longLatencyWrite .. => {}
  | .signalPost .. => {}
  | .gapExpiry .. => {}
  | .dlyExpiry .. => {}
  | .takenTransferRefetch .. => {}
  | .scalarFpTrap .. => {}
  | .reportDelivery .. => {}
  | .consumedError .. => {}
  | .deferredFaultReport .. => {}
  | .retryLatchRelease .. => {}
  | .threadReady .. => {}
  | .vectorOpStart .. => {}
  | .vectorOpComplete .. => {}
  | .qruCommandComplete .. => {}
  | .transferComplete .. => {}
  | .oloadComplete .. => {}
  | .gangLineRelease .. => {}
  | .mmgExecute .. => {}
  | .molExecute .. => {}
  | .mdrnExecute .. => {}
  | .mclrExecute .. => {}
  | .mstatExecute .. => {}
  | .parityUpdate .. => {}
  | .refreshWindowBegin .. => {}
  | .refreshWindowEnd .. => {}
  | .messageDelivery .. => {}
  | .remoteAccessServe .. => {}
  | .migrationDeparture .. => {}
  | .migrationLanding .. => {}
  | .returnHome .. => {}
  | .homeAccess .. => {}
  | .tlbWalkComplete .. => {}
  | .notResidentReport .. => {}
  | .pageResident .. => {}
  | .pageMoveSector .. => {}
  | .readCacheRefill .. => {}
  | .writeBufferRelease .. => {}
  | .groupOpAtHome .. => {}
  | .groupAck .. => {}
  | .copyUnitComplete .. => {}
  | .launchAccept .. => {}
  | .copyListEntry .. => {}
  | .gangPlacement .. => {}
  | .parkQueueDelivery .. => {}
  | .workDonation .. => {}
  | .vttCacheRefill .. => {}
  | .gangSwapOut .. => {}
  | .gangRestore .. => {}
  | .launchComplete .. => {}
  | .quantumExpiry .. => {}
  | .allowancePeriodBegin => {}
  | .dispatch .. => {}
  | .boostExpiry .. => {}
  | .preemption .. => {}
  | .chunkCountCut .. => {}
  | .commitTurn .. => {}
  | .killFlood .. => {}
  | .killSweepEnd .. => {}
  | .killConfirm .. => {}
  | .uncontainedError .. => {}
  | .voteRecord .. => {}
  | .unitRetire .. => {}
  | .governorTick => {}
  | .droopEvent .. => {}
  | .woreriFlitReceive .. => {}
  | .woreriNakReplay .. => {}
  | .laneRetrain .. => {}
  | .reduceOpPerform .. => {}
  | .hostLinkDown => {}
  | .hostLinkUp => {}
  | .qtailDoorbell => {}
  | .queueConfigWrite => {}
  | .hostWindowRead => {}
  | .hostWindowWrite => {}
  | .cmdKill => {}
  | .cmdKillvd => {}
  | .poolTableWrite => {}
  | .vdTableWrite => {}
  | .netctlWrite => {}
  | .routeWrite => {}
  | .dbgcertWrite => {}
  | .registerWrite => {}
  | .spdmSessionEstablish => {}
  | .debugStop => {}
  | .debugStep => {}
  | .debugWithdraw => {}
  | .debugArm => {}
  | .debugDisarm => {}
  | .debugRead => {}
  | .debugWrite => {}
  | .detach => {}
  | .endSession => {}
  | .sessionTimeout => {}
  | .svcReturn .. => {}
  | .moduleReset => {}
  | .powerLoss => {}
  | .illegalOp .. => {}
  | .temperatureChange => {}
  | .softError => {}
  | .scrub => {}
  | .physicalFunctionPageRequest => {}
  | .vdCapped .. => {}
  | .ringOscillatorWindow => {}

/-- A word whose primary code is 0x00 or unassigned (03 R77). -/
def illegalCode (op : Nat) : Bool :=
  op == 0 || (decide (0x2C ≤ op) && decide (op ≤ 0x2F)) || op == 0x4E || op == 0x4F ||
  (decide (0x67 ≤ op) && decide (op ≤ 0x6F)) || (decide (0x78 ≤ op) && decide (op ≤ 0x7F)) ||
  (decide (0x9D ≤ op) && decide (op ≤ 0x9F)) || (decide (0xA7 ≤ op) && decide (op ≤ 0xAF)) ||
  (decide (0xB8 ≤ op) && decide (op ≤ 0xBF)) || (decide (0xCA ≤ op) && decide (op ≤ 0xCF)) ||
  (decide (0xD6 ≤ op) && decide (op ≤ 0xDF)) || (decide (0xE9 ≤ op) && decide (op ≤ 0xFB))

/-- The operand fields are inside their limits (03 R79 to R89, 06 R154; "a value outside the limits traps
BAD_SUBOP"). SRD, SWR and EINJ are not checked here: PRIVILEGED comes before BAD_SUBOP (03 R53), and it needs the
state. -/
def Instr.fieldsOk : Instr → Bool
  | .add .. => true
  | .sub .. => true
  | .mul .. => true
  | .mulh .. => true
  | .mulhu .. => true
  | .div .. => true
  | .divu .. => true
  | .rem .. => true
  | .remu .. => true
  | .and .. => true
  | .or .. => true
  | .xor .. => true
  | .andn .. => true
  | .shl .. => true
  | .shr .. => true
  | .sar .. => true
  | .rol .. => true
  | .clz .. => true
  | .popc .. => true
  | .brev .. => true
  | .min .. => true
  | .max .. => true
  | .minu .. => true
  | .maxu .. => true
  | .adds .. => true
  | .subs .. => true
  | .cmp .. => true
  | .sel .. => true
  | .mov .. => true
  | .extb _ _ _ _ pos w1 => decide (pos.toNat + (w1.toNat + 1) ≤ 32)
  | .insb _ _ _ pos w1 => decide (pos.toNat + (w1.toNat + 1) ≤ 32)
  | .hash .. => true
  | .bswap .. => true
  | .addi .. => true
  | .andi .. => true
  | .ori .. => true
  | .xori .. => true
  | .shli c _ _ imm => decide (0 ≤ c.imm imm) && decide (c.imm imm ≤ 31)
  | .shri c _ _ imm => decide (0 ≤ c.imm imm) && decide (c.imm imm ≤ 31)
  | .sari c _ _ imm => decide (0 ≤ c.imm imm) && decide (c.imm imm ≤ 31)
  | .cmpi .. => true
  | .movi .. => true
  | .movhi .. => true
  | .fadd .. => true
  | .fsub .. => true
  | .fmul .. => true
  | .ffma .. => true
  | .fmin .. => true
  | .fmax .. => true
  | .fcmp .. => true
  | .fsgn .. => true
  | .frcp .. => true
  | .frsq .. => true
  | .fcvt .. => true
  | .fcls .. => true
  | .addp .. => true
  | .addpi .. => true
  | .movp .. => true
  | .cmpp .. => true
  | .br .. => true
  | .bz .. => true
  | .bnz .. => true
  | .loop .. => true
  | .call .. => true
  | .pca .. => true
  | .callr .. => true
  | .jmpr .. => true
  | .ret .. => true
  | .dly c imm => decide (0 ≤ c.imm imm)
  | .yield .. => true
  | .exit .. => true
  | .wait .. => true
  | .bkpt .. => true
  | .ld .. => true
  | .st .. => true
  | .ldp .. => true
  | .stp .. => true
  | .ldaq .. => true
  | .strl .. => true
  | .aadd .. => true
  | .aand .. => true
  | .aor .. => true
  | .axor .. => true
  | .amin .. => true
  | .amax .. => true
  | .aminu .. => true
  | .amaxu .. => true
  | .axch .. => true
  | .acas _ sz _ rt _ _ => decide (sz = .w → rt ≠ 15)
  | .afadd .. => true
  | .afmin .. => true
  | .afmax .. => true
  | .cinv .. => true
  | .cfls .. => true
  | .fence .. => true
  | .pfence _ paths => decide (2 ≤ (List.range 5).countP fun i => paths.getLsbD i)
  | .send .. => true
  | .recv .. => true
  | .mpoll .. => true
  | .put .. => true
  | .get .. => true
  | .migr .. => true
  | .xin .. => true
  | .xout .. => true
  | .vadd .. => true
  | .vsub .. => true
  | .vmul .. => true
  | .vfma .. => true
  | .vmin .. => true
  | .vmax .. => true
  | .vscl .. => true
  | .vadds .. => true
  | .vabs .. => true
  | .vneg .. => true
  | .vexp .. => true
  | .vlog .. => true
  | .vrcp .. => true
  | .vrsq .. => true
  | .vtanh .. => true
  | .vsum .. => true
  | .vmaxr .. => true
  | .vminr .. => true
  | .vargm .. => true
  | .vdot .. => true
  | .vcmp .. => true
  | .vsel .. => true
  | .vgath .. => true
  | .vscat .. => true
  | .vbcst .. => true
  | .viota .. => true
  | .vcopy .. => true
  | .vlogic .. => true
  | .vhash .. => true
  | .wset .. => true
  | .wget .. => true
  | .qload _ _ _ _ cnt => decide (1 ≤ cnt.toNat) && decide (cnt.toNat ≤ 64)
  | .qsave _ _ _ _ cnt => decide (1 ≤ cnt.toNat) && decide (cnt.toNat ≤ 64)
  | .qseed .. => true
  | .qgen .. => true
  | .qgenv .. => true
  | .oclm .. => true
  | .orls .. => true
  | .oload .. => true
  | .mmg .. => true
  | .mol .. => true
  | .mdrn .. => true
  | .mclr .. => true
  | .mstat .. => true
  | .trst .. => true
  | .tadd c _ imm => decide (0 ≤ c.imm imm) && decide (c.imm imm ≤ 255)
  | .trd .. => true
  | .gnew .. => true
  | .gjoin .. => true
  | .gleave .. => true
  | .gfree .. => true
  | .gcnt .. => true
  | .gbar .. => true
  | .gred .. => true
  | .copy .. => true
  | .cpyx .. => true
  | .cpyq .. => true
  | .lnch .. => true
  | .trig .. => true
  | .lwait .. => true
  | .trap c imm => decide (0 ≤ c.imm imm) && decide (c.imm imm ≤ 31)
  | .rett .. => true
  | .srd .. => true
  | .swr .. => true
  | .spawn .. => true
  | .reap .. => true
  | .svc .. => true
  | .einj .. => true
  | .idem .. => true
  | .fixedLatencyWriteback .. => true
  | .longLatencyWrite .. => true
  | .signalPost .. => true
  | .gapExpiry .. => true
  | .dlyExpiry .. => true
  | .takenTransferRefetch .. => true
  | .scalarFpTrap .. => true
  | .reportDelivery .. => true
  | .consumedError .. => true
  | .deferredFaultReport .. => true
  | .retryLatchRelease .. => true
  | .threadReady .. => true
  | .vectorOpStart .. => true
  | .vectorOpComplete .. => true
  | .qruCommandComplete .. => true
  | .transferComplete .. => true
  | .oloadComplete .. => true
  | .gangLineRelease .. => true
  | .mmgExecute .. => true
  | .molExecute .. => true
  | .mdrnExecute .. => true
  | .mclrExecute .. => true
  | .mstatExecute .. => true
  | .parityUpdate .. => true
  | .refreshWindowBegin .. => true
  | .refreshWindowEnd .. => true
  | .messageDelivery .. => true
  | .remoteAccessServe .. => true
  | .migrationDeparture .. => true
  | .migrationLanding .. => true
  | .returnHome .. => true
  | .homeAccess .. => true
  | .tlbWalkComplete .. => true
  | .notResidentReport .. => true
  | .pageResident .. => true
  | .pageMoveSector .. => true
  | .readCacheRefill .. => true
  | .writeBufferRelease .. => true
  | .groupOpAtHome .. => true
  | .groupAck .. => true
  | .copyUnitComplete .. => true
  | .launchAccept .. => true
  | .copyListEntry .. => true
  | .gangPlacement .. => true
  | .parkQueueDelivery .. => true
  | .workDonation .. => true
  | .vttCacheRefill .. => true
  | .gangSwapOut .. => true
  | .gangRestore .. => true
  | .launchComplete .. => true
  | .quantumExpiry .. => true
  | .allowancePeriodBegin => true
  | .dispatch .. => true
  | .boostExpiry .. => true
  | .preemption .. => true
  | .chunkCountCut .. => true
  | .commitTurn .. => true
  | .killFlood .. => true
  | .killSweepEnd .. => true
  | .killConfirm .. => true
  | .uncontainedError .. => true
  | .voteRecord .. => true
  | .unitRetire .. => true
  | .governorTick => true
  | .droopEvent .. => true
  | .woreriFlitReceive .. => true
  | .woreriNakReplay .. => true
  | .laneRetrain .. => true
  | .reduceOpPerform .. => true
  | .hostLinkDown => true
  | .hostLinkUp => true
  | .qtailDoorbell => true
  | .queueConfigWrite => true
  | .hostWindowRead => true
  | .hostWindowWrite => true
  | .cmdKill => true
  | .cmdKillvd => true
  | .poolTableWrite => true
  | .vdTableWrite => true
  | .netctlWrite => true
  | .routeWrite => true
  | .dbgcertWrite => true
  | .registerWrite => true
  | .spdmSessionEstablish => true
  | .debugStop => true
  | .debugStep => true
  | .debugWithdraw => true
  | .debugArm => true
  | .debugDisarm => true
  | .debugRead => true
  | .debugWrite => true
  | .detach => true
  | .endSession => true
  | .sessionTimeout => true
  | .svcReturn .. => true
  | .moduleReset => true
  | .powerLoss => true
  | .illegalOp w => illegalCode (w.extractLsb' 56 8).toNat
  | .temperatureChange => true
  | .softError => true
  | .scrub => true
  | .physicalFunctionPageRequest => true
  | .vdCapped .. => true
  | .ringOscillatorWindow => true

/-- A well-formed instruction word: prefixes and fields as the tables have them. An event, which no word encodes, is
well formed when its fields are. -/
def Instr.wellFormed (i : Instr) : Bool :=
  i.fieldsOk && (match i.opcode with | some op => prefixesOk op i.goForm i.ctl.pfx | none => true)

/-- A word of the opcode table, not an event. -/
def Instr.isWord (i : Instr) : Bool :=
  i.opcode.isSome || (match i with | .illegalOp _ => true | _ => false)

end Sys2Proof
end

