-- ==== Sys2Proof/Machine/Operands.lean ====
section
/-!
DEFINITION. Operand forms: general registers and pairs, addresses and their spaces (02 R47 to R49), window formats
with their decode and encode (04 R90 to R95, R107 to R110).
-/
namespace Sys2Proof.Machine

/-! ### Registers and pairs (02 R33) -/

def Thread.reg (t : Thread) (r : Reg) : Word := t.g[r.toFin]
def Thread.setReg (t : Thread) (r : Reg) (w : Word) : Thread := { t with g := t.g.set r.toFin w }

/-- The odd register of the pair whose even register is named. -/
def Reg.hi (r : Reg) : Reg := r ||| 1
def Thread.pair (t : Thread) (r : Reg) : DWord := DWord.mk (t.reg r) (t.reg (Reg.hi r))
def Thread.setPair (t : Thread) (r : Reg) (d : DWord) : Thread := (t.setReg r d.lo).setReg (Reg.hi r) d.hi
def Reg.odd (r : Reg) : Bool := r.getLsbD 0

/-- Writes results in order. -/
def Thread.writes (t : Thread) : List (Reg × Word) → Thread
  | [] => t
  | (r, w) :: l => Thread.writes (t.setReg r w) l

/-- The two register writes of a pair result. -/
def pairWrites (r : Reg) (d : DWord) : List (Reg × Word) := [(r, d.lo), (Reg.hi r, d.hi)]

/-! ### Addresses (02 R47 to R49) -/

/-- An address by its space. -/
inductive Addr where
  | glob (home off : Nat)
  | loc (win off : Nat)
  | remote (vt win off : Nat)
  | weight (off : Nat)
  | host
  | bad
  deriving DecidableEq, Repr

def Addr.of (a : DWord) : Addr :=
  let n := a.toNat
  match n / 2 ^ 60 with
  | 0x0 => if n / 2 ^ 58 % 4 = 0 then .glob (n / 2 ^ 52 % 64) (n % 2 ^ 52) else .bad
  | 0x8 => if n / 2 ^ 35 % 2 ^ 25 = 0 ∧ n / 2 ^ 20 % 2 ^ 12 = 0 then .loc (n / 2 ^ 32 % 8) (n % 2 ^ 20) else .bad
  | 0x9 =>
    if n / 2 ^ 35 % 2 = 0 ∧ n / 2 ^ 20 % 2 ^ 12 = 0 then .remote (n / 2 ^ 36 % 2 ^ 24) (n / 2 ^ 32 % 8) (n % 2 ^ 20)
    else .bad
  | 0xA => if n / 2 ^ 29 % 2 ^ 31 = 0 then .weight (n % 2 ^ 29) else .bad
  | 0xC => .host
  | _ => .bad

/-- A short local address (02 R48): window and offset; none when a bit that must be zero is set. -/
def shortAddr (w : Word) : Option (Nat × Nat) :=
  if w.extractLsb' 24 8 = 0 ∧ w.getLsbD 20 = false then some ((w.extractLsb' 21 3).toNat, (w.extractLsb' 0 20).toNat)
  else none

/-- The local-space address of a window and offset (02 R49). -/
def localAddr (win off : Nat) : DWord := BitVec.ofNat 64 (2 ^ 63 + win * 2 ^ 32 + off)

/-- The effective address of F-M: base pair plus offset modulo 2^64 (03 R60, R71). -/
def Thread.ea (t : Thread) (c : Ctl) (pb : Reg) (off : BitVec 24) : DWord :=
  t.pair pb + BitVec.ofInt 64 (c.imm off)

/-! ### Window formats (04 R90) -/

/-- Bytes of an element; none for the codes 11 to 15. -/
def fmtSize (f : Nat) : Option Nat :=
  match f with
  | 0 => some 1 | 1 => some 4 | 2 => some 2 | 3 => some 2 | 4 => some 1 | 5 => some 1 | 6 => some 2 | 7 => some 4
  | 8 => some 1 | 9 => some 4 | 10 => some 8 | _ => none

/-- The term of a TS8 nibble in units of 2^−6 (04 R91). -/
def ts8Term (n : Nat) : Int :=
  let c := n % 8
  let m : Int := if c = 7 then 0 else (2 ^ (6 - c) : Nat)
  if n / 8 % 2 = 1 then -m else m
def ts8Units (b : Nat) : Int := ts8Term (b / 16 % 16) + ts8Term (b % 16)

/-- Sign extension of the low bits of a number. -/
def signed (bits : Nat) (n : Nat) : Int := (BitVec.ofNat bits n).toInt

/-- The exact value that an element decodes to (04 R107). RAW and OL64 have none. -/
def decodeVal (f : Nat) (raw : Nat) : FVal :=
  match f with
  | 1 => FVal.ofBits fp32 raw
  | 2 => FVal.ofBits bf16 raw
  | 3 => FVal.ofBits fp16 raw
  | 4 => FVal.ofInt false (signed 8 raw) 0
  | 5 => FVal.ofInt false raw 0
  | 6 => FVal.ofInt false (signed 16 raw) 0
  | 7 => FVal.ofInt false (signed 32 raw) 0
  | 8 => FVal.ofInt false (ts8Units raw) (-6)
  | 9 => FVal.fin false (raw / 256) (-24)
  | _ => .nan

/-- The integer of an integer format's element. -/
def decodeInt (f : Nat) (raw : Nat) : Int :=
  match f with
  | 4 => signed 8 raw
  | 5 => raw
  | 6 => signed 16 raw
  | 7 => signed 32 raw
  | _ => 0

def isIntFmt (f : Nat) : Bool := f == 4 || f == 5 || f == 6 || f == 7
def isFloatFmt (f : Nat) : Bool := f == 1 || f == 2 || f == 3 || f == 8 || f == 9
def intRange (f : Nat) : Int × Int :=
  match f with
  | 4 => (-128, 127)
  | 5 => (0, 255)
  | 6 => (-32768, 32767)
  | _ => (-2 ^ 31, 2 ^ 31 - 1)

/-- The decoded value in FP32: only an INT32 rounds (04 R107). -/
def decodeF32 (f : Nat) (raw : Nat) : Word × Exc := w32 ((decodeVal f raw).round fp32 .rne)

/-- The distance of a TS8 value from u, and the better of two codes: nearer, then smaller in magnitude, then the
earlier code. Values are scaled by 2^sh. -/
def ts8Nearest (u : Int) (sh : Nat) : Nat :=
  (List.range 256).foldl (fun best c =>
    let d := fun c => (u - ts8Units c * 2 ^ sh).natAbs
    if d c < d best ∨ (d c = d best ∧ (ts8Units c).natAbs < (ts8Units best).natAbs) then c else best) 0

/-- The TS8 value of largest magnitude not above |u| with the sign of u, or 0. -/
def ts8Toward0 (u : Int) (sh : Nat) : Nat :=
  (List.range 256).foldl (fun best c =>
    let v := ts8Units c * 2 ^ sh
    let fits := (v = 0 ∨ (decide (v < 0) = decide (u < 0))) ∧ v.natAbs ≤ u.natAbs
    if fits ∧ (ts8Units best).natAbs < (ts8Units c).natAbs then c else best) 0x77

/-- The code that a TS8 value is written as (04 R93 step 3). -/
def ts8Code (v : Int) : Nat :=
  if v = 0 then 0x77 else ((List.range 256).find? fun c => decide (ts8Units c = v)).getD 0x77

/-- TS8 encode (04 R93). -/
def encodeTs8 (rz : Bool) : FVal → Nat × Exc
  | .nan => (0x77, excInvalid)
  | .inf s => (ts8Code (if s then -128 else 128), excOverflow ||| excInexact)
  | .fin s m e =>
    if m = 0 then (0x77, 0)
    else
      let e := e + 6
      let q := min e 0
      let sh := (-q).toNat
      let u := scaled s m e q
      if u.natAbs > 128 * 2 ^ sh then (ts8Code (if s then -128 else 128), excOverflow ||| excInexact)
      else
        let c := if rz then ts8Toward0 u sh else ts8Nearest u sh
        let v := ts8Units c
        (ts8Code v, if v * 2 ^ sh = u then 0 else excInexact)

/-- FRAC32 encode (04 R95). -/
def encodeFrac (rm : RM) : FVal → Nat × Exc
  | .nan => (0, excInvalid)
  | .inf true => (0, excInexact)
  | .inf false => (0xFFFFFF00, excOverflow ||| excInexact)
  | .fin s m e =>
    if m = 0 then (0, 0)
    else if s then (0, excInexact)
    else
      let (k, nx) := roundTo rm false m e false (-24)
      if k ≥ 2 ^ 24 then (0xFFFFFF00, excOverflow ||| excInexact)
      else (k * 256, if nx then excInexact else 0)

/-- Encode of a floating-point format with the overflow mode (04 R108); `inf` is mode INF. -/
def encodeFloat (f : FFmt) (rm : RM) (inf : Bool) (v : FVal) : Nat × Exc :=
  match v with
  | .nan => (f.nanBits, 0)
  | .inf s =>
    let sg := if s then f.signBit else 0
    if inf then (sg + f.infBits, 0) else (sg + f.maxBits, excOverflow ||| excInexact)
  | .fin s _ _ =>
    let (b, x) := v.round f rm
    if x.getLsbD 2 && !inf then ((if s then f.signBit else 0) + f.maxBits, x) else (b, x)

/-- A window's rounding (RNE or RZ). -/
def Window.rm (w : Window) : RM := if w.rnd = 1 then .rz else .rne

/-- A value written through a window (04 R108): the element's bits and the exceptions. -/
def encodeVal (w : Window) (v : FVal) : Nat × Exc :=
  match w.fmt with
  | 1 => encodeFloat fp32 w.rm (w.ovf == 1) v
  | 2 => encodeFloat bf16 w.rm (w.ovf == 1) v
  | 3 => encodeFloat fp16 w.rm (w.ovf == 1) v
  | 8 => encodeTs8 (w.rm = .rz) v
  | 9 => encodeFrac w.rm v
  | f =>
    let (lo, hi) := intRange f
    let r := toIntFmt w.rm lo hi v
    ((r.1 % (2 ^ (8 * (fmtSize f).getD 4) : Nat)).toNat, r.2)

/-- An INT32 clamped to an integer format's range, with no flag (06 R146). -/
def clampInt (f : Nat) (i : Int) : Nat :=
  let (lo, hi) := intRange f
  ((max lo (min hi i)) % (2 ^ (8 * (fmtSize f).getD 4) : Nat)).toNat

/-- The scale number of element e (04 R109); 1 per row, 2 per column, 3 per group. -/
def scaleIndex (w : Window) (e : Nat) : Nat :=
  match w.smode with
  | 1 => e / w.len
  | 2 => e % w.len
  | _ => e / w.len * ((w.len + 31) / 32) + e % w.len / 32

/-- Where the scale of element e lies (04 R109). -/
def scaleOff (w : Window) (e : Nat) : Nat := (w.sbase % 2 ^ 20 + 2 * scaleIndex w e) % 2 ^ 20

end Sys2Proof.Machine
end

