-- ==== Sys2Proof/Machine/Flits.lean ====
section
/-!
DEFINITION. The flits of a Woreri port: FEC and CRC (21 R401), their form (R400), sending and resending them (R402, R403).
-/
namespace Sys2Proof.Machine

/-! ### GF(2^8) (R401) -/

/-- Multiplication by α = 0x02 modulo x^8 + x^4 + x^3 + x^2 + 1. -/
def gfX (a : Nat) : Nat := if a < 128 then 2 * a else (2 * a) ^^^ 0x11D
def gfMulN : Nat → Nat → Nat → Nat
  | 0, _, _ => 0
  | n + 1, a, b => (if b % 2 = 1 then a else 0) ^^^ gfMulN n (gfX a) (b / 2)
def gfMul (a b : Nat) : Nat := gfMulN 8 a b
def gfPow (a : Nat) : Nat → Nat
  | 0 => 1
  | n + 1 => gfMul a (gfPow a n)
def gfInv (a : Nat) : Nat := gfPow a 254
/-- α to the power n. -/
def gfAlpha (n : Nat) : Nat := gfPow 2 (n % 255)

/-- A polynomial's value, its coefficients from the lowest power up. -/
def gfEval : List Nat → Nat → Nat
  | [], _ => 0
  | c :: cs, x => c ^^^ gfMul x (gfEval cs x)
def gfAdd : List Nat → List Nat → List Nat
  | [], b => b
  | a, [] => a
  | x :: a, y :: b => (x ^^^ y) :: gfAdd a b
def gfScale (k : Nat) (a : List Nat) : List Nat := a.map (gfMul k)
def gfShift (m : Nat) (a : List Nat) : List Nat := List.replicate m 0 ++ a
def gfMulPoly : List Nat → List Nat → List Nat
  | [], _ => []
  | x :: a, b => gfAdd (gfScale x b) (0 :: gfMulPoly a b)
def gfCoeff (a : List Nat) (i : Nat) : Nat := (a[i]?).getD 0

/-! ### The Reed–Solomon codewords -/

/-- The generator of RS(128, 120). -/
def rsGen : List Nat := (List.range 8).foldl (fun g i => gfMulPoly g [gfAlpha i, 1]) [1]

/-- The remainder of m(x) × x^8 divided by the generator: the register after the data, highest power first. -/
def rsParity (data : List Nat) : List Nat :=
  let step (r : List Nat) (d : Nat) : List Nat :=
    let k := d ^^^ gfCoeff r 7
    (List.range 8).map fun i => (if i = 0 then 0 else gfCoeff r (i - 1)) ^^^ gfMul k (gfCoeff rsGen i)
  (data.foldl step (List.replicate 8 0)).reverse

/-- The syndromes of a received codeword, its bytes from the highest power down. -/
def rsSyndromes (w : List Nat) : List Nat := (List.range 8).map fun j => gfEval w.reverse (gfAlpha j)

/-- The shortest register that makes the syndromes: the error locator. -/
structure Locator where
  c : List Nat := [1]
  b : List Nat := [1]
  l : Nat := 0
  m : Nat := 1
  d : Nat := 1
def Locator.step (s : List Nat) (x : Locator) (n : Nat) : Locator :=
  let d := (List.range (x.l + 1)).foldl (fun a i => if i ≤ n then a ^^^ gfMul (gfCoeff x.c i) (gfCoeff s (n - i)) else a) 0
  if d = 0 then { x with m := x.m + 1 }
  else
    let c := gfAdd x.c (gfShift x.m (gfScale (gfMul d (gfInv x.d)) x.b))
    if 2 * x.l ≤ n then { c, b := x.c, l := n + 1 - x.l, m := 1, d } else { x with c, m := x.m + 1 }
def rsLocate (s : List Nat) : Locator := (List.range 8).foldl (fun x n => x.step s n) {}

/-- The corrected codeword; none when more than 4 bytes are wrong, as far as the code tells. -/
def rsCorrect (w : List Nat) : Option (List Nat) :=
  let s := rsSyndromes w
  if s.all (· = 0) then some w
  else
    let x := rsLocate s
    let roots := (List.range 128).filter fun p => decide (gfEval x.c (gfAlpha (255 - p)) = 0)
    if x.l > 4 ∨ roots.length ≠ x.l then none
    else
      let omega := (gfMulPoly s x.c).take 8
      let deriv := (x.c.drop 1).mapIdx fun i a => if i % 2 = 0 then a else 0
      let w' := w.mapIdx fun i b =>
        let p := 127 - i
        if roots.contains p then
          let y := gfAlpha (255 - p)
          b ^^^ gfMul (gfAlpha p) (gfMul (gfEval omega y) (gfInv (gfEval deriv y)))
        else b
      if (rsSyndromes w').all (· = 0) then some w' else none

/-- The bytes of a flit's codeword: those at even offsets, or at odd ones. -/
def rsHalf (odd : Nat) (f : List Nat) : List Nat := (List.range 128).map fun i => gfCoeff f (2 * i + odd)

/-! ### The CRC -/

def crcBit (c : DWord) (d : Bool) : DWord :=
  let t := c.getLsbD 63 != d
  (c <<< 1) ^^^ (if t then 0x42F0E1EBA9EA3693 else 0)
def crcByte (c : DWord) (b : Nat) : DWord := (List.range 8).foldl (fun c i => crcBit c (decide (b / 2 ^ (7 - i) % 2 = 1))) c
def crc64 (l : List Nat) : DWord := ~~~(l.foldl crcByte 0xFFFFFFFFFFFFFFFF)

/-! ### Flits (R400) -/

/-- A flit with its CRC and FEC, from its first 232 bytes. -/
def sealFlit (head : List Nat) : List Nat :=
  let h := (head ++ List.replicate 232 0).take 232
  let f := h ++ (leBytes (crc64 h).toNat 8).map BitVec.toNat
  let e := rsParity ((List.range 120).map fun i => gfCoeff f (2 * i))
  let o := rsParity ((List.range 120).map fun i => gfCoeff f (2 * i + 1))
  f ++ (List.range 16).map fun i => if i % 2 = 0 then gfCoeff e (i / 2) else gfCoeff o (i / 2)

/-- A received flit corrected, if both codewords can be and the CRC then holds. -/
def openFlit (f : List Nat) : Option (List Nat) :=
  match rsCorrect (rsHalf 0 f), rsCorrect (rsHalf 1 f) with
  | some e, some o =>
    let g := (List.range 256).map fun i => if i % 2 = 0 then gfCoeff e (i / 2) else gfCoeff o (i / 2)
    if BitVec.ofNat 64 (leNat ((g.drop 232).take 8 |>.map (BitVec.ofNat 8))) = crc64 (g.take 232) then some g else none
  | _, _ => none

def flitWord (f : List Nat) (off n : Nat) : Nat := leNat (((f.drop off).take n).map (BitVec.ofNat 8))

/-- The first 232 bytes of a flit: sequence and channel, XOFF, the last sequence received in order, NAK, the payload. -/
def flitHead (seq : BitVec 12) (vc : Nat) (xoff : BitVec 4) (ack : BitVec 12) (nak : Bool) (payload : List Byte) : List Nat :=
  (leBytes (seq.toNat + vc % 4 * 2 ^ 12) 4 ++ leBytes xoff.toNat 2 ++ leBytes (ack.toNat + if nak then 2 ^ 12 else 0) 2 ++
    payload).map BitVec.toNat

/-! ### Sending (R402, R403) -/

/-- A kept flit as the port puts it on the link now. -/
def Port.flit (p : Port) (e : Kept) : List Byte :=
  (sealFlit (flitHead e.seq e.vc p.xoffOut p.lastGood p.sendNak e.payload)).map (BitVec.ofNat 8)

/-- A new flit goes onto the link, and is kept among the last 256. -/
def Port.send (p : Port) (vc vd : Nat) (payload : List Byte) : Port :=
  { p with
    nextSeq := p.nextSeq + 1
    replay := (p.replay ++ [Kept.mk p.nextSeq vc vd payload]).drop (p.replay.length + 1 - 256)
    out := p.out ++ [p.flit ⟨p.nextSeq, vc, vd, payload⟩] }

/-- What a port put on the link before its present act is gone. -/
def Port.begin (p : Port) : Port := { p with out := [] }

def State.updPort (s : State) (i : Nat) (f : Port → Port) : State :=
  { s with ports := s.ports.mapIdx fun j p => if j = i then f p else p }

/-- Whether the receiver at the other end has stopped a channel of a port. -/
def State.portStopped (s : State) (i vc : Nat) : Bool := (((s.ports.toList)[i]?).map fun q => q.xoffIn.getLsbD vc).getD false

/-- A port sends a flit of a channel, REQ 0, RSP 1, RED 2, MGMT 3, for a VD. Its payload, whose layout the spec does not give, is free (log 34). -/
def State.portPut (s : State) (i vc vd : Nat) : State :=
  { s.updPort i fun p => p.send vc vd ((List.range 224).map fun j => BitVec.ofNat 8 (Config.freeNat (s.fresh + j))) with
    fresh := s.fresh + 224 }

/-- The same as an act of its own. -/
def State.portSend (s : State) (i vc vd : Nat) : State := (s.updPort i Port.begin).portPut i vc vd

/-- The same once the channel is open (R403). -/
def State.portOwe (s : State) (i vc vd : Nat) : State :=
  if s.portStopped i vc then s.updPort i fun p => { p with owed := p.owed ++ [(vc, vd)] } else s.portSend i vc vd

/-- The flits that waited for channels that are open now. -/
def State.portFlush (s : State) (i : Nat) : State :=
  let l := (((s.ports.toList)[i]?).map Port.owed).getD []
  (l.filter fun e => !s.portStopped i e.1).foldl (fun (s : State) e => s.portPut i e.1 e.2)
    (s.updPort i fun p => { p with owed := p.owed.filter fun e => s.portStopped i e.1 })

end Sys2Proof.Machine
end

