-- ==== Sys2Proof/Decode.lean ====
section
/-!
DEFINITION. Instruction words to instructions and back (03): the control fields (R51), the operand formats (R58 to
R64), prefixes (R70 to R75) and the opcode map (R76). Decoding is total and refuses by name.
-/
namespace Sys2Proof

/-- Why bytes are no instruction. -/
inductive DecodeError where
  /-- Fewer bytes than the sequence needs. -/
  | truncated
  /-- A block header stands where an instruction is wanted (03 R66; with prefixes before it, R75). -/
  | header (prefixed : Bool)
  /-- 03 R75. -/
  | prefixMisuse
  /-- 03 R52. -/
  | badSubop
  deriving DecidableEq, Repr

/-! ### Operand formats -/

structure FR where
  rd : BitVec 4
  ra : BitVec 4
  rb : BitVec 4
  sub : BitVec 8
  aux : BitVec 16
structure FI where
  rd : BitVec 4
  ra : BitVec 4
  imm : BitVec 24
  sub : BitVec 4
structure FM where
  rt : BitVec 4
  pb : BitVec 4
  off : BitVec 24
  go : Bool
  sz : BitVec 3
structure FB where
  ra : BitVec 4
  off : BitVec 24
  cond : BitVec 8
structure FL where
  rd : BitVec 4
  imm : BitVec 32
structure FE where
  f1 : BitVec 4
  f2 : BitVec 4
  f3 : BitVec 4
  f4 : BitVec 4
  f5 : BitVec 4
  sub : BitVec 16

/-- F-R (03 R58). -/
def FR.bits (f : FR) : BitVec 36 := f.rd ++ f.ra ++ f.rb ++ f.sub ++ f.aux
def FR.of (a : BitVec 36) : FR :=
  ⟨a.extractLsb' 32 4, a.extractLsb' 28 4, a.extractLsb' 24 4, a.extractLsb' 16 8, a.extractLsb' 0 16⟩
/-- F-I (03 R59). -/
def FI.bits (f : FI) : BitVec 36 := f.rd ++ f.ra ++ f.imm ++ f.sub
def FI.of (a : BitVec 36) : FI := ⟨a.extractLsb' 32 4, a.extractLsb' 28 4, a.extractLsb' 4 24, a.extractLsb' 0 4⟩
/-- F-M (03 R60). -/
def FM.bits (f : FM) : BitVec 36 := f.rt ++ f.pb ++ f.off ++ BitVec.ofBool f.go ++ f.sz
def FM.of (a : BitVec 36) : FM :=
  ⟨a.extractLsb' 32 4, a.extractLsb' 28 4, a.extractLsb' 4 24, a.getLsbD 3, a.extractLsb' 0 3⟩
/-- F-B (03 R61). -/
def FB.bits (f : FB) : BitVec 36 := f.ra ++ f.off ++ f.cond
def FB.of (a : BitVec 36) : FB := ⟨a.extractLsb' 32 4, a.extractLsb' 8 24, a.extractLsb' 0 8⟩
/-- F-L (03 R62). -/
def FL.bits (f : FL) : BitVec 36 := f.rd ++ f.imm
def FL.of (a : BitVec 36) : FL := ⟨a.extractLsb' 32 4, a.extractLsb' 0 32⟩
/-- F-E (03 R63). -/
def FE.bits (f : FE) : BitVec 36 := f.f1 ++ f.f2 ++ f.f3 ++ f.f4 ++ f.f5 ++ f.sub
def FE.of (a : BitVec 36) : FE :=
  ⟨a.extractLsb' 32 4, a.extractLsb' 28 4, a.extractLsb' 24 4, a.extractLsb' 20 4, a.extractLsb' 16 4,
    a.extractLsb' 0 16⟩

/-- The control fields of a word (03 R51), bits 55:36. -/
def Ctl.bits (c : Ctl) : BitVec 20 :=
  c.tok ++ c.thr ++ BitVec.ofBool c.wc ++ BitVec.ofBool c.sgEn ++ c.sgTok ++ c.sgInc ++ c.gap
def Ctl.of (b : BitVec 20) (ps : List Prefix) : Ctl where
  tok := b.extractLsb' 16 4
  thr := b.extractLsb' 10 6
  wc := b.getLsbD 9
  sgEn := b.getLsbD 8
  sgTok := b.extractLsb' 4 4
  sgInc := b.extractLsb' 2 2
  gap := b.extractLsb' 0 2
  pfx := ps

/-- SUB must be 0 (03 R52). -/
def sub0 (f : FR) (i : Instr) : Option Instr := if f.sub = 0 then some i else none
def sub0I (f : FI) (i : Instr) : Option Instr := if f.sub = 0 then some i else none
def sub0E (f : FE) (i : Instr) : Option Instr := if f.sub = 0 then some i else none

/-- SUB of PUT (03 R84). -/
def PutNote.bits : PutNote → BitVec 16
  | .plain => 0
  | .note tag mb => (0 : BitVec 5) ++ (1 : BitVec 1) ++ mb ++ tag
def PutNote.ofBits (b : BitVec 16) : Option PutNote :=
  if b.extractLsb' 11 5 ≠ 0 then none
  else if b.getLsbD 10 then some (.note (b.extractLsb' 0 8) (b.extractLsb' 8 2))
  else if b.extractLsb' 0 10 = 0 then some .plain else none

/-! ### The opcode map, by groups of sixteen codes. None means BAD_SUBOP. -/

/-- GRED's three-bit operation code (03 R88). -/
def RedOp.ofBits (b : BitVec 3) : RedOp := (RedOp.ofCode b.toNat).getD .addI

def decode0 (op : Nat) (c : Ctl) (a : BitVec 36) : Option Instr :=
  match op with
  | 0x01 => let f := FR.of a; sub0 f (.add c f.rd f.ra f.rb)
  | 0x02 => let f := FR.of a; sub0 f (.sub c f.rd f.ra f.rb)
  | 0x03 => let f := FI.of a; sub0I f (.addi c f.rd f.ra f.imm)
  | 0x04 => let f := FR.of a; sub0 f (.mul c f.rd f.ra f.rb)
  | 0x05 => let f := FR.of a; sub0 f (.mulh c f.rd f.ra f.rb)
  | 0x06 => let f := FR.of a; sub0 f (.mulhu c f.rd f.ra f.rb)
  | 0x07 => let f := FR.of a; sub0 f (.div c f.rd f.ra f.rb)
  | 0x08 => let f := FR.of a; sub0 f (.divu c f.rd f.ra f.rb)
  | 0x09 => let f := FR.of a; sub0 f (.rem c f.rd f.ra f.rb)
  | 0x0a => let f := FR.of a; sub0 f (.remu c f.rd f.ra f.rb)
  | 0x0b => let f := FR.of a; sub0 f (.and c f.rd f.ra f.rb)
  | 0x0c => let f := FR.of a; sub0 f (.or c f.rd f.ra f.rb)
  | 0x0d => let f := FR.of a; sub0 f (.xor c f.rd f.ra f.rb)
  | 0x0e => let f := FR.of a; sub0 f (.andn c f.rd f.ra f.rb)
  | 0x0f => let f := FI.of a; sub0I f (.andi c f.rd f.ra f.imm)
  | _ => none

def decode1 (op : Nat) (c : Ctl) (a : BitVec 36) : Option Instr :=
  match op with
  | 0x10 => let f := FI.of a; sub0I f (.ori c f.rd f.ra f.imm)
  | 0x11 => let f := FI.of a; sub0I f (.xori c f.rd f.ra f.imm)
  | 0x12 => let f := FR.of a; sub0 f (.shl c f.rd f.ra f.rb)
  | 0x13 => let f := FR.of a; sub0 f (.shr c f.rd f.ra f.rb)
  | 0x14 => let f := FR.of a; sub0 f (.sar c f.rd f.ra f.rb)
  | 0x15 => let f := FI.of a; sub0I f (.shli c f.rd f.ra f.imm)
  | 0x16 => let f := FI.of a; sub0I f (.shri c f.rd f.ra f.imm)
  | 0x17 => let f := FI.of a; sub0I f (.sari c f.rd f.ra f.imm)
  | 0x18 => let f := FR.of a; sub0 f (.rol c f.rd f.ra f.rb)
  | 0x19 => let f := FR.of a; sub0 f (.clz c f.rd f.ra)
  | 0x1a => let f := FR.of a; sub0 f (.popc c f.rd f.ra)
  | 0x1b => let f := FR.of a; sub0 f (.brev c f.rd f.ra)
  | 0x1c => let f := FR.of a; sub0 f (.min c f.rd f.ra f.rb)
  | 0x1d => let f := FR.of a; sub0 f (.max c f.rd f.ra f.rb)
  | 0x1e => let f := FR.of a; sub0 f (.minu c f.rd f.ra f.rb)
  | 0x1f => let f := FR.of a; sub0 f (.maxu c f.rd f.ra f.rb)
  | _ => none

def decode2 (op : Nat) (c : Ctl) (a : BitVec 36) : Option Instr :=
  match op with
  | 0x20 => let f := FR.of a; (Sat.ofCode f.sub.toNat).map fun x => .adds c x f.rd f.ra f.rb
  | 0x21 => let f := FR.of a; (Sat.ofCode f.sub.toNat).map fun x => .subs c x f.rd f.ra f.rb
  | 0x22 => let f := FR.of a; (CC.ofCode f.sub.toNat).map fun x => .cmp c x f.rd f.ra f.rb
  | 0x23 => let f := FI.of a; (CC.ofCode f.sub.toNat).map fun x => .cmpi c x f.rd f.ra f.imm
  | 0x24 => let f := FR.of a; sub0 f (.sel c f.rd f.ra f.rb (f.aux.extractLsb' 12 4))
  | 0x25 => let f := FL.of a; some (.movi c f.rd f.imm)
  | 0x26 => let f := FL.of a; some (.movhi c f.rd f.imm)
  | 0x27 => let f := FR.of a; sub0 f (.mov c f.rd f.ra)
  | 0x28 => let f := FR.of a; if f.sub = 0 ∧ f.aux.extractLsb' 11 5 = 0 then some (.extb c (f.aux.getLsbD 10) f.rd f.ra (f.aux.extractLsb' 0 5) (f.aux.extractLsb' 5 5)) else none
  | 0x29 => let f := FR.of a; if f.sub = 0 ∧ f.aux.extractLsb' 10 6 = 0 then some (.insb c f.rd f.ra (f.aux.extractLsb' 0 5) (f.aux.extractLsb' 5 5)) else none
  | 0x2a => let f := FR.of a; sub0 f (.hash c f.rd f.ra f.rb)
  | 0x2b => let f := FR.of a; sub0 f (.bswap c f.rd f.ra)
  | _ => none

def decode3 (op : Nat) (c : Ctl) (a : BitVec 36) : Option Instr :=
  match op with
  | 0x30 => let f := FR.of a; sub0 f (.fadd c f.rd f.ra f.rb)
  | 0x31 => let f := FR.of a; sub0 f (.fsub c f.rd f.ra f.rb)
  | 0x32 => let f := FR.of a; sub0 f (.fmul c f.rd f.ra f.rb)
  | 0x33 => let f := FR.of a; sub0 f (.ffma c f.rd f.ra f.rb (f.aux.extractLsb' 12 4))
  | 0x34 => let f := FR.of a; sub0 f (.fmin c f.rd f.ra f.rb)
  | 0x35 => let f := FR.of a; sub0 f (.fmax c f.rd f.ra f.rb)
  | 0x36 => let f := FR.of a; (FCC.ofCode f.sub.toNat).map fun x => .fcmp c x f.rd f.ra f.rb
  | 0x37 => let f := FR.of a; (SgnOp.ofCode f.sub.toNat).map fun x => .fsgn c x f.rd f.ra f.rb
  | 0x38 => let f := FR.of a; sub0 f (.frcp c f.rd f.ra)
  | 0x39 => let f := FR.of a; sub0 f (.frsq c f.rd f.ra)
  | 0x3a => let f := FR.of a; (Cvt.ofCode f.sub.toNat).map fun x => .fcvt c x f.rd f.ra
  | 0x3b => let f := FR.of a; sub0 f (.fcls c f.rd f.ra)
  | 0x3c => let f := FR.of a; sub0 f (.addp c f.rd f.ra f.rb)
  | 0x3d => let f := FI.of a; sub0I f (.addpi c f.rd f.ra f.imm)
  | 0x3e => let f := FR.of a; sub0 f (.movp c f.rd f.ra)
  | 0x3f => let f := FR.of a; (CC.ofCode f.sub.toNat).map fun x => .cmpp c x f.rd f.ra f.rb
  | _ => none

def decode4 (op : Nat) (c : Ctl) (a : BitVec 36) : Option Instr :=
  match op with
  | 0x40 => let f := FB.of a; if f.cond = 0 then some (.br c f.off) else none
  | 0x41 => let f := FB.of a; if f.cond.extractLsb' 1 7 = 0 then some (.bz c (f.cond.getLsbD 0) f.ra f.off) else none
  | 0x42 => let f := FB.of a; if f.cond.extractLsb' 1 7 = 0 then some (.bnz c (f.cond.getLsbD 0) f.ra f.off) else none
  | 0x43 => let f := FB.of a; if f.cond = 0 then some (.loop c f.ra f.off) else none
  | 0x44 => let f := FB.of a; if f.cond = 0 then some (.call c f.off) else none
  | 0x45 => let f := FR.of a; sub0 f (.callr c f.ra)
  | 0x46 => some (.ret c)
  | 0x47 => let f := FR.of a; sub0 f (.jmpr c f.ra)
  | 0x48 => let f := FB.of a; if f.cond = 0 then some (.pca c f.ra f.off) else none
  | 0x49 => let f := FI.of a; sub0I f (.dly c f.imm)
  | 0x4a => some (.yield c)
  | 0x4b => some (.exit c)
  | 0x4c => some (.wait c)
  | 0x4d => let f := FI.of a; sub0I f (.bkpt c f.imm)
  | _ => none

def decode5 (op : Nat) (c : Ctl) (a : BitVec 36) : Option Instr :=
  match op with
  | 0x50 => let f := FM.of a; (LdSz.ofCode f.sz.toNat).map fun z => .ld c z f.go f.rt f.pb f.off
  | 0x51 => let f := FM.of a; (StSz.ofCode f.sz.toNat).map fun z => .st c z f.go f.rt f.pb f.off
  | 0x52 => let f := FM.of a; if f.sz = 6 then some (.ldp c f.go f.rt f.pb f.off) else none
  | 0x53 => let f := FM.of a; if f.sz = 6 then some (.stp c f.go f.rt f.pb f.off) else none
  | 0x54 => let f := FM.of a; if f.go then none else (AqSz.ofCode f.sz.toNat).map fun z => .ldaq c z f.rt f.pb f.off
  | 0x55 => let f := FM.of a; if f.go then none else (AqSz.ofCode f.sz.toNat).map fun z => .strl c z f.rt f.pb f.off
  | 0x56 => let f := FM.of a; (AtSz.ofCode f.sz.toNat).map fun z => .aadd c z f.go f.rt f.pb f.off
  | 0x57 => let f := FM.of a; (AtSz.ofCode f.sz.toNat).map fun z => .aand c z f.go f.rt f.pb f.off
  | 0x58 => let f := FM.of a; (AtSz.ofCode f.sz.toNat).map fun z => .aor c z f.go f.rt f.pb f.off
  | 0x59 => let f := FM.of a; (AtSz.ofCode f.sz.toNat).map fun z => .axor c z f.go f.rt f.pb f.off
  | 0x5a => let f := FM.of a; (AtSz.ofCode f.sz.toNat).map fun z => .amin c z f.go f.rt f.pb f.off
  | 0x5b => let f := FM.of a; (AtSz.ofCode f.sz.toNat).map fun z => .amax c z f.go f.rt f.pb f.off
  | 0x5c => let f := FM.of a; (AtSz.ofCode f.sz.toNat).map fun z => .aminu c z f.go f.rt f.pb f.off
  | 0x5d => let f := FM.of a; (AtSz.ofCode f.sz.toNat).map fun z => .amaxu c z f.go f.rt f.pb f.off
  | 0x5e => let f := FM.of a; (AtSz.ofCode f.sz.toNat).map fun z => .axch c z f.go f.rt f.pb f.off
  | 0x5f => let f := FM.of a; (AqSz.ofCode f.sz.toNat).map fun z => .acas c z f.go f.rt f.pb f.off
  | _ => none

def decode6 (op : Nat) (c : Ctl) (a : BitVec 36) : Option Instr :=
  match op with
  | 0x60 => let f := FM.of a; (AfSz.ofCode f.sz.toNat).map fun z => .afadd c z f.go f.rt f.pb f.off
  | 0x61 => let f := FM.of a; (AfSz.ofCode f.sz.toNat).map fun z => .afmin c z f.go f.rt f.pb f.off
  | 0x62 => let f := FM.of a; (AfSz.ofCode f.sz.toNat).map fun z => .afmax c z f.go f.rt f.pb f.off
  | 0x63 => match FenceKind.ofCode (a.extractLsb' 3 2).toNat, Scope.ofCode (a.extractLsb' 0 3).toNat with | some k, some s => some (.fence c k s) | _, _ => none
  | 0x64 => some (.pfence c (a.extractLsb' 0 5))
  | 0x65 => let f := FM.of a; if f.go then none else (LineKind.ofCode f.sz.toNat).map fun k => .cinv c k f.pb f.off
  | 0x66 => let f := FM.of a; if f.go then none else (LineKind.ofCode f.sz.toNat).map fun k => .cfls c k f.pb f.off
  | _ => none

def decode7 (op : Nat) (c : Ctl) (a : BitVec 36) : Option Instr :=
  match op with
  | 0x70 => let f := FE.of a; if f.sub.extractLsb' 10 6 = 0 then some (.send c f.f1 f.f2 (f.sub.extractLsb' 0 8) (f.sub.extractLsb' 8 2)) else none
  | 0x71 => let f := FE.of a; if f.sub.extractLsb' 10 6 = 0 ∧ f.sub.extractLsb' 0 8 = 0 then some (.recv c f.f1 f.f2 (f.sub.extractLsb' 8 2)) else none
  | 0x72 => let f := FE.of a; if f.sub.extractLsb' 10 6 = 0 ∧ f.sub.extractLsb' 0 8 = 0 then some (.mpoll c f.f1 (f.sub.extractLsb' 8 2)) else none
  | 0x73 => let f := FE.of a; (PutNote.ofBits f.sub).map fun x => .put c x f.f1 f.f2 f.f3 f.f4
  | 0x74 => let f := FE.of a; sub0E f (.get c f.f1 f.f2 f.f3 f.f4)
  | 0x75 => let f := FE.of a; sub0E f (.migr c f.f1)
  | 0x76 => let f := FE.of a; sub0E f (.xin c f.f1 f.f2 f.f3)
  | 0x77 => let f := FE.of a; sub0E f (.xout c f.f1 f.f2 f.f3)
  | _ => none

def decode8 (op : Nat) (c : Ctl) (a : BitVec 36) : Option Instr :=
  match op with
  | 0x80 => let f := FE.of a; (ElTy.ofCode f.sub.toNat).map fun x => .vadd c x f.f1 f.f2 f.f3 f.f5
  | 0x81 => let f := FE.of a; (ElTy.ofCode f.sub.toNat).map fun x => .vsub c x f.f1 f.f2 f.f3 f.f5
  | 0x82 => let f := FE.of a; (ElTy.ofCode f.sub.toNat).map fun x => .vmul c x f.f1 f.f2 f.f3 f.f5
  | 0x83 => let f := FE.of a; (ElTy.ofCode f.sub.toNat).map fun x => .vfma c x f.f1 f.f2 f.f3 f.f4 f.f5
  | 0x84 => let f := FE.of a; (MinTy.ofCode f.sub.toNat).map fun x => .vmin c x f.f1 f.f2 f.f3 f.f5
  | 0x85 => let f := FE.of a; (MinTy.ofCode f.sub.toNat).map fun x => .vmax c x f.f1 f.f2 f.f3 f.f5
  | 0x86 => let f := FE.of a; (ElTy.ofCode f.sub.toNat).map fun x => .vscl c x f.f1 f.f2 f.f3 f.f5
  | 0x87 => let f := FE.of a; (ElTy.ofCode f.sub.toNat).map fun x => .vadds c x f.f1 f.f2 f.f3 f.f5
  | 0x88 => let f := FE.of a; (ElTy.ofCode f.sub.toNat).map fun x => .vabs c x f.f1 f.f2 f.f5
  | 0x89 => let f := FE.of a; (ElTy.ofCode f.sub.toNat).map fun x => .vneg c x f.f1 f.f2 f.f5
  | 0x8a => let f := FE.of a; sub0E f (.vexp c f.f1 f.f2 f.f5)
  | 0x8b => let f := FE.of a; sub0E f (.vlog c f.f1 f.f2 f.f5)
  | 0x8c => let f := FE.of a; sub0E f (.vrcp c f.f1 f.f2 f.f5)
  | 0x8d => let f := FE.of a; sub0E f (.vrsq c f.f1 f.f2 f.f5)
  | 0x8e => let f := FE.of a; sub0E f (.vtanh c f.f1 f.f2 f.f5)
  | 0x8f => let f := FE.of a; (ElTy.ofCode f.sub.toNat).map fun x => .vsum c x f.f1 f.f2 f.f5
  | _ => none

def decode9 (op : Nat) (c : Ctl) (a : BitVec 36) : Option Instr :=
  match op with
  | 0x90 => let f := FE.of a; (ElTy.ofCode f.sub.toNat).map fun x => .vmaxr c x f.f1 f.f2 f.f5
  | 0x91 => let f := FE.of a; (ElTy.ofCode f.sub.toNat).map fun x => .vminr c x f.f1 f.f2 f.f5
  | 0x92 => let f := FE.of a; (ElTy.ofCode f.sub.toNat).map fun x => .vargm c x f.f1 f.f2 f.f5
  | 0x93 => let f := FE.of a; (ElTy.ofCode f.sub.toNat).map fun x => .vdot c x f.f1 f.f2 f.f3 f.f5
  | 0x94 => let f := FE.of a; (VCmp.ofCode f.sub.toNat).map fun x => .vcmp c x f.f1 f.f2 f.f3 f.f5
  | 0x95 => let f := FE.of a; (ElTy.ofCode f.sub.toNat).map fun x => .vsel c x f.f1 f.f2 f.f3 f.f4 f.f5
  | 0x96 => let f := FE.of a; (ElTy.ofCode f.sub.toNat).map fun x => .vgath c x f.f1 f.f2 f.f3 f.f5
  | 0x97 => let f := FE.of a; (ElTy.ofCode f.sub.toNat).map fun x => .vscat c x f.f1 f.f2 f.f3 f.f5
  | 0x98 => let f := FE.of a; (ElTy.ofCode f.sub.toNat).map fun x => .vbcst c x f.f1 f.f2 f.f5
  | 0x99 => let f := FE.of a; (ElTy.ofCode f.sub.toNat).map fun x => .viota c x f.f1 f.f2 f.f5
  | 0x9a => let f := FE.of a; (ElTy.ofCode f.sub.toNat).map fun x => .vcopy c x f.f1 f.f2 f.f5
  | 0x9b => let f := FE.of a; (VLog.ofCode f.sub.toNat).map fun x => .vlogic c x f.f1 f.f2 f.f3 f.f5
  | 0x9c => let f := FE.of a; if f.sub = 1 then some (.vhash c f.f1 f.f2 f.f3 f.f5) else none
  | _ => none

def decodeA (op : Nat) (c : Ctl) (a : BitVec 36) : Option Instr :=
  match op with
  | 0xa0 => let f := FR.of a; if f.sub = 0 ∧ f.rd.getLsbD 3 = false then some (.wset c (f.rd.extractLsb' 0 3) f.ra) else none
  | 0xa1 => let f := FR.of a; if f.sub = 0 ∧ f.rd.getLsbD 3 = false then some (.wget c (f.rd.extractLsb' 0 3) f.ra) else none
  | 0xa2 => let f := FR.of a; if f.sub = 0 then some (.qload c (f.aux.getLsbD 7) f.ra f.rb (f.aux.extractLsb' 0 7)) else none
  | 0xa3 => let f := FR.of a; if f.sub = 0 then some (.qsave c (f.aux.getLsbD 7) f.ra f.rb (f.aux.extractLsb' 0 7)) else none
  | 0xa4 => let f := FR.of a; if f.sub.extractLsb' 1 7 = 0 then some (.qseed c (f.sub.getLsbD 0) f.ra f.rb) else none
  | 0xa5 => let f := FR.of a; sub0 f (.qgen c f.rd f.ra f.rb)
  | 0xa6 => let f := FE.of a; sub0E f (.qgenv c f.f1 f.f2 f.f3 f.f5)
  | _ => none

def decodeB (op : Nat) (c : Ctl) (a : BitVec 36) : Option Instr :=
  match op with
  | 0xb0 => let f := FR.of a; if f.sub.extractLsb' 3 5 = 0 then (OFmt.ofCode (f.sub.extractLsb' 0 2).toNat).map fun m => .oclm c f.rd m (Role.ofBool (f.sub.getLsbD 2)) else none
  | 0xb1 => let f := FR.of a; sub0 f (.orls c f.rd)
  | 0xb2 => let f := FE.of a; (OSrc.ofCode f.sub.toNat).map fun k => .oload c k f.f1 f.f2 f.f3
  | 0xb3 => let f := FR.of a; match OFmt.ofCode f.sub.toNat with | some k => if f.rd.extractLsb' 1 3 = 0 then some (.mmg c k (f.rd.extractLsb' 0 1) f.ra f.rb (f.aux.extractLsb' 0 4)) else none | none => none
  | 0xb4 => let f := FE.of a; if f.sub = 0 ∧ f.f1.extractLsb' 1 3 = 0 then some (.mol c (f.f1.extractLsb' 0 1) f.f2 f.f3 f.f5) else none
  | 0xb5 => let f := FE.of a; if f.sub = 0 ∧ f.f1.extractLsb' 1 3 = 0 then some (.mdrn c (f.f1.extractLsb' 0 1) f.f2 f.f3 f.f4) else none
  | 0xb6 => let f := FR.of a; if f.sub = 0 ∧ f.rd.extractLsb' 1 3 = 0 then some (.mclr c (f.rd.extractLsb' 0 1)) else none
  | 0xb7 => let f := FR.of a; if f.sub = 0 ∧ f.ra.extractLsb' 1 3 = 0 then some (.mstat c f.rd (f.ra.extractLsb' 0 1)) else none
  | _ => none

def decodeC (op : Nat) (c : Ctl) (a : BitVec 36) : Option Instr :=
  match op with
  | 0xc0 => let f := FR.of a; sub0 f (.trst c f.rd)
  | 0xc1 => let f := FI.of a; sub0I f (.tadd c f.rd f.imm)
  | 0xc2 => let f := FR.of a; sub0 f (.trd c f.rd f.ra)
  | 0xc3 => let f := FR.of a; sub0 f (.gnew c f.rd f.ra)
  | 0xc4 => let f := FR.of a; sub0 f (.gjoin c f.ra)
  | 0xc5 => let f := FR.of a; sub0 f (.gleave c f.ra)
  | 0xc6 => let f := FR.of a; sub0 f (.gfree c f.ra)
  | 0xc7 => let f := FR.of a; sub0 f (.gbar c f.ra (f.aux.extractLsb' 0 4))
  | 0xc8 => let f := FE.of a; if f.sub.getLsbD 3 = false ∧ f.sub.extractLsb' 8 8 = 0 then some (.gred c (RedOp.ofBits (f.sub.extractLsb' 0 3)) f.f1 f.f2 f.f3 f.f4 (f.sub.extractLsb' 4 4)) else none
  | 0xc9 => let f := FR.of a; sub0 f (.gcnt c f.rd f.ra)
  | _ => none

def decodeD (op : Nat) (c : Ctl) (a : BitVec 36) : Option Instr :=
  match op with
  | 0xd0 => let f := FR.of a; if f.sub.extractLsb' 1 7 = 0 then some (.copy c (f.sub.getLsbD 0) f.ra) else none
  | 0xd1 => let f := FR.of a; sub0 f (.cpyx c f.ra)
  | 0xd2 => let f := FR.of a; sub0 f (.cpyq c f.rd f.ra)
  | 0xd3 => let f := FR.of a; sub0 f (.lnch c f.ra)
  | 0xd4 => some (.trig c)
  | 0xd5 => some (.lwait c)
  | _ => none

def decodeE (op : Nat) (c : Ctl) (a : BitVec 36) : Option Instr :=
  match op with
  | 0xe0 => let f := FI.of a; sub0I f (.trap c f.imm)
  | 0xe1 => some (.rett c (a.getLsbD 0))
  | 0xe2 => let f := FI.of a; some (.srd c f.rd f.imm f.sub)
  | 0xe3 => let f := FI.of a; some (.swr c f.ra f.imm f.sub)
  | 0xe4 => let f := FE.of a; if f.sub.extractLsb' 5 11 = 0 then some (.spawn c (f.sub.getLsbD 4) f.f1 f.f2 f.f3 (f.sub.extractLsb' 0 4)) else none
  | 0xe5 => let f := FR.of a; sub0 f (.reap c f.rd f.ra)
  | 0xe6 => let f := FI.of a; sub0I f (.svc c f.imm)
  | 0xe7 => some (.einj c (a.extractLsb' 32 4) (a.extractLsb' 28 4) (a.extractLsb' 0 4))
  | 0xe8 => some (.idem c)
  | _ => none

/-- The instruction with a given primary code, control fields and operand area. None: BAD_SUBOP. -/
def decodeArea (op : Nat) (c : Ctl) (a : BitVec 36) : Option Instr :=
  match op / 16 with
  | 0 => decode0 op c a
  | 1 => decode1 op c a
  | 2 => decode2 op c a
  | 3 => decode3 op c a
  | 4 => decode4 op c a
  | 5 => decode5 op c a
  | 6 => decode6 op c a
  | 7 => decode7 op c a
  | 8 => decode8 op c a
  | 9 => decode9 op c a
  | 10 => decodeA op c a
  | 11 => decodeB op c a
  | 12 => decodeC op c a
  | 13 => decodeD op c a
  | 14 => decodeE op c a
  | _ => none

/-- The primary code of a word. -/
def opOf (w : DWord) : Nat := (w.extractLsb' 56 8).toNat

/-- Reads an instruction word behind its prefixes, its fields checked (03 R53 checks 1, 2, 3 and 5 without the
privileged ones). -/
def decodeWord (ps : List Prefix) (w : DWord) : Except DecodeError Instr :=
  if illegalCode (opOf w) then .ok (.illegalOp w)
  else if prefixesOk (opOf w) (hasGo (opOf w) && w.getLsbD 3) ps then
    match decodeArea (opOf w) (Ctl.of (w.extractLsb' 36 20) ps) (w.extractLsb' 0 36) with
    | some i => if i.fieldsOk then .ok i else .error .badSubop
    | none => .error .badSubop
  else .error .prefixMisuse

def isPrefixOp (op : Nat) : Bool := op == 0xFC || op == 0xFD || op == 0xFE

/-- A prefix word (03 R70); none when a bit that must be zero is set, or the scope is 6 or 7. -/
def decodePrefix (w : DWord) : Option Prefix :=
  if opOf w = 0xFC then (if w.extractLsb' 32 24 = 0 then some (.ximm (w.extractLsb' 0 32)) else none)
  else if opOf w = 0xFD then (if w.extractLsb' 0 56 = 0 then some .trip else none)
  else if w.extractLsb' 3 53 = 0 then (Scope.ofCode (w.extractLsb' 0 3).toNat).map .scope else none

/-- Reads one instruction from words, with at most `fuel` prefixes before it. `ps` holds the prefixes already read, and
`bad` that one of them was malformed. A malformed sequence is still read to its instruction word, because checks 1 and 2
of 03 R53 come before the prefix rules. -/
def decodeWords (ps : List Prefix) (bad : Bool) : Nat → List DWord → Except DecodeError (Instr × List DWord)
  | _, [] => .error .truncated
  | fuel, w :: ws =>
    if isPrefixOp (opOf w) then
      match fuel with
      | 0 => .error .prefixMisuse
      | fuel + 1 =>
        match decodePrefix w with
        | some p => decodeWords (ps ++ [p]) bad fuel ws
        | none => decodeWords ps true fuel ws
    else if opOf w = 0xFF then .error (.header (bad || !ps.isEmpty))
    else if illegalCode (opOf w) then .ok (.illegalOp w, ws)
    else if bad then .error .prefixMisuse
    else match decodeWord ps w with
      | .ok i => .ok (i, ws)
      | .error e => .error e

/-- The little-endian words of bytes; bytes short of a word are left over. -/
def wordsOf : List Byte → List DWord × List Byte
  | b0 :: b1 :: b2 :: b3 :: b4 :: b5 :: b6 :: b7 :: t =>
    let r := wordsOf t
    ((b7 ++ b6 ++ b5 ++ b4 ++ b3 ++ b2 ++ b1 ++ b0) :: r.1, r.2)
  | l => ([], l)

def bytesOf (w : DWord) : List Byte :=
  [w.extractLsb' 0 8, w.extractLsb' 8 8, w.extractLsb' 16 8, w.extractLsb' 24 8, w.extractLsb' 32 8,
    w.extractLsb' 40 8, w.extractLsb' 48 8, w.extractLsb' 56 8]

/-- The instruction at the head of bytes, with the bytes after it. -/
def decode (bs : List Byte) : Except DecodeError (Instr × List Byte) :=
  match decodeWords [] false 3 (wordsOf bs).1 with
  | .ok (i, ws) => .ok (i, ws.flatMap bytesOf ++ (wordsOf bs).2)
  | .error e => .error e

/-! ### The encoder -/

def Prefix.word : Prefix → DWord
  | .ximm v => (0xFC : BitVec 8) ++ (0 : BitVec 24) ++ v
  | .trip => (0xFD : BitVec 8) ++ (0 : BitVec 56)
  | .scope s => (0xFE : BitVec 8) ++ (0 : BitVec 53) ++ BitVec.ofNat 3 s.code

/-- The operand area of an instruction word; bits that the instruction ignores are zero. -/
def Instr.area : Instr → BitVec 36
  | .add _ rd ra rb => (FR.mk rd ra rb 0 0).bits
  | .sub _ rd ra rb => (FR.mk rd ra rb 0 0).bits
  | .mul _ rd ra rb => (FR.mk rd ra rb 0 0).bits
  | .mulh _ rd ra rb => (FR.mk rd ra rb 0 0).bits
  | .mulhu _ rd ra rb => (FR.mk rd ra rb 0 0).bits
  | .div _ rd ra rb => (FR.mk rd ra rb 0 0).bits
  | .divu _ rd ra rb => (FR.mk rd ra rb 0 0).bits
  | .rem _ rd ra rb => (FR.mk rd ra rb 0 0).bits
  | .remu _ rd ra rb => (FR.mk rd ra rb 0 0).bits
  | .and _ rd ra rb => (FR.mk rd ra rb 0 0).bits
  | .or _ rd ra rb => (FR.mk rd ra rb 0 0).bits
  | .xor _ rd ra rb => (FR.mk rd ra rb 0 0).bits
  | .andn _ rd ra rb => (FR.mk rd ra rb 0 0).bits
  | .shl _ rd ra rb => (FR.mk rd ra rb 0 0).bits
  | .shr _ rd ra rb => (FR.mk rd ra rb 0 0).bits
  | .sar _ rd ra rb => (FR.mk rd ra rb 0 0).bits
  | .rol _ rd ra rb => (FR.mk rd ra rb 0 0).bits
  | .clz _ rd ra => (FR.mk rd ra 0 0 0).bits
  | .popc _ rd ra => (FR.mk rd ra 0 0 0).bits
  | .brev _ rd ra => (FR.mk rd ra 0 0 0).bits
  | .min _ rd ra rb => (FR.mk rd ra rb 0 0).bits
  | .max _ rd ra rb => (FR.mk rd ra rb 0 0).bits
  | .minu _ rd ra rb => (FR.mk rd ra rb 0 0).bits
  | .maxu _ rd ra rb => (FR.mk rd ra rb 0 0).bits
  | .adds _ u rd ra rb => (FR.mk rd ra rb (BitVec.ofNat 8 u.code) 0).bits
  | .subs _ u rd ra rb => (FR.mk rd ra rb (BitVec.ofNat 8 u.code) 0).bits
  | .cmp _ cc rd ra rb => (FR.mk rd ra rb (BitVec.ofNat 8 cc.code) 0).bits
  | .sel _ rd ra rb rc => (FR.mk rd ra rb 0 (rc ++ (0 : BitVec 12))).bits
  | .mov _ rd ra => (FR.mk rd ra 0 0 0).bits
  | .extb _ sgn rd ra pos w1 => (FR.mk rd ra 0 0 ((0 : BitVec 5) ++ BitVec.ofBool sgn ++ w1 ++ pos)).bits
  | .insb _ rd ra pos w1 => (FR.mk rd ra 0 0 ((0 : BitVec 6) ++ w1 ++ pos)).bits
  | .hash _ rd ra rb => (FR.mk rd ra rb 0 0).bits
  | .bswap _ rd ra => (FR.mk rd ra 0 0 0).bits
  | .addi _ rd ra imm => (FI.mk rd ra imm 0).bits
  | .andi _ rd ra imm => (FI.mk rd ra imm 0).bits
  | .ori _ rd ra imm => (FI.mk rd ra imm 0).bits
  | .xori _ rd ra imm => (FI.mk rd ra imm 0).bits
  | .shli _ rd ra imm => (FI.mk rd ra imm 0).bits
  | .shri _ rd ra imm => (FI.mk rd ra imm 0).bits
  | .sari _ rd ra imm => (FI.mk rd ra imm 0).bits
  | .cmpi _ cc rd ra imm => (FI.mk rd ra imm (BitVec.ofNat 4 cc.code)).bits
  | .movi _ rd imm => (FL.mk rd imm).bits
  | .movhi _ rd imm => (FL.mk rd imm).bits
  | .fadd _ rd ra rb => (FR.mk rd ra rb 0 0).bits
  | .fsub _ rd ra rb => (FR.mk rd ra rb 0 0).bits
  | .fmul _ rd ra rb => (FR.mk rd ra rb 0 0).bits
  | .ffma _ rd ra rb rc => (FR.mk rd ra rb 0 (rc ++ (0 : BitVec 12))).bits
  | .fmin _ rd ra rb => (FR.mk rd ra rb 0 0).bits
  | .fmax _ rd ra rb => (FR.mk rd ra rb 0 0).bits
  | .fcmp _ cc rd ra rb => (FR.mk rd ra rb (BitVec.ofNat 8 cc.code) 0).bits
  | .fsgn _ k rd ra rb => (FR.mk rd ra rb (BitVec.ofNat 8 k.code) 0).bits
  | .frcp _ rd ra => (FR.mk rd ra 0 0 0).bits
  | .frsq _ rd ra => (FR.mk rd ra 0 0 0).bits
  | .fcvt _ k rd ra => (FR.mk rd ra 0 (BitVec.ofNat 8 k.code) 0).bits
  | .fcls _ rd ra => (FR.mk rd ra 0 0 0).bits
  | .addp _ rd ra rb => (FR.mk rd ra rb 0 0).bits
  | .addpi _ rd ra imm => (FI.mk rd ra imm 0).bits
  | .movp _ rd ra => (FR.mk rd ra 0 0 0).bits
  | .cmpp _ cc rd ra rb => (FR.mk rd ra rb (BitVec.ofNat 8 cc.code) 0).bits
  | .br _ off => (FB.mk 0 off 0).bits
  | .bz _ pair ra off => (FB.mk ra off ((0 : BitVec 7) ++ BitVec.ofBool pair)).bits
  | .bnz _ pair ra off => (FB.mk ra off ((0 : BitVec 7) ++ BitVec.ofBool pair)).bits
  | .loop _ ra off => (FB.mk ra off 0).bits
  | .call _ off => (FB.mk 0 off 0).bits
  | .pca _ ra off => (FB.mk ra off 0).bits
  | .callr _ ra => (FR.mk 0 ra 0 0 0).bits
  | .jmpr _ ra => (FR.mk 0 ra 0 0 0).bits
  | .ret _ => 0
  | .dly _ imm => (FI.mk 0 0 imm 0).bits
  | .yield _ => 0
  | .exit _ => 0
  | .wait _ => 0
  | .bkpt _ imm => (FI.mk 0 0 imm 0).bits
  | .ld _ sz go rt pb off => (FM.mk rt pb off go (BitVec.ofNat 3 sz.code)).bits
  | .st _ sz go rt pb off => (FM.mk rt pb off go (BitVec.ofNat 3 sz.code)).bits
  | .ldp _ go rt pb off => (FM.mk rt pb off go 6).bits
  | .stp _ go rt pb off => (FM.mk rt pb off go 6).bits
  | .ldaq _ sz rt pb off => (FM.mk rt pb off false (BitVec.ofNat 3 sz.code)).bits
  | .strl _ sz rt pb off => (FM.mk rt pb off false (BitVec.ofNat 3 sz.code)).bits
  | .aadd _ sz go rt pb off => (FM.mk rt pb off go (BitVec.ofNat 3 sz.code)).bits
  | .aand _ sz go rt pb off => (FM.mk rt pb off go (BitVec.ofNat 3 sz.code)).bits
  | .aor _ sz go rt pb off => (FM.mk rt pb off go (BitVec.ofNat 3 sz.code)).bits
  | .axor _ sz go rt pb off => (FM.mk rt pb off go (BitVec.ofNat 3 sz.code)).bits
  | .amin _ sz go rt pb off => (FM.mk rt pb off go (BitVec.ofNat 3 sz.code)).bits
  | .amax _ sz go rt pb off => (FM.mk rt pb off go (BitVec.ofNat 3 sz.code)).bits
  | .aminu _ sz go rt pb off => (FM.mk rt pb off go (BitVec.ofNat 3 sz.code)).bits
  | .amaxu _ sz go rt pb off => (FM.mk rt pb off go (BitVec.ofNat 3 sz.code)).bits
  | .axch _ sz go rt pb off => (FM.mk rt pb off go (BitVec.ofNat 3 sz.code)).bits
  | .acas _ sz go rt pb off => (FM.mk rt pb off go (BitVec.ofNat 3 sz.code)).bits
  | .afadd _ sz go rt pb off => (FM.mk rt pb off go (BitVec.ofNat 3 sz.code)).bits
  | .afmin _ sz go rt pb off => (FM.mk rt pb off go (BitVec.ofNat 3 sz.code)).bits
  | .afmax _ sz go rt pb off => (FM.mk rt pb off go (BitVec.ofNat 3 sz.code)).bits
  | .cinv _ k pb off => (FM.mk 0 pb off false (BitVec.ofNat 3 k.code)).bits
  | .cfls _ k pb off => (FM.mk 0 pb off false (BitVec.ofNat 3 k.code)).bits
  | .fence _ k sc => ((0 : BitVec 31) ++ (BitVec.ofNat 2 k.code) ++ (BitVec.ofNat 3 sc.code))
  | .pfence _ paths => ((0 : BitVec 31) ++ paths)
  | .send _ vt pl tag mb => (FE.mk vt pl 0 0 0 ((0 : BitVec 6) ++ mb ++ tag)).bits
  | .recv _ pd gi mb => (FE.mk pd gi 0 0 0 ((0 : BitVec 6) ++ mb ++ (0 : BitVec 8))).bits
  | .mpoll _ rd mb => (FE.mk rd 0 0 0 0 ((0 : BitVec 6) ++ mb ++ (0 : BitVec 8))).bits
  | .put _ nt vt dst src n => (FE.mk vt dst src n 0 nt.bits).bits
  | .get _ dst vt src n => (FE.mk dst vt src n 0 0).bits
  | .migr _ vt => (FE.mk vt 0 0 0 0 0).bits
  | .xin _ loc gp sh => (FE.mk loc gp sh 0 0 0).bits
  | .xout _ loc gp sh => (FE.mk loc gp sh 0 0 0).bits
  | .vadd _ t d a b n => (FE.mk d a b 0 n (BitVec.ofNat 16 t.code)).bits
  | .vsub _ t d a b n => (FE.mk d a b 0 n (BitVec.ofNat 16 t.code)).bits
  | .vmul _ t d a b n => (FE.mk d a b 0 n (BitVec.ofNat 16 t.code)).bits
  | .vfma _ t d a b e n => (FE.mk d a b e n (BitVec.ofNat 16 t.code)).bits
  | .vmin _ t d a b n => (FE.mk d a b 0 n (BitVec.ofNat 16 t.code)).bits
  | .vmax _ t d a b n => (FE.mk d a b 0 n (BitVec.ofNat 16 t.code)).bits
  | .vscl _ t d a b n => (FE.mk d a b 0 n (BitVec.ofNat 16 t.code)).bits
  | .vadds _ t d a b n => (FE.mk d a b 0 n (BitVec.ofNat 16 t.code)).bits
  | .vabs _ t d a n => (FE.mk d a 0 0 n (BitVec.ofNat 16 t.code)).bits
  | .vneg _ t d a n => (FE.mk d a 0 0 n (BitVec.ofNat 16 t.code)).bits
  | .vexp _ d a n => (FE.mk d a 0 0 n 0).bits
  | .vlog _ d a n => (FE.mk d a 0 0 n 0).bits
  | .vrcp _ d a n => (FE.mk d a 0 0 n 0).bits
  | .vrsq _ d a n => (FE.mk d a 0 0 n 0).bits
  | .vtanh _ d a n => (FE.mk d a 0 0 n 0).bits
  | .vsum _ t d a n => (FE.mk d a 0 0 n (BitVec.ofNat 16 t.code)).bits
  | .vmaxr _ t d a n => (FE.mk d a 0 0 n (BitVec.ofNat 16 t.code)).bits
  | .vminr _ t d a n => (FE.mk d a 0 0 n (BitVec.ofNat 16 t.code)).bits
  | .vargm _ t d a n => (FE.mk d a 0 0 n (BitVec.ofNat 16 t.code)).bits
  | .vdot _ t d a b n => (FE.mk d a b 0 n (BitVec.ofNat 16 t.code)).bits
  | .vcmp _ k d a b n => (FE.mk d a b 0 n (BitVec.ofNat 16 k.code)).bits
  | .vsel _ t d a b e n => (FE.mk d a b e n (BitVec.ofNat 16 t.code)).bits
  | .vgath _ t d a b n => (FE.mk d a b 0 n (BitVec.ofNat 16 t.code)).bits
  | .vscat _ t d a b n => (FE.mk d a b 0 n (BitVec.ofNat 16 t.code)).bits
  | .vbcst _ t d a n => (FE.mk d a 0 0 n (BitVec.ofNat 16 t.code)).bits
  | .viota _ t d a n => (FE.mk d a 0 0 n (BitVec.ofNat 16 t.code)).bits
  | .vcopy _ t d a n => (FE.mk d a 0 0 n (BitVec.ofNat 16 t.code)).bits
  | .vlogic _ k d a b n => (FE.mk d a b 0 n (BitVec.ofNat 16 k.code)).bits
  | .vhash _ d a b n => (FE.mk d a b 0 n 1).bits
  | .wset _ w ra => (FR.mk ((0 : BitVec 1) ++ w) ra 0 0 0).bits
  | .wget _ w ra => (FR.mk ((0 : BitVec 1) ++ w) ra 0 0 0).bits
  | .qload _ seeds ra rb cnt => (FR.mk 0 ra rb 0 ((0 : BitVec 8) ++ BitVec.ofBool seeds ++ cnt)).bits
  | .qsave _ seeds ra rb cnt => (FR.mk 0 ra rb 0 ((0 : BitVec 8) ++ BitVec.ofBool seeds ++ cnt)).bits
  | .qseed _ x ra rb => (FR.mk 0 ra rb ((0 : BitVec 7) ++ BitVec.ofBool x) 0).bits
  | .qgen _ rd ra rb => (FR.mk rd ra rb 0 0).bits
  | .qgenv _ dst dim idx n => (FE.mk dst dim idx 0 n 0).bits
  | .oclm _ s fm role => (FR.mk s 0 0 ((0 : BitVec 5) ++ BitVec.ofBool role.toBool ++ (BitVec.ofNat 2 fm.code)) 0).bits
  | .orls _ rd => (FR.mk rd 0 0 0 0).bits
  | .oload _ k s src len => (FE.mk s src len 0 0 (BitVec.ofNat 16 k.code)).bits
  | .mmg _ k acc sa sb fd => (FR.mk ((0 : BitVec 3) ++ acc) sa sb (BitVec.ofNat 8 k.code) ((0 : BitVec 12) ++ fd)).bits
  | .mol _ acc sa lst n => (FE.mk ((0 : BitVec 3) ++ acc) sa lst 0 n 0).bits
  | .mdrn _ acc dst cs rs => (FE.mk ((0 : BitVec 3) ++ acc) dst cs rs 0 0).bits
  | .mclr _ acc => (FR.mk ((0 : BitVec 3) ++ acc) 0 0 0 0).bits
  | .mstat _ rd acc => (FR.mk rd ((0 : BitVec 3) ++ acc) 0 0 0).bits
  | .trst _ rd => (FR.mk rd 0 0 0 0).bits
  | .tadd _ rd imm => (FI.mk rd 0 imm 0).bits
  | .trd _ rd ra => (FR.mk rd ra 0 0 0).bits
  | .gnew _ rd ra => (FR.mk rd ra 0 0 0).bits
  | .gjoin _ ra => (FR.mk 0 ra 0 0 0).bits
  | .gleave _ ra => (FR.mk 0 ra 0 0 0).bits
  | .gfree _ ra => (FR.mk 0 ra 0 0 0).bits
  | .gcnt _ rd ra => (FR.mk rd ra 0 0 0).bits
  | .gbar _ ra k => (FR.mk 0 ra 0 0 ((0 : BitVec 12) ++ k)).bits
  | .gred _ k h val cnt res tok => (FE.mk h val cnt res 0 ((0 : BitVec 8) ++ tok ++ (0 : BitVec 1) ++ (BitVec.ofNat 3 k.code))).bits
  | .copy _ res ra => (FR.mk 0 ra 0 ((0 : BitVec 7) ++ BitVec.ofBool res) 0).bits
  | .cpyx _ ra => (FR.mk 0 ra 0 0 0).bits
  | .cpyq _ rd ra => (FR.mk rd ra 0 0 0).bits
  | .lnch _ ra => (FR.mk 0 ra 0 0 0).bits
  | .trig _ => 0
  | .lwait _ => 0
  | .trap _ imm => (FI.mk 0 0 imm 0).bits
  | .rett _ nx => ((0 : BitVec 35) ++ BitVec.ofBool nx)
  | .srd _ rd imm sf => (FI.mk rd 0 imm sf).bits
  | .swr _ ra imm sf => (FI.mk 0 ra imm sf).bits
  | .spawn _ se ti ent arg k => (FE.mk ti ent arg 0 0 ((0 : BitVec 11) ++ BitVec.ofBool se ++ k)).bits
  | .reap _ rd ra => (FR.mk rd ra 0 0 0).bits
  | .svc _ imm => (FI.mk 0 0 imm 0).bits
  | .einj _ gx gm tgt => (gx ++ gm ++ (0 : BitVec 24) ++ tgt)
  | .idem _ => 0
  | .fixedLatencyWriteback .. => 0
  | .longLatencyWrite .. => 0
  | .signalPost .. => 0
  | .gapExpiry .. => 0
  | .dlyExpiry .. => 0
  | .takenTransferRefetch .. => 0
  | .scalarFpTrap .. => 0
  | .reportDelivery .. => 0
  | .consumedError .. => 0
  | .deferredFaultReport .. => 0
  | .retryLatchRelease .. => 0
  | .threadReady .. => 0
  | .vectorOpStart .. => 0
  | .vectorOpComplete .. => 0
  | .qruCommandComplete .. => 0
  | .transferComplete .. => 0
  | .oloadComplete .. => 0
  | .gangLineRelease .. => 0
  | .mmgExecute .. => 0
  | .molExecute .. => 0
  | .mdrnExecute .. => 0
  | .mclrExecute .. => 0
  | .mstatExecute .. => 0
  | .parityUpdate .. => 0
  | .refreshWindowBegin .. => 0
  | .refreshWindowEnd .. => 0
  | .messageDelivery .. => 0
  | .remoteAccessServe .. => 0
  | .migrationDeparture .. => 0
  | .migrationLanding .. => 0
  | .returnHome .. => 0
  | .homeAccess .. => 0
  | .tlbWalkComplete .. => 0
  | .notResidentReport .. => 0
  | .pageResident .. => 0
  | .pageMoveSector .. => 0
  | .readCacheRefill .. => 0
  | .writeBufferRelease .. => 0
  | .groupOpAtHome .. => 0
  | .groupAck .. => 0
  | .copyUnitComplete .. => 0
  | .launchAccept .. => 0
  | .copyListEntry .. => 0
  | .gangPlacement .. => 0
  | .parkQueueDelivery .. => 0
  | .workDonation .. => 0
  | .vttCacheRefill .. => 0
  | .gangSwapOut .. => 0
  | .gangRestore .. => 0
  | .launchComplete .. => 0
  | .quantumExpiry .. => 0
  | .allowancePeriodBegin => 0
  | .dispatch .. => 0
  | .boostExpiry .. => 0
  | .preemption .. => 0
  | .chunkCountCut .. => 0
  | .commitTurn .. => 0
  | .killFlood .. => 0
  | .killSweepEnd .. => 0
  | .killConfirm .. => 0
  | .uncontainedError .. => 0
  | .voteRecord .. => 0
  | .unitRetire .. => 0
  | .governorTick => 0
  | .droopEvent .. => 0
  | .woreriFlitReceive .. => 0
  | .woreriNakReplay .. => 0
  | .laneRetrain .. => 0
  | .reduceOpPerform .. => 0
  | .hostLinkDown => 0
  | .hostLinkUp => 0
  | .qtailDoorbell => 0
  | .queueConfigWrite => 0
  | .hostWindowRead => 0
  | .hostWindowWrite => 0
  | .cmdKill => 0
  | .cmdKillvd => 0
  | .poolTableWrite => 0
  | .vdTableWrite => 0
  | .netctlWrite => 0
  | .routeWrite => 0
  | .dbgcertWrite => 0
  | .registerWrite => 0
  | .spdmSessionEstablish => 0
  | .debugStop => 0
  | .debugStep => 0
  | .debugWithdraw => 0
  | .debugArm => 0
  | .debugDisarm => 0
  | .debugRead => 0
  | .debugWrite => 0
  | .detach => 0
  | .endSession => 0
  | .sessionTimeout => 0
  | .svcReturn .. => 0
  | .moduleReset => 0
  | .powerLoss => 0
  | .illegalOp .. => 0
  | .temperatureChange => 0
  | .softError => 0
  | .scrub => 0
  | .physicalFunctionPageRequest => 0
  | .vdCapped .. => 0
  | .ringOscillatorWindow => 0

/-- The words of an instruction: its prefixes and its word. An event has none. -/
def encode (i : Instr) : List DWord :=
  match i.opcode with
  | some op => i.ctl.pfx.map Prefix.word ++ [BitVec.ofNat 8 op ++ i.ctl.bits ++ i.area]
  | none => match i with
    | .illegalOp w => [w]
    | _ => []

/-- The bytes of `nbits` bits of `w`, bit 0 the lowest bit of the first byte, and zeros above them up to the longest
instruction (three prefixes and a word). -/
def tableBytes (nbits w : Nat) : List Byte :=
  (List.range 32).map fun i => BitVec.ofNat 8 ((w % 2 ^ nbits) / 2 ^ (8 * i))

/-- The host's question: the instruction that the decoder reads from those bytes. -/
def decodeTableWord (nbits w : Nat) : Option Instr :=
  match decode (tableBytes nbits w) with
  | .ok (i, _) => some i
  | .error _ => none

end Sys2Proof
end

