-- ==== Sys2Proof/Machine/Ops.lean ====
section
/-!
DEFINITION. The shared operations of the machine: the tables, time, fixed-latency results, posts, the checks before
issue (03 R53), issue itself, taking a trap (12 R293), returning from one (09 R249), reports (12 R301), restart and
kill (22 R422, R423, R426), and TRIP (03 R72).
-/
namespace Sys2Proof.Machine

abbrev Out := Host.Outcome State Fault Refusal

/-! ### Cause codes (12 R304) -/

def cZeroWord : Nat := 0x01
def cIllegalOp : Nat := 0x02
def cBadSubop : Nat := 0x03
def cPrefixMisuse : Nat := 0x04
def cBadTarget : Nat := 0x05
def cHdrMissing : Nat := 0x06
def cHdrMalformed : Nat := 0x07
def cPrivileged : Nat := 0x08
def cDetIllegal : Nat := 0x09
def cLeadOnly : Nat := 0x0A
def cBadPair : Nat := 0x0B
def cTripNovote : Nat := 0x0C
def cBkpt : Nat := 0x0D
def cIntDiv0 : Nat := 0x20
def cMemAlign : Nat := 0x40
def cMemNomap : Nat := 0x41
def cMemProt : Nat := 0x42
def cScopeDenied : Nat := 0x43
def cWsLocked : Nat := 0x44
def cVtileRange : Nat := 0x45
def cSpaceInvalid : Nat := 0x46
def cWindowFmt : Nat := 0x47
def cHostSpace : Nat := 0x48
def cUnderwait : Nat := 0x60
def cTokenOverflow : Nat := 0x61
def cGroupOvercount : Nat := 0x62
def cGroupMismatch : Nat := 0x63
def cGroupNotMember : Nat := 0x64
def cGroupInvalid : Nat := 0x65
def cSpawnFull : Nat := 0x67
def cReapNotExited : Nat := 0x68
def cMigrateInTrap : Nat := 0x69
def cCopyFault : Nat := 0x80
def cVecFault : Nat := 0x81
def cVecLength : Nat := 0x82
def cSlotState : Nat := 0x83
def cSlotFormat : Nat := 0x84
def cGangMismatch : Nat := 0x85
def cChkUncorrectable : Nat := 0x86
def cPowerUndeclared : Nat := 0x87
def cUeConsumed : Nat := 0xA0
def cSpadReconFail : Nat := 0xA1
def cPoison : Nat := 0xA2
def cBlastDelivered : Nat := 0xA3
def cEscalate : Nat := 0xC0
def cKilledByHost : Nat := 0xC1
def cLaunchRange : Nat := 0xC2
def cRestoreIncompatible : Nat := 0xC3

/-! ### Tables -/

def State.setThread (s : State) (r : TRef) (t : Thread) : State := { s with threads := s.threads.set r t }
def State.updThread (s : State) (r : TRef) (f : Thread → Thread) : State := { s with threads := s.threads.upd r f }
def State.updTile (s : State) (v : TileRef) (f : VTile → VTile) : State := { s with vtiles := s.vtiles.upd v f }
def State.updLaunch (s : State) (l : Nat) (f : Launch → Launch) : State := { s with launches := s.launches.upd l f }
def State.updOp (s : State) (id : Nat) (f : Op → Op) : State := { s with ops := s.ops.upd id f }
def State.updLane (s : State) (r : TRef) (f : Lane → Lane) : State := { s with lanes := s.lanes.upd r f }
def State.thread? (s : State) (r : TRef) : Option Thread := s.threads.get? r
def State.tile? (s : State) (v : TileRef) : Option VTile := s.vtiles.get? v
def State.launch? (s : State) (l : Nat) : Option Launch := s.launches.get? l
def State.op? (s : State) (id : Nat) : Option Op := s.ops.get? id
def State.dropOp (s : State) (id : Nat) : State := { s with ops := s.ops.del id }

/-- The thread whose turn it is. -/
def State.curThread? (s : State) : Option (TRef × Thread) :=
  match s.cur with
  | none => none
  | some r => (s.thread? r).map fun t => (r, t)

/-- The launch block of a thread's or tile's launch. -/
def State.blk (s : State) (l : Nat) : Block := ((s.launch? l).map Launch.blk).getD {}
def State.isDet (s : State) (l : Nat) : Bool := (s.blk l).det
def State.vdOf (s : State) (l : Nat) : Nat := ((s.launch? l).map Launch.vd).getD 0
def State.vdRec (s : State) (n : Nat) : Vd := (s.vds.get? n).getD {}
def State.updVd (s : State) (n : Nat) (f : Vd → Vd) : State := { s with vds := s.vds.set n (f (s.vdRec n)) }
def State.poolRec (s : State) (n : Nat) : Pool := (s.pools.get? n).getD {}

/-- A free value, and the counter advanced (log 7). -/
def State.draw (s : State) : Nat × State := (Config.freeNat s.fresh, { s with fresh := s.fresh + 1 })

/-! ### Physical places (23 R433, R435) -/

def numTiles : Nat := 16384

/-- Whether a physical tile has a logical number in this boot. -/
def State.numbered (s : State) (p : Nat) : Bool := !s.numberOut.contains p
/-- The physical tile of a logical number: the live tile with that many live tiles below it (23 R435). -/
def nthLive : List Nat → Nat → Nat
  | [], l => l
  | o :: os, l => if o ≤ l then nthLive os (l + 1) else l
/-- The physical tile of a logical number; `numberOut` is in rising order. -/
def State.physOf (s : State) (l : Nat) : Nat := nthLive s.numberOut l
def State.logicalOf (s : State) (p : Nat) : Nat := p - (s.numberOut.filter fun o => decide (o < p)).length
def fieldOf (p : Nat) : Nat := p / 256
def rowOf (p : Nat) : Nat := p / 16

/-! ### Time -/

/-- Puts a timed event into the agenda, after the events of the same cycle. -/
def insertEvent : List (Nat × Instr) → Nat → Instr → List (Nat × Instr)
  | [], c, i => [(c, i)]
  | e :: l, c, i => if c < e.1 then (c, i) :: e :: l else e :: insertEvent l c i

def State.at_ (s : State) (c : Nat) (i : Instr) : State := { s with agenda := insertEvent s.agenda c i }

/-! ### What happens before what (11 R283), by the numbers of operations and stores -/

/-- Two lists of numbers as one. -/
def joinIds (a b : List Nat) : List Nat := a ++ b.filter fun i => !a.contains i

/-- What happens before the next CORE event of a thread, and before what it does next on any path, its own accesses among it. -/
def Thread.coreView (t : Thread) : List Nat := joinIds t.before[0] t.past[0]
def Thread.allView (t : Thread) : List Nat := (t.before.toList ++ t.past.toList).foldl joinIds []

/-- What a thread learns of what happens before its later accesses on CORE, and on every path. -/
def Thread.learnCore (t : Thread) (l : List Nat) : Thread := { t with before := t.before.set 0 (joinIds t.before[0] l) }
def Thread.learnAll (t : Thread) (l : List Nat) : Thread := { t with before := t.before.map fun x => joinIds x l }

/-! ### Posts (02 R34 to R36; 22 R421) -/

/-- A post that lands: the increment joins the token, and, while RST is set, a post of an operation issued since the
region began comes off ACC. A post to a thread that has exited, or is no more, is discarded. -/
def State.postSig (s : State) (r : TRef) (g : Sig) : State :=
  s.updThread r fun t =>
    if t.run = .exited then t
    else
      let t := t.post g.tok g.inc
      if t.rst ∧ g.region = t.region then { t with acc := t.acc.set g.tok.toFin (t.acc[g.tok.toFin] - g.inc) } else t

def State.postSig? (s : State) (r : TRef) (g : Option Sig) : State :=
  match g with
  | none => s
  | some g => s.postSig r g

/-- The post of an operation: a wait on its token orders the operation, and what happens before it, before what follows the wait (11
R282). -/
def Thread.notePost (t : Thread) (k : Tok) (l : List Nat) : Thread :=
  { t with posted := t.posted.set k.toFin (joinIds t.posted[k.toFin] l) }
def State.postBy (s : State) (r : TRef) (l : List Nat) (g : Option Sig) : State :=
  match g with
  | none => s
  | some g => (if l = [] ∨ s.isDet r.l then s else s.updThread r fun t => t.notePost g.tok l).postSig r g

/-- The signal that an instruction's control fields ask for (03 R51, R52). -/
def sigOf (c : Ctl) (t : Thread) : Option Sig :=
  if c.sgEn then some ⟨c.sgTok, 2 ^ c.sgInc.toNat, t.region⟩ else none

/-! ### Fixed-latency results (02 R40 to R42) -/

/-- One register write of a producer: it stands unless a later producer's has landed (02 R41). -/
def Thread.landWrite (t : Thread) (id : Nat) (r : Reg) (w : Word) : Thread :=
  if t.landed[r.toFin] ≤ id then { t.setReg r w with landed := t.landed.set r.toFin id } else t

def Thread.landWrites (t : Thread) (id : Nat) : List (Reg × Word) → Thread
  | [] => t
  | (r, w) :: l => (t.landWrite id r w).landWrites id l

/-- The register writes of a long-latency operation, `now` on the count of producers: they overwrite what the fixed-latency
producers issued before have written, or will (02 R42). -/
def Thread.longWrites (t : Thread) (now : Nat) : List (Reg × Word) → Thread
  | [] => t
  | (r, w) :: l => ({ t.setReg r w with landed := t.landed.set r.toFin now }).longWrites now l

/-- A result lands: registers, SFLG, and the flight is gone. The post is made apart. -/
def Thread.landFlight (t : Thread) (f : Flight) : Thread :=
  let t := t.landWrites f.id f.writes
  { t with
    fpctl := orSFLG t.fpctl f.flags
    inflight := t.inflight.filter fun g => g.id ≠ f.id
    fpHold := if t.fpHold = some f.id then none else t.fpHold }

/-- What is left of GAP and DLY ends. -/
def Thread.awake (t : Thread) : Thread := { t with gapUntil := 0, dlyUntil := 0 }

/-- Every fixed-latency result has landed and PEND is 0: what a trap entry, an eviction, a swap and a migration wait for (02
R42; 12 R293 step 1). -/
def Thread.quiet (t : Thread) : Bool := decide (t.inflight = []) && decide (t.pend = 0)

/-- A fixed-latency result on its way: readable `lat` cycles from now (02 R40), with its flags and post; `trd` is a token that
it reads when its issue cycle ends. -/
def State.fly (s : State) (r : TRef) (lat : Nat) (writes : List (Reg × Word)) (flags : Exc) (g : Option Sig)
    (trd : Option (Tok × Reg) := none) : State :=
  let f : Flight := { id := s.nextId, due := s.cycle + lat, writes, flags, sig := g, trd }
  ({ s.updThread r (fun t => { t with inflight := t.inflight ++ [f] }) with nextId := s.nextId + 1 }).at_
    (s.cycle + lat) (.fixedLatencyWriteback r f.id)

/-- The post of an instruction that writes no register: in the cycle after issue (03 R55). -/
def State.postNext (s : State) (r : TRef) (g : Option Sig) : State :=
  match g with
  | none => s
  | some g => s.at_ (s.cycle + 1) (.signalPost r g.region g.tok g.inc)

/-! ### Errors, reports and kills -/

/-- Whether a launch has been killed or has ended. -/
def Launch.dying (ln : Launch) : Bool :=
  match ln.phase with
  | .killFlood => true | .killSweep _ => true | .killConfirm _ => true | .ended => true | _ => false

/-- Adds an error-log record (22 R413, R414); the ring keeps the latest 65,536. -/
def State.logErr (s : State) (src unit sev cause : Nat) (addr : DWord) (pm : BitVec 64) (vd : Nat) (lid : Word)
    (count : Nat := 1) : State :=
  { s with
    errlog := (s.errlog ++ [ErrRec.mk s.errSeq s.cycle src unit sev cause count addr pm vd lid]).drop
      (s.errlog.length + 1 - 65536)
    errSeq := s.errSeq + 1 }

def noVd : Nat := 0xFFFFFFFF

/-- A tile error that reaches no thread, logged (22 R415). -/
def State.logQuiet (s : State) (src unit sev : Nat) (addr : DWord) : State := s.logErr src unit sev 0 addr 0 noVd 0

/-- A kill's cause reaches the launch (22 R426, R428): the first one gives the status. The flood comes within 260 cycles, the
end of the sweep 4096 cycles after the cause. -/
def State.startKill (s : State) (l : Nat) (status : Nat) : State :=
  match s.launch? l with
  | none => s
  | some ln =>
    if ln.dying then s
    else
      let (d, s) := s.draw
      ((s.updLaunch l fun ln => { ln with phase := .killFlood, status }).at_ (s.cycle + d % 261)
        (.killFlood l)).at_ (s.cycle + 4096) (.killSweepEnd l)

/-- A thread at TL 2 takes a third trap (12 R297): it issues nothing more, the launch is killed, the first escalation
is kept for the record, the others are counted. -/
def State.escalate (s : State) (r : TRef) (i : TrapInfo) : State :=
  match s.thread? r with
  | none => s
  | some t =>
    let s := s.updThread r fun t => { t with run := .dead }
    let e : Escalation := { h1 := t.half1, h2 := t.half2, third := i, thid := r.th, vt := r.v }
    match (s.launch? r.l).bind Launch.esc, (s.launch? r.l).map Launch.phase with
    | some _, _ => s.updLaunch r.l fun ln => { ln with nesc := min (ln.nesc + 1) 0xFFFFFFFF }
    | none, some .killFlood => s.updLaunch r.l fun ln => { ln with nesc := min (ln.nesc + 1) 0xFFFFFFFF }
    | none, some (.killSweep _) => s
    | none, some (.killConfirm _) => s
    | none, some .ended => s
    | none, _ => (s.updLaunch r.l fun ln => { ln with esc := some e }).startKill r.l cEscalate

/-! ### Taking a trap (12 R293) and returning (09 R249) -/

def Thread.half (t : Thread) (n : Nat) : TrapHalf := if n = 1 then t.half1 else t.half2
def Thread.setHalf (t : Thread) (n : Nat) (h : TrapHalf) : Thread :=
  if n = 1 then { t with half1 := h } else { t with half2 := h }

/-- TVEC with its low six bits read as zero (12 R294). -/
def tvecBase (w : DWord) : DWord := w &&& ~~~(63 : DWord)

/-- Steps 2 to 5 of a trap entry at level TL + 1, at cycle `now`: the bank, TSC, p7, TL, and the pc at the vector of the
cause's class. The handler issues from cycle `now` + 12. -/
def Thread.enterTrap (t : Thread) (i : TrapInfo) (now : Nat) : Thread :=
  let n := t.tl + 1
  let h : TrapHalf :=
    { tpc := i.tpc, tval := i.tval, taux := i.taux, tinst := i.tinst, tscL := t.reg 14, tscH := t.reg 15,
      tcause := BitVec.ofNat 32 i.cause }
  let t := (t.setHalf n h).setPair 14 (t.tsave + BitVec.ofNat 64 ((n - 1) * 256))
  { t with
    tl := n
    pc := tvecBase t.tvec + BitVec.ofNat 64 (i.cause / 32 * 64)
    arrive := 2
    block := none
    refetchUntil := now + 12
    run := .ready
    trip := []
    skipTurn := false
    bkptPass := false
    entered := true }

/-- Whether a register of the thread waits for an operation that its open chunk buffers. -/
def State.awaitsCommit (s : State) (r : TRef) : Bool :=
  s.ops.any fun e => decide (e.2.t = r) && e.2.buffered && decide (e.2.regs ≠ [])

/-- Closes the open chunk of a thread's lane before its next instruction (17 R346). -/
def State.cutBefore (s : State) (r : TRef) : State :=
  s.updLane r fun l => { l with chunks := l.chunks.map fun c => if c.cut = .opened then { c with cut := .before } else c }

/-- A thread takes a trap. At TL 2 it escalates (12 R297). Otherwise what is left of GAP and DLY ends, and the entry is made
now when no result is in flight and PEND is 0, and else once that is so (step 1). A register that only the commit of the
thread's own chunk can write ends the chunk before the instruction, which traps again after it (17 R346; log 18). -/
def State.takeTrap (s : State) (r : TRef) (i : TrapInfo) : State :=
  match s.thread? r with
  | none => s
  | some t =>
    if t.tl ≥ 2 then s.escalate r i
    else if s.awaitsCommit r then s.cutBefore r
    else
      let t := t.awake
      if t.quiet then s.setThread r (t.enterTrap i s.cycle)
      else s.setThread r { t with run := .trapDrain i false, trip := [] }

/-- A trap of the instruction whose turn it is: TPC is its first prefix, TINST its word (03 R75). -/
def State.trapHere (s : State) (r : TRef) (t : Thread) (cause : Nat) (tval : DWord := 0) (taux : DWord := 0) : State :=
  s.takeTrap r { cause, tpc := t.pc, tval, taux, tinst := s.iword }

/-- Return from level `TL` (09 R249): g14, g15 from TSC, the pc given, TL one lower, RST cleared when TL falls below the
region's level (22 R420). No block is current afterwards (03 R66). -/
def Thread.return (t : Thread) (pc : DWord) : Thread :=
  let h := t.half t.tl
  let t := (t.setReg 14 h.tscL).setReg 15 h.tscH
  { t with
    pc
    tl := t.tl - 1
    rst := t.rst && !decide (t.tl - 1 < t.irtl)
    block := none
    arrive := 0
    run := .ready }

/-! ### The checks before issue (03 R53) -/

/-- What the checks need to know of an instruction: what it reads and writes, and its restrictions (09 R256). -/
structure Need where
  priv : Option DWord := none
  badsub : Bool := false
  det : Bool := false
  go : Bool := false
  lead : Bool := false
  pairs : List Reg := []
  reads : List Reg := []
  writes : List Reg := []

inductive Gate where
  | trap (cause : Nat) (tval taux : DWord)
  | wait
  | go
  deriving DecidableEq, Repr

/-- The registers named whose PEND bit is set, as a mask. -/
def pendMask (t : Thread) (l : List Reg) : BitVec 16 :=
  l.foldl (fun m r => if t.pend.getLsbD r.toNat then m ||| (1 <<< r.toNat) else m) 0

def lowestBit (m : BitVec 16) : Nat := ((List.range 16).find? fun i => m.getLsbD i).getD 0

/-- Checks 4 to 11, in order. -/
def gate (c : Ctl) (n : Need) (t : Thread) (det : Bool) : Gate :=
  if n.priv.isSome then .trap cPrivileged (n.priv.getD 0) 0
  else if n.badsub then .trap cBadSubop 0 0
  else if n.det && det then .trap cDetIllegal 0 0
  else if n.go && decide (t.tl > 0) then .trap cMigrateInTrap 0 0
  else if n.lead && !t.lead then .trap cLeadOnly 0 0
  else if n.pairs.any Reg.odd then .trap cBadPair 0 0
  else if decide (c.thr ≠ 0) && t.overAt c.tok (if c.wc then c.thr.toNat else 0) then .trap cTokenOverflow (c.tok.setWidth 64) 0
  else if (t.tokAt c.tok).value < c.thr.toNat then .wait
  else if t.uwchk && decide (pendMask t (n.reads ++ n.writes) ≠ 0) then
    .trap cUnderwait (BitVec.ofNat 64 (lowestBit (pendMask t (n.reads ++ n.writes))))
      (t.pend.setWidth 64)
  else .go

/-! ### Deterministic mode's hooks (17) -/

/-- The open chunk of a lane, newest. -/
def Lane.openChunk? (l : Lane) : Option Chunk :=
  match l.chunks.getLast? with
  | some c => if c.cut = .opened then some c else none
  | none => none

def updLast {α : Type} (f : α → α) : List α → List α
  | [] => []
  | [a] => [f a]
  | a :: l => a :: updLast f l

/-- Changes the newest chunk of a thread's lane. -/
def State.updChunk (s : State) (r : TRef) (f : Chunk → Chunk) : State :=
  s.updLane r fun l => { l with chunks := updLast f l.chunks }

def State.closeChunk (s : State) (r : TRef) (k : Cut) : State :=
  s.updChunk r fun c => if c.cut = .opened then { c with cut := k } else c

/-- Keys of the read signature and log: a granule of a virtual tile, a line of global memory (17 R348). -/
def keyLocal (v : Nat) (off : Nat) : Nat := 2 ^ 63 + v * 2 ^ 20 + off / 32 * 32
def keyGlobal (a : Nat) : Nat := a / 64 * 64
def keySize (k : Nat) : Nat := if k < 2 ^ 63 then 64 else 32
/-- The key of a window descriptor, in a chunk's reads and writes (17 R358; log 20). -/
def keyWindow (v w : Nat) : Nat := 2 ^ 63 + 2 ^ 61 + (v * 8 + w) * 32
/-- The key of an entry of a thread table: what REAP tests, an EXIT changes at its turn (17 R358). -/
def keyThread (v th : Nat) : Nat := 2 ^ 63 + 2 ^ 62 + (v * 64 + th) * 32

/-- A read of the chunk in progress enters its signature and, for the first 32, its log (17 R347, R348). -/
def State.noteRead (s : State) (r : TRef) (key : Nat) : State :=
  if s.isDet r.l then
    s.updChunk r fun c =>
      { c with
        reads := setInsert c.reads key
        readLog := if c.readLog.contains key ∨ c.readLog.length ≥ 32 then c.readLog else c.readLog ++ [key] }
  else s

/-- The virtual tile that a key names; a line of global memory names none. -/
def keyTile (k : Nat) : Option Nat :=
  let x := k - 2 ^ 63
  if k < 2 ^ 63 then none
  else if x < 2 ^ 60 then some (x / 2 ^ 20)
  else if x < 2 ^ 61 then some ((x - 2 ^ 60) / 2 ^ 14)
  else if x < 2 ^ 62 then some ((x - 2 ^ 61) / 2 ^ 8)
  else some ((x - 2 ^ 62) / 2 ^ 11)

/-- The windows that some short addresses of a thread's own tile name are read by its chunk. -/
def State.noteWindows (s : State) (r : TRef) (l : List Word) : State :=
  if s.isDet r.l then l.foldl (fun (s : State) a => s.noteRead r (keyWindow r.v (a.extractLsb' 21 3).toNat)) s else s

/-- An instruction retires in its chunk (17 R346). -/
def State.countChunk (s : State) (r : TRef) : State :=
  if s.isDet r.l then s.updChunk r fun c => { c with retired := c.retired + 1 } else s

/-! ### Issue -/

/-- The consume of the wait fields (02 R35; 03 R54; 22 R421). -/
def Thread.consumeWait (t : Thread) (c : Ctl) : Thread :=
  if c.wc && decide (c.thr ≠ 0) then
    let t := t.setTok c.tok ((t.tokAt c.tok).consume c.thr.toNat)
    if t.rst then { t with acc := t.acc.set c.tok.toFin (t.acc[c.tok.toFin] + c.thr.toNat) } else t
  else t

/-- A consume given back (05 R128; 03 R72): the token becomes min(255, k + WT.thr), and it comes off ACC again. -/
def Thread.giveBack (t : Thread) (k : Tok) (n : Nat) : Thread :=
  let t := t.setTok k { count := min 255 ((t.tokAt k).count + n), inc := (t.tokAt k).inc }
  if t.rst then { t with acc := t.acc.set k.toFin (t.acc[k.toFin] - n) } else t

/-- The address of the instruction word itself: after its prefixes. -/
def Thread.wordAddr (t : Thread) (c : Ctl) : DWord := t.pc + BitVec.ofNat 64 (8 * c.pfx.length)

/-- The part of issue that all instructions share, but the consume: the pc passes the instruction, GAP begins, INSTRET
counts (02 R44; 03 R56). -/
def Thread.pass (t : Thread) (c : Ctl) (now : Nat) : Thread :=
  { t with
    pc := t.pc + BitVec.ofNat 64 (8 * (c.pfx.length + 1))
    gapUntil := now + 1 + c.gap.toNat
    instret := t.instret + 1
    arrive := 0
    trip := []
    run := .ready
    bkptPass := false }

/-- The same, with what a satisfied wait orders before the thread's later accesses, and the read-cache rule (11 R282). -/
def Thread.passAt (t : Thread) (c : Ctl) (now stamp : Nat) : Thread :=
  if c.thr = 0 then t.pass c now else { (t.learnAll t.posted[c.tok.toFin]).pass c now with acqStamp := stamp }

/-- Issue of the instruction at the thread's pc. -/
def State.retire (s : State) (r : TRef) (c : Ctl) : State :=
  (s.updThread r fun t => (t.consumeWait c).passAt c s.cycle s.nextId).countChunk r

/-- A thread's MMG leaves the gang line (12 R301): it will arrive again. -/
def State.leaveLine (s : State) (r : TRef) : State :=
  match s.tile? r.tile with
  | none => s
  | some v =>
    let mine := v.lineQ.filter fun id => decide ((s.op? id).map Op.t = some r)
    let s := s.updTile r.tile fun v => { v with lineQ := v.lineQ.filter fun id => !mine.contains id }
    { s with ops := s.ops.filter fun e => !mine.contains e.1 }

/-- The first-exception entry of a report that is delivered goes (12 R302). -/
def State.dropFx (s : State) (r : TRef) (p : Report) : State :=
  s.updTile r.tile fun v => { v with fx := v.fx.filter fun e => some e.seq ≠ p.fxSeq }

/-- The oldest report is delivered at the thread's next instruction, as a trap entry (12 R301): the home access it
holds is noted under the level that takes it (06 R148), its first-exception entry goes (R302). -/
def State.deliverReport (s : State) (r : TRef) : State :=
  match s.thread? r with
  | none => s
  | some t =>
    match t.reports with
    | [] => s
    | p :: rest =>
      let t' := { t with
        reports := rest
        held := t.held.map fun h => if some h.op = p.heldOp then { h with level := some (t.tl + 1) } else h
        run := .ready
        trip := [] }
      let s := ((s.setThread r t').dropFx r p).leaveLine r
      s.takeTrap r { cause := p.cause, tpc := t.pc, tval := p.tval, taux := p.taux, tinst := s.iword }

/-- Whether the next report of a thread is a consumed error (kind C of 12 R303). -/
def Thread.consumedNext (t : Thread) : Bool := ((t.reports.head?).map Report.consumed).getD false

/-- Discards an access that a home holds: no register is written, its PEND bits clear, its signal posts (06 R148). -/
def State.discardHeld (s : State) (r : TRef) (id : Nat) : State :=
  match s.op? id with
  | none => s.updThread r fun t => { t with held := t.held.filter fun h => h.op ≠ id }
  | some o =>
    ((s.updThread r fun t => { t with held := t.held.filter fun h => h.op ≠ id }).postSig? r o.sig).dropOp id

/-- Operations of a thread that still owe it a register or a post. -/
def State.owes (_ : State) (r : TRef) (o : Op) : Bool :=
  decide (o.t = r) && (decide (o.regs ≠ []) || o.sig.isSome || o.gbar.isSome)

/-- The step of the restart that needs nothing more to wait for (22 R422 steps 2 to 4): a token counts the posts of this cycle too,
which ACC has counted already. -/
def Thread.restart (t : Thread) (now : Nat) : Thread :=
  let t := if t.tl > t.irtl then
      let h := t.half (t.irtl + 1)
      { (t.setReg 14 h.tscL).setReg 15 h.tscH with tl := t.irtl }
    else t
  { t with
    tok := Vector.ofFn fun i =>
      { count := (min 255 (max 0 ((t.tok[i].count : Int) + t.tok[i].inc + t.acc[i]))).toNat, inc := 0 }
    acc := Vector.replicate 16 0
    rcnt := t.rcnt + 1
    pc := t.irpc
    rst := true
    restarting := true
    arrive := 0
    block := none
    run := .ready
    trip := []
    refetchUntil := now + 12 }

/-- Whether everything that a restart waits for has come (22 R422 step 1): no result is in flight, PEND is 0 and every
operation issued since the region began is complete, discarded, or held with its report pending. -/
def State.restartDrained (s : State) (r : TRef) (t : Thread) : Bool :=
  t.quiet &&
  s.ops.all fun e => !(decide (e.2.t = r) && decide (e.2.region = t.region) && decide (e.2.phase ≠ .held) &&
    decide (e.2.phase ≠ .done))

/-- POOLMAP of a tile: the pool of the launch that holds it (18 R372). -/
def State.tilePoolmap (s : State) (l : Nat) : BitVec 64 := 1 <<< ((s.vdRec (s.vdOf l)).pool)

/-- The lead thread of a virtual tile, wherever it is. -/
def State.leadOf (s : State) (l v : Nat) : Option TRef :=
  (s.threads.find? fun e => decide (e.1.l = l) && e.2.lead && decide (e.2.homev.toNat = v)).map Prod.fst

/-- Whether a thread's report queue has room (12 R301); no report travels in a migration message. -/
def State.reportRoom (s : State) (r : TRef) : Bool :=
  match s.thread? r with
  | none => true
  | some t => (decide (t.reports.length < 8) && decide (t.run ≠ .transit)) || decide (t.run = .exited)

/-- A BLAST_DELIVERED report for each incomplete launch of each other VD of the blast set, to the lead thread of its
lowest unfinished virtual tile (22 R424). One that finds the queue full, or whose tile has not started, waits (12 R301). -/
def State.blast (s : State) (pm : BitVec 64) (seq : Nat) (notVd : Nat) : State :=
  s.launches.foldl (fun s e =>
    let ln := e.2
    let vd := s.vdRec ln.vd
    if ln.vd ≠ notVd ∧ vd.en ∧ pm.getLsbD vd.pool ∧ ln.phase ≠ .ended then
      match (s.vtiles.filter fun x => decide (x.1.l = e.1) && !x.2.finished).foldl
          (fun (b : Option Nat) x => some (match b with | none => x.1.v | some v => min v x.1.v)) none with
      | none => s
      | some v =>
        let p : Report := { cause := cBlastDelivered, tval := BitVec.ofNat 64 seq, taux := pm, poNum := s.nextId, chunk := 2 ^ 64, stamp := s.nextId }
        let r := (s.leadOf e.1 v).getD ⟨e.1, v, 0⟩
        let s := if s.reportRoom r ∧ (s.thread? r).isSome then s.updThread r fun t => { t with reports := t.reports ++ [p] }
          else { s with
            ops := s.ops ++ [(s.nextId, { t := ⟨e.1, v, 0⟩, tile := ⟨e.1, v⟩, vd := ln.vd, cls := .blast, ins := .illegalOp 0, phase := .faulted
                                          fault := some { cause := p.cause, tval := p.tval, taux := p.taux } })]
            nextId := s.nextId + 1 }
        match (s.tile? ⟨e.1, v⟩).map VTile.place with
        | some .absent =>
          s.updLaunch e.1 fun ln =>
            let g := v / max 1 ln.blk.gsize
            { ln with summon := if ln.summon.contains g then ln.summon else ln.summon ++ [g] }
        | _ => s
    else s) s

/-- Whom the report of an operation is for: a BLAST_DELIVERED goes to the lead, wherever it is. -/
def State.reportTo (s : State) (o : Op) : TRef := if o.cls = .blast then (s.leadOf o.t.l o.t.v).getD o.t else o.t

/-- Whether the report of an operation can join its thread's queue now: one for a tile that has not started waits. -/
def State.mayReport (s : State) (o : Op) : Bool :=
  s.reportRoom (s.reportTo o) &&
    (decide (o.cls ≠ .blast) || (s.thread? (s.reportTo o)).isSome || ((s.tile? o.tile).map VTile.finished).getD true)

/-- A thread consumes an uncorrectable error at the head of its queue (22 R422, R423): it restarts its region, or its
launch is killed and the blast set told. While its launch is being killed the error is discarded (22 R428). -/
def State.consumeError (s : State) (r : TRef) : State :=
  match s.thread? r with
  | none => s
  | some t =>
    match t.reports with
    | [] => s
    | p :: rest =>
      let lid := (s.blk r.l).lid
      let vd := s.vdOf r.l
      let unit := p.found.unit.getD (((s.tile? r.tile).map VTile.ltile).getD 0)
      let pm := p.found.pools.getD (s.tilePoolmap r.l)
      if ((s.launch? r.l).map Launch.dying).getD false then (s.setThread r { t with reports := rest }).dropFx r p
      else if t.rst ∧ t.rcnt < 3 then
        let s := (s.setThread r { t with reports := rest, run := .ready, trip := [] }).dropFx r p
        let s := s.logErr p.found.src unit 3 p.cause p.tval 0 vd lid
        let s := (t.held.filter fun h => match h.level with | some n => decide (n > t.irtl) | none => false).foldl
          (fun s h => s.discardHeld r h.op) s
        match s.thread? r with
        | none => s
        | some t =>
          let t := t.awake
          if s.restartDrained r t then s.setThread r (t.restart s.cycle)
          else s.setThread r { t with run := .trapDrain { cause := p.cause } true }
      else
        let seq := s.errSeq
        let s := (s.setThread r { t with reports := rest, run := .dead }).dropFx r p
        let s := s.logErr p.found.src unit 4 p.cause p.tval pm vd lid
        (s.startKill r.l cUeConsumed).blast pm seq vd

/-- The report at the head of the queue is taken, whichever kind it is. -/
def State.takeReport (s : State) (r : TRef) : State :=
  match s.thread? r with
  | none => s
  | some t => if t.consumedNext then s.consumeError r else s.deliverReport r

/-- The increments to a token that operations performed within the thread's chunk will still post (17 R346). -/
def State.willPost (s : State) (r : TRef) (k : Tok) : Nat :=
  let of (g : Option Sig) : Nat := match g with | some g => if g.tok = k then g.inc else 0 | none => 0
  s.ops.foldl (fun n e => if e.2.t = r ∧ !e.2.buffered ∧ !e.2.atStart ∧ e.2.phase ≠ .held then n + of e.2.sig else n) 0 +
  (((s.thread? r).map Thread.inflight).getD []).foldl (fun n f => n + of f.sig) 0 +
  s.agenda.foldl (fun n e => match e.2 with | .signalPost q _ j i => if q = r ∧ j = k then n + i else n | _ => n) 0

/-- A turn whose wait is not met: the turn passes; in deterministic mode, a wait that the chunk's own operations cannot
meet ends the chunk before the instruction (17 R346). -/
def State.waitTurn (s : State) (r : TRef) (t : Thread) (c : Ctl) : State :=
  if s.isDet r.l then
    match (s.lanes.get? r).bind Lane.openChunk? with
    | some _ => if (t.tokAt c.tok).value + s.willPost r c.tok < c.thr.toNat then s.closeChunk r .before else s
    | none => s
  else s

/-- Whether reports may be delivered now: in deterministic mode only at a chunk's first instruction (17 R448). -/
def State.reportsOpen (s : State) (r : TRef) : Bool :=
  if s.isDet r.l then
    match (s.lanes.get? r).bind Lane.openChunk? with
    | some ch => decide (ch.retired = 0) &&
        (((s.thread? r).bind fun t => t.reports.head?).map fun p => decide (p.stamp ≤ ch.began)).getD true
    | none => true
  else true

/-- Whether a thread is between the copies of a TRIP follower (03 R72). -/
def Thread.midTrip (t : Thread) : Bool := decide (t.trip ≠ []) && decide (t.run = .ready)

/-- One turn of the instruction `c` with needs `n`: the report that is due, the first check that fails, or the
instruction's own effect `body`. A latched instruction does not repeat its checks (12 R298). -/
def issue (c : Ctl) (n : Thread → Need) (body : TRef → Thread → State → State) (s : State) : Out :=
  match s.curThread? with
  | none => .fault .noThread
  | some (r, t) =>
    let g := if t.run = .latched ∨ t.trip ≠ [] then Gate.go else gate c (n t) t (s.isDet r.l)
    if t.reports ≠ [] ∧ s.reportsOpen r ∧ (g ≠ .wait ∨ t.reports.length ≥ 8 ∨ t.reports.any Report.now) ∧ !t.midTrip then .next (s.takeReport r)
    else match g with
      | .trap cause tval taux => .next (s.trapHere r t cause tval taux)
      | .wait => .next (s.waitTurn r t c)
      | .go => .next (body r t s)

/-! ### TRIP (03 R72) -/

/-- The value on which two of three copies agree, if any; and whether all three do. -/
def vote (l : TripCopies) : Option (DWord × Exc) × Bool :=
  match l with
  | [a, b, d] =>
    if a.1 = b.1 then (some a, decide (b.1 = d.1))
    else if a.1 = d.1 then (some a, false)
    else if b.1 = d.1 then (some b, false)
    else (none, false)
  | _ => (none, false)

/-- The vote of a tile's TRIP copies is counted: of the physical tile, whichever virtual tile it holds (22 R417). -/
def State.addVote (s : State) (v : TileRef) : State :=
  let p := s.physOf (((s.tile? v).map VTile.ltile).getD 0)
  let x := (s.votes.get? p).getD (0, 0)
  { s with votes := s.votes.set p (min 0xFFFF (x.1 + 1), x.2) }

/-- A copy's value with the upset that strikes it, and the upsets left. -/
def Thread.copyValue (t : Thread) (v : DWord) : DWord × List DWord :=
  match t.upsets with
  | [] => (v, [])
  | u :: l => (v ^^^ u, l)

/-- Runs `done` with the instruction's value and exceptions: at once without TRIP; with it, at the third turn, with the
majority. The consume is made before the first copy and given back when there is no majority; one that the retry latch gave
back is made again (12 R298). -/
def withTrip (c : Ctl) (r : TRef) (t : Thread) (v : DWord) (x : Exc)
    (done : State → Thread → DWord → Exc → State) (s : State) : State :=
  if c.hasTrip then
    let (v', ups) := t.copyValue v
    let t1 := if t.trip = [] ∨ t.run = .latched then t.consumeWait c else t
    let t1 := { t1 with trip := t1.trip ++ [(v', x)], upsets := ups }
    if t1.trip.length < 3 then s.setThread r t1
    else
      match vote t1.trip with
      | (some (w, y), all) =>
        let s := s.setThread r { t1 with trip := [] }
        let s := if all then s else s.addVote r.tile
        done s { t1 with trip := [] } w y
      | (none, _) =>
        let t2 := { (if c.wc && decide (c.thr ≠ 0) then t1.giveBack c.tok c.thr.toNat else t1) with trip := [] }
        (s.setThread r t2).trapHere r t2 cTripNovote
  else done (s.updThread r fun t => t.consumeWait c) t v x

/-- Issue after `withTrip`, which has made the consume. -/
def State.retireT (s : State) (r : TRef) (c : Ctl) : State :=
  (s.updThread r fun t => t.passAt c s.cycle s.nextId).countChunk r

/-- An instruction that computes one value from the thread and writes it after `lat` cycles (05 R117). `mk` names the
registers written. -/
def compute (c : Ctl) (n : Need) (lat : Nat) (f : Thread → DWord) (mk : DWord → List (Reg × Word)) (s : State) : Out :=
  issue c (fun _ => n) (fun r t s =>
    withTrip c r t (f t) 0 (fun s t v _ => (s.retireT r c).fly r lat (mk v) 0 (sigOf c t)) s) s

/-- A register result in the low half. -/
def oneReg (rd : Reg) (v : DWord) : List (Reg × Word) := [(rd, v.lo)]
def ofWord (w : Word) : DWord := DWord.mk w 0

/-- An integer instruction with a word result. -/
def alu (c : Ctl) (reads : List Reg) (rd : Reg) (lat : Nat) (f : Thread → Word) (s : State) : Out :=
  compute c { reads, writes := [rd] } lat (fun t => ofWord (f t)) (oneReg rd) s

/-- An instruction without result that completes in the cycle after issue. -/
def plain (c : Ctl) (n : Thread → Need) (f : TRef → State → State) (s : State) : Out :=
  issue c n (fun r t s => ((f r (s.retire r c)).postNext r (sigOf c t))) s

end Sys2Proof.Machine
end

