-- ==== Sys2Proof/Machine/OpsMem.lean ====
section
/-!
DEFINITION. The named operations over memory: the scratchpad with its ECC, parity and poison (10; 22 R416), the frames
of the homes and their translation (18 R374 to R379), the weight store (18 R361), instruction fetch, and the bytes that
an operation carries with their poison marks.
-/
namespace Sys2Proof.Machine

/-! ### Scratchpad (10) -/

/-- Parity group, bank and row of an offset (10 R258). -/
def spGroup (off : Nat) : Nat := off / 32 % 4
def spBank (off : Nat) : Nat := off / 32 / 4 % 4
def spRow (off : Nat) : Nat := off / 32 / 16
/-- The offset of the granule of a group, bank and row. -/
def spGranule (g b r : Nat) : Nat := 32 * (16 * r + 4 * b + g)

/-- How many bits of a stored word differ from what its code says. -/
def nFlips (m : DWord) : Nat := (List.range 64).countP fun i => m.getLsbD i
def flipsAt (l : Assoc Nat DWord) (w : Nat) : DWord := (l.get? w).getD 0

/-- The retired banks, 4 for parity, of the tile's group. -/
def State.groupOut (s : State) (v : VTile) (g : Nat) : List Nat :=
  (s.bankOut.filter fun e => decide (e.1 = s.physOf v.ltile) && decide (e.2.1 = g)).map fun e => e.2.2

/-- The other three words of a word's group row, and the place of its parity word in VTile.pflips (10 R258). -/
def matesOf (w : Nat) : List Nat :=
  ((List.range 4).filter fun b => decide (b ≠ spBank w)).map fun b => spGranule (spGroup w) b (spRow w) + w % 32
def parityOf (w : Nat) : Nat := 128 * spRow w + 32 * spGroup w + w % 32

/-- A word that the group can rebuild from mates and parity: none of the other three words of the group row, and not the parity
word, is in a retired bank, poisoned or uncorrectable (10 R265, R266). `w` is the word's offset, `out` the retired banks. -/
def VTile.matesGood (v : VTile) (w : Nat) (out : List Nat) : Bool :=
  ((matesOf w).all fun m =>
    !out.contains (spBank m) && !v.poison.contains m && decide (nFlips (flipsAt v.flips m) ≤ 1)) &&
  !out.contains 4 && decide (nFlips (flipsAt v.pflips (parityOf w)) ≤ 1)

/-- Whether a read through the mates of a word corrects one of them, or the parity word. -/
def VTile.matesMend (v : VTile) (w : Nat) : Bool :=
  ((matesOf w).any fun m => decide (nFlips (flipsAt v.flips m) = 1)) || decide (nFlips (flipsAt v.pflips (parityOf w)) = 1)

/-- A row whose last parity update has landed is current, though its entry frees one cycle later: its `due` is 0 (10 R264). -/
def VTile.isStale (v : VTile) (g r : Nat) : Bool :=
  v.stale.any fun e => decide (e.grp = g) && decide (e.row = r) && decide (e.due ≠ 0)
def VTile.hasEntry (v : VTile) (g r : Nat) : Bool := v.stale.any fun e => decide (e.grp = g) && decide (e.row = r)

/-- What a read of one scratchpad word comes to. -/
inductive WordRead where
  | ok
  | mended
  | corrected
  | rebuilt
  | reconFail
  | poison (mark : Bool)
  deriving DecidableEq, Repr

/-- One word read by any port (10 R259, R265, R266; 22 R416): a word of a retired bank comes from its mates and parity. -/
def State.readWord (s : State) (v : VTile) (w : Nat) : WordRead :=
  let out := s.groupOut v (spGroup w)
  if v.poison.contains w then .poison false
  else if out.contains (spBank w) then (if !v.matesGood w out then .reconFail else if v.matesMend w then .mended else .ok)
  else
    let n := nFlips (flipsAt v.flips w)
    if n = 0 then .ok
    else if n = 1 then .corrected
    else if out.contains 4 then .poison true
    else if out = [] ∧ v.isStale (spGroup w) (spRow w) then .poison true
    else if v.matesGood w out then .rebuilt else .reconFail

/-- The words that an extent touches. -/
def wordsIn (off n : Nat) : List Nat :=
  if n = 0 then [] else (List.range ((off + n - 1) / 8 - off / 8 + 1)).map fun i => (off / 8 + i) * 8

/-- What a read of an extent leaves in the tile: corrected and rebuilt words written back, uncorrectable ones poisoned. -/
def VTile.afterRead (v : VTile) (w : Nat) : WordRead → VTile
  | .corrected => { v with flips := v.flips.del w }
  | .rebuilt => { v with flips := v.flips.del w }
  | .poison true => { v with flips := v.flips.del w, poison := setInsert v.poison w }
  | _ => v

/-- The first word of an extent that ends in SPAD_RECON_FAIL or POISON, with the cause. -/
def State.readFails (s : State) (v : VTile) (off n : Nat) : Option (Nat × Nat) :=
  (wordsIn off n).findSome? fun w =>
    match s.readWord v w with
    | .reconFail => some (cSpadReconFail, w)
    | .poison _ => some (cPoison, w)
    | _ => none

/-- The record that names a unit of a tile's bank (23 R431). -/
def State.bankUnit (s : State) (v : VTile) (w : Nat) : RetUnit := ⟨2, s.physOf v.ltile, spGroup w * 4 + spBank w⟩

/-- A unit is due to be retired, for a reason of 23 R431. -/
def State.retireSoon (s : State) (u : RetUnit) (reason : Nat) : State := s.at_ s.cycle (.unitRetire u reason)

/-- How many distinct words of a unit of a kind may be corrected in one boot (23 R434). -/
def correctedLimit (kind : Nat) : Option Nat := if kind = 2 ∨ kind = 3 then some 8 else if kind = 4 then some 64 else none

/-- A corrected word of a unit is counted, once a boot; past the limit the unit is due to be retired (23 R434). -/
def State.sawCorrected (s : State) (u : RetUnit) (w : Nat) : State :=
  if s.corrected.contains (u, w) then s
  else
    let s := { s with corrected := s.corrected ++ [(u, w)] }
    match correctedLimit u.kind with
    | some n => if (s.corrected.filter fun e => decide (e.1 = u)).length = n + 1 then s.retireSoon u 2 else s
    | none => s

/-- A word of a data bank whose single flipped bit a read finds is written back corrected and counted (10 R259). -/
def State.mendWord (s : State) (r : TileRef) (v : VTile) (w : Nat) : State :=
  if nFlips (flipsAt v.flips w) = 1 then
    ((s.updTile r fun v => { v with flips := v.flips.del w }).logQuiet 1 v.ltile 0 (BitVec.ofNat 64 w)).sawCorrected (s.bankUnit v w) w
  else s

/-- A mate as a rebuild finds it: corrected and counted, or uncorrectable, which is logged and retires its bank (22 R413; 23 R434). -/
def State.meetMate (s : State) (r : TileRef) (v : VTile) (w : Nat) : State :=
  if nFlips (flipsAt v.flips w) < 2 then s.mendWord r v w
  else (s.logQuiet 1 v.ltile 2 (BitVec.ofNat 64 w)).retireSoon (s.bankUnit v w) 3

/-- The parity word of a word's row as a read or an update of it finds it: corrected and counted, or uncorrectable, which is logged
and retires its bank (10 R259; 22 R413; 23 R434). -/
def State.mendParity (s : State) (r : TileRef) (v : VTile) (w : Nat) : State :=
  let n := nFlips (flipsAt v.pflips (parityOf w))
  let u : RetUnit := ⟨3, s.physOf v.ltile, spGroup w⟩
  if n = 0 then s
  else if n = 1 then
    ((s.updTile r fun v => { v with pflips := v.pflips.del (parityOf w) }).logQuiet 1 v.ltile 0 (BitVec.ofNat 64 w)).sawCorrected u (parityOf w)
  else (s.logQuiet 1 v.ltile 2 (BitVec.ofNat 64 w)).retireSoon u 3

/-- The parity words of a group row as an update finds them: a flipped bit is corrected and logged (10 R259). -/
def State.parityRead (s : State) (v : TileRef) (t : VTile) (i : Nat) : State :=
  (List.range 4).foldl (fun (s : State) k => s.mendParity v t (spGranule (i % 4) 0 (i / 4) + 8 * k)) s

/-- What a read through the mates and the parity of a word does to them. -/
def State.mendMates (s : State) (r : TileRef) (v : VTile) (w : Nat) : State :=
  ((matesOf w).foldl (fun (s : State) m =>
    if (s.groupOut v (spGroup w)).contains (spBank m) then s else s.meetMate r v m) s).mendParity r v w

/-- The effects of a read of a word on the tile and the error log, and the count of the bank's errors (22 R415; 23 R434). -/
def State.scrubWord (s : State) (r : TileRef) (v : VTile) (w : Nat) : State :=
  let k := s.readWord v w
  let s' := s.updTile r fun v => v.afterRead w k
  match k with
  | .mended => s'.mendMates r v w
  | .corrected => (s'.logQuiet 1 v.ltile 0 (BitVec.ofNat 64 w)).sawCorrected (s.bankUnit v w) w
  | .rebuilt => ((s'.logQuiet 1 v.ltile 1 (BitVec.ofNat 64 w)).retireSoon (s.bankUnit v w) 3).mendMates r v w
  | .poison true => (s'.logQuiet 1 v.ltile 2 (BitVec.ofNat 64 w)).retireSoon (s.bankUnit v w) 3
  | .reconFail =>
    (if (s.groupOut v (spGroup w)).contains (spBank w) then s'
     else (s'.logQuiet 1 v.ltile 2 (BitVec.ofNat 64 w)).retireSoon (s.bankUnit v w) 3).mendMates r v w
  | _ => s'

/-- The same for the words of an extent. -/
def State.scrubExtent (s : State) (r : TileRef) (off n : Nat) : State :=
  (wordsIn off n).foldl (fun s w => match s.tile? r with | none => s | some v => s.scrubWord r v w) s

/-- A consuming read of a scratchpad extent: the bytes, or the cause and word of a consumed error. -/
def State.spadRead (s : State) (r : TileRef) (off n : Nat) : Except (Nat × Nat) (List Byte) × State :=
  match s.tile? r with
  | none => (.ok (List.replicate n 0), s)
  | some v =>
    let s' := s.scrubExtent r off n
    match s.readFails v off n with
    | some e => (.error e, s')
    | none => (.ok (v.spad.readN off n), s')

/-- A write of one word's part: whole writes clear flips and poison; narrower ones keep poison, and rebuild or poison an
uncorrectable word (10 R265). -/
def State.writeWordMarks (s : State) (v : VTile) (w : Nat) (whole : Bool) : VTile :=
  if whole then { v with flips := v.flips.del w, poison := setErase v.poison w }
  else match s.readWord v w with
    | .rebuilt => { v with flips := v.flips.del w }
    | .poison true => { v with flips := v.flips.del w, poison := setInsert v.poison w }
    | .reconFail => { v with flips := v.flips.del w, poison := setInsert v.poison w }
    | _ => v

/-- The words of an extent that are poisoned, or that nothing can rebuild. -/
def State.badWords (s : State) (v : VTile) (off n : Nat) : List Nat :=
  if v.poison = [] ∧ v.flips = [] then []
  else (wordsIn off n).filter fun w => match s.readWord v w with | .poison _ => true | .reconFail => true | _ => false

/-- Undo records of the granules that a write of a chunk changes, newest last (17 R347). -/
def granulesIn (off n : Nat) : List Nat :=
  if n = 0 then [] else (List.range ((off + n - 1) / 32 - off / 32 + 1)).map fun i => (off / 32 + i) * 32

/-- The group rows of an extent, and whether the extent covers one of them whole. -/
def rowsIn (off n : Nat) : List (Nat × Nat) := ((granulesIn off n).map fun g => (spGroup g, spRow g)).eraseDups
def coversRow (off n : Nat) (e : Nat × Nat) : Bool := (List.range 4).all fun b =>
  decide (off ≤ spGranule e.1 b e.2) && decide (spGranule e.1 b e.2 + 32 ≤ off + n)

/-- The group rows that a write leaves stale, in healthy groups (10 R263, R266, R268). A row is written whole in one cycle only
by a requester that moves 512 bytes a cycle: the vector engine, the QRU and the loader move less (07 R175, R196; 08 R205); for a
transfer between tiles or a copy (`burst`) the spec gives no rate, and the model takes either by a free choice (log 43). -/
def State.staleRows (s : State) (v : VTile) (off n : Nat) (burst : Bool := false) : List (Nat × Nat) :=
  (rowsIn off n).filter fun e =>
    decide (s.groupOut v e.1 = []) && !(burst && coversRow off n e && Config.freeBool (s.fresh + 1 + e.2 * 4 + e.1))

/-- The undo records and the written granules that a chunk gains with a write of its own in place: one record for each granule
that the write touches (17 R347). -/
def Chunk.addWrite (c : Chunk) (stamp : Nat) (v : VTile) (vt off n : Nat) (bad : List Nat) : Chunk :=
  let gs := granulesIn off n
  { c with
    undo := c.undo ++ gs.map fun g => Undo.gran stamp g (v.spad.readN g 32) off (off + n) (bad.filter fun w => w / 32 * 32 = g)
    writes := gs.foldl (fun l g => setInsert l (keyLocal vt g)) c.writes }

/-! ### Writes in place and the order of the turns (17 R347, R352, R353)

What a granule holds is what was committed, with the writes of the uncommitted chunks over it in the order in which they were
made; an undo record holds the granule before its write. A chunk's writes join what is committed at its turn, under the writes
that are still uncommitted. -/

/-- An undo record of a granule: its chunk, when it was made, the granule before, the bytes written. -/
structure GranRec where
  lane : TRef
  number : Nat
  stamp : Nat
  old : List Byte
  lo : Nat
  hi : Nat
  deriving DecidableEq, Repr

def insertRec (x : GranRec) : List GranRec → List GranRec
  | [] => [x]
  | y :: l => if x.stamp < y.stamp then x :: y :: l else y :: insertRec x l

/-! #### The tables of the QRU (07 R192, R194) -/

def VTile.qdim (v : VTile) (d : Nat) : QDim := (v.qru.get? d).getD {}

/-- A record's bytes, and the dimension that a record's bytes make of an old one; `short` moves seed and SCR only. -/
def QDim.bytes (q : QDim) (short : Bool) : List Byte :=
  (if short then [] else q.v.toList.flatMap fun w => leBytes w.toNat 4) ++ leBytes q.seed.toNat 4 ++
    leBytes (if q.scr then 1 else 0) 4
def QDim.ofBytes (q : QDim) (short : Bool) (b : List Byte) : QDim :=
  let t := if short then b else b.drop 128
  let word (l : List Byte) (i : Nat) : Word := BitVec.ofNat 32 (leNat ((l.drop (4 * i)).take 4))
  { v := if short then q.v else Vector.ofFn fun i => word b i.val
    seed := word t 0
    scr := (word t 1).getLsbD 0 }

/-! #### Window descriptors (07 R188, R190) -/

/-- A descriptor from its 32 bytes: bits marked zero or ignored are dropped. -/
def Window.ofBytes (b : List Byte) : Window :=
  let ctl := leNat (b.take 4)
  { fmt := ctl % 16, smode := ctl / 16 % 4, rnd := ctl / 64 % 2, ovf := ctl / 128 % 2
    sbase := leNat ((b.drop 4).take 4), len := leNat ((b.drop 8).take 4) % 2 ^ 21 }

def Window.toBytes (w : Window) : List Byte :=
  leBytes (w.fmt + 16 * w.smode + 64 * w.rnd + 128 * w.ovf) 4 ++ leBytes w.sbase 4 ++ leBytes w.len 4 ++ List.replicate 20 0

/-- The window descriptor of a tile, and the one that the WSETs issued so far leave. -/
def VTile.window (v : VTile) (w : Nat) : Window := ((v.win.toList)[w]?).getD {}
def VTile.windowLast (v : VTile) (w : Nat) : Window :=
  match (v.winNext.filter fun e => decide (e.2.1 = w)).getLast? with
  | some e => e.2.2
  | none => v.window w

/-! #### Places -/

/-- Where a dimension's record and a window descriptor stand among the granules. -/
def tableAt (d : Nat) : Nat := 2 ^ 20 + 256 * d
def winPlace (w : Nat) : Nat := 2 ^ 21 + 32 * w

/-- The granule, the dimension or the descriptor of an offset; those of an extent; a byte as it stands. -/
def granuleOf (a : Nat) : Nat := if a < 2 ^ 20 ∨ 2 ^ 21 ≤ a then a / 32 * 32 else a / 256 * 256
def placesIn (off n : Nat) : List Nat := if off < 2 ^ 20 then granulesIn off n else [granuleOf off]
def VTile.placeBytes (v : VTile) (g : Nat) : List Byte :=
  if g < 2 ^ 20 then v.spad.readN g 32
  else if g < 2 ^ 21 then (v.qdim (g % 2 ^ 20 / 256)).bytes false
  else (v.windowLast (g % 2 ^ 21 / 32)).toBytes

/-- The records of a granule of a virtual tile, in the order of their writes. -/
def State.granRecs (s : State) (v : TileRef) (g : Nat) : List GranRec :=
  (s.lanes.filter fun e => decide (e.1.tile = v)).foldl (fun l e => e.2.chunks.foldl (fun l c => c.undo.foldl (fun l u =>
    match u with
    | .gran st a old lo hi _ => if a = g then insertRec ⟨e.1, c.number, st, old, lo, hi⟩ l else l
    | _ => l) l) l) []

def GranRec.covers (x : GranRec) (a : Nat) : Bool := decide (x.lo ≤ a) && decide (a < x.hi)

/-- Gives some records of a granule other old bytes. -/
def State.setOlds (s : State) (v : TileRef) (g : Nat) (l : List GranRec) : State :=
  { s with lanes := s.lanes.map fun e =>
      if e.1.tile = v then
        (e.1, { e.2 with chunks := e.2.chunks.map fun c => { c with undo := c.undo.map fun u =>
          match u with
          | .gran st a old lo hi bad =>
            match l.find? fun x => decide (a = g) && decide (x.stamp = st) && decide (x.lane = e.1) && decide (x.number = c.number) with
            | some x => .gran st a x.old lo hi bad
            | none => .gran st a old lo hi bad
          | u => u } })
      else e }

/-- A write of a turn goes under the uncommitted writes of its granules: the bytes that it leaves in place. -/
def State.underWrites (s : State) (r : TileRef) (v : VTile) (off : Nat) (bs : List Byte) : List Byte × State :=
  let under (l : List GranRec) (x : GranRec) (a i : Nat) : Byte :=
    match (if off ≤ a then bs[a - off]? else none) with
    | some b => if l.any fun y => decide (y.stamp < x.stamp) && y.covers a then (x.old[i]?).getD 0 else b
    | none => (x.old[i]?).getD 0
  let s' := (placesIn off bs.length).foldl (fun (s : State) g =>
    let l := s.granRecs r g
    if l = [] then s
    else s.setOlds r g (l.map fun x => { x with old := x.old.mapIdx fun i _ => under l x (g + i) i })) s
  (bs.mapIdx fun i b =>
    let a := off + i
    if (s.granRecs r (granuleOf a)).any fun x => x.covers a then ((v.placeBytes (granuleOf a))[a - granuleOf a]?).getD 0 else b, s')

/-- Each record with what its granule held after its write. -/
def withAfters (raw : List Byte) : List GranRec → List (GranRec × List Byte)
  | [] => []
  | [x] => [(x, raw)]
  | x :: y :: l => (x, y.old) :: withAfters raw (y :: l)

/-- A granule with the bytes that a write put there. -/
def GranRec.over (x : GranRec) (g : Nat) (after cur : List Byte) : List Byte :=
  cur.mapIdx fun i b => if x.covers (g + i) then (after[i]?).getD 0 else b

/-- The records over a new committed content, and the granule in the end. -/
def rechain (g : Nat) : List Byte → List (GranRec × List Byte) → List GranRec × List Byte
  | cur, [] => ([], cur)
  | cur, (x, a) :: l =>
    let y := rechain g (x.over g a cur) l
    ({ x with old := cur } :: y.1, y.2)

/-- The granules and dimensions that a chunk has written in its tile. -/
def Chunk.granules (c : Chunk) : List Nat :=
  (c.undo.filterMap fun u => match u with | .gran _ a .. => some a | _ => none).eraseDups

/-- The entry of a full table that makes room for a row's. A write that needs an entry while its group has none waits (10 R264): a
scalar one before it issues; an engine's or the MSG port's, whose cycles within its operation the model does not count, until the
oldest entry's update has landed, which may be in any cycle up to 8 after its write (R263; log 43). -/
def crowdedOut (l : List Stale) (e : Nat × Nat) : Option Stale :=
  let mine := l.filter fun x => decide (x.grp = e.1)
  if (mine.any fun x => decide (x.row = e.2)) || decide (mine.length < 16) then none
  else (mine.find? fun x => decide (x.due = 0)).orElse fun _ => mine.head?

/-- The stale-row table after a write that leaves a row stale until `due`. -/
def addStale (due : Nat) (l : List Stale) (e : Nat × Nat) : List Stale :=
  if l.any fun x => decide (x.grp = e.1) && decide (x.row = e.2) then
    l.map fun x => if x.grp = e.1 ∧ x.row = e.2 then { x with due := max x.due due } else x
  else (match crowdedOut l e with | some x => l.erase x | none => l) ++ [Stale.mk e.1 e.2 due]

/-- Data and marks of a raw write; a row that is written whole in one cycle has its parity granule written too. -/
def State.spadData (s : State) (v : VTile) (off : Nat) (bs : List Byte) (rows : List (Nat × Nat)) : VTile :=
  let v1 := (wordsIn off bs.length).foldl (fun v w =>
    s.writeWordMarks v w (decide (off ≤ w) && decide (w + 8 ≤ off + bs.length))) v
  let whole := (rowsIn off bs.length).filter fun e => coversRow off bs.length e && !rows.contains e
  { v1 with
    spad := v1.spad.writeN off bs
    pflips := if whole = [] then v1.pflips else v1.pflips.filter fun e => !whole.contains (e.1 / 32 % 4, e.1 / 128) }

/-- A write outside every chunk joins the writes of the turns taken (17 R352). -/
def State.turnWrote (s : State) (l a n : Nat) : State :=
  if s.isDet l then s.updLaunch l fun ln => { ln with turnWrites := ln.turnWrites ++ [(s.nextId, a, n)] } else s

/-- Whether a page maps an offset of a home for a VD. -/
def Page.has (p : Page) (vd home off : Nat) : Bool :=
  decide (p.vd = vd) && decide (p.home = home) && decide (p.base ≤ off) && decide (off < p.base + p.size)

/-- Whether two pages are one page, or two names of one frame (11 R272). -/
def Page.shares (p q : Page) : Bool :=
  decide (p = q) || (p.remote.isNone && q.remote.isNone && decide (p.home = q.home) && decide (p.frame = q.frame) && decide (p.size = q.size))

/-- The addresses of a VD that name the frame byte of one of its global addresses (11 R272). -/
def State.aliases (s : State) (vd : Nat) (a : Nat) : List Nat :=
  match s.pages.find? fun p => p.has vd (a / 2 ^ 52) (a % 2 ^ 52) with
  | none => [a]
  | some p => (s.pages.filter fun q => decide (q.vd = vd) && q.shares p).map fun q => a - p.base + q.base

/-- The same for a write of n bytes at a global address, under every address that names its bytes. -/
def State.globWrote (s : State) (l a n : Nat) : State :=
  if s.isDet l then (s.aliases (s.vdOf l) a).foldl (fun (s : State) x => s.turnWrote l x n) s else s

/-- Whose write a scratchpad write is in deterministic mode: a chunk's, with its undo records, or a turn's; and the bytes that the
scratchpad itself takes. -/
def State.noteWrite (s : State) (r : TileRef) (v : VTile) (off : Nat) (bs : List Byte) : Option TRef → List Byte × State
  | some w =>
    (bs, if s.isDet w.l then
        { s.updChunk w (fun c => c.addWrite s.nextId v r.v off bs.length (s.badWords v off bs.length)) with nextId := s.nextId + 1 }
      else s)
  | none => if s.isDet r.l then (s.turnWrote r.l (2 ^ 63 + r.v * 2 ^ 20 + off) bs.length).underWrites r v off bs else (bs, s)

/-- The old word under a write, where the write reads it (`reads`): corrected, rebuilt or poisoned as any read finds it, and logged.
The parity of an uncorrectable one is computed anew from all four granules; where it cannot be rebuilt, a retired bank's word of the
row, which only the old parity told, is poisoned (10 R259, R265). `parity` is whether the access updates the parity itself (R266). -/
def State.oldWord (s : State) (r : TileRef) (v : VTile) (w : Nat) (reads parity : Bool) : State :=
  let s := if parity then s.mendParity r v w else s
  if !reads then s
  else
    let s := s.scrubWord r v w
    if nFlips (flipsAt v.flips w) < 2 then s
    else s.updTile r fun x =>
      { x with
        pflips := x.pflips.del (parityOf w)
        poison := ((matesOf w).filter fun m => (s.groupOut v (spGroup w)).contains (spBank m)).foldl setInsert x.poison }

/-- What a write reads of the words that it goes over: those it covers in part, with which it merges; those whose parity is updated
by the difference, which is every one but in a row written whole in one cycle or in an unprotected group (10 R263, R266, R268).
`rows` are the rows that the write leaves stale. -/
def State.readOld (s : State) (r : TileRef) (v : VTile) (off n : Nat) (rows : List (Nat × Nat)) : State :=
  if v.flips = [] ∧ v.pflips = [] then s
  else (wordsIn off n).foldl (fun (s : State) w =>
    match s.tile? r with
    | none => s
    | some v =>
      let out := s.groupOut v (spGroup w)
      let parity := decide (out ≠ []) && !out.contains 4
      s.oldWord r v w (parity || rows.contains (spGroup w, spRow w) || !(decide (off ≤ w) && decide (w + 8 ≤ off + n))) parity) s

/-- A row that a write leaves stale until `due` takes an entry or joins its own; the entry that makes room has its update landed. -/
def State.staleEntry (r : TileRef) (due : Nat) (s : State) (e : Nat × Nat) : State :=
  match s.tile? r with
  | none => s
  | some v =>
    let s := match crowdedOut v.stale e with
      | some x => if x.due = 0 then s else s.parityRead r v (x.row * 4 + x.grp)
      | none => s
    s.updTile r fun v => { v with stale := addStale due v.stale e }

/-- What the tile's engines may still read of bytes that a write overwrites: nothing from now on. -/
def State.dropLags (s : State) (r : TileRef) (v : VTile) (off n : Nat) : State :=
  if v.lag = [] then s else s.updTile r fun v =>
    { v with lag := v.lag.filter fun x => decide (x.off + x.old.length ≤ off) || decide (off + n ≤ x.off) }

/-! ### Releases that locations hold (11 R279) -/

/-- The key of a scratchpad byte in State.marks. -/
def spadKey (v : TileRef) (off : Nat) : Nat := 2 ^ 100 + v.l * 2 ^ 50 + v.v * 2 ^ 20 + off

def Mark.meets (m : Mark) (key n : Nat) : Bool := decide (m.key < key + n) && decide (key < m.key + m.size)
/-- The releases that some bytes hold. -/
def State.marksAt (s : State) (key n : Nat) : List Mark := s.marks.filter fun m => m.meets key n
/-- A release within some bytes; what of it lies outside them. -/
def Mark.clip (m : Mark) (key n : Nat) : Mark :=
  { m with key := max m.key key, size := min (m.key + m.size) (key + n) - max m.key key }
def Mark.cut (m : Mark) (key n : Nat) : List Mark :=
  if m.meets key n then
    ([(m.key, key), (key + n, m.key + m.size)].filter fun q => decide (q.1 < q.2)).map fun q => { m with key := q.1, size := q.2 - q.1 }
  else [m]
def cutMarks (l : List Mark) (key n : Nat) : List Mark := l.flatMap fun m => m.cut key n

/-- What some bytes hold after a write: the releases that it leaves, in place of the old ones, or beside them when it is an atomic's
(R279). -/
def State.leaveMarks (s : State) (key n : Nat) (leaves : List Mark) (keep : Bool) : State :=
  { s with marks := (if keep then s.marks else cutMarks s.marks key n) ++ leaves }

/-- The release that a write is, as its bytes hold it. -/
def markOf (r : TRef) (key n : Nat) (g : Option Gift) : List Mark := (g.map fun g => ({ key, size := n, src := r, gift := g } : Mark)).toList

/-- The data, the marks and the stale rows of a write. -/
def State.spadRaw (s : State) (r : TileRef) (off : Nat) (bs : List Byte) (burst : Bool := false) : State :=
  match s.tile? r with
  | none => s
  | some v =>
    let rows := s.staleRows v off bs.length burst
    let s := (s.readOld r v off bs.length rows).dropLags r v off bs.length
    let due := s.cycle + 1 + s.draw.1 % 8
    let s := rows.foldl (State.staleEntry r due) (rows.foldl (fun (s : State) e => s.at_ due (.parityUpdate r (e.2 * 4 + e.1))) s.draw.2)
    s.updTile r fun v0 => s.spadData v0 off bs rows

/-- A raw write to a scratchpad: data, marks, and stale rows with the cycle of their parity update, at most 8 after
(10 R263). `who` is the thread whose chunk keeps the undo records, if any. -/
def State.spadWrite (s : State) (r : TileRef) (off : Nat) (bs : List Byte) (who : Option TRef := none) (burst : Bool := false) : State :=
  match s.tile? r with
  | none => s
  | some v => ((s.noteWrite r v off bs who).2.leaveMarks (spadKey r off) bs.length [] false).spadRaw r off (s.noteWrite r v off bs who).1 burst

/-- A CORE write of number `id` to a scratchpad, with the release that it is: it is there at once for CORE; engines may go on reading
what it replaces, by a free choice, until something orders it before them (07 R187; 11 R287). -/
def State.coreWrite (s : State) (dst : TileRef) (off : Nat) (bs : List Byte) (id : Nat) (leaves : List Mark) (keep : Bool)
    (who : Option TRef) : State :=
  let held := if keep then (s.marksAt (spadKey dst off) bs.length).map fun m => m.clip (spadKey dst off) bs.length else []
  if s.isDet dst.l then s.spadWrite dst off bs who
  else
    let v := (s.tile? dst).getD {}
    let (d, s) := s.draw
    let new : Lag := { stamp := id, off, old := v.spad.readN off bs.length }
    ((s.spadWrite dst off bs who).updTile dst fun x => { x with lag := v.lag.drop (d % (v.lag.length + 1)) ++ [new] }).leaveMarks
      (spadKey dst off) bs.length (held ++ leaves) true

/-- A CORE store of a thread to its tile's own scratchpad. -/
def State.coreStore (s : State) (r : TRef) (off : Nat) (bs : List Byte) (gives : Option Gift := none) : State :=
  if s.isDet r.l then s.spadWrite r.tile off bs (some r)
  else { s.coreWrite r.tile off bs s.nextId (markOf r (spadKey r.tile off) bs.length gives) false (some r) with nextId := s.nextId + 1 }

/-- The scratchpad without some of the latest CORE writes, newest first: those that do not happen before the reader, by a free choice
for each, but for one that a later write goes over which is there. -/
def withoutLags (view : List Nat) : Nat → List Lag → List Lag → Memory → Memory
  | _, [], _, m => m
  | k, x :: l, kept, m =>
    if view.contains x.stamp || !Config.freeBool k ||
        kept.any (fun y => decide (y.off < x.off + x.old.length) && decide (x.off < y.off + y.old.length)) then
      withoutLags view (k + 1) l (x :: kept) m
    else withoutLags view (k + 1) l kept (m.writeN x.off x.old)

/-- What an engine may see of a scratchpad for an operation of which `view` happens before. -/
def VTile.lagged (v : VTile) (view : List Nat) (k : Nat) : Memory := withoutLags view k v.lag.reverse [] v.spad

/-- Whether a scalar write must be held because a group's stale-row table is full (10 R264). -/
def State.staleFull (s : State) (v : VTile) (off n : Nat) : Bool :=
  (s.staleRows v off n).any fun e =>
    !v.hasEntry e.1 e.2 && decide ((v.stale.filter fun x => x.grp = e.1).length ≥ 16)

/-- Marks scratchpad words poisoned (carried poison, 22 R416). -/
def State.spadPoison (s : State) (r : TileRef) (ws : List Nat) : State :=
  s.updTile r fun v => { v with poison := ws.foldl setInsert v.poison }

/-- Bytes that move raw, each with the poison of its word. -/
abbrev Carried := List (Byte × Bool)

/-- A raw read that consumes nothing: bytes with poison marks; or SPAD_RECON_FAIL (10 R265; 22 R416). -/
def State.spadCarry (s : State) (r : TileRef) (off n : Nat) : Except (Nat × Nat) Carried × State :=
  match s.tile? r with
  | none => (.ok (List.replicate n (0, false)), s)
  | some v =>
    let s' := s.scrubExtent r off n
    match (wordsIn off n).find? fun w => s.readWord v w = .reconFail with
    | some w => (.error (cSpadReconFail, w), s')
    | none =>
      (.ok ((List.range n).map fun i =>
        (v.spad.read (off + i),
          match s.readWord v ((off + i) / 8 * 8) with | .poison _ => true | _ => false)), s')

/-- The words of an extent that receive a poisoned byte. -/
def poisonedWords (off : Nat) (bs : Carried) : List Nat :=
  ((List.range bs.length).filter fun i => ((bs[i]?).map Prod.snd).getD false).map fun i => (off + i) / 8 * 8

/-- The words that lie wholly in some extents. -/
def wholeWords (l : List (Nat × Nat)) : List Nat :=
  l.flatMap fun e => (wordsIn e.1 e.2).filter fun w => decide (e.1 ≤ w) && decide (w + 8 ≤ e.1 + e.2)

/-- An operation has written some extents of a scratchpad, in pieces: the words that it wrote whole are clear of poison, but for
those of `bad`, into which it carried it (10 R265; 22 R416). -/
def State.settleWords (s : State) (r : TileRef) (l : List (Nat × Nat)) (bad : List Nat) : State :=
  s.updTile r fun v =>
    if v.poison = [] then v
    else { v with poison := v.poison.filter fun w => bad.contains w || !(wholeWords l).contains w }

def State.spadPut (s : State) (r : TileRef) (off : Nat) (c : Carried) (who : Option TRef := none) (burst : Bool := false) : State :=
  (s.spadWrite r off (c.map Prod.fst) who burst).spadPoison r (poisonedWords off c)

/-! ### Homes: pages and frames (18 R374 to R379) -/

def hbmKey (home frameOff : Nat) : Nat := home * 2 ^ 36 + frameOff

/-- The mapping of an offset of a home, for a VD. -/
def State.page? (s : State) (vd home off : Nat) : Option Page := s.pages.find? fun p => p.has vd home off

def State.updPage (s : State) (vd home base : Nat) (f : Page → Page) : State :=
  { s with pages := s.pages.map fun p => if p.vd = vd ∧ p.home = home ∧ p.base = base then f p else p }

/-- The move of a page's frame. -/
def State.moveOf? (s : State) (p : Page) : Option Move :=
  if p.remote.isSome then none else s.moves.find? fun m => decide (m.home = p.home) && decide (m.frame = p.frame)

/-- Where a read of an offset is served while its page may be moving (18 R379): the key in State.hbm. -/
def State.readKey (s : State) (p : Page) (off : Nat) : Nat :=
  let d := off - p.base
  match s.moveOf? p with
  | some m => if d / 256 < m.cursor then hbmKey p.home (m.newFrame + d) else hbmKey p.home (p.frame + d)
  | none => hbmKey p.home (p.frame + d)

/-- Where a write goes: one key, or both frames for a sector already copied (18 R379). -/
def State.writeKeys (s : State) (p : Page) (off : Nat) : List Nat :=
  let d := off - p.base
  match s.moveOf? p with
  | some m =>
    if d / 256 < m.cursor then [hbmKey p.home (m.newFrame + d), hbmKey p.home (p.frame + d)]
    else [hbmKey p.home (p.frame + d)]
  | none => [hbmKey p.home (p.frame + d)]

/-- A byte of a resident page. -/
def State.pageByte (s : State) (p : Page) (off : Nat) : Byte := s.hbm.read (s.readKey p off)
def State.pageWrite (s : State) (p : Page) (off : Nat) (b : Byte) : State :=
  { s with hbm := (s.writeKeys p off).foldl (fun m k => m.write k b) s.hbm }
def State.pageBytes (s : State) (p : Page) (off n : Nat) : List Byte := (List.range n).map fun i => s.pageByte p (off + i)
def State.pageWriteN (s : State) (p : Page) (off : Nat) : List Byte → State
  | [] => s
  | b :: bs => (s.pageWrite p off b).pageWriteN p (off + 1) bs

/-- The place of a byte of a page in its frame, for State.hist and State.marks. -/
def Page.key (p : Page) (off : Nat) : Nat := hbmKey p.home (p.frame + (off - p.base))

/-- The contents of a frame go to another place: so do its earlier writes and the releases that it holds. -/
def State.rekey (s : State) (k to_ size : Nat) : State :=
  let at_ (x : Nat) : Nat := if k ≤ x ∧ x < k + size then to_ + (x - k) else x
  { s with hist := s.hist.map fun h => { h with key := at_ h.key, marks := h.marks.map (fun m => { m with key := at_ m.key })
                                                leaves := h.leaves.map fun m => { m with key := at_ m.key } }
           marks := s.marks.map fun m => { m with key := at_ m.key } }
/-- The place of a frame's contents while the firmware keeps them. -/
def awayKey (home frame : Nat) : Nat := 2 ^ 110 + hbmKey home frame

/-- The pseudo-channel group of a frame offset (23 R431, R434). -/
def pcGroup (home off : Nat) : RetUnit := ⟨4, home, off / 2 ^ 30⟩

/-- A read of a word by a home: a single flipped bit is corrected and logged, an uncorrectable word is marked poisoned
and logged (22 R415 SRC 10, R416); the group's errors are counted (23 R434). -/
def State.homeScrub (s : State) (home k : Nat) : State :=
  let k := k / 8 * 8
  let n := nFlips (flipsAt s.hbmFlips k)
  let off := k % 2 ^ 36
  if n = 0 then s
  else if n = 1 then
    (({ s with hbmFlips := s.hbmFlips.del k }).logQuiet 10 home 0 (BitVec.ofNat 64 off)).sawCorrected (pcGroup home off) off
  else
    (({ s with hbmFlips := s.hbmFlips.del k, hbmPoison := setInsert s.hbmPoison k }).logQuiet 10 home 2
      (BitVec.ofNat 64 off)).retireSoon (pcGroup home off) 3

/-- Whether a word of a page is poisoned, or its ECC finds it uncorrectable (22 R416). -/
def State.pagePoisoned (s : State) (p : Page) (off : Nat) : Bool :=
  let w := s.readKey p off / 8 * 8
  s.hbmPoison.contains w || decide (nFlips (flipsAt s.hbmFlips w) ≥ 2)

/-- The marks after a write of an extent of a page: whole words lose them; a narrower write reads the word that it merges with. -/
def State.pageMarks (s : State) (p : Page) (off n : Nat) : State :=
  (wordsIn off n).foldl (fun s w =>
    (s.writeKeys p (max w p.base)).foldl (fun s k =>
      let k := k / 8 * 8
      let whole := decide (off ≤ w) && decide (w + 8 ≤ off + n)
      if whole then { s with hbmPoison := setErase s.hbmPoison k, hbmFlips := s.hbmFlips.del k } else s.homeScrub p.home k) s) s

/-- A write of bytes to a page with its marks. -/
def State.pageStore (s : State) (p : Page) (off : Nat) (bs : List Byte) : State :=
  (s.pageMarks p off bs.length).pageWriteN p off bs

/-- A write to a page, with its marks, the releases that it leaves, and its place in State.hist, from which a free choice drops the
oldest ones (11 R277, R279, R285); `h` tells whose it is. -/
def State.pageStoreBy (s : State) (p : Page) (off : Nat) (bs : List Byte) (h : Past) : State :=
  let k := p.key off
  let n := bs.length
  let new : Past := { h with
    key := k, old := s.pageBytes p off n, new := bs, marks := (s.marksAt k n).map fun m => m.clip k n }
  { (s.pageStore p off bs).leaveMarks k n h.leaves h.keep with
    hist := s.hist.drop (Config.freeNat s.fresh % (s.hist.length + 1)) ++ [new]
    fresh := s.fresh + 1 }

/-- A write of an operation: one that the home orders among its stores and atomics, or an engine's. -/
def Op.writes (o : Op) (ids : List Nat) (core : Bool) : Past := { ids, key := 0, old := [], new := [], view := o.view, tile := o.tile, core }
/-- A write of the device or of the host: nothing happens before it, and no operation of a thread is it. -/
def devicePast : Past := { ids := [], key := 0, old := [], new := [], tile := ⟨2 ^ 64 + 2, 0⟩ }

/-- Every number of State.hist. -/
def State.histIds (s : State) : List Nat := (s.hist.flatMap Past.ids).eraseDups

/-- A frame whose contents come anew: no read returns what stood there. -/
def State.forget (s : State) (key n : Nat) : State :=
  { s with hist := s.hist.filter fun h => !(decide (key ≤ h.key) && decide (h.key < key + n))
           marks := cutMarks s.marks key n }

/-- The poison that carried bytes bring. -/
def State.pagePoison (s : State) (p : Page) (ws : List Nat) : State :=
  ws.foldl (fun s w => (s.writeKeys p w).foldl (fun s k => { s with hbmPoison := setInsert s.hbmPoison (k / 8 * 8) }) s) s

/-- The same for extents of a page. -/
def State.settlePage (s : State) (p : Page) (l : List (Nat × Nat)) (bad : List Nat) : State :=
  if s.hbmPoison = [] then s
  else
    let keys := ((wholeWords l).filter fun w => !bad.contains w).flatMap fun w => (s.writeKeys p w).map fun k => k / 8 * 8
    { s with hbmPoison := s.hbmPoison.filter fun k => !keys.contains k }

/-- Outcomes of a translation (18 R376; 21 R405). -/
inductive Xlate where
  | ok (p : Page)
  | nomap
  | prot
  | notResident (p : Page)
  | remote (p : Page)
  deriving DecidableEq, Repr

def State.xlate (s : State) (vd home off : Nat) (rd wr : Bool) : Xlate :=
  match s.page? vd home off with
  | none => .nomap
  | some p =>
    if (rd && !p.rd) || (wr && !p.wr) then .prot
    else if p.remote.isSome then .remote p
    else if p.resident then .ok p else .notResident p

/-! #### Pages of other modules (21 R405, R406) -/

/-- The module id and the ports of route r (R406), less those that are OFF. -/
def State.routeOf (s : State) (r : Nat) : Nat × List Nat :=
  let e (i : Nat) : Word := ((s.route.toList)[4 * r + i]?).getD 0
  ((e 0).extractLsb' 0 16 |>.toNat,
   (List.range 64).filter fun p => (e (p / 16)).getLsbD (16 + p % 16) &&
     decide (((s.ports.toList)[p]?).map Port.width ≠ some 0))
def State.routeEmpty (s : State) (r : Nat) : Bool :=
  (List.range 4).all fun i => decide ((((s.route.toList)[4 * r + i]?).getD 0).extractLsb' 16 16 = 0)

/-- The port for a page of a module: none when no route matches or none of its ports is left. -/
def State.portFor (s : State) (modId page : Nat) : Option Nat :=
  match (List.range 256).find? fun r => !s.routeEmpty r && decide ((s.routeOf r).1 = modId) with
  | none => none
  | some r =>
    let ps := (s.routeOf r).2
    if ps = [] then none else ps[Config.portHash page % ps.length]?

/-- Where an access to a global address of a VD ends (18 R376; 21 R405): at a page, with the offset at its home; at one whose
frame is away; with a fault; at another module, by a port. -/
inductive Reach where
  | ok (p : Page) (off : Nat)
  | wait (p : Page) (off : Nat)
  | fault (cause : Nat)
  | far (port : Nat)
  deriving DecidableEq, Repr

/-- A REMOTE page needs SYS, a route and a port; one whose module is this one ends at its page here. -/
def State.reach (s : State) (vd home off : Nat) (rd wr : Bool) : Reach :=
  match s.xlate vd home off rd wr with
  | .nomap => .fault cMemNomap
  | .prot => .fault cMemProt
  | .ok p => .ok p off
  | .notResident p => .wait p off
  | .remote p =>
    if !(s.vdRec vd).scope.getLsbD 1 then .fault cScopeDenied
    else match p.remote with
      | none => .fault cMemNomap
      | some (m, rvd, raddr) =>
        match s.portFor m (p.base / 65536) with
        | none => .fault cMemNomap
        | some port =>
          if m ≠ s.modid.toNat then .far port
          else match Addr.of (BitVec.ofNat 64 (raddr + (off - p.base))) with
            | .glob h o =>
              (match s.xlate rvd h o rd wr with
               | .nomap => .fault cMemNomap
               | .prot => .fault cMemProt
               | .ok q => .ok q o
               | .notResident q => .wait q o
               | .remote _ => .far port)
            | _ => .far port

/-! #### The TLB (18 R374, R375) -/

/-- The base of the page of an address, or of its 64 KiB when it has none. -/
def State.pageBase (s : State) (vd home off : Nat) : Nat :=
  ((s.page? vd home off).map Page.base).getD (off / 65536 * 65536)

/-- An entry enters the TLB of a home: its bank has 256, and a full one loses one of them, by a free choice (18 R374). -/
def tlbBankOf (e : Nat × Nat × Nat) : Nat := Config.tlbBank e.1 e.2.2 % 32
def State.fillTlb (s : State) (e : Nat × Nat × Nat) : State :=
  let same := s.tlb.filter fun x => decide (x.2.1 = e.2.1) && decide (tlbBankOf x = tlbBankOf e)
  if same.length < 256 then { s with tlb := s.tlb ++ [e] }
  else { s with tlb := (s.tlb.filter fun x => decide (some x ≠ same[Config.freeNat s.fresh % 256]?)) ++ [e], fresh := s.fresh + 1 }

/-- The lookup of an access of an engine or of the host, whose walk is part of the time before it is performed (log 61). -/
def State.lookup (s : State) (vd home off : Nat) : State :=
  match s.page? vd home off with
  | none => s
  | some p => if s.tlb.contains (vd, home, p.base) then s else s.fillTlb (vd, home, p.base)

/-- A global byte of a VD as the device reads it for its own purposes, with no effect: none when it cannot be read. What another
module answers is free (log 10). -/
def State.greadByte (s : State) (vd a : Nat) : Option Byte :=
  match Addr.of (BitVec.ofNat 64 a) with
  | .glob home off =>
    match s.reach vd home off true false with
    | .ok p o => some (s.pageByte p o)
    | .far _ => some (Config.farByte s.fresh a)
    | _ => none
  | _ => none
def State.gread (s : State) (vd : Nat) (a : DWord) (n : Nat) : Option (List Byte) :=
  (List.range n).mapM fun i => s.greadByte vd (a.toNat + i)

/-- Bytes that the device writes for itself at a page, which holds them while its frame is away. -/
def State.pageKeep (s : State) (p : Page) (off : Nat) (bs : List Byte) : State :=
  { s.forget (awayKey p.home p.frame) p.size with pages := s.pages.map fun q => if q.shares p then { q with saved := q.saved.writeN (off - p.base) bs } else q }

/-- A global write of the device itself (completion and escalation records, ring entries, the host's window): page by page, where
one is mapped. Bytes for another module change nothing here. -/
def gwriteN : Nat → Nat → Nat → List Byte → State → State
  | 0, _, _, _, s => s
  | fuel + 1, vd, a, bs, s =>
    match bs, Addr.of (BitVec.ofNat 64 a) with
    | [], _ => s
    | bs, .glob home off =>
      let room := match s.page? vd home off with | some p => p.base + p.size - off | none => 256 - off % 256
      match s.reach vd home off false false with
      | .ok q o =>
        let n := min room (q.base + q.size - o)
        gwriteN fuel vd (a + n) (bs.drop n) (s.pageStoreBy q o (bs.take n) devicePast)
      | .wait q o =>
        let n := min room (q.base + q.size - o)
        gwriteN fuel vd (a + n) (bs.drop n) (s.pageKeep q o (bs.take n))
      | _ => gwriteN fuel vd (a + room) (bs.drop room) s
    | _, _ => s
def State.gwrite (s : State) (vd : Nat) (a : DWord) (bs : List Byte) : State := gwriteN bs.length vd a.toNat bs s

/-! ### Frames (18 R379; 23 R434) -/

/-- A page cut into 64 KiB pages over the same frames. -/
def splitPage (p : Page) : List Page :=
  (List.range (p.size / 65536)).map fun i =>
    { p with base := p.base + i * 65536, size := 65536, frame := p.frame + i * 65536
             saved := (p.saved.filter fun c => decide (i * 65536 ≤ c.1 ∧ c.1 < (i + 1) * 65536)).map fun c => (c.1 - i * 65536, c.2)
             remote := p.remote.map fun x => (x.1, x.2.1, x.2.2 + i * 65536) }
/-- The page of an offset is cut so, under each of its names. -/
def State.splitAt (s : State) (vd home off : Nat) : State :=
  match s.page? vd home off with
  | none => s
  | some p =>
    if p.size ≤ 65536 then s
    else { s with pages := s.pages.flatMap fun q => if q.shares p then splitPage q else [q]
                  tlb := s.tlb.filter fun e => !(s.pages.any fun q => q.shares p && decide (e = (q.vd, q.home, q.base))) }

/-- Whether a range of frames lies outside the area for misses of its home (18 R375). -/
def State.missClear (s : State) (home f n : Nat) : Bool :=
  (((s.missArea.toList)[home]?).map fun a => decide (f + n ≤ a) || decide (a + 2 ^ 26 ≤ f)).getD true
/-- Whether a range of frames of a home exists, outside retired groups, the frames that moves fill and the area for misses (18 R375). -/
def State.frameUsable (s : State) (home f n : Nat) : Bool :=
  decide (f + n ≤ 2 ^ 36) &&
  s.missClear home f n &&
  (s.moves.all fun m => !decide (m.home = home) || decide (m.newFrame + 65536 ≤ f) || decide (f + n ≤ m.newFrame)) &&
  s.pcgOut.all fun e => !decide (e.1 = home) || decide ((e.2 + 1) * 2 ^ 30 ≤ f) || decide (f + n ≤ e.2 * 2 ^ 30)
/-- A frame that no page uses; and one that a page may be mapped to: it is free, or a page of the same size has it, which stays a name of
the same frame (11 R272). -/
def State.frameFree (s : State) (home f n : Nat) : Bool :=
  s.frameUsable home f n &&
  s.pages.all fun p => !decide (p.home = home) || decide (p.frame + p.size ≤ f) || decide (f + n ≤ p.frame)
def State.frameShared (s : State) (home f n : Nat) : Bool :=
  s.frameUsable home f n &&
  s.pages.all fun p => !decide (p.home = home) || decide (p.frame + p.size ≤ f) || decide (f + n ≤ p.frame) ||
    (decide (p.frame = f) && decide (p.size = n) && p.resident && (s.moveOf? p).isNone)
/-- A free frame, by a free choice among the candidates that follow pages in use. -/
def State.pickFrame (s : State) (home n : Nat) : Option Nat :=
  let c := 0 :: (s.pages.filter fun p => decide (p.home = home)).map (fun p => (p.frame + p.size + n - 1) / n * n) ++
    s.pcgOut.map fun e => (e.2 + 1) * 2 ^ 30
  let l := c.filter fun f => s.frameFree home f n
  l[Config.freeNat s.fresh % max 1 l.length]?

/-! ### The weight store (18 R361; 23 R434) -/

def wsKey (fld slice off : Nat) : Nat := fld * 2 ^ 29 + slice * 2 ^ 23 + off

/-- The active slices of a field. -/
def State.activeSlices (s : State) (fld : Nat) : List Nat := (List.range 64).filter fun i => !s.sliceOut.contains (fld, i)

/-- The slices of a pool's partition that exist in a field (18 R361). -/
def State.partition (s : State) (pool fld : Nat) : List Nat :=
  let p := s.poolRec pool
  ((s.activeSlices fld).drop p.wsbase).take p.wsn

/-- The key of a weight-space offset for a pool in a field; none beyond the active capacity (02 R47). -/
def State.wsAt (s : State) (pool fld off : Nat) : Option Nat :=
  ((s.partition pool fld)[off / 2 ^ 23]?).map fun sl => wsKey fld sl (off % 2 ^ 23)

def State.wsPoisoned (s : State) (k : Nat) : Bool :=
  s.wsPoison.contains (k / 8 * 8) || decide (nFlips (flipsAt s.wsFlips (k / 8 * 8)) ≥ 2)

def State.wsCarry (s : State) (pool fld off n : Nat) : Carried :=
  (List.range n).map fun i =>
    match s.wsAt pool fld (off + i) with
    | some k => (s.ws.read k, s.wsPoisoned k)
    | none => (0, false)

/-- The eDRAM row of a word: 8,192 rows of 1 KiB a slice (23 R431: WHERE bits 5:0 slice, 28:16 row; log 22). -/
def wsRow (k : Nat) : RetUnit := ⟨6, k / 2 ^ 29, k / 2 ^ 23 % 64 + k % 2 ^ 23 / 1024 * 2 ^ 16⟩

/-- A read of words of the weight store: a flipped bit is corrected, an uncorrectable word is poisoned and its row is due to
be retired (22 R415 SRC 9; 23 R434). -/
def State.wsScrubWord (s : State) (k : Nat) : State :=
  let n := nFlips (flipsAt s.wsFlips k)
  if n = 0 then s
  else if n = 1 then ({ s with wsFlips := s.wsFlips.del k }).logQuiet 9 (k / 2 ^ 29) 0 (BitVec.ofNat 64 (k % 2 ^ 29))
  else
    (({ s with wsFlips := s.wsFlips.del k, wsPoison := setInsert s.wsPoison k }).logQuiet 9 (k / 2 ^ 29) 2
      (BitVec.ofNat 64 (k % 2 ^ 29))).retireSoon (wsRow k) 3
def State.wsScrub (s : State) (pool fld off n : Nat) : State :=
  (wordsIn off n).foldl (fun (s : State) w =>
    match s.wsAt pool fld w with
    | some k => s.wsScrubWord (k / 8 * 8)
    | none => s) s

/-- The field of a virtual tile's present place. -/
def State.tileField (s : State) (v : TileRef) : Nat := fieldOf (s.physOf (((s.tile? v).map VTile.ltile).getD 0))

def State.tilePool (s : State) (v : TileRef) : Nat := (s.vdRec (s.vdOf v.l)).pool

/-! ### Instruction fetch (12 R295) -/

/-- What the fetch of a word at an address gives. -/
inductive Fetch where
  | word (w : DWord)
  | fail (cause : Nat)
  | away (p : Page)
  deriving DecidableEq, Repr

/-- Fetches a word for a VD: from global memory with the read right, as its home holds the bytes now (a line of the
instruction cache that is older than a store is no part of the model; log 15); BAD_TARGET at an unaligned address; SPACE_INVALID
at one that names no space (02 R47). A page that is not resident makes the fetch wait at its home; what another module answers is
free (log 10). A local, remote, weight or host address holds no instructions: BAD_TARGET is the model's choice (log 16). -/
def State.fetchWord (s : State) (vd : Nat) (a : DWord) : Fetch :=
  if a.toNat % 8 ≠ 0 then .fail cBadTarget
  else match Addr.of a with
    | .glob home off =>
      match s.reach vd home off true false with
      | .ok p o => .word (BitVec.ofNat 64 (leNat (s.pageBytes p o 8)))
      | .fault c => .fail c
      | .wait p _ => .away p
      | .far _ => .word (BitVec.ofNat 64 (leNat ((List.range 8).map fun i => Config.farByte s.fresh (a.toNat + i))))
    | .bad => .fail cSpaceInvalid
    | _ => .fail cBadTarget

/-- The prefix words that stand at an address. -/
def State.prefixesAt (s : State) (l : Nat) : Nat → DWord → Nat
  | 0, _ => 0
  | n + 1, a =>
    match s.fetchWord (s.vdOf l) a with
    | .word w => if isPrefixOp (opOf w) then 1 + s.prefixesAt l n (a + 8) else 0
    | _ => 0

/-- The word of the prefix sequence at an address whose page is not resident, if there is one. -/
def State.prefixAway (s : State) (l : Nat) (a : DWord) : Option DWord :=
  let b := a + BitVec.ofNat 64 (8 * s.prefixesAt l 64 a)
  match s.fetchWord (s.vdOf l) b with
  | .away _ => some b
  | _ => none

/-- The instruction word at a thread's pc, after its prefixes (12 R301); zero where it cannot be read. -/
def State.nextWord (s : State) (r : TRef) (t : Thread) : DWord :=
  let n := s.prefixesAt r.l 64 t.pc
  match s.fetchWord (s.vdOf r.l) (t.pc + BitVec.ofNat 64 (8 * n)) with
  | .word w => w
  | _ => 0

/-! ### Parts of engine operations (11 R274) -/

/-- A range without another. -/
def cutRange (c q : Nat × Nat) : List (Nat × Nat) :=
  [(q.1, min q.2 c.1), (max q.1 c.2, q.2)].filter fun x => decide (x.1 < x.2)

/-- The ranges of the first n numbers that some ranges leave out. -/
def leftRanges (n : Nat) (parts : List (Nat × Nat)) : List (Nat × Nat) :=
  parts.foldl (fun l c => l.flatMap (cutRange c)) (if n = 0 then [] else [(0, n)])

/-- A piece of one of some ranges, by a free choice. -/
def freePart (l : List (Nat × Nat)) (k : Nat) : Option (Nat × Nat) :=
  (l[Config.freeNat k % max 1 l.length]?).map fun q =>
    let a := q.1 + Config.freeNat (k + 1) % (q.2 - q.1)
    (a, a + 1 + Config.freeNat (k + 2) % (q.2 - a))

/-- An extent cut at the 8-byte words: the first byte and the length of each piece. -/
def wordPieces (off n : Nat) : List (Nat × Nat) := (wordsIn off n).map fun w => (max w off, min (w + 8) (off + n) - max w off)

/-- Ascending numbers as ranges. -/
def toRanges : List Nat → List (Nat × Nat)
  | [] => []
  | i :: l => match toRanges l with
    | (a, b) :: r => if a = i + 1 then (i, b) :: r else (i, i + 1) :: (a, b) :: r
    | [] => [(i, i + 1)]

def inRanges (l : List (Nat × Nat)) (i : Nat) : Bool := l.any fun q => decide (q.1 ≤ i) && decide (i < q.2)

/-- The address of a byte of the scratchpad through the window that a short address names (12 R304). -/
def viaWindow (w : Word) (off : Nat) : DWord := localAddr (w.extractLsb' 21 3).toNat off

/-- The header-target check of a taken transfer (03 R69; 09 R251): a target at which no header word stands, or in a space that
holds no instructions, is bad; one whose page is unmapped or protected is not checked. -/
def State.badTarget (s : State) (l : Nat) (a : DWord) : Bool :=
  if a.toNat % 8 ≠ 0 then true
  else match s.fetchWord (s.vdOf l) a with
    | .word w => decide (opOf w ≠ 0xFF)
    | .fail c => decide (c ≠ cMemNomap) && decide (c ≠ cMemProt) && decide (c ≠ cScopeDenied)
    | .away _ => false

/-- Whether the check has to wait for the target's page. -/
def State.targetAway (s : State) (l : Nat) (a : DWord) : Bool :=
  match s.fetchWord (s.vdOf l) a with
  | .away _ => true
  | _ => false

end Sys2Proof.Machine
end

