-- ==== Sys2Proof/Machine/OpsThread.lean ====
section
/-!
DEFINITION. The shared operations on threads and on the operations they have in flight: slots (05 R447), launching an
operation, its landing (02 R38; 06 R150), reports, what a thread waits for, eviction (12 R300), exit (05 R137).
-/
namespace Sys2Proof.Machine

/-! ### Slots (05 R447) -/

/-- The threads in a tile's thread table. -/
def State.tileThreads (s : State) (v : TileRef) : List (TRef × Thread) := s.threads.filter fun e => decide (e.1.tile = v)

def State.slotTaken (s : State) (v : TileRef) (i : Nat) : Bool := (s.tileThreads v).any fun e => decide (e.2.slot = some i)
def State.lowestSlot (s : State) (v : TileRef) : Option Nat := (List.range 16).find? fun i => !s.slotTaken v i

/-- A mailbox of a tile, and its replacement. -/
def VTile.box (v : VTile) (mb : Nat) : List Msg := ((v.mbox.toList)[mb]?).getD []
def VTile.setBox (v : VTile) (mb : Nat) (l : List Msg) : VTile :=
  { v with mbox := v.mbox.mapIdx fun i b => if i = mb then l else b }

/-- The thread blocked in RECV on a mailbox that issued its RECV first. -/
def State.firstRecv (s : State) (v : TileRef) (mb : Nat) : Option (TRef × Thread × Nat × Ctl × Reg × Reg) :=
  (s.tileThreads v).foldl (fun (b : Option (TRef × Thread × Nat × Ctl × Reg × Reg)) e =>
    match e.2.run with
    | .recv m q c pd gi =>
      if m = mb then
        match b with
        | none => some (e.1, e.2, q, c, pd, gi)
        | some x => if q < x.2.2.1 then some (e.1, e.2, q, c, pd, gi) else b
      else b
    | _ => b) none

/-- Whether a thread's RECV may be performed: its mailbox holds an entry, and no thread blocks on it before this one. -/
def State.recvMay (s : State) (r : TRef) (t : Thread) : Bool :=
  match t.run with
  | .recv mb .. => decide (((s.tile? r.tile).getD {}).box mb ≠ []) && decide ((s.firstRecv r.tile mb).map Prod.fst = some r)
  | _ => false

/-- Whether a thread without a slot waits for one: it is ready, or its RECV, which a home's report took out of its slot, may be
performed in free mode. -/
def State.wantsSlot (s : State) (r : TRef) (t : Thread) : Bool :=
  decide (t.slot = none) && (decide (t.run = .ready) || (!s.isDet r.l && !t.evictDue && s.recvMay r t))

/-- The thread that waits for a slot since the longest time. -/
def State.nextReady (s : State) (v : TileRef) : Option TRef :=
  ((s.tileThreads v).filter fun e => s.wantsSlot e.1 e.2).foldl
    (fun (b : Option (TRef × Nat)) e => match b with
      | none => some (e.1, e.2.readySeq)
      | some x => if e.2.readySeq < x.2 then some (e.1, e.2.readySeq) else b) none |>.map Prod.fst

/-- LIVE of a header word, and a thread that keeps the registers of a mask: the others hold zero afterwards (03 R68). -/
def liveMask (w : DWord) : BitVec 16 := w.extractLsb' 34 16
def Thread.keepLive (t : Thread) (m : BitVec 16) : Thread :=
  { t with g := Vector.ofFn fun i => if m.getLsbD i.val then t.g[i] else 0 }

/-- A thread whose pc is at a header's address without the registers that are not live (03 R68). -/
def State.liveOnly (s : State) (r : TRef) (t : Thread) : Thread :=
  match s.fetchWord (s.vdOf r.l) t.pc with
  | .word w => if opOf w = 0xFF then t.keepLive (liveMask w) else t
  | _ => t

/-- The registers that a save keeps: all of them, or the live ones when the pc is a header's address (03 R68). -/
def State.savedThread (s : State) (r : TRef) (t : Thread) : Thread :=
  s.liveOnly r { t with block := none, arrive := 0, cycleLatch := none, skipTurn := false, trip := [] }

/-- A newcomer's context misses may push out the lines of the threads of its tile that have been marked evictable: a free choice
for each (05 R135; 12 R300 THREAD_EVICT). One that has a slot gives it to another ready thread, and waits for one. -/
def State.pushOut (s : State) (v : TileRef) : State :=
  (s.tileThreads v).foldl (fun (s : State) e =>
    if e.2.evictable ∧ e.2.quiet ∧ e.2.run = .ready ∧ e.2.trip = [] ∧ !e.2.stopped then
      let d := s.draw
      if d.1 % 2 = 1 then
        { d.2.setThread e.1 { d.2.savedThread e.1 e.2.awake with
            evictable := false, slot := none, readySeq := if e.2.slot = none then e.2.readySeq else d.2.nextId }
          with nextId := d.2.nextId + 1 }
      else d.2
    else s) s

/-- Threads that wait for a slot take the free slots, in the order in which they became ready; in deterministic mode
each takes the slot that its lane binds (17 R344). -/
def fillSlotsN : Nat → TileRef → State → State
  | 0, _, s => s
  | n + 1, v, s =>
    match s.nextReady v, s.lowestSlot v with
    | some r, some i =>
      fillSlotsN n v ((s.updThread r fun t =>
        { t with slot := some (if s.isDet v.l then t.lane.toNat % 16 else i), evictable := false }).pushOut v)
    | _, _ => s
def State.fillSlots (s : State) (v : TileRef) : State :=
  fillSlotsN 16 v (if (s.nextReady v).isSome ∧ s.lowestSlot v = none then s.pushOut v else s)

/-- A slot frees and goes to the next ready thread. -/
def State.freeSlot (s : State) (r : TRef) : State :=
  (s.updThread r fun t => { t with slot := none, cycleLatch := none }).fillSlots r.tile

/-- Whether a home holds an access of a thread for a page that is not resident (06 R149). -/
def State.awaitsPage (s : State) (r : TRef) : Bool :=
  s.ops.any fun e => decide (e.2.t = r) && decide (e.2.phase = .heldNR) && decide (e.2.prog = 1)

/-- Whether every operation that will still write a register of a thread is over, parked or held (02 R42; 06 R149; 16
R333). A fault whose report finds no room does not keep the thread, whose queue only its turns can drain (log 30). -/
def State.pendClear (s : State) (r : TRef) : Bool :=
  s.ops.all fun e => !(decide (e.2.t = r) && decide (e.2.regs ≠ []) && !e.2.buffered) ||
    (match e.2.phase with | .done => true | .held => true | .parked => true | .faulted => !s.reportRoom r | .heldNR => decide (e.2.prog = 1) | _ => false)

/-- A thread becomes ready: it takes a slot or waits for one; one with an access held for a page stays evicted. -/
def State.makeReady (s : State) (r : TRef) : State :=
  if s.awaitsPage r then s.updThread r fun t => { t with run := .evicted }
  else ({ s.updThread r (fun t => { t with run := .ready, readySeq := s.nextId, evictDue := false }) with nextId := s.nextId + 1 }).fillSlots r.tile

/-! ### Operations in flight -/

def pendOf (l : List Reg) : BitVec 16 := l.foldl (fun m r => m ||| (1 <<< r.toNat)) 0

/-- Whether an operation is still to be performed: also a faulted access that its home holds until RETT (06 R148, R153). -/
def Op.open_ (o : Op) : Bool :=
  match o.phase with
  | .performed => false | .reply => false | .done => false | _ => true

/-- Whether it is on its way, and no home holds it with its report. -/
def Op.busy (o : Op) : Bool := o.open_ && decide (o.phase ≠ .held)

def State.openOps (s : State) (p : Nat × Op → Bool) : List Nat := (s.ops.filter fun e => e.2.open_ && p e).map Prod.fst

/-- The number of a lane's newest chunk. -/
def State.chunkNo (s : State) (r : TRef) : Nat := ((s.lanes.get? r).map fun l => l.number + l.chunks.length - 1).getD 0

/-- The track of an operation: the operations of one path order of 11 R276. Those of CORE, of the vector engine, of the MTX path and of
the QRU keep it; COPY, MSG and the transfers of VEC do not, but for messages to one destination, which arrive in order. -/
def Op.track (o : Op) : Fin 7 :=
  match o.path, o.cls with
  | .core, _ => 0 | .vec, .vector => 1 | .mtx, _ => 2 | .copy, _ => 3 | .msg, _ => 4 | .vec, .qru => 5 | .vec, _ => 6
def Op.inOrder (o : Op) : Bool := decide (o.track = 0) || decide (o.track = 1) || decide (o.track = 2) || decide (o.track = 5)
def pathIdx : Path → Fin 5 | .core => 0 | .vec => 1 | .mtx => 2 | .copy => 3 | .msg => 4

/-- The numbers that are still those of something: an operation, a write of State.hist, a write that engines may not see yet. -/
def State.liveIds (s : State) (l : List Nat) : List Nat :=
  if l = [] then []
  else l.filter fun i => (s.op? i).isSome || s.hist.any (fun h => h.ids.contains i) ||
    s.vtiles.any fun e => e.2.lag.any fun x => decide (x.stamp = i)

/-- What happens before an operation that a thread issues now (11 R282, R283). -/
def State.viewOf (s : State) (o : Op) : List Nat :=
  if s.isDet o.tile.l then []
  else match s.thread? o.t with
    | none => []
    | some t => s.liveIds (joinIds t.before[pathIdx o.path] (if o.inOrder then t.past[o.track] else []))
/-- The operation joins what its thread has issued. -/
def Thread.noteOp (t : Thread) (k : Fin 7) (l : List Nat) : Thread := { t with past := t.past.set k (joinIds t.past[k] l) }
def State.issued (s : State) (r : TRef) (k : Fin 7) (id : Nat) (view : List Nat) : State :=
  if s.isDet r.l then s
  else s.updThread r fun t =>
    { t with before := t.before.map s.liveIds, past := t.past.map s.liveIds, posted := t.posted.map s.liveIds }.noteOp k (id :: view)

/-- A CORE access that issues without an operation of its own, such as one of the tile's scratchpad, of number `id` if it writes: what
follows it on CORE, or waits for its post, follows what came before it. -/
def State.coreEvent (s : State) (r : TRef) (id : Option Nat) (g : Option Sig) : State :=
  if s.isDet r.l then s
  else
    let s := match id with | some i => s.issued r 0 i [] | none => s
    match g, s.thread? r with
    | some g, some t => if t.coreView = [] then s else s.updThread r fun t => t.notePost g.tok t.coreView
    | _, _ => s

/-- What a release of a thread's CORE path hands over without being a write of a location (11 R278). -/
def State.coreGift (s : State) (r : TRef) (sc : Scope) (ids : List Nat) : Option Gift :=
  if s.isDet r.l then none
  else (s.thread? r).map fun t => { scope := sc, ops := s.liveIds t.coreView ++ ids, stamp := t.acqStamp }

/-- What happens before all that a thread does from now on (11 R278). -/
def State.allViewOf (s : State) (r : TRef) : List Nat := ((s.thread? r).map Thread.allView).getD []

/-- Hands an operation to its unit: a number, PEND bits for the registers it will write (02 R38), what happens before it, and, in
deterministic mode, its chunk; `buffered` operations wait for the commit (17 R347). -/
def State.launchOp (s : State) (o : Op) : State :=
  let id := s.nextId
  let view := s.viewOf o
  let s := { s with ops := s.ops ++ [(id, { o with born := s.cycle, after := o.after.filter fun i => (s.op? i).isSome,
                                                   chunk := s.chunkNo o.t, view })],
                    nextId := s.nextId + 1 }
  let s := (s.updThread o.t fun t => { t with pend := t.pend ||| pendOf o.regs }).issued o.t o.track id view
  if s.isDet o.tile.l then
    s.updChunk o.t fun c =>
      if o.buffered then { c with buffered := c.buffered ++ [s.nextId - 1] } else c
  else s

/-- The PEND bits that the other operations of a thread still hold. -/
def State.pendOthers (s : State) (r : TRef) (id : Nat) : BitVec 16 :=
  s.ops.foldl (fun m e => if e.2.t = r ∧ e.1 ≠ id ∧ e.2.phase ≠ .done ∧ e.2.phase ≠ .held then m ||| pendOf e.2.regs
    else m) 0

/-- Clears the PEND bits of registers that no other operation of the thread will write. -/
def State.clearPend (s : State) (r : TRef) (id : Nat) (l : List Reg) : State :=
  s.updThread r fun t => { t with pend := (t.pend &&& ~~~ pendOf l) ||| (t.pend &&& s.pendOthers r id) }

/-- An operation completes: its registers are written and their PEND bits clear, its signal posts in the same cycle
(02 R38), and it is gone. A thread that has exited receives nothing (02 R36). -/
def State.completeOp (s : State) (id : Nat) : State :=
  match s.op? id with
  | none => s
  | some o =>
    let s := { s.updThread o.t (fun t => t.longWrites s.nextId o.res) with nextId := s.nextId + 1 }
    let l := id :: o.view
    (((s.clearPend o.t id o.regs).postBy o.t l o.sig).postBy o.t l o.gbar).dropOp id

/-- A report for a thread that has exited, or is gone, is counted in the completion record (06 R148; 12 R301, R302; 21 R397). -/
def State.lateReport (s : State) (r : TRef) (p : Report) : State :=
  let late : Launch → Launch := fun ln =>
    { ln with
      nlate := min (ln.nlate + 1) 0xFFFFFFFF
      latea := if ln.nlate = 0 then p.tval else ln.latea
      latew := if ln.nlate = 0 then BitVec.ofNat 32 (p.cause + r.v * 256) else ln.latew }
  if ((s.launch? r.l).map Launch.dying).getD true then s
  else (s.updLaunch r.l late).updTile r.tile fun v => { v with fx := v.fx.filter fun e => some e.seq ≠ p.fxSeq }

/-- Adds a report to a thread's queue, or counts it. In deterministic mode the queue is in program order (17 R448). -/
def State.addReport (s : State) (r : TRef) (p : Report) : State :=
  match s.thread? r with
  | none => s.lateReport r p
  | some t =>
    if t.run = .exited then s.lateReport r p
    else
      let p := { p with stamp := s.nextId }
      let older := t.reports.filter fun q => decide (q.poNum ≤ p.poNum)
      let newer := t.reports.filter fun q => !decide (q.poNum ≤ p.poNum)
      s.setThread r { t with reports := if s.isDet r.l then older ++ p :: newer else t.reports ++ [p] }

/-- The first-exception record's order: `a` is lower than `b` when it is the older (12 R302). -/
def fxAge (n s : Nat) : Nat := (n + 2 ^ 32 - s % 2 ^ 32) % 2 ^ 32
def fxInsert (n : Nat) (l : List FxEnt) (e : FxEnt) : List FxEnt :=
  let older := l.filter fun x => decide (fxAge n x.seq > fxAge n e.seq)
  let newer := l.filter fun x => !decide (fxAge n x.seq > fxAge n e.seq)
  older ++ e :: newer

/-- The sequence most recently accepted; entries whose age has reached 2^31 drop out of the record (12 R302). -/
def VTile.newest (v : VTile) : Nat := (v.issueSeq - 1).toNat
def VTile.ageFx (v : VTile) : VTile :=
  let kept := v.fx.filter fun x => decide (fxAge v.newest x.seq < 2 ^ 31)
  { v with fx := kept, fxOvf := v.fxOvf || decide (kept.length < v.fx.length) }

/-- A faulted engine operation enters the tile's first-exception record (12 R302): of nine entries the one with the highest sequence
is displaced, or not entered; nor is one whose age has reached 2^31. -/
def VTile.addFx (v : VTile) (e : FxEnt) : VTile :=
  if 2 ^ 31 ≤ fxAge v.newest e.seq then { v with fxOvf := true }
  else
    let l := fxInsert v.newest v.fx e
    { v with fx := l.take 8, fxOvf := v.fxOvf || decide (l.length > 8) }

/-! ### What threads wait for -/

/-- Operations of a thread on any path that are not yet performed, or still owe it something (06 R168 step 2). -/
def State.drained (s : State) (r : TRef) : Bool :=
  s.ops.all fun e => !(decide (e.2.t = r) && (e.2.open_ || s.owes r e.2) && decide (e.2.phase ≠ .held) &&
    decide (e.2.phase ≠ .done))

/-- Whether an operation only brings its thread a value. -/
def Op.loads (o : Op) : Bool :=
  match o.cls, o.ins with
  | .globalLoad, _ => true | .localAq, _ => true | .weight, _ => true | .mpoll, _ => true | .pageFetch, _ => true
  | .remote, .ld .. => true | .remote, .ldp .. => true | .remote, .ldaq .. => true
  | _, _ => false

/-- Whether an operation is a store, an atomic, a message, a transfer or an engine operation, which a lead's EXIT waits for (05 R137):
group operations and migrations travel as messages, and a launch's ring entry is a store. -/
def Op.lasts (o : Op) : Bool :=
  match o.cls with
  | .globalStore => true | .globalAtomic => true | .localStore => true | .localAtomic => true | .remote => !o.loads
  | .send => true | .transfer => true | .xfer => true | .vector => true | .qru => true | .oload => true | .array => true
  | .group => true | .copy => true | .launchQ => true | .migrate => true
  | _ => false

/-- None of these of the tile's threads is still under way (05 R137); a message in a park queue is complete (06 R161), and so is for
this an access that a home holds with its report delivered, which EXIT discards. -/
def State.tileQuiet (s : State) (v : TileRef) : Bool :=
  s.ops.all fun e => !(decide (e.2.tile = v) && e.2.lasts && decide (e.2.phase ≠ .done) && decide (e.2.phase ≠ .held) &&
    !decide (e.2.cls = .send ∧ e.2.phase = .parked))

def State.othersExited (s : State) (v : TileRef) (r : TRef) : Bool :=
  (s.tileThreads v).all fun e => decide (e.1 = r) || decide (e.2.run = .exited)

/-- What the lead's EXIT waits for (05 R137). A lead's own threads that are away count as not exited. -/
def State.exitClear (s : State) (r : TRef) : Bool :=
  s.tileQuiet r.tile && s.othersExited r.tile r &&
  s.threads.all fun e => !(decide (e.1.l = r.l) && e.2.away && decide (e.2.homev.toNat = r.v) &&
    decide (e.2.run ≠ .exited)) 

/-- The name under which the operations of a thread that has exited go on: no thread bears it, and its index modulo 64
is the thread's. -/
def ghost (r : TRef) : TRef := { r with th := r.th + 64 }

/-- Takes away what a thread's operations would still write or post (02 R36; 05 R137). -/
def State.orphan (s : State) (r : TRef) : State :=
  { s with ops := (s.ops.filter fun e => !(decide (e.2.t = r) && decide (e.2.phase = .done))).map fun e =>
      if e.2.t = r then (e.1, { e.2 with t := ghost r, sig := none, regs := [], res := [], gbar := none }) else e }

/-- The writes of a launch in State.hist. In deterministic mode they come from its commits in their order, each before what follows. -/
def State.histOf (s : State) (l : Nat) : List Nat := ((s.hist.filter fun h => decide (h.tile.l = l)).flatMap Past.ids).eraseDups

/-- What comes before a triggering mark, or before an end of one of a launch's threads, comes before what its dependents do after their
LWAITs (09 R246, R247; 11 R278). -/
def State.noteTrig (s : State) (l : Nat) (ids : List Nat) : State :=
  let ids := if s.isDet l then s.histOf l else s.liveIds ids
  if ids = [] then s else { s with trigs := s.trigs.set l (joinIds ((s.trigs.get? l).getD []) ids) }

/-- A thread other than the lead exits (05 R137): its image stays until REAP, its slot goes to the next ready thread,
the lead's token is posted if SPAWN asked for it. -/
def State.exitThread (s : State) (r : TRef) (t : Thread) : State :=
  let s := t.held.foldl (fun s h => s.discardHeld r h.op) s
  let s := t.reports.foldl (fun s p => s.lateReport r p) s
  let s := s.updThread r fun t =>
    { t with exitedF := true, run := .exited, pend := 0, inflight := [], reports := [], slot := none }
  let s := ((s.noteTrig r.l t.allView).orphan r).fillSlots r.tile
  if t.sigEn then
    match s.leadOf r.l t.homev.toNat with
    | some q =>
      if s.isDet r.l then s.updLane q fun l => { l with posts := l.posts ++ [(t.sigTok, 1)] }
      else s.postSig q ⟨t.sigTok, 1, 0⟩
    | none => s
  else s

/-- A thread whose results have landed is evicted to its image (12 R300): the slot is given away; at a header the registers that
are not live are lost (03 R68). -/
def State.evict (s : State) (r : TRef) (why : Run) : State :=
  match s.thread? r with
  | none => s
  | some t => ((s.setThread r { s.savedThread r t.awake with run := why, slot := none })).fillSlots r.tile

/-- A thread for which a home holds an access leaves its slot once its results have landed and PEND is clear but for that
access (02 R42; 06 R149; 12 R300). A TRIP follower completes its three turns; a held MMG keeps its thread in its slot (08 R224);
a RECV stays blocked in the image (06 R162); a latched instruction is abandoned (12 R299). -/
def State.tryEvict (s : State) (r : TRef) : State :=
  match s.thread? r with
  | none => s
  | some t =>
    if !t.evictDue ∨ t.slot = none then s
    else if !s.awaitsPage r then s.updThread r fun t => { t with evictDue := false }
    else if t.inflight ≠ [] ∨ (t.trip ≠ [] ∧ t.run = .ready) ∨ !s.pendClear r then s
    else match t.run with
      | .ready => s.evict r .evicted
      | .latch _ => s.evict r .evicted
      | .latched => s.evict r .evicted
      | .lwait none => s.evict r .evicted
      | .recv .. => s.evict r t.run
      | _ => s

/-- A thread whose fetch meets a page that is not resident: the home holds the fetch, and the thread is evicted (12 R295, R300;
18 R377). -/
def State.fetchAway (s : State) (r : TRef) (a : DWord) : State :=
  ((s.launchOp { t := r, tile := r.tile, vd := s.vdOf r.l, cls := .pageFetch, ins := .illegalOp 0, ea := a, phase := .heldNR
                 prog := 1 }).updThread r fun t => { t.awake with evictDue := true }).tryEvict r

/-- Whether a thread is in its slot and neither stopped nor gone. -/
def Thread.inSlot (t : Thread) : Bool := t.slot.isSome

end Sys2Proof.Machine
end

