-- ==== Sys2Proof/Machine/Control.lean ====
section
/-!
DEFINITION. Transfers of control, time and thread control, codes 0x40 to 0x4D (05 R130 to R138). EXIT of the lead
finishes a virtual tile, in Gangs.lean.
-/
namespace Sys2Proof.Machine

/-- A taken transfer: the pc, and the two cycles before the next issue (05 R133). -/
def State.jump (s : State) (r : TRef) (a : DWord) : State :=
  s.updThread r fun t => { t with pc := a, arrive := 1, block := none, refetchUntil := s.cycle + 2 }

/-- The target of an F-B word (05 R130). -/
def Thread.target (t : Thread) (c : Ctl) (off : BitVec 24) : DWord := t.wordAddr c + BitVec.ofInt 64 (8 * c.imm off)

/-- Makes a transfer after its header check, or traps BAD_TARGET at the instruction (03 R69). The check waits for a page that is
not resident, as a fetch does (18 R377). -/
def State.transfer (s : State) (r : TRef) (t : Thread) (c : Ctl) (a : DWord) (after : State → State) : State :=
  if s.badTarget r.l a then s.trapHere r t cBadTarget a
  else if s.targetAway r.l a then s.fetchAway r a
  else after ((s.retire r c).jump r a)

def execBr (c : Ctl) (off : BitVec 24) (s : State) : Out :=
  issue c (fun _ => {}) (fun r t s => s.transfer r t c (t.target c off) fun s => s.postNext r (sigOf c t)) s

/-- BZ and BNZ: the condition is voted under TRIP (03 R72). -/
def branchOn (c : Ctl) (pair : Bool) (ra : Reg) (off : BitVec 24) (want : DWord → Bool) (s : State) : Out :=
  issue c (fun _ => { pairs := if pair then [ra] else [], reads := if pair then [ra, Reg.hi ra] else [ra] })
    (fun r t s =>
      let v := if pair then t.pair ra else (t.reg ra).setWidth 64
      let bad := s.badTarget r.l (t.target c off)
      if !c.hasTrip && want v && bad then s.trapHere r t cBadTarget (t.target c off)
      else if want v && decide (t.trip = []) && s.targetAway r.l (t.target c off) then s.fetchAway r (t.target c off)
      else withTrip c r t (if want v then 1 else 0) 0 (fun s t w _ =>
        if w = 0 then (s.retireT r c).postNext r (sigOf c t)
        else if bad then
          let t' := if c.wc ∧ c.thr ≠ 0 then t.giveBack c.tok c.thr.toNat else t
          (s.setThread r t').trapHere r t' cBadTarget (t.target c off)
        else ((s.retireT r c).jump r (t.target c off)).postNext r (sigOf c t)) s) s

def execBz (c : Ctl) (pair : Bool) (ra : Reg) (off : BitVec 24) (s : State) : Out :=
  branchOn c pair ra off (fun v => decide (v = 0)) s
def execBnz (c : Ctl) (pair : Bool) (ra : Reg) (off : BitVec 24) (s : State) : Out :=
  branchOn c pair ra off (fun v => decide (v ≠ 0)) s

def execLoop (c : Ctl) (ra : Reg) (off : BitVec 24) (s : State) : Out :=
  issue c (fun _ => { reads := [ra], writes := [ra] }) (fun r t s =>
    let n := t.reg ra - 1
    if n = 0 then (s.retire r c).fly r 2 [(ra, n)] 0 (sigOf c t)
    else s.transfer r t c (t.target c off) fun s => s.fly r 2 [(ra, n)] 0 (sigOf c t)) s

/-- A call word is the last of its block (05 R131); a thread without a current block has no block to hold it to. -/
def Thread.lastInBlock (t : Thread) (c : Ctl) : Bool :=
  match t.block with
  | some (h, len) => decide (t.wordAddr c + 8 = h + BitVec.ofNat 64 (8 * (len + 1)))
  | none => true

def callTo (c : Ctl) (n : Need) (f : Thread → DWord) (s : State) : Out :=
  issue c (fun _ => n) (fun r t s =>
    let ra := t.wordAddr c + 8
    if !t.lastInBlock c then s.trapHere r t cBadTarget ra
    else s.transfer r t c (f t) fun s => s.fly r 2 (pairWrites 14 ra) 0 (sigOf c t)) s

def execCall (c : Ctl) (off : BitVec 24) (s : State) : Out :=
  callTo c { writes := [14, 15] } (fun t => t.target c off) s
def execCallr (c : Ctl) (ra : Reg) (s : State) : Out :=
  callTo c { pairs := [ra], reads := [ra, Reg.hi ra], writes := [14, 15] } (fun t => t.pair ra) s
def jumpTo (c : Ctl) (n : Need) (f : Thread → DWord) (s : State) : Out :=
  issue c (fun _ => n) (fun r t s => s.transfer r t c (f t) fun s => s.postNext r (sigOf c t)) s
def execRet (c : Ctl) (s : State) : Out := jumpTo c { reads := [14, 15] } (fun t => t.pair 14) s
def execJmpr (c : Ctl) (ra : Reg) (s : State) : Out :=
  jumpTo c { pairs := [ra], reads := [ra, Reg.hi ra] } (fun t => t.pair ra) s

def execPca (c : Ctl) (ra : Reg) (off : BitVec 24) (s : State) : Out :=
  issue c (fun _ => { pairs := [ra], writes := [ra, Reg.hi ra] }) (fun r t s =>
    (s.retire r c).fly r 2 (pairWrites ra (t.target c off)) 0 (sigOf c t)) s

/-- DLY (05 R134): a count of n cycles of ineligibility beside GAP. -/
def execDly (c : Ctl) (imm : BitVec 24) (s : State) : Out :=
  plain c (fun _ => {}) (fun r s => s.updThread r fun t => { t with dlyUntil := s.cycle + 1 + (c.imm imm).toNat }) s

/-- YIELD (05 R135): in free mode the slot goes to a ready thread without one, or the next turn is skipped, and the thread's
context lines may be pushed out (12 R300). -/
def execYield (c : Ctl) (s : State) : Out :=
  plain c (fun _ => {}) (fun r s =>
    if s.isDet r.l then s
    else match s.nextReady r.tile with
      | some q =>
        let slot := (s.thread? r).bind Thread.slot
        let s := s.updThread r fun t => { t with slot := none, readySeq := s.nextId, cycleLatch := none, evictable := true }
        ({ s.updThread q (fun t => { t with slot, evictable := false }) with nextId := s.nextId + 1 }).pushOut r.tile
      | none => s.updThread r fun t => { t with skipTurn := true, evictable := true }) s

def execWait (c : Ctl) (s : State) : Out := plain c (fun _ => {}) (fun _ s => s) s

/-- BKPT (05 R138; 12 R305): with capture armed the thread stops at it; stepped from there it issues without a trap;
otherwise it traps. -/
def execBkpt (c : Ctl) (imm : BitVec 24) (s : State) : Out :=
  issue c (fun _ => {}) (fun r t s =>
    let armed := ((s.launch? r.l).map Launch.armed).getD false
    if t.bkptPass ∨ (armed ∧ t.stopped) then (s.retire r c).postNext r (sigOf c t)
    else if armed then s.updThread r fun t => { t with stopped := true, bkptPass := true, block := none }
    else s.trapHere r t cBkpt (BitVec.ofInt 64 (c.imm imm))) s

end Sys2Proof.Machine
end

