-- ==== Sys2Proof/Machine/Integer.lean ====
section
/-!
DEFINITION. The integer instructions, codes 0x01 to 0x2B (05 R116 to R124).
-/
namespace Sys2Proof.Machine

/-- Rotation left (05 R117). -/
def rolW (a : Word) (n : Nat) : Word := (a <<< n) ||| (a >>> (32 - n))
/-- Leading zeros, from 0 to 32. -/
def clzW (a : Word) : Word :=
  BitVec.ofNat 32 (((List.range 32).find? fun i => a.getLsbD (31 - i)).getD 32)
def popcW (a : Word) : Word := BitVec.ofNat 32 ((List.range 32).countP fun i => a.getLsbD i)
def brevW (a : Word) : Word := a.reverse
def bswapW (a : Word) : Word :=
  a.extractLsb' 0 8 ++ a.extractLsb' 8 8 ++ a.extractLsb' 16 8 ++ a.extractLsb' 24 8

/-- Clamping sums and differences (05 R120). -/
def satW (k : Sat) (i : Int) : Word :=
  match k with
  | .sgn => BitVec.ofInt 32 (max (-2 ^ 31) (min (2 ^ 31 - 1) i))
  | .uns => BitVec.ofInt 32 (max 0 (min (2 ^ 32 - 1) i))
def satVal (k : Sat) (a : Word) : Int :=
  match k with
  | .sgn => a.toInt
  | .uns => a.toNat

/-- Bits of the signed and unsigned products. -/
def mulhW (a b : Word) : Word := BitVec.ofInt 32 (a.toInt * b.toInt / 2 ^ 32)
def mulhuW (a b : Word) : Word := BitVec.ofNat 32 (a.toNat * b.toNat / 2 ^ 32)

/-- Quotient and remainder for b ≠ 0 (05 R119). -/
def divW (a b : Word) : Word := if a = 0x80000000 ∧ b = 0xFFFFFFFF then 0x80000000 else BitVec.ofInt 32 (a.toInt.tdiv b.toInt)
def remW (a b : Word) : Word := if a = 0x80000000 ∧ b = 0xFFFFFFFF then 0 else BitVec.ofInt 32 (a.toInt.tmod b.toInt)

/-- HASH (05 R122). -/
def hashW (a b : Word) : Word :=
  let h := a ^^^ b
  let h := h ^^^ (h >>> 16)
  let h := h * 0x2C1B3C6D
  let h := h ^^^ (h >>> 15)
  let h := h * 0x297A2D39
  h ^^^ (h >>> 16)

/-- EXTB and INSB (05 R121), with the width less one. -/
def fieldMask (pos w1 : BitVec 5) : Word := BitVec.ofNat 32 ((2 ^ (w1.toNat + 1) - 1) * 2 ^ pos.toNat)
def extbW (sgn : Bool) (a : Word) (pos w1 : BitVec 5) : Word :=
  let v := (a &&& fieldMask pos w1) >>> pos.toNat
  if sgn && v.getLsbD w1.toNat then v ||| ~~~(fieldMask 0 w1) else v
def insbW (d a : Word) (pos w1 : BitVec 5) : Word :=
  (d &&& ~~~(fieldMask pos w1)) ||| ((a <<< pos.toNat) &&& fieldMask pos w1)

/-- A two-source instruction with one word result. -/
def alu2 (c : Ctl) (rd ra rb : Reg) (lat : Nat) (f : Word → Word → Word) (s : State) : Out :=
  alu c [ra, rb] rd lat (fun t => f (t.reg ra) (t.reg rb)) s
def alu1 (c : Ctl) (rd ra : Reg) (lat : Nat) (f : Word → Word) (s : State) : Out :=
  alu c [ra] rd lat (fun t => f (t.reg ra)) s
/-- The 32 bits of an immediate (03 R71). -/
def imm32 (c : Ctl) (imm : BitVec 24) : Word := BitVec.ofInt 32 (c.imm imm)
def aluImm (c : Ctl) (rd ra : Reg) (imm : BitVec 24) (f : Word → Word → Word) (s : State) : Out :=
  alu c [ra] rd 2 (fun t => f (t.reg ra) (imm32 c imm)) s

/-- A division: INT_DIV0 is precise, with the dividend in TVAL (05 R119). L is 18 (02 R40). -/
def divide (c : Ctl) (rd ra rb : Reg) (f : Word → Word → Word) (s : State) : Out :=
  issue c (fun _ => { reads := [ra, rb], writes := [rd] }) (fun r t s =>
    if t.reg rb = 0 then
      let t' := { (if t.trip ≠ [] && c.wc && decide (c.thr ≠ 0) then t.giveBack c.tok c.thr.toNat else t) with trip := [] }
      (s.setThread r t').trapHere r t' cIntDiv0 ((t.reg ra).setWidth 64)
    else withTrip c r t (ofWord (f (t.reg ra) (t.reg rb))) 0
      (fun s t v _ => (s.retireT r c).fly r 18 (oneReg rd v) 0 (sigOf c t)) s) s

def execAdd (c : Ctl) (rd ra rb : Reg) (s : State) : Out := alu2 c rd ra rb 2 (fun a b => a + b) s
def execSub (c : Ctl) (rd ra rb : Reg) (s : State) : Out := alu2 c rd ra rb 2 (fun a b => a - b) s
def execMul (c : Ctl) (rd ra rb : Reg) (s : State) : Out := alu2 c rd ra rb 4 (fun a b => a * b) s
def execMulh (c : Ctl) (rd ra rb : Reg) (s : State) : Out := alu2 c rd ra rb 4 mulhW s
def execMulhu (c : Ctl) (rd ra rb : Reg) (s : State) : Out := alu2 c rd ra rb 4 mulhuW s
def execDiv (c : Ctl) (rd ra rb : Reg) (s : State) : Out := divide c rd ra rb divW s
def execDivu (c : Ctl) (rd ra rb : Reg) (s : State) : Out := divide c rd ra rb (fun a b => a / b) s
def execRem (c : Ctl) (rd ra rb : Reg) (s : State) : Out := divide c rd ra rb remW s
def execRemu (c : Ctl) (rd ra rb : Reg) (s : State) : Out := divide c rd ra rb (fun a b => a % b) s
def execAnd (c : Ctl) (rd ra rb : Reg) (s : State) : Out := alu2 c rd ra rb 2 (fun a b => a &&& b) s
def execOr (c : Ctl) (rd ra rb : Reg) (s : State) : Out := alu2 c rd ra rb 2 (fun a b => a ||| b) s
def execXor (c : Ctl) (rd ra rb : Reg) (s : State) : Out := alu2 c rd ra rb 2 (fun a b => a ^^^ b) s
def execAndn (c : Ctl) (rd ra rb : Reg) (s : State) : Out := alu2 c rd ra rb 2 (fun a b => a &&& ~~~b) s
def execShl (c : Ctl) (rd ra rb : Reg) (s : State) : Out := alu2 c rd ra rb 2 (fun a b => a <<< (b.toNat % 32)) s
def execShr (c : Ctl) (rd ra rb : Reg) (s : State) : Out := alu2 c rd ra rb 2 (fun a b => a >>> (b.toNat % 32)) s
def execSar (c : Ctl) (rd ra rb : Reg) (s : State) : Out := alu2 c rd ra rb 2 (fun a b => a.sshiftRight (b.toNat % 32)) s
def execRol (c : Ctl) (rd ra rb : Reg) (s : State) : Out := alu2 c rd ra rb 2 (fun a b => rolW a (b.toNat % 32)) s
def execClz (c : Ctl) (rd ra : Reg) (s : State) : Out := alu1 c rd ra 2 clzW s
def execPopc (c : Ctl) (rd ra : Reg) (s : State) : Out := alu1 c rd ra 2 popcW s
def execBrev (c : Ctl) (rd ra : Reg) (s : State) : Out := alu1 c rd ra 2 brevW s
def execMin (c : Ctl) (rd ra rb : Reg) (s : State) : Out := alu2 c rd ra rb 2 (fun a b => if a.slt b then a else b) s
def execMax (c : Ctl) (rd ra rb : Reg) (s : State) : Out := alu2 c rd ra rb 2 (fun a b => if a.slt b then b else a) s
def execMinu (c : Ctl) (rd ra rb : Reg) (s : State) : Out := alu2 c rd ra rb 2 (fun a b => if a.ult b then a else b) s
def execMaxu (c : Ctl) (rd ra rb : Reg) (s : State) : Out := alu2 c rd ra rb 2 (fun a b => if a.ult b then b else a) s
def execAdds (c : Ctl) (u : Sat) (rd ra rb : Reg) (s : State) : Out :=
  alu2 c rd ra rb 2 (fun a b => satW u (satVal u a + satVal u b)) s
def execSubs (c : Ctl) (u : Sat) (rd ra rb : Reg) (s : State) : Out :=
  alu2 c rd ra rb 2 (fun a b => satW u (satVal u a - satVal u b)) s
def execCmp (c : Ctl) (cc : CC) (rd ra rb : Reg) (s : State) : Out :=
  alu2 c rd ra rb 2 (fun a b => Word.ofBool (CC.holds cc a b)) s
def execSel (c : Ctl) (rd ra rb rc : Reg) (s : State) : Out :=
  alu c [ra, rb, rc] rd 2 (fun t => if t.reg rc ≠ 0 then t.reg ra else t.reg rb) s
def execMov (c : Ctl) (rd ra : Reg) (s : State) : Out := alu1 c rd ra 2 (fun a => a) s
def execExtb (c : Ctl) (sgn : Bool) (rd ra : Reg) (pos w1 : BitVec 5) (s : State) : Out :=
  alu1 c rd ra 2 (fun a => extbW sgn a pos w1) s
def execInsb (c : Ctl) (rd ra : Reg) (pos w1 : BitVec 5) (s : State) : Out :=
  alu c [ra, rd] rd 2 (fun t => insbW (t.reg rd) (t.reg ra) pos w1) s
def execHash (c : Ctl) (rd ra rb : Reg) (s : State) : Out := alu2 c rd ra rb 3 hashW s
def execBswap (c : Ctl) (rd ra : Reg) (s : State) : Out := alu1 c rd ra 2 bswapW s

def execAddi (c : Ctl) (rd ra : Reg) (imm : BitVec 24) (s : State) : Out := aluImm c rd ra imm (fun a b => a + b) s
def execAndi (c : Ctl) (rd ra : Reg) (imm : BitVec 24) (s : State) : Out := aluImm c rd ra imm (fun a b => a &&& b) s
def execOri (c : Ctl) (rd ra : Reg) (imm : BitVec 24) (s : State) : Out := aluImm c rd ra imm (fun a b => a ||| b) s
def execXori (c : Ctl) (rd ra : Reg) (imm : BitVec 24) (s : State) : Out := aluImm c rd ra imm (fun a b => a ^^^ b) s
def execShli (c : Ctl) (rd ra : Reg) (imm : BitVec 24) (s : State) : Out :=
  aluImm c rd ra imm (fun a b => a <<< (b.toNat % 32)) s
def execShri (c : Ctl) (rd ra : Reg) (imm : BitVec 24) (s : State) : Out :=
  aluImm c rd ra imm (fun a b => a >>> (b.toNat % 32)) s
def execSari (c : Ctl) (rd ra : Reg) (imm : BitVec 24) (s : State) : Out :=
  aluImm c rd ra imm (fun a b => a.sshiftRight (b.toNat % 32)) s
def execCmpi (c : Ctl) (cc : CC) (rd ra : Reg) (imm : BitVec 24) (s : State) : Out :=
  aluImm c rd ra imm (fun a b => Word.ofBool (CC.holds cc a b)) s

def execMovi (c : Ctl) (rd : Reg) (imm : BitVec 32) (s : State) : Out := alu c [] rd 2 (fun _ => imm) s
/-- MOVHI writes the odd register of the pair alone (05 R124). -/
def execMovhi (c : Ctl) (rd : Reg) (imm : BitVec 32) (s : State) : Out :=
  compute c { pairs := [rd], writes := [Reg.hi rd] } 2 (fun _ => ofWord imm) (oneReg (Reg.hi rd)) s

end Sys2Proof.Machine
end

