-- ==== Sys2Proof/Machine/OpsOrder.lean ====
section
/-!
DEFINITION. The order of a thread's accesses (11 R271 to R283; 06 R153, R158), the busy resources of 12 R298, what
follows when an operation ends (fences, trap entries and evictions that waited for PEND), and how traffic between
virtual tiles finds its way (16 R329 to R335).
-/
namespace Sys2Proof.Machine

/-! ### The memory instructions of F-M (06 R143 to R145) -/

inductive AccKind where | load | store | atomic
  deriving DecidableEq, Repr

/-- What an F-M memory word asks for: its kind, the bytes of its SZ, whether a raw load sign-extends, whether it writes
registers, and its fields. -/
structure AccInfo where
  kind : AccKind
  size : Nat
  sgn : Bool := false
  ret : Bool := false
  go : Bool := false
  aqrl : Bool := false
  rt : Reg
  pb : Reg
  off : BitVec 24
  deriving DecidableEq, Repr

def AtSz.bytes : AtSz → Nat | .w => 4 | .wn => 4 | .d => 8 | .dn => 8
def AtSz.ret : AtSz → Bool | .w => true | .wn => false | .d => true | .dn => false
def AqSz.bytes : AqSz → Nat | .w => 4 | .d => 8
def LdSz.bytes : LdSz → Nat | .b => 1 | .bu => 1 | .h => 2 | .hu => 2 | .w => 4
def StSz.bytes : StSz → Nat | .b => 1 | .h => 2 | .w => 4

def atInfo (sz : AtSz) (go : Bool) (rt pb : Reg) (off : BitVec 24) : AccInfo :=
  { kind := .atomic, size := AtSz.bytes sz, ret := AtSz.ret sz, go, rt, pb, off }
def afInfo (sz : AfSz) (go : Bool) (rt pb : Reg) (off : BitVec 24) : AccInfo :=
  { kind := .atomic, size := 4, ret := decide (sz = .w), go, rt, pb, off }

def accOf : Instr → Option AccInfo
  | .ld _ sz go rt pb off =>
    some { kind := .load, size := LdSz.bytes sz, sgn := decide (sz = .b ∨ sz = .h), ret := true, go, rt, pb, off }
  | .st _ sz go rt pb off => some { kind := .store, size := StSz.bytes sz, go, rt, pb, off }
  | .ldp _ go rt pb off => some { kind := .load, size := 8, ret := true, go, rt, pb, off }
  | .stp _ go rt pb off => some { kind := .store, size := 8, go, rt, pb, off }
  | .ldaq _ sz rt pb off => some { kind := .load, size := AqSz.bytes sz, ret := true, aqrl := true, rt, pb, off }
  | .strl _ sz rt pb off => some { kind := .store, size := AqSz.bytes sz, aqrl := true, rt, pb, off }
  | .aadd _ sz go rt pb off => some (atInfo sz go rt pb off)
  | .aand _ sz go rt pb off => some (atInfo sz go rt pb off)
  | .aor _ sz go rt pb off => some (atInfo sz go rt pb off)
  | .axor _ sz go rt pb off => some (atInfo sz go rt pb off)
  | .amin _ sz go rt pb off => some (atInfo sz go rt pb off)
  | .amax _ sz go rt pb off => some (atInfo sz go rt pb off)
  | .aminu _ sz go rt pb off => some (atInfo sz go rt pb off)
  | .amaxu _ sz go rt pb off => some (atInfo sz go rt pb off)
  | .axch _ sz go rt pb off => some (atInfo sz go rt pb off)
  | .acas _ sz go rt pb off => some { kind := .atomic, size := AqSz.bytes sz, ret := true, go, rt, pb, off }
  | .afadd _ sz go rt pb off => some (afInfo sz go rt pb off)
  | .afmin _ sz go rt pb off => some (afInfo sz go rt pb off)
  | .afmax _ sz go rt pb off => some (afInfo sz go rt pb off)
  | _ => none

/-- The bytes that an access moves through a window of a format (06 R144). -/
def AccInfo.bytes (a : AccInfo) (fmt : Nat) : Nat :=
  if a.kind ≠ .atomic ∧ a.size = 4 ∧ 1 ≤ fmt ∧ fmt ≤ 9 then (fmtSize fmt).getD 4 else a.size

/-- Whether a window's format admits the access (06 R146). Two readings are the model's (DEDUCED, log 51): an atomic acts on raw bytes
through a format of any code, 11 to 15 too (R155); and LDAQ.d and STRL.d, like LDP.d and STP.d, are admitted through an OL64
window. -/
def AccInfo.fmtOk (a : AccInfo) (fmt : Nat) : Bool :=
  decide (a.kind = .atomic) || decide (fmt = 0) || (decide (fmt = 10) && decide (a.size = 8)) ||
    (decide (1 ≤ fmt) && decide (fmt ≤ 9) && decide (a.size = 4))

/-- The registers that an access writes. -/
def AccInfo.regs (a : AccInfo) : List Reg := if !a.ret then [] else if a.size = 8 then [a.rt, Reg.hi a.rt] else [a.rt]

/-- The new value of an atomic (06 R154); `v` is the operand, `x` the replacement of ACAS. -/
def atomicNew (i : Instr) (n : Nat) (old v x : Nat) : Nat :=
  let m := 2 ^ (8 * n)
  let sg (a : Nat) : Int := if a < m / 2 then a else (a : Int) - m
  match i with
  | .aadd .. => (old + v) % m
  | .aand .. => old &&& v
  | .aor .. => old ||| v
  | .axor .. => old ^^^ v
  | .amin .. => if sg v < sg old then v else old
  | .amax .. => if sg old < sg v then v else old
  | .aminu .. => min old v
  | .amaxu .. => max old v
  | .axch .. => v
  | .acas .. => if old = v then x else old
  | .afadd .. => (fpAdd .rne (BitVec.ofNat 32 old) (BitVec.ofNat 32 v)).1.toNat
  | .afmin .. => (fpMin (BitVec.ofNat 32 old) (BitVec.ofNat 32 v)).toNat
  | .afmax .. => (fpMax (BitVec.ofNat 32 old) (BitVec.ofNat 32 v)).toNat
  | _ => old

/-- Operand and replacement of an atomic operation, as numbers of its size. -/
def Op.operand (o : Op) : Nat × Nat := (leNat (o.data.take o.size), leNat (o.data.drop o.size))

/-! ### Locations (11 R272) -/

/-- A number for the first byte of a location: equal for two names of one byte. -/
def State.locKey (s : State) (t : TileRef) (ea : DWord) : Nat :=
  match Addr.of ea with
  | .glob home off =>
    match s.page? (s.vdOf t.l) home off with
    | some p => if p.remote.isSome then 2 ^ 70 + ea.toNat else hbmKey p.home (p.frame + (off - p.base))
    | none => 2 ^ 70 + ea.toNat
  | .loc _ off => 2 ^ 80 + t.v * 2 ^ 20 + off
  | .remote v _ off => 2 ^ 80 + v * 2 ^ 20 + off
  | _ => 2 ^ 90 + ea.toNat

/-- The bytes that an operation may touch: at a remote tile the window is not known here, so eight. -/
def Op.span (o : Op) : Nat := if o.cls = .remote then 8 else o.size

def State.meets (s : State) (t : TileRef) (ea : DWord) (n : Nat) (o : Op) : Bool :=
  let a := s.locKey t ea; let b := s.locKey o.tile o.ea
  decide (a < b + o.span) && decide (b < a + n)

/-! ### What an operation reads, and the order of accesses -/

/-- Whether an operation still has to read a location: one whose reads have all been made has their values fixed (11 R271,
R289). VBCST and VIOTA read none, nor do QSAVE, QSEED and QGENV. -/
def Op.reads (o : Op) : Bool :=
  match o.cls with
  | .globalLoad => true | .globalAtomic => true | .localAtomic => true | .localAq => true | .weight => true
  | .remote => decide (((accOf o.ins).map AccInfo.kind) ≠ some .store)
  | .vector =>
    (match o.ins with
     | .vbcst .. => false | .viota .. => false
     | _ => o.snap.isNone && decide (o.elems < ((o.vals[5]?).getD 0).toNat))
  | .qru => (match o.ins with | .qload .. => true | _ => false)
  | .array => (match o.ins with | .mol .. => true | .mdrn .. => o.snap.isNone | _ => false)
  | .transfer => o.got.isNone | .xfer => o.got.isNone | .oload => true
  | .copy => o.got.isNone && (match o.ins with | .copy .. => true | _ => false)
  | _ => false

/-- An engine operation whose reads have been made and whose writes are still to come. -/
def Op.fixed (o : Op) : Bool :=
  (match o.cls with | .vector => true | .transfer => true | .xfer => true | .copy => true | .array => true | _ => false) && !o.reads
def State.readsFixed (s : State) (id : Nat) : Bool := ((s.op? id).map Op.fixed).getD false

def Op.isStore (o : Op) : Bool :=
  match o.cls with
  | .globalStore => true | .localStore => true | .globalAtomic => true | .localAtomic => true
  | .remote => decide (((accOf o.ins).map AccInfo.kind) ≠ some .load)
  | _ => false

/-- Whether an operation travels as a reduce operation (21 R407). -/
def Op.reduces (o : Op) : Bool :=
  match o.ins, accOf o.ins with
  | .axch .., _ => false
  | .acas .., _ => false
  | _, some a => decide (a.kind = .atomic) && !a.ret
  | _, none => false

def State.isReduce (s : State) (o : Op) : Bool :=
  match Addr.of o.ea with
  | .glob home off => o.reduces && ((s.page? o.vd home off).map Page.redwin).getD false
  | _ => false

/-- What an operation still waits for when it is a reduce operation: those of one thread are unordered among themselves (21 R409). -/
def State.reduceAfter (s : State) (o : Op) (l : List Nat) : List Nat :=
  if s.isReduce o then l.filter fun i => !(((s.op? i).map s.isReduce).getD false) else l

/-- Whether a fence holds a later access of a path (06 R158). -/
def fenceHolds (i : Instr) (p : Path) (rd wr : Bool) : Bool :=
  match i with
  | .fence _ k _ => decide (p = .core) && (match k with | .acq => rd | .rel => wr | .ar => true)
  | .pfence _ m => m.getLsbD (match p with | .core => 0 | .vec => 1 | .mtx => 2 | .copy => 3 | .msg => 4)
  | _ => false

/-- The open operations of a thread that a later access of a path must follow: in deterministic mode all that its chunk
does not buffer (11 R291); in free mode the fences that hold it, and an open acquire before a CORE access. -/
def State.pathAfter (s : State) (r : TRef) (p : Path) (rd wr : Bool) : List Nat :=
  s.openOps fun e => decide (e.2.t = r) && !e.2.buffered && e.2.busy &&
    (s.isDet r.l || (decide (e.2.cls = .fence) && fenceHolds e.2.ins p rd wr) || (e.2.acquire && decide (p = .core)))

/-- The first byte of a thread's own scratchpad that an access writes; none at another place. -/
def ownByte (r : TRef) (ea : DWord) : Option Nat :=
  match Addr.of ea with
  | .loc _ off => some off
  | .remote v _ off => if v = r.v then some off else none
  | _ => none

/-- The reads of a thread that a later write of it waits for until their values are fixed, on any path (11 R271, R289). Only the
race of 07 R187 is left open: a write to the tile's own scratchpad does not wait for an engine operation that reads what it
writes (log 41); `own` is its first byte there. -/
def State.readsBefore (s : State) (r : TRef) (own : Option Nat) : List Nat :=
  s.openOps fun e => decide (e.2.t = r) && !e.2.buffered && e.2.busy && e.2.reads &&
    (match own with
     | some q => !e.2.srcs.any fun x => decide (x.1 ≤ q) && decide (q < x.1 + x.2)
     | none => true)

/-- The stores and atomics that happen before what a thread does next on a path and are not performed (11 R283). -/
def State.before (s : State) (r : TRef) (p : Path) : List (Nat × Op) :=
  let l := ((s.thread? r).map fun t => t.before[pathIdx p]).getD []
  if l = [] then [] else s.ops.filter fun e => l.contains e.1 && e.2.open_ && e.2.isStore

/-- The same for a CORE access at an address: also the stores and atomics to its bytes of the thread, and those of other
threads that happen before it (R276, R284); a global load takes the bytes of a buffered global store of the tile instead (R271). -/
def State.coreAfter (s : State) (r : TRef) (k : AccKind) (ea : DWord) (n : Nat) (forwards : Bool) : List Nat :=
  let wr := decide (k ≠ .load)
  let hit (o : Op) : Bool := !o.buffered && o.isStore && s.meets r.tile ea n o &&
    !(forwards && decide (k = .load) && decide (o.cls = .globalStore) && decide (o.tile = r.tile))
  (s.pathAfter r .core true wr ++ (if wr then s.readsBefore r (ownByte r ea) else []) ++
    (s.openOps fun e => decide (e.2.t = r) && hit e.2) ++ ((s.before r .core).filter fun e => hit e.2).map Prod.fst).eraseDups

/-- Every open CORE access of a thread, and every write that happens before its next: what a release waits for (11 R278). -/
def State.coreOpen (s : State) (r : TRef) : List Nat :=
  (s.openOps fun e => decide (e.2.t = r) && !e.2.buffered && decide (e.2.path = .core) && decide (e.2.cls ≠ .fence)) ++
    (s.before r .core).map Prod.fst

/-- What a release of a scope waits for on CORE (11 R275): a write is performed at SLOT when it issues, and at TILE in the write
buffer; an atomic is a read too (06 R158). -/
def State.releaseAfter (s : State) (r : TRef) (sc : Scope) : List Nat :=
  let mine (p : Op → Bool) : List Nat := s.openOps fun e => decide (e.2.t = r) && !e.2.buffered && decide (e.2.path = .core) && p e.2
  match sc with
  | .slotS => mine Op.reads
  | .tileS => mine (fun o => decide (o.cls ≠ .globalStore) && decide (o.cls ≠ .fence)) ++
      ((s.before r .core).filter fun e => decide (e.2.cls ≠ .globalStore)).map Prod.fst
  | _ => s.coreOpen r

/-! ### Releases and acquires (11 R277 to R285) -/

/-- Whether two threads share the instance of a scope (R280). -/
def State.sharesScope (s : State) (sc : Scope) (a b : TRef) : Bool :=
  match sc with
  | .slotS => decide (a = b)
  | .tileS => decide (a.tile = b.tile)
  | .gangS => decide (a.l = b.l) &&
      decide (a.v / max 1 (s.blk a.l).gsize = b.v / max 1 (s.blk b.l).gsize)
  | .vdS => decide (s.vdOf a.l = s.vdOf b.l)
  | _ => true

def widerScope (a b : Scope) : Scope := if a.code < b.code then b else a

/-- What a CORE write of a thread hands over: as a release of its own, after a FENCE.rel, or as both (R278); `id` is its number. -/
def State.giftFor (s : State) (r : TRef) (id : Nat) (release : Bool) (sc : Scope) : Option Gift :=
  match s.thread? r with
  | none => none
  | some t =>
    match (if release then some ((t.fenceRel.map fun x => widerScope x sc).getD sc) else t.fenceRel) with
    | none => none
    | some sc => some { scope := sc, ops := if s.isDet r.l then [] else s.liveIds t.coreView ++ [id], stamp := t.acqStamp }

/-- The same as the write is performed: in deterministic mode the writes of the launch's earlier commits come before it. -/
def State.given (s : State) (o : Op) (id : Nat) : Option Gift :=
  if s.isDet o.tile.l then o.gives.map fun g => { g with ops := s.histOf o.tile.l ++ [id] } else o.gives

/-- A list of what happens before something, with what happens before one of its members. -/
def addAt (id : Nat) (ids l : List Nat) : List Nat := if l.contains id then joinIds l ids else l
def Gift.addAt (id : Nat) (ids : List Nat) (g : Gift) : Gift := { g with ops := Machine.addAt id ids g.ops }
def Thread.addAt (id : Nat) (ids : List Nat) (t : Thread) : Thread :=
  { t with before := t.before.map (Machine.addAt id ids), past := t.past.map (Machine.addAt id ids)
           posted := t.posted.map (Machine.addAt id ids) }
/-- An operation that follows an acquire waits for the stores before the release too, but for a global load of the tile that buffers
them (R271, R284, R285). -/
def Op.addAt (id : Nat) (ids : List Nat) (stores : List (Nat × TileRef)) (o : Op) : Op :=
  if o.view.contains id then
    { o with
      view := joinIds o.view ids, gives := o.gives.map (Gift.addAt id ids)
      after := if o.phase ≠ .waiting then o.after
        else joinIds o.after ((stores.filter fun e => !(decide (o.cls = .globalLoad) && decide (e.2 = o.tile))).map Prod.fst) }
  else o

/-- What happens before an event of number `id` comes to light: it happens before all that follows the event (R283). -/
def State.learnAt (s : State) (id : Nat) (ids : List Nat) : State :=
  if ids = [] then s
  else
    let stores := (s.ops.filter fun e => ids.contains e.1 && e.2.open_ && e.2.isStore).map fun e => (e.1, e.2.tile)
    { s with ops := s.ops.map fun e => (e.1, e.2.addAt id ids stores)
             threads := s.threads.map fun e => (e.1, e.2.addAt id ids) }

/-- A thread acquires at a scope what some releases hand over (SYNC, R279): at an event of its own, or for what it does on CORE from now
on. -/
def State.acquireFrom (s : State) (r : TRef) (at_ : Option Nat) (sc : Scope) (l : List Mark) : State :=
  let l := l.filter fun m => s.sharesScope sc m.src r && s.sharesScope m.gift.scope m.src r
  if l = [] then s
  else
    let ids := (l.flatMap fun m => m.gift.ops).foldl (fun x i => joinIds x [i]) []
    let s := match at_ with | some id => s.learnAt id ids | none => s.updThread r fun t => t.learnCore ids
    s.updThread r fun t => { t with acqStamp := l.foldl (fun n m => max n m.gift.stamp) t.acqStamp }

/-- A read of a thread has met some releases, which the thread's next FENCE.acq takes; an acquire, whose number is `acquire`, takes what
they hand over at once (R278). -/
def State.hear (s : State) (r : TRef) (acquire : Option Nat) (sc : Scope) (l : List Mark) : State :=
  if l = [] ∨ s.isDet r.l then s
  else
    let s := s.updThread r fun t =>
      { t with heard := (t.heard.filter fun m => decide (s.liveIds m.gift.ops ≠ []) || decide (t.acqStamp < m.gift.stamp)) ++
          l.filter fun m => !t.heard.contains m }
    if acquire.isSome then s.acquireFrom r acquire sc l else s

/-- FENCE.acq and FENCE.ar take what the reads before them have met; FENCE.rel and FENCE.ar make a release of every later CORE write
(R278). -/
def State.fenceSync (s : State) (r : TRef) (at_ : Option Nat) (k : FenceKind) (sc : Scope) : State :=
  match s.thread? r with
  | none => s
  | some t =>
    let s := if k = .rel then s else s.acquireFrom r at_ sc t.heard
    if k = .acq then s else s.updThread r fun t => { t with fenceRel := some ((t.fenceRel.map fun x => widerScope x sc).getD sc) }

/-- The tracks of a path, and whether a PFENCE names one. -/
def pathBit : Path → Nat | .core => 0 | .vec => 1 | .mtx => 2 | .copy => 3 | .msg => 4
def trackPath (k : Nat) : Nat := if k < 5 then k else 1

/-- A PFENCE joins what its thread has done on the paths that it names to what it does on them from now on (*pf*, 11 R282). -/
def Thread.joinPaths (t : Thread) (m : BitVec 5) : Thread :=
  let l := ((List.range 7).filter fun k => m.getLsbD (trackPath k)).foldl (fun l k =>
    joinIds (joinIds l ((t.past.toList[k]?).getD [])) ((t.before.toList[trackPath k]?).getD [])) []
  { t with before := t.before.mapIdx fun i x => if m.getLsbD i then joinIds x l else x }
def State.joinPaths (s : State) (r : TRef) (m : BitVec 5) : State :=
  if s.isDet r.l then s else s.updThread r fun t => t.joinPaths m

/-- Whether an operation has been performed, or is no more. -/
def State.closed (s : State) (id : Nat) : Bool :=
  match s.op? id with
  | none => true
  | some o => !o.open_

/-- Whether what follows an operation in its launch need not wait for it any more: in deterministic mode an access that is held
with its report counts as performed (17 R350, R448). -/
def State.passed (s : State) (l id : Nat) : Bool :=
  s.closed id || (s.isDet l && decide ((s.op? id).map Op.phase = some .held))

/-- Whether an operation waits for engine operations only until their reads are made (11 R271): fences, flushes and marks wait until they
are performed. -/
def Op.needsFixed (o : Op) : Bool := match o.cls with | .fence => false | .cfls => false | .trig => false | _ => true

/-- Whether everything that an operation waits for has been performed, or has read what it reads. -/
def State.clear (s : State) (o : Op) : Bool :=
  (o.after.all fun i => s.passed o.tile.l i || (o.needsFixed && !s.isDet o.tile.l && s.readsFixed i)) && !o.buffered

/-! ### Busy resources (12 R298) -/

def State.countOps (s : State) (v : TileRef) (p : Op → Bool) : Nat :=
  (s.ops.filter fun e => decide (e.2.tile = v) && !e.2.buffered && p e.2).length

/-- Requests of a tile outstanding toward the homes: its accesses, and an engine's transfer that has begun. -/
def State.homeRequests (s : State) (v : TileRef) : Nat :=
  s.countOps v fun o => o.busy && match o.cls with
    | .globalLoad => true | .globalStore => true | .globalAtomic => true
    | .xfer => decide (o.parts ≠ [])
    | .oload => decide (o.unit = 2) && decide (o.parts ≠ []) | _ => false
/-- Whether an engine's transfer waits for the limit on requests (12 R298): a transfer that has begun goes on. -/
def State.homesFull (s : State) (o : Op) : Bool := decide (o.parts = []) && decide (32 ≤ s.homeRequests o.tile)

def State.refills (s : State) (v : TileRef) : Nat :=
  s.countOps v fun o => o.busy && decide (o.cls = .globalLoad) && decide (o.line = 1)
def State.wbufCount (s : State) (v : TileRef) : Nat := s.countOps v fun o => o.busy && decide (o.cls = .globalStore)
def State.outCount (s : State) (v : TileRef) : Nat := s.countOps v fun o => decide (o.cls = .send) && decide (o.phase = .waiting)
def State.vecCount (s : State) (v : TileRef) : Nat := s.countOps v fun o => o.busy && decide (o.cls = .vector)
def State.qruCount (s : State) (v : TileRef) : Nat := s.countOps v fun o => o.busy && decide (o.cls = .qru)
def State.arrayCount (s : State) (v : TileRef) : Nat :=
  s.countOps v fun o => decide (o.phase = .waiting ∨ o.phase = .sent) && decide (o.cls = .array)
def State.copiesTracked (s : State) (v : TileRef) : Nat :=
  ((s.tile? v).map fun t => (t.copies.filter fun e => decide (e.2.state = 1) || decide (e.2.state = 3)).length).getD 0

/-- Whether the resource that holds an instruction is free. -/
def State.holdFree (s : State) (v : TileRef) : Hold → Bool
  | .vtt d => ((s.tile? v).map fun t => (t.vttCache.get? d).isSome).getD true
  | .outQueue => decide (s.outCount v < 16)
  | .vecQueue => decide (s.vecCount v < 8)
  | .qruQueue => decide (s.qruCount v < 4)
  | .arrayQueue => decide (s.arrayCount v < 4)
  | .copies => decide (s.copiesTracked v < 16)
  | .refills => decide (s.refills v < 8)
  | .writeBuffer => decide (s.wbufCount v < Config.writeBufferExtra + 1)
  | .homes => decide (s.homeRequests v < 32)
  | .stale off n => ((s.tile? v).map fun t => !s.staleFull t off n).getD true
  | .order l => l.all fun i => s.passed v.l i || (!s.isDet v.l && s.readsFixed i)

/-- The first of some holds that is not free. -/
def State.firstHold (s : State) (v : TileRef) (l : List Hold) : Option Hold := l.find? fun h => !s.holdFree v h

/-- An instruction is held in the retry latch: it does not issue and consumes nothing (12 R298). A TRIP follower keeps its first
two copies, so that the turn after the release makes its third. -/
def State.latch (s : State) (r : TRef) (h : Hold) (copies : TripCopies := []) : State :=
  s.updThread r fun t => { t with run := .latch h, trip := copies }

/-- Retry latch in the middle of an instruction body: the hold that is not free, or the body. -/
def State.holding (s : State) (r : TRef) (l : List Hold) (body : State → State) : State :=
  match s.firstHold r.tile l with
  | some h => s.latch r h
  | none => body s

/-! ### Logs of a chunk (17 R346, R348) -/

/-- Whether the records that an instruction can need fit what is left of the chunk's half. -/
def State.logFits (s : State) (r : TRef) (undo buf : Nat) : Bool :=
  if s.isDet r.l then
    match (s.lanes.get? r).bind Lane.openChunk? with
    | some c => decide (c.logUsed + 48 * undo + 32 * buf ≤ 1792) || decide (c.retired = 0)
    | none => true
  else true

/-- The records that an instruction takes of its chunk's half. -/
def State.takeLog (s : State) (r : TRef) (undo buf : Nat) : State :=
  if s.isDet r.l then s.updChunk r fun c => { c with logUsed := c.logUsed + 48 * undo + 32 * buf } else s

/-- The full-log cut before an instruction (17 R346), or its body. -/
def State.logged (s : State) (r : TRef) (undo buf : Nat) (body : State → State) : State :=
  if s.logFits r undo buf then
    body (s.takeLog r undo buf)
  else s.closeChunk r .fullLog

/-! ### When something ends -/

/-- Fences and cache flushes of a tile whose waits are over complete: the mark goes, the signal posts (06 R158, R159),
and at GANG or wider the read-cache rule applies to the thread's later loads. So does a TRIG of the thread (09 R246). -/
def State.fencesDone (s : State) (r : TRef) : State :=
  s.ops.foldl (fun (s : State) e =>
    if e.2.t = r ∧ e.2.cls = .trig ∧ e.2.buffered = false ∧ e.2.phase ≠ .done ∧ s.clear e.2 then
      let s := (s.noteTrig r.l ((e.2.gives.map Gift.ops).getD [])).updTile r.tile fun v => { v with triggered := true }
      if e.2.atStart then s.updOp e.1 fun o => { o with phase := .done } else (s.postSig? r e.2.sig).dropOp e.1
    else
    if e.2.tile = r.tile ∧ (e.2.cls = .fence ∨ e.2.cls = .cfls) ∧ s.clear e.2 then
      let fresh : Bool := match e.2.ins with
        | .fence _ k _ => decide (k ≠ .rel) && decide (e.2.scope.code ≥ 2)
        | .pfence _ m => m.getLsbD 0
        | _ => false
      let s := match e.2.ins with
        | .fence _ k sc => if k = FenceKind.rel then s else s.fenceSync e.2.t (some e.1) .acq sc
        | _ => s
      ((if fresh then s.updThread e.2.t fun t => { t with acqStamp := s.nextId } else s).postSig? e.2.t e.2.sig).dropOp e.1
    else s) s

/-- Whether a thread's service request has left its chunk (09 R253). -/
def State.serviceSent (s : State) (r : TRef) : Bool :=
  s.ops.all fun e => !(decide (e.2.t = r) && decide (e.2.cls = .service) && e.2.buffered)

/-- What a thread's drain waited for: a trap entry or a restart (12 R293; 22 R422), an eviction for a service (09 R253) or for
a page (06 R149). -/
def State.drainDone (s : State) (r : TRef) : State :=
  match s.thread? r with
  | none => s
  | some t =>
    match t.run with
    | .trapDrain i restart =>
      if restart then if s.restartDrained r t then s.setThread r (t.restart s.cycle) else s
      else if t.quiet then s.setThread r (t.enterTrap i s.cycle) else s
    | .svcDrain n => if t.inflight = [] ∧ s.pendClear r ∧ s.serviceSent r then s.evict r (.service n) else s
    | _ => s.tryEvict r

/-- What waited for the end of an operation or of a result: the fences of its thread, and its drain. -/
def State.settle (s : State) (r : TRef) : State :=
  let s := (s.fencesDone r).drainDone r
  if (s.thread? r).isSome then s.fillSlots r.tile else s

/-- The end of an operation. One that a commit released keeps its results for its lane's next chunk (17 R350); one that came by a
port is answered on it (21 R405). -/
def State.endOp (s : State) (id : Nat) : State :=
  match s.op? id with
  | none => s
  | some o =>
    if o.tile.l = 2 ^ 64 + 1 then (s.completeOp id).portOwe o.t.th 1 o.vd
    else if o.atStart ∧ o.t.th < 64 then (s.updOp id fun o => { o with phase := .done }).settle o.t
    else (s.completeOp id).settle o.t

/-- An operation is performed at its place but its thread does not know yet: its results are on their way. -/
def State.reply (s : State) (id : Nat) (res : List (Reg × Word)) : State :=
  match s.op? id with
  | none => s
  | some o =>
    let s := s.updOp id fun o => { o with phase := .reply, res }
    let s := if o.acquire ∧ o.scope.code ≥ 2 then s.updThread o.t fun t => { t with acqStamp := s.nextId } else s
    s.settle o.t

/-- A fault that only the serving unit finds (06 R148): its report waits for DEFERRED_FAULT_REPORT. -/
def State.deferFault (s : State) (id : Nat) (cause : Nat) (tval : DWord) (consumed : Bool := false)
    (found : Found := {}) : State :=
  s.updOp id fun o =>
    { o with phase := .faulted, consumedF := consumed, found
             fault := some { cause, tval, taux := o.waddr, tinst := o.tinst } }

/-! ### Traffic between virtual tiles (16 R329 to R335) -/

/-- The number of virtual tiles of a launch. -/
def State.gridSize (s : State) (l : Nat) : Nat := (s.blk l).w * (s.blk l).h

/-- Whether traffic reaches a virtual tile at its place (R330): the sender's cached entry, or the table's where it has none, says
PRESENT and names the logical tile that holds it, and nothing is parked for it. A tile that is being swapped out holds it until it
is saved (R338 step 5). -/
def State.reaches (s : State) (src dst : TileRef) : Bool :=
  match s.tile? dst with
  | none => false
  | some b => decide (b.park = []) &&
    match (s.tile? src).bind fun a => a.vttCache.get? dst.v with
    | some (p, lt, _) => decide (p = .present) && decide (b.place ≠ .absent) && decide (lt = b.ltile)
    | none => decide (b.place = .present)

/-- The entry of a virtual tile as the table in HBM holds it. -/
def VTile.entry (v : VTile) : Place × Nat × BitVec 8 := (v.place, v.ltile, v.gen)

/-- The bounce returns the entry to the sender (R330). -/
def State.refreshEntry (s : State) (src dst : TileRef) : State :=
  match s.tile? dst with
  | some b => s.updTile src fun a =>
      match a.vttCache.get? dst.v with
      | some (_, _, g) => if g ≠ b.gen then { a with vttCache := a.vttCache.set dst.v b.entry } else a
      | none => a
  | none => s

def gangOf (b : Block) (v : Nat) : Nat := v / max 1 b.gsize

/-- A thread of a gang has gone on: the gang is not blocked, or blocked anew (R337). -/
def State.movedOn (s : State) (m : TileRef) : State :=
  s.updLaunch m.l fun ln => { ln with gangs := ln.gangs.upd (gangOf ln.blk m.v) fun x => { x with blockedSince := none } }

/-- A tile fault of a gang (R335). -/
def State.tileFault (s : State) (dst : TileRef) : State :=
  if (s.blk dst.l).fpol then s
  else s.updLaunch dst.l fun ln =>
    let g := gangOf ln.blk dst.v
    { ln with summon := if ln.summon.contains g then ln.summon else ln.summon ++ [g] }

/-- The bytes that an entry takes in a park queue (R333; log 46). -/
def Op.parkSize (o : Op) : Nat :=
  match o.cls with
  | .send => 16
  | .group => 16 + Config.parkExtra 1
  | .migrate => 16 + Config.parkExtra 2
  | _ => 16 + Config.parkExtra 0

/-- Whether the 256 KiB of a park queue have no room for an entry. An empty queue takes any entry. -/
def State.parkFull (s : State) (dst : TileRef) (o : Op) : Bool :=
  let l := ((s.tile? dst).map VTile.park).getD []
  decide (l ≠ []) && decide (262144 < l.foldl (fun n id => n + ((s.op? id).map Op.parkSize).getD 0) 0 + o.parkSize)

/-- Traffic joins the park queue of a virtual tile (R330, R333, R335). A full queue refuses it: it waits where it is. -/
def State.parkAt (s : State) (dst : TileRef) (id : Nat) : State :=
  if ((s.op? id).map (s.parkFull dst)).getD true then s
  else
    let s := (s.updOp id fun o => { o with phase := .parked }).updTile dst fun v => { v with park := v.park ++ [id] }
    match (s.tile? dst).map VTile.place with
    | some .absent => s.tileFault dst
    | _ => s

/-- Traffic to a finished virtual tile is counted (R334). -/
def State.countDiscard (s : State) (l : Nat) : State :=
  s.updLaunch l fun ln => { ln with ndisc := min (ln.ndisc + 1) 0xFFFFFFFF }

/-- Items of one source for one destination leave in issue order (R331). Group operations at the tile's own home do not use its
interface: those of one thread keep their order (11 R276), those of two threads need not. -/
def State.firstTo (s : State) (id : Nat) (src dst : TileRef) (destOf : Op → Option Nat) : Bool :=
  let own := if src = dst then ((s.op? id).bind fun o => if o.cls = .group then some o.t else none) else none
  s.ops.all fun e => !(decide (e.2.tile = src) && decide (e.1 < id) && !e.2.buffered && decide (e.2.phase = .waiting) &&
    decide (destOf e.2 = some dst.v) && decide (src.l = dst.l) && (match own with | some t => decide (e.2.t = t) | none => true))

end Sys2Proof.Machine
end

