-- ==== Sys2Proof/Machine/Memory.lean ====
section
/-!
DEFINITION. Loads, stores, atomics, fences and cache control, codes 0x50 to 0x66 (06 R143 to R159): the checks at issue,
where an access goes, and what it becomes; the serving of remote and local atomics at a tile.
-/
namespace Sys2Proof.Machine

/-! ### Values through windows (06 R146) -/

/-- What a raw load of some bytes delivers in the low register (06 R146). -/
def rawLow (sgn : Bool) (bs : List Byte) : Word :=
  if sgn then BitVec.ofInt 32 (signed (8 * bs.length) (leNat bs)) else BitVec.ofNat 32 (leNat bs)

/-- The register writes of a load through a window of a format. -/
def AccInfo.deliver (a : AccInfo) (fmt : Nat) (bs : List Byte) : List (Reg × Word) :=
  if a.size = 8 then pairWrites a.rt (BitVec.ofNat 64 (leNat bs))
  else if fmt = 0 ∨ fmt > 9 ∨ a.size ≠ 4 then [(a.rt, rawLow a.sgn bs)]
  else if isIntFmt fmt then [(a.rt, BitVec.ofInt 32 (decodeInt fmt (leNat bs)))]
  else [(a.rt, (decodeF32 fmt (leNat bs)).1)]

/-- The bytes that a store through a window writes, and the exceptions it raises. -/
def AccInfo.encode (a : AccInfo) (w : Window) (v : DWord) : List Byte × Exc :=
  if a.size = 4 ∧ 1 ≤ w.fmt ∧ w.fmt ≤ 9 then
    let n := (fmtSize w.fmt).getD 4
    if isIntFmt w.fmt then (leBytes (clampInt w.fmt v.lo.toInt) n, 0)
    else
      let (b, x) := encodeVal w (v32 v.lo)
      (leBytes b n, x)
  else (leBytes v.toNat a.size, 0)

/-! ### The checks at issue (06 R147) -/

/-- Where an access goes once its checks have passed. -/
inductive Where where
  | loc (win off : Nat)
  | remote (vt win off : Nat)
  | weight (off : Nat)
  | glob (home off : Nat)
  | depart (vt : Nat)
  deriving DecidableEq, Repr

def scopeOk (s : State) (l : Nat) (sc : Scope) : Bool :=
  match sc with
  | .moduleS => (s.vdRec (s.vdOf l)).scope.getLsbD 0
  | .systemS => (s.vdRec (s.vdOf l)).scope.getLsbD 1
  | _ => true

/-- Steps 3, 5 and 6 for an access of the tile's own scratchpad. -/
def checkLocal (s : State) (r : TRef) (a : AccInfo) (ea : DWord) (sc : Scope) (w off : Nat) : Except Nat Where :=
  let fmt := (((s.tile? r.tile).getD {}).window w).fmt
  if ea.toNat % a.bytes fmt ≠ 0 then .error cMemAlign
  else if !a.fmtOk fmt then .error cWindowFmt
  else if !scopeOk s r.l sc then .error cScopeDenied
  else .ok (.loc w off)

def memCheck (s : State) (r : TRef) (a : AccInfo) (ea : DWord) (sc : Scope) : Except Nat Where :=
  match Addr.of ea with
  | .remote vt w off =>
    if vt ≥ s.gridSize r.l then .error cVtileRange
    else if a.go then (if vt = r.v then checkLocal s r a ea sc w off else .ok (.depart vt))
    else if !scopeOk s r.l sc then .error cScopeDenied
    else .ok (.remote vt w off)
  | .host => .error (if a.go then cSpaceInvalid else cHostSpace)
  | .bad => .error cSpaceInvalid
  | .loc w off => if a.go then .error cSpaceInvalid else checkLocal s r a ea sc w off
  | .weight off =>
    if a.go ∨ a.aqrl then .error cSpaceInvalid
    else if ea.toNat % a.size ≠ 0 then .error cMemAlign
    else if (s.wsAt (s.tilePool r.tile) (s.tileField r.tile) off).isNone then .error cMemNomap
    else if a.kind ≠ .load then .error cWsLocked
    else if !scopeOk s r.l sc then .error cScopeDenied
    else .ok (.weight off)
  | .glob home off =>
    if a.go then .error cSpaceInvalid
    else if ea.toNat % a.size ≠ 0 then .error cMemAlign
    else if !scopeOk s r.l sc then .error cScopeDenied
    else .ok (.glob home off)

/-- What the checks of R53 need to know of an access. -/
def memNeed (i : Instr) (a : AccInfo) : Need :=
  let pair := decide (a.size = 8)
  let acas := match i with | .acas .. => true | _ => false
  let data := if acas then (if pair then [a.rt, a.rt + 1, a.rt + 2, a.rt + 3] else [a.rt, a.rt + 1])
    else if pair then [a.rt, Reg.hi a.rt] else [a.rt]
  { det := a.go
    go := a.go
    pairs := [a.pb] ++ (if pair then [a.rt] else []) ++ (if acas && pair && decide (a.rt.toNat % 4 ≠ 0) then [1] else [])
    reads := [a.pb, Reg.hi a.pb] ++ (if a.kind = .load then [] else data)
    writes := a.regs }

/-- The data of an access, read at issue: a store's value; an atomic's operand and, for ACAS, the replacement. -/
def memData (i : Instr) (a : AccInfo) (t : Thread) : List Byte :=
  let val (r : Reg) : List Byte := if a.size = 8 then leBytes (t.pair r).toNat 8 else leBytes (t.reg r).toNat a.size
  match i with
  | .acas .. => val a.rt ++ val (a.rt + (if a.size = 8 then 2 else 1))
  | _ => if a.kind = .load then [] else val a.rt

/-! ### What a chunk's buffered operations make of a word (11 R291) -/

/-- One buffered or unperformed access applied to bytes that begin at `base`. -/
def overlayOp (o : Op) (base off : Nat) (w : Window) (bs : List Byte) : List Byte :=
  match accOf o.ins with
  | none => bs
  | some a =>
    match a.kind with
    | .load => bs
    | .store =>
      let e := (a.encode w (BitVec.ofNat 64 (leNat o.data))).1
      (List.range bs.length).map fun i =>
        if off ≤ base + i then (e[base + i - off]?).getD ((bs[i]?).getD 0) else (bs[i]?).getD 0
    | .atomic =>
      if off < base ∨ base + bs.length < off + o.size then bs
      else
        let old := leNat ((bs.drop (off - base)).take o.size)
        let nw := leBytes (atomicNew o.ins o.size old o.operand.1 o.operand.2) o.size
        (List.range bs.length).map fun i =>
          if off ≤ base + i then (nw[base + i - off]?).getD ((bs[i]?).getD 0) else (bs[i]?).getD 0

/-- The scratchpad bytes of a virtual tile with what the thread's own buffered operations before `id` make of them. -/
def State.ownView (s : State) (r : TRef) (id : Nat) (dst : TileRef) (base : Nat) (bs : List Byte) : List Byte :=
  if s.isDet r.l then
    s.ops.foldl (fun bs e =>
      if e.2.t = r ∧ e.2.buffered ∧ e.1 < id then
        match Addr.of e.2.ea with
        | .loc w off => if e.2.tile = dst then overlayOp e.2 base off (((s.tile? dst).getD {}).window w) bs else bs
        | .remote v w off => if v = dst.v then overlayOp e.2 base off (((s.tile? dst).getD {}).window w) bs else bs
        | _ => bs
      else bs) bs
  else bs

/-- Bytes that begin at `key`, with the releases that they hold. -/
abbrev Seen := List Byte × List Mark

/-- Whether a load sees a store or atomic that its tile still holds: every store of the tile, but those of its own thread that come after
it, and, in deterministic mode, what the thread's own chunk buffers (11 R271, R291). -/
def Op.sees (o : Op) (id : Nat) (e : Nat × Op) : Bool :=
  let own := decide (e.2.t = o.t)
  match e.2.cls with
  | .globalStore => e.2.open_ && decide (e.2.tile = o.tile) && (if e.2.buffered then own else true) && (!own || decide (e.1 < id))
  | .globalAtomic => own && e.2.buffered && decide (e.1 < id)
  | _ => false
/-- A store that its tile still holds, over bytes that begin at `key`. -/
def State.overStore (s : State) (key : Nat) (x : Seen) (o : Op) : Seen :=
  let k := s.locKey o.tile o.ea
  (overlayOp o key k {} x.1, cutMarks x.2 k o.size ++ if o.buffered then [] else markOf o.t k o.size o.gives)

/-- Global bytes with what the load's tile still holds. -/
def State.globalView (s : State) (o : Op) (id : Nat) (base : Nat) (x : Seen) : Seen :=
  s.ops.foldl (fun x e => if o.sees id e then s.overStore (s.locKey o.tile (BitVec.ofNat 64 base)) x e.2 else x) x

/-- The bytes of a line with all stores that a tile still holds: what a fill leaves in its read cache (11 R271). -/
def State.tileView (s : State) (v : TileRef) (base : Nat) (x : Seen) : Seen :=
  s.ops.foldl (fun x e =>
    if e.2.cls = .globalStore ∧ e.2.open_ ∧ e.2.tile = v ∧ !e.2.buffered then
      s.overStore (s.locKey v (BitVec.ofNat 64 base)) x e.2 else x) x

/-! ### Which writes a read returns (READ, 11 R285) -/

def Past.meets (h : Past) (key n : Nat) : Bool := decide (h.key < key + n) && decide (key < h.key + h.old.length)

/-- Bytes with others over them. -/
def putOver (key : Nat) (bs : List Byte) (k : Nat) (new : List Byte) : List Byte :=
  bs.mapIdx fun i b => if k ≤ key + i then (new[key + i - k]?).getD b else b
/-- A write taken back, and made. -/
def Past.undo (h : Past) (key : Nat) (x : Seen) : Seen := (putOver key x.1 h.key h.old, cutMarks x.2 h.key h.old.length ++ h.marks)
def Past.redo (h : Past) (key : Nat) (x : Seen) : Seen :=
  (putOver key x.1 h.key h.new, (if h.keep then x.2 else cutMarks x.2 h.key h.new.length) ++ h.leaves)

/-- Whether the write order puts a write after an earlier one: the home orders its stores and atomics (R277, R286), an atomic has read
what was there, and happens-before orders the others (WO-HB, R284). -/
def Past.follows (e h : Past) : Bool := (h.core && e.core) || e.keep || h.ids.any e.view.contains

/-- The latest write of some, newest first, slips below those that nothing orders before it, by a free choice for each; all of them in
such an order. -/
def slip (e : Past) : Nat → List Past → List Past
  | _, [] => [e]
  | k, h :: l => if e.follows h || !Config.freeBool k then e :: h :: l else h :: slip e (k + 1) l
def writeOrder (k : Nat) (l : List Past) : List Past :=
  (l.foldl (fun (x : List Past × Nat) e => (slip e x.2 x.1, x.2 + l.length)) ([], k)).1

/-- Whether a write happens before a read: it stands before it, or it is a CORE store of the reader's tile, which is performed there
when it issues (R275). -/
def Op.knows (o : Op) (h : Past) : Bool :=
  h.ids.any o.view.contains || (h.core && decide (o.path = .core) && decide (h.tile = o.tile))
/-- The writes that a read sees, of all in their order: it may miss the latest ones that do not happen before it. -/
def Op.kept (o : Op) : Nat → List Past → List Past
  | _, [] => []
  | k, h :: l => if o.knows h || !Config.freeBool k then h :: l else o.kept (k + 1) l

/-- What a read of an operation in free mode may return of a page, and the free values taken: any writes that READ allows, in any order
that the write order allows. -/
def State.readView (s : State) (o : Op) (p : Page) (off n : Nat) : Seen × Nat :=
  let k := p.key off
  let now : Seen := (s.pageBytes p off n, s.marksAt k n)
  let l := s.hist.filter fun h => h.meets k n
  if l = [] ∨ s.isDet o.tile.l then (now, 0)
  else
    let x := (o.kept s.fresh (writeOrder (s.fresh + l.length) l)).foldr (fun h x => h.redo k x) (l.foldr (fun h x => h.undo k x) now)
    ((x.1, x.2.filter fun m => m.meets k n), l.length + l.length * l.length)

/-- The bytes of a granule as they were before any uncommitted chunk wrote it: its oldest undo record (17 R353). -/
def State.committedGranule (s : State) (dst : TileRef) (g : Nat) : Option (List Byte) :=
  ((s.granRecs dst g).head?).map GranRec.old

/-- Scratchpad bytes without the uncommitted writes. -/
def State.committedBytes (s : State) (dst : TileRef) (off n : Nat) : List Byte :=
  (List.range n).map fun i =>
    match s.committedGranule dst ((off + i) / 32 * 32) with
    | some old => (old[(off + i) % 32]?).getD 0
    | none => ((s.tile? dst).getD {}).spad.read (off + i)

/-- The window descriptor of a tile as an operation that is served there finds it: without uncommitted writes in deterministic mode. -/
def State.windowAt (s : State) (o : Op) (dst : TileRef) (w : Nat) : Window :=
  if s.isDet dst.l ∧ (o.atStart ∨ o.tile ≠ dst) then
    match s.committedGranule dst (winPlace w) with
    | some old => Window.ofBytes old
    | none => ((s.tile? dst).getD {}).window w
  else ((s.tile? dst).getD {}).window w

/-- Scratchpad bytes as an operation reads them: in deterministic mode without uncommitted writes when it is performed at a turn,
or reads another virtual tile (17 R348, R353). -/
def State.outerView (s : State) (o : Op) (dst : TileRef) (off n : Nat) : List Byte :=
  if s.isDet dst.l ∧ (o.atStart ∨ o.tile ≠ dst) then s.committedBytes dst off n else ((s.tile? dst).getD {}).spad.readN off n

/-- Scratchpad bytes as an engine reads them for an operation; `d` tells which stores of free mode it does not see yet. -/
def State.unitView (s : State) (o : Op) (d : Nat) (src : TileRef) (off n : Nat) : List Byte :=
  if s.isDet src.l then s.outerView o src off n else (((s.tile? src).getD {}).lagged o.view d).readN off n

/-! ### Issue -/

/-- The operation of an access. -/
def memOp (c : Ctl) (i : Instr) (a : AccInfo) (r : TRef) (t : Thread) (s : State) (ea : DWord) (sc : Scope) (cls : Cls) : Op :=
  { t := r, tile := r.tile, vd := s.vdOf r.l, cls, ins := i, ea, size := a.size, data := memData i a t
    acquire := a.aqrl && decide (a.kind = .load), release := a.aqrl && decide (a.kind = .store), scope := sc, path := .core
    waddr := t.wordAddr c, tinst := s.iword, sig := sigOf c t, regs := a.regs, region := t.region }

/-- An access that turns into a consumed error of its own thread (22 R416): nothing is written, its signal posts. -/
def State.consumedHere (s : State) (r : TRef) (cause : Nat) (tval taux : DWord) (now : Bool := false)
    (found : Found := {}) : State :=
  s.addReport r (Report.mk cause tval taux none true none s.nextId (s.chunkNo r) 0 found now)

/-- A load of the tile's own scratchpad by LD or LDP: L = 5 (02 R40). -/
def localLoad (c : Ctl) (a : AccInfo) (r : TRef) (t : Thread) (ea : DWord) (w off : Nat) (s : State) : State :=
  let fmt := (((s.tile? r.tile).getD {}).window w).fmt
  let n := a.bytes fmt
  let s := ((s.noteRead r (keyLocal r.v off)).hear r none .tileS (s.marksAt (spadKey r.tile off) n)).coreEvent r none (sigOf c t)
  match s.spadRead r.tile off n with
  | (.error e, s) => (s.fly r 5 [] 0 (sigOf c t)).consumedHere r e.1 ea 0 true
  | (.ok _, s) =>
    let base := off / 8 * 8
    let bs := s.ownView r s.nextId r.tile base (((s.tile? r.tile).getD {}).spad.readN base 8)
    s.fly r 5 (a.deliver fmt ((bs.drop (off - base)).take n)) 0 (sigOf c t)

/-- The read-modify-write of an atomic on raw scratchpad bytes (06 R155); the old value, or a consumed error. What it reads may be
a release, and what it writes hands over what a FENCE.rel before it covers (11 R278, R279). -/
def State.spadAtomic (s : State) (dst : TileRef) (id : Nat) (o : Op) (off : Nat) (who : Option TRef) :
    Except (Nat × Nat) Nat × State :=
  match s.spadRead dst off o.size with
  | (.error e, s) => (.error e, s)
  | (.ok bs, s) =>
    let old := leNat (if s.isDet dst.l then s.committedBytes dst off o.size else bs)
    let key := spadKey dst off
    let s := s.hear o.t none o.scope (s.marksAt key o.size)
    (.ok old, s.coreWrite dst off (leBytes (atomicNew o.ins o.size old o.operand.1 o.operand.2) o.size) id (markOf o.t key o.size o.gives)
      true who)

/-- The register writes of an old value. -/
def AccInfo.old (a : AccInfo) (v : Nat) : List (Reg × Word) :=
  if !a.ret then [] else if a.size = 8 then pairWrites a.rt (BitVec.ofNat 64 v) else [(a.rt, BitVec.ofNat 32 v)]

/-- An error that a scratchpad's ECC has found: UNIT is its tile's number (22 R414; 23 R435). -/
def State.foundAt (s : State) (dst : TileRef) : Found := { unit := some (((s.tile? dst).map VTile.ltile).getD 0) }

/-- An atomic is performed on a scratchpad; its thread gets the old value, or a consumed error. -/
def State.atomicAt (s : State) (id : Nat) (o : Op) (a : AccInfo) (dst : TileRef) (off : Nat) : State :=
  match s.spadAtomic dst id o off none with
  | (.error e, s) => s.deferFault id e.1 o.ea true (s.foundAt dst)
  | (.ok old, s) => if a.ret then s.reply id (a.old old) else s.endOp id

/-- Marks what an instruction that a second execution could change leaves of the region (22 R420). -/
def State.clearRst (s : State) (r : TRef) : State := s.updThread r fun t => { t with rst := false }

/-- Gives an operation to the machine: buffered in a deterministic chunk (17 R347), else at once. -/
def State.submit (s : State) (o : Op) (buffer : Bool) : State :=
  if buffer && s.isDet o.t.l then s.launchOp { o with buffered := true, atStart := true } else s.launchOp o

/-- Line 64 bytes of a tile's read cache, if it may serve a load of the thread (06 R152, R153). -/
def State.cached (s : State) (r : TRef) (a : Nat) : Option Line :=
  match s.tile? r.tile, s.thread? r with
  | some v, some t => v.rcache.find? fun l => decide (l.vdAddr = a / 64 * 64) && decide (t.acqStamp ≤ l.stamp)
  | _, _ => none

/-- Whether a cached line holds the line of an address, under this name or another (11 R272). -/
def State.lineOf (s : State) (v : TileRef) (a : Nat) (l : Line) : Bool :=
  decide (l.vdAddr = a / 64 * 64) || decide (s.locKey v (BitVec.ofNat 64 l.vdAddr) = s.locKey v (BitVec.ofNat 64 (a / 64 * 64)))
def State.dropLine (s : State) (v : TileRef) (a : Nat) : State :=
  s.updTile v fun t => { t with rcache := t.rcache.filter fun l => !s.lineOf v a l }

/-- A store updates the tile's cached copy of its line (06 R152), with the release that it is. -/
def State.updateLine (s : State) (v : TileRef) (a : Nat) (bs : List Byte) (r : TRef) (gives : Option Gift) : State :=
  let k := s.locKey v (BitVec.ofNat 64 a)
  let put (l : Line) : Line :=
    { l with
      bytes := (List.range 64).map fun i =>
        if i < a % 64 then (l.bytes[i]?).getD 0 else (bs[i - a % 64]?).getD ((l.bytes[i]?).getD 0)
      marks := cutMarks l.marks k bs.length ++ markOf r k bs.length gives }
  s.updTile v fun t => { t with rcache := t.rcache.map fun l => if s.lineOf v a l then put l else l }

/-- A load that a line serves meets the releases that its bytes hold. -/
def State.hearLine (s : State) (r : TRef) (acquire : Option Nat) (sc : Scope) (l : Line) (a n : Nat) : State :=
  s.hear r acquire sc (l.marks.filter fun m => m.meets (s.locKey r.tile (BitVec.ofNat 64 a)) n)

/-- What an access waits for in the latch before it issues: busy resources, and, for the tile's own scratchpad, the
order of the thread's accesses. -/
def memHolds (s : State) (r : TRef) (a : AccInfo) (ea : DWord) (sc : Scope) (cache : Bool) : Where → List Hold
  | .loc w off =>
    [.order (s.coreAfter r a.kind ea 8 false ++ (if a.aqrl ∧ a.kind = .store then s.releaseAfter r sc else []))] ++
      (if a.kind = .load then [] else
        [.stale off (if a.kind = .atomic then a.size else a.bytes (((s.tile? r.tile).getD {}).window w).fmt)])
  | .remote vt _ _ => [.vtt vt]
  | .weight _ => []
  | .glob _ _ =>
    (match a.kind with
     | .load => if cache then [.refills] else []
     | .store => [.writeBuffer]
     | .atomic => []) ++ [.homes]
  | .depart vt => [.vtt vt]

/-- An access that has passed its checks and its holds issues. -/
def memIssue (c : Ctl) (i : Instr) (a : AccInfo) (r : TRef) (t : Thread) (ea : DWord) (sc : Scope) (s : State) :
    Where → State
  | .depart vt => s.updThread r fun t => { t with run := .migrDrain vt true c }
  | .loc w off =>
    let o := { memOp c i a r t s ea sc (match a.kind with | .load => .localAq | .store => .localStore | .atomic => .localAtomic) with
      gives := if a.kind = .atomic then s.giftFor r s.nextId false sc else none }
    match a.kind with
    | .load =>
      if a.aqrl then
        let fmt := (((s.tile? r.tile).getD {}).window w).fmt
        let id := s.nextId
        let s := (s.noteRead r (keyLocal r.v off)).launchOp o
        let s := s.hear r (some id) sc (s.marksAt (spadKey r.tile off) (a.bytes fmt))
        match s.spadRead r.tile off (a.bytes fmt) with
        | (.error e, s) => (s.reply id []).consumedHere r e.1 ea 0 true
        | (.ok _, s) =>
          let base := off / 8 * 8
          let bs := s.ownView r id r.tile base (((s.tile? r.tile).getD {}).spad.readN base 8)
          s.reply id (a.deliver fmt ((bs.drop (off - base)).take (a.bytes fmt)))
      else localLoad c a r t ea w off s
    | .store =>
      let (bs, x) := a.encode (((s.tile? r.tile).getD {}).window w) (BitVec.ofNat 64 (leNat (memData i a t)))
      let id := s.nextId
      let s := s.coreStore r off bs (s.giftFor r id a.aqrl sc)
      ((s.coreEvent r (some id) (sigOf c t)).updThread r fun t => { t with fpctl := orSFLG t.fpctl x }).postNext r (sigOf c t)
    | .atomic =>
      let s := s.clearRst r
      if s.isDet r.l then
        let s := s.submit o true
        if a.ret then s.closeChunk r .closing else s
      else
        let id := s.nextId
        let s := s.launchOp o
        match s.spadAtomic r.tile id o off none with
        | (.error e, s) => s.deferFault id e.1 ea true
        | (.ok old, s) => if a.ret then s.reply id (a.old old) else ((s.dropOp id).coreEvent r none (sigOf c t)).postNext r (sigOf c t)
  | .remote vt w off =>
    let s := if a.kind = .atomic then s.clearRst r else s
    let s := if a.kind = .load then s.noteRead r (keyLocal vt off) else s
    let o := memOp c i a r t s ea sc .remote
    let o := { o with unit := w, after := s.coreAfter r a.kind ea 8 false ++ (if o.release then s.releaseAfter r sc else [])
                      gives := if a.kind = .load then none else s.giftFor r s.nextId o.release sc }
    let s := s.submit o (decide (a.kind ≠ .load))
    if a.kind = .atomic ∧ a.ret then s.closeChunk r .closing else s
  | .weight off =>
    let o := memOp c i a r t s ea sc .weight
    s.submit { o with unit := off, after := s.coreAfter r a.kind ea a.size false } false
  | .glob home _ =>
    let after := s.coreAfter r a.kind ea a.size true
    let o := memOp c i a r t s ea sc (match a.kind with | .load => .globalLoad | .store => .globalStore | .atomic => .globalAtomic)
    match a.kind with
    | .load =>
      let cache := decide (sc.code ≤ 1) && !a.aqrl && !s.isDet r.l
      let s := if s.isDet r.l then s.noteRead r (keyGlobal ea.toNat) else s
      let id := s.nextId
      let s1 := s.launchOp { o with unit := home, after, line := if cache then 1 else 0 }
      match (if cache ∧ after = [] ∧ Config.freeBool s1.fresh then s1.cached r ea.toNat else none) with
      | some l =>
        let s2 := { s1 with fresh := s1.fresh + 1 }.hearLine r none sc l ea.toNat a.size
        s2.reply id (a.deliver 0 ((l.bytes.drop (ea.toNat % 64)).take a.size))
      | none => { s1 with fresh := s1.fresh + 1 }
    | .store =>
      let gives := s.giftFor r s.nextId o.release sc
      let s := s.submit { o with unit := home, after := after ++ (if o.release then s.releaseAfter r sc else []), gives } true
      if s.isDet r.l then s
      else s.updateLine r.tile ea.toNat (o.data.take a.size) r gives
    | .atomic =>
      let s := (s.clearRst r).dropLine r.tile ea.toNat
      let s := s.submit { o with unit := home, after := s.reduceAfter o after, gives := s.giftFor r s.nextId false sc } true
      if a.ret then s.closeChunk r .closing else s

/-- The default scope of an access (06 R152, R153, R155). -/
def AccInfo.dflt (a : AccInfo) : Scope := if a.kind = .atomic ∨ a.aqrl then .vdS else .tileS

/-- The undo records and the buffered records that an access takes (17 R348). -/
def AccInfo.records (a : AccInfo) : Where → Nat × Nat
  | .depart _ => (0, 0)
  | .loc _ _ => match a.kind with | .store => (1, 0) | .load => (0, 0) | .atomic => (0, 1)
  | _ => match a.kind with | .load => (0, 0) | _ => (0, 1)

/-- Whether the records of an access fit its chunk's half, as its registers tell before it issues (17 R348). -/
def State.accessFits (s : State) (r : TRef) (c : Ctl) (a : AccInfo) (ea : DWord) : Bool :=
  match memCheck s r a ea (c.scope a.dflt) with
  | .ok p => s.logFits r (a.records p).1 (a.records p).2
  | .error _ => true

/-- An access whose address is known: its checks, its holds, its issue. `voted` tells that a TRIP vote has consumed the
wait already. -/
def memAt (c : Ctl) (i : Instr) (a : AccInfo) (r : TRef) (t : Thread) (ea : DWord) (voted : Bool) (s : State) : State :=
  let sc := c.scope a.dflt
  match memCheck s r a ea sc with
  | .error cause =>
    let t' := if voted ∧ c.wc ∧ c.thr ≠ 0 then t.giveBack c.tok c.thr.toNat else t
    (s.setThread r t').trapHere r t' cause ea
  | .ok p =>
    let cache := decide (sc.code ≤ 1) && !a.aqrl && !s.isDet r.l
    match s.firstHold r.tile (memHolds s r a ea sc cache p) with
    | some h =>
      if voted then (s.setThread r (if c.wc ∧ c.thr ≠ 0 then t.giveBack c.tok c.thr.toNat else t)).latch r h [(ea, 0), (ea, 0)]
      else s.latch r h
    | none =>
      match p with
      | .depart vt => s.updThread r fun t => { t with run := .migrDrain vt true c, trip := [] }
      | p =>
        let (undo, buf) := a.records p
        let body (s : State) : State :=
          let s := if voted then s.retireT r c else s.retire r c
          let s := if a.go then s.clearRst r else s
          memIssue c i a r t ea sc s p
        if voted then body (s.takeLog r undo buf) else s.logged r undo buf body

/-- The window that an access's checks or conversion read, where it is known at issue: its own tile's, or, for a load, another
tile's (17 R347, R358). -/
def State.noteWindow (s : State) (r : TRef) (a : AccInfo) (ea : DWord) : State :=
  match Addr.of ea with
  | .loc w _ => s.noteRead r (keyWindow r.v w)
  | .remote v w _ => if a.kind = .load then s.noteRead r (keyWindow v w) else s
  | _ => s

/-- A memory instruction (06 R143): the address voted under TRIP (03 R72), where the full-log cut falls before the first copy (03
R75). -/
def memAccess (c : Ctl) (i : Instr) (s : State) : Out :=
  match accOf i with
  | none => .next s
  | some a =>
    issue c (fun _ => memNeed i a) (fun r t s =>
      let ea := t.ea c a.pb a.off
      let s := s.noteWindow r a ea
      if c.hasTrip ∧ t.trip = [] ∧ !s.accessFits r c a ea then s.closeChunk r .fullLog
      else if c.hasTrip then withTrip c r t ea 0 (fun s t v _ => memAt c i a r t v true s) s
      else memAt c i a r t ea false s) s

def execLd (c : Ctl) (sz : LdSz) (go : Bool) (rt pb : Reg) (off : BitVec 24) (s : State) : Out :=
  memAccess c (.ld c sz go rt pb off) s
def execSt (c : Ctl) (sz : StSz) (go : Bool) (rt pb : Reg) (off : BitVec 24) (s : State) : Out :=
  memAccess c (.st c sz go rt pb off) s
def execLdp (c : Ctl) (go : Bool) (rt pb : Reg) (off : BitVec 24) (s : State) : Out := memAccess c (.ldp c go rt pb off) s
def execStp (c : Ctl) (go : Bool) (rt pb : Reg) (off : BitVec 24) (s : State) : Out := memAccess c (.stp c go rt pb off) s
def execLdaq (c : Ctl) (sz : AqSz) (rt pb : Reg) (off : BitVec 24) (s : State) : Out := memAccess c (.ldaq c sz rt pb off) s
def execStrl (c : Ctl) (sz : AqSz) (rt pb : Reg) (off : BitVec 24) (s : State) : Out := memAccess c (.strl c sz rt pb off) s
def execAadd (c : Ctl) (sz : AtSz) (go : Bool) (rt pb : Reg) (off : BitVec 24) (s : State) : Out :=
  memAccess c (.aadd c sz go rt pb off) s
def execAand (c : Ctl) (sz : AtSz) (go : Bool) (rt pb : Reg) (off : BitVec 24) (s : State) : Out :=
  memAccess c (.aand c sz go rt pb off) s
def execAor (c : Ctl) (sz : AtSz) (go : Bool) (rt pb : Reg) (off : BitVec 24) (s : State) : Out :=
  memAccess c (.aor c sz go rt pb off) s
def execAxor (c : Ctl) (sz : AtSz) (go : Bool) (rt pb : Reg) (off : BitVec 24) (s : State) : Out :=
  memAccess c (.axor c sz go rt pb off) s
def execAmin (c : Ctl) (sz : AtSz) (go : Bool) (rt pb : Reg) (off : BitVec 24) (s : State) : Out :=
  memAccess c (.amin c sz go rt pb off) s
def execAmax (c : Ctl) (sz : AtSz) (go : Bool) (rt pb : Reg) (off : BitVec 24) (s : State) : Out :=
  memAccess c (.amax c sz go rt pb off) s
def execAminu (c : Ctl) (sz : AtSz) (go : Bool) (rt pb : Reg) (off : BitVec 24) (s : State) : Out :=
  memAccess c (.aminu c sz go rt pb off) s
def execAmaxu (c : Ctl) (sz : AtSz) (go : Bool) (rt pb : Reg) (off : BitVec 24) (s : State) : Out :=
  memAccess c (.amaxu c sz go rt pb off) s
def execAxch (c : Ctl) (sz : AtSz) (go : Bool) (rt pb : Reg) (off : BitVec 24) (s : State) : Out :=
  memAccess c (.axch c sz go rt pb off) s
def execAcas (c : Ctl) (sz : AqSz) (go : Bool) (rt pb : Reg) (off : BitVec 24) (s : State) : Out :=
  memAccess c (.acas c sz go rt pb off) s
def execAfadd (c : Ctl) (sz : AfSz) (go : Bool) (rt pb : Reg) (off : BitVec 24) (s : State) : Out :=
  memAccess c (.afadd c sz go rt pb off) s
def execAfmin (c : Ctl) (sz : AfSz) (go : Bool) (rt pb : Reg) (off : BitVec 24) (s : State) : Out :=
  memAccess c (.afmin c sz go rt pb off) s
def execAfmax (c : Ctl) (sz : AfSz) (go : Bool) (rt pb : Reg) (off : BitVec 24) (s : State) : Out :=
  memAccess c (.afmax c sz go rt pb off) s

/-! ### Fences and cache control (06 R158, R159) -/

/-- A mark that waits for `after`; with nothing to wait for it completes in the cycle after issue. -/
def placeFence (c : Ctl) (i : Instr) (sc : Scope) (r : TRef) (t : Thread) (after : List Nat) (fresh : Bool) (s : State) : State :=
  let s := s.retire r c
  let s := match i with | .fence _ k sc => s.fenceSync r none k sc | .pfence _ m => s.joinPaths r m | _ => s
  if after = [] then
    (if fresh then s.updThread r fun t => { t with acqStamp := s.nextId } else s).postNext r (sigOf c t)
  else s.launchOp { t := r, tile := r.tile, vd := s.vdOf r.l, cls := .fence, ins := i, scope := sc, waddr := t.wordAddr c,
                    tinst := s.iword, after, sig := sigOf c t, region := t.region }

def execFence (c : Ctl) (k : FenceKind) (sc : Scope) (s : State) : Out :=
  issue c (fun _ => {}) (fun r t s =>
    if !scopeOk s r.l sc then s.trapHere r t cScopeDenied
    else
      let reads := s.openOps fun e => decide (e.2.t = r) && !e.2.buffered && decide (e.2.path = .core) && e.2.reads
      let after := match k with
        | .acq => reads | .rel => (s.retire r c).releaseAfter r sc | .ar => (reads ++ (s.retire r c).releaseAfter r sc).eraseDups
      placeFence c (.fence c k sc) sc r t after (decide (k ≠ .rel) && decide (sc.code ≥ 2)) s) s

def execPfence (c : Ctl) (paths : BitVec 5) (s : State) : Out :=
  issue c (fun _ => {}) (fun r t s =>
    let holdsCopy : Bool := match (s.lanes.get? r).bind Lane.openChunk? with
      | some ch => ch.buffered.any fun id => decide ((s.op? id).map Op.cls = some .copy)
      | none => false
    if s.isDet r.l ∧ paths.getLsbD 3 ∧ holdsCopy then s.closeChunk r .before
    else
      let after := s.openOps fun e => decide (e.2.t = r) && !e.2.buffered && decide (e.2.cls ≠ .fence) &&
        paths.getLsbD (pathBit e.2.path)
      placeFence c (.pfence c paths) .tileS r t after (paths.getLsbD 0) s) s

def execCinv (c : Ctl) (k : LineKind) (pb : Reg) (off : BitVec 24) (s : State) : Out :=
  issue c (fun _ => match k with | .line => { pairs := [pb], reads := [pb, Reg.hi pb] } | .all => {}) (fun r t s =>
    s.holding r [.order (s.pathAfter r .core true false)] fun s =>
      let s := s.retire r c
      let s := match k, Addr.of (t.ea c pb off) with
        | .all, _ => s.updTile r.tile fun v => { v with rcache := [] }
        | .line, .glob _ _ => s.dropLine r.tile (t.ea c pb off).toNat
        | .line, _ => s
      s.postNext r (sigOf c t)) s

/-- CFLS waits for the tile's buffered stores of its line, or for all of them. In deterministic mode these are the
committed ones. -/
def execCfls (c : Ctl) (k : LineKind) (pb : Reg) (off : BitVec 24) (s : State) : Out :=
  issue c (fun _ => match k with | .line => { pairs := [pb], reads := [pb, Reg.hi pb] } | .all => {}) (fun r t s =>
    s.holding r [.order (s.pathAfter r .core false true)] fun s =>
      let ea := t.ea c pb off
      let line := match k, Addr.of ea with | .all, _ => true | .line, .glob _ _ => true | _, _ => false
      let after := if line then s.openOps fun e =>
          decide (e.2.tile = r.tile) && decide (e.2.cls = .globalStore) && !e.2.buffered &&
            (decide (k = .all) || decide (e.2.ea.toNat / 64 = ea.toNat / 64)) else []
      let s := s.retire r c
      if after = [] then s.postNext r (sigOf c t)
      else s.launchOp { t := r, tile := r.tile, vd := s.vdOf r.l, cls := .cfls, ins := .cfls c k pb off, ea,
                        waddr := t.wordAddr c, tinst := s.iword, after, sig := sigOf c t, region := t.region }) s

/-! ### Serving at a tile (06 R144, R145, R148; 16 R330, R334) -/

/-- A remote access, or an atomic of the tile's own scratchpad released at a commit, is performed at the tile. -/
def State.serveAt (s : State) (id : Nat) (o : Op) (a : AccInfo) (dst : TileRef) (w off : Nat) : State :=
  let win := s.windowAt o dst w
  let n := a.bytes win.fmt
  if o.ea.toNat % n ≠ 0 then s.deferFault id cMemAlign o.ea
  else if !a.fmtOk win.fmt then s.deferFault id cWindowFmt o.ea
  else match a.kind with
    | .load =>
      match s.spadRead dst off n with
      | (.error e, s) => s.deferFault id e.1 o.ea true (s.foundAt dst)
      | (.ok _, s) =>
        let base := off / 8 * 8
        let bs := s.ownView o.t id dst base (s.outerView o dst base 8)
        let s := s.hear o.t (if o.acquire then some id else none) o.scope (s.marksAt (spadKey dst off) n)
        s.reply id (a.deliver win.fmt ((bs.drop (off - base)).take n))
    | .store =>
      let (bs, x) := a.encode win (BitVec.ofNat 64 (leNat o.data))
      ((s.coreWrite dst off bs id (markOf o.t (spadKey dst off) bs.length o.gives) false none).updThread o.t fun t => { t with fpctl := orSFLG t.fpctl x }).endOp id
    | .atomic => s.atomicAt id o a dst off

/-- An access to a finished virtual tile: zero for what returns, nothing else (16 R334). -/
def State.serveFinished (s : State) (id : Nat) (o : Op) (a : AccInfo) : State :=
  let s := s.countDiscard o.tile.l
  if a.ret then s.reply id (a.regs.map fun r => (r, 0)) else s.endOp id

/-- The virtual tile that an access is for. -/
def Op.target (o : Op) : Option (Nat × Nat × Nat) :=
  match Addr.of o.ea with
  | .remote v w off => some (v, w, off)
  | .loc w off => some (o.tile.v, w, off)
  | _ => none

/-- A tile performs an access that reached it, from the network or from its park queue. -/
def State.serve (s : State) (id : Nat) : State :=
  match s.op? id with
  | none => s
  | some o =>
    match o.target, accOf o.ins with
    | some (v, w, off), some a =>
      if ((s.tile? ⟨o.tile.l, v⟩).map VTile.finished).getD false then s.serveFinished id o a
      else if o.poison ∧ a.kind ≠ .store then s.deferFault id cPoison o.ea true
      else
        let s := s.serveAt id o a ⟨o.tile.l, v⟩ w off
        if o.poison then s.spadPoison ⟨o.tile.l, v⟩ [off / 8 * 8] else s
    | _, _ => s

def Op.destVt (o : Op) : Option Nat :=
  match o.cls with
  | .remote => o.target.map Prod.fst
  | .localAtomic => o.target.map Prod.fst
  | .send => some o.unit
  | .transfer => some o.unit
  | .group => some o.unit
  | .migrate => some o.unit
  | _ => none

/-- The event REMOTE_ACCESS_SERVE (06 R145; 16 R330): an access whose earlier accesses are performed reaches its virtual
tile and is served, or parks. -/
def execRemoteAccessServe (op : Nat) (s : State) : Out :=
  .next (match s.op? op with
    | none => s
    | some o =>
      if o.phase = .waiting ∧ (o.cls = .remote ∨ o.cls = .localAtomic) ∧ s.clear o then
        match o.destVt with
        | none => s
        | some v =>
          let dst : TileRef := ⟨o.tile.l, v⟩
          if !s.firstTo op o.tile dst Op.destVt then s
          else if ((s.tile? dst).map VTile.finished).getD false ∨ o.cls = .localAtomic ∨ s.reaches o.tile dst then s.serve op
          else (s.refreshEntry o.tile dst).parkAt dst op
      else s)

end Sys2Proof.Machine
end

