-- ==== Sys2Proof/Machine/OpsDet.lean ====
section
/-!
DEFINITION. Chunks of deterministic mode (17): when one may begin, beginning it, rolling it back.
-/
namespace Sys2Proof.Machine

/-- The end of an operation that waited for its lane's next chunk. -/
def State.finishDone (s : State) (r : TRef) : State :=
  s.ops.foldl (fun (s : State) e => if e.2.t = r ∧ e.2.phase = .done then s.completeOp e.1 else s) s

/-- Whether the operations that a lane's commits released have all ended, or are held with their reports (R350). -/
def State.releasedDone (s : State) (r : TRef) : Bool :=
  s.ops.all fun e => !(decide (e.2.t = r) && e.2.atStart && !e.2.buffered) || decide (e.2.phase = .done) ||
    decide (e.2.phase = .held)

/-- Whether every unbuffered access of a thread to a home, another tile or weight space, and every engine operation of
it, has completed or been held with its report (R351). -/
def State.unbufferedDone (s : State) (r : TRef) (engines : Bool) : Bool :=
  s.ops.all fun e => !(decide (e.2.t = r) && !e.2.buffered && !e.2.atStart) || decide (e.2.phase = .held) ||
    (match e.2.cls with
     | .globalLoad => false | .remote => false | .weight => false | .localAq => false | .pageFetch => true | .hostAccess => true
     | _ => !engines)

/-- Whether a buffered operation returns a value or posts a token. -/
def Op.answers (o : Op) : Bool := decide (o.regs ≠ []) || o.sig.isSome || o.gbar.isSome

/-- Whether another lane's rerun keeps a lane from running (R353). -/
def State.rerunStops (s : State) (r : TRef) : Bool :=
  match (s.launch? r.l).bind Launch.rerunLane with
  | some n => ((s.thread? r).map fun t => decide (t.lane.toNat ≠ n)).getD true
  | none => false

/-- Whether a lane's next chunk runs at its own turn only (R353), and whether that turn has come. -/
def Lane.reruns (l : Lane) : Bool := decide (l.number < l.rerun)
def State.rerunNow (s : State) (r : TRef) : Bool :=
  decide ((s.launch? r.l).bind Launch.rerunLane = (s.thread? r).map fun t => t.lane.toNat)

/-- Whether a lane may begin a chunk now (R346, R350, R351). A full report queue is drained first (12 R301). -/
def State.mayBegin (s : State) (r : TRef) : Bool :=
  !s.rerunStops r && decide ((s.thread? r).map Thread.run = some .ready) &&
  match s.lanes.get? r with
  | none => false
  | some l =>
    match l.chunks with
    | [] => (s.releasedDone r || !s.reportRoom r) && (!l.reruns || s.rerunNow r)
    | [c] => decide (c.cut = .count ∨ c.cut = .fullLog) && decide (c.retired > 0) && s.unbufferedDone r true && !l.reruns &&
        c.buffered.all fun id => !((s.op? id).map Op.answers).getD false
    | _ => false

/-- A chunk begins: results and posts that waited for it are applied, its start image is kept. -/
def State.beginChunk (s : State) (r : TRef) : State :=
  let s := s.finishDone r
  let s := match s.lanes.get? r with
    | some l => l.posts.foldl (fun (s : State) (p : Tok × Nat) => s.updThread r fun t => t.post p.1 p.2) s
    | none => s
  match s.thread? r with
  | none => s
  | some t =>
    let posts := s.agenda.filter fun e => match e.2 with | .signalPost q .. => decide (q = r) | _ => false
    let c : Chunk := { snap := s.liveOnly r t, began := s.nextId, posts }
    let s := s.updLane r fun l => { l with posts := [], chunks := l.chunks ++ [{ c with number := l.number + l.chunks.length }] }
    { s with nextId := s.nextId + 1 }

/-- The thread as its next chunk would find it: with the results and posts that wait for it. -/
def State.preview (s : State) (r : TRef) : State :=
  let s := s.finishDone r
  match s.lanes.get? r with
  | some l => l.posts.foldl (fun (s : State) (p : Tok × Nat) => s.updThread r fun t => t.post p.1 p.2) s
  | none => s

/-! ### Rolling back (R353, R356) -/

/-- A granule's bytes, a dimension's or a descriptor's, put in place. -/
def State.putPlace (s : State) (v : TileRef) (g : Nat) (bs : List Byte) : State :=
  if g < 2 ^ 20 then s.spadRaw v g bs
  else if 2 ^ 21 ≤ g then
    let w := g % 2 ^ 21 / 32
    s.updTile v fun t => { t with win := t.win.mapIdx fun i x => if i = w then Window.ofBytes bs else x
                                  winNext := t.winNext.filter fun e => decide (e.2.1 ≠ w) }
  else s.updTile v fun t => { t with qru := t.qru.set (g % 2 ^ 20 / 256) (QDim.ofBytes {} false bs) }

/-- One undo record applied: the bytes that its write changed, poisoned where they were. -/
def State.applyUndo (s : State) (v : TileRef) : Undo → State
  | .gran _ a old lo hi bad =>
    if a < 2 ^ 20 then
      (s.spadRaw v (max a lo) ((old.drop (lo - a)).take (min (a + 32) hi - max a lo))).spadPoison v bad
    else s.putPlace v a old
  | .thr _ i old => s.setThread ⟨v.l, v.v, i⟩ old
  | .heldOp _ id old => { s with ops := s.ops.set id old }

def Undo.stamp : Undo → Nat
  | .gran n .. => n | .thr n .. => n | .heldOp n .. => n

def insertUndo (u : Undo) : List Undo → List Undo
  | [] => [u]
  | x :: l => if x.stamp < u.stamp then u :: x :: l else x :: insertUndo u l

/-- The lanes of a virtual tile. -/
def State.lanesOf (s : State) (v : TileRef) : List TRef := (s.lanes.filter fun e => decide (e.1.tile = v)).map Prod.fst

/-- What a chunk found on its way comes back: results and posts of the instructions before it that were due after it began. Those
whose cycles have come land at once. -/
def State.backInFlight (s : State) (r : TRef) (c : Chunk) : State :=
  let s := { s with agenda := s.agenda.filter fun e => match e.2 with | .signalPost q .. => decide (q ≠ r) | _ => true }
  let s := (c.snap.inflight.filter fun f => decide (f.due ≤ s.cycle)).foldl (fun (s : State) f =>
    (s.updThread r fun t => t.landFlight f).postSig? r f.sig) s
  c.posts.foldl (fun (s : State) e =>
    match e.2 with
    | .signalPost _ g k n => if e.1 ≤ s.cycle then s.postSig r ⟨k, n, g⟩ else s.at_ e.1 e.2
    | _ => s) s

/-- A lane's uncommitted chunks are no more: their operations and posts go, and its thread stands as the first of them began, with
its slot, with what was on its way then, and with the reports and held accesses that came meanwhile for earlier chunks (R353,
R448). The reports that go leave the first-exception record with them (log 20). -/
def State.dropChunks (s : State) (r : TRef) : State :=
  match s.lanes.get? r, s.thread? r with
  | some l, some now =>
    match l.chunks with
    | [] => s
    | c :: _ =>
      let mine (o : Op) : Bool := decide (o.t = r) && !o.atStart && decide (c.number ≤ o.chunk)
      let bufs := l.chunks.flatMap Chunk.buffered
      let s := { s with ops := s.ops.filter fun e =>
        !(mine e.2 || bufs.contains e.1) || l.chunks.any fun k => k.undo.any fun u => match u with
          | .heldOp _ id _ => decide (id = e.1)
          | _ => false }
      let old := c.snap.held.filter fun h => (s.op? h.op).isSome
      let late := now.held.filter fun h => (s.op? h.op).isSome && !c.snap.held.any fun g => decide (g.op = h.op)
      let t : Thread := { c.snap with
        slot := now.slot
        stopped := now.stopped
        stepPending := now.stepPending
        reports := c.snap.reports ++ now.reports.filter fun p => decide (c.began < p.stamp) &&
          (decide (p.chunk < c.number) || decide (p.chunk = 2 ^ 64))
        held := old ++ late
        fpHold := none
        gapUntil := 0
        dlyUntil := 0 }
      let s := (now.reports.filter fun p => !t.reports.contains p).foldl (fun (s : State) p => s.dropFx r p) (s.setThread r t)
      (s.backInFlight r c).updLane r fun l => { l with chunks := [], logBad := false }
  | _, _ => s

/-- Every uncommitted chunk of a virtual tile is undone, newest write first. -/
def State.undoTile (s : State) (v : TileRef) : State :=
  let rs := s.lanesOf v
  let us := (rs.flatMap fun r => (((s.lanes.get? r).map Lane.chunks).getD []).flatMap Chunk.undo).foldl (fun l u => insertUndo u l) []
  let s := us.foldl (fun (s : State) u => s.applyUndo v u) s
  rs.foldl (fun (s : State) r => s.dropChunks r) s

/-- Whether a chunk's read signature meets a write (R352): a line or granule that it read overlaps the written bytes, or the
signature makes them alike. -/
def readMeets (c : Chunk) (a n : Nat) : Bool :=
  c.reads.any fun k => (decide (k < a + n) && decide (a < k + keySize k)) || Config.sigMeets k a
def Chunk.meets (c : Chunk) (w : List Nat) : Bool := w.any fun k => readMeets c k (keySize k)

/-- A lane whose uncommitted chunks are rolled back: they run again at their own turns. `told` is whether DETST and DETAD tell of it;
ALIAS stays that of the last squash by R352 (R354 to R356). -/
def Lane.marked (l : Lane) (told : Bool) : Lane :=
  if l.chunks = [] then l
  else
    let l := { l with rerun := max l.rerun (l.number + l.chunks.length) }
    if told then { l with roll := true, detad := 0, sqc := min (l.sqc + 1) (2 ^ 30 - 1) } else l

/-! ### Errors in the stores of a launch (22 R415 SRC 2, 7) -/

/-- The logical tile of a virtual tile. -/
def State.ltileOf (s : State) (v : TileRef) : Nat := ((s.tile? v).map VTile.ltile).getD 0

/-- A launch is killed by an error in its context store or its logs: the record, the kill, the other VDs of the blast set
(R424). -/
def State.lostState (s : State) (src : Nat) (v : TileRef) : State :=
  let pm := s.tilePoolmap v.l
  let vd := s.vdOf v.l
  let seq := s.errSeq
  let s := s.logErr src (s.ltileOf v) 4 cUeConsumed 0 pm vd (s.blk v.l).lid
  (s.startKill v.l cUeConsumed).blast pm seq vd

/-! ### Rolling a tile back (R353, R356) -/

/-- A log with an error that a rollback reads kills its launch; with its chunks the log is empty (22 R415 SRC 7). -/
def State.logsRead (s : State) (v : TileRef) : State :=
  let bad := s.lanes.any fun e => decide (e.1.tile = v) && e.2.logBad && decide (e.2.chunks ≠ [])
  if bad then
    { s.lostState 7 v with lanes := s.lanes.map fun (e : TRef × Lane) => if e.1.tile = v then (e.1, { e.2 with logBad := false }) else e }
  else s

/-- Every uncommitted chunk of a virtual tile is rolled back, and so are those of other tiles that have read what it wrote (R353).
The tiles of `out` are being swapped out: their lanes' squashes are not counted (R356). -/
def rollbackTile (out : List TileRef) : Nat → TileRef → State → State
  | 0, _, s => s
  | fuel + 1, v, s =>
    let ws := ((s.lanes.filter fun (e : TRef × Lane) => decide (e.1.tile = v)).flatMap fun (e : TRef × Lane) => e.2.chunks.flatMap Chunk.writes)
    let s := { s with lanes := s.lanes.map fun (e : TRef × Lane) => if e.1.tile = v then (e.1, e.2.marked (!out.contains v)) else e }
    let s := (s.logsRead v).undoTile v
    let hit := ((s.lanes.filter fun (e : TRef × Lane) => decide (e.1.l = v.l) && decide (e.1.tile ≠ v) && e.2.chunks.any fun c => c.meets ws).map
      fun (e : TRef × Lane) => e.1.tile).eraseDups
    hit.foldl (fun (s : State) m => rollbackTile out fuel m s) s
def State.rollback (s : State) (v : TileRef) (out : List TileRef := []) : State := rollbackTile out (s.lanes.length + 1) v s

/-- A report for an operation that a commit released finds the next chunk begun: that chunk is rolled back (R448). -/
def State.reportRollback (s : State) (r : TRef) (atStart : Bool) : State :=
  if s.isDet r.l ∧ atStart then
    match s.lanes.get? r with
    | none => s
    | some l =>
      if l.chunks = [] then s
      else (s.rollback r.tile).updLane r fun x => { x with sqc := l.sqc }
  else s

/-- An operation of an engine, whose faults enter the first-exception record (12 R302). -/
def Op.isEngine (o : Op) : Bool :=
  match o.cls with
  | .transfer => true | .xfer => true | .vector => true | .qru => true | .oload => true | .array => true | .copy => true
  | _ => false

/-- An engine operation completes with a fault: its record entry, its report to the issuing thread, its signal (03 R55;
07 R186). While the thread's queue is full the engine keeps the completion, until DEFERRED_FAULT_REPORT (12 R301). -/
def State.engineFault (s : State) (id : Nat) (o : Op) (i : TrapInfo) (consumed : Bool) (found : Found := {}) : State :=
  if !s.reportRoom o.t then
    s.updOp id fun o => { o with phase := .faulted, fault := some i, consumedF := consumed, found }
  else
  let s := s.updTile o.tile fun v => v.addFx (FxEnt.mk o.seq i.cause (o.t.th % 64) i.tval)
  let p : Report := Report.mk i.cause i.tval i.taux none consumed (some o.seq) id (if o.atStart then 2 ^ 64 else o.chunk) 0 found false
  let s := (s.reportRollback o.t o.atStart).addReport o.t p
  (if o.atStart then s.updOp id fun o => { o with phase := .done, res := [] } else s.completeOp id).settle o.t

end Sys2Proof.Machine
end

