-- ==== Sys2Proof/Machine/Homes.lean ====
section
/-!
DEFINITION. The homes: translation and its TLB (18 R374 to R376), performing global accesses (06 R145, R152, R155 to
R157; 11 R286), pages that are not resident (R149; 18 R377), page moves (R379), pages of other modules (21 R405 to
R409), and the reports of deferred faults (06 R148).
-/
namespace Sys2Proof.Machine

/-- The words of an extent of a page scrubbed. -/
def State.scrubPage (s : State) (p : Page) (off n : Nat) : State :=
  (wordsIn off n).foldl (fun (s : State) w => s.homeScrub p.home (s.readKey p w)) s

/-- Whether the sector of an offset is being copied by a page move (18 R379): accesses to it wait. -/
def State.inMove (s : State) (p : Page) (off : Nat) : Bool :=
  match s.moveOf? p with
  | some m => decide ((off - p.base) / 256 = m.cursor)
  | none => false

/-! ### What a home holds (18 R372) -/

/-- The requests that a home has accepted and not yet performed. -/
def State.inHome (s : State) (home : Nat) : List (Nat × Op) :=
  s.ops.filter fun e => !e.2.buffered &&
    (match e.2.phase, e.2.cls with
     | .walking _, _ => true
     | .missed, _ => true
     | .heldNR, _ => true
     | .held, _ => true
     | .faulted, .globalLoad => true
     | .faulted, .globalStore => true
     | .faulted, .globalAtomic => true
     | .waiting, _ => decide (e.2.arrived ≠ 0)
     | .sent, _ => decide (e.2.arrived ≠ 0)
     | _, _ => false) &&
    (match Addr.of e.2.ea with | .glob h _ => decide (h = home) | _ => false)

/-- The pools that some operations belong to; requests of the physical function belong to none (18 R372). -/
def State.poolsOf (s : State) (l : List (Nat × Op)) : BitVec 64 :=
  l.foldl (fun m e => if e.2.vd < 512 then m ||| (1 <<< (s.vdRec e.2.vd).pool) else m) 0

/-- Where the error of a word is found that an access of a page consumes: at the home when its ECC finds it now, with the home's blast
set; a word that is poisoned already concerns the consuming tile alone (22 R424). -/
def State.homeFound (s : State) (id : Nat) (o : Op) (p : Page) (off : Nat) : Found :=
  { src := 10, unit := some p.home
    pools := if nFlips (flipsAt s.hbmFlips (s.readKey p off / 8 * 8)) ≥ 2 then some (s.poolsOf ((id, o) :: s.inHome p.home)) else none }

/-! ### Performing at the frame -/

/-- A line enters the read cache of a tile, in place of one that the tile chooses when 512 are there (06 R152). -/
def State.fillLine (s : State) (v : TileRef) (a : Nat) (x : Seen) : State :=
  let (n, s) := s.draw
  let s := s.updTile v fun t =>
    let c := t.rcache.filter fun l => l.vdAddr ≠ a
    let c := if c.length ≥ 512 then c.eraseIdx (n % 512) else c
    { t with rcache := c ++ [{ vdAddr := a, bytes := x.1, stamp := s.nextId, marks := x.2 }] }
  { s with nextId := s.nextId + 1 }

/-- A global load is performed. -/
def State.homeLoad (s : State) (id : Nat) (o : Op) (a : AccInfo) (p : Page) (off : Nat) : State :=
  let found := s.homeFound id o p off
  let s := s.scrubPage p off o.size
  if s.pagePoisoned p off then s.deferFault id cPoison o.ea true found
  else
    let base := o.ea.toNat / 64 * 64
    let s := if o.line = 1 ∧ !(List.range 8).any (fun i => s.pagePoisoned p (off / 64 * 64 + 8 * i)) then
        s.fillLine o.tile base (s.tileView o.tile base (s.pageBytes p (off / 64 * 64) 64, s.marksAt (p.key (off / 64 * 64)) 64)) else s
    let (x, n) := s.readView o p off o.size
    let x := s.globalView o id o.ea.toNat x
    ({ s with fresh := s.fresh + n }.hear o.t (if o.acquire then some id else none) o.scope x.2).reply id (a.deliver 0 x.1)

/-- The sum of merged addends by some full tree of the butterfly's choosing (04 R115; 06 R157): any two of the sums so far are
joined next. -/
def mergeTree : Nat → Nat → List Word → Word
  | 0, _, l => l.headD 0
  | n + 1, k, l =>
    match l with
    | [] => 0
    | [x] => x
    | l =>
      let i := Config.freeNat k % l.length
      let a := (l[i]?).getD 0
      let l' := l.eraseIdx i
      let j := Config.freeNat (k + 1) % l'.length
      mergeTree n (k + 2) (l'.eraseIdx j ++ [(fpAdd .rne a ((l'[j]?).getD 0)).1])

/-- The members of a merged set in an order of the butterfly's choosing (06 R157). -/
def mergeOrder {α : Type} : Nat → Nat → List α → List α
  | 0, _, l => l
  | n + 1, k, l =>
    match l[Config.freeNat k % max 1 l.length]? with
    | none => []
    | some x => x :: mergeOrder n (k + 1) (l.eraseIdx (Config.freeNat k % max 1 l.length))

/-- Whether an access came by a Woreri port. -/
def Op.fromPort (o : Op) : Bool := decide (o.tile.l = 2 ^ 64 + 1)

/-- The AFADDs that the butterfly of a field may merge with one that reaches its home: waiting, to the same word, from tiles of
that field, in free mode (11 R271). What travels to another module, or came from one, it never merges (21 R407). -/
def State.mergeable (s : State) (id : Nat) (o : Op) : List (Nat × Op) :=
  s.ops.filter fun e => !o.fromPort && !e.2.fromPort && decide (o.prog ≠ 2) && decide (e.1 ≠ id) && decide (e.2.cls = .globalAtomic) && decide (e.2.phase = .waiting) &&
    (match e.2.ins with | .afadd .. => true | _ => false) && decide (e.2.vd = o.vd) && decide (e.2.ea = o.ea) && s.clear e.2 &&
    !s.isDet e.2.tile.l && decide (s.tileField e.2.tile = s.tileField o.tile)

/-- Those of them that it does merge: a free choice for each. -/
def pickFree : Nat → List (Nat × Op) → List (Nat × Op)
  | _, [] => []
  | k, e :: l => if Config.freeBool k then e :: pickFree (k + 1) l else pickFree (k + 1) l

/-- The reply to one member of a merged set: the first receives the old value, a later one its sum with the addends before it,
formed by some tree (06 R157). -/
def State.mergedReply (s : State) (e : Nat × Op) (old : Word) (before : List Word) : State :=
  let v := if before = [] then old else (fpAdd .rne old (mergeTree before.length s.fresh before)).1
  let s := { s with fresh := s.fresh + 2 * before.length }
  match accOf e.2.ins with
  | some a => if a.ret then s.reply e.1 (a.old v.toNat) else s.endOp e.1
  | none => s

def State.mergedReplies (s : State) (old : Word) : List Word → List (Nat × Op) → State
  | _, [] => s
  | before, e :: l => (s.mergedReply e old before).mergedReplies old (before ++ [BitVec.ofNat 32 e.2.operand.1]) l

/-- An atomic is performed by the home's atomic unit. -/
def State.homeAtomic (s : State) (id : Nat) (o : Op) (a : AccInfo) (p : Page) (off : Nat) : State :=
  let found := s.homeFound id o p off
  let s := s.scrubPage p off o.size
  if s.pagePoisoned p off then s.deferFault id cPoison o.ea true found
  else
    let old := leNat (s.pageBytes p off o.size)
    let cands := match o.ins with | .afadd .. => if s.isDet o.tile.l then [] else s.mergeable id o | _ => []
    let set := (id, o) :: pickFree s.fresh cands
    let s := { s with fresh := s.fresh + cands.length }
    let held := s.marksAt (p.key off) o.size
    let s := set.foldl (fun (s : State) e => (s.hear e.2.t none e.2.scope held).dropLine e.2.tile e.2.ea.toNat) s
    let past : Past := { o.writes (set.map Prod.fst) true with
      keep := true, leaves := set.flatMap fun e => markOf e.2.t (p.key off) o.size (s.given e.2 e.1) }
    match set with
    | _ :: _ :: _ =>
      let set := mergeOrder set.length s.fresh set
      let s := { s with fresh := s.fresh + set.length }
      let adds := set.map fun e => (BitVec.ofNat 32 e.2.operand.1 : Word)
      let sum := mergeTree set.length s.fresh adds
      let s := { s with fresh := s.fresh + 2 * set.length }
      let nw := (fpAdd .rne (BitVec.ofNat 32 old) sum).1
      (s.pageStoreBy p off (leBytes nw.toNat 4) past).mergedReplies (BitVec.ofNat 32 old) [] set
    | _ =>
      let s := s.pageStoreBy p off (leBytes (atomicNew o.ins o.size old o.operand.1 o.operand.2) o.size) past
      if a.ret then s.reply id (a.old old) else s.endOp id

/-- A global access is performed at its frame (06 R145). One whose payload was poisoned on its way consumes the poison, or
carries it (22 R415, R416). -/
def State.homeDo (s : State) (id : Nat) (o : Op) (a : AccInfo) (p : Page) (off : Nat) : State :=
  match a.kind with
  | .load => if o.poison then s.deferFault id cPoison o.ea true { src := 10, unit := some p.home } else s.homeLoad id o a p off
  | .store =>
    let s := (s.globWrote o.tile.l o.ea.toNat o.size).pageStoreBy p off (o.data.take o.size)
      { o.writes [id] true with leaves := markOf o.t (p.key off) o.size (s.given o id) }
    (if o.poison then s.pagePoison p [off] else s).endOp id
  | .atomic =>
    if o.poison then s.deferFault id cPoison o.ea true { src := 10, unit := some p.home }
    else (s.globWrote o.tile.l o.ea.toNat o.size).homeAtomic id o a p off

/-! ### Pages of other modules (21 R405 to R409) -/

/-- Whether a port may not send for a page now: accesses sent for it by another port are outstanding (R406), or the receiver
has set XOFF for the channel, REQ or RED (R403). -/
def State.portHeld (s : State) (o : Op) (p : Page) (port : Nat) : Bool :=
  (s.ops.any fun e => decide (e.2.phase = .sent) && decide (e.2.prog = 2) && decide (e.2.vd = p.vd) && decide (e.2.unit ≠ port) &&
    (match Addr.of e.2.ea with | .glob home off => p.has p.vd home off | _ => false)) ||
  s.portStopped port (if s.isReduce o then 2 else 0)

/-- An access to a REMOTE page: denied without SYS, no mapping without a route, else forwarded; it waits at the home while its
port may not send. -/
def State.forward (s : State) (id : Nat) (o : Op) (p : Page) : State :=
  if !(s.vdRec o.vd).scope.getLsbD 1 then s.deferFault id cScopeDenied o.ea
  else match p.remote with
    | none => s
    | some (m, _, _) =>
      match s.portFor m (p.base / 65536) with
      | none => s.deferFault id cMemNomap o.ea
      | some port =>
        if s.portHeld o p port then
          s.updOp id fun o => { o with phase := if o.cls = .globalStore then .sent else .waiting }
        else (s.portSend port (if s.isReduce o then 2 else 0) o.vd).updOp id fun o => { o with phase := .sent, prog := 2, unit := port }

/-- What the target home finds where a REMOTE page's module is this one (R405), with the offset at that home. -/
def State.loopback (s : State) (o : Op) (rd wr : Bool) : Option (Xlate × Nat) :=
  match Addr.of o.ea with
  | .glob home off =>
    match s.page? o.vd home off with
    | some p =>
      match p.remote with
      | some (m, rvd, raddr) =>
        if m = s.modid.toNat then
          match Addr.of (BitVec.ofNat 64 (raddr + (off - p.base))) with
          | .glob h2 o2 => some (s.xlate rvd h2 o2 rd wr, o2)
          | _ => none
        else none
      | none => none
    | none => none
  | _ => none

/-- An access that was forwarded is performed at the target module. The other module's memory is not part of this state:
what it answers, a value or one of its faults, is free. -/
def State.remoteAnswer (s : State) (id : Nat) (o : Op) (a : AccInfo) : State :=
  match s.loopback o (decide (a.kind ≠ .store)) (decide (a.kind ≠ .load)) with
  | some (.ok q, off) => if s.inMove q off then s else s.homeDo id o a q off
  | some (.nomap, _) => s.deferFault id cMemNomap o.ea
  | some (.prot, _) => s.deferFault id cMemProt o.ea
  | some (.notResident _, _) => s
  | _ =>
    let (k, s) := s.draw
    if k % 4 = 1 then s.deferFault id cMemNomap o.ea
    else if k % 4 = 2 then s.deferFault id cMemProt o.ea
    else
      let (v, s) := s.draw
      if a.ret then s.reply id (if a.kind = .load then a.deliver 0 (leBytes v a.size) else a.old v) else s.endOp id


/-- The first offset of an extent that a home refuses to read, with the cause; and whether one must wait. -/
def State.globalRefused (s : State) (vd home off n : Nat) : Option (Nat × Nat) :=
  (List.range n).findSome? fun i => match s.reach vd home (off + i) true false with
    | .fault c => some (c, off + i)
    | _ => none
def State.globalWaits (s : State) (vd home off n : Nat) : Bool :=
  (List.range n).any fun i => match s.reach vd home (off + i) true false with
    | .wait _ _ => true
    | .ok p o => s.inMove p o
    | _ => false

/-! ### LNCH (09 R245; 21 R395) -/

/-- The fourth queue of a VD with room for a block: the address of the entry that its tail names. -/
def Vd.ringFree (v : Vd) : Option DWord :=
  let q := v.queues[3]
  if q.qbase = 0 ∨ (q.tail - q.qhead).toNat ≥ 2 ^ q.qlog then none
  else some (q.qbase + BitVec.ofNat 64 (256 * (q.tail.toNat % 2 ^ q.qlog)))

/-- Operations in the order in which they arrived. -/
def insertArrival (x : Nat × Op) : List (Nat × Op) → List (Nat × Op)
  | [] => [x]
  | y :: l => if x.2.arrived < y.2.arrived then x :: y :: l else y :: insertArrival x l
def State.byArrival (s : State) (p : Op → Bool) : List (Nat × Op) :=
  (s.ops.filter fun e => p e.2).foldl (fun l e => insertArrival e l) []

/-- The block of a LNCH enters a free entry of the ring, and the LNCH completes. -/
def State.ringStore (s : State) (id : Nat) (o : Op) (a : DWord) : State :=
  let g := if s.isDet o.tile.l then s.histOf o.tile.l else (o.gives.map Gift.ops).getD []
  (((s.globWrote o.tile.l a.toNat 256).gwrite o.vd a o.data).updVd o.vd fun v =>
    { v with queues := v.queues.set 3 { v.queues[3] with tail := v.queues[3].tail + 1 }, gifts := v.gifts ++ [g] }).endOp id

/-- The blocks that wait at the rim enter the ring in the order of their arrival, as far as it has room. -/
def ringNextN : Nat → Nat → State → State
  | 0, _, s => s
  | n + 1, vd, s =>
    match s.byArrival fun o => decide (o.cls = .launchQ) && decide (o.phase = .parked) && decide (o.vd = vd), (s.vdRec vd).ringFree with
    | e :: _, some a => ringNextN n vd (s.ringStore e.1 e.2 a)
    | _, _ => s
def State.ringNext (s : State) (vd : Nat) : State := ringNextN s.ops.length vd s

/-- A block that a LNCH has read comes to the rim. -/
def State.ringPut (s : State) (id : Nat) (o : Op) : State :=
  ({ s.updOp id (fun _ => { o with phase := .parked, arrived := s.nextId }) with nextId := s.nextId + 1 }).ringNext o.vd

/-- A request finds its page's frame away: the home holds it (18 R377); one of a launch that has been killed is discarded (15 R316). -/
def State.dyingOp (s : State) (o : Op) : Bool := ((s.launch? o.tile.l).map Launch.dying).getD false
def State.holdAway (s : State) (id : Nat) (o : Op) : State :=
  if s.dyingOp o then s.dropOp id
  else
    { s.updOp id (fun o => { o with phase := .heldNR, arrived := if o.arrived = 0 then s.nextId else o.arrived }) with
      nextId := s.nextId + 1 }

/-- The block of a LNCH is read at its home. What another module answers is free (log 10). -/
def State.lnchRead (s : State) (id : Nat) (o : Op) (home off : Nat) : State :=
  match s.reach o.vd home off true false with
  | .fault c => s.deferFault id c o.ea
  | .wait _ _ => s.holdAway id o
  | .far _ =>
    let k := s.fresh
    ({ s with fresh := s.fresh + 256 }).ringPut id
      { o with data := (List.range 256).map fun i => BitVec.ofNat 8 (Config.freeNat (k + i)) }
  | .ok p off => s.ringPut id { o with data := s.pageBytes p off 256 }

/-! ### The host's window (21 R396) -/

/-- What a byte of a VD's window meets at its home: its page, a wait, a refusal, a page of another module. -/
inductive HostByte where
  | ok (p : Page) (off : Nat) | wait | no | far
  deriving DecidableEq, Repr

def State.hostMeets (s : State) (vd home off : Nat) (write : Bool) : HostByte :=
  match s.reach vd home off (!write) write with
  | .ok p o => if s.inMove p o then .wait else .ok p o
  | .wait _ _ => .wait
  | .fault _ => .no
  | .far _ => .far

/-- The home and the offset of byte i of a host access, whose `unit` is its offset in the window. -/
def Op.hostByte (o : Op) (i : Nat) : Nat × Nat := ((o.unit + i) / 2 ^ 36 % 64, (o.unit + i) % 2 ^ 36)

/-- The bytes that a read returns. The spec states no value for a poisoned word that the host reads, and none for another
module's memory: they are free. -/
def State.hostGet (s : State) (o : Op) : List Byte :=
  (List.range o.size).map fun i =>
    let (home, off) := o.hostByte i
    match s.hostMeets o.vd home off false with
    | .ok p o => if s.pagePoisoned p o then BitVec.ofNat 8 (Config.freeNat (s.fresh + i)) else s.pageByte p o
    | _ => BitVec.ofNat 8 (Config.freeNat (s.fresh + i))

/-- A write of the host, in the homes that its extent of the window names: words that it writes whole lose their marks. -/
def State.hostPut (s : State) (o : Op) : State :=
  let n := 2 ^ 36 - o.unit % 2 ^ 36
  let at_ (i : Nat) : DWord := BitVec.ofNat 64 ((o.hostByte i).1 * 2 ^ 52 + (o.hostByte i).2)
  (s.gwrite o.vd (at_ 0) (o.data.take n)).gwrite o.vd (at_ n) (o.data.drop n)

/-- What the pages that a host access has reached leave in their home's TLB (18 R375). -/
def State.hostLookup (s : State) (o : Op) : State :=
  (List.range o.size).foldl (fun (s : State) i => s.lookup o.vd (o.hostByte i).1 (o.hostByte i).2) s

/-- A host access is performed, or refused, unless it must wait. -/
def State.hostDo (s : State) (id : Nat) (o : Op) : State :=
  let write := match o.ins with | .hostWindowWrite => true | _ => false
  let ms := (List.range o.size).map fun i => s.hostMeets o.vd (o.hostByte i).1 (o.hostByte i).2 write
  if ms.contains .wait then s
  else if ms.contains .no then
    if write then
      (s.updVd o.vd fun v => { v with queues := v.queues.set 0 { v.queues[0] with qerr := min (v.queues[0].qerr + 1) 0xFFFFFFFF } }).dropOp id
    else { s.dropOp id with hostOut := List.replicate o.size 0xFF }
  else if write then ((s.hostLookup o).hostPut o).dropOp id
  else
    let s := (List.range o.size).foldl (fun (s : State) i =>
      match s.hostMeets o.vd (o.hostByte i).1 (o.hostByte i).2 false with
      | .ok p off => s.scrubPage p off 1
      | _ => s) (s.hostLookup o)
    { s.dropOp id with hostOut := s.hostGet o, fresh := s.fresh + o.size }

/-! ### Translation -/

/-- What a completed translation gives (18 R376). -/
def State.homePerform (s : State) (id : Nat) : State :=
  match s.op? id with
  | none => s
  | some o =>
    match Addr.of o.ea, accOf o.ins with
    | .glob home off, some a =>
      match s.xlate o.vd home off (decide (a.kind ≠ .store)) (decide (a.kind ≠ .load)) with
      | .nomap => s.deferFault id cMemNomap o.ea
      | .prot => s.deferFault id cMemProt o.ea
      | .notResident _ => s.holdAway id o
      | .remote p => s.forward id o p
      | .ok p => s.homeDo id o a p off
    | .glob home off, none => if o.cls = .launchQ then s.lnchRead id o home off else s
    | _, _ => s

/-- Whether the access meets a sector that is being copied. -/
def State.moveHolds (s : State) (o : Op) : Bool :=
  match Addr.of o.ea with
  | .glob home off => ((s.page? o.vd home off).map fun p => s.inMove p off).getD false
  | _ => false

/-- The distinct walks of a home (18 R375). -/
def State.walksOf (s : State) (home : Nat) : Nat := (s.walks.filter fun e => decide (e.2.home = home)).length

/-- A walk starts, with the requests that wait for it in the order of their arrival. -/
def State.startWalk (s : State) (vd home base : Nat) (ids : List Nat) : State :=
  let w := s.nextId
  { s with walks := s.walks ++ [(w, Walk.mk vd home base ids)], nextId := w + 1
           ops := s.ops.map fun e => if ids.contains e.1 then (e.1, { e.2 with phase := .walking w }) else e }

/-- Whether an operation's address names a page of a home. -/
def State.wantsPage (s : State) (vd home base : Nat) (o : Op) : Bool :=
  decide (o.vd = vd) && (match Addr.of o.ea with | .glob h off => decide (h = home) && decide (s.pageBase vd home off = base) | _ => false)

/-- A walk of a home has ended: the oldest miss that waits in its miss store starts one, and those of its page join it. -/
def State.startMissed (s : State) (home : Nat) : State :=
  let l := s.byArrival fun o => decide (o.phase = .missed) && (match Addr.of o.ea with | .glob h _ => decide (h = home) | _ => false)
  match l with
  | [] => s
  | (_, o) :: _ =>
    match Addr.of o.ea with
    | .glob _ off =>
      if s.walksOf home ≥ 256 then s
      else
        let base := s.pageBase o.vd home off
        s.startWalk o.vd home base ((l.filter fun e => s.wantsPage o.vd home base e.2).map Prod.fst)
    | _ => s

/-- A request reaches its home: a TLB hit proceeds; a miss joins its walk or starts one, or waits in the miss store while 256
run. -/
def State.homeArrive (s : State) (id : Nat) (o : Op) : State :=
  match Addr.of o.ea with
  | .glob home off =>
    let base := s.pageBase o.vd home off
    if s.tlb.contains (o.vd, home, base) then s.homePerform id
    else match s.walks.find? fun e => decide (e.2.vd = o.vd) && decide (e.2.home = home) && decide (e.2.page = base) with
      | some e =>
        ({ s with walks := s.walks.upd e.1 fun w => { w with ops := w.ops ++ [id] } }).updOp id fun o => { o with phase := .walking e.1 }
      | none =>
        if s.walksOf home ≥ 256 then
          { s.updOp id (fun o => { o with phase := .missed, arrived := s.nextId }) with nextId := s.nextId + 1 }
        else s.startWalk o.vd home base [id]
  | _ => s

/-- A request whose translation a walk has brought: one that meets a sector under way waits for it (18 R379). -/
def State.walked (s : State) (id : Nat) : State :=
  match s.op? id with
  | none => s
  | some o =>
    if s.moveHolds o then s.updOp id fun o => { o with phase := if o.cls = .globalStore then .sent else .waiting }
    else s.homePerform id

/-! ### Events -/

/-- HOME_ACCESS: a request whose earlier accesses are performed reaches its home, or one that was forwarded is answered. -/
def execHomeAccess (op : Nat) (s : State) : Out :=
  .next (match s.op? op with
    | none => s
    | some o =>
      match accOf o.ins with
      | none =>
        if o.phase ≠ .waiting ∨ !s.clear o then s
        else if o.cls = .launchQ ∧ !s.moveHolds o then s.homeArrive op o
        else if o.cls = .hostAccess then s.hostDo op o else s
      | some a =>
        if o.phase = .sent ∧ o.prog = 2 then (if s.isReduce o then s else s.remoteAnswer op o a)
        else if !s.clear o ∨ s.moveHolds o then s
        else if (o.phase = .waiting ∧ ((o.cls = .globalLoad ∧ o.line = 0) ∨ o.cls = .globalAtomic)) ∨
            (o.phase = .sent ∧ o.cls = .globalStore) then s.homeArrive op o
        else s)

/-- READ_CACHE_REFILL: a load that missed is served by a line that has come meanwhile, or fills its line (06 R152). -/
def execReadCacheRefill (op : Nat) (s : State) : Out :=
  .next (match s.op? op with
    | none => s
    | some o =>
      if o.phase = .waiting ∧ o.cls = .globalLoad ∧ o.line = 1 ∧ s.clear o ∧ !s.moveHolds o then
        match accOf o.ins, (if Config.freeBool s.fresh then s.cached o.t o.ea.toNat else none) with
        | some a, some l => ({ s with fresh := s.fresh + 1 }.hearLine o.t none o.scope l o.ea.toNat a.size).reply op (a.deliver 0 ((l.bytes.drop (o.ea.toNat % 64)).take a.size))
        | _, _ => ({ s with fresh := s.fresh + 1 }).homeArrive op o
      else s)

/-- WRITE_BUFFER_RELEASE: a store leaves the tile for its home (06 R152; 11 R271). -/
def execWriteBufferRelease (op : Nat) (s : State) : Out :=
  .next (match s.op? op with
    | none => s
    | some o =>
      if o.phase = .waiting ∧ o.cls = .globalStore ∧ s.clear o then s.updOp op fun o => { o with phase := .sent } else s)

/-- TLB_WALK_COMPLETE: the entry is filled, and the requests that waited are performed in their order of arrival. -/
def execTlbWalkComplete (w : Nat) (s : State) : Out :=
  .next (match s.walks.get? w with
    | none => s
    | some k =>
      let s := { s with walks := s.walks.del w }
      let s := if (s.page? k.vd k.home k.page).isSome then s.fillTlb (k.vd, k.home, k.page) else s
      (k.ops.foldl (fun (s : State) id => s.walked id) s).startMissed k.home)

/-- REDUCE_OP_PERFORM: a reduce operation is performed at its target home (21 R409). -/
def execReduceOpPerform (op : Nat) (s : State) : Out :=
  .next (match s.op? op with
    | none => s
    | some o =>
      match accOf o.ins with
      | none => s
      | some a => if o.phase = .sent ∧ o.prog = 2 ∧ s.isReduce o then s.remoteAnswer op o a else s)

/-- NOT_RESIDENT_REPORT: the home holds the access, and its thread is to be evicted to its image (06 R149; 12 R300): at once when
its results have landed and PEND is clear but for held accesses, else as soon as that is so. -/
def execNotResidentReport (op : Nat) (s : State) : Out :=
  .next (match s.op? op with
    | none => s
    | some o =>
      if o.phase = .heldNR ∧ o.prog = 0 ∧ ((accOf o.ins).isSome ∨ o.cls = .launchQ) then
        ((s.updOp op fun o => { o with prog := 1 }).updThread o.t fun t => { t with evictDue := true }).tryEvict o.t
      else s)

/-- THREAD_READY: an evicted thread none of whose accesses waits for a page becomes ready once PEND is clear (06 R149; 02 R42; 05
R447); one that is blocked in RECV may take a slot again when its mailbox holds an entry. -/
def execThreadReady (t : TRef) (s : State) : Out :=
  .next (match s.thread? t with
    | none => s
    | some th =>
      if s.awaitsPage t ∨ !s.pendClear t then s
      else match th.run with
        | .evicted => s.makeReady t
        | .recv .. =>
          if th.evictDue ∧ th.slot = none then
            ({ s.updThread t (fun th => { th with evictDue := false, readySeq := s.nextId }) with nextId := s.nextId + 1 }).fillSlots t.tile
          else s
        | _ => s)

/-- The saved contents of a page come into its frame, under whichever names the page has. -/
def State.fillFrame (s : State) (p : Page) : State :=
  let old := { s with hbm := s.hbm.filter fun c => !(decide (hbmKey p.home p.frame ≤ c.1) && decide (c.1 < hbmKey p.home p.frame + p.size)) }
  { old with hbm := p.saved.foldl (fun m c => Memory.write m (hbmKey p.home (p.frame + c.1)) c.2) old.hbm }

/-- The frame that the firmware fills for a page: the one kept for it, unless its memory is retired meanwhile (23 R434). -/
def State.frameFor (s : State) (p : Page) : Option Nat :=
  if s.pcgOut.any fun e => decide (e.1 = p.home) && decide (e.2 * 2 ^ 30 < p.frame + p.size) && decide (p.frame < (e.2 + 1) * 2 ^ 30) then
    s.pickFrame p.home p.size
  else some p.frame

/-- Whether an operation is held at its home for the frame of a page, or of another name of it (R377). -/
def State.heldFor (s : State) (p : Page) (o : Op) : Bool :=
  let away (home off : Nat) : Bool := match s.reach o.vd home off false false with | .wait q _ => q.shares p | _ => false
  if o.cls = .hostAccess then (List.range o.size).any fun i => away (o.hostByte i).1 (o.hostByte i).2
  else decide (o.phase = .heldNR) && (match Addr.of o.ea with | .glob home off => away home off | _ => false)

/-- What becomes of a held access when its page's frame is there. -/
def State.release_ (s : State) (id : Nat) (o : Op) : State :=
  if s.dyingOp o ∨ o.cls = .pageFetch then s.dropOp id
  else if o.cls = .hostAccess then (if s.clear o then s.hostDo id o else s)
  else (s.updOp id fun o => { o with phase := .waiting, prog := 0 }).homePerform id

/-- PAGE_RESIDENT: the firmware fills the frame and marks the page resident; the home performs the held accesses in
arrival order, the host's among them, and a thread whose instruction fetch waited may be ready (18 R377). An engine's access reaches
the home when it is performed (log 61). -/
def execPageResident (vd home base : Nat) (s : State) : Out :=
  .next (match s.pages.find? fun p => decide (p.vd = vd) && decide (p.home = home) && decide (p.base = base) with
    | none => s
    | some p =>
      if p.resident then s
      else match s.frameFor p with
      | none => s
      | some f =>
        let held := s.byArrival (s.heldFor p)
        let s := (s.fillFrame { p with frame := f }).rekey (awayKey p.home p.frame) (hbmKey p.home f) p.size
        let fill (q : Page) : Page := if q.shares p then { q with resident := true, saved := [], frame := f } else q
        let s := { s with fresh := s.fresh + 1, pages := s.pages.map fill }
        held.foldl (fun (s : State) e => s.release_ e.1 e.2) s)

/-- PAGE_MOVE_SECTOR: one sector of a moving page is copied; with the last one the entry switches (18 R379). -/
def execPageMoveSector (vd home base : Nat) (s : State) : Out :=
  .next (match s.pages.find? fun p => decide (p.vd = vd) && decide (p.home = home) && decide (p.base = base) with
    | none => s
    | some p =>
      match s.moveOf? p with
      | none => s
      | some m =>
        let src := p.frame + 256 * m.cursor
        let dst := m.newFrame + 256 * m.cursor
        let s := (List.range 32).foldl (fun (s : State) i => s.homeScrub home (hbmKey home (src + 8 * i))) s
        let s := (List.range 32).foldl (fun (s : State) i =>
          let k := hbmKey home (dst + 8 * i)
          if s.hbmPoison.contains (hbmKey home (src + 8 * i)) then { s with hbmPoison := setInsert s.hbmPoison k }
          else { s with hbmPoison := setErase s.hbmPoison k, hbmFlips := s.hbmFlips.del k }) s
        let s := { s with hbm := s.hbm.writeN (hbmKey home dst) (s.hbm.readN (hbmKey home src) 256) }
        if m.cursor + 1 ≥ 256 then
          let s := s.rekey (hbmKey home p.frame) (hbmKey home m.newFrame) p.size
          { s with moves := s.moves.filter fun x => x ≠ m
                   pages := s.pages.map fun q => if q.shares p then { q with frame := m.newFrame } else q }
        else { s with moves := s.moves.map fun x => if x = m then { m with cursor := m.cursor + 1 } else x })

/-- The pools whose partitions hold a slice of a field (18 R372). -/
def State.slicePools (s : State) (fld slice : Nat) : BitVec 64 :=
  s.pools.foldl (fun m e => if (s.partition e.1 fld).contains slice then m ||| (1 <<< e.1) else m) 0

/-- The same for a word of the weight store: the slice, when its ECC finds the error now. -/
def State.wsFound (s : State) (pool fld off : Nat) : Found :=
  { src := 9, unit := some fld
    pools := match s.wsAt pool fld off with
      | some k => if nFlips (flipsAt s.wsFlips (k / 8 * 8)) ≥ 2 then some (s.slicePools fld (k / 2 ^ 23 % 64)) else none
      | none => none }

/-- DEFERRED_FAULT_REPORT: the report of an access joins its thread's queue once there is room (06 R148; 12 R301). The
PEND bits clear without a write. A home's access is held for RETT, a remote tile's is held to be discarded; an access
that consumed an error, a group operation and an access of a thread that has exited are discarded with their post. -/
def execDeferredFaultReport (op : Nat) (s : State) : Out :=
  .next (match s.op? op with
    | none => s
    | some o =>
      match o.phase, o.fault with
      | .faulted, some i =>
        if !s.mayReport o then s
        else if o.isEngine then s.engineFault op o i o.consumedF o.found
        else
          let o := { o with t := s.reportTo o }
          let gone := o.consumedF || decide (o.cls = .group) || decide (o.cls = .blast) ||
            decide ((s.thread? o.t).map Thread.run = some .exited) || (s.thread? o.t).isNone
          let s := s.reportRollback o.t o.atStart
          let s := s.clearPend o.t op o.regs
          let s := s.addReport o.t (Report.mk i.cause i.tval i.taux (if gone then none else some op) o.consumedF none op
            (if o.atStart ∨ o.cls = .blast then 2 ^ 64 else o.chunk) 0 o.found false)
          if gone then (s.updOp op fun o => { o with regs := [], res := [], gbar := none }).endOp op
          else
            let s := s.updOp op fun o => { o with phase := .held }
            (s.updThread o.t fun t => { t with held := t.held ++ [{ op := op }] }).settle o.t
      | _, _ => s)

/-- LONG_LATENCY_WRITE: the value of an operation is written, its PEND bits clear, its signal posts (02 R38; 06 R150).
A weight-space load is read here, outside a refresh window of its slice (02 R46). -/
def execLongLatencyWrite (op : Nat) (s : State) : Out :=
  .next (match s.op? op with
    | none => s
    | some o =>
      match o.phase, o.cls with
      | .reply, _ => s.endOp op
      | .waiting, .weight =>
        let pool := s.tilePool o.tile
        let f := s.tileField o.tile
        let slice := ((s.partition pool f)[o.unit / 2 ^ 23]?).getD 64
        let busy := (((s.fields.toList)[f]?).map fun x => x.inWindow.contains (slice - (s.sliceOut.filter fun e => e.1 = f ∧ e.2 < slice).length)).getD false
        if !s.clear o ∨ busy then s
        else match accOf o.ins with
          | none => s
          | some a =>
            let found := s.wsFound pool f o.unit
            let s := s.wsScrub pool f o.unit o.size
            let b := s.wsCarry pool f o.unit o.size
            if b.any Prod.snd then s.deferFault op cPoison o.ea true found
            else (s.reply op (a.deliver 0 (b.map Prod.fst))).endOp op
      | .waiting, .spawn =>
        let child : TRef := ⟨o.tile.l, o.tile.v, o.unit⟩
        if !s.clear o ∨ o.unit = 0 then s
        else
          let s := s.endOp op
          if (s.thread? child).map Thread.run = some .transit then s.makeReady child else s
      | _, _ => s)

end Sys2Proof.Machine
end

