-- ==== Sys2Proof/Machine/Messages.lean ====
section
/-!
DEFINITION. Messages, block transfers and migration, codes 0x70 to 0x77 (06 R160 to R170), and the events that carry
them out: delivery (16 R330 to R334), park queues (R332), transfers (R167), the migration of threads (R168, R170).
-/
namespace Sys2Proof.Machine

/-- Numbers an operation that a tile's engines accept (12 R302). -/
def State.accept (s : State) (v : TileRef) : Nat × State :=
  let n := ((s.tile? v).map fun t => t.issueSeq.toNat).getD 0
  (n, s.updTile v fun t => { t with issueSeq := t.issueSeq + 1 }.ageFx)

/-- An engine operation of a thread with its operands, its place in the issue sequence and what it must follow. -/
def engineOp (cls : Cls) (i : Instr) (c : Ctl) (r : TRef) (t : Thread) (s : State) (vals : List Word) (p : Path)
    (rd wr : Bool) : Op × State :=
  let (n, s) := s.accept r.tile
  ({ t := r, tile := r.tile, vd := s.vdOf r.l, cls, ins := i, vals, path := p, waddr := t.wordAddr c, tinst := s.iword
     after := (s.pathAfter r p rd wr ++ (if wr then s.readsBefore r none else []) ++ (s.before r p).map Prod.fst).eraseDups
     sig := sigOf c t, region := t.region, ven := fpVEN t.fpctl, rm := fpRM t.fpctl, seq := n }, s)

/-- A closing instruction ends its chunk (17 R346). -/
def State.closing (s : State) (r : TRef) : State := s.closeChunk r .closing

/-! ### Mailboxes -/

/-- RECV completes with the oldest entry (06 R162): its registers are written in its issue cycle. In deterministic mode
the instruction has issued already, and only its effect is due. A poisoned entry is consumed (22 R416); a mailbox entry has no address, and TVAL and ADDR give the mailbox's
number (DESIGN CHOICE, log 58). -/
def State.recvDone (s : State) (r : TRef) (t : Thread) (c : Ctl) (mb : Nat) (pd gi : Reg) (m : Msg) (rest : List Msg)
    (issued : Bool) : State :=
  let s := s.updTile r.tile fun v => v.setBox mb rest
  let s := if issued then s.updThread r fun t => { t with run := .ready } else (s.retire r c).clearRst r
  let s := s.updThread r fun t => { t.learnCore m.gift with acqStamp := s.nextId }
  let s := if m.poison then s.consumedHere r cPoison (BitVec.ofNat 64 mb) 0 false { src := 6 }
    else s.updThread r fun t =>
      ((t.landWrite s.nextId pd m.payload.lo).landWrite s.nextId (Reg.hi pd) m.payload.hi).landWrite s.nextId gi
        (m.tag ++ m.source)
  ({ s with nextId := s.nextId + 1 }).postNext r (sigOf c t)

/-- Entries go to the threads that block on a mailbox, in the order in which their RECVs issued. One that has no slot waits for
one from now on (05 R447). In deterministic mode they wait for the lanes' turns (17). -/
def State.serveRecv (s : State) (v : TileRef) (mb : Nat) : State :=
  if s.isDet v.l then s
  else match s.firstRecv v mb, ((s.tile? v).getD {}).box mb with
    | some (r, t, q, c, pd, gi), m :: rest =>
      if t.slot = none ∧ q < t.readySeq then s.fillSlots v
      else if t.slot = none then
        ({ s.updThread r (fun t => { t with readySeq := s.nextId }) with nextId := s.nextId + 1 }).fillSlots v
      else if t.evictDue ∨ t.stopped then s
      else (s.movedOn v).recvDone r t c mb pd gi m rest false
    | _, _ => s

/-- A message enters a mailbox. -/
def State.mailIn (s : State) (v : TileRef) (mb : Nat) (payload : DWord) (tag : Byte) (source : Nat) (poison : Bool)
    (gift : List Nat := []) : State :=
  (s.updTile v fun t =>
    { t.setBox mb (t.box mb ++ [Msg.mk payload tag (BitVec.ofNat 24 source) t.mseq 0 poison gift]) with mseq := t.mseq + 1 }).serveRecv v mb

/-! ### SEND, RECV, MPOLL (06 R161 to R163) -/

/-- The operation that carries a message: destination, mailbox, tag and payload. -/
def sendOp (c : Ctl) (i : Instr) (r : TRef) (t : Thread) (s : State) (dst mb : Nat) (tag : Byte) (payload : DWord) : Op :=
  { t := r, tile := r.tile, vd := s.vdOf r.l, cls := .send, ins := i, path := .msg, waddr := t.wordAddr c, tinst := s.iword
    unit := dst, prog := mb, line := tag.toNat, data := leBytes payload.toNat 8
    after := (s.coreOpen r ++ s.pathAfter r .msg false true).eraseDups, sig := sigOf c t, region := t.region }

/-- Whether a RECV of a thread finds an entry that no thread before it waits for. -/
def State.recvFirst (s : State) (r : TRef) (mb : Nat) : Bool :=
  match s.firstRecv r.tile mb with
  | none => true
  | some x => decide (x.1 = r)

def execSend (c : Ctl) (vt pl : Reg) (tag : BitVec 8) (mb : BitVec 2) (s : State) : Out :=
  issue c (fun _ => { pairs := [pl], reads := [vt, pl, Reg.hi pl] }) (fun r t s =>
    let d := (t.reg vt).toNat
    if d ≥ s.gridSize r.l then s.trapHere r t cVtileRange (BitVec.ofNat 64 d)
    else s.holding r [.vtt d, .outQueue] fun s => s.logged r 0 1 fun s =>
      let s := (s.retire r c).clearRst r
      let o := sendOp c (.send c vt pl tag mb) r t s d mb.toNat tag (t.pair pl)
      s.submit { o with gives := s.coreGift r .vdS [] } true) s

def execRecv (c : Ctl) (pd gi : Reg) (mb : BitVec 2) (s : State) : Out :=
  issue c (fun _ => { pairs := [pd], writes := [pd, Reg.hi pd, gi] }) (fun r t s =>
    let b := mb.toNat
    if s.isDet r.l then
      let s := ((s.retire r c).clearRst r).closing r
      let run : Run := .recv b s.nextId c pd gi
      { s.updThread r (fun t => { t with run }) with nextId := s.nextId + 1 }
    else match s.recvFirst r b, ((s.tile? r.tile).getD {}).box b with
      | true, m :: rest => s.recvDone r t c b pd gi m rest false
      | _, _ =>
        let run : Run := .recv b s.nextId c pd gi
        { s.updThread r (fun t => { t with run }) with nextId := s.nextId + 1 }) s

def mpollWord (l : List Msg) : Word :=
  BitVec.ofNat 32 (l.length + 256 * ((l.head?).map fun m => m.tag.toNat).getD 0)

def execMpoll (c : Ctl) (rd : Reg) (mb : BitVec 2) (s : State) : Out :=
  issue c (fun _ => { det := true, writes := [rd] }) (fun r t s =>
    let v := mpollWord (((s.tile? r.tile).getD {}).box mb.toNat)
    let s := s.retire r c
    let id := s.nextId
    (s.launchOp { t := r, tile := r.tile, vd := s.vdOf r.l, cls := .mpoll, ins := .mpoll c rd mb, waddr := t.wordAddr c
                  tinst := s.iword, sig := sigOf c t, regs := [rd], region := t.region }).reply id [(rd, v)]) s

/-! ### PUT, GET, XIN, XOUT (06 R165 to R167) -/

/-- A short address and an extent (R48, R167): the offset, or the address to report: the register's value when it breaks R48, and
the local address of offset 2^20 for an extent that passes the end (log 42). -/
def extentOf (w : Word) (n : Nat) : Except DWord Nat :=
  match shortAddr w with
  | none => .error (w.setWidth 64)
  | some (win, off) => if off + n > 2 ^ 20 then .error (localAddr win (2 ^ 20)) else .ok off

/-- The granules that an extent of a tile's scratchpad names (17 R348). -/
def extentGranules (w : Word) (n : Nat) : Nat :=
  match shortAddr w with
  | some (_, off) => if n > 2 ^ 20 then 0 else (granulesIn off n).length
  | none => 0

/-- An engine operation that writes the tile's own scratchpad: oversize ones close their chunk and run after the commit
(17 R348); the others need their undo records to fit. -/
def State.engineWrite (s : State) (c : Ctl) (r : TRef) (granules : Nat) (mk : State → Op × State) : State :=
  let go (s : State) (late : Bool) : State :=
    let s := s.retire r c
    let (o, s) := mk s
    s.submit o late
  if granules > 32 then (go s true).closing r else s.logged r granules 0 fun s => go s false

def execPut (c : Ctl) (nt : PutNote) (vt dst src n : Reg) (s : State) : Out :=
  issue c (fun _ => { reads := [vt, dst, src, n] }) (fun r t s =>
    let d := (t.reg vt).toNat
    s.holding r (if d < s.gridSize r.l then [.vtt d] else []) fun s => s.logged r 0 1 fun s =>
      let s := (s.retire r c).clearRst r
      let (o, s) := engineOp .transfer (.put c nt vt dst src n) c r t s [t.reg vt, t.reg dst, t.reg src, t.reg n] .msg true true
      (s.submit { o with unit := d } true).closing r) s

def execGet (c : Ctl) (dst vt src n : Reg) (s : State) : Out :=
  issue c (fun _ => { reads := [dst, vt, src, n] }) (fun r t s =>
    let d := (t.reg vt).toNat
    s.holding r (if d < s.gridSize r.l then [.vtt d] else []) fun s =>
      s.engineWrite c r (extentGranules (t.reg dst) (t.reg n).toNat) fun s =>
        let (o, s) := engineOp .transfer (.get c dst vt src n) c r t s [t.reg dst, t.reg vt, t.reg src, t.reg n] .msg true true
        ({ o with unit := d }, s)) s

/-- A shape descriptor (06 R166). -/
structure Shape where
  rowlen : Nat
  rows : Nat
  gstride : Int
  lstride : Nat

def shapeOf (d : List Byte) : Shape :=
  { rowlen := leNat (d.take 4), rows := leNat ((d.drop 4).take 4), gstride := signed 64 (leNat ((d.drop 8).take 8))
    lstride := leNat ((d.drop 16).take 4) }

/-- The descriptor of an XIN or XOUT as it stands; empty where its address breaks R166. -/
def State.readShape (s : State) (v : TileRef) (w : Word) : List Byte :=
  match extentOf w 24 with
  | .ok off => if off % 8 = 0 then ((s.tile? v).getD {}).spad.readN off 24 else []
  | .error _ => []

/-- The granules of a shape descriptor enter the read signature (17 R347). -/
def State.noteShape (s : State) (r : TRef) (w : Word) : State :=
  match extentOf w 24 with
  | .error _ => s
  | .ok off => if off % 8 ≠ 0 then s else (granulesIn off 24).foldl (fun (s : State) g => s.noteRead r (keyLocal r.v g)) s

/-- The read of the descriptor at issue, by the transfer unit's port: its entries of the read signature, its ECC, and the error
that it consumes (10 R259, R265; 17 R347). -/
def State.takeShape (s : State) (r : TRef) (w : Word) (o : Op) : Op × State :=
  match extentOf w 24 with
  | .error _ => (o, s)
  | .ok off =>
    if off % 8 ≠ 0 then (o, s)
    else
      match (s.noteShape r w).spadRead r.tile off 24 with
      | (.error e, s) =>
        ({ o with consumedF := true
                  fault := some { cause := e.1, tval := viaWindow w (max e.2 off), taux := o.waddr, tinst := o.tinst } }, s)
      | (.ok d, s) => ({ o with data := d }, s)

/-- Granules of the rows that an XIN names, each once. -/
def Shape.granules (h : Shape) (off : Nat) : Nat :=
  if h.rowlen * h.rows > 2 ^ 20 then 0
  else ((List.range h.rows).flatMap fun i => granulesIn (off + i * h.lstride) h.rowlen).eraseDups.length

def execXin (c : Ctl) (loc gp sh : Reg) (s : State) : Out :=
  issue c (fun _ => { pairs := [gp], reads := [loc, gp, Reg.hi gp, sh] }) (fun r t s =>
    let s := s.noteShape r (t.reg sh)
    let d := s.readShape r.tile (t.reg sh)
    let g := match shortAddr (t.reg loc) with | some (_, off) => if d = [] then 0 else (shapeOf d).granules off | none => 0
    s.engineWrite c r g fun s =>
      let (o, s) := engineOp .xfer (.xin c loc gp sh) c r t s [t.reg loc, t.reg gp, t.reg (Reg.hi gp), t.reg sh] .vec true true
      s.takeShape r (t.reg sh) { o with scope := .vdS }) s

def execXout (c : Ctl) (loc gp sh : Reg) (s : State) : Out :=
  issue c (fun _ => { pairs := [gp], reads := [loc, gp, Reg.hi gp, sh] }) (fun r t s =>
    s.logged r 0 1 fun s =>
      let s := s.retire r c
      let (o, s) := engineOp .xfer (.xout c loc gp sh) c r t s [t.reg loc, t.reg gp, t.reg (Reg.hi gp), t.reg sh] .vec true true
      let (o, s) := s.takeShape r (t.reg sh) { o with scope := .vdS }
      (s.submit o true).closing r) s

def Op.val (o : Op) (i : Nat) : Word := (o.vals[i]?).getD 0
def mkInfo (o : Op) (cause : Nat) (tval : DWord) : TrapInfo := { cause, tval, taux := o.waddr, tinst := o.tinst }

/-- The operand faults of PUT and GET, in order; `a`, `b` are its short addresses, `d` the other tile (06 R167). -/
def transferFault (s : State) (o : Op) (a b : Word) (d n : Nat) : Option TrapInfo :=
  if n > 2 ^ 20 then some (mkInfo o cVecLength (BitVec.ofNat 64 n))
  else if d ≥ s.gridSize o.tile.l then some (mkInfo o cVtileRange (BitVec.ofNat 64 d))
  else if n = 0 then none
  else match extentOf a n, extentOf b n with
    | .error e, _ => some (mkInfo o cSpaceInvalid e)
    | _, .error e => some (mkInfo o cSpaceInvalid e)
    | _, _ => none

def offsetOf (w : Word) : Nat := (w.extractLsb' 0 20).toNat

/-- A raw read of a scratchpad extent for an operation: the bytes as it sees them, with the poison of their words. -/
def State.carryView (s : State) (o : Op) (src : TileRef) (off n : Nat) : Except (Nat × Nat) Carried × State :=
  match s.spadCarry src off n with
  | (.error e, s) => (.error e, s)
  | (.ok b, s) =>
    let (d, s) := s.draw
    (.ok ((b.zip (s.unitView o d src off n)).map fun x => (x.2, x.1.2)), s)

/-- What a move of raw bytes between two scratchpads comes to: the runs of its bytes named, of `n` in all. Nothing moves when a
word of the whole extent cannot be rebuilt. -/
def State.moveBytes (s : State) (id : Nat) (o : Op) (src dst : TileRef) (so do_ n : Nat) (runs : List (Nat × Nat)) (who : Option TRef) :
    Except (Nat × Nat) Unit × State :=
  let read : Except (Nat × Nat) Carried × State := match o.got with | some c => (.ok c, s) | none => s.carryView o src so n
  match read with
  | (.error e, s) => (.error e, s)
  | (.ok b, s) =>
    let bad := runs.flatMap fun q => poisonedWords (do_ + q.1) ((b.drop q.1).take (q.2 - q.1))
    let s := if bad = [] then s else s.updOp id fun o => { o with bad := o.bad ++ bad }
    (.ok (), runs.foldl (fun (s : State) q => s.spadPut dst (do_ + q.1) ((b.drop q.1).take (q.2 - q.1)) who true) s)

/-- The words into which an operation has carried poison. -/
def State.badOf (s : State) (id : Nat) : List Nat := ((s.op? id).map Op.bad).getD []

/-- The thread whose chunk keeps undo records for an operation, if it is not released already. -/
def Op.chunkOf (o : Op) : Option TRef := if o.atStart then none else some o.t

/-- An operation goes on as another, of a new number: what waits for it waits for that. -/
def State.renamed (s : State) (id : Nat) (m : Op) : State :=
  let s := s.dropOp id
  let now (l : List Nat) : List Nat := l.map fun i => if i = id then s.nextId else i
  { s with ops := (s.ops.map fun e => (e.1, { e.2 with after := now e.2.after })) ++ [(s.nextId, m)], nextId := s.nextId + 1 }

/-- PUT's bytes are performed and its notification leaves, or it ends (06 R165). -/
def State.putAt (s : State) (id : Nat) (o : Op) (dst : TileRef) : State :=
  let n := (o.val 3).toNat
  let src := offsetOf (o.val 2)
  let finished := ((s.tile? dst).map VTile.finished).getD false
  if finished then (s.countDiscard o.tile.l).endOp id
  else match (if n = 0 then (.ok (), s)
      else s.moveBytes id o o.tile dst src (offsetOf (o.val 1)) n (leftRanges n o.parts) none) with
    | (.error e, s) => s.engineFault id o (mkInfo o e.1 (viaWindow (o.val 2) (max e.2 src))) true
    | (.ok _, s) =>
      let s := s.settleWords dst [(offsetOf (o.val 1), n)] (s.badOf id)
      let s := if o.poison ∧ n ≠ 0 then s.spadPoison dst [offsetOf (o.val 1) / 8 * 8] else s
      match o.ins with
      | .put _ (.note tag mb) .. =>
        let p : DWord := DWord.mk (o.val 1) (o.val 3)
        let m : Op := { o with cls := .send, unit := dst.v, prog := mb.toNat, line := tag.toNat, data := leBytes p.toNat 8
                               phase := .waiting, after := [], gives := some { scope := .vdS, ops := id :: o.view } }
        s.renamed id m
      | _ => s.endOp id

/-- GET's bytes are written locally; a finished source gives zeros (16 R334). -/
def State.getAt (s : State) (id : Nat) (o : Op) (src : TileRef) : State :=
  let n := (o.val 3).toNat
  let off := offsetOf (o.val 0)
  if n = 0 then s.endOp id
  else if ((s.tile? src).map VTile.finished).getD false then
    let s := (leftRanges n o.parts).foldl (fun (s : State) q =>
      s.spadWrite o.tile (off + q.1) (List.replicate (q.2 - q.1) 0) o.chunkOf true) (s.countDiscard o.tile.l)
    (s.settleWords o.tile [(off, n)] (s.badOf id)).endOp id
  else
    let s := (granulesIn (offsetOf (o.val 2)) n).foldl (fun (s : State) g => s.noteRead o.t (keyLocal src.v g)) s
    match s.moveBytes id o src o.tile (offsetOf (o.val 2)) off n (leftRanges n o.parts) o.chunkOf with
    | (.error e, s) => s.engineFault id o (mkInfo o e.1 (viaWindow (o.val 2) (max e.2 (offsetOf (o.val 2))))) true (s.foundAt src)
    | (.ok _, s) =>
      let s := s.settleWords o.tile [(off, n)] (s.badOf id)
      (if o.poison then s.spadPoison o.tile [off / 8 * 8] else s).endOp id

/-- A transfer between tiles is carried out at the tiles. -/
def State.transferAt (s : State) (id : Nat) : State :=
  match s.op? id with
  | none => s
  | some o =>
    match o.ins with
    | .put .. => s.putAt id o ⟨o.tile.l, (o.val 0).toNat⟩
    | _ => s.getAt id o ⟨o.tile.l, (o.val 1).toNat⟩

/-- The operand faults of XIN and XOUT, in order (06 R167). -/
def xferFault (o : Op) : Option TrapInfo :=
  let base := DWord.mk (o.val 1) (o.val 2)
  let h := shapeOf o.data
  let total := h.rowlen * h.rows
  match extentOf (o.val 3) 24 with
  | .error _ => some (mkInfo o cSpaceInvalid ((o.val 3).setWidth 64))
  | .ok d =>
    if d % 8 ≠ 0 then some (mkInfo o cMemAlign ((o.val 3).setWidth 64))
    else if total > 2 ^ 20 then some (mkInfo o cVecLength (BitVec.ofNat 64 total))
    else match Addr.of base with
      | .host => some (mkInfo o cHostSpace base)
      | .glob home off =>
        if total = 0 then none
        else match extentOf (o.val 0) ((h.rows - 1) * h.lstride + h.rowlen) with
          | .error e => some (mkInfo o cSpaceInvalid e)
          | .ok _ =>
            match (List.range h.rows).find? fun (i : Nat) =>
                decide ((off : Int) + (i : Int) * h.gstride < 0) ||
                  decide ((off : Int) + (i : Int) * h.gstride + h.rowlen > 2 ^ 52) with
            | some i =>
              let x := (off : Int) + (i : Int) * h.gstride
              let first : Nat := if x < 0 then (x % 2 ^ 52).toNat else if x ≥ 2 ^ 52 then (x % 2 ^ 52).toNat else 0
              some (mkInfo o cSpaceInvalid (BitVec.ofNat 64 (home * 2 ^ 52 + first)))
            | none => none
      | _ => some (mkInfo o cSpaceInvalid base)

/-- How many bytes a transfer moves; the global offset and the local offset of byte k in transfer order (06 R167). -/
def xferSize (o : Op) : Nat := (shapeOf o.data).rowlen * (shapeOf o.data).rows
def xferAt (o : Op) (k : Nat) : Nat × Nat :=
  let h := shapeOf o.data
  let i := k / max 1 h.rowlen
  let j := k % max 1 h.rowlen
  let base : Nat := match Addr.of (DWord.mk (o.val 1) (o.val 2)) with | .glob _ off => off | _ => 0
  (((base : Int) + (i : Int) * h.gstride + (j : Int)).toNat, offsetOf (o.val 0) + i * h.lstride + j)

def xferHome (o : Op) : Nat := match Addr.of (DWord.mk (o.val 1) (o.val 2)) with | .glob h _ => h | _ => 0

/-- The pieces of a range of bytes that lie in one row each. -/
def xferRows (o : Op) (q : Nat × Nat) : List (Nat × Nat) :=
  let n := max 1 (shapeOf o.data).rowlen
  (List.range ((q.2 - 1) / n + 1 - q.1 / n)).map fun i => (max q.1 ((q.1 / n + i) * n), min q.2 ((q.1 / n + i + 1) * n))

/-- Whether the scratchpad word of an offset is poisoned. -/
def wordPoisoned (s : State) (v : VTile) (l : Nat) : Bool :=
  match s.readWord v (l / 8 * 8) with
  | .poison _ => true
  | _ => false

/-- Global bytes that lie in one word, as an engine reads them, with their poison. Another module answers a free value (log 10). -/
def State.homeGet (s : State) (o : Op) (home g n : Nat) : Carried × State :=
  match s.reach o.vd home g true false with
  | .ok p at_ =>
    let s := (s.lookup o.vd home g).scrubPage p at_ n
    let (x, k) := s.readView o p at_ n
    (x.1.map fun b => (b, s.pagePoisoned p at_), { s with fresh := s.fresh + k })
  | _ => ((List.range n).map fun i => (BitVec.ofNat 8 (Config.freeNat (s.fresh + i)), false), { s with fresh := s.fresh + n })

/-- The same for an extent. -/
def State.homeGetN (s : State) (o : Op) (home g n : Nat) : Carried × State :=
  (wordPieces g n).foldl (fun (x : Carried × State) w =>
    let y := x.2.homeGet o home w.1 w.2
    (x.1 ++ y.1, y.2)) ([], s)

/-- Some bytes of an XOUT that lie in one global word: performed at the home, with the poison of their words. -/
def State.xferSet (s : State) (id : Nat) (o : Op) (g : Nat) (bs : List Byte) (poison : Bool) : State :=
  let s := (s.globWrote o.tile.l (xferHome o * 2 ^ 52 + g) bs.length).lookup o.vd (xferHome o) g
  match s.reach o.vd (xferHome o) g false true with
  | .ok p g =>
    let s := s.pageStoreBy p g bs (o.writes [id] false)
    if poison then s.pagePoison p [g] else s
  | _ => s

/-- The bytes of a run of one row as the transfer reads them, with the poison of their words; or as it has read them already. -/
def State.xferRead (s : State) (o : Op) (out : Bool) (q : Nat × Nat) : Carried × State :=
  let (g, l) := xferAt o q.1
  let n := q.2 - q.1
  match o.got with
  | some c => ((c.drop q.1).take n, s)
  | none =>
    if out then
      let s := s.scrubExtent o.tile l n
      let v := (s.tile? o.tile).getD {}
      let (d, s) := s.draw
      ((s.unitView o d o.tile l n).mapIdx fun i b => (b, wordPoisoned s v (l + i)), s)
    else s.homeGetN o (xferHome o) g n

/-- A run of bytes of one row. -/
def State.xferRun (s : State) (id : Nat) (o : Op) (out : Bool) (q : Nat × Nat) : State :=
  let (g, l) := xferAt o q.1
  let (c, s) := s.xferRead o out q
  if out then
    (wordPieces g (q.2 - q.1)).foldl (fun (s : State) x =>
      let c := (c.drop (x.1 - g)).take x.2
      let bad := c.any Prod.snd
      let s := if bad then s.updOp id fun o => { o with bad := o.bad ++ [x.1 / 8 * 8] } else s
      s.xferSet id o x.1 (c.map Prod.fst) bad) s
  else
    let bad := poisonedWords l c
    (if bad = [] then s else s.updOp id fun o => { o with bad := o.bad ++ bad }).spadPut o.tile l c o.chunkOf

/-- The words that a transfer has written whole, in whatever pieces: those of some runs of its rows. -/
def State.xferSettle (s : State) (id : Nat) (o : Op) (out : Bool) (l : List (Nat × Nat)) : State :=
  let at_ (q : Nat × Nat) : Nat × Nat := (if out then (xferAt o q.1).1 else (xferAt o q.1).2, q.2 - q.1)
  if !out then s.settleWords o.tile (l.map at_) (s.badOf id)
  else (wholeWords (l.map at_)).foldl (fun (s : State) w =>
    match s.reach o.vd (xferHome o) w false true with
    | .ok p g => if (s.badOf id).contains w then s else s.settlePage p [(g, 8)] []
    | _ => s) s

/-- Whether a page of the transfer is not resident, or is moving its sector: the transfer waits at the home. -/
def State.xferWaits (s : State) (o : Op) (out : Bool) : Bool :=
  (List.range (xferSize o)).any fun k => match s.reach o.vd (xferHome o) (xferAt o k).1 (!out) out with
    | .wait _ _ => true
    | .ok p g => s.inMove p g
    | _ => false

/-- Why its home refuses a byte of a transfer. -/
def State.xferBad (s : State) (o : Op) (out : Bool) (k : Nat) : Option Nat :=
  match s.reach o.vd (xferHome o) (xferAt o k).1 (!out) out with
  | .fault c => some c
  | _ => none

/-- The first byte of a transfer that its home refuses. -/
def State.xferRefused (s : State) (o : Op) (out : Bool) : Option (Nat × Nat) :=
  (List.range (xferSize o)).findSome? fun k => (s.xferBad o out k).map fun c => (k, c)

/-- The first word of an XOUT's rows that cannot be rebuilt (10 R265), by its offset. -/
def State.xferLost (s : State) (o : Op) : Option Nat :=
  match s.tile? o.tile with
  | none => none
  | some t => (List.range (xferSize o)).findSome? fun k =>
      let w := (xferAt o k).2 / 8 * 8
      if s.readWord t w = .reconFail then some (max w (xferAt o k).2) else none

/-- What stops an XIN or XOUT before its bytes move: the error of its descriptor's read, or an operand fault. -/
def xferStop (o : Op) : Option TrapInfo :=
  match o.fault with
  | some i => some i
  | none => xferFault o

/-- XIN and XOUT move the bytes that they have not moved yet (06 R166, R167). Units of 256 bytes from the first that a home
refuses on are written or not by a free choice. An XIN's reads enter its chunk's signature. -/
def State.xferDo (s : State) (id : Nat) (o : Op) (out : Bool) : State :=
  match xferStop o with
  | some i => s.engineFault id o i o.consumedF
  | none =>
    if s.xferWaits o out ∨ (xferSize o ≠ 0 ∧ s.homesFull o) then s
    else
      let s := if out then s else (List.range (xferSize o)).foldl (fun (s : State) k =>
        s.noteRead o.t (keyGlobal (xferHome o * 2 ^ 52 + (xferAt o k).1))) s
      match (if out then s.xferLost o else none), s.xferRefused o out with
      | some w, _ => s.engineFault id o (mkInfo o cSpadReconFail (viaWindow (o.val 0) w)) true
      | none, none =>
        let s := ((leftRanges (xferSize o) o.parts).flatMap (xferRows o)).foldl (fun (s : State) q => s.xferRun id o out q) s
        (if xferSize o = 0 then s else s.xferSettle id o out (xferRows o (0, xferSize o))).endOp id
      | none, some (i, cause) =>
        let u := i / 256
        let k := s.fresh
        let s := { s with fresh := s.fresh + (xferSize o / 256 + 1) }
        let left := leftRanges (xferSize o) o.parts
        let rows := (toRanges ((List.range (xferSize o)).filter fun j =>
          inRanges left j && (decide (j / 256 < u) || Config.freeBool (k + j / 256)) && decide (s.xferBad o out j = none))).flatMap (xferRows o)
        let s := (rows.foldl (fun (s : State) q => s.xferRun id o out q) s).xferSettle id o out rows
        s.engineFault id o (mkInfo o cause (BitVec.ofNat 64 (xferHome o * 2 ^ 52 + (xferAt o i).1))) false

/-- The operands of PUT and GET by place: two short addresses, the other tile, the count. -/
def transferArgs (o : Op) : Word × Word × Nat × Nat :=
  match o.ins with
  | .put .. => (o.val 1, o.val 2, (o.val 0).toNat, (o.val 3).toNat)
  | _ => (o.val 0, o.val 2, (o.val 1).toNat, (o.val 3).toNat)

/-- TRANSFER_COMPLETE: a transfer whose earlier accesses are performed finishes or faults. -/
def execTransferComplete (op : Nat) (s : State) : Out :=
  .next (match s.op? op with
    | none => s
    | some o =>
      if o.phase ≠ .waiting ∨ !s.clear o then s
      else match o.cls, o.ins with
        | .xfer, .xout .. => s.xferDo op o true
        | .xfer, _ => s.xferDo op o false
        | .transfer, _ =>
          let (a, b, d, n) := transferArgs o
          match transferFault s o a b d n with
          | some x => s.engineFault op o x false
          | none =>
            let dst : TileRef := ⟨o.tile.l, d⟩
            if !s.firstTo op o.tile dst Op.destVt then s
            else if n = 0 ∨ ((s.tile? dst).map VTile.finished).getD false ∨ s.reaches o.tile dst then s.transferAt op
            else (s.refreshEntry o.tile dst).parkAt dst op
        | _, _ => s)

/-- The reads of a transfer are made, all of them, before any of its writes that are left (11 R271, R289). -/
def State.xferFix (s : State) (id : Nat) (o : Op) (out : Bool) : State :=
  let x := (xferRows o (0, xferSize o)).foldl (fun (x : Carried × State) q =>
    let y := x.2.xferRead o out q
    (x.1 ++ y.1, y.2)) ([], s)
  x.2.updOp id fun o => { o with got := some x.1 }

/-- Some bytes of a transfer of free mode move before the others (11 R274), or its reads are made before its writes. -/
def State.xferPart (s : State) (id : Nat) (o : Op) : State :=
  let out : Bool := match o.ins with | .xout .. => true | _ => false
  let k := s.fresh
  let s := { s with fresh := s.fresh + 4 }
  if (xferStop o).isSome ∨ s.xferWaits o out ∨ s.homesFull o ∨ (s.xferRefused o out).isSome ∨ (out ∧ (s.xferLost o).isSome) then s
  else if o.got = none ∧ xferSize o ≠ 0 ∧ Config.freeBool (k + 3) then s.xferFix id o out
  else match freePart (leftRanges (xferSize o) o.parts) k with
    | none => s
    | some q => ((xferRows o q).foldl (fun (s : State) q => s.xferRun id o out q) s).updOp id fun o => { o with parts := o.parts ++ [q] }

def State.transferPart (s : State) (id : Nat) (o : Op) : State :=
  let (a, b, d, n) := transferArgs o
  let dst : TileRef := ⟨o.tile.l, d⟩
  let k := s.fresh
  let s := { s with fresh := s.fresh + 4 }
  let (src, to_) : TileRef × TileRef := match o.ins with | .put .. => (o.tile, dst) | _ => (dst, o.tile)
  if (transferFault s o a b d n).isSome ∨ !s.firstTo id o.tile dst Op.destVt ∨ ((s.tile? dst).map VTile.finished).getD true ∨
      !s.reaches o.tile dst then s
  else if o.got = none ∧ n ≠ 0 ∧ Config.freeBool (k + 3) then
    match s.carryView o src (offsetOf b) n with
    | (.error _, s) => s
    | (.ok c, s) => s.updOp id fun o => { o with got := some c }
  else match freePart (leftRanges n o.parts) k with
    | none => s
    | some q =>
      match s.moveBytes id o src to_ (offsetOf b) (offsetOf a) n [q] none with
      | (.error _, s') => s'
      | (.ok _, s') => s'.updOp id fun o => { o with parts := o.parts ++ [q] }

/-! ### Delivery (06 R160, R161, R164; 16 R330, R334) -/

/-- A message that reached its tile enters its mailbox; none when the mailbox is full. -/
def State.deliverMail (s : State) (id : Nat) (o : Op) (dst : TileRef) : Option State :=
  if ((s.tile? dst).map VTile.finished).getD false then some ((s.countDiscard o.tile.l).endOp id)
  else if (((s.tile? dst).getD {}).box o.prog).length ≥ 64 then none
  else some ((s.mailIn dst o.prog (BitVec.ofNat 64 (leNat o.data)) (BitVec.ofNat 8 o.line) o.tile.v o.poison
    ((o.gives.map Gift.ops).getD [])).endOp id)

/-- MESSAGE_DELIVERY: a message is written into its mailbox or into the park queue, and its SEND completes. -/
def execMessageDelivery (op : Nat) (s : State) : Out :=
  .next (match s.op? op with
    | none => s
    | some o =>
      let dst : TileRef := ⟨o.tile.l, o.unit⟩
      if o.phase = .waiting ∧ o.cls = .send ∧ s.clear o ∧ s.firstTo op o.tile dst Op.destVt then
        if ((s.tile? dst).map VTile.finished).getD false ∨ s.reaches o.tile dst then (s.deliverMail op o dst).getD s
        else
          let s := s.refreshEntry o.tile dst
          if s.parkFull dst o then s
          else if o.atStart then
            let m : Op := { o with t := ghost o.t, sig := none, atStart := false }
            (({ s with ops := s.ops ++ [(s.nextId, m)], nextId := s.nextId + 1 }).parkAt dst s.nextId).endOp op
          else (((s.parkAt dst op).postBy o.t (op :: o.view) o.sig).updOp op fun o => { o with sig := none }).settle o.t
      else s)

/-- VTT_CACHE_REFILL: the entry of a destination is read from the table in HBM; the interface may drop another of its
256 to make room (16 R329). -/
def execVttCacheRefill (v : TileRef) (target : Nat) (s : State) : Out :=
  .next (match s.tile? v, s.tile? ⟨v.l, target⟩ with
    | some t, some d =>
      if (t.vttCache.get? target).isSome then s
      else
        let (n, s) := s.draw
        s.updTile v fun t =>
          let c := if t.vttCache.length ≥ 256 then t.vttCache.eraseIdx (n % 256) else t.vttCache
          { t with vttCache := c ++ [(target, d.entry)] }
    | _, _ => s)

/-! ### Migration (06 R168 to R170) -/

def execMigr (c : Ctl) (vt : Reg) (s : State) : Out :=
  issue c (fun _ => { det := true, go := true, reads := [vt] }) (fun r t s =>
    let d := (t.reg vt).toNat
    if d ≥ s.gridSize r.l then s.trapHere r t cVtileRange (BitVec.ofNat 64 d)
    else s.holding r [.vtt d] fun s => s.updThread r fun t => { t with run := .migrDrain d false c }) s

/-- The header's RCV gives RETHDR to a thread that leaves its home (03 R67). -/
def State.rethdr (s : State) (r : TRef) (t : Thread) : DWord :=
  match t.block with
  | none => t.rethdr
  | some (h, _) =>
    match s.fetchWord (s.vdOf r.l) h with
    | .word w =>
      let rcv := (w.extractLsb' 18 16).toInt
      if rcv = 0 then t.rethdr else h + BitVec.ofInt 64 (8 * rcv)
    | _ => t.rethdr

/-- The virtual tile number under which a thread in transit stands in State.threads: beyond every grid. -/
def transitKey (l id : Nat) : TRef := ⟨l, 2 ^ 24 + id, 0⟩

/-- The operations of a thread under a new name: what waits for room in its queue follows it. -/
def State.renameOps (s : State) (r k : TRef) : State :=
  { s with ops := s.ops.map fun e => if e.2.t = r ∧ e.2.cls = .blast then (e.1, { e.2 with t := k, tile := k.tile }) else e }

/-- What the trap bank of a thread that has migrated reads as: the bank does not travel, and its contents at the destination are not
stated (02 R32, R50), so they are free (log 44); one that has never entered a trap level reads zero (02 R43). -/
def freeHalf (k : Nat) : TrapHalf :=
  { tpc := BitVec.ofNat 64 (Config.freeNat k), tval := BitVec.ofNat 64 (Config.freeNat (k + 1)), taux := BitVec.ofNat 64 (Config.freeNat (k + 2))
    tinst := BitVec.ofNat 64 (Config.freeNat (k + 3)), tscL := BitVec.ofNat 32 (Config.freeNat (k + 4))
    tscH := BitVec.ofNat 32 (Config.freeNat (k + 5)), tcause := BitVec.ofNat 32 (Config.freeNat (k + 6) % 256) }

/-- A thread leaves for a virtual tile: its image travels with TVEC and TSAVE as one message, its slot and table entry free. -/
def State.depart (s : State) (r : TRef) (t : Thread) (dest : Nat) (sig : Option Sig) : State :=
  let id := s.nextId
  let k := transitKey r.l id
  let back := decide (dest = t.homev.toNat)
  let t' := { t with
    run := .transit, slot := none, away := !back, rethdr := if back then 0 else s.rethdr r t
    half1 := if t.entered then freeHalf s.fresh else {}, half2 := if t.entered then freeHalf (s.fresh + 7) else {}
    block := none, arrive := 0, cycleLatch := none, trip := [] }
  let s := { (s.renameOps r k) with threads := (s.threads.del r) ++ [(k, t')], nextId := id + 1, fresh := s.fresh + 14 }
  let o : Op := { t := k, tile := r.tile, vd := s.vdOf r.l, cls := .migrate, ins := .migrationDeparture r, unit := dest
                  path := .msg, sig, region := t.region }
  ({ s with ops := s.ops ++ [(id, o)] }).fillSlots r.tile

/-- MIGRATION_DEPARTURE: the drain of a MIGR or GO form has ended (06 R168 steps 2 to 4, R169; 12 R301). -/
def execMigrationDeparture (t : TRef) (s : State) : Out :=
  .next (match s.thread? t with
    | none => s
    | some th =>
      match th.run with
      | .migrDrain dest go c =>
        if !s.drained t ∨ !th.quiet then s
        else
          let th := { th.awake with run := .ready }
          let s := s.setThread t th
          if th.reports ≠ [] then { s with iword := s.nextWord t th }.takeReport t
          else if go then s.depart t th dest none
          else if dest = t.v then (((s.retire t c).clearRst t).postNext t (sigOf c th))
          else
            let s := (s.retire t c).clearRst t
            match s.thread? t with
            | none => s
            | some th => s.depart t { th with stepPending := false } dest (sigOf c th)
      | _ => s)

/-- The thread index that a landing thread takes, while the table holds fewer than 64 threads. The spec says only that THID is that
of the destination (06 R168): the model gives the lead at home 0, every other the lowest free one from 1, and 0 when no other is
left (DESIGN CHOICE, log 44). -/
def State.landingIndex (s : State) (v : TileRef) (t : Thread) : Option Nat :=
  let free (i : Nat) : Bool := (s.thread? ⟨v.l, v.v, i⟩).isNone
  if t.lead ∧ t.homev.toNat = v.v ∧ free 0 then some 0
  else ((List.range 63).map (· + 1) ++ [0]).find? free

/-- An image enters a thread table (06 R168 steps 5, 6). -/
def State.land (s : State) (id : Nat) (o : Op) (t : Thread) (v : TileRef) : Option State :=
  match s.landingIndex v t with
  | none => none
  | some i =>
    let r : TRef := ⟨v.l, v.v, i⟩
    let home := decide (v.v = t.homev.toNat)
    let t := { t.learnAll t.allView with away := !home, rethdr := if home then 0 else t.rethdr, acqStamp := s.nextId }
    let s := { (s.renameOps o.t r) with threads := (s.threads.del o.t) ++ [(r, t)], nextId := s.nextId + 1 }
    some (((s.makeReady r).postBy r (id :: t.allView) o.sig).dropOp id)

/-- MIGRATION_LANDING: an image lands, or waits in the park queue; one for a finished tile goes to its own home (16 R334). -/
def execMigrationLanding (op : Nat) (s : State) : Out :=
  .next (match s.op? op with
    | none => s
    | some o =>
      match s.thread? o.t with
      | none => s
      | some t =>
        let dst : TileRef := ⟨o.tile.l, o.unit⟩
        if o.cls ≠ .migrate ∨ o.phase ≠ .waiting ∨ !s.firstTo op o.tile dst Op.destVt then s
        else if ((s.tile? dst).map VTile.finished).getD false then
          (s.countDiscard o.tile.l).updOp op fun o => { o with unit := t.homev.toNat }
        else if s.reaches o.tile dst ∧ (s.landingIndex dst t).isSome then (s.land op o t dst).getD s
        else (s.refreshEntry o.tile dst).parkAt dst op)

/-- RETURN_HOME: a thread that is away has reached the block at RETHDR, or its EXIT, and has drained (06 R170; 05 R137). -/
def execReturnHome (t : TRef) (s : State) : Out :=
  .next (match s.thread? t with
    | none => s
    | some th =>
      match th.run with
      | .homeDrain exiting =>
        if !s.drained t ∨ !th.quiet then s
        else
          let th := { th.awake with run := .ready }
          let s := s.setThread t th
          if th.reports ≠ [] then { s with iword := s.nextWord t th }.takeReport t
          else
            let th := if exiting then { th with tl := 0 } else th
            (s.setThread t th).depart t th th.homev.toNat none
      | _ => s)

end Sys2Proof.Machine
end

