-- ==== Sys2Proof/Machine/Vector.lean ====
section
/-!
DEFINITION. The vector engine, codes 0x80 to 0x9C (07 R172 to R187): elements through windows, operand faults, the
operations, the record of an operation, and the engine's two events.
-/
namespace Sys2Proof.Machine

/-! ### Operands -/

inductive VKind where | ew | red | gath | scat
  deriving DecidableEq, Repr

/-- What a vector word names: type, kind, destination, vector sources in field order, scalar, count. -/
structure VForm where
  ty : ElTy
  kind : VKind
  d : Reg
  srcs : List Reg
  sc : Option Reg := none
  n : Reg
  deriving DecidableEq, Repr

def MinTy.el : MinTy → ElTy | .f => .f | .i => .i | .u => .i
def VCmp.el : VCmp → ElTy
  | .feq => .f | .fne => .f | .flt => .f | .fle => .f | .fun_ => .f | .ieq => .i | .ine => .i | .ilt => .i | .ile => .i
  | .iltu => .i | .ileu => .i

def vform : Instr → Option VForm
  | .vadd _ t d a b n => some ⟨t, .ew, d, [a, b], none, n⟩
  | .vsub _ t d a b n => some ⟨t, .ew, d, [a, b], none, n⟩
  | .vmul _ t d a b n => some ⟨t, .ew, d, [a, b], none, n⟩
  | .vfma _ t d a b e n => some ⟨t, .ew, d, [a, b, e], none, n⟩
  | .vmin _ t d a b n => some ⟨MinTy.el t, .ew, d, [a, b], none, n⟩
  | .vmax _ t d a b n => some ⟨MinTy.el t, .ew, d, [a, b], none, n⟩
  | .vscl _ t d a b n => some ⟨t, .ew, d, [a], some b, n⟩
  | .vadds _ t d a b n => some ⟨t, .ew, d, [a], some b, n⟩
  | .vabs _ t d a n => some ⟨t, .ew, d, [a], none, n⟩
  | .vneg _ t d a n => some ⟨t, .ew, d, [a], none, n⟩
  | .vexp _ d a n => some ⟨.f, .ew, d, [a], none, n⟩
  | .vlog _ d a n => some ⟨.f, .ew, d, [a], none, n⟩
  | .vrcp _ d a n => some ⟨.f, .ew, d, [a], none, n⟩
  | .vrsq _ d a n => some ⟨.f, .ew, d, [a], none, n⟩
  | .vtanh _ d a n => some ⟨.f, .ew, d, [a], none, n⟩
  | .vsum _ t d a n => some ⟨t, .red, d, [a], none, n⟩
  | .vmaxr _ t d a n => some ⟨t, .red, d, [a], none, n⟩
  | .vminr _ t d a n => some ⟨t, .red, d, [a], none, n⟩
  | .vargm _ t d a n => some ⟨t, .red, d, [a], none, n⟩
  | .vdot _ t d a b n => some ⟨t, .red, d, [a, b], none, n⟩
  | .vcmp _ k d a b n => some ⟨VCmp.el k, .ew, d, [a, b], none, n⟩
  | .vsel _ t d a b e n => some ⟨t, .ew, d, [a, b, e], none, n⟩
  | .vgath _ t d a b n => some ⟨t, .gath, d, [a, b], none, n⟩
  | .vscat _ t d a b n => some ⟨t, .scat, d, [a, b], none, n⟩
  | .vbcst _ t d a n => some ⟨t, .ew, d, [], some a, n⟩
  | .viota _ t d a n => some ⟨t, .ew, d, [], some a, n⟩
  | .vcopy _ t d a n => some ⟨t, .ew, d, [a], none, n⟩
  | .vlogic _ k d a b n => some ⟨.i, .ew, d, if k = .not then [a] else [a, b], none, n⟩
  | .vhash _ d a b n => some ⟨.i, .ew, d, [a], some b, n⟩
  | _ => none

/-- How an operand is accessed (07 R178, R181; R199 for QGENV). -/
inductive Col where | fr | ir | fw | iw | mask | raw4
  deriving DecidableEq, Repr

def ElTy.rd : ElTy → Col | .f => .fr | .i => .ir
def ElTy.wr : ElTy → Col | .f => .fw | .i => .iw

/-- Whether results are written by the `.i` column whatever T is. -/
def intResult : Instr → Bool | .vcmp .. => true | .vargm .. => true | _ => false

/-- An operand as its short address and window give it. -/
structure Opnd where
  a : Word
  win : Nat
  off : Nat
  w : Window
  e : Nat
  col : Col
  cnt : Nat
  deriving DecidableEq, Repr

def winAt (wins : List Window) (i : Nat) : Window := (wins[i]?).getD {}

/-- An operand from its register's value; one whose address breaks R48 keeps the address only. A reserved format code (07 R176) has no
element size: the checks of extent and alignment that come before WINDOW_FMT count it as 1 (DESIGN CHOICE, log 59). -/
def mkOpnd (wins : List Window) (col : Col) (cnt : Nat) (a : Word) : Opnd :=
  let i := (a.extractLsb' 21 3).toNat
  let w := winAt wins i
  { a, win := i, off := (a.extractLsb' 0 20).toNat, w, col, cnt
    e := if col = .raw4 ∧ w.fmt = 0 then 4 else (fmtSize w.fmt).getD 1 }

/-- The address of an operand's element (R49). -/
def Opnd.at_ (o : Opnd) (i : Nat) : DWord := localAddr o.win (o.off + i * o.e)

/-- The operands of a vector word, in field order: destination, then sources; values from `vals`. -/
def vOpnds (i : Instr) (f : VForm) (wins : List Window) (v : Nat → Word) (n : Nat) : List Opnd :=
  let dcol := if intResult i then Col.iw else ElTy.wr f.ty
  let dcnt := match f.kind with | .red => 1 | .scat => 0 | _ => n
  mkOpnd wins dcol dcnt (v 0) :: (f.srcs.zipIdx).map fun e =>
    let k := e.2
    let col : Col :=
      match i, f.kind with
      | .vsel .., _ => if k = 0 then .mask else ElTy.rd f.ty
      | _, .gath => if k = 1 then .ir else ElTy.rd f.ty
      | _, .scat => if k = 1 then .ir else ElTy.rd f.ty
      | _, _ => ElTy.rd f.ty
    mkOpnd wins col (if f.kind = .gath ∧ k = 0 then 0 else n) (v (k + 1))

/-! ### Operand faults (07 R184) -/

/-- Whether a window's format and scale admit an access; `ol` tells that VCOPY.i moves OL64 to OL64. -/
def colOk (w : Window) (ol : Bool) : Col → Bool
  | .fr => decide (1 ≤ w.fmt ∧ w.fmt ≤ 9) && !(decide (w.smode ≠ 0) && decide (w.len = 0))
  | .fw => decide (1 ≤ w.fmt ∧ w.fmt ≤ 9) && !(decide (w.smode ≠ 0) && decide (w.len = 0))
  | .ir => decide (w.fmt = 0 ∨ (4 ≤ w.fmt ∧ w.fmt ≤ 8)) || (ol && decide (w.fmt = 10))
  | .iw => decide (w.fmt ≤ 8) || (ol && decide (w.fmt = 10))
  | .mask => decide (w.fmt ≤ 9)
  | .raw4 => decide (w.fmt ≤ 9)

def Opnd.spaceBad (o : Opnd) : Bool := (shortAddr o.a).isNone || decide (o.off + o.cnt * o.e > 2 ^ 20)
/-- The address that SPACE_INVALID reports: the register's value when it breaks R48, else the operand's address, whichever address of
its extent is the first past the end (DESIGN CHOICE, log 42). -/
def Opnd.spaceAddr (o : Opnd) : DWord := if (shortAddr o.a).isNone then o.a.setWidth 64 else o.at_ 0

/-- The operand fault of an operation, if any: cause and TVAL. -/
def operandFault (l : List Opnd) (n : Nat) (ol : Bool) : Option (Nat × DWord) :=
  if n > 2 ^ 20 then some (cVecLength, BitVec.ofNat 64 n)
  else match l.find? Opnd.spaceBad with
    | some o => some (cSpaceInvalid, o.spaceAddr)
    | none =>
      match l.find? fun o => decide (o.off % o.e ≠ 0) with
      | some o => some (cMemAlign, o.at_ 0)
      | none => (l.find? fun o => !colOk o.w ol o.col).map fun o => (cWindowFmt, o.at_ 0)

/-- VCOPY.i from an OL64 window to an OL64 window. -/
def movesOl (i : Instr) (l : List Opnd) : Bool :=
  match i, l with
  | .vcopy _ .i .., [d, a] => decide (d.w.fmt = 10) && decide (a.w.fmt = 10)
  | _, _ => false

/-! ### Elements (07 R178, R181; 04 R107 to R110) -/

/-- The scale of an element, widened to FP32. -/
def scaleOf (m : Memory) (w : Window) (off e : Nat) : Word :=
  let o := scaleOff w (off / e)
  BitVec.ofNat 32 ((m.read o).toNat * 2 ^ 16 + (m.read ((o + 1) % 2 ^ 20)).toNat * 2 ^ 24)

/-- A `.f` read. -/
def readF (m : Memory) (w : Window) (e off : Nat) : Word × Exc :=
  let (v, x) := decodeF32 w.fmt (leNat (m.readN off e))
  if w.smode = 0 then (v, x)
  else
    let (p, y) := fpMul .rne v (scaleOf m w off e)
    (p, x ||| y)

/-- An `.i` read; eight bytes of OL64. -/
def readI (m : Memory) (w : Window) (e off : Nat) : DWord :=
  let raw := leNat (m.readN off e)
  if w.fmt = 0 ∨ w.fmt = 10 then BitVec.ofNat 64 raw
  else if w.fmt = 8 then (BitVec.ofInt 32 (ts8Units raw)).setWidth 64
  else (BitVec.ofInt 32 (decodeInt w.fmt raw)).setWidth 64

/-- A mask element. -/
def readMask (m : Memory) (w : Window) (e off : Nat) : Bool :=
  let raw := leNat (m.readN off e)
  if isFloatFmt w.fmt ∧ w.fmt ≠ 8 then !(decodeVal w.fmt raw).isZero else decide (readI m w e off ≠ 0)

/-- A `.f` write: the element's bytes and the exceptions of scale and encode. -/
def writeF (m : Memory) (w : Window) (e off : Nat) (v : Word) : List Byte × Exc :=
  let (x, y) := if w.smode = 0 then (v, (0 : Exc)) else w32 (fpDivV fp32 .rne (v32 v) (v32 (scaleOf m w off e)))
  let (b, z) := encodeVal w (v32 x)
  (leBytes b e, y ||| z)

/-- An `.i` write; `u` tells that the result is unsigned. -/
def writeI (w : Window) (e : Nat) (u : Bool) (v : DWord) : List Byte :=
  let i : Int := if u then v.lo.toNat else v.lo.toInt
  match w.fmt with
  | 0 => [v.setWidth 8]
  | 1 => leBytes (encodeFloat fp32 w.rm (w.ovf == 1) (FVal.ofInt false i 0)).1 e
  | 2 => leBytes (encodeFloat bf16 w.rm (w.ovf == 1) (FVal.ofInt false i 0)).1 e
  | 3 => leBytes (encodeFloat fp16 w.rm (w.ovf == 1) (FVal.ofInt false i 0)).1 e
  | 8 => leBytes (encodeTs8 (w.rm = .rz) (FVal.ofInt false (max (-128) (min 128 i)) (-6))).1 e
  | 10 => leBytes v.toNat 8
  | f => leBytes (clampInt f i) e

/-! ### The operations (07 R179 to R183) -/

/-- `.f` element functions: values in field order, scalar, element index. -/
def vecF (i : Instr) (rm : RM) (v : List Word) (sc : Word) (idx : Nat) : Word × Exc :=
  let x := (v[0]?).getD 0; let y := (v[1]?).getD 0; let z := (v[2]?).getD 0
  match i with
  | .vadd .. => fpAdd rm x y
  | .vsub .. => fpSub rm x y
  | .vmul .. => fpMul rm x y
  | .vfma .. => fpFma rm x y z
  | .vmin .. => (fpMin x y, 0)
  | .vmax .. => (fpMax x y, 0)
  | .vscl .. => fpMul rm x sc
  | .vadds .. => fpAdd rm x sc
  | .vabs .. => (fpSgn .abs x 0, 0)
  | .vneg .. => (fpSgn .neg x 0, 0)
  | .vexp .. => fpExp rm x
  | .vlog .. => fpLog rm x
  | .vrcp .. => fpRcp rm x
  | .vrsq .. => fpRsq rm x
  | .vtanh .. => fpTanh rm x
  | .vcmp _ k .. =>
    (Word.ofBool (match k with
      | .feq => fpCmp .eq x y | .fne => fpCmp .ne x y | .flt => fpCmp .lt x y | .fle => fpCmp .le x y
      | _ => fpCmp .un x y), 0)
  | .vsel .. => (if x = 0 then z else y, 0)
  | .vbcst .. => (sc, 0)
  | .viota .. => fpAdd rm sc (fpOfInt .rne idx).1
  | _ => (x, 0)

/-- `.i` element functions. -/
def vecI (i : Instr) (v : List DWord) (sc : Word) (idx : Nat) : DWord :=
  let w (k : Nat) : Word := ((v[k]?).getD 0).lo
  let x := w 0; let y := w 1; let z := w 2
  match i with
  | .vadd .. => ofWord (x + y)
  | .vsub .. => ofWord (x - y)
  | .vmul .. => ofWord (x * y)
  | .vfma .. => ofWord (x * y + z)
  | .vmin _ t .. => ofWord (if t = .u then (if y.ult x then y else x) else if y.slt x then y else x)
  | .vmax _ t .. => ofWord (if t = .u then (if x.ult y then y else x) else if x.slt y then y else x)
  | .vscl .. => ofWord (x * sc)
  | .vadds .. => ofWord (x + sc)
  | .vabs .. => ofWord (if x.slt 0 then -x else x)
  | .vneg .. => ofWord (-x)
  | .vcmp _ k .. =>
    ofWord (Word.ofBool (match k with
      | .ieq => CC.holds .eq x y | .ine => CC.holds .ne x y | .ilt => CC.holds .lt x y | .ile => CC.holds .le x y
      | .iltu => CC.holds .ltu x y | _ => CC.holds .leu x y))
  | .vsel .. => if x = 0 then (v[2]?).getD 0 else (v[1]?).getD 0
  | .vbcst .. => ofWord sc
  | .viota .. => ofWord (sc + BitVec.ofNat 32 idx)
  | .vlogic _ k .. =>
    ofWord (match k with | .and => x &&& y | .or => x ||| y | .xor => x ^^^ y | .andn => x &&& ~~~y | .not => ~~~x)
  | .vhash .. => ofWord (hashW x sc)
  | _ => (v[0]?).getD 0

/-- Whether a result is unsigned (R178). -/
def unsignedResult : Instr → Bool
  | .vmin _ .u .. => true
  | .vmax _ .u .. => true
  | _ => false

/-- Exceptions by element index. -/
abbrev Events := List (Nat × Exc)
def ev (i : Nat) (x : Exc) : Events := if x = 0 then [] else [(i, x)]

/-- One element read from the source whose access is `o.col`. -/
def Opnd.read (o : Opnd) (m : Memory) (i : Nat) : DWord × Exc :=
  let off := o.off + i * o.e
  match o.col with
  | .fr => let (v, x) := readF m o.w o.e off; (ofWord v, x)
  | .mask => (if readMask m o.w o.e off then 1 else 0, 0)
  | _ => (readI m o.w o.e off, 0)

/-- One element written: its bytes and exceptions. -/
def Opnd.write (o : Opnd) (m : Memory) (u : Bool) (i : Nat) (v : DWord) : List Byte × Exc :=
  match o.col with
  | .fw => writeF m o.w o.e (o.off + i * o.e) v.lo
  | _ => (writeI o.w o.e u v, 0)

/-- One element of an element-wise operation from its source values. -/
def elementOf (i : Instr) (ty : ElTy) (rm : RM) (v : List DWord) (sc : Word) (idx : Nat) : DWord × Exc :=
  match ty with
  | .f => let (r, x) := vecF i rm (v.map DWord.lo) sc idx; (ofWord r, x)
  | .i => (vecI i v sc idx, 0)

/-- The memory that a source read of element `i` sees when an earlier element of the same operation may have written it
(R177): the one after some number of the writes made so far, by a free choice. `hist` begins with the newest. -/
def pickHist (hazard : Bool) (hist : List Memory) (k : Nat) : Memory :=
  if hazard then (hist[Config.freeNat k % max 1 hist.length]?).getD [] else (hist.head?).getD []

/-- Whether a destination meets a source at another offset or element size. -/
def hazardOf (d a : Opnd) (n : Nat) : Bool :=
  !(decide (d.off = a.off) && decide (d.e = a.e)) && decide (d.off < a.off + n * a.e) && decide (a.off < d.off + n * d.e)

/-- What an operation has done so far: memory after each element, writes made, exceptions, elements with an invalid
index. -/
structure VRun where
  hist : List Memory
  writes : List (Nat × List Byte) := []
  evs : Events := []
  bad : List Nat := []
  /-- The indices that it has read, by element. -/
  idx : Assoc Nat Nat := []

def VRun.push (r : VRun) (off : Nat) (bs : List Byte) : VRun :=
  { r with hist := ((r.hist.head?).getD []).writeN off bs :: r.hist, writes := r.writes ++ [(off, bs)] }

/-- The elements from one number to another. -/
def elemsOf (lo n : Nat) : List Nat := (List.range (n - lo)).map fun i => lo + i

/-- Elements of element-wise operations (R177, R179), from `lo` on. `k` is the first free value that the operation may take. -/
def runEw (i : Instr) (ty : ElTy) (rm : RM) (d : Opnd) (srcs : List Opnd) (sc : Word) (lo n k : Nat) (m : Memory) : VRun :=
  let hz := srcs.map fun a => hazardOf d a n
  let r := (elemsOf lo n).foldl (fun (r : VRun) idx =>
    let vs := ((srcs.zip hz).zipIdx).map fun e => e.1.1.read (pickHist e.1.2 r.hist (k + 4 * idx + e.2)) idx
    let (v, x) := elementOf i ty rm (vs.map Prod.fst) sc idx
    let (bs, y) := d.write ((r.hist.head?).getD []) (unsignedResult i) idx v
    { r with
      hist := ((r.hist.head?).getD []).writeN (d.off + idx * d.e) bs :: (if hz.any id then r.hist else [])
      evs := r.evs ++ ev idx (vs.foldl (fun z e => z ||| e.2) (x ||| y)) }) { hist := [m] }
  { r with writes := if n ≤ lo then [] else [(d.off + lo * d.e, ((r.hist.head?).getD []).readN (d.off + lo * d.e) ((n - lo) * d.e))] }

/-- Gather and scatter (R182): the second source is the index. -/
def runIndexed (gather : Bool) (d a k : Opnd) (lo n fr : Nat) (m : Memory) : VRun :=
  (elemsOf lo n).foldl (fun (r : VRun) idx =>
    let j : Int := (k.read (pickHist true r.hist (fr + 4 * idx)) idx).1.lo.toInt
    let t := if gather then a else d
    if j < 0 ∨ t.off + (j.toNat + 1) * t.e > 2 ^ 20 then { r with bad := r.bad ++ [idx] }
    else
      let (si, di) := if gather then (j.toNat, idx) else (idx, j.toNat)
      let (v, x) := a.read (pickHist true r.hist (fr + 4 * idx + 1)) si
      let (bs, y) := d.write ((r.hist.head?).getD []) false di v
      { r.push (d.off + di * d.e) bs with evs := r.evs ++ ev idx (x ||| y), idx := r.idx ++ [(idx, j.toNat)] }) { hist := [m] }

/-! ### Reductions (07 R180; 04 R111) -/

/-- A partial sum: its value and the lowest element in it. -/
structure Part where
  v : Word
  i : Nat

/-- One level of a block's pair tree, with the exceptions of its adds. -/
def pairParts : List Part → List Part × Events
  | a :: b :: t =>
    let (s, x) := fpAdd .rne a.v b.v
    let (l, e) := pairParts t
    (⟨s, a.i⟩ :: l, ev a.i x ++ e)
  | l => (l, [])

def treeParts : Nat → List Part → List Part × Events
  | 0, l => (l, [])
  | k + 1, l =>
    let (l, e) := pairParts l
    let (l, e') := treeParts k l
    (l, e ++ e')

def blockParts : Nat → List Part → List Part × Events
  | 0, _ => ([], [])
  | fuel + 1, l =>
    match l with
    | [] => ([], [])
    | _ =>
      let (b, e) := treeParts 5 (l.take 32)
      let (bs, e') := blockParts fuel (l.drop 32)
      (b ++ bs, e ++ e')

/-- The sum of 04 R111 over the elements in order, with the exceptions of its adds. -/
def deviceSum (l : List Word) : Word × Events :=
  let (bs, e) := blockParts l.length ((l.zipIdx).map fun p => ⟨p.1, p.2⟩)
  match bs with
  | [] => (0, e)
  | b :: bs =>
    bs.foldl (fun (a : Word × Events) p =>
      let (s, x) := fpAdd .rne a.1 p.v
      (s, a.2 ++ ev 0 x)) (b.v, e)

/-- VARGM over FP32 values: NaNs lose, −0 ranks below +0, the lowest index wins. -/
def argMaxF (l : List Word) : Int :=
  let r := (l.zipIdx).foldl (fun (b : Option (Word × Nat)) p =>
    if (v32 p.1).isNan then b
    else match b with
      | none => some p
      | some q => if FVal.ltTotal (v32 q.1) (v32 p.1) then some p else b) none
  match r with
  | some p => p.2
  | none => if l = [] then -1 else 0

def argMaxI (l : List Word) : Int :=
  match (l.zipIdx).foldl (fun (b : Option (Word × Nat)) p => match b with
      | none => some p
      | some q => if q.1.slt p.1 then some p else b) none with
  | some p => p.2
  | none => -1

/-- A reduction of words: its result, and the exceptions of its adds. -/
def reduceWords (i : Instr) (ty : ElTy) (l : List Word) : Word × Events :=
  match i, ty with
  | .vmaxr .., .f => ((match l with | [] => 0xFF800000 | a :: t => t.foldl fpMax a), [])
  | .vmaxr .., .i => ((match l with | [] => 0x80000000 | a :: t => t.foldl (fun x y => if x.slt y then y else x) a), [])
  | .vminr .., .f => ((match l with | [] => 0x7F800000 | a :: t => t.foldl fpMin a), [])
  | .vminr .., .i => ((match l with | [] => 0x7FFFFFFF | a :: t => t.foldl (fun x y => if y.slt x then y else x) a), [])
  | .vargm .., .f => (BitVec.ofInt 32 (argMaxF l), [])
  | .vargm .., .i => (BitVec.ofInt 32 (argMaxI l), [])
  | _, .f => deviceSum l
  | _, .i => (l.foldl (· + ·) 0, [])

/-- One term of a reduction: an element of a, or the product of VDOT. -/
def termOf (i : Instr) (ty : ElTy) (v : List DWord) : Word × Exc :=
  let x : Word := ((v[0]?).getD 0).lo; let y : Word := ((v[1]?).getD 0).lo
  match i, ty with
  | .vdot .., .f => fpMul .rne x y
  | .vdot .., .i => (x * y, 0)
  | _, _ => (x, 0)

/-- Over only NaNs the maximum and minimum are the canonical NaN, and one element gives itself with its NaN canonical. -/
def canonF (w : Word) : Word := if (v32 w).isNan then 0x7FC00000 else w

/-- The terms of a reduction from `lo` on, with the exceptions of reading and forming each. -/
def redTerms (i : Instr) (ty : ElTy) (srcs : List Opnd) (lo n : Nat) (m : Memory) : List (Word × Exc) :=
  (elemsOf lo n).map fun idx =>
    let vs := srcs.map fun a => a.read m idx
    let (t, x) := termOf i ty (vs.map Prod.fst)
    (t, vs.foldl (fun z e => z ||| e.2) x)

/-- A reduction of its n terms. -/
def runRed (i : Instr) (ty : ElTy) (d : Opnd) (terms : List (Word × Exc)) (n : Nat) (m : Memory) : VRun :=
  let (r, e) := reduceWords i ty (terms.map Prod.fst)
  let r := if ty = .f ∧ !intResult i then canonF r else r
  let (bs, y) := d.write m false 0 (ofWord r)
  { hist := [m.writeN d.off bs], writes := [(d.off, bs)], evs := (terms.zipIdx.flatMap fun t => ev t.2 t.1.2) ++ e ++ ev n y }

/-! ### The record of an operation (07 R185) -/

def allFlags (e : Events) : Exc := e.foldl (fun x p => x ||| p.2) 0
/-- The exceptions of one element. -/
def flagsAt (e : Events) (i : Nat) : Exc := e.foldl (fun x p => if p.1 = i then x ||| p.2 else x) 0

def minNat (l : List Nat) : Option Nat := l.foldl (fun b i => some (match b with | none => i | some j => min i j)) none

/-- The element that the record holds, and its cause. -/
def recordOf (e : Events) (bad : List Nat) (ven : BitVec 5) : Option (Nat × Nat) :=
  match minNat (((e.filter fun p => decide (p.2 &&& ven ≠ 0)).map Prod.fst) ++ bad) with
  | none => none
  | some i =>
    if bad.contains i then some (i, cVecFault)
    else some (i, 0x26 + (lowestEnabled (flagsAt e i) ven).getD 0)

/-- TVAL of a record (R185), with the index that the element read. For a VSCAT the rule gives an address only for an invalid index
and for an exception of its write: where reading a[i] raises it, the model gives the address of d[k[i]] too (DESIGN CHOICE, log
45). -/
def recordAddr (kind : VKind) (d : Opnd) (srcs : List Opnd) (n i : Nat) (bad : Bool) (j : Nat) : DWord :=
  match kind, srcs with
  | .red, a :: _ => if i ≥ n then d.at_ 0 else a.at_ i
  | .scat, [_, k] => if bad then k.at_ i else d.at_ j
  | _, _ => d.at_ i

/-! ### What an operation reads -/

/-- The scratchpad as an operation of a thread sees it: in free mode without some stores that nothing orders before it (07 R187),
as `d` tells; one that runs after its chunk's commit sees what other lanes have written and not committed as it was before (17
R348). -/
def State.engineView (s : State) (o : Op) (d : Nat) : Memory :=
  let v := (s.tile? o.tile).getD {}
  if !s.isDet o.tile.l then v.lagged o.view d
  else if o.atStart then
    let gs := ((s.lanes.filter fun e => decide (e.1.tile = o.tile)).flatMap fun e => e.2.chunks.flatMap Chunk.granules).eraseDups
    (gs.filter fun g => decide (g < 2 ^ 20)).foldl (fun m g =>
      match s.committedGranule o.tile g with | some old => m.writeN g old | none => m) v.spad
  else v.spad

/-- An extent that an operation reads: the window of its operand, the first byte, the length. -/
abbrev Extent := Nat × Nat × Nat

/-- The scale words of some elements of an operand. -/
def Opnd.scaleExtents (o : Opnd) (l : List Nat) : List Extent :=
  if o.w.smode ≠ 0 ∧ (o.col = .fr ∨ o.col = .fw) then
    l.flatMap fun i =>
      let a := scaleOff o.w ((o.off + i * o.e) / o.e)
      [(o.win, a, 1), (o.win, (a + 1) % 2 ^ 20, 1)]
  else []

/-- The extents that an operand's access reads: its elements, and their scales. -/
def Opnd.readExtents (o : Opnd) (src : Bool) (n : Nat) : List Extent :=
  (if src ∧ n > 0 then [(o.win, o.off, n * o.e)] else []) ++ o.scaleExtents (List.range n)

/-- The elements of a table, or of a scatter's destination, that valid indices name. -/
def indexed (t k : Opnd) (n : Nat) (m : Memory) : List Nat :=
  (List.range n).filterMap fun i =>
    let j : Int := (k.read m i).1.lo.toInt
    if j < 0 ∨ t.off + (j.toNat + 1) * t.e > 2 ^ 20 then none else some j.toNat

/-- The extents that an operation reads. -/
def vecReads (kind : VKind) (d : Opnd) (srcs : List Opnd) (n : Nat) (m : Memory) : List Extent :=
  match kind, srcs with
  | .gath, [a, k] =>
    let l := indexed a k n m
    k.readExtents true n ++ (l.map fun j => (a.win, a.off + j * a.e, a.e)) ++ a.scaleExtents l ++ d.readExtents false n
  | .scat, [a, k] => a.readExtents true n ++ k.readExtents true n ++ d.scaleExtents (indexed d k n m)
  | .red, _ => (srcs.flatMap fun a => a.readExtents true n) ++ d.readExtents false 1
  | _, _ => (srcs.flatMap fun a => a.readExtents true n) ++ d.readExtents false n

/-- Reads of an engine operation: words corrected and rebuilt, entries of the read signature; the consumed error of the
first word that fails, with the address read (22 R416). -/
def State.engineReads (s : State) (o : Op) (l : List Extent) : Option (Nat × DWord) × State :=
  let f := match s.tile? o.tile with
    | none => none
    | some v => l.findSome? fun e => (s.readFails v e.2.1 e.2.2).map fun x => (x.1, localAddr e.1 (max x.2 e.2.1))
  let s := l.foldl (fun (s : State) e => s.scrubExtent o.tile e.2.1 e.2.2) s
  let s := if o.atStart then s else
    (l.flatMap fun e => granulesIn e.2.1 e.2.2).foldl (fun (s : State) g => s.noteRead o.t (keyLocal o.tile.v g)) s
  (f, s)

/-- A gather's table elements and their scales, as the indices that it has read name them, are reads of its chunk; an element of
the index that the operation itself has overwritten names another than at its start (R177, R200). -/
def State.noteGather (s : State) (o : Op) (a : Opnd) (l : List Nat) : State :=
  if o.atStart then s
  else ((l.map fun j => (a.win, a.off + j * a.e, a.e)) ++ a.scaleExtents l).foldl (fun (s : State) e =>
    (granulesIn e.2.1 e.2.2).foldl (fun (s : State) g => s.noteRead o.t (keyLocal o.tile.v g)) s) s

/-- Writes of which each goes on where the one before it ends, as one. -/
def joinWrites : List (Nat × List Byte) → List (Nat × List Byte)
  | [] => []
  | e :: l => match joinWrites l with
    | (a, bs) :: r => if a = e.1 + e.2.length then (e.1, e.2 ++ bs) :: r else e :: (a, bs) :: r
    | [] => [e]

/-- The writes of an engine operation. -/
def State.engineWrites (s : State) (o : Op) (l : List (Nat × List Byte)) : State :=
  (joinWrites l).foldl (fun (s : State) e => s.spadWrite o.tile e.1 e.2 o.chunkOf) s

/-! ### Issue -/

/-- The window descriptors of a tile, as an operation captures them. -/
def State.captured (s : State) (v : TileRef) : List Window := ((s.tile? v).map fun t => t.win.toList).getD []

/-- Values of an operation by place: destination, sources, scalar at 4, count at 5. -/
def vecVals (f : VForm) (t : Thread) : List Word :=
  let src (k : Nat) : Word := ((f.srcs[k]?).map t.reg).getD 0
  [t.reg f.d, src 0, src 1, src 2, (f.sc.map t.reg).getD 0, t.reg f.n]

def valAt (l : List Word) (i : Nat) : Word := (l[i]?).getD 0

/-- The operand fault of a vector operation from what it captures at issue. -/
def vecFaultOf (i : Instr) (f : VForm) (wins : List Window) (vals : List Word) : Option (Nat × DWord) :=
  let n := (valAt vals 5).toNat
  let l := vOpnds i f wins (valAt vals) n
  operandFault l n (movesOl i l)

/-- The extents of the operation's sources; the table of a gather may end anywhere (07 R187). -/
def vecSrcs (i : Instr) (f : VForm) (wins : List Window) (vals : List Word) : List (Nat × Nat) :=
  let n := (valAt vals 5).toNat
  ((vOpnds i f wins (valAt vals) n).drop 1).zipIdx.map fun e =>
    (e.1.off, if f.kind = .gath ∧ e.2 = 0 then 2 ^ 20 - e.1.off else n * e.1.e)

/-- The granules that the operation may write (17 R348): none for one that its operands stop, one for each element of a
scatter. -/
def vecGranules (i : Instr) (f : VForm) (wins : List Window) (vals : List Word) : Nat :=
  let n := (valAt vals 5).toNat
  match vecFaultOf i f wins vals, vOpnds i f wins (valAt vals) n with
  | none, d :: _ => if f.kind = .scat then n else (granulesIn d.off (d.cnt * d.e)).length
  | _, _ => 0

/-- Issue of a vector operation (R173, R174). -/
def vecIssue (c : Ctl) (i : Instr) (s : State) : Out :=
  match vform i with
  | none => .next s
  | some f =>
    issue c (fun _ => { reads := [f.d, f.n] ++ f.srcs ++ f.sc.toList }) (fun r t s =>
      s.holding r [.vecQueue] fun s =>
        let s := s.noteWindows r ((f.d :: f.srcs).map t.reg)
        let vals := vecVals f t
        let wins := s.captured r.tile
        s.engineWrite c r (vecGranules i f wins vals) fun s =>
          let (o, s) := engineOp .vector i c r t s vals .vec (decide (f.srcs ≠ [])) true
          ({ o with wins, srcs := vecSrcs i f wins vals }, s)) s

def execVadd (c : Ctl) (t : ElTy) (d a b n : Reg) (s : State) : Out := vecIssue c (.vadd c t d a b n) s
def execVsub (c : Ctl) (t : ElTy) (d a b n : Reg) (s : State) : Out := vecIssue c (.vsub c t d a b n) s
def execVmul (c : Ctl) (t : ElTy) (d a b n : Reg) (s : State) : Out := vecIssue c (.vmul c t d a b n) s
def execVfma (c : Ctl) (t : ElTy) (d a b e n : Reg) (s : State) : Out := vecIssue c (.vfma c t d a b e n) s
def execVmin (c : Ctl) (t : MinTy) (d a b n : Reg) (s : State) : Out := vecIssue c (.vmin c t d a b n) s
def execVmax (c : Ctl) (t : MinTy) (d a b n : Reg) (s : State) : Out := vecIssue c (.vmax c t d a b n) s
def execVscl (c : Ctl) (t : ElTy) (d a b n : Reg) (s : State) : Out := vecIssue c (.vscl c t d a b n) s
def execVadds (c : Ctl) (t : ElTy) (d a b n : Reg) (s : State) : Out := vecIssue c (.vadds c t d a b n) s
def execVabs (c : Ctl) (t : ElTy) (d a n : Reg) (s : State) : Out := vecIssue c (.vabs c t d a n) s
def execVneg (c : Ctl) (t : ElTy) (d a n : Reg) (s : State) : Out := vecIssue c (.vneg c t d a n) s
def execVexp (c : Ctl) (d a n : Reg) (s : State) : Out := vecIssue c (.vexp c d a n) s
def execVlog (c : Ctl) (d a n : Reg) (s : State) : Out := vecIssue c (.vlog c d a n) s
def execVrcp (c : Ctl) (d a n : Reg) (s : State) : Out := vecIssue c (.vrcp c d a n) s
def execVrsq (c : Ctl) (d a n : Reg) (s : State) : Out := vecIssue c (.vrsq c d a n) s
def execVtanh (c : Ctl) (d a n : Reg) (s : State) : Out := vecIssue c (.vtanh c d a n) s
def execVsum (c : Ctl) (t : ElTy) (d a n : Reg) (s : State) : Out := vecIssue c (.vsum c t d a n) s
def execVmaxr (c : Ctl) (t : ElTy) (d a n : Reg) (s : State) : Out := vecIssue c (.vmaxr c t d a n) s
def execVminr (c : Ctl) (t : ElTy) (d a n : Reg) (s : State) : Out := vecIssue c (.vminr c t d a n) s
def execVargm (c : Ctl) (t : ElTy) (d a n : Reg) (s : State) : Out := vecIssue c (.vargm c t d a n) s
def execVdot (c : Ctl) (t : ElTy) (d a b n : Reg) (s : State) : Out := vecIssue c (.vdot c t d a b n) s
def execVcmp (c : Ctl) (k : VCmp) (d a b n : Reg) (s : State) : Out := vecIssue c (.vcmp c k d a b n) s
def execVsel (c : Ctl) (t : ElTy) (d a b e n : Reg) (s : State) : Out := vecIssue c (.vsel c t d a b e n) s
def execVgath (c : Ctl) (t : ElTy) (d a b n : Reg) (s : State) : Out := vecIssue c (.vgath c t d a b n) s
def execVscat (c : Ctl) (t : ElTy) (d a b n : Reg) (s : State) : Out := vecIssue c (.vscat c t d a b n) s
def execVbcst (c : Ctl) (t : ElTy) (d a n : Reg) (s : State) : Out := vecIssue c (.vbcst c t d a n) s
def execViota (c : Ctl) (t : ElTy) (d a n : Reg) (s : State) : Out := vecIssue c (.viota c t d a n) s
def execVcopy (c : Ctl) (t : ElTy) (d a n : Reg) (s : State) : Out := vecIssue c (.vcopy c t d a n) s
def execVlogic (c : Ctl) (k : VLog) (d a b n : Reg) (s : State) : Out := vecIssue c (.vlogic c k d a b n) s
def execVhash (c : Ctl) (d a b n : Reg) (s : State) : Out := vecIssue c (.vhash c d a b n) s

/-! ### The engine's events -/

/-- The first operation of a tile's queue of a class: the one that runs, else the one issued first. -/
def State.queueHead (s : State) (v : TileRef) (cls : Cls) : Option Nat :=
  let q := s.ops.filter fun e => decide (e.2.tile = v) && decide (e.2.cls = cls) && !e.2.buffered &&
    decide (e.2.phase = .waiting ∨ e.2.phase = .sent)
  match q.find? fun e => decide (e.2.phase = .sent) with
  | some e => some e.1
  | none => (q.head?).map Prod.fst

/-- What the elements from `lo` to `hi` of an operation that its operands admit do; a reduction writes at its last. -/
def vecCompute (i : Instr) (f : VForm) (rm : RM) (l : List Opnd) (sc : Word) (lo hi n k : Nat) (terms : List (Word × Exc)) (m : Memory) :
    VRun :=
  match l with
  | [] => { hist := [m] }
  | d :: srcs =>
    match f.kind, srcs with
    | .red, _ => if hi < n then { hist := [m] } else runRed i f.ty d (terms ++ redTerms i f.ty srcs lo hi m) n m
    | .gath, [a, x] => runIndexed true d a x lo hi k m
    | .scat, [a, x] => runIndexed false d a x lo hi k m
    | _, _ => runEw i f.ty rm d srcs sc lo hi k m

/-- A vector operation at the head of the queue starts (R175, R184): its operand fault, or an error that it consumes, stops it
before its first element. -/
def State.vecStart (s : State) (id : Nat) (o : Op) (f : VForm) : State :=
  let n := (o.val 5).toNat
  let l := vOpnds o.ins f o.wins o.val n
  match operandFault l n (movesOl o.ins l), l with
  | some (cause, tval), _ => s.updOp id fun o => { o with phase := .sent, elems := n, fault := some (mkInfo o cause tval) }
  | none, [] => s
  | none, d :: srcs =>
    match s.engineReads o (vecReads f.kind d srcs n (s.engineView o 0)) with
    | (some (cause, tval), s) =>
      s.updOp id fun o => { o with phase := .sent, elems := n, consumedF := true, fault := some (mkInfo o cause tval) }
    | (none, s) => s.updOp id fun o => { o with phase := .sent }

/-- The elements of a running operation from those already processed up to `hi` (R175; 11 R274): read, computed and written, with
the operation's record of them. Once a destination of one extent is whole, its words are clear of poison. -/
def State.vecRun (s : State) (id : Nat) (o : Op) (f : VForm) (hi : Nat) : State :=
  let n := (o.val 5).toNat
  let l := vOpnds o.ins f o.wins o.val n
  match l with
  | [] => s
  | d :: srcs =>
    let (late, s) := s.draw
    let m := o.snap.getD (s.engineView o late)
    let r := vecCompute o.ins f (RM.ofBits o.rm) l (o.val 4) o.elems hi n s.fresh o.terms m
    let terms := if f.kind = .red then o.terms ++ redTerms o.ins f.ty srcs o.elems hi m else []
    let s := { s with fresh := s.fresh + 4 * n }
    let s := match f.kind, srcs with | .gath, a :: _ => s.noteGather o a (r.idx.map Prod.snd) | _, _ => s
    let fault := (recordOf r.evs r.bad o.ven).map fun x =>
      mkInfo o x.2 (recordAddr f.kind d srcs n x.1 (r.bad.contains x.1) ((r.idx.get? x.1).getD 0))
    let s := s.engineWrites o r.writes
    let all := decide (hi = n) && decide (f.kind ≠ .scat) && (decide (f.kind ≠ .gath) || (o.fault.isNone && fault.isNone))
    (if all then s.settleWords o.tile [(d.off, d.cnt * d.e)] [] else s).updOp id fun o =>
      { o with elems := hi, terms, exc := o.exc ||| allFlags r.evs, fault := if o.fault.isSome then o.fault else fault
               snap := o.snap.map fun _ => (r.hist.head?).getD m }

/-- An engine operation that has run completes: its flags join VFLG, and it ends or faults (R101, R185, R186). -/
def State.engineDone (s : State) (id : Nat) (o : Op) : State :=
  let s := s.updThread o.t fun t => { t with fpctl := orVFLG t.fpctl o.exc }
  match o.fault with
  | none => s.endOp id
  | some i => s.engineFault id o i o.consumedF

def execVectorOpStart (op : Nat) (s : State) : Out :=
  .next (match s.op? op with
    | none => s
    | some o =>
      if o.cls = .vector ∧ o.phase = .waiting ∧ s.clear o ∧ s.queueHead o.tile .vector = some op then
        match vform o.ins with
        | some f => s.vecStart op o f
        | none => s
      else s)

/-- VECTOR_OP_COMPLETE: the last element is written, and the operation completes (R175). -/
def execVectorOpComplete (op : Nat) (s : State) : Out :=
  .next (match s.op? op with
    | none => s
    | some o =>
      if o.cls = .vector ∧ o.phase = .sent then
        match vform o.ins with
        | none => s
        | some f =>
          let s := if o.elems < (o.val 5).toNat ∨ ((o.val 5).toNat = 0 ∧ o.fault = none) then s.vecRun op o f (o.val 5).toNat else s
          s.engineDone op ((s.op? op).getD o)
      else s)

/-- Some more elements of a running operation of free mode, but not its last (11 R274); or it reads what it has still to read, before
any of its writes that are left (11 R271, R289). -/
def State.vecPart (s : State) (id : Nat) (o : Op) : State :=
  let n := (o.val 5).toNat
  let (d, s) := s.draw
  match vform o.ins with
  | none => s
  | some f =>
    if o.phase ≠ .sent then s
    else if o.snap.isNone ∧ d % 2 = 1 then
      let (late, s) := s.draw
      s.updOp id fun x => { x with snap := some (s.engineView o late) }
    else if o.elems + 1 < n then s.vecRun id o f (o.elems + 1 + d / 2 % (n - 1 - o.elems))
    else s

/-- The most elements a cycle that an operation may process (R175): of the first row's operations with elements of one byte. -/
def vecRate : Instr → Nat
  | .vexp .. => 8 | .vlog .. => 8 | .vrcp .. => 8 | .vrsq .. => 8 | .vtanh .. => 8 | .vgath .. => 8 | .vscat .. => 8
  | _ => 128

end Sys2Proof.Machine
end

