-- ==== Sys2Proof/Machine/Quasi.lean ====
section
/-!
DEFINITION. Windows and the quasi-random unit, codes 0xA0 to 0xA6 (07 R188 to R199), and the QRU's event.
-/
namespace Sys2Proof.Machine

/-! ### Window descriptors (07 R188, R190) -/

/-- The descriptors whose cycle has come take effect. -/
def VTile.landWindows (v : VTile) (now : Nat) : VTile :=
  let due := v.winNext.filter fun e => decide (e.1 ≤ now)
  { v with
    win := v.win.mapIdx fun i x => match (due.filter fun e => decide (e.2.1 = i)).getLast? with
      | some e => e.2.2
      | none => x
    winNext := v.winNext.filter fun e => decide (now < e.1) }

/-- The address checks that WSET and WGET make, in order: cause and TVAL. -/
def winFault (a : Word) : Option (Nat × DWord) :=
  match shortAddr a with
  | none => some (cSpaceInvalid, a.setWidth 64)
  | some (w, off) => if off % 32 ≠ 0 then some (cMemAlign, localAddr w off) else none

def execWset (c : Ctl) (w : BitVec 3) (ra : Reg) (s : State) : Out :=
  issue c (fun _ => { reads := [ra] }) (fun r t s =>
    match winFault (t.reg ra) with
    | some (cause, tval) => s.trapHere r t cause tval
    | none =>
      let off := offsetOf (t.reg ra)
      s.holding r [.order (s.coreAfter r .load (localAddr 0 off) 32 false)] fun s => s.logged r 1 0 fun s =>
        let s := ((s.retire r c).noteRead r (keyLocal r.v off)).hear r none .tileS (s.marksAt (spadKey r.tile off) 32)
        let s := (s.coreEvent r none (sigOf c t)).postNext r (sigOf c t)
        match s.spadRead r.tile off 32 with
        | (.error e, s) => s.consumedHere r e.1 (viaWindow (t.reg ra) (max e.2 off)) 0
        | (.ok _, s) =>
          let v := (s.tile? r.tile).getD {}
          let d := Window.ofBytes (s.ownView r s.nextId r.tile off (v.spad.readN off 32))
          let g := winPlace w.toNat
          let u := Undo.gran s.nextId g (v.placeBytes g) g (g + 32) []
          let s := if s.isDet r.l then
              { s.updChunk r (fun c => { c with undo := c.undo ++ [u], writes := setInsert c.writes (keyWindow r.v w.toNat) }) with
                nextId := s.nextId + 1 }
            else s
          s.updTile r.tile fun v => { v with winNext := v.winNext ++ [(s.cycle + 5, w.toNat, d)] }) s

def execWget (c : Ctl) (w : BitVec 3) (ra : Reg) (s : State) : Out :=
  issue c (fun _ => { reads := [ra] }) (fun r t s =>
    match winFault (t.reg ra) with
    | some (cause, tval) => s.trapHere r t cause tval
    | none =>
      let off := offsetOf (t.reg ra)
      let s := s.noteRead r (keyWindow r.v w.toNat)
      s.holding r [.order (s.coreAfter r .store (localAddr 0 off) 32 false), .stale off 32] fun s => s.logged r 1 0 fun s =>
        let d := ((s.tile? r.tile).getD {}).window w.toNat
        let s := s.retire r c
        let id := s.nextId
        ((s.coreStore r off d.toBytes (s.giftFor r id false .tileS)).coreEvent r (some id) (sigOf c t)).postNext r (sigOf c t)) s

/-! ### The tables (07 R192, R194) -/

/-- The size of a record. -/
def recSize (short : Bool) : Nat := if short then 8 else 136

/-- Keys of a chunk's signature for the tables, by the 32-byte granules of dimension d's record. -/
def keyTable (v d g : Nat) : Nat := 2 ^ 63 + 2 ^ 60 + (v * 64 + d) * 256 + g * 32

/-- A record's bytes, or seed and SCR only, go into a dimension's table: with an undo record and a place in the chunk's writes; or
as a write of a turn (17 R347, R348, R352). -/
def State.putQDim (s : State) (o : Op) (d : Nat) (short : Bool) (bs : List Byte) : State :=
  let v := (s.tile? o.tile).getD {}
  let lo := tableAt d + (if short then 128 else 0)
  let keys := if short then [keyTable o.tile.v d 4] else (List.range 5).map fun g => keyTable o.tile.v d g
  let (bs, s) :=
    if !s.isDet o.tile.l then (bs, s)
    else match o.chunkOf with
      | some r =>
        (bs, { s.updChunk r (fun c => { c with
                 undo := c.undo ++ [Undo.gran s.nextId (tableAt d) (v.placeBytes (tableAt d)) lo (lo + recSize short) []]
                 writes := keys.foldl setInsert c.writes }) with nextId := s.nextId + 1 })
      | none => (keys.foldl (fun (s : State) k => s.turnWrote o.tile.l k 32) s).underWrites o.tile v lo bs
  s.updTile o.tile fun v => { v with qru := v.qru.set d ((v.qdim d).ofBytes short bs) }

/-- A dimension as an operation reads it: one that runs after its chunk's commit sees it without uncommitted writes (17 R348). -/
def State.qdimView (s : State) (o : Op) (d : Nat) : QDim :=
  let q := ((s.tile? o.tile).getD {}).qdim d
  if o.atStart ∧ s.isDet o.tile.l then
    match s.committedGranule o.tile (tableAt d) with
    | some old => q.ofBytes false old
    | none => q
  else q

/-- Reads of a dimension's table by an operation of a chunk enter its signature (17 R347). -/
def State.noteTable (s : State) (o : Op) (d : Nat) : State :=
  if o.atStart then s else (List.range 5).foldl (fun (s : State) g => s.noteRead o.t (keyTable o.tile.v d g)) s

/-! ### Points (07 R193) -/

def bitrev32 (w : Word) : Word := (List.range 32).foldl (fun r i => if w.getLsbD i then r ||| (1 <<< (31 - i)) else r) 0
def QDim.x (q : QDim) (i : Word) : Word :=
  (List.range 32).foldl (fun x b => if i.getLsbD b then x ^^^ ((q.v.toList[b]?).getD 0) else x) 0
def scrambleStep (z k : Word) : Word := z ^^^ (z * k)
def QDim.point (q : QDim) (i : Word) : Word :=
  if q.scr then
    let z := bitrev32 (q.x i) + q.seed
    bitrev32 (scrambleStep (scrambleStep (scrambleStep z 0x5A3C96E2) 0x31D74B28) 0xE9A61F54)
  else q.x i

/-! ### Commands (07 R195 to R199) -/

/-- The checks of QLOAD and QSAVE at issue, in order: cause and TVAL. -/
def qmoveFault (a : Word) (d cnt : Nat) (short : Bool) : Option (Nat × DWord) :=
  if d + cnt > 64 then some (cBadSubop, 0)
  else match shortAddr a with
    | none => some (cSpaceInvalid, a.setWidth 64)
    | some (w, off) =>
      if off + cnt * recSize short > 2 ^ 20 then some (cSpaceInvalid, localAddr w off)
      else if off % 8 ≠ 0 then some (cMemAlign, localAddr w off) else none

/-- QLOAD and QSAVE issue (R195). `gran` counts the granules that they write (17 R348; log 24). -/
def qmove (c : Ctl) (i : Instr) (load short : Bool) (ra rb : Reg) (cnt : Nat) (s : State) : Out :=
  issue c (fun _ => { reads := [ra, rb] }) (fun r t s =>
    match qmoveFault (t.reg ra) (t.reg rb).toNat cnt short with
    | some (cause, tval) => s.trapHere r t cause tval
    | none =>
      let gran := (granulesIn (if load then (t.reg rb).toNat * recSize short else offsetOf (t.reg ra)) (cnt * recSize short)).length
      s.holding r [.qruQueue] fun s => s.engineWrite c r gran fun s =>
        engineOp .qru i c r t s [t.reg ra, t.reg rb] .vec load (!load)) s

def execQload (c : Ctl) (seeds : Bool) (ra rb : Reg) (cnt : BitVec 7) (s : State) : Out :=
  qmove c (.qload c seeds ra rb cnt) true seeds ra rb cnt.toNat s
def execQsave (c : Ctl) (seeds : Bool) (ra rb : Reg) (cnt : BitVec 7) (s : State) : Out :=
  qmove c (.qsave c seeds ra rb cnt) false seeds ra rb cnt.toNat s

def execQseed (c : Ctl) (x : Bool) (ra rb : Reg) (s : State) : Out :=
  issue c (fun _ => { reads := [ra, rb] }) (fun r t s =>
    if (t.reg ra).toNat ≥ 64 then s.trapHere r t cBadSubop
    else s.holding r [.qruQueue] fun s => s.engineWrite c r 1 fun s =>
      engineOp .qru (.qseed c x ra rb) c r t s [t.reg ra, t.reg rb] .vec false false) s

/-- What an uncompleted command would write into a dimension, if it writes it. -/
def Op.tableWrite (o : Op) (spad : Memory) (d : Nat) (q : QDim) : Option QDim :=
  match o.ins with
  | .qload _ short _ _ cnt =>
    let d0 := (o.val 1).toNat
    if d0 ≤ d ∧ d < d0 + cnt.toNat then
      some (q.ofBytes short (spad.readN (offsetOf (o.val 0) + (d - d0) * recSize short) (recSize short)))
    else none
  | .qseed _ x .. => if (o.val 0).toNat = d then some { q with seed := o.val 1, scr := x } else none
  | _ => none

/-- A dimension of which each word is the old or the new one by a free choice from `k` on (R197). -/
def QDim.mix (old new : QDim) (k : Nat) : QDim :=
  { v := Vector.ofFn fun i => if Config.freeBool (k + i.val) then new.v[i] else old.v[i]
    seed := if Config.freeBool (k + 32) then new.seed else old.seed
    scr := if Config.freeBool (k + 33) then new.scr else old.scr }

/-- A dimension as QGEN reads it while commands are under way. In deterministic mode those of its own thread have ended, and other
lanes' are compared at the commit (17 R352). -/
def State.qdimNow (s : State) (v : TileRef) (d : Nat) : QDim × State :=
  let t := (s.tile? v).getD {}
  if s.isDet v.l then (t.qdim d, s)
  else s.ops.foldl (fun (x : QDim × State) e =>
    if e.2.tile = v ∧ e.2.cls = .qru ∧ e.2.open_ ∧ e.2.buffered = false then
      match e.2.tableWrite t.spad d x.1 with
      | some n => (x.1.mix n x.2.fresh, { x.2 with fresh := x.2.fresh + 34 })
      | none => x
    else x) (t.qdim d, s)

/-- The table granules that a point reads: those of the direction numbers that its index names, and the seed's. -/
def pointKeys (v d : Nat) (i : Word) : List Nat :=
  (((List.range 32).filter fun b => i.getLsbD b).map fun b => keyTable v d (b / 8)) ++ [keyTable v d 4]

def execQgen (c : Ctl) (rd ra rb : Reg) (s : State) : Out :=
  issue c (fun _ => { reads := [ra, rb], writes := [rd] }) (fun r t s =>
    let d := (t.reg ra).toNat
    let own := if s.isDet r.l then s.openOps fun e => decide (e.2.t = r) && decide (e.2.cls = .qru) && !e.2.buffered else []
    if d ≥ 64 then s.trapHere r t cBadSubop
    else s.holding r [.order own] fun s =>
      let (q, s) := s.qdimNow r.tile d
      let s := (pointKeys r.v d (t.reg rb)).foldl (fun (s : State) k => s.noteRead r k) (s.retire r c)
      s.fly r 4 [(rd, q.point (t.reg rb))] 0 (sigOf c t)) s

/-- The destination of QGENV and its operand fault (R199). -/
def qgenvFault (wins : List Window) (dst dim n : Word) : Opnd × Option (Nat × DWord) :=
  let o := mkOpnd wins .raw4 n.toNat dst
  (o, match operandFault [o] n.toNat false with
    | some f => some f
    | none => if dim.toNat ≥ 64 then some (cVecLength, dim.setWidth 64) else none)

def execQgenv (c : Ctl) (dst dim idx n : Reg) (s : State) : Out :=
  issue c (fun _ => { reads := [dst, dim, idx, n] }) (fun r t s =>
    s.holding r [.qruQueue] fun s =>
      let s := s.noteWindows r [t.reg dst]
      let wins := s.captured r.tile
      let (o, f) := qgenvFault wins (t.reg dst) (t.reg dim) (t.reg n)
      let gran := if f.isSome then 0 else (granulesIn o.off (o.cnt * o.e)).length
      s.engineWrite c r gran fun s =>
        let (o, s) := engineOp .qru (.qgenv c dst dim idx n) c r t s [t.reg dst, t.reg dim, t.reg idx, t.reg n] .vec false true
        ({ o with wins }, s)) s

/-! ### QRU_COMMAND_COMPLETE -/

def State.qload (s : State) (id : Nat) (o : Op) (short : Bool) (cnt : Nat) : State :=
  let off := offsetOf (o.val 0)
  let d0 := (o.val 1).toNat
  let (late, s) := s.draw
  let m := s.engineView o late
  match s.engineReads o [(((o.val 0).extractLsb' 21 3).toNat, off, cnt * recSize short)] with
  | (some (cause, tval), s) => s.engineFault id o (mkInfo o cause tval) true
  | (none, s) =>
    ((List.range cnt).foldl (fun (s : State) i =>
      s.putQDim o (d0 + i) short (m.readN (off + i * recSize short) (recSize short))) s).endOp id

def State.qsave (s : State) (id : Nat) (o : Op) (short : Bool) (cnt : Nat) : State :=
  let d0 := (o.val 1).toNat
  let bs := (List.range cnt).flatMap fun i => (s.qdimView o (d0 + i)).bytes short
  let s := (List.range cnt).foldl (fun (s : State) i => s.noteTable o (d0 + i)) s
  (s.engineWrites o [(offsetOf (o.val 0), bs)]).endOp id

/-- Points from those already written up to `hi`, through the destination's window without scale; a RAW destination takes the
whole word (R199). -/
def State.qgenvRun (s : State) (id : Nat) (o : Op) (d : Opnd) (hi : Nat) : State :=
  let q := s.qdimView o (o.val 1).toNat
  let s := s.noteTable o (o.val 1).toNat
  let r := (elemsOf o.elems hi).map fun (j : Nat) =>
    let y := q.point (o.val 2 + BitVec.ofNat 32 j)
    if d.w.fmt = 0 then (leBytes y.toNat 4, ([] : Events))
    else
      let (b, x) := encodeVal { d.w with smode := 0 } (decodeVal 9 y.toNat)
      (leBytes b d.e, ev j x)
  let evs := r.flatMap Prod.snd
  let s := if hi ≤ o.elems then s else s.engineWrites o [(d.off + o.elems * d.e, r.flatMap Prod.fst)]
  let fault := (recordOf evs [] o.ven).map fun x => mkInfo o x.2 (d.at_ x.1)
  s.updOp id fun o => { o with elems := hi, exc := o.exc ||| allFlags evs, fault := if o.fault.isSome then o.fault else fault }

def State.qgenv (s : State) (id : Nat) (o : Op) : State :=
  match qgenvFault o.wins (o.val 0) (o.val 1) (o.val 3) with
  | (_, some (cause, tval)) => s.engineFault id o (mkInfo o cause tval) false
  | (d, none) =>
    let s := (s.qgenvRun id o d d.cnt).settleWords o.tile [(d.off, d.cnt * d.e)] []
    s.engineDone id ((s.op? id).getD o)

/-- Some more points of a QGENV of free mode, but not its last (11 R274). -/
def State.qgenvPart (s : State) (id : Nat) (o : Op) : State :=
  let (k, s) := s.draw
  match o.ins, qgenvFault o.wins (o.val 0) (o.val 1) (o.val 3) with
  | .qgenv .., (d, none) => if o.elems + 1 < d.cnt then s.qgenvRun id o d (o.elems + 1 + k % (d.cnt - 1 - o.elems)) else s
  | _, _ => s

def execQruCommandComplete (op : Nat) (s : State) : Out :=
  .next (match s.op? op with
    | none => s
    | some o =>
      if o.cls ≠ .qru ∨ o.phase ≠ .waiting ∨ !s.clear o ∨ s.queueHead o.tile .qru ≠ some op then s
      else match o.ins with
        | .qload _ short _ _ cnt => s.qload op o short cnt.toNat
        | .qsave _ short _ _ cnt => s.qsave op o short cnt.toNat
        | .qseed _ x .. =>
          (s.putQDim o (o.val 0).toNat true (leBytes (o.val 1).toNat 4 ++ leBytes (if x then 1 else 0) 4)).endOp op
        | .qgenv .. => s.qgenv op o
        | _ => s)

end Sys2Proof.Machine
end

