-- ==== Sys2Proof/Machine/Matrix.lean ====
section
/-!
DEFINITION. The matrix path, codes 0xB0 to 0xB7 (08): operand slots, accumulators and their checksums, the gang line,
the array queue and its events, EINJ's targets (09 R254).
-/
namespace Sys2Proof.Machine

/-! ### Gangs -/

/-- The virtual tiles of a virtual tile's gang, by member index (16 R324). -/
def State.gangMembers (s : State) (l g : Nat) : List TileRef :=
  let n := max 1 (s.blk l).gsize
  ((List.range n).map fun i => (⟨l, g * n + i⟩ : TileRef)).filter fun v => decide (v.v < s.gridSize l)
def State.gangOfTile (s : State) (v : TileRef) : List TileRef := s.gangMembers v.l (gangOf (s.blk v.l) v.v)
def State.finishedAt (s : State) (v : TileRef) : Bool := ((s.tile? v).map VTile.finished).getD false

/-! ### Slots (08 R201 to R203) -/

def VTile.slot (v : VTile) (i : Nat) : Slot := (v.slots.toList[i]?).getD {}
def State.updSlot (s : State) (v : TileRef) (i : Nat) (f : Slot → Slot) : State :=
  s.updTile v fun t => { t with slots := t.slots.mapIdx fun j x => if j = i then f x else x }
def VTile.accu (v : VTile) (i : Nat) : Acc := (v.acc.toList[i]?).getD {}
def State.updAcc (s : State) (v : TileRef) (i : Nat) (f : Acc → Acc) : State :=
  s.updTile v fun t => { t with acc := t.acc.mapIdx fun j x => if j = i then f x else x }

def OFmt.e : OFmt → Nat | .bf => 2 | _ => 1
/-- The depth that one MMG consumes. -/
def OFmt.d : OFmt → Nat | .bf => 16 | _ => 32
/-- The bytes that an OLOAD of a slot copies (R205). -/
def Slot.bytes (x : Slot) (k : Nat) : Nat := match x.role with | .b => 16384 | .a => 16 * k * OFmt.e x.fmt
/-- Whether R201 admits a depth. -/
def Slot.depthOk (x : Slot) (k : Nat) : Bool :=
  let d := OFmt.d x.fmt
  match x.role with
  | .b => decide (k = d)
  | .a => decide (d ≤ k ∧ k ≤ 32 * d ∧ k % d = 0)

/-- The slots that an array operation reads on its own tile; the feeder's member index is compared with `gx`. -/
def Op.slotsRead (o : Op) (gx : Nat) : List Nat :=
  match o.ins with
  | .mmg _ _ _ sa sb fd => sa.toNat :: (if fd.toNat = gx then [sb.toNat] else [])
  | .mol _ _ sa _ _ => [sa.toNat]
  | _ => []

/-- Whether a slot is in use (R203). -/
def State.slotInUse (s : State) (v : TileRef) (i : Nat) : Bool :=
  let gx := v.v % max 1 (s.blk v.l).gsize
  s.ops.any fun e => decide (e.2.tile = v) && decide (e.2.cls = .array) &&
    decide (e.2.phase = .waiting ∨ e.2.phase = .sent) && (e.2.slotsRead gx).contains i &&
    !(e.2.buffered && (match e.2.ins with | .mmg .. => true | _ => false))

/-- The first word of a slot's extent that a reader consumes: poisoned, or with more than one bit flipped. -/
def Slot.bad (x : Slot) (off n : Nat) : Option Nat :=
  (wordsIn off n).find? fun w => x.poison.contains w || decide (nFlips (flipsAt x.flips w) ≥ 2)

/-- The words of a slot's extent after a read (22 R415 SRC 3). -/
def State.scrubSlot (s : State) (v : TileRef) (i off n : Nat) : State :=
  (wordsIn off n).foldl (fun (s : State) w =>
    match s.tile? v with
    | none => s
    | some t =>
      let k := nFlips (flipsAt (t.slot i).flips w)
      if k = 0 then s
      else
        let s := s.updSlot v i fun x =>
          { x with flips := x.flips.del w, poison := if k ≥ 2 then setInsert x.poison w else x.poison }
        s.logQuiet 3 t.ltile (if k ≥ 2 then 2 else 0) (BitVec.ofNat 64 (i * 4096 + w / 4))) s

/-- The address that a consumed slot word is reported at (22 R416). -/
def slotAddr (i w : Nat) : DWord := BitVec.ofNat 64 (i * 4096 + w / 4)

/-! ### Accumulators (08 R207, R216, R217; 04 R96, R97, R112) -/

def sat48 (x : Int) : Int := max (-(2 ^ 47 - 1)) (min (2 ^ 47 - 1) x)

def Acc.at_ (a : Acc) (i : Nat) : DWord := (a.ent.get? i).getD 0
def Acc.setEnt (a : Acc) (i : Nat) (v : DWord) : Acc :=
  { a with ent := if v = 0 then a.ent.del i else a.ent.set i v }

/-- Keys of the checksum sums: of a column of a block (its checksum row), of a row (its checksum column) (R216). -/
def ckRow (b col : Nat) : Nat := b * 128 + col
def ckCol (b row : Nat) : Nat := b * 128 + 64 + row
def Acc.ckAt (a : Acc) (k : Nat) : Int := (a.ck.get? k).getD 0
def Acc.setCk (a : Acc) (k : Nat) (v : Int) : Acc := { a with ck := if v = 0 then a.ck.del k else a.ck.set k v }
def Acc.msumAt (a : Acc) (k : Nat) : Word := (a.msum.get? k).getD 0
def Acc.setMsum (a : Acc) (k : Nat) (v : Word) : Acc := { a with msum := if v = 0 then a.msum.del k else a.msum.set k v }

/-- One contribution to an ACC48 entry, with its checksums. -/
def Acc.addInt (a : Acc) (i n : Nat) (c : Int) : Acc :=
  let x := i * 512 + n
  if c = 0 ∧ a.ent.get? x = none then a
  else
    let old := (a.at_ x).toInt
    let v := sat48 (old + c)
    let a := a.setEnt x (BitVec.ofInt 64 v)
    let a := if v ≠ old + c then { a with sat := true, ckinv := true } else a
    if a.ckinv then a
    else
      let b := n / 64
      let a := a.setCk (ckRow b (n % 64)) ((a.ckAt (ckRow b (n % 64)) + c) % 2 ^ 56)
      a.setCk (ckCol b i) ((a.ckAt (ckCol b i) + c) % 2 ^ 56)

/-- A BF16 input of MMG.bf in FP32: subnormals read as zero (04 R102). -/
def bfIn (h : Nat) : Word := BitVec.ofNat 32 ((if h / 128 % 256 = 0 then h / 32768 * 32768 else h) * 65536)
def absW (w : Word) : Word := w &&& 0x7FFFFFFF

/-- One product added to an FP32 entry, with its checksums and magnitude sums. -/
def Acc.addFp (a : Acc) (i n : Nat) (x y : Word) : Acc :=
  let e := i * 512 + n
  let b := n / 64
  let sum (w : Word) : Word := (fpFma .rne x y w).1
  let mag (w : Word) : Word := (fpFma .rne (absW x) (absW y) w).1
  let ck (a : Acc) (k : Nat) : Acc :=
    (a.setCk k ((sum (BitVec.ofInt 32 (a.ckAt k))).toNat)).setMsum k (mag (a.msumAt k))
  ck (ck (a.setEnt e (ofWord (sum (a.at_ e).lo))) (ckRow b (n % 64))) (ckCol b i)

/-- What MMG adds to a member's accumulator (R212). -/
def mmgAcc (k : OFmt) (a b : Slot) (acc : Acc) : Acc :=
  let by_ (m : Memory) (i : Nat) : Nat := (m.read i).toNat
  let half (m : Memory) (i : Nat) : Nat := by_ m i + 256 * by_ m (i + 1)
  (List.range 16).foldl (fun (acc : Acc) i =>
    (List.range 512).foldl (fun (acc : Acc) n =>
      match k with
      | .bf => (List.range 16).foldl (fun (acc : Acc) d =>
          acc.addFp i n (bfIn (half a.mem (2 * (i * a.k + a.cursor + d)))) (bfIn (half b.mem (2 * (d * 512 + n))))) acc
      | k => acc.addInt i n ((List.range 32).foldl (fun (c : Int) d =>
          let x := signed 8 (by_ a.mem (i * a.k + a.cursor + d))
          let y := by_ b.mem (d * 512 + n)
          c + x * (match k with | .ts => ts8Units y | _ => signed 8 y * 64)) 0)) acc) acc

def AccTag.ok (t : AccTag) (k : OFmt) : Bool :=
  match t, k with
  | .none, _ => true
  | .bf, .bf => true
  | .int, .ts => true
  | .int, .i8 => true
  | _, _ => false
def AccTag.of : OFmt → AccTag | .bf => .bf | _ => .int
def AccTag.code : AccTag → Nat | .none => 0 | .int => 1 | .bf => 2

/-! ### Issue: slots (08 R204, R205) -/

/-- An operation of the matrix path. -/
def mtxOp (cls : Cls) (i : Instr) (c : Ctl) (r : TRef) (t : Thread) (s : State) (vals : List Word) (rd wr : Bool) : Op × State :=
  engineOp cls i c r t s vals .mtx rd wr

/-- OCLM and ORLS as deterministic mode keeps them until the commit. -/
def slotOp (i : Instr) (c : Ctl) (r : TRef) (t : Thread) (s : State) : Op :=
  { t := r, tile := r.tile, vd := s.vdOf r.l, cls := .array, ins := i, path := .mtx, waddr := t.wordAddr c, tinst := s.iword
    sig := sigOf c t, region := t.region }

/-- OLOAD's source: the short address, or the pair. -/
def oloadSrc (k : OSrc) (src : Reg) (t : Thread) : DWord :=
  match k with | .l => ofWord (t.reg src) | _ => t.pair src

/-- Checks 3 and 4 of R210 for a member. -/
def mmgOwn (v : VTile) (k : OFmt) (acc : Nat) (sa : Reg) : Option Nat :=
  let x := v.slot sa.toNat
  if x.st ≠ .filled then some cSlotState
  else if x.role ≠ .a ∨ x.fmt ≠ k then some cSlotFormat
  else if !(v.accu acc).tag.ok k then some cSlotFormat
  else none

/-- What the slots, the accumulators and the gang's members say against a matrix word: cause and TVAL (R202, R205, R210, R211, R215).
`n` is the K of an OLOAD. -/
def State.mtxBad (s : State) (v : TileRef) (i : Instr) (n : Nat) : Option (Nat × DWord) :=
  let t := (s.tile? v).getD {}
  let busy (x : Reg) : Bool :=
    decide ((t.slot x.toNat).st = .free ∨ (t.slot x.toNat).st = .filling) || s.slotInUse v x.toNat
  match i with
  | .oclm _ x .. => if (t.slot x.toNat).st ≠ .free then some (cSlotState, 0) else none
  | .orls _ x => if busy x then some (cSlotState, 0) else none
  | .oload _ _ x .. =>
    if busy x then some (cSlotState, 0)
    else if !(t.slot x.toNat).depthOk n then some (cVecLength, BitVec.ofNat 64 n) else none
  | .mmg _ k acc sa .. =>
    match mmgOwn t k acc.toNat sa with
    | some cause => some (cause, 0)
    | none => if (s.gangOfTile v).any s.finishedAt then some (cGangMismatch, 0) else none
  | .mol _ acc sa .. =>
    if (t.slot sa.toNat).st ≠ .filled then some (cSlotState, 0)
    else if (t.slot sa.toNat).role ≠ .a ∨ (t.slot sa.toNat).fmt = .bf ∨ (t.accu acc.toNat).tag = .bf then some (cSlotFormat, 0)
    else none
  | _ => none

/-- These checks at issue. In deterministic mode slot, accumulator and line state is written after commits alone, and they are made
there (R225; 11 R291). -/
def State.mtxChecked (s : State) (r : TRef) (t : Thread) (i : Instr) (n : Nat) (body : State → State) : State :=
  match (if s.isDet r.l then none else s.mtxBad r.tile i n) with
  | some (cause, tval) => s.trapHere r t cause tval
  | none => body s

/-- A matrix word that had been handed over traps precisely: its operation goes, its wait is given back, and its thread stands at it
again (R211, R225). In deterministic mode it had retired. -/
def State.mtxTrap (s : State) (id : Nat) (cause : Nat) (tval : DWord := 0) : State :=
  match s.op? id with
  | none => s
  | some o =>
    let s := (s.updTile o.tile fun v => { v with lineQ := v.lineQ.filter fun i => decide (i ≠ id) }).dropOp id
    match s.thread? o.t with
    | none => s
    | some t =>
      let c := o.ins.ctl
      let t := { t with run := .ready, pc := o.ea }
      let s := if o.atStart then s.updLane o.t fun l => { l with committed := l.committed - 1 } else s
      let t := if o.atStart then
          let t := { t with rst := decide (o.line = 1), instret := t.instret - 1 }
          if c.wc ∧ c.thr ≠ 0 then t.giveBack c.tok c.thr.toNat else t
        else t
      (s.setThread o.t t).takeTrap o.t { cause, tpc := o.ea, tval, tinst := o.tinst }

/-- What a matrix operation does when it is accepted: at issue, or, in deterministic mode, after its chunk's commit
(R225), where it may trap instead. -/
def State.acceptMtx (s : State) (id : Nat) (o : Op) : State :=
  match (if o.atStart then s.mtxBad o.tile o.ins (o.val 2).toNat else none) with
  | some (cause, tval) => s.mtxTrap id cause tval
  | none =>
  match o.ins with
  | .oclm _ x fm role => (s.updSlot o.tile x.toNat fun y => { y with st := .claimed, fmt := fm, role }).endOp id
  | .orls _ x => (s.updSlot o.tile x.toNat fun y => { y with st := .free }).endOp id
  | .oload _ _ x .. => s.updSlot o.tile x.toNat fun y => { y with st := .filling, k := (o.val 2).toNat, cursor := 0 }
  | .mmg .. =>
    (s.updOp id fun o => { o with phase := .parked }).updTile o.tile fun v => { v with lineQ := v.lineQ ++ [id] }
  | .mol _ a .. => s.updAcc o.tile a.toNat fun y => { y with tag := .int }
  | .mclr _ a => s.updAcc o.tile a.toNat fun y => { y with tag := .none }
  | _ => s

/-- A matrix operation of a thread is handed over; in deterministic mode it ends its chunk, and keeps what a trap after the commit
restores. `t` is the thread as it issues it. -/
def State.submitMtx (s : State) (r : TRef) (t : Thread) (o : Op) : State :=
  let id := s.nextId
  if s.isDet r.l then
    (s.launchOp { o with buffered := true, atStart := true, ea := t.pc, line := if t.rst then 1 else 0 }).closeChunk r .closing
  else (s.launchOp o).acceptMtx id o

def execOclm (c : Ctl) (x : Reg) (fm : OFmt) (role : Role) (s : State) : Out :=
  issue c (fun _ => {}) (fun r t s => s.mtxChecked r t (.oclm c x fm role) 0 fun s =>
      let s := (s.retire r c).clearRst r
      if s.isDet r.l then
        s.submitMtx r t (slotOp (.oclm c x fm role) c r t s)
      else (s.updSlot r.tile x.toNat fun y => { y with st := .claimed, fmt := fm, role }).postNext r (sigOf c t)) s

def execOrls (c : Ctl) (x : Reg) (s : State) : Out :=
  issue c (fun _ => {}) (fun r t s => s.mtxChecked r t (.orls c x) 0 fun s =>
      let s := (s.retire r c).clearRst r
      if s.isDet r.l then
        s.submitMtx r t (slotOp (.orls c x) c r t s)
      else (s.updSlot r.tile x.toNat fun y => { y with st := .free }).postNext r (sigOf c t)) s

/-- Earlier drains of the tile that have not written their last byte (R223). -/
def State.drainsBefore (s : State) (v : TileRef) : List Nat :=
  s.openOps fun e => decide (e.2.tile = v) && !e.2.buffered && (match e.2.ins with | .mdrn .. => true | _ => false)

def execOload (c : Ctl) (k : OSrc) (x src len : Reg) (s : State) : Out :=
  issue c (fun _ => { pairs := if k = .l then [] else [src]
                      reads := (if k = .l then [src] else [src, Reg.hi src]) ++ [len] }) (fun r t s =>
    s.mtxChecked r t (.oload c k x src len) (t.reg len).toNat fun s =>
      let s := s.retire r c
      let a := oloadSrc k src t
      let (o, s) := mtxOp .oload (.oload c k x src len) c r t s [a.lo, a.hi, t.reg len] true false
      s.submitMtx r t { o with unit := OSrc.code k, scope := .vdS
                               after := o.after ++ s.drainsBefore r.tile }) s

/-! ### Issue: the array (08 R208 to R211, R214, R218, R222) -/

/-- The thread waits at the gang line; its MMG has not issued (R210). -/
def execMmg (c : Ctl) (k : OFmt) (acc : BitVec 1) (sa sb fd : Reg) (s : State) : Out :=
  issue c (fun _ => {}) (fun r t s =>
    let g := s.gangOfTile r.tile
    if (s.blk r.l).heavy = 0 then s.trapHere r t cPowerUndeclared
    else if fd.toNat ≥ g.length then s.trapHere r t cBadSubop
    else s.mtxChecked r t (.mmg c k acc sa sb fd) 0 fun s =>
          let o : Op := { t := r, tile := r.tile, vd := s.vdOf r.l, cls := .array, ins := .mmg c k acc sa sb fd, path := .mtx
                          waddr := t.wordAddr c, tinst := s.iword, region := t.region, ea := t.pc }
          if s.isDet r.l then
            let s := (s.retire r c).clearRst r
            (s.updThread r fun t => { t with run := .line }).submitMtx r t { o with sig := sigOf c t }
          else
            let s := s.updThread r fun t => { t with run := .line }
            s.submitMtx r t o) s

def execMol (c : Ctl) (acc : BitVec 1) (sa lst n : Reg) (s : State) : Out :=
  issue c (fun _ => { reads := [lst, n] }) (fun r t s =>
    s.mtxChecked r t (.mol c acc sa lst n) 0 fun s => s.holding r [.arrayQueue] fun s =>
      let s := (s.retire r c).clearRst r
      let (o, s) := mtxOp .array (.mol c acc sa lst n) c r t s [t.reg lst, t.reg n] true false
      s.submitMtx r t o) s

def execMdrn (c : Ctl) (acc : BitVec 1) (dst cs rs : Reg) (s : State) : Out :=
  issue c (fun _ => { reads := [dst, cs, rs] }) (fun r t s =>
    s.holding r [.arrayQueue] fun s =>
      let s := (s.retire r c).noteWindows r [t.reg dst, t.reg cs, t.reg rs]
      let (o, s) := mtxOp .array (.mdrn c acc dst cs rs) c r t s [t.reg dst, t.reg cs, t.reg rs] true true
      s.submitMtx r t { o with wins := s.captured r.tile }) s

def execMclr (c : Ctl) (acc : BitVec 1) (s : State) : Out :=
  issue c (fun _ => {}) (fun r t s =>
    s.holding r [.arrayQueue] fun s =>
      let s := s.retire r c
      let (o, s) := mtxOp .array (.mclr c acc) c r t s [] false false
      s.submitMtx r t o) s

def execMstat (c : Ctl) (rd : Reg) (acc : BitVec 1) (s : State) : Out :=
  issue c (fun _ => { writes := [rd] }) (fun r t s =>
    s.holding r [.arrayQueue] fun s =>
      let s := s.retire r c
      let (o, s) := mtxOp .array (.mstat c rd acc) c r t s [] false false
      s.submitMtx r t { o with regs := [rd] }) s

/-! ### EINJ's targets (09 R254; 10 R259) -/

/-- Whether a target's index has bits that must be zero. -/
def einjBad (tgt : Reg) (x : Word) : Bool :=
  let mask : Word :=
    if tgt = 0 then 0x7FFF else if tgt = 1 ∨ tgt = 2 then 0xFFFFC
    else if tgt = 3 then (if x.getLsbD 9 then 0x3E0F else 0x3E3F)
    else 0xFFFF
  decide (x &&& ~~~mask ≠ 0)

/-- A mask for the half of an 8-byte word that a 32-bit word is. -/
def halfMask (off : Nat) (m : Word) : DWord := if off % 8 = 4 then DWord.mk 0 m else DWord.mk m 0
def flipIn (l : Assoc Nat DWord) (off : Nat) (m : Word) : Assoc Nat DWord :=
  let w := off / 8 * 8
  let v := flipsAt l w ^^^ halfMask off m
  if v = 0 then l.del w else l.set w v

/-- The stored bits of the target invert; no code, parity or checksum follows. -/
def VTile.inject (v : VTile) (tgt : Reg) (x m : Word) : VTile :=
  let n := x.toNat
  let acc (f : Acc → Acc) : VTile := { v with acc := v.acc.mapIdx fun j a => if j = n / 8192 % 2 then f a else a }
  if tgt = 0 then
    acc fun a =>
      let e := n % 8192
      a.setEnt e (a.at_ e ^^^ (if n / 16384 % 2 = 1 then DWord.mk 0 m else DWord.mk m 0))
  else if tgt = 1 then { v with flips := flipIn v.flips n m }
  else if tgt = 2 then { v with pflips := flipIn v.pflips (128 * spRow n + 32 * spGroup n + n % 32) m }
  else if tgt = 3 then
    acc fun a =>
      let b := n / 1024 % 8
      let k := if n / 512 % 2 = 1 then ckCol b (n % 16) else ckRow b (n % 64)
      a.setCk k ((BitVec.ofInt 56 (a.ckAt k) ^^^ m.setWidth 56).toNat)
  else { v with slots := v.slots.mapIdx fun j y => if j = n / 4096 % 16 then { y with flips := flipIn y.flips (n % 4096 * 4) m } else y }

/-- Injections whose earlier matrix operations have all ended take effect. -/
def State.einjDue (s : State) : State :=
  s.ops.foldl (fun (s : State) e =>
    match e.2.ins with
    | .einj _ _ _ tgt =>
      if e.2.buffered ∨ !e.2.after.all s.closed then s
      else
        let s := s.updTile e.2.tile fun v => v.inject tgt (e.2.val 0) (e.2.val 1)
        if e.2.atStart then s.endOp e.1 else (s.dropOp e.1).postNext e.2.t e.2.sig
    | _ => s) s

/-- When an operation issued: an MMG when the gang line released it (R211). -/
def Op.issuedNo (o : Op) (id : Nat) : Nat := match o.ins with | .mmg .. => o.stamp | _ => id

/-- No earlier injection of the tile is still to take effect. -/
def State.einjClear (s : State) (id : Nat) (o : Op) : Bool :=
  s.ops.all fun e => !(decide (e.2.tile = o.tile) && decide (e.1 < o.issuedNo id) && !e.2.buffered &&
    (match e.2.ins with | .einj .. => true | _ => false))

/-! ### OLOAD_COMPLETE (08 R205, R206) -/

/-- A slot that is being filled: its first bytes that arrive take the old words' marks away. -/
def Slot.unmark (x : Slot) (n : Nat) : Slot :=
  { x with flips := x.flips.filter fun e => !decide (e.1 < n), poison := x.poison.filter fun w => !decide (w < n) }

/-- Some bytes of a slot replaced, poison carried by words (22 R416). -/
def Slot.fillAt (x : Slot) (at_ : Nat) (c : Carried) : Slot :=
  { x with
    mem := x.mem.writeN at_ (c.map Prod.fst)
    poison := (poisonedWords at_ c).foldl setInsert x.poison }

/-- An OLOAD faults: its slot is claimed again (R206). -/
def State.oloadFault (s : State) (id : Nat) (o : Op) (i : Nat) (cause : Nat) (tval : DWord) (c : Bool := false) : State :=
  (s.updSlot o.tile i fun x => { x with st := .claimed }).engineFault id o (mkInfo o cause tval) c

/-- Whether a weight-store slice of an extent is inside its refresh window (02 R46). -/
def State.wsBusy (s : State) (v : TileRef) (off n : Nat) : Bool :=
  let f := s.tileField v
  (List.range ((off + n - 1) / 2 ^ 23 - off / 2 ^ 23 + 1)).any fun i =>
    match (s.partition (s.tilePool v) f)[off / 2 ^ 23 + i]? with
    | none => false
    | some sl =>
      let k := sl - (s.sliceOut.filter fun e => decide (e.1 = f) && decide (e.2 < sl)).length
      ((s.fields.toList[f]?).map fun x => x.inWindow.contains k).getD false

/-- The fault of an OLOAD that is found before any byte moves (R206). An extent of local space that passes the end is reported with its
start address (DESIGN CHOICE, log 42). -/
def State.oloadStop (s : State) (o : Op) (k : OSrc) (n : Nat) : Option (Nat × DWord) :=
  let a := DWord.mk (o.val 0) (o.val 1)
  match k with
  | .l =>
    match shortAddr (o.val 0) with
    | none => some (cSpaceInvalid, (o.val 0).setWidth 64)
    | some (w, off) =>
      if off + n > 2 ^ 20 then some (cSpaceInvalid, localAddr w off)
      else if off % 8 ≠ 0 then some (cMemAlign, localAddr w off) else none
  | .w =>
    match Addr.of a with
    | .weight off =>
      let pool := s.tilePool o.tile
      let f := s.tileField o.tile
      if off % 8 ≠ 0 then some (cMemAlign, a)
      else if (s.wsAt pool f off).isNone ∨ (s.wsAt pool f (off + n - 1)).isNone then some (cMemNomap, a) else none
    | _ => some (cSpaceInvalid, a)
  | .g =>
    match Addr.of a with
    | .glob _ off => if off % 8 ≠ 0 then some (cMemAlign, a) else none
    | _ => some (cSpaceInvalid, a)

/-- Whether it waits: for a refresh window (02 R46), for the limit on requests (12 R298), for a page at its home. -/
def State.oloadWaits (s : State) (o : Op) (k : OSrc) (n : Nat) : Bool :=
  match k, Addr.of (DWord.mk (o.val 0) (o.val 1)) with
  | .w, .weight off => s.wsBusy o.tile off n
  | .g, .glob home off => s.homesFull o || s.globalWaits o.vd home off n
  | _, _ => false

/-- The first byte of its source that its home refuses, with the cause; and the first word that cannot be rebuilt. -/
def State.oloadRefused (s : State) (o : Op) (k : OSrc) (n : Nat) : Option (Nat × Nat) :=
  match k, Addr.of (DWord.mk (o.val 0) (o.val 1)) with
  | .g, .glob home off => s.globalRefused o.vd home off n
  | _, _ => none
def State.oloadLost (s : State) (o : Op) (k : OSrc) (n : Nat) : Option Nat :=
  match k, s.tile? o.tile with
  | .l, some v => (wordsIn (offsetOf (o.val 0)) n).find? fun w => decide (s.readWord v w = .reconFail)
  | _, _ => none

/-- Some bytes of the source (R205). -/
def State.oloadGet (s : State) (o : Op) (k : OSrc) (q : Nat × Nat) : Carried × State :=
  let n := q.2 - q.1
  match k, Addr.of (DWord.mk (o.val 0) (o.val 1)) with
  | .w, .weight off =>
    let pool := s.tilePool o.tile
    let f := s.tileField o.tile
    (s.wsCarry pool f (off + q.1) n, s.wsScrub pool f (off + q.1) n)
  | .g, .glob home off => s.homeGetN o home (off + q.1) n
  | _, _ =>
    let off := offsetOf (o.val 0) + q.1
    let (d, s) := s.draw
    match s.spadCarry o.tile off n with
    | (.error _, s) => ([], s)
    | (.ok c, s) => ((c.zip (s.unitView o d o.tile off n)).map fun x => (x.2, x.1.2), s)

/-- Some bytes of an OLOAD land in its slot (11 R274). -/
def State.oloadMove (s : State) (id : Nat) (o : Op) (k : OSrc) (i n : Nat) (q : Nat × Nat) : State :=
  let first : Bool := ((s.op? id).map fun o => decide (o.parts = [])).getD true
  let (c, s) := s.oloadGet o k q
  (s.updSlot o.tile i fun x => (if first then x.unmark n else x).fillAt q.1 c).updOp id fun o => { o with parts := o.parts ++ [q] }

/-- An OLOAD moves the bytes that it has not moved yet, or faults. After a home's refusal each byte of the slot is the old or the
new one (R202); the refused ones are the old. -/
def State.oloadRun (s : State) (id : Nat) (o : Op) (k : OSrc) (i : Nat) : State :=
  let x := ((s.tile? o.tile).getD {}).slot i
  let n := x.bytes x.k
  match s.oloadStop o k n with
  | some (cause, tval) => s.oloadFault id o i cause tval
  | none =>
    if s.oloadWaits o k n then s
    else match s.oloadLost o k n, s.oloadRefused o k n with
      | some w, _ => s.oloadFault id o i cSpadReconFail (viaWindow (o.val 0) (max w (offsetOf (o.val 0)))) true
      | none, none =>
        (((leftRanges n o.parts).foldl (fun (s : State) q => s.oloadMove id o k i n q) s).updSlot o.tile i fun x => { x with st := .filled }).endOp id
      | none, some (cause, at_) =>
        let home := match Addr.of (DWord.mk (o.val 0) (o.val 1)) with | .glob h _ => h | _ => 0
        let off := match Addr.of (DWord.mk (o.val 0) (o.val 1)) with | .glob _ a => a | _ => 0
        let f := s.fresh
        let s := { s with fresh := f + n }
        let s := (List.range n).foldl (fun (s : State) j =>
          if Config.freeBool (f + j) ∧ (s.globalRefused o.vd home (off + j) 1).isNone then s.oloadMove id o k i n (j, j + 1) else s) s
        s.oloadFault id o i cause (BitVec.ofNat 64 (home * 2 ^ 52 + at_))

/-- Some bytes of an OLOAD of free mode move before the others. -/
def State.oloadPart (s : State) (id : Nat) (o : Op) : State :=
  match o.ins with
  | .oload _ k x .. =>
    let y := ((s.tile? o.tile).getD {}).slot x.toNat
    let n := y.bytes y.k
    let f := s.fresh
    let s := { s with fresh := f + 3 }
    if s.queueHead o.tile .oload ≠ some id ∨ !s.einjClear id o ∨ (s.oloadStop o k n).isSome ∨ s.oloadWaits o k n ∨
        (s.oloadRefused o k n).isSome ∨ (s.oloadLost o k n).isSome then s
    else match freePart (leftRanges n o.parts) f with
      | none => s
      | some q => s.oloadMove id o k x.toNat n q
  | _ => s

def execOloadComplete (op : Nat) (s : State) : Out :=
  .next (match s.op? op with
    | none => s
    | some o =>
      if o.cls ≠ .oload ∨ o.phase ≠ .waiting ∨ !s.clear o ∨ s.queueHead o.tile .oload ≠ some op ∨ !s.einjClear op o then s
      else match o.ins with
        | .oload _ k x .. => (s.oloadRun op o k x.toNat).einjDue
        | _ => s)

/-! ### The gang line (08 R211) -/

/-- Every MMG at the line of a gang traps GANG_MISMATCH: a member has finished (R211). -/
def State.lineMismatch (s : State) (l g : Nat) : State :=
  (s.gangMembers l g).foldl (fun (s : State) m =>
    (((s.tile? m).getD {}).lineQ).foldl (fun (s : State) id => s.mtxTrap id cGangMismatch) s) s

/-- A released MMG issues: its wait is consumed, it enters the array queue, the tag is set (R207, R211). `k` is a number
that the members' MMGs share. -/
def State.mmgGo (s : State) (id k : Nat) : State :=
  match s.op? id with
  | none => s
  | some o =>
    match o.ins with
    | .mmg c fm acc .. =>
      let (n, s) := s.accept o.tile
      let s := s.updTile o.tile fun v => { v with lineQ := v.lineQ.filter fun i => decide (i ≠ id) }
      let s := s.updAcc o.tile acc.toNat fun a => { a with tag := AccTag.of fm }
      let g := (s.thread? o.t).bind fun t => sigOf c t
      let o' := { o with phase := .waiting, stamp := k, seq := n, sig := if o.atStart then o.sig else g }
      let s := { s with ops := (s.ops.del id) ++ [(id, o')] }
      if o.atStart then s.updThread o.t fun t => { t with run := .ready } else (s.retire o.t c).clearRst o.t
    | _ => s

/-- What the members compare (R211). -/
def lineKey (o : Op) : Option (BitVec 1 × Reg × OFmt × Reg) :=
  match o.ins with | .mmg _ k acc _ sb fd => some (acc, sb, k, fd) | _ => none

/-- The outcome of a release: a cause for each member, or none when all issue. -/
def State.lineOutcome (s : State) (heads : List (TileRef × Nat × Op)) : Option (List Nat) :=
  let own := heads.map fun h => match h.2.2.ins with
    | .mmg _ k acc sa .. => mmgOwn ((s.tile? h.1).getD {}) k acc.toNat sa
    | _ => none
  let all (c : Nat) : Option (List Nat) := some (heads.map fun _ => c)
  if own.any Option.isSome then some (own.map fun x => x.getD cGangMismatch)
  else match heads with
    | [] => none
    | h :: t =>
      if t.any fun x => decide (lineKey x.2.2 ≠ lineKey h.2.2) then all cGangMismatch
      else match h.2.2.ins with
        | .mmg _ k _ _ sb fd =>
          let y := ((heads[fd.toNat]?).map fun x => ((s.tile? x.1).getD {}).slot sb.toNat).getD {}
          if y.st ≠ .filled then all cSlotState
          else if y.role ≠ .b ∨ y.fmt ≠ k then all cSlotFormat
          else none
        | _ => none

def execGangLineRelease (l g : Nat) (s : State) : Out :=
  .next (
    let ms := s.gangMembers l g
    let heads := ms.filterMap fun m => match (s.tile? m).bind fun v => v.lineQ.head? with
      | some id => (s.op? id).map fun o => (m, id, o)
      | none => none
    let ready := ms ≠ [] ∧ heads.length = ms.length ∧ (ms.all fun m => s.holdFree m .arrayQueue &&
      decide (((s.tile? m).map VTile.place) = some .present)) = true
    if ms.any s.finishedAt then s.lineMismatch l g
    else if ready then
      match s.lineOutcome heads with
      | some causes => (heads.zip causes).foldl (fun (s : State) x => s.mtxTrap x.1.2.1 x.2) s
      | none =>
        let k := s.nextId
        heads.foldl (fun (s : State) x => (s.movedOn x.1).mmgGo x.2.1 k) { s with nextId := s.nextId + 1 }
    else s)

/-! ### MMG_EXECUTE, MOL_EXECUTE, MCLR_EXECUTE, MSTAT_EXECUTE -/

/-- Whether an array operation may run: it heads its tile's queue and no earlier injection is due. -/
def State.arrayReady (s : State) (id : Nat) (o : Op) : Bool :=
  decide (o.cls = .array) && decide (o.phase = .waiting) && s.clear o && decide (s.queueHead o.tile .array = some id) &&
    s.einjClear id o

/-- The MMGs that one release issued. -/
def State.siblings (s : State) (o : Op) : List (Nat × Op) :=
  s.ops.filter fun e => decide (e.2.cls = .array) && decide (e.2.phase = .waiting) && decide (e.2.stamp = o.stamp) &&
    (lineKey e.2).isSome

/-- The extents of an A slot that one MMG reads. -/
def Slot.mmgReads (x : Slot) (k : OFmt) : List (Nat × Nat) :=
  (List.range 16).map fun i => ((i * x.k + x.cursor) * OFmt.e k, OFmt.d k * OFmt.e k)

/-- One member's MMG is carried out, with the feeder's slot as it was at the start. -/
def State.mmgMember (s : State) (e : Nat × Op) (fv : TileRef) (b : Slot) : State :=
  let (id, o) := e
  match o.ins with
  | .mmg _ k acc sa sb _ =>
    let v := (s.tile? o.tile).getD {}
    let a := v.slot sa.toNat
    let bad : Option DWord := match (a.mmgReads k).findSome? fun x => a.bad x.1 x.2 with
      | some w => some (slotAddr sa.toNat w)
      | none => (b.bad 0 16384).map fun w => slotAddr sb.toNat w
    let s := (a.mmgReads k).foldl (fun (s : State) x => s.scrubSlot o.tile sa.toNat x.1 x.2) s
    let s := if fv = o.tile then s.scrubSlot fv sb.toNat 0 16384 else s
    let s := s.updAcc o.tile acc.toNat fun y => { y with tagX := AccTag.of k }
    match bad with
    | some tval => (s.engineFault id o (mkInfo o cPoison tval) true { src := 3 })
    | none =>
      let s := s.updAcc o.tile acc.toNat fun y => mmgAcc k a b y
      (s.updSlot o.tile sa.toNat fun x => { x with cursor := (x.cursor + OFmt.d k) % max 1 x.k }).endOp id
  | _ => s

/-- MMG_EXECUTE: the MMGs of one release, at the heads of all the members' queues, run together (R212, R213). -/
def execMmgExecute (op : Nat) (s : State) : Out :=
  .next (match s.op? op with
    | none => s
    | some o =>
      match o.ins with
      | .mmg _ _ _ _ sb fd =>
        let sib := s.siblings o
        if sib.all fun e => s.arrayReady e.1 e.2 then
          match (s.gangOfTile o.tile)[fd.toNat]? with
          | none => s
          | some fv =>
            let b := ((s.tile? fv).getD {}).slot sb.toNat
            (sib.foldl (fun (s : State) e => s.mmgMember e fv b) s).einjDue
        else s
      | _ => s)

/-- An entry of the outlier list (04 R94). -/
structure Outlier where
  k : Nat
  n : Nat
  v : Int
def Outlier.of (d : Nat) : Outlier := { k := d / 2 ^ 48 % 2 ^ 16, n := d / 2 ^ 32 % 2 ^ 16, v := signed 16 (d / 2 ^ 16) }

/-- The operand checks of MOL but the last (R215). A list that passes the end is reported with its start address (DESIGN CHOICE,
log 42). -/
def molFault (o : Op) : Option (Nat × DWord) :=
  let n := (o.val 1).toNat
  if n > 16384 then some (cVecLength, BitVec.ofNat 64 n)
  else match shortAddr (o.val 0) with
    | none => some (cSpaceInvalid, (o.val 0).setWidth 64)
    | some (w, off) =>
      if off + 8 * n > 2 ^ 20 then some (cSpaceInvalid, localAddr w off)
      else if off % 8 ≠ 0 then some (cMemAlign, localAddr w off) else none

/-- Entries added in list order (R214). -/
def molAcc (a : Slot) (l : List Outlier) (acc : Acc) : Acc :=
  l.foldl (fun (acc : Acc) e => (List.range 16).foldl (fun (acc : Acc) i =>
    acc.addInt i e.n (signed 8 (a.mem.read (i * a.k + e.k)).toNat * e.v)) acc) acc

def State.molRun (s : State) (id : Nat) (o : Op) (acc : BitVec 1) (sa : Reg) : State :=
  let s := s.updAcc o.tile acc.toNat fun y => { y with tagX := .int }
  let fault (s : State) (cause : Nat) (tval : DWord) (c : Bool) (src : Nat) : State :=
    (s.engineFault id o (mkInfo o cause tval) c { src })
  match molFault o with
  | some (cause, tval) => fault s cause tval false 1
  | none =>
    let off := offsetOf (o.val 0)
    let w := ((o.val 0).extractLsb' 21 3).toNat
    let n := (o.val 1).toNat
    let (late, s) := s.draw
    let m := s.engineView o late
    match s.engineReads o [(w, off, 8 * n)] with
    | (some (cause, tval), s) => fault s cause tval true 1
    | (none, s) =>
      let l := (List.range n).map fun i => Outlier.of (leNat (m.readN (off + 8 * i) 8))
      let a := ((s.tile? o.tile).getD {}).slot sa.toNat
      match (l.zipIdx).find? fun e => decide (e.1.k ≥ a.k ∨ e.1.n ≥ 512) with
      | some e => fault s cVecFault (localAddr w (off + 8 * e.2)) false 1
      | none =>
        let ws := l.flatMap fun e => (List.range 16).map fun i => i * a.k + e.k
        let s := ws.foldl (fun (s : State) x => s.scrubSlot o.tile sa.toNat x 1) s
        match ws.findSome? fun x => a.bad x 1 with
        | some x => fault s cPoison (slotAddr sa.toNat x) true 3
        | none => (s.updAcc o.tile acc.toNat fun y => molAcc a l y).endOp id

def execMolExecute (op : Nat) (s : State) : Out :=
  .next (match s.op? op with
    | none => s
    | some o =>
      match o.ins with
      | .mol _ acc sa .. => if s.arrayReady op o then (s.molRun op o acc sa).einjDue else s
      | _ => s)

def execMclrExecute (op : Nat) (s : State) : Out :=
  .next (match s.op? op with
    | none => s
    | some o =>
      match o.ins with
      | .mclr _ acc =>
        if s.arrayReady op o then ((s.updAcc o.tile acc.toNat fun y => { tag := y.tag }).endOp op).einjDue else s
      | _ => s)

/-- The status word of an accumulator (R222). -/
def Acc.status (a : Acc) : Word :=
  BitVec.ofNat 32 ((if a.sat then 2 ^ 31 else 0) + (if a.ckinv then 2 ^ 30 else 0) + AccTag.code a.tagX * 2 ^ 28 +
    (if a.rep.unc then 2 ^ 27 else 0) + (if a.rep.ckfix then 2 ^ 26 else 0) + (if a.rep.dovf then 2 ^ 25 else 0) +
    a.rep.ncorr * 2 ^ 21 + a.rep.row * 2 ^ 9 + a.rep.col)

def execMstatExecute (op : Nat) (s : State) : Out :=
  .next (match s.op? op with
    | none => s
    | some o =>
      match o.ins with
      | .mstat _ rd acc =>
        if s.arrayReady op o then (s.reply op [(rd, (((s.tile? o.tile).getD {}).accu acc.toNat).status)]).einjDue else s
      | _ => s)

/-! ### MDRN_EXECUTE (08 R218 to R221; 04 R113) -/

/-- One element converted, before its encode. -/
def drainVal (t : AccTag) (e : DWord) (cs rs : Word) : Word :=
  let v : Word := match t with | .bf => e.lo | _ => (fpMul .rne (fpOfInt .rne e.toInt).1 0x3C800000).1
  (fpMul .rne (fpMul .rne v cs).1 rs).1

/-- Whether an encode of a drain counts as clamped, overflowed or a NaN (R218); FRAC32 also clamps a value that rounds
below zero (04 R95). -/
def drainOver (w : Window) (v : Word) (x : Exc) : Bool :=
  (v32 v).isNan || decide (x &&& (excInvalid ||| excOverflow) ≠ 0) ||
    (decide (w.fmt = 9) && match v32 v with
      | .inf s => s
      | .fin s m e => s && decide ((roundTo w.rm true m e false (-24)).1 ≠ 0)
      | .nan => false)

/-- The sums of a block's row and column of an INT accumulator. -/
def Acc.rowSum (a : Acc) (b i : Nat) : Int := ((List.range 64).foldl (fun (z : Int) c => z + (a.at_ (i * 512 + 64 * b + c)).toInt) 0) % 2 ^ 56
def Acc.colSum (a : Acc) (b c : Nat) : Int := ((List.range 16).foldl (fun (z : Int) i => z + (a.at_ (i * 512 + 64 * b + c)).toInt) 0) % 2 ^ 56

/-- The comparison of an INT block (R219): the accumulator corrected, and whether the block stands. -/
def Acc.checkInt (a : Acc) (b : Nat) : Acc × Bool :=
  let dr (i : Nat) : Int := (a.ckAt (ckCol b i) - a.rowSum b i) % 2 ^ 56
  let dc (c : Nat) : Int := (a.ckAt (ckRow b c) - a.colSum b c) % 2 ^ 56
  match (List.range 16).filter fun i => decide (dr i ≠ 0), (List.range 64).filter fun c => decide (dc c ≠ 0) with
  | [], [] => (a, true)
  | [i], [c] =>
    if dr i = dc c then
      let e := i * 512 + 64 * b + c
      let a := a.setEnt e (a.at_ e + BitVec.ofInt 64 (BitVec.ofInt 56 (dr i)).toInt)
      ({ a with rep := { a.rep with
          row := if a.rep.ncorr = 0 then i else a.rep.row
          col := if a.rep.ncorr = 0 then 64 * b + c else a.rep.col
          ncorr := a.rep.ncorr + 1 } }, true)
    else (a, false)
  | [i], [] => ({ a.setCk (ckCol b i) (a.rowSum b i) with rep := { a.rep with ckfix := true } }, true)
  | [], [c] => ({ a.setCk (ckRow b c) (a.colSum b c) with rep := { a.rep with ckfix := true } }, true)
  | _, _ => (a, false)

/-- Whether an FP32 checksum is off by more than 2^−12 of its magnitude sum (R220). -/
def fpOff (act ck m : Word) : Bool :=
  match v32 act, v32 ck, v32 m with
  | .fin s x e, .fin t y d, .fin _ z f =>
    let q := min (min e d) (f - 12)
    decide (((scaled s x e q - scaled t y d q).natAbs : Int) > scaled false z (f - 12) q)
  | _, _, _ => false

def fpChain : List Word → Word
  | [] => 0
  | a :: l => l.foldl (fun x y => (fpAdd .rne x y).1) a

/-- The comparison of an FP block (R220). -/
def Acc.checkFp (a : Acc) (b : Nat) : Bool :=
  let at_ (i c : Nat) : Word := (a.at_ (i * 512 + 64 * b + c)).lo
  let ok (k : Nat) (l : List Word) : Bool := !fpOff (fpChain l) (BitVec.ofInt 32 (a.ckAt k)) (a.msumAt k)
  ((List.range 16).all fun i => ok (ckCol b i) ((List.range 64).map fun c => at_ i c)) &&
    (List.range 64).all fun c => ok (ckRow b c) ((List.range 16).map fun i => at_ i c)

def Acc.check (a : Acc) (b : Nat) : Acc × Bool :=
  if a.tagX = .bf then (a, a.checkFp b) else if a.ckinv then (a, true) else a.checkInt b

/-- The operands of a drain: destination, column scales, row scales. -/
def drainOpnds (o : Op) : List Opnd :=
  let d := mkOpnd o.wins .fw 8192 (o.val 0)
  let raw (x : Opnd) (n : Nat) : Opnd := { x with e := 2, cnt := n, col := .raw4 }
  [d, raw (mkOpnd o.wins .raw4 0 (o.val 1)) 512, raw (mkOpnd o.wins .raw4 0 (o.val 2)) 16]

/-- The operand fault of a drain (R221). An extent that passes the end is reported with its operand's address (DESIGN CHOICE, log 42). -/
def drainFault (o : Op) : Option (Nat × DWord) :=
  let l := drainOpnds o
  match l.find? Opnd.spaceBad with
  | some x => some (cSpaceInvalid, x.spaceAddr)
  | none =>
    match l.find? fun x => decide (x.off % x.e ≠ 0) with
    | some x => some (cMemAlign, x.at_ 0)
    | none =>
      match l with
      | d :: _ => if d.w.fmt = 0 ∨ d.w.fmt ≥ 10 then some (cWindowFmt, d.at_ 0) else none
      | [] => none

/-- One block of a drain: the accumulator, the tile's bytes to write, the block left out. -/
structure Drain where
  acc : Acc
  /-- Rows of blocks: the number of the first element, its offset, the bytes. -/
  writes : List (Nat × Nat × List Byte) := []
  skipped : Option Nat := none

def drainBlock (d : Opnd) (cs rs : Nat → Word) (z : Drain) (b : Nat) : Drain :=
  let (a, ok) := z.acc.check b
  if !ok then { z with acc := { a with rep := { a.rep with unc := true } }, skipped := z.skipped.or (some b) }
  else
    let w := { d.w with smode := 0 }
    let rows := (List.range 16).map fun i =>
      (i, (List.range 64).map fun c =>
        let v := drainVal a.tagX (a.at_ (i * 512 + 64 * b + c)) (cs (64 * b + c)) (rs i)
        let (x, f) := encodeVal w (v32 v)
        (leBytes x d.e, drainOver w v f))
    { z with
      acc := { a with rep := { a.rep with dovf := a.rep.dovf || rows.any fun r => r.2.any Prod.snd } }
      writes := z.writes ++ rows.map fun r => ((b * 16 + r.1) * 64, d.off + (r.1 * 512 + 64 * b) * d.e, r.2.flatMap Prod.fst) }

/-- What some elements of a drain write: those of a range that are in a row of a block. -/
def Drain.piece (z : Drain) (e : Nat) (q : Nat × Nat) : List (Nat × List Byte) :=
  z.writes.filterMap fun w =>
    let a := max q.1 w.1
    let b := min q.2 (w.1 + 64)
    if a < b then some (w.2.1 + (a - w.1) * e, (w.2.2.drop ((a - w.1) * e)).take ((b - a) * e)) else none

/-- What a drain computes, with the scratchpad as it reads it. -/
def State.drainOf (s : State) (o : Op) (acc : BitVec 1) (d c r : Opnd) (m : Memory) : Drain :=
  let v := (s.tile? o.tile).getD {}
  let sc (x : Opnd) (i : Nat) : Word := BitVec.ofNat 32 (leNat (m.readN (x.off + 2 * i) 2) * 65536)
  (List.range 8).foldl (drainBlock d (sc c) (sc r)) { acc := { v.accu acc.toNat with rep := {} } }

/-- Some elements of a drain of free mode are written before the others (11 R274), or its scales are read before them (R271, R289). -/
def State.drainPart (s : State) (id : Nat) (o : Op) : State :=
  match o.ins, drainFault o, drainOpnds o with
  | .mdrn _ acc .., none, [d, c, r] =>
    let (late, s) := s.draw
    let f := s.fresh
    let s := { s with fresh := f + 4 }
    let v := (s.tile? o.tile).getD {}
    let m := o.snap.getD (s.engineView o late)
    if !s.arrayReady id o ∨ (s.readFails v c.off 1024).isSome ∨ (s.readFails v r.off 32).isSome then s
    else if o.snap.isNone ∧ Config.freeBool (f + 3) then s.updOp id fun x => { x with snap := some m }
    else
      let z := s.drainOf o acc d c r m
      match freePart (leftRanges 8192 o.parts) f with
      | none => s
      | some q => (s.engineWrites o (z.piece d.e q)).updOp id fun o => { o with parts := o.parts ++ [q] }
  | _, _, _ => s

/-- A drain runs (R217 to R222). One that an operand fault or an unreadable scale stops writes nothing, its report too: the one before
stays (DEDUCED, log 60). -/
def State.drainRun (s : State) (id : Nat) (o : Op) (acc : BitVec 1) : State :=
  match drainFault o, drainOpnds o with
  | some (cause, tval), _ => (s.engineFault id o (mkInfo o cause tval) false)
  | none, [d, c, r] =>
    let (late, s) := s.draw
    let m := o.snap.getD (s.engineView o late)
    match s.engineReads o [(c.win, c.off, 1024), (r.win, r.off, 32)] with
    | (some (cause, tval), s) => (s.engineFault id o (mkInfo o cause tval) true)
    | (none, s) =>
      let v := (s.tile? o.tile).getD {}
      let z := s.drainOf o acc d c r m
      let s := (s.updAcc o.tile acc.toNat fun _ => z.acc).engineWrites o ((leftRanges 8192 o.parts).flatMap (z.piece d.e))
      let s := s.settleWords o.tile (if z.skipped = none then [(d.off, 8192 * d.e)] else z.writes.map fun w => (w.2.1, w.2.2.length)) []
      let p := z.acc.rep
      let s := if p.ncorr > 0 ∨ p.ckfix then
          s.logErr 4 v.ltile 1 0 (BitVec.ofNat 64 (if p.ncorr > 0 then acc.toNat * 8192 + p.row * 512 + p.col else 0)) 0
            noVd 0
        else s
      match z.skipped with
      | none => s.endOp id
      | some b => (s.engineFault id o (mkInfo o cChkUncorrectable (d.at_ (64 * b))) true { src := 4 })
  | none, _ => s

def execMdrnExecute (op : Nat) (s : State) : Out :=
  .next (match s.op? op with
    | none => s
    | some o =>
      match o.ins with
      | .mdrn _ acc .. => if s.arrayReady op o then (s.drainRun op o acc).einjDue else s
      | _ => s)

end Sys2Proof.Machine
end

