-- ==== Sys2Proof/Machine/Groups.lean ====
section
/-!
DEFINITION. Tokens and groups, codes 0xC0 to 0xC9 (09 R226 to R236), and the events of a group operation at its home and
of its acknowledgement.
-/
namespace Sys2Proof.Machine

/-! ### Tokens (R226, R227) -/

def execTrst (c : Ctl) (k : Reg) (s : State) : Out :=
  issue c (fun _ => {}) (fun r t s =>
    let inc := (t.tokAt k).inc
    let s := (s.retire r c).clearRst r
    (s.updThread r fun t =>
      { t.setTok k { count := 0, inc } with tovf := t.tovf &&& ~~~((1 : BitVec 16) <<< k.toNat) }).postNext r (sigOf c t)) s

def execTadd (c : Ctl) (k : Reg) (imm : BitVec 24) (s : State) : Out :=
  issue c (fun _ => { badsub := decide (c.imm imm < 0) || decide (c.imm imm > 255) }) (fun r t s =>
    let s := (s.retire r c).clearRst r
    (s.updThread r fun t => t.post k (c.imm imm).toNat).postNext r (sigOf c t)) s

def execTrd (c : Ctl) (rd k : Reg) (s : State) : Out :=
  issue c (fun _ => { det := true, writes := [rd] }) (fun r t s =>
    (s.retire r c).fly r 2 [] 0 (sigOf c t) (some (k, rd))) s

/-! ### Handles (R229) and issue -/

def handleHome (h : Word) : Nat := (h.extractLsb' 0 24).toNat
def handleRec (h : Word) : Nat := (h.extractLsb' 24 5).toNat
def handleGen (h : Word) : BitVec 3 := h.extractLsb' 29 3
def mkHandle (gen : BitVec 3) (rec_ home : Nat) : Word := gen ++ BitVec.ofNat 5 rec_ ++ BitVec.ofNat 24 home

/-- A group operation leaves for its home (R230): a message whose values are the handle and the operands. Arrivals are
releases on CORE (R235). -/
def groupOp (c : Ctl) (i : Instr) (r : TRef) (t : Thread) (s : State) (home : Nat) (vals : List Word) (arrival : Bool) : Op :=
  { t := r, tile := r.tile, vd := s.vdOf r.l, cls := .group, ins := i, vals, path := .msg, waddr := t.wordAddr c
    tinst := s.iword, unit := home, sig := sigOf c t, region := t.region
    after := (s.pathAfter r .msg false true ++ (if arrival then s.coreOpen r else [])).eraseDups
    gives := if arrival then s.coreGift r .vdS [] else none }

/-- Issue of a group instruction: its home must be a virtual tile of the grid (R229). -/
def groupIssue (c : Ctl) (n : Need) (home : Thread → Nat) (closes : Bool) (rst : Bool)
    (mk : TRef → Thread → State → Op) (s : State) : Out :=
  issue c (fun _ => n) (fun r t s =>
    if home t ≥ s.gridSize r.l then s.trapHere r t cVtileRange (BitVec.ofNat 64 (home t))
    else s.logged r 0 1 fun s =>
      let s := s.retire r c
      let s := if rst then s.clearRst r else s
      let s := s.submit (mk r t s) true
      if closes then s.closeChunk r .closing else s) s

def execGnew (c : Ctl) (rd ra : Reg) (s : State) : Out :=
  groupIssue c { reads := [ra], writes := [rd] } (fun t => (t.reg ra).toNat) false true (fun r t s =>
    { groupOp c (.gnew c rd ra) r t s (t.reg ra).toNat [t.reg ra] false with regs := [rd] }) s

def execGjoin (c : Ctl) (ra : Reg) (s : State) : Out :=
  groupIssue c { reads := [ra] } (fun t => handleHome (t.reg ra)) false true (fun r t s =>
    groupOp c (.gjoin c ra) r t s (handleHome (t.reg ra)) [t.reg ra] false) s

def execGleave (c : Ctl) (ra : Reg) (s : State) : Out :=
  groupIssue c { reads := [ra] } (fun t => handleHome (t.reg ra)) false true (fun r t s =>
    groupOp c (.gleave c ra) r t s (handleHome (t.reg ra)) [t.reg ra] false) s

def execGfree (c : Ctl) (ra : Reg) (s : State) : Out :=
  groupIssue c { reads := [ra] } (fun t => handleHome (t.reg ra)) false true (fun r t s =>
    groupOp c (.gfree c ra) r t s (handleHome (t.reg ra)) [t.reg ra] false) s

def execGcnt (c : Ctl) (rd ra : Reg) (s : State) : Out :=
  groupIssue c { reads := [ra], writes := [rd] } (fun t => handleHome (t.reg ra)) false false (fun r t s =>
    { groupOp c (.gcnt c rd ra) r t s (handleHome (t.reg ra)) [t.reg ra] false with regs := [rd] }) s

def execGbar (c : Ctl) (ra k : Reg) (s : State) : Out :=
  groupIssue c { reads := [ra] } (fun t => handleHome (t.reg ra)) true true (fun r t s =>
    { groupOp c (.gbar c ra k) r t s (handleHome (t.reg ra)) [t.reg ra] true with gbar := some ⟨k, 1, t.region⟩ }) s

/-- GRED (R233): the result's short address is checked at issue. -/
def execGred (c : Ctl) (k : RedOp) (h val cnt res tok : Reg) (s : State) : Out :=
  issue c (fun _ => { reads := [h, val, cnt, res] }) (fun r t s =>
    let home := handleHome (t.reg h)
    if home ≥ s.gridSize r.l then s.trapHere r t cVtileRange (BitVec.ofNat 64 home)
    else match shortAddr (t.reg res) with
      | none => s.trapHere r t cSpaceInvalid ((t.reg res).setWidth 64)
      | some (w, off) =>
        if off % 4 ≠ 0 then s.trapHere r t cMemAlign (localAddr w off)
        else s.logged r 0 1 fun s =>
          let s := (s.retire r c).clearRst r
          let o := groupOp c (.gred c k h val cnt res tok) r t s home [t.reg h, t.reg val, t.reg cnt, t.reg res] true
          (s.submit { o with gbar := some ⟨tok, 1, t.region⟩ } true).closeChunk r .closing) s

/-! ### At the home (R230 to R234) -/

def VTile.group (v : VTile) (i : Nat) : Group := (v.groups.get? i).getD {}
def State.setGroup (s : State) (v : TileRef) (i : Nat) (g : Group) : State :=
  s.updTile v fun t => { t with groups := t.groups.set i g }

/-- combine(p, v) and identity(op) of R234. -/
def RedOp.combine (k : RedOp) (p v : Word) : Word :=
  match k with
  | .addI => p + v
  | .addF => (fpAdd .rne p v).1
  | .min => if p.sle v then p else v
  | .max => if v.sle p then p else v
  | .minu => if p.ule v then p else v
  | .maxu => if v.ule p then p else v
  | .and => p &&& v
  | .or => p ||| v
def RedOp.identity : RedOp → Word
  | .addI => 0 | .addF => 0 | .min => 0x7FFFFFFF | .max => 0x80000000 | .minu => 0xFFFFFFFF | .maxu => 0 | .and => 0xFFFFFFFF
  | .or => 0

/-- A fault that the home finds (R230). -/
def State.groupFault (s : State) (id : Nat) (o : Op) (cause detail : Nat) : State :=
  s.deferFault id cause (DWord.mk (o.val 0) (BitVec.ofNat 32 (min detail 255)))

/-- The releases of a barrier: how many waiting arrivers are posted in all (R232). -/
def releaseCount : Nat → Nat → Nat → Nat
  | 0, _, _ => 0
  | fuel + 1, count, arrivals =>
    if count > 0 ∧ arrivals ≥ count then count + releaseCount fuel count (arrivals - count) else 0

/-- The arrivals that one release joins: what happens before each of them happens before what follows each wait for it (11 R278). -/
def State.joinArrivals (s : State) (l : List Arriver) : State :=
  let ids := (l.flatMap fun a => (((s.op? a.op).bind Op.gives).map Gift.ops).getD []).foldl (fun x i => joinIds x [i]) []
  if ids = [] then s else l.foldl (fun (s : State) a => s.updOp a.op fun o => { o with view := joinIds o.view ids }) s

/-- The release test: each arriver of a released phase is posted and its GBAR completes, in arrival order. -/
def State.barrier (s : State) (v : TileRef) (i : Nat) : State :=
  let g := ((s.tile? v).getD {}).group i
  let n := releaseCount g.bar.length g.count g.bar.length
  (g.bar.take n).foldl (fun (s : State) a => s.endOp a.op)
    ((s.setGroup v i { g with bar := g.bar.drop n }).joinArrivals (g.bar.take n))

/-- A reduction's result reaches an arriver: four raw bytes on its tile, then its token and its signal. -/
def State.deliverRed (s : State) (a : Arriver) (p : Word) : State :=
  match s.op? a.op with
  | none => s
  | some o =>
    (if s.finishedAt o.tile then s else s.spadWrite o.tile a.raddr (leBytes p.toNat 4) none).endOp a.op

/-- An arrival at a reduction (R233). -/
def State.reduceAt (s : State) (id : Nat) (o : Op) (v : TileRef) (k : RedOp) (g : Group) : State :=
  let i := handleRec (o.val 0)
  let val := o.val 1
  let n := (o.val 2).toNat
  let me : Arriver := { op := id, t := o.t, tok := 0, raddr := offsetOf (o.val 3) }
  if g.count = 0 then s.groupFault id o cGroupNotMember 0
  else if n = 0 then s.deliverRed me (RedOp.identity k)
  else if n > g.count then s.groupFault id o cGroupOvercount g.count
  else match g.red with
    | some p =>
      if n ≠ p.n ∨ k ≠ p.rop then s.groupFault id o cGroupMismatch p.n
      else
        let p := { p with arr := p.arr ++ [me], part := RedOp.combine k p.part val }
        let s := s.updOp id fun o => { o with phase := .performed }
        if p.arr.length = n then
          p.arr.foldl (fun (s : State) a => s.deliverRed a p.part) ((s.setGroup v i { g with red := none }).joinArrivals p.arr)
        else s.setGroup v i { g with red := some p }
    | none =>
      if n = 1 then s.deliverRed me val
      else (s.updOp id fun o => { o with phase := .performed }).setGroup v i
        { g with red := some { rop := k, n, arr := [me], part := val } }

/-- A group operation is applied at its home. -/
def State.groupAt (s : State) (id : Nat) (o : Op) (v : TileRef) : State :=
  let t := (s.tile? v).getD {}
  let h := o.val 0
  let i := handleRec h
  let g := t.group i
  let bad := decide (g.used = false) || decide (g.gen ≠ handleGen h)
  match o.ins with
  | .gnew _ rd _ =>
    match (List.range 32).find? fun j => !(t.group j).used with
    | none => s.groupFault id o cGroupInvalid 2
    | some j =>
      let gen := (t.group j).gen + 1
      (s.setGroup v j { used := true, gen }).reply id [(rd, mkHandle gen j v.v)]
  | .gjoin .. =>
    if bad then s.groupFault id o cGroupInvalid 0
    else ((s.setGroup v i { g with count := min (g.count + 1) (2 ^ 32 - 1) }).barrier v i).reply id []
  | .gleave .. =>
    if bad then s.groupFault id o cGroupInvalid 0
    else if g.count = 0 then s.groupFault id o cGroupNotMember 0
    else ((s.setGroup v i { g with count := g.count - 1 }).barrier v i).reply id []
  | .gfree .. =>
    if bad then s.groupFault id o cGroupInvalid 0
    else if g.count ≠ 0 ∨ g.bar ≠ [] ∨ g.red.isSome then s.groupFault id o cGroupInvalid 1
    else (s.setGroup v i { g with used := false }).reply id []
  | .gcnt _ rd _ =>
    if bad then s.groupFault id o cGroupInvalid 0 else s.reply id [(rd, BitVec.ofNat 32 g.count)]
  | .gbar _ _ k =>
    if bad then s.groupFault id o cGroupInvalid 0
    else if g.count = 0 then s.groupFault id o cGroupNotMember 0
    else
      let s := s.updOp id fun o => { o with phase := .performed }
      ((s.setGroup v i { g with bar := g.bar ++ [{ op := id, t := o.t, tok := k }] }).barrier v i).settle o.t
  | .gred _ k .. =>
    if bad then s.groupFault id o cGroupInvalid 0 else (s.reduceAt id o v k g).settle o.t
  | _ => s

/-- A group operation for a finished virtual tile is discarded; it completes and posts its signal (16 R334). -/
def State.groupGone (s : State) (id : Nat) : State :=
  match s.op? id with
  | none => s
  | some o => ((s.countDiscard o.tile.l).updOp id fun o => { o with regs := [], gbar := none }).clearPend o.t id o.regs |>.endOp id

/-- The home of a group operation applies it, from the network or from its park queue. -/
def State.serveGroup (s : State) (id : Nat) (dst : TileRef) : State :=
  match s.op? id with
  | none => s
  | some o => if s.finishedAt dst then s.groupGone id else s.groupAt id o dst

/-- GROUP_OP_AT_HOME: a group message whose earlier accesses are performed arrives at its home and is applied, or
parks. -/
def execGroupOpAtHome (op : Nat) (s : State) : Out :=
  .next (match s.op? op with
    | none => s
    | some o =>
      let dst : TileRef := ⟨o.tile.l, o.unit⟩
      if o.cls = .group ∧ o.phase = .waiting ∧ s.clear o ∧ s.firstTo op o.tile dst Op.destVt then
        if s.finishedAt dst ∨ s.reaches o.tile dst then s.serveGroup op dst
        else (s.refreshEntry o.tile dst).parkAt dst op
      else s)

/-- GROUP_ACK: the acknowledgement returns, with a value for GNEW and GCNT; the instruction completes. -/
def execGroupAck (op : Nat) (s : State) : Out :=
  .next (match s.op? op with
    | none => s
    | some o => if o.cls = .group ∧ o.phase = .reply then s.endOp op else s)

end Sys2Proof.Machine
end

