-- ==== Sys2Proof/Machine/Copies.lean ====
section
/-!
DEFINITION. Copy engines and dependent launches, codes 0xD0 to 0xD5 (09 R237 to R247), and the event of a unit of a copy.
-/
namespace Sys2Proof.Machine

/-! ### Descriptors and tracking (R237, R238) -/

def Op.copySrc (o : Op) : DWord := BitVec.ofNat 64 (leNat (o.data.take 8))
def Op.copyDst (o : Op) : DWord := BitVec.ofNat 64 (leNat ((o.data.drop 8).take 8))
def Op.copyLen (o : Op) : Nat := leNat ((o.data.drop 16).take 8)
/-- The first unit of a copy: of COPY 0, of COPY.r the one at PROG. -/
def Op.copyFirst (o : Op) : Nat := match o.ins with | .copy _ true _ => leNat ((o.data.drop 24).take 8) / 65536 | _ => 0

def VTile.copyAt (v : VTile) (off : Nat) : Option CopyTr := v.copies.get? off

/-- Writes of the engine to its descriptor: raw bytes, outside any chunk. -/
def State.descWrite (s : State) (o : Op) (at_ : Nat) (bs : List Byte) : State :=
  let a := offsetOf (o.val 0) + at_
  s.spadWrite o.tile a bs none
def State.copyStatus (s : State) (o : Op) (state cause : Nat) : State := s.descWrite o 0x20 (leBytes (state + 256 * cause) 4)
def State.copyProg (s : State) (o : Op) (p : Nat) : State := s.descWrite o 0x18 (leBytes p 8)
def State.track (s : State) (v : TileRef) (off : Nat) (c : CopyTr) : State :=
  s.updTile v fun t => { t with copies := t.copies.set off c }
def State.untrack (s : State) (v : TileRef) (off : Nat) : State :=
  s.updTile v fun t => { t with copies := t.copies.del off }

/-- A copy is handed to its engine: tracked and running. COPY.r goes on at PROG, with the units below it done (R241). -/
def State.copyStart (s : State) (id : Nat) : State :=
  match s.op? id with
  | none => s
  | some o =>
    let s := s.track o.tile (offsetOf (o.val 0)) { state := 1, op := id }
    let s := if o.copyFirst = 0 then s.copyProg o 0 else s
    (s.copyStatus o 1 0).updOp id fun o =>
      { o with line := 1, parts := if o.copyFirst = 0 then [] else [(0, o.copyFirst * 8192)] }

/-- Whether the thread's chunk holds a COPY of the same descriptor that waits for its commit. -/
def State.copyBuffered (s : State) (r : TRef) (off : Nat) : Bool :=
  s.ops.any fun e => decide (e.2.t = r) && e.2.buffered && decide (e.2.cls = .copy) && decide (offsetOf (e.2.val 0) = off) &&
    (match e.2.ins with | .copy .. => true | _ => false)

/-- The checks of a handle: R48, then the alignment of 64. -/
def handleCheck (h : Word) : Except Nat Nat :=
  match shortAddr h with
  | none => .error cSpaceInvalid
  | some (_, off) => if off % 64 = 0 then .ok off else .error cMemAlign

/-- The home whose engine runs a copy (R237). -/
def copyHome (src dst : DWord) : Nat :=
  match Addr.of dst, Addr.of src with
  | .glob h _, _ => h
  | _, .glob h _ => h
  | _, _ => 0

def execCopy (c : Ctl) (res : Bool) (ra : Reg) (s : State) : Out :=
  issue c (fun _ => { reads := [ra] }) (fun r t s =>
    let h := t.reg ra
    match handleCheck h with
    | .error cause => s.trapHere r t cause (h.setWidth 64)
    | .ok off =>
      let s := (granulesIn off 0x24).foldl (fun (s : State) g => s.noteRead r (keyLocal r.v g)) s
      let tr := (((s.tile? r.tile).getD {}).copyAt off).map CopyTr.state
      let bad := if res then decide (tr ≠ some 3) else decide (tr = some 1 ∨ tr = some 3)
      if bad ∨ s.copyBuffered r off then s.trapHere r t cCopyFault (h.setWidth 64) (BitVec.allOnes 64)
      else s.holding r (if res then [] else [.copies]) fun s => s.logged r 0 1 fun s =>
        let s := (s.retire r c).clearRst r
        let (o, s) := engineOp .copy (.copy c res ra) c r t s [h] .copy true true
        let d := s.ownView r s.nextId r.tile off (((s.tile? r.tile).getD {}).spad.readN off 0x24)
        let o := { o with data := d, scope := .vdS }
        let o := { o with unit := copyHome o.copySrc o.copyDst }
        if s.isDet r.l then s.submit o true
        else
          let id := s.nextId
          (s.submit o false).copyStart id) s

/-! ### Words of a copy (R239, R240; 11 R274; 22 R416) -/

/-- What a home, the host or the tile answers for a word of a copy: its bytes with their poison, a wait, or a fault. -/
inductive CopyAns where
  | bytes (c : Carried)
  | wait
  | fault (cause : Nat)
  deriving DecidableEq, Repr

/-- The word at offset i of a copy's source. What the host or another module answers is free (log 10). -/
def State.copyGet (s : State) (o : Op) (i : Nat) : CopyAns × State :=
  match o.got, Addr.of (o.copySrc + BitVec.ofNat 64 i) with
  | some c, _ => (.bytes ((c.drop i).take 8), s)
  | none, .glob home off =>
    if s.globalWaits o.vd home off 1 then (.wait, s)
    else match s.reach o.vd home off true false with
      | .fault c => (.fault c, s)
      | _ =>
        let (c, s) := s.homeGet o home off 8
        (.bytes c, s)
  | none, .loc _ off =>
    (match s.carryView o o.tile off 8 with
     | (.ok c, s) => (.bytes c, s)
     | (.error e, s) => (.fault e.1, s))
  | none, _ =>
    let k := s.fresh
    (.bytes ((List.range 8).map fun j => (BitVec.ofNat 8 (Config.freeNat (k + j)), decide (Config.freeNat (k + 8) % 4 = 1))),
      { s with fresh := k + 9 })

/-- What the place of a word of the destination answers to a write. -/
def State.copyMay (s : State) (o : Op) (i : Nat) (poison : Bool) : CopyAns :=
  match Addr.of (o.copyDst + BitVec.ofNat 64 i) with
  | .glob home off =>
    match s.reach o.vd home off false true with
    | .ok p o => if s.inMove p o then .wait else .bytes []
    | .wait _ _ => .wait
    | .fault c => .fault c
    | .far _ => .bytes []
  | .loc _ _ => .bytes []
  | _ => if poison then .fault cPoison else .bytes []

/-- Writes some bytes of a word of a copy, with its poison. -/
def State.copyPut (s : State) (id : Nat) (o : Op) (i : Nat) (c : Carried) : State :=
  let a := o.copyDst + BitVec.ofNat 64 i
  match Addr.of a with
  | .glob home off =>
    let s := (s.globWrote o.tile.l a.toNat c.length).lookup o.vd home off
    match s.reach o.vd home off false true with
    | .ok p off =>
      let s := s.pageStoreBy p off (c.map Prod.fst) (o.writes [id] false)
      if c.any Prod.snd then s.pagePoison p [off] else s
    | _ => s
  | .loc _ off => s.spadPut o.tile off c none true
  | _ => s

/-- One word of a copy: read and written, unless its places say otherwise. -/
def State.copyWord (s : State) (id : Nat) (o : Op) (w : Nat) : State :=
  match s.copyGet o (8 * w) with
  | (.bytes c, s) =>
    (match s.copyMay o (8 * w) (c.any Prod.snd) with
     | .bytes _ => s.copyPut id o (8 * w) (if o.poison then c.map (fun x => (x.1, true)) else c)
     | _ => s)
  | (_, s) => s

/-- A word is written or not, by a free choice (11 R274; 22 R427). -/
def State.copyMix (s : State) (id : Nat) (o : Op) (w : Nat) : State :=
  if Config.freeBool s.fresh then { s with fresh := s.fresh + 1 }.copyWord id o w else { s with fresh := s.fresh + 1 }

/-- The words of a copy; its units; the words of a unit. -/
def Op.copyWords (o : Op) : Nat := o.copyLen / 8
def Op.units (o : Op) : Nat := (o.copyLen + 65535) / 65536
def Op.unitWords (o : Op) (u : Nat) : List Nat := (List.range (min 8192 (o.copyWords - u * 8192))).map fun i => u * 8192 + i

/-- The words of a copy that are not written yet, as ranges; the units that are not complete, in ascending order. -/
def Op.wordsLeft (o : Op) : List (Nat × Nat) := leftRanges o.copyWords o.parts
def Op.unitsLeft (o : Op) : List Nat := (List.range o.units).filter fun u =>
  o.wordsLeft.any fun q => decide (q.1 < (u + 1) * 8192) && decide (u * 8192 < q.2)

/-- Whether the link of a host port is down (21 R389). -/
def State.portDown (s : State) (p : Nat) : Bool := if p = s.primary then !s.linkUp else s.portsDown.contains p

/-- The first answer that is no word for the words of a unit that `left` names, with the address it concerns; `may` is what the
place of a word answers to a write. A host port whose link is down faults a unit at its first word that is left, and the host may
refuse any word of one, read or written, by a free choice (21 R399). A poisoned word that the host cannot hold is named by the address
read (22 R416). -/
def State.unitMeets (s : State) (o : Op) (u : Nat) (left : Nat → Bool) (may : Nat → Bool → CopyAns) :
    Option (CopyAns × DWord) :=
  let host (a : DWord) : Bool := match Addr.of a with | .host => true | _ => false
  let down (a : DWord) : Bool := host a && s.portDown (a.toNat / 2 ^ 56 % 4)
  let ws := (o.unitWords u).filter left
  let at_ (a : DWord) (w : Nat) : Option (CopyAns × DWord) := some (.fault cMemNomap, a + BitVec.ofNat 64 (8 * w))
  let w := (ws[Config.freeNat (s.fresh + 1) % max 1 ws.length]?).getD (u * 8192)
  if down o.copySrc then at_ o.copySrc (ws.headD (u * 8192))
  else if down o.copyDst then at_ o.copyDst (ws.headD (u * 8192))
  else if (host o.copySrc || host o.copyDst) && Config.freeBool s.fresh then
    at_ (if host o.copySrc && (!host o.copyDst || Config.freeBool (s.fresh + 2)) then o.copySrc else o.copyDst) w
  else ws.findSome? fun w =>
    match s.copyGet o (8 * w) with
    | (.bytes c, _) =>
      (match may w (c.any Prod.snd) with
       | .bytes _ => none
       | .fault cause => some (.fault cause, (if cause = cPoison then o.copySrc else o.copyDst) + BitVec.ofNat 64 (8 * w))
       | x => some (x, o.copyDst + BitVec.ofNat 64 (8 * w)))
    | (x, _) => some (x, o.copySrc + BitVec.ofNat 64 (8 * w))

/-- What the words that are left of a unit of a copy meet. -/
def State.unitCheck (s : State) (o : Op) (u : Nat) : Option (CopyAns × DWord) :=
  s.unitMeets o u (inRanges o.wordsLeft) fun w poison => s.copyMay o (8 * w) poison

/-! ### The engine (R239 to R242) -/

/-- Whether an address has the form of one of the spaces a copy may name, for an extent of n bytes. -/
def copySpaceOk (a : DWord) (n : Nat) : Bool :=
  match Addr.of a with
  | .glob _ off => decide (off + n ≤ 2 ^ 52)
  | .loc _ off => decide (off + n ≤ 2 ^ 20)
  | .host => decide (a.toNat / 2 ^ 58 % 4 = 0) && decide (a.toNat % 2 ^ 56 + n ≤ 2 ^ 56)
  | _ => false
def isWeight (a : DWord) : Bool := match Addr.of a with | .weight _ => true | _ => false

/-- The validation of a descriptor, in order: the cause and its address or count (R239). -/
def copyInvalid (src dst : DWord) (len : Nat) (handle : DWord) : Option (Nat × DWord) :=
  let n := if len > 2 ^ 40 then 0 else len
  if !copySpaceOk src n then some (cSpaceInvalid, src)
  else if !copySpaceOk dst n && !isWeight dst then some (cSpaceInvalid, dst)
  else if isWeight dst then some (cWsLocked, dst)
  else if src.toNat % 8 ≠ 0 then some (cMemAlign, src)
  else if dst.toNat % 8 ≠ 0 then some (cMemAlign, dst)
  else if len % 8 ≠ 0 then some (cMemAlign, handle)
  else if len > 2 ^ 40 then some (cVecLength, BitVec.ofNat 64 len)
  else none

/-- A copy ends faulted (R239, R240): it stays tracked. -/
def State.copyFaulted (s : State) (id : Nat) (o : Op) (cause : Nat) (i : TrapInfo) (consumed : Bool) : State :=
  ((s.copyStatus o 3 cause).track o.tile (offsetOf (o.val 0)) { state := 3, op := id, cause, home := o.unit }).engineFault id o i consumed
    (if consumed ∧ cause ≠ cSpadReconFail then { src := 12, unit := some o.unit } else {}) |>.settle o.t

/-- PROG names the lowest unit that is not complete. -/
def State.copyAdvance (s : State) (id : Nat) (o : Op) : State :=
  match s.op? id with
  | none => s
  | some o' =>
    let p (o : Op) : Nat := o.unitsLeft.headD o.units
    if p o' = p o then s else s.copyProg o (min (p o' * 65536) o.copyLen)

/-- The units that may be worked on: at most 8 are in flight, and they start in ascending order. After a fault only those below
the unit that met it. -/
def Op.unitsOpen (o : Op) : List Nat :=
  let l := o.unitsLeft.take 8
  if o.stamp = 0 then l else l.filter fun u => decide (u + 1 < o.stamp)

/-- The rest of a running copy's bytes is settled when it faults or is cancelled: each word of those that are left is written or
not, by a free choice (R240, R242). -/
def State.copyLeft (s : State) (id : Nat) (o : Op) : State :=
  o.wordsLeft.foldl (fun (s : State) q => ((List.range (q.2 - q.1)).map fun i => q.1 + i).foldl (fun (s : State) w => s.copyMix id o w) s) s

/-- A running copy with no unit left to work on ends: done, or faulted at the lowest unit that faulted (R239, R240). -/
def State.copyEnd (s : State) (id : Nat) (o : Op) : State :=
  match o.fault with
  | none => ((s.copyProg o o.copyLen).copyStatus o 2 0 |>.untrack o.tile (offsetOf (o.val 0))).endOp id
  | some i =>
    let s := ((s.copyLeft id o).copyProg o ((o.stamp - 1) * 65536)).descWrite o 0x28 (leBytes i.tval.toNat 8)
    if o.consumedF then s.copyFaulted id o i.cause (mkInfo o i.cause i.tval) true
    else s.copyFaulted id o i.cause (mkInfo o cCopyFault i.tval) false

/-- One unit of a running copy is completed or meets a fault, and `stamp` is then one more than its number; the copy that has no
more to do ends. -/
def State.copyUnit (s : State) (id : Nat) (o : Op) : State :=
  match o.unitsOpen with
  | [] => s.copyEnd id o
  | l =>
    let (k, s) := s.draw
    let u := (l[k % l.length]?).getD 0
    match s.unitCheck o u with
    | none =>
      let ws := (o.unitWords u).filter fun w => inRanges o.wordsLeft w
      ((ws.foldl (fun (s : State) w => s.copyWord id o w) { s with fresh := s.fresh + 3 }).updOp id fun o =>
        { o with parts := o.parts ++ [(u * 8192, min ((u + 1) * 8192) o.copyWords)], poison := false }).copyAdvance id o
    | some (.fault cause, a) =>
      { s with fresh := s.fresh + 3 }.updOp id fun o =>
        { o with stamp := u + 1, fault := some { cause, tval := a }, consumedF := decide (cause = cPoison ∨ cause = cSpadReconFail) }
    | some _ => { s with fresh := s.fresh + 3 }

/-- Whether a descriptor is good (R239). -/
def Op.copyGood (o : Op) : Bool := (copyInvalid o.copySrc o.copyDst o.copyLen ((o.val 0).setWidth 64)).isNone

/-- The words of a copy are read, all of them, before any of its writes that are left (11 R271, R289). -/
def State.copyFix (s : State) (id : Nat) (o : Op) : State :=
  let x := (List.range o.copyWords).foldl (fun (x : Carried × State) w =>
    match x.2.copyGet o (8 * w) with
    | (.bytes c, s) => (x.1 ++ c, s)
    | (_, s) => (x.1 ++ List.replicate 8 (0, false), s)) ([], s)
  x.2.updOp id fun o => { o with got := some x.1 }

/-- Some words of a running copy of free mode, of one unit, are written before the others (11 R274), or all are read first. -/
def State.copyPart (s : State) (id : Nat) (o : Op) : State :=
  let k := s.fresh
  let s := { s with fresh := k + 8 }
  match o.ins, o.unitsOpen[Config.freeNat k % max 1 o.unitsOpen.length]? with
  | .copy .., some u =>
    if o.line = 0 ∨ !o.copyGood then s
    else if o.got = none ∧ Config.freeBool (k + 7) ∧ (List.range o.units).all (fun u => (s.unitCheck o u).isNone) then s.copyFix id o
    else
      let mine := o.wordsLeft.filterMap fun q =>
        let a := max q.1 (u * 8192)
        let b := min q.2 ((u + 1) * 8192)
        if a < b then some (a, b) else none
      match freePart mine (k + 1), s.unitCheck o u with
      | some q, none =>
        ((((List.range (q.2 - q.1)).map fun i => q.1 + i).foldl (fun (s : State) w => s.copyWord id o w) s).updOp id fun o =>
          { o with parts := o.parts ++ [q], poison := false }).copyAdvance id o
      | _, _ => s
  | _, _ => s

/-- The copy of a handle is cancelled. One whose bytes have not begun to move moves none. -/
def State.cancelCopy (s : State) (v : TileRef) (off : Nat) : State :=
  match (s.tile? v).bind fun t => t.copyAt off with
  | none => s
  | some c =>
    if c.state = 1 then
      match s.op? c.op with
      | none => s.untrack v off
      | some o =>
        let s := if s.clear o && o.copyGood then s.copyLeft c.op o else s
        (((s.copyProg o (o.unitsLeft.headD o.units * 65536)).copyStatus o 4 0).untrack v off).endOp c.op
    else
      let a := off + 0x20
      (s.spadWrite v a (leBytes (4 + 256 * c.cause) 4) none).untrack v off

/-- Whether COPY_UNIT_COMPLETE may come for a copy operation: its copy runs, or a tracking entry is free for it (R238), or it is a
CPYX or a CPYQ. -/
def State.copyGoes (s : State) (o : Op) : Bool :=
  match o.ins with
  | .copy _ res _ => decide (o.line ≠ 0) || res || decide (s.copiesTracked o.tile < 16)
  | .cpyx .. => true
  | .cpyq .. => true
  | _ => false

/-- COPY_UNIT_COMPLETE: a unit of a copy is performed; the copy completes or faults (R239, R240). A copy that a commit released
starts when a tracking entry is free (R238), a CPYX of one is carried out, and a CPYQ that waited for its lane's copies is
answered here (R244). -/
def execCopyUnitComplete (op : Nat) (s : State) : Out :=
  .next (match s.op? op with
    | none => s
    | some o =>
      if o.cls ≠ .copy ∨ o.phase ≠ .waiting ∨ !s.clear o then s
      else match o.ins with
        | .copy _ res _ =>
          if o.line = 0 then (if res ∨ s.copiesTracked o.tile < 16 then s.copyStart op else s)
          else match copyInvalid o.copySrc o.copyDst o.copyLen ((o.val 0).setWidth 64) with
            | some (cause, tval) => (s.copyProg o 0).copyFaulted op o cause (mkInfo o cause tval) false
            | none => s.copyUnit op o
        | .cpyx .. => (s.cancelCopy o.tile (offsetOf (o.val 0))).endOp op
        | .cpyq _ rd _ =>
          let v := (s.tile? o.tile).getD {}
          let off := offsetOf (o.val 0)
          let w := match v.copyAt off with
            | some c => c.state + 256 * c.cause
            | none => leNat (s.committedBytes o.tile (off + 0x20) 4)
          (s.updOp op fun o => { o with res := [(rd, BitVec.ofNat 32 w)] }).endOp op
        | _ => s)

/-! ### CPYX and CPYQ (R242, R243) -/

def execCpyx (c : Ctl) (ra : Reg) (s : State) : Out :=
  issue c (fun _ => { reads := [ra] }) (fun r t s =>
    let h := t.reg ra
    match handleCheck h with
    | .error cause => s.trapHere r t cause (h.setWidth 64)
    | .ok off => s.logged r 0 1 fun s =>
      let s := (s.retire r c).clearRst r
      if s.isDet r.l then
        s.submit { t := r, tile := r.tile, vd := s.vdOf r.l, cls := .copy, ins := .cpyx c ra, vals := [h], path := .copy
                   waddr := t.wordAddr c, tinst := s.iword, sig := sigOf c t, region := t.region } true
      else (s.cancelCopy r.tile off).postNext r (sigOf c t)) s

def execCpyq (c : Ctl) (rd ra : Reg) (s : State) : Out :=
  issue c (fun _ => { reads := [ra], writes := [rd] }) (fun r t s =>
    let h := t.reg ra
    match handleCheck h with
    | .error cause => s.trapHere r t cause (h.setWidth 64)
    | .ok off =>
      let s := s.retire r c
      if s.isDet r.l then
        (s.submit { t := r, tile := r.tile, vd := s.vdOf r.l, cls := .copy, ins := .cpyq c rd ra, vals := [h], path := .copy
                    waddr := t.wordAddr c, tinst := s.iword, sig := sigOf c t, regs := [rd], region := t.region } true).closeChunk
          r .closing
      else match ((s.tile? r.tile).getD {}).copyAt off with
        | some x => s.fly r 5 [(rd, BitVec.ofNat 32 (x.state + 256 * x.cause))] 0 (sigOf c t)
        | none =>
          match s.spadRead r.tile (off + 0x20) 4 with
          | (.error e, s) => (s.fly r 5 [] 0 (sigOf c t)).consumedHere r e.1 (viaWindow h (off + 0x20)) 0
          | (.ok bs, s) => s.fly r 5 [(rd, BitVec.ofNat 32 (leNat bs))] 0 (sigOf c t)) s

/-! ### LNCH, TRIG, LWAIT (R245 to R247) -/

def execLnch (c : Ctl) (ra : Reg) (s : State) : Out :=
  issue c (fun _ => { pairs := [ra], reads := [ra, Reg.hi ra] }) (fun r t s =>
    let a := t.pair ra
    match Addr.of a with
    | .glob home _ =>
      if a.toNat % 256 ≠ 0 then s.trapHere r t cMemAlign a
      else s.logged r 0 1 fun s =>
        let s := (s.retire r c).clearRst r
        s.submit { t := r, tile := r.tile, vd := s.vdOf r.l, cls := .launchQ, ins := .lnch c ra, ea := a, size := 256
                   unit := home, path := .core, scope := .vdS, waddr := t.wordAddr c, tinst := s.iword, sig := sigOf c t
                   region := t.region, after := (s.coreOpen r ++ s.pathAfter r .core true true).eraseDups
                   gives := s.coreGift r .vdS [] } true
    | _ => s.trapHere r t cSpaceInvalid a) s

/-- The accesses of a thread, on every path, that a TRIG waits for. -/
def State.allOpen (s : State) (r : TRef) : List Nat :=
  s.openOps fun e => decide (e.2.t = r) && !e.2.buffered && decide (e.2.cls ≠ .fence) && decide (e.2.cls ≠ .trig)

/-- TRIG (09 R246). Held to the commit, it takes no record of 32 bytes, nor do SPAWN, SVC and CPYQ, whose effects are no store,
atomic or message (DEDUCED from 17 R348, log 24). -/
def execTrig (c : Ctl) (s : State) : Out :=
  issue c (fun _ => {}) (fun r t s =>
    let s := s.retire r c
    let after := s.allOpen r
    let o : Op := { t := r, tile := r.tile, vd := s.vdOf r.l, cls := .trig, ins := .trig c, waddr := t.wordAddr c
                    tinst := s.iword, sig := sigOf c t, region := t.region, after
                    gives := some { scope := .vdS, ops := s.allViewOf r } }
    if s.isDet r.l then s.submit o true
    else if after = [] then ((s.noteTrig r.l (s.allViewOf r)).updTile r.tile fun v => { v with triggered := true }).postNext r (sigOf c t)
    else s.launchOp o) s

/-- Whether a launch is triggered (R246): every virtual tile is marked or finished, or the launch has ended. -/
def State.triggeredLaunch (s : State) (l : Nat) : Bool :=
  match s.launch? l with
  | none => true
  | some ln => decide (ln.phase = .ended) ||
      (decide (0 < ln.blk.w * ln.blk.h) && s.vtiles.all fun e => !decide (e.1.l = l) || e.2.triggered || e.2.finished) 

def State.producersDone (s : State) (l : Nat) : Bool :=
  (((s.launch? l).map Launch.prodL).getD []).all s.triggeredLaunch

/-- What a launch's producers have handed over by their marks and ends (R246, R247). -/
def State.producerGift (s : State) (l : Nat) : List Nat :=
  (((s.launch? l).map Launch.prodL).getD []).foldl (fun ids k => joinIds ids ((s.trigs.get? k).getD [])) []

/-- LWAIT completes: an acquire of VD scope on every path. -/
def State.lwaitDone (s : State) (r : TRef) : State :=
  s.updThread r fun t => { t.learnAll (s.producerGift r.l) with run := .ready, acqStamp := s.nextId }

/-- LWAIT in free mode issues once every producer is triggered. In deterministic mode it issues, ends its chunk, and is
performed after the commit (17 R346, R349). -/
def execLwait (c : Ctl) (s : State) : Out :=
  issue c (fun _ => {}) (fun r t s =>
    if s.isDet r.l then
      let run : Run := .lwait (some c)
      ((s.retire r c).closing r).updThread r fun t => { t with run }
    else if s.producersDone r.l then ((s.retire r c).lwaitDone r).postNext r (sigOf c t)
    else s.updThread r fun t => { t with run := .lwait none }) s

end Sys2Proof.Machine
end

