-- ==== Sys2Proof/Machine/System.lean ====
section
/-!
DEFINITION. Traps and returns, special registers, threads, services, injection and idempotent regions, codes 0xE0 to
0xE8 (09 R248 to R257; 02 R43 to R46; 22 R419), and EXIT (05 R137) with the end of a virtual tile (16 R336).
-/
namespace Sys2Proof.Machine

/-! ### TRAP and RETT (R248, R249) -/

def execTrap (c : Ctl) (imm : BitVec 24) (s : State) : Out :=
  issue c (fun _ => { badsub := decide (c.imm imm < 0) || decide (c.imm imm > 31) }) (fun r t s =>
    s.trapHere r t (0xE0 + (c.imm imm).toNat)) s

/-- An access that a home held goes back to it, as a new issue would (06 R148; 17 R448). -/
def State.retryHeld (s : State) (r : TRef) (id : Nat) : State :=
  match s.op? id with
  | none => s
  | some o =>
    let load := match accOf o.ins with | some a => decide (a.kind = .load) | none => false
    let det := s.isDet r.l
    let after := match accOf o.ins with
      | some a => s.coreAfter r a.kind o.ea o.size true
      | none => s.coreOpen r
    let o' := { o with phase := .waiting, fault := none, after := after.filter fun i => decide (i < id), line := 0, prog := 0
                       chunk := s.chunkNo r, buffered := det && !load, atStart := det && !load }
    let s := if det && load then s.noteRead r (keyGlobal o.ea.toNat) else s
    let s := { s with ops := s.ops.del id ++ [(id, o')] }
    let s := s.updThread r fun t =>
      { t with pend := t.pend ||| pendOf o.regs, held := t.held.filter fun h => decide (h.op ≠ id) }
    if o'.buffered then s.updChunk r fun c => { c with buffered := c.buffered ++ [id] } else s

/-- Whether a home, and not a remote tile, holds an access. -/
def Op.atHome (o : Op) : Bool :=
  match o.cls with
  | .globalLoad => true | .globalStore => true | .globalAtomic => true | .launchQ => true | _ => false

/-- The buffered records that the accesses held for a level take when RETT sends them again (17 R348). -/
def State.resent (s : State) (l : List Held) (level : Nat) : Nat :=
  (l.filter fun h => decide (h.level = some level) && ((s.op? h.op).map fun o => o.atHome && !o.loads).getD false).length

/-- What RETT does with the accesses whose reports the present level took: retried at their homes, or discarded. -/
def State.releaseHeld (s : State) (r : TRef) (l : List Held) (level : Nat) (nx : Bool) : State :=
  (l.filter fun h => decide (h.level = some level)).foldl (fun (s : State) h =>
    match s.op? h.op with
    | none => s.discardHeld r h.op
    | some o =>
      let s := if s.isDet r.l then
          { s.updChunk r (fun c => { c with undo := c.undo ++ [.heldOp s.nextId h.op o] }) with nextId := s.nextId + 1 } else s
      if o.atHome && !nx then s.retryHeld r h.op else s.discardHeld r h.op) s

/-- RETT and RETT.N (R249). RETT.N counts the prefix words at TPC, and waits for a page of them that is not resident. -/
def execRett (c : Ctl) (nx : Bool) (s : State) : Out :=
  issue c (fun t => { priv := if t.tl = 0 then some 0 else none }) (fun r t s =>
    if t.pend ≠ 0 then (if s.awaitsCommit r then s.cutBefore r else s)
    else
      let pc := (t.half t.tl).tpc
      match (if nx then s.prefixAway r.l pc else none) with
      | some a => s.fetchAway r a
      | none =>
        let pc := if nx then pc + BitVec.ofNat 64 (8 * (s.prefixesAt r.l 64 pc + 1)) else pc
        s.logged r 0 (if nx then 0 else s.resent t.held t.tl) fun s =>
        let s := s.retire r c
        let s := s.updThread r fun t =>
          let t := t.return pc
          { t with landed := (t.landed.set 14 s.nextId).set 15 s.nextId }
        ({ s with nextId := s.nextId + 1 }.releaseHeld r t.held t.tl nx).postNext r (sigOf c t)) s

/-! ### Special registers (02 R43 to R46; 09 R250) -/

/-- The indexes of the trap bank, with the level and the place in its half. -/
def bankIndex (i : Nat) : Option (Nat × Nat) :=
  if 0x031 ≤ i ∧ i ≤ 0x038 then some (1, i - 0x031)
  else if 0x039 ≤ i ∧ i ≤ 0x040 then some (2, i - 0x039)
  else if i = 0x047 ∨ i = 0x048 then some (1, i - 0x047 + 8)
  else if i = 0x049 ∨ i = 0x04A then some (2, i - 0x049 + 8)
  else none

/-- The indexes that R44 assigns, less the trap bank; those that are RW. -/
def plainIndex (i : Nat) : Bool :=
  decide (i ≤ 0x00C) || [0x010, 0x011, 0x012, 0x020, 0x021, 0x022, 0x030, 0x041, 0x042, 0x043, 0x044, 0x045, 0x046,
    0x060, 0x061, 0x062, 0x070, 0x0F0].contains i
def writableIndex (i : Nat) : Bool := [0x020, 0x021, 0x041, 0x042, 0x043, 0x044, 0x045, 0x046, 0x070].contains i

/-- The register index of SRD and SWR, and the checks of R43 and R250 that come before the others. -/
def srIndex (imm : BitVec 24) : Nat := (imm.extractLsb' 0 12).toNat
def srPriv (imm : BitVec 24) (write : Bool) (tl : Nat) : Option DWord :=
  let i := srIndex imm
  let no := decide (i ≥ 0x800) ||
    (write && ((plainIndex i && !writableIndex i) || ((bankIndex i).isSome && decide (tl = 0))))
  if no then some (BitVec.ofNat 64 i) else none
def srBad (c : Ctl) (imm : BitVec 24) (sf : BitVec 4) : Bool :=
  let i := srIndex imm
  decide (sf ≠ 0) || decide (c.imm imm < 0) || decide (c.imm imm > 0xFFF) || !(plainIndex i || (bankIndex i).isSome)

/-- The 32-bit view of TINST (02 R32): OP and the instruction bits 35:12. -/
def instView (w : DWord) : Word := w.extractLsb' 56 8 ++ w.extractLsb' 12 24
def setView (w : DWord) (v : Word) : DWord :=
  v.extractLsb' 24 8 ++ w.extractLsb' 36 20 ++ v.extractLsb' 0 24 ++ w.extractLsb' 0 12

def TrapHalf.get (h : TrapHalf) (k : Nat) : Word :=
  match k with
  | 0 => h.tpc.lo | 1 => h.tpc.hi | 2 => h.tcause | 3 => h.tval.lo | 4 => h.tval.hi | 5 => h.taux.lo | 6 => h.taux.hi
  | 7 => instView h.tinst | 8 => h.tscL | _ => h.tscH
def TrapHalf.put (h : TrapHalf) (k : Nat) (w : Word) : TrapHalf :=
  match k with
  | 0 => { h with tpc := DWord.mk w h.tpc.hi } | 1 => { h with tpc := DWord.mk h.tpc.lo w }
  | 2 => { h with tcause := w }
  | 3 => { h with tval := DWord.mk w h.tval.hi } | 4 => { h with tval := DWord.mk h.tval.lo w }
  | 5 => { h with taux := DWord.mk w h.taux.hi } | 6 => { h with taux := DWord.mk h.taux.lo w }
  | 7 => { h with tinst := setView h.tinst w }
  | 8 => { h with tscL := w } | _ => { h with tscH := w }

/-- CYCLEH:CYCLEL (02 R45). In deterministic mode the instructions of the lane's chunks, uncommitted ones included. -/
def State.cycles (s : State) (r : TRef) : DWord :=
  if s.isDet r.l then
    match s.lanes.get? r with
    | some l => BitVec.ofNat 64 (l.committed + l.chunks.foldl (fun n c => n + c.retired) 0)
    | none => 0
  else BitVec.ofNat 64 s.cycle

/-- The refresh period of a field (02 R46), and the cycles until a slice's next window begins. What the count is in the first cycle
of a window, and for a slice number that no active slice has, the rule does not say: the model reads 0 in that cycle, and counts by
the same formula for every number (DESIGN CHOICE, log 49). -/
def Fld.period (f : Fld) : Nat := if f.hot then 8192 else 16384
def Fld.nextWindow (f : Fld) (slice now : Nat) : Nat :=
  let p := f.period
  (slice * p / 64 + p - now % p) % p

/-- WSRFW as an SRD reads it. -/
def State.wsrfw (s : State) (v : TileRef) : Word :=
  match s.tile? v with
  | none => 0
  | some t =>
    let f := ((s.fields.toList)[s.tileField v]?).getD {}
    let sl := t.wsrfw.toNat
    BitVec.ofNat 32 ((if f.inWindow.contains sl then 2 ^ 31 else 0) + sl * 2 ^ 15 + f.nextWindow sl s.cycle)

def Lane.detst (l : Lane) : Word := BitVec.ofBool l.aliased ++ BitVec.ofBool l.roll ++ BitVec.ofNat 30 l.sqc

/-- The value of a special register (02 R44). -/
def State.special (s : State) (r : TRef) (t : Thread) (i : Nat) : Word :=
  let b := s.blk r.l
  let lane := (s.lanes.get? r).getD {}
  match bankIndex i with
  | some (n, k) => (t.half n).get k
  | none =>
    match i with
    | 0x000 => t.lane
    | 0x001 => if s.isDet r.l then t.lane &&& 15 else BitVec.ofNat 32 (t.slot.getD 0)
    | 0x002 => BitVec.ofNat 32 r.th
    | 0x003 => BitVec.ofNat 32 r.v
    | 0x004 => BitVec.ofNat 32 b.w
    | 0x005 => BitVec.ofNat 32 b.h
    | 0x006 => BitVec.ofNat 32 (r.v % max 1 b.gsize)
    | 0x007 => BitVec.ofNat 32 (s.gangOfTile r.tile).length
    | 0x008 => (((s.launch? r.l).map Launch.lpb).getD 0).lo
    | 0x009 => (((s.launch? r.l).map Launch.lpb).getD 0).hi
    | 0x00A => t.homev.setWidth 32
    | 0x00B => t.rethdr.lo
    | 0x00C => t.rethdr.hi
    | 0x010 => (s.cycles r).lo
    | 0x011 => t.cycleLatch.getD (s.cycles r).hi
    | 0x012 => t.instret
    | 0x020 => t.fpctl
    | 0x021 => Word.ofBool t.uwchk
    | 0x022 => t.pend.setWidth 32
    | 0x030 => BitVec.ofNat 32 t.tl
    | 0x041 => (tvecBase t.tvec).lo
    | 0x042 => t.tvec.hi
    | 0x043 => t.tsave.lo
    | 0x044 => t.tsave.hi
    | 0x045 => t.irpc.lo
    | 0x046 => t.irpc.hi
    | 0x060 => if s.isDet r.l then lane.detst else 0
    | 0x061 => if s.isDet r.l then lane.detad.lo else 0
    | 0x062 => if s.isDet r.l then lane.detad.hi else 0
    | 0x070 => s.wsrfw r.tile
    | 0x0F0 => 0x0100
    | _ => 0

/-- SRD of CYCLEL latches CYCLEH; that of CYCLEH takes the latch (02 R45). -/
def execSrd (c : Ctl) (rd : Reg) (imm : BitVec 24) (sf : BitVec 4) (s : State) : Out :=
  issue c (fun t => { priv := srPriv imm false t.tl, badsub := srBad c imm sf, writes := [rd] }) (fun r t s =>
    let i := srIndex imm
    let v := s.special r t i
    let hi := (s.cycles r).hi
    let s := s.retire r c
    let s := if i = 0x010 then s.updThread r fun t => { t with cycleLatch := some hi }
      else if i = 0x011 then s.updThread r fun t => { t with cycleLatch := none } else s
    s.fly r 2 [(rd, v)] 0 (sigOf c t)) s

/-- A write of a special register of the thread; WSRFW is the tile's. -/
def Thread.setSpecial (t : Thread) (i : Nat) (w : Word) : Thread :=
  match bankIndex i with
  | some (n, k) => t.setHalf n ((t.half n).put k w)
  | none =>
    match i with
    | 0x020 => { t with fpctl := w &&& fpctlMask }
    | 0x021 => { t with uwchk := w.getLsbD 0 }
    | 0x041 => { t with tvec := tvecBase (DWord.mk w t.tvec.hi) }
    | 0x042 => { t with tvec := DWord.mk t.tvec.lo w }
    | 0x043 => { t with tsave := DWord.mk w t.tsave.hi }
    | 0x044 => { t with tsave := DWord.mk t.tsave.lo w }
    | 0x045 => { t with irpc := DWord.mk w t.irpc.hi }
    | 0x046 => { t with irpc := DWord.mk t.irpc.lo w }
    | _ => t

def execSwr (c : Ctl) (ra : Reg) (imm : BitVec 24) (sf : BitVec 4) (s : State) : Out :=
  issue c (fun t => { priv := srPriv imm true t.tl, badsub := srBad c imm sf, reads := [ra] }) (fun r t s =>
    let i := srIndex imm
    let w := t.reg ra
    let s := s.retire r c
    let s := if i = 0x070 then s.updTile r.tile fun v => { v with wsrfw := w.extractLsb' 0 6 }
      else s.updThread r fun t => t.setSpecial i w
    s.postNext r (sigOf c t)) s

/-! ### SPAWN and REAP (R251, R252) -/

/-- The lowest free thread index from 1, and the lowest slot that no thread of the table is bound to (17 R344). -/
def State.freeIndex (s : State) (v : TileRef) : Option Nat :=
  ((List.range 63).map (· + 1)).find? fun i => (s.thread? ⟨v.l, v.v, i⟩).isNone
def State.freeLaneSlot (s : State) (v : TileRef) : Nat :=
  ((List.range 16).find? fun i => !(s.tileThreads v).any fun e => decide (e.2.lane.toNat % 16 = i)).getD 0

/-- The child's image (R251), before it is eligible. -/
def childOf (t : Thread) (lane : Word) (v : Nat) (pc : DWord) (arg : Word) (se : Bool) (k : Reg) : Thread :=
  { g := (Vector.replicate 16 (0 : Word)).set 0 arg
    pc
    fpctl := t.fpctl &&& 0xFFF
    uwchk := t.uwchk
    sigEn := se
    sigTok := k
    homev := BitVec.ofNat 24 v
    lane
    tvec := t.tvec
    tsave := t.tsave
    arrive := 1
    run := .transit }

/-- What the lane of a slot has kept since its last thread exited (17 R344, R354). -/
def VTile.oldLane (v : VTile) (slot : Nat) : Lane := (v.laneRec.get? slot).getD {}

/-- SPAWN is performed: the child stands in the table, and g[f1] and its eligibility come with the completion. What happens before it
happens before all that its child does (11 R278). -/
def State.spawnDo (s : State) (id : Nat) : State :=
  match s.op? id with
  | none => s
  | some o =>
    match s.thread? o.t, s.freeIndex o.tile, o.ins with
    | some t, some i, .spawn _ se ti _ _ k =>
      let r : TRef := ⟨o.tile.l, o.tile.v, i⟩
      let det := s.isDet o.tile.l
      let lane : Word := if det then BitVec.ofNat 32 (o.tile.v * 16 + s.freeLaneSlot o.tile) else 0xFFFFFFFF
      let number := ((s.lanes.get? o.t).map Lane.number).getD 0
      let child := { childOf t lane o.tile.v (DWord.mk (o.val 0) (o.val 1)) (o.val 2) se k with
        before := Vector.replicate 5 o.view, acqStamp := t.acqStamp }
      let s := s.setThread r child
      let old := ((s.tile? o.tile).getD {}).oldLane (lane.toNat % 16)
      let s := if det then { s with lanes := s.lanes.set r { old with number } } else s
      s.updOp id fun o => { o with unit := i, res := [(ti, BitVec.ofNat 32 i)] }
    | _, _, _ => s

def execSpawn (c : Ctl) (se : Bool) (ti ent arg k : Reg) (s : State) : Out :=
  issue c (fun _ => { lead := true, pairs := [ent], reads := [ent, Reg.hi ent, arg], writes := [ti] }) (fun r t s =>
    let a := t.pair ent
    if s.badTarget r.l a then s.trapHere r t cBadTarget a
    else if s.targetAway r.l a then s.fetchAway r a
    else if (s.tileThreads r.tile).length ≥ (if s.isDet r.l then 16 else 64) then s.trapHere r t cSpawnFull
    else
      let s := (s.retire r c).clearRst r
      let o : Op := { t := r, tile := r.tile, vd := s.vdOf r.l, cls := .spawn, ins := .spawn c se ti ent arg k
                      vals := [a.lo, a.hi, t.reg arg], waddr := t.wordAddr c, tinst := s.iword, sig := sigOf c t, regs := [ti]
                      region := t.region, after := s.releaseAfter r .tileS }
      if s.isDet r.l then (s.submit o true).closeChunk r .closing
      else
        let id := s.nextId
        (s.submit o false).spawnDo id) s

def execReap (c : Ctl) (rd ra : Reg) (s : State) : Out :=
  issue c (fun _ => { lead := true, reads := [ra], writes := [rd] }) (fun r t s =>
    let n := (t.reg ra).toNat
    let q : TRef := ⟨r.l, r.v, n⟩
    let s := s.noteRead r (keyThread r.v n)
    match (if n = 0 ∨ n ≥ 64 then none else s.thread? q) with
    | none => s.trapHere r t cReapNotExited (BitVec.ofNat 64 n)
    | some x =>
      if x.run ≠ .exited then s.trapHere r t cReapNotExited (BitVec.ofNat 64 n)
      else
        let s := (s.retire r c).clearRst r
        let s := if s.isDet r.l then
            { s.updChunk r (fun ch => { ch with undo := ch.undo ++ [.thr s.nextId n x] }) with nextId := s.nextId + 1 } else s
        let s := s.updThread r fun t => { t.learnCore x.coreView with acqStamp := max t.acqStamp x.acqStamp }
        let s := { s with threads := s.threads.del q }
        let id := s.nextId
        (s.launchOp { t := r, tile := r.tile, vd := s.vdOf r.l, cls := .reap, ins := .reap c rd ra, waddr := t.wordAddr c
                      tinst := s.iword, sig := sigOf c t, regs := [rd], region := t.region }).reply id [(rd, x.reg 0)]) s

/-! ### SVC (R253) -/

def execSvc (c : Ctl) (imm : BitVec 24) (s : State) : Out :=
  issue c (fun _ => {}) (fun r t s =>
    let n : DWord := BitVec.ofInt 64 (c.imm imm)
    let s := (s.retire r c).clearRst r
    let run : Run := .svcDrain n
    let s := s.updThread r fun t => { t with run }
    let s := (s.submit { t := r, tile := r.tile, vd := s.vdOf r.l, cls := .service, ins := .svc c imm, waddr := t.wordAddr c
                         tinst := s.iword, sig := sigOf c t, region := t.region } true)
    if s.isDet r.l then s.closeChunk r .closing else s.settle r) s

/-- Moves of pages that are no more end (18 R379). -/
def State.keepMoves (s : State) : State :=
  { s with moves := s.moves.filter fun m => s.pages.any fun p =>
      p.remote.isNone && decide (p.home = m.home) && decide (p.frame = m.frame) }

/-- The outcome of a service and its effect on the pages. The 64 KiB around a launch's read-only copy of its block, which stands
for the launch's life (16 R318), are not permitted (log 12). A page newly mapped keeps what its frame held (log 12). -/
def State.serviceDo (s : State) (vd : Nat) (n : DWord) (t : Thread) : Word × State :=
  let copyAt (home off : Nat) : Bool := s.pages.any fun p => decide (p.vd = vd) && decide (p.home = home) && decide (p.size = 256) &&
    decide (p.base / 65536 = off / 65536)
  let a := t.pair 0
  let rights := t.reg 2
  if n ≠ 1 ∧ n ≠ 2 then (0xFFFFFFFF, s)
  else match Addr.of a with
    | .glob home off =>
      if rights.toNat ≥ 4 ∨ (n = 1 ∧ rights = 0) then (3, s)
      else
        let base := off / 65536 * 65536
        let (k, s) := s.draw
        if k % 4 = 2 ∨ copyAt home off then (2, s)
        else if n = 2 then
          match s.page? vd home off with
          | none => (0, s)
          | some _ =>
            let s := s.splitAt vd home off
            (0, { s with pages := s.pages.filter fun p => !p.has vd home off
                         tlb := s.tlb.filter fun e => decide (e ≠ (vd, home, base)) }.keepMoves)
        else
          let rd := rights.getLsbD 0
          let wr := rights.getLsbD 1
          match s.page? vd home off with
          | some _ =>
            let s := (s.splitAt vd home off).updPage vd home base fun p => { p with rd, wr }
            (0, { s with tlb := s.tlb.filter fun e => decide (e ≠ (vd, home, base)) })
          | none =>
            match (if k % 4 = 1 then none else s.pickFrame home 65536) with
            | none => (1, s)
            | some f => (0, { s with fresh := s.fresh + 1
                                     pages := s.pages ++ [{ vd, home, base, size := 65536, frame := f, rd, wr }] })
    | _ => (3, s)

/-- Accesses that were translated, or have reached their home, under the old entry of a page, those sent on to another module among
them (18 R378). -/
def State.pageBusy (s : State) (vd home base : Nat) : Bool :=
  s.walks.any (fun e => decide (e.2.vd = vd) && decide (e.2.home = home) && decide (e.2.page = base)) ||
  s.ops.any fun e =>
    (match e.2.phase with
     | .walking _ => true | .missed => true | .heldNR => true | .sent => decide (e.2.prog = 2)
     | _ => decide (e.2.cls = .hostAccess)) && decide (e.2.vd = vd) &&
    (match Addr.of e.2.ea with | .glob h off => decide (h = home) && decide (s.pageBase vd home off = base) | _ => false)

/-- SVC_RETURN: the firmware has served the request; the thread becomes ready and its SVC completes. -/
def execSvcReturn (t : TRef) (s : State) : Out :=
  .next (match s.thread? t with
    | none => s
    | some th =>
      match th.run with
      | .service n =>
        let vd := s.vdOf t.l
        let busy := match Addr.of (th.pair 0) with
          | .glob home off => decide (n = 1 ∨ n = 2) && s.pageBusy vd home (s.pageBase vd home off)
          | _ => false
        let busy := busy || s.ops.any fun e => decide (e.2.t = t) && decide (e.2.cls = .service) && !s.clear e.2
        if busy then s
        else
          let (w, s) := s.serviceDo vd n th
          let s := s.updThread t fun th => { (th.setReg 0 w).learnAll th.allView with acqStamp := s.nextId }
          let s := (s.ops.filter fun e => decide (e.2.t = t) && decide (e.2.cls = .service)).foldl
            (fun (s : State) e => s.endOp e.1) s
          s.makeReady t
      | _ => s)

/-! ### EINJ and IDEM (R254, R255) -/

/-- An injection takes effect or waits for the matrix operations before it. -/
def State.einjStart (s : State) (id : Nat) : State :=
  match s.op? id with
  | none => s
  | some o =>
    match o.ins with
    | .einj _ _ _ tgt =>
      if tgt = 1 ∨ tgt = 2 then s.einjDue
      else
        let after := s.openOps fun e => decide (e.2.tile = o.tile) && decide (e.1 ≠ id) && !e.2.buffered &&
          decide (e.2.phase ≠ .parked) && (decide (e.2.cls = .array) || decide (e.2.cls = .oload))
        (s.updOp id fun o => { o with after := o.after ++ after }).einjDue
    | _ => s

/-- Whether EINJ may be used: the launch's test mode and the VD's permission (R254). -/
def State.mayInject (s : State) (l : Nat) : Bool := (s.blk l).test && s.injallow.getLsbD (s.vdOf l)

/-- EINJ (R254). The target is a field of the word; the index bits that its register holds are known once its wait is met. -/
def execEinj (c : Ctl) (gx gm tgt : Reg) (s : State) : Out :=
  let ok := match s.curThread? with | some (r, _) => s.mayInject r.l | none => false
  issue c (fun _ => { priv := if ok then none else some 0, badsub := decide (tgt.toNat > 4), reads := [gx, gm] }) (fun r t s =>
    if einjBad tgt (t.reg gx) then s.trapHere r t cBadSubop
    else s.logged r 0 1 fun s =>
    let s := (s.retire r c).clearRst r
    let id := s.nextId
    let o : Op := { t := r, tile := r.tile, vd := s.vdOf r.l, cls := .array, ins := .einj c gx gm tgt, path := .mtx
                    vals := [t.reg gx, t.reg gm], waddr := t.wordAddr c, tinst := s.iword, sig := sigOf c t
                    region := t.region, phase := .parked }
    let s := s.submit o true
    if s.isDet r.l then s else s.einjStart id) s

/-- A region begins (22 R419). -/
def Thread.beginRegion (t : Thread) (a : DWord) (n : Nat) : Thread :=
  { t with irpc := a, rst := true, irtl := t.tl, rcnt := 0, acc := Vector.replicate 16 0, region := n }

def execIdem (c : Ctl) (s : State) : Out :=
  plain c (fun _ => {}) (fun r s =>
    { s.updThread r (fun t => t.beginRegion t.pc s.nextId) with nextId := s.nextId + 1 }) s

/-! ### EXIT (05 R137; 16 R336) -/

/-- A launch all of whose gangs have finished. -/
def Launch.allFinished (ln : Launch) : Bool := ln.gangs.all fun e => decide (e.2.st = .finished)

/-- The mordant copy in use: the valid one with the higher generation (23 R432). -/
def State.mordant (s : State) : Mordant :=
  if s.mordA.valid && (!s.mordB.valid || decide (s.mordB.gen ≤ s.mordA.gen)) then s.mordA else s.mordB

/-- What the records say of a physical tile: 0 LIVE, 1 LIVE_PARITY_DEGRADED, 2 RETIRED (10 R268; 23 R435, R437). -/
def recordedState (l : List MRec) (p : Nat) : Nat :=
  let mine := l.filter fun r => decide (r.unit = p)
  let data (g : Nat) : Nat := ((mine.filter fun r => decide (r.kind = 2) && decide (r.place / 4 = g)).map MRec.place).eraseDups.length
  let par (g : Nat) : Bool := mine.any fun r => decide (r.kind = 3) && decide (r.place = g)
  if mine.any (fun r => decide (r.kind = 1)) ||
      (List.range 4).any (fun g => decide (data g ≥ 2) || (par g && decide (data g ≥ 1))) then 2
  else if (List.range 4).any (fun g => decide (data g ≥ 1) || par g) then 1 else 0

/-- The retired banks that the records name of a tile, 4 for parity. -/
def recordedBanks (l : List MRec) (p : Nat) : List (Nat × Nat × Nat) :=
  (l.filterMap fun r =>
    if r.unit ≠ p then none
    else if r.kind = 2 then some (p, r.place / 4, r.place % 4)
    else if r.kind = 3 then some (p, r.place, 4) else none).eraseDups

/-- The retirements recorded of an empty tile take effect (10 R267; 23 R434, R437). -/
def State.applyRetired (s : State) (p : Nat) : State :=
  let l := s.mordant.recs
  let st := recordedState l p
  { s with bankOut := (s.bankOut.filter fun e => decide (e.1 ≠ p)) ++ recordedBanks l p
           tileState := if st = 0 then s.tileState.del p else s.tileState.set p st }

/-- A gang frees its tiles (16 R336): the entries become ABSENT, and what was recorded of the tiles takes effect. -/
def State.leaveTiles (s : State) (l g : Nat) : State :=
  (s.gangMembers l g).foldl (fun (s : State) m =>
    let p := s.physOf (((s.tile? m).map VTile.ltile).getD 0)
    (s.updTile m fun v =>
      { v with place := .absent, gen := v.gen + 1, rcache := [], icache := [], vttCache := [], wsrfw := 0, stale := [], pflips := [] }).applyRetired p) s

def State.gangCycles (s : State) (l g : Nat) : State :=
  match (s.launch? l).bind fun ln => ln.gangs.get? g with
  | none => s
  | some x =>
    let n := (s.gangMembers l g).length * (s.cycle - x.since)
    (s.updLaunch l fun ln => { ln with tilecyc := min (ln.tilecyc + n) (2 ^ 64 - 1) }).updVd (s.vdOf l) fun v =>
      { v with used := v.used + n - (s.gangMembers l g).length * (s.cycle / 2 ^ 24 * 2 ^ 24 - x.since) }

/-- A virtual tile finishes; with the last of its gang the tiles are freed (VIRTUAL_TILE_FINISH). -/
def State.finishTile (s : State) (v : TileRef) : State :=
  let s := { s with threads := s.threads.filter fun e => decide (e.1.tile ≠ v)
                    lanes := s.lanes.filter fun e => decide (e.1.tile ≠ v) }
  let s := s.updTile v fun t => { t with finished := true, mbox := Vector.replicate 4 [], copies := [], region := false, laneRec := [] }
  let g := gangOf (s.blk v.l) v.v
  let s := s.lineMismatch v.l g
  if (s.gangMembers v.l g).all s.finishedAt then
    let s := (s.gangCycles v.l g).leaveTiles v.l g
    s.updLaunch v.l fun ln => { ln with gangs := ln.gangs.upd g fun x => { x with st := .finished } }
  else s

/-- An EXIT that has issued is performed. -/
def State.exitNow (s : State) (r : TRef) : State :=
  match s.thread? r with
  | none => s
  | some t =>
    if t.lead then
      let s := t.held.foldl (fun (s : State) h => s.discardHeld r h.op) s
      let s := t.reports.foldl (fun (s : State) p => s.lateReport r p) s
      ((s.noteTrig r.l t.allView).orphan r).finishTile r.tile
    else
      let s := (s.turnWrote r.l (keyThread r.v r.th) 32).exitThread r t
      match s.lanes.get? r with
      | none => s
      | some l => { s.updTile r.tile (fun v => { v with laneRec := v.laneRec.set (t.lane.toNat % 16) { l with chunks := [], posts := [] } })
                    with lanes := s.lanes.del r }

/-- EXIT of a thread at home: the lead's waits in its slot until R137 lets it issue. An away thread returns home first. In
deterministic mode EXIT ends its chunk, and a lead's waits after the commit (17 R346). -/
def execExit (c : Ctl) (s : State) : Out :=
  issue c (fun _ => {}) (fun r t s =>
    if t.away then
      let run : Run := .homeDrain true
      s.updThread r fun t => { t with run }
    else if s.isDet r.l then
      let run : Run := .exitHeld
      ((s.retire r c).closeChunk r .closing).updThread r fun t => { t with run }
    else if t.lead ∧ !s.exitClear r then s
    else (s.retire r c).exitNow r) s

end Sys2Proof.Machine
end

