-- ==== Sys2Proof/Machine/Time.lean ====
section
/-!
DEFINITION. The events of time and of a thread's turn: fixed-latency results and posts (02 R40; 03 R55), the ends of GAP,
DLY and a taken transfer (03 R56; 05 R133, R134), scalar FP traps (05 R128), reports and consumed errors at threads that
are blocked or asleep (12 R301; 22 R422), the retry latch (12 R298), parity updates (10 R263), refresh windows (02 R46)
and votes (22 R417).
-/
namespace Sys2Proof.Machine

/-! ### Results, posts, counts -/

/-- FIXED_LATENCY_WRITEBACK: a result becomes readable, its flags OR into SFLG, its signal posts (02 R40, R41). -/
def execFixedLatencyWriteback (t : TRef) (id : Nat) (s : State) : Out :=
  .next (match s.thread? t with
    | none => s
    | some th =>
      match th.inflight.find? fun f => decide (f.id = id) with
      | none => s
      | some f =>
        if f.due > s.cycle ∨ f.fpTrap.isSome then s else ((s.setThread t (th.landFlight f)).postSig? t f.sig).settle t)

/-- SIGNAL_POST: an increment lands in a token (02 R34 to R36). -/
def execSignalPost (t : TRef) (region : Nat) (k : Tok) (n : Nat) (s : State) : Out :=
  .next (s.postSig t ⟨k, n, region⟩)

def execGapExpiry (t : TRef) (s : State) : Out :=
  .next (s.updThread t fun th => if th.gapUntil ≤ s.cycle then { th with gapUntil := 0 } else th)
def execDlyExpiry (t : TRef) (s : State) : Out :=
  .next (s.updThread t fun th => if th.dlyUntil ≤ s.cycle then { th with dlyUntil := 0 } else th)

/-- TAKEN_TRANSFER_REFETCH: the fetch after a taken transfer, a trap entry or a restart has come (05 R133; 12 R293). -/
def execTakenTransferRefetch (t : TRef) (s : State) : Out :=
  .next (s.updThread t fun th => if th.refetchUntil ≤ s.cycle then { th with refetchUntil := 0 } else th)

/-- SCALAR_FP_TRAP: an instruction that was held under SEN completes with an enabled exception: it counts as not issued,
its consume is given back, and its trap is taken (05 R128). -/
def execScalarFpTrap (t : TRef) (id : Nat) (s : State) : Out :=
  .next (match s.thread? t with
    | none => s
    | some th =>
      match th.inflight.find? fun f => decide (f.id = id) with
      | none => s
      | some f =>
        match f.fpTrap with
        | none => s
        | some i =>
          if f.due > s.cycle then s
          else
            let th := { th with
              inflight := th.inflight.filter fun g => decide (g.id ≠ id)
              fpHold := none
              pc := i.tpc
              instret := th.instret - 1 }
            let th := match f.giveBack with
              | none => th
              | some (k, n) => th.giveBack k n
            let s := (s.setThread t th).updChunk t fun c =>
              { c with retired := c.retired - 1, cut := if c.cut = .count then .opened else c.cut }
            s.takeTrap t i)

/-! ### Reports at threads that are blocked or asleep -/

/-- Whether a thread is blocked at an instruction that has not issued, or sleeps under DLY or GAP. -/
def Thread.blockedAt (t : Thread) (det : Bool) : Bool :=
  match t.run with
  | .recv .. => !det
  | .lwait none => true
  | .line => !det
  | .latch _ => true
  | .latched => true
  | .ready => decide (t.gapUntil ≠ 0) || decide (t.dlyUntil ≠ 0)
  | _ => false

/-- The blocked instruction is abandoned, or the sleep ends (12 R299, R301). -/
def State.abandon (s : State) (r : TRef) : State :=
  let s := s.leaveLine r
  match s.thread? r with
  | none => s
  | some t =>
    let s := s.setThread r { t with run := .ready, trip := [], gapUntil := 0, dlyUntil := 0 }
    if t.slot = none then s.makeReady r else s

/-- Whether a thread blocked in RECV has been taken out of its slot. -/
def Thread.recvOut (t : Thread) : Bool := decide (t.slot = none) && (match t.run with | .recv .. => true | _ => false)

/-- The first report of a blocked or sleeping thread is delivered (12 R301). A sleeping thread only wakes, and one that is out of
its slot in RECV becomes ready: its turn delivers the report. -/
def State.deliverBlocked (s : State) (r : TRef) (consumed : Bool) : State :=
  match s.thread? r with
  | none => s
  | some t =>
    if t.reports = [] ∨ t.consumedNext ≠ consumed ∨ !t.blockedAt (s.isDet r.l) ∨ !s.reportsOpen r ∨ (t.stopped ∧ !t.stepPending) ∨ (t.slot = none ∧ !t.recvOut) then s
    else
      let s' := { s with iword := s.nextWord r t }.abandon r
      if t.run = .ready ∨ t.slot = none then s' else s'.takeReport r

/-- REPORT_DELIVERY (12 R301). -/
def execReportDelivery (t : TRef) (s : State) : Out := .next (s.deliverBlocked t false)
/-- CONSUMED_ERROR (12 R303; 22 R422, R423). -/
def execConsumedError (t : TRef) (s : State) : Out := .next (s.deliverBlocked t true)

/-- RETRY_LATCH_RELEASE: the resource that held a latched instruction is free (12 R298). -/
def execRetryLatchRelease (t : TRef) (s : State) : Out :=
  .next (match s.thread? t with
    | none => s
    | some th =>
      match th.run with
      | .latch h => if s.holdFree t.tile h then s.updThread t fun th => { th with run := .latched } else s
      | _ => s)

/-! ### Parity, refresh, votes -/

/-- Updates of a group row that are due by now besides the one that is taken. -/
def State.joinUpdates (s : State) (v : TileRef) (i : Nat) : State :=
  { s with agenda := s.agenda.filter fun x => match x.2 with
      | .parityUpdate w j => !(decide (w = v) && decide (j = i) && decide (x.1 ≤ s.cycle))
      | _ => true }

/-- PARITY_UPDATE: the last pending update of a group row lands, and the row is current; its entry frees in the cycle after
(10 R263, R264). Updates of the row that are due in one cycle land together. -/
def execParityUpdate (v : TileRef) (i : Nat) (s : State) : Out :=
  .next (match s.tile? v with
    | none => s
    | some t =>
      match t.stale.find? fun e => decide (e.row * 4 + e.grp = i) with
      | none => s
      | some e =>
        if e.due = 0 then s.updTile v fun t => { t with stale := t.stale.filter fun x => decide (x.row * 4 + x.grp ≠ i) }
        else if s.cycle < e.due then s
        else
          (((s.joinUpdates v i).parityRead v t i).updTile v fun t =>
            { t with stale := t.stale.map fun x => if x.row * 4 + x.grp = i then { x with due := 0 } else x }).at_
            (s.cycle + 1) (.parityUpdate v i))

def State.updField (s : State) (f : Nat) (g : Fld → Fld) : State :=
  { s with fields := s.fields.mapIdx fun i x => if i = f then g x else x }
def State.field (s : State) (f : Nat) : Fld := ((s.fields.toList)[f]?).getD {}

/-- REFRESH_WINDOW_BEGIN: a slice of a field begins a refresh window of 128 cycles (02 R46). -/
def execRefreshWindowBegin (fld sl : Nat) (s : State) : Out :=
  .next ((s.updField fld fun x => { x with inWindow := setInsert x.inWindow sl }).at_ (s.cycle + 128) (.refreshWindowEnd fld sl))

def execRefreshWindowEnd (fld sl : Nat) (s : State) : Out :=
  .next (s.updField fld fun x => { x with inWindow := setErase x.inWindow sl })

/-- VOTE_RECORD: the votes of a tile since its last record are logged, once in 2^20 cycles (22 R417). -/
def execVoteRecord (p : Nat) (s : State) : Out :=
  .next (match s.votes.get? p with
    | none => s
    | some (n, at_) =>
      if n = 0 ∨ s.cycle < at_ then s
      else { s.logErr 14 (s.logicalOf p) 5 0 0 0 noVd 0 n with votes := s.votes.set p (0, s.cycle + 2 ^ 20) })

end Sys2Proof.Machine
end

