-- ==== Sys2Proof/Machine/Fetch.lean ====
section
/-!
DEFINITION. What a turn finds at a thread's pc: block headers and the checks of 03 R66, R67, failed fetches (12 R295), the
prefix sequence (03 R75), the return home (06 R170), and the words that no instruction claims (03 R77).
-/
namespace Sys2Proof.Machine

/-! ### Headers (03 R65 to R67) -/

def hdrLen (w : DWord) : Nat := (w.extractLsb' 50 6).toNat
def hdrIdem (w : DWord) : Bool := w.getLsbD 9
def hdrBad (w : DWord) : Bool := decide (hdrLen w = 0) || decide (w.extractLsb' 0 9 ≠ 0)

/-- The end of the current block, past its last word. -/
def Thread.blockEnd (t : Thread) : Option DWord := t.block.map fun b => b.1 + BitVec.ofNat 64 (8 * (b.2 + 1))

/-- Words of the current block from the pc on; none without a block. -/
def Thread.wordsLeft (t : Thread) : Option Nat := t.blockEnd.map fun e => (e - t.pc).toNat / 8

/-- Entry into a block: IDEM begins a region, but for a restart that enters its own header (R67; 22 R419). -/
def Thread.enterBlock (t : Thread) (w : DWord) (region : Nat) : Thread :=
  let t := if hdrIdem w && !(t.restarting && decide (t.pc = t.irpc)) then t.beginRegion t.pc region else t
  { t with block := some (t.pc, hdrLen w), pc := t.pc + 8, arrive := 0, restarting := false }

/-! ### The look at the pc -/

/-- What a turn finds: an instruction with its word; a trap; a page that is not resident; the header at which an away
thread goes home. -/
inductive Look where
  | instr (i : Instr) (w : DWord)
  | trap (i : TrapInfo)
  | fetchTrap (i : TrapInfo)
  | away (a : DWord)
  | home
  deriving DecidableEq, Repr

/-- Up to n words from an address on, to the first that is no prefix; and the fetch that failed. -/
def State.readSeq (s : State) (vd : Nat) : Nat → DWord → List DWord × Option (DWord × Fetch)
  | 0, _ => ([], none)
  | n + 1, a =>
    match s.fetchWord vd a with
    | .word w =>
      if isPrefixOp (opOf w) then
        let r := s.readSeq vd n (a + 8)
        (w :: r.1, r.2)
      else ([w], none)
    | f => ([], some (a, f))

/-- What a failed fetch comes to (12 R295). No word was fetched at TPC, and TINST of its trap is 0 (DESIGN CHOICE, log 58). -/
def fetchLook (a : DWord) : Fetch → Look
  | .away _ => .away a
  | .fail c => .fetchTrap { cause := c, tpc := a, tval := a }
  | .word _ => .fetchTrap { cause := cBadTarget, tpc := a, tval := a }

/-- A word whose privilege check comes before its field check (03 R53): RETT at TL 0, EINJ without permission. -/
def State.privFirst (s : State) (r : TRef) (t : Thread) (w : DWord) : Bool :=
  (decide (opOf w = 0xE1) && decide (t.tl = 0)) || (decide (opOf w = 0xE7) && !s.mayInject r.l)

/-- The instruction at a pc that is at no header to be entered. A sequence of any length is read to its instruction word, because
checks 1 and 2 of 03 R53 come before the prefix rules; more than three prefixes hold two of one kind. A sequence whose last prefix ends
its block has no instruction word: TINST of its PREFIX_MISUSE is that prefix (DESIGN CHOICE, log 58). -/
def State.lookInside (s : State) (r : TRef) (t : Thread) : Look :=
  let n := match t.wordsLeft with | some k => min 64 k | none => 64
  let (ws, bad) := s.readSeq (s.vdOf r.l) n t.pc
  match bad with
  | some (a, f) => fetchLook a f
  | none =>
    let last := ws.getLastD 0
    let trap (c : Nat) : Look := .trap { cause := c, tpc := t.pc, tinst := last }
    match decodeWords [] false 64 ws with
    | .ok (i, _) => .instr i last
    | .error (.header false) => trap cHdrMalformed
    | .error (.header true) => trap cPrefixMisuse
    | .error .prefixMisuse => trap cPrefixMisuse
    | .error .truncated => trap cPrefixMisuse
    | .error .badSubop => trap (if s.privFirst r t last then cPrivileged else cBadSubop)

/-- The look at a thread's pc, with the thread as it stands after the header that it may enter first. RETHDR = 0 is read as "no
return block": an away thread with RETHDR = 0 does not return at a block at address 0, which 06 R170 leaves open (DESIGN CHOICE,
log 44). -/
def State.look (s : State) (r : TRef) (t : Thread) : Thread × Look :=
  let here (c : Nat) (tval w : DWord) : TrapInfo := { cause := c, tpc := t.pc, tval, tinst := w }
  match s.fetchWord (s.vdOf r.l) t.pc with
  | .away p => (t, fetchLook t.pc (.away p))
  | .fail c => (t, fetchLook t.pc (.fail c))
  | .word w =>
    let inside := match t.wordsLeft with | some k => decide (0 < k) | none => false
    if opOf w = 0xFF then
      if inside then (t, .trap (here cHdrMalformed 0 w))
      else if hdrBad w then
        (t, if t.arrive = 2 then .fetchTrap (here cBadTarget t.pc w) else .trap (here cHdrMalformed 0 w))
      else if t.away ∧ t.tl = 0 ∧ t.rethdr ≠ 0 ∧ t.pc = t.rethdr then (t, .home)
      else
        let t := t.enterBlock w s.nextId
        (t, s.lookInside r t)
    else if t.arrive = 2 then (t, .fetchTrap (here cBadTarget t.pc w))
    else if t.block.isSome && !inside then (t, .fetchTrap (here cHdrMissing 0 w))
    else (t, s.lookInside r t)

/-- The instruction that a thread would meet next, with no effect. -/
def State.peek (s : State) (r : TRef) (t : Thread) : Option Instr :=
  match (s.look r t).2 with
  | .instr i _ => some i
  | _ => none

/-- Whether a thread's next instruction waits on an unsatisfied token (03 R54). -/
def State.waitUnmet (s : State) (r : TRef) (t : Thread) : Bool :=
  match s.look r t with
  | (t', .instr i _) => decide ((t'.tokAt i.ctl.tok).value < i.ctl.thr.toNat)
  | _ => false

/-! ### Words of no instruction (03 R77) -/

/-- ZERO_WORD or ILLEGAL_OP at the thread whose turn it is; a report that is due comes instead (12 R301). -/
def execIllegalOp (w : DWord) (s : State) : Out :=
  match s.curThread? with
  | none => .fault .noThread
  | some (r, t) =>
    if t.reports ≠ [] ∧ s.reportsOpen r then .next (s.takeReport r)
    else .next (s.trapHere r t (if opOf w = 0 then cZeroWord else cIllegalOp))

end Sys2Proof.Machine
end

