-- ==== Sys2Proof/Machine/Pools.lean ====
section
/-!
DEFINITION. Pools and their tiles (18 R360 to R362; 16 R326, R327), the order of gangs (16 R324, R325), which gang comes
next (R337, R342), blocked and ready gangs, and what the allowance scheduler knows of a VD (18 R364 to R368).
-/
namespace Sys2Proof.Machine

/-! ### Field rows and live tiles -/

def Pool.hasRow (p : Pool) (f r : Nat) : Bool := p.rows.getLsbD (16 * f + r)
def Pool.hasField (p : Pool) (f : Nat) : Bool := (List.range 16).any fun r => p.hasRow f r
def Pool.fields (p : Pool) : List Nat := (List.range 64).filter p.hasField

/-- A live tile: one with a logical number whose retirement has not taken effect (23 R435, R437). -/
def State.tileLive (s : State) (p : Nat) : Bool := s.numbered p && decide (s.tileState.get? p ≠ some 2)

/-- A live tile of which no retirement is recorded: no gang is placed on one that is due to retire (23 R434; 10 R267). -/
def State.tileUp (s : State) (p : Nat) : Bool := s.tileLive p && decide (recordedState s.mordant.recs p ≠ 2)

/-- The tiles of a field row, and those that are live. -/
def rowPlaces (f r : Nat) : List Nat := (List.range 16).map fun c => 256 * f + 16 * r + c
def State.rowTiles (s : State) (f r : Nat) : List Nat := (rowPlaces f r).filter s.tileLive

/-- Live tiles of a pool in a field, and of a pool. -/
def State.liveIn (s : State) (p : Pool) (f : Nat) : Nat :=
  (List.range 16).foldl (fun n r => if p.hasRow f r then n + (s.rowTiles f r).length else n) 0
def State.liveOf (s : State) (p : Pool) : Nat := p.fields.foldl (fun n f => n + s.liveIn p f) 0

/-- The most live tiles of one field row of a pool. -/
def State.widestRow (s : State) (p : Pool) : Nat :=
  p.fields.foldl (fun n f => (List.range 16).foldl (fun n r => if p.hasRow f r then max n (s.rowTiles f r).length else n) n) 0

def State.tileFree (s : State) (p : Nat) : Bool :=
  s.vtiles.all fun e => decide (e.2.place = .absent) || decide (e.2.ltile ≠ s.logicalOf p)

/-- The tiles that a field gives a gang of n: the lowest row, the leftmost run (R326). -/
def State.freeRun (s : State) (p : Pool) (f n : Nat) : Option (List Nat) :=
  ((List.range 16).filter (p.hasRow f)).findSome? fun r =>
    let ts := s.rowTiles f r
    (List.range (ts.length + 1 - n)).findSome? fun i =>
      let l := (ts.drop i).take n
      if l.all fun p => s.tileUp p && s.tileFree p then some l else none

/-! ### The order of gangs (R324, R325) -/

/-- The Morton key. -/
def mortonKey (x y : Nat) : Nat :=
  (List.range 12).foldl (fun k b => k + (x / 2 ^ b % 2) * 2 ^ (2 * b) + (y / 2 ^ b % 2) * 2 ^ (2 * b + 1)) 0

/-- The Hilbert key from bit b − 1 down. -/
def hilbertKey : Nat → Nat → Nat → Nat
  | 0, _, _ => 0
  | b + 1, x, y =>
    let s := 2 ^ b
    let rx := x / s % 2
    let ry := y / s % 2
    let x' := x % s
    let y' := y % s
    let (x', y') := if ry = 0 then (if rx = 1 then (s - 1 - y', s - 1 - x') else (y', x')) else (x', y')
    s * s * ((3 * rx) ^^^ ry) + hilbertKey b x' y'

/-- The key of gang j, the band first. -/
def Block.gangKey (b : Block) (j : Nat) : Nat :=
  let v := j * b.gsize
  let x := v % max 1 b.w
  let y := v / max 1 b.w
  let band := if b.swz = 0 then 0 else x / b.swz
  let lx := if b.swz = 0 then x else x % b.swz
  let k := match b.order with
    | 0 => y * 2 ^ 13 + lx
    | 1 => lx * 2 ^ 13 + y
    | 2 => mortonKey lx y
    | _ => hilbertKey 12 lx y
  band * 2 ^ 32 + k

def insertKey (key : Nat → Nat) (a : Nat) : List Nat → List Nat
  | [] => [a]
  | b :: l => if key a < key b then a :: b :: l else b :: insertKey key a l
def sortKey (key : Nat → Nat) (l : List Nat) : List Nat := l.foldl (fun acc a => insertKey key a acc) []

def Block.gangCount (b : Block) : Nat := (b.w * b.h + b.gsize - 1) / max 1 b.gsize
def Block.gangOrder (b : Block) : List Nat := sortKey b.gangKey (List.range b.gangCount)
def Block.gangSize (b : Block) (j : Nat) : Nat := min b.gsize (b.w * b.h - j * b.gsize)

/-- The runs of the fields (R326): in proportion to their live tiles, rounded down; what is left goes one each to the
lowest fields. -/
def cutRuns (n tot : Nat) : Nat → List (Nat × Nat) → List Nat → List (Nat × List Nat)
  | _, [], _ => []
  | left, (f, live) :: fs, l =>
    let extra := if 0 < left then 1 else 0
    let k := n * live / max 1 tot + extra
    (f, l.take k) :: cutRuns n tot (left - extra) fs (l.drop k)

def State.runsFor (s : State) (p : Pool) (order : List Nat) : List (Nat × List Nat) :=
  let fs := p.fields.map fun f => (f, s.liveIn p f)
  let tot := fs.foldl (fun n e => n + e.2) 0
  let n := order.length
  let given := fs.foldl (fun k e => k + n * e.2 / max 1 tot) 0
  cutRuns n tot (n - given) fs order

/-! ### Gangs that are ready or blocked (R337) -/

def Launch.gang (ln : Launch) (g : Nat) : Gang := (ln.gangs.get? g).getD {}
def State.updGang (s : State) (l g : Nat) (f : Gang → Gang) : State :=
  s.updLaunch l fun ln => { ln with gangs := ln.gangs.upd g f }

/-- Whether the park queue of a virtual tile holds a message for a mailbox. -/
def State.parkedFor (s : State) (v : VTile) (mb : Nat) : Bool :=
  v.park.any fun id => ((s.op? id).map fun o => decide (o.cls = .send) && decide (o.prog = mb)).getD false

/-- Whether a saved thread could issue. -/
def State.threadReady (s : State) (r : TRef) (t : Thread) (line : Bool) : Bool :=
  if t.run = .exited ∨ t.run = .dead then false
  else decide (t.reports ≠ []) ||
    match t.run with
    | .ready =>
      let s := s.preview r
      ((s.thread? r).map fun t => !s.waitUnmet r t).getD false
    | .recv mb .. =>
      let v := (s.tile? r.tile).getD {}
      decide (v.box mb ≠ []) || s.parkedFor v mb
    | .lwait _ => s.producersDone r.l
    | .line => line
    | .exitHeld => true
    | _ => false

def State.gangThreads (s : State) (l g : Nat) : List (TRef × Thread) :=
  (s.gangMembers l g).flatMap fun v => s.tileThreads v

def State.gangReady (s : State) (l g : Nat) : Bool :=
  let line := (s.gangMembers l g).all fun v => decide (((s.tile? v).getD {}).lineQ ≠ [])
  (s.gangThreads l g).any fun e => s.threadReady e.1 e.2 line

/-- Whether a GBAR or GRED of the thread waits for its release or delivery. -/
def State.inGroupPhase (s : State) (r : TRef) : Bool :=
  s.ops.any fun e => decide (e.2.t = r) && decide (e.2.cls = .group) && decide (e.2.phase = .performed)

/-- Whether a lane is blocked, holds the rotation at a later turn, or runs two chunks ahead (17 R349): it stands in RECV, in LWAIT, at
the line, at an unmet wait or in a group phase; it waits for its closing instruction; two chunks of it wait for their turns. A
report that is due lets it go on. -/
def State.laneBlocked (s : State) (r : TRef) (t : Thread) : Bool :=
  match ((s.lanes.get? r).map Lane.chunks).getD [] with
  | [] => decide (t.reports = []) &&
    (match t.run with
     | .recv mb .. => decide (((s.tile? r.tile).getD {}).box mb = [])
     | .lwait _ => !s.producersDone r.l
     | .line => true
     | .exitHeld => true
     | _ => s.inGroupPhase r || !s.releasedDone r)
  | [c] => (match c.cut with
    | .closing => true
    | .before => decide (t.reports = []) && s.waitUnmet r t
    | _ => false)
  | l => l.all fun c => decide (c.cut ≠ .opened)

/-- Whether a thread of a resident gang is blocked. In deterministic mode its lane is (17 R349). -/
def State.threadBlocked (s : State) (r : TRef) (t : Thread) : Bool :=
  if t.run = .exited then true
  else if s.isDet r.l then s.laneBlocked r t
  else decide (t.reports = []) &&
    match t.run with
    | .ready => s.waitUnmet r t
    | .recv mb .. => decide (((s.tile? r.tile).getD {}).box mb = [])
    | .lwait _ => !s.producersDone r.l
    | .line => true
    | _ => false

def State.gangBlocked (s : State) (l g : Nat) : Bool := (s.gangThreads l g).all fun e => s.threadBlocked e.1 e.2

/-! ### Which gang comes next (R337, R342) -/

/-- Kind 1: the first gang of the summon list that has no tiles, whichever field's run it stands in. -/
def Launch.summoned (ln : Launch) : Option Nat :=
  ln.summon.find? fun g => decide ((ln.gang g).st = .swapped) || decide ((ln.gang g).st = .unstarted)

/-- Kind 2: the ready gang that was swapped out first. -/
def State.readySwapped (s : State) (l : Nat) (ln : Launch) : Option Nat :=
  ((ln.gangs.filter fun e => decide (e.2.st = .swapped) && s.gangReady l e.1).foldl
    (fun (b : Option (Nat × Nat)) e => match b with
      | none => some (e.1, e.2.swapSeq)
      | some x => if e.2.swapSeq < x.2 then some (e.1, e.2.swapSeq) else b) none).map Prod.fst

/-- The gang that a field would place for a launch, and its kind. -/
def State.nextGang (s : State) (l : Nat) (ln : Launch) (f : Nat) : Option (Nat × Nat) :=
  match ln.summoned with
  | some g => some (g, 1)
  | none =>
    match s.readySwapped l ln with
    | some g => some (g, 2)
    | none => (((ln.runs.get? f).getD []).head?).map fun g => (g, 3)

/-- A producer's gang waits for room in the field (R342). -/
def State.producerWaits (s : State) (ln : Launch) (f : Nat) : Bool :=
  ln.prodL.any fun q =>
    match s.launch? q with
    | some p => decide (p.phase = .placing) && (s.nextGang q p f).isSome
    | none => false

/-- The heavy units of a field's resident gangs, in halves (R327; RESID of 23 R442). -/
def Gang.holdsTiles (g : Gang) : Bool :=
  match g.st with | .resident => true | .swapping => true | .restoring => true | _ => false
def State.resid (s : State) (f : Nat) : Nat :=
  s.launches.foldl (fun n e => n + e.2.blk.heavy *
    (e.2.gangs.filter fun x => x.2.holdsTiles && decide (x.2.field = f)).length) 0

def State.heavyFits (s : State) (b : Block) (f : Nat) : Bool :=
  decide (b.heavy = 0) || decide (s.resid f + b.heavy ≤ 2 * (s.field f).curbud)

/-! ### The vat (R339) -/

/-- The home of the vat region of virtual tile v, and the regions of a VD that are taken at a home. -/
def vatHome (v : Nat) : Nat := v % 64
def State.regionsAt (s : State) (vd home : Nat) : Nat :=
  (s.vtiles.filter fun e => e.2.region && decide (s.vdOf e.1.l = vd) && decide (vatHome e.1.v = home)).length

/-- Whether the vat holds a free region for each member of a gang that has none. How many regions a VD's vat has at a home is not
given: at least one (log 46). The members of a gang have their regions at different homes. -/
def State.vatFree (s : State) (l g : Nat) : Bool :=
  (s.gangMembers l g).all fun m =>
    ((s.tile? m).map VTile.region).getD false ||
      decide (s.regionsAt (s.vdOf l) (vatHome m.v) < Config.vatExtra (s.vdOf l) (vatHome m.v) + 1)

/-- The gang that a field can place now for a launch, with the tiles it would give it. The vat must have room to take it out again
(18 R366). -/
def State.placeable (s : State) (l : Nat) (ln : Launch) (f : Nat) : Option (Nat × List Nat) :=
  let p := s.poolRec (s.vdRec ln.vd).pool
  if ln.phase ≠ .placing ∨ !p.hasField f ∨ s.producerWaits ln f ∨ !s.heavyFits ln.blk f then none
  else match s.nextGang l ln f with
    | none => none
    | some (g, _) => if s.vatFree l g then (s.freeRun p f (ln.blk.gangSize g)).map fun ts => (g, ts) else none

/-! ### VDs (18 R364 to R367) -/

def periodP : Nat := 2 ^ 24
def quantumQ : Nat := 2 ^ 20

/-- An accepted launch with a gang that is UNSTARTED, or SWAPPED and ready (R365). -/
def Launch.live (ln : Launch) : Bool :=
  match ln.phase with | .copyList _ => true | .imageCopy => true | .placing => true | _ => false
def State.launchRunnable (s : State) (l : Nat) (ln : Launch) : Bool :=
  ln.live && ln.gangs.any fun e =>
    decide (e.2.st = .unstarted) || (decide (e.2.st = .swapped) && s.gangReady l e.1)
def State.vdRunnable (s : State) (vd : Nat) : Bool :=
  s.launches.any fun e => decide (e.2.vd = vd) && s.launchRunnable e.1 e.2

/-- A VD that is not runnable and has a gang on a summon list, which its field may place (R337): the scheduler serves it as it does
the runnable ones (log 26). -/
def State.vdSummons (s : State) (vd : Nat) : Bool :=
  s.launches.any fun e => decide (e.2.vd = vd) && decide (e.2.phase = .placing) && e.2.summoned.isSome

/-- Tile-cycles charged in the current period, with those of the gangs that hold tiles now (R364). -/
def State.usedNow (s : State) (vd : Nat) : Nat :=
  let start := s.cycle / periodP * periodP
  s.launches.foldl (fun n e =>
    if e.2.vd = vd then
      e.2.gangs.foldl (fun n x => if x.2.holdsTiles then n + x.2.size * (s.cycle - max x.2.since start) else n) n
    else n) (s.vdRec vd).used

def State.vdLimit (s : State) (v : Vd) : Nat := v.effCap * (s.liveOf (s.poolRec v.pool)) * periodP / 100

/-- A VD is CAPPED from the moment at which its USED reaches its limit, for the rest of the period (R367). -/
def State.isCapped (s : State) (vd : Nat) : Bool :=
  let v := s.vdRec vd
  v.capped || (decide (0 < s.usedNow vd) && decide (s.vdLimit v ≤ s.usedNow vd))

/-- The effective weight: WEIGHT, or four times as much, to 255, under a boost (R367). -/
def Vd.eff (v : Vd) : Nat := if v.boostUntil.isSome then min 255 (4 * v.effWeight) else v.effWeight

/-- A VD's share of the pool's tile-cycles, against what it has used: whether it has reached it. -/
def State.shareReached (s : State) (vd : Nat) : Bool :=
  let v := s.vdRec vd
  let sum := s.vds.foldl (fun n e =>
    if e.2.pool = v.pool ∧ e.2.en ∧ s.vdRunnable e.1 then n + e.2.eff else n) 0
  decide (v.eff * s.liveOf (s.poolRec v.pool) * periodP ≤ s.usedNow vd * max 1 sum)

/-- The highest PRIO among a VD's runnable launches. -/
def State.vdClass (s : State) (vd : Nat) : Nat :=
  s.launches.foldl (fun n e => if e.2.vd = vd ∧ s.launchRunnable e.1 e.2 then max n e.2.blk.prio else n) 0

/-- Whether VD a comes before VD b under the second rule of R366. -/
def State.vdBefore (s : State) (a b : Nat) : Bool :=
  let ca := s.vdClass a
  let cb := s.vdClass b
  let ua := s.usedNow a * (s.vdRec b).eff
  let ub := s.usedNow b * (s.vdRec a).eff
  decide (cb < ca) || (decide (ca = cb) && (decide (ua < ub) || (decide (ua = ub) && decide (a < b))))

/-- Whether VD a, which is not owed, is ranked before VD b under R366: an owed VD comes first, and a CAPPED one has no place. -/
def State.ranksBefore (s : State) (a b : Nat) : Bool :=
  !(s.vdRec b).owed && !s.isCapped a && (s.isCapped b || s.vdBefore a b)

def insertVd (s : State) (a : Nat) : List Nat → List Nat
  | [] => [a]
  | b :: l => if s.vdBefore a b then a :: b :: l else b :: insertVd s a l

/-- The VDs bound to a pool that may be dispatched, in the order of R366. -/
def State.vdOrder (s : State) (pool : Nat) : List Nat :=
  let mine := (s.vds.filter fun e => decide (e.2.pool = pool) && e.2.en && decide (0 < e.2.effWeight) &&
    (s.vdRunnable e.1 || s.vdSummons e.1)).map Prod.fst
  let start := (s.poolRec pool).lastOwed + 1
  let owed := sortKey (fun v => (v + 512 - start % 512) % 512) (mine.filter fun v => (s.vdRec v).owed)
  owed ++ (mine.filter fun v => !(s.vdRec v).owed && !s.isCapped v).foldl (fun l v => insertVd s v l) []

/-- The launches of a VD in the order of R366: descending PRIO, then acceptance. -/
def State.vdLaunches (s : State) (vd : Nat) : List (Nat × Launch) :=
  let l := s.launches.filter fun e => decide (e.2.vd = vd) && decide (e.2.phase = .placing)
  [3, 2, 1, 0].flatMap fun k => l.filter fun e => decide (e.2.blk.prio = k)

/-- The gangs that the pool can place now for a VD's first launch that has one: one for each field that can. -/
def State.vdChoices (s : State) (pool vd : Nat) : List (Nat × Nat × Nat) :=
  ((s.vdLaunches vd).map fun e =>
    (s.poolRec pool).fields.filterMap fun f => (s.placeable e.1 e.2 f).map fun x => (e.1, x.1, f)).find? (· ≠ []) |>.getD []

end Sys2Proof.Machine
end

