-- ==== Sys2Proof/Machine/Launches.lean ====
section
/-!
DEFINITION. Launches from their block to their completion record: acceptance (16 R318 to R321; 21 R393 to R395), the copy
list and the initial image (16 R320, R322, R323), completion (21 R397, R398; 12 R297).
-/
namespace Sys2Proof.Machine

/-! ### The parameter block (R318, R319) -/

def leField (d : List Byte) (off n : Nat) : Nat := leNat ((d.drop off).take n)
def addrField (d : List Byte) (off : Nat) : DWord := BitVec.ofNat 64 (leField d off 8)

def blockOf (d : List Byte) : Block :=
  let ctl := leField d 0x0C 4
  { entry := addrField d 0x00
    lid := BitVec.ofNat 32 (leField d 0x08 4)
    gsize := ctl % 16 + 1
    order := ctl / 16 % 4
    swz := ctl / 64 % 128
    det := decide (ctl / 2 ^ 13 % 2 = 1)
    fpol := decide (ctl / 2 ^ 14 % 2 = 1)
    prio := ctl / 2 ^ 15 % 4
    test := decide (ctl / 2 ^ 17 % 2 = 1)
    w := leField d 0x10 2
    h := leField d 0x12 2
    chunk := leField d 0x14 2
    heavy := leField d 0x16 2
    qset := addrField d 0x18
    qfirst := leField d 0x20 4
    qcount := leField d 0x24 4
    tvec := addrField d 0x28
    tsave := addrField d 0x30
    crec := addrField d 0x38
    prods := ((List.range 8).map fun i => leField d (0x40 + 4 * i) 4).filter (· ≠ 0)
    image := addrField d 0x60
    imglen := leField d 0x68 4
    copyl := addrField d 0x70
    ncopy := leField d 0x78 4 }

def isGlobal (a : DWord) : Bool := match Addr.of a with | .glob _ _ => true | _ => false

/-- The fields that are in their ranges whatever the machine holds (R321 step 2). -/
def rangesOk (d : List Byte) (b : Block) : Bool :=
  decide (b.w ≤ 4096) && decide (b.h ≤ 4096) && decide (b.w * b.h ≤ 2 ^ 24) && decide (b.lid ≠ 0) &&
  decide (leField d 0x0C 4 < 2 ^ 18) && decide (b.swz ≤ 64) &&
  (!b.det || (decide (128 ≤ b.chunk) && decide (b.chunk ≤ 8192))) &&
  decide (b.heavy ≤ 3 * b.gsize) && decide (b.qfirst + b.qcount ≤ 2 ^ 32) && isGlobal b.qset &&
  isGlobal b.image && decide (b.image.toNat % 8 = 0) && decide (b.imglen ≤ 2 ^ 20) && decide (b.imglen % 8 = 0) &&
  decide (leField d 0x6C 4 = 0) && isGlobal b.copyl && decide (b.copyl.toNat % 32 = 0) && decide (b.ncopy ≤ 64) &&
  decide (leField d 0x7C 4 = 0) && isGlobal b.entry && decide (b.entry.toNat % 8 = 0) && isGlobal b.tvec && isGlobal b.tsave

def Launch.rejected (ln : Launch) : Bool := decide (ln.phase = .ended) && decide (ln.status = cLaunchRange)

/-- The most recent launch of a VD accepted with a LID: a block that was rejected is none, so that rejections cascade (R321
step 3). -/
def State.launchNamed (s : State) (vd : Nat) (lid : Nat) : Option Nat :=
  ((s.launches.filter fun e => decide (e.2.vd = vd) && decide (e.2.blk.lid.toNat = lid) && !e.2.rejected).getLast?).map Prod.fst

/-- Whether a block is rejected with LAUNCH_RANGE (R321 steps 2, 3). -/
def State.blockRejected (s : State) (vd : Nat) (d : List Byte) (b : Block) : Bool :=
  let p := s.poolRec (s.vdRec vd).pool
  !rangesOk d b ||
  s.launches.any (fun e => decide (e.2.vd = vd) && decide (e.2.blk.lid = b.lid) && decide (e.2.phase ≠ .ended)) ||
  (decide (0 < b.w * b.h) && (decide (p.rows = 0) || decide (s.widestRow p < b.gsize))) ||
  b.prods.any fun q => (s.launchNamed vd q).isNone

/-! ### Completion records (21 R397, R398) -/

def TrapHalf.bytes (h : TrapHalf) : List Byte :=
  leBytes h.tpc.toNat 8 ++ leBytes h.tval.toNat 8 ++ leBytes h.taux.toNat 8 ++ leBytes h.tinst.toNat 8 ++
    leBytes h.tscL.toNat 4 ++ leBytes h.tscH.toNat 4 ++ leBytes h.tcause.toNat 4 ++ leBytes 0 4

/-- The escalation record of 12 R297. -/
def Escalation.bytes (e : Escalation) : List Byte :=
  e.h1.bytes ++ e.h2.bytes ++ leBytes e.third.tpc.toNat 8 ++ leBytes e.third.tval.toNat 8 ++ leBytes e.third.taux.toNat 8 ++
    leBytes (e.third.cause % 256 + e.thid % 64 * 256) 4 ++ leBytes e.vt 4

/-- The record but for STATUS, from offset 8 on, and the STATUS word. -/
def Launch.recordTail (ln : Launch) : List Byte :=
  leBytes ln.tacc 8 ++ leBytes ln.tend 8 ++ leBytes ln.tilecyc 8 ++ leBytes ln.swaps 4 ++ leBytes ln.nesc 4 ++
    leBytes ln.ndisc 4 ++ leBytes ln.nlate 4 ++ leBytes ln.latea.toNat 8 ++ leBytes ln.latew.toNat 4 ++ leBytes 0 4
def Launch.statusWord (ln : Launch) : Nat :=
  ln.status % 256 + (if ln.qovl then 2 ^ 8 else 0) + (if ln.esc.isSome then 2 ^ 9 else 0) + 2 ^ 31

/-- A completion interrupt: it goes at once, or waits for the link (21 R389, R393). -/
def State.interrupt (s : State) (vd q : Nat) : State :=
  if !((s.vdRec vd).queues.toList[q]?.map Queue.qvec).getD false then s
  else if s.linkUp then { s with msixOut := s.msixOut ++ [(vd, q)] } else { s with msix := s.msix ++ [(vd, q)] }

/-- A command that waited for the launch completes with the last record (21 R391). -/
def State.commandDone (s : State) (l : Nat) : State :=
  if s.cmdWait.contains l then
    let w := s.cmdWait.filter fun k => decide (k ≠ l)
    if w = [] then { s with cmdWait := w, cmdstat := 0 } else { s with cmdWait := w }
  else s

/-- The launch ends: its records are written, STATUS last, and all it held is gone. -/
def State.finishLaunch (s : State) (l : Nat) : State :=
  match s.launch? l with
  | none => s
  | some ln =>
    let ln := { ln with tend := s.cycle, phase := .ended }
    let vd := ln.vd
    let a := ln.blk.crec
    let s := s.noteTrig l ln.before
    let s := match ln.esc with
      | some e => s.gwrite vd (a + 0x40) e.bytes
      | none => s
    let s := s.gwrite vd (a + 8) ln.recordTail
    let s := s.gwrite vd a (leBytes ln.blk.lid.toNat 4)
    let s := s.gwrite vd (a + 4) (leBytes ln.statusWord 4)
    let s := match Addr.of ln.lpb with
      | .glob home off => if ln.lpbPage then
          { s with pages := s.pages.filter fun p => !(decide (p.vd = vd) && decide (p.home = home) && decide (p.base = off))
                   tlb := s.tlb.filter fun e => decide (e ≠ (vd, home, off)) } else s
      | _ => s
    let s := { s with
      launches := s.launches.set l { ln with image := [], imagePoison := [], gangs := [], runs := [], summon := [], turnWrites := []
                                             lpbPage := false, rerunLane := none }
      threads := s.threads.filter fun e => decide (e.1.l ≠ l)
      lanes := s.lanes.filter fun e => decide (e.1.l ≠ l)
      vtiles := s.vtiles.filter fun e => decide (e.1.l ≠ l)
      ops := s.ops.filter fun e => decide (e.2.tile.l ≠ l) }
    (s.interrupt vd ln.queue).commandDone l

/-! ### Acceptance (R321) -/

def State.updQueue (s : State) (vd q : Nat) (f : Queue → Queue) : State :=
  s.updVd vd fun v => { v with queues := v.queues.mapIdx fun i x => if i = q then f x else x }
def State.queue (s : State) (vd q : Nat) : Queue := (((s.vdRec vd).queues.toList)[q]?).getD {}
def satInc (n : Nat) : Nat := min (n + 1) 0xFFFFFFFF

/-- Whether no page of a VD meets an extent. -/
def State.unmapped (s : State) (vd home off n : Nat) : Bool :=
  s.pages.all fun p => !(decide (p.vd = vd) && decide (p.home = home) && decide (p.base < off + n) && decide (off < p.base + p.size))

/-- The address that the firmware gives the copy of a block: a free one from its choice on (R318; log 12). -/
def State.lpbAddr (s : State) (vd : Nat) : Option (Nat × Nat) :=
  (List.range 4096).findSome? fun i =>
    let a := (Config.lpbSlot s.nextLaunch + i) % 2 ^ 50 * 256
    let home := a / 2 ^ 52
    let off := a % 2 ^ 52
    if s.unmapped vd home off 256 then some (home, off) else none

/-- Marks of launches whose QRU ranges overlap (17 R357). -/
def overlaps (a b : Block) : Bool :=
  decide (a.qset ≠ 0) && decide (a.qset = b.qset) && decide (0 < a.qcount) && decide (0 < b.qcount) &&
    decide (a.qfirst < b.qfirst + b.qcount) && decide (b.qfirst < a.qfirst + a.qcount)

/-- The gangs of a launch in traversal order, each with the field that its run is in. -/
def gangsOf (b : Block) (order : List Nat) (runs : List (Nat × List Nat)) : Assoc Nat Gang :=
  order.map fun j =>
    (j, { field := ((runs.find? fun e => e.2.contains j).map Prod.fst).getD 0, size := b.gangSize j })

/-- A virtual tile as a launch begins. -/
def newTile (l v : Nat) : TileRef × VTile := (⟨l, v⟩, {})

/-- A block is accepted. None when the firmware has no room for its copy. What happens before the write of a ring entry happens before all
that the launch does; of a block of the host, everything that stands in State.hist (11 R278; log 10). -/
def State.acceptOk (s : State) (vd q : Nat) (d : List Byte) (b : Block) : Option State :=
  match s.lpbAddr vd with
  | none => none
  | some (home, off) =>
    match s.pickFrame home 256 with
    | none => none
    | some f =>
      let l := s.nextLaunch
      let p := s.poolRec (s.vdRec vd).pool
      let order := if b.w * b.h = 0 then [] else b.gangOrder
      let runs := s.runsFor p order
      let hit := s.launches.any fun e => decide (e.2.vd = vd) && decide (e.2.phase ≠ .ended) && overlaps e.2.blk b
      let page : Page := { vd, home, base := off, size := 256, frame := f, rd := true, wr := false }
      let launches := s.launches.map fun e =>
        if e.2.vd = vd ∧ e.2.phase ≠ .ended ∧ overlaps e.2.blk b then (e.1, { e.2 with qovl := true }) else e
      let ln : Launch :=
        { vd, queue := q, blk := b, lpb := BitVec.ofNat 64 (home * 2 ^ 52 + off), tacc := s.cycle, qovl := hit
          prodL := b.prods.filterMap (s.launchNamed vd), gangs := gangsOf b order runs
          runs := if order = [] then [] else runs, lpbPage := true
          before := if q = 3 then ((s.vdRec vd).gifts.head?).getD [] else s.histIds }
      let s := { s with
        launches := launches ++ [(l, ln)], nextLaunch := l + 1, pages := s.pages ++ [page], fresh := s.fresh + 1
        hbm := s.hbm.writeN (hbmKey home f) d
        vtiles := s.vtiles ++ (List.range (b.w * b.h)).map (newTile l) }
      some (s.forget (hbmKey home f) 256)

/-- A block is rejected: it runs nothing and gets its record. -/
def State.acceptBad (s : State) (vd q : Nat) (b : Block) : State :=
  let l := s.nextLaunch
  let ln : Launch := { vd, queue := q, blk := b, tacc := s.cycle, status := cLaunchRange }
  ({ s with launches := s.launches ++ [(l, ln)], nextLaunch := l + 1 }).finishLaunch l

/-- An empty ring has no entry to hand anything over. -/
def Vd.keepGifts (v : Vd) : Vd := if v.queues[3].qhead = v.queues[3].tail then { v with gifts := [] } else v

/-- The entry of a ring is taken: QHEAD advances, and a LNCH that waited at the rim enters queue 3 (R394, R395). -/
def State.takeEntry (s : State) (vd q : Nat) : State :=
  let s := s.updQueue vd q fun x => { x with qhead := x.qhead + 1 }
  if q = 3 then (s.updVd vd fun v => { v with gifts := v.gifts.drop 1 }).ringNext vd else s

/-- Whether the record's address is global, aligned and mapped for the VD (R321 step 1). -/
def State.crecOk (s : State) (vd : Nat) (a : DWord) : Bool :=
  match Addr.of a with
  | .glob home off => decide (a.toNat % 64 = 0) && (s.page? vd home off).isSome
  | _ => false

/-- Whether a write through a VD's window that came before a doorbell is still outstanding: the entries that the doorbell named are
read after it (R394). -/
def State.writesDue (s : State) (vd : Nat) : Bool :=
  s.ops.any fun e => decide (e.2.cls = .hostAccess) && decide (e.2.vd = vd) && decide (e.2.line = 1)

/-- LAUNCH_ACCEPT: the device takes the next block of a queue. A ring entry whose page is not resident waits; one that
cannot be read holds no record's address and is discarded. -/
def execLaunchAccept (vd q : Nat) (s : State) : Out :=
  let x := s.queue vd q
  .next (if q ≥ 4 ∨ x.qbase = 0 ∨ x.qhead = x.tail then s
    else
      let a := x.qbase + BitVec.ofNat 64 (256 * (x.qhead.toNat % 2 ^ x.qlog))
      let wait : Bool := match Addr.of a with
        | .glob home off => (match s.reach vd home off true false with | .wait _ _ => true | _ => false)
        | _ => false
      if wait ∨ (q ≠ 3 ∧ s.writesDue vd) then s
      else match s.gread vd a 256 with
        | none => (s.takeEntry vd q).updQueue vd q fun x => { x with qerr := satInc x.qerr }
        | some d =>
          let b := blockOf d
          if !s.crecOk vd b.crec then (s.takeEntry vd q).updQueue vd q fun x => { x with qerr := satInc x.qerr }
          else if s.blockRejected vd d b then (s.takeEntry vd q).acceptBad vd q b
          else match s.acceptOk vd q d b with
            | none => s
            | some s => s.takeEntry vd q)

/-! ### The copy list (R320, R322) -/

/-- The launch can go no further: it places nothing and ends with a status. -/
def State.stopLaunch (s : State) (l status : Nat) : State :=
  s.updLaunch l fun ln => { ln with status, phase := .placing, gangs := [], runs := [], summon := [] }

/-- An address of a local or remote tile, which an entry has none of. -/
def tileSpace (a : DWord) : Bool :=
  match Addr.of a with | .loc _ _ => true | .remote _ _ _ => true | _ => decide (a.toNat / 2 ^ 60 = 8 ∨ a.toNat / 2 ^ 60 = 9)

/-- Whether a weight-space range fits the pool's partition in every field of it. -/
def State.weightFits (s : State) (pool off n : Nat) : Bool :=
  (s.poolRec pool).fields.all fun f => decide (off + n ≤ (s.partition pool f).length * 2 ^ 23)

/-- The cause with which an entry faults before it writes (R239, R320, R322). -/
def State.entryInvalid (s : State) (ln : Launch) (src dst : DWord) (len : Nat) : Option Nat :=
  let n := if len > 2 ^ 40 then 0 else len
  let pool := (s.vdRec ln.vd).pool
  if tileSpace src ∨ !copySpaceOk src n then some cSpaceInvalid
  else if tileSpace dst ∨ (!copySpaceOk dst n ∧ !isWeight dst) then some cSpaceInvalid
  else if isWeight dst ∧ ln.blk.w * ln.blk.h ≠ 0 then some cWsLocked
  else if isWeight dst ∧ !s.weightFits pool (dst.toNat % 2 ^ 29) len then some cMemNomap
  else if src.toNat % 8 ≠ 0 ∨ dst.toNat % 8 ≠ 0 ∨ len % 8 ≠ 0 then some cMemAlign
  else if len > 2 ^ 40 then some cVecLength
  else none

/-- The operation under which the device moves the words of an entry, and the one that copies the initial image: `line` tells
which. What was written before it begins is there for it. -/
def entryOp (l vd : Nat) (d : List Byte) : Op :=
  { t := ⟨l, 0, 64⟩, tile := ⟨l, 0⟩, vd, cls := .copy, ins := .copyListEntry l, data := d, path := .copy, line := 1 }
def imageOp (l vd : Nat) (b : Block) : Op :=
  { entryOp l vd (leBytes b.image.toNat 8 ++ leBytes 0 8 ++ leBytes b.imglen 8) with line := 2 }

/-- The operation of a launch's copy list that is under way. -/
def State.entryOf (s : State) (l : Nat) : Option (Nat × Op) :=
  s.ops.find? fun e => match e.2.ins with | .copyListEntry k => decide (k = l) | _ => false

/-- The fields in which an entry writes: all of the pool for weight space, else one for all. -/
def State.entryFields (s : State) (o : Op) : List Nat :=
  if isWeight o.copyDst ∧ o.line = 1 then (s.poolRec (s.vdRec o.vd).pool).fields else [0]

/-- Piece j of an entry is word j / n in the field of place j mod n, of n fields. The pieces still to be written. -/
def State.entryLeft (s : State) (o : Op) : List (Nat × Nat) := leftRanges (o.copyWords * (s.entryFields o).length) o.parts

/-- Writes bytes of one word of the weight store of a field (R320; 22 R416). -/
def State.weightPut (s : State) (o : Op) (f off : Nat) (c : Carried) : State :=
  match s.wsAt (s.vdRec o.vd).pool f off with
  | none => s
  | some k =>
    let w := k / 8 * 8
    let s := { s with ws := s.ws.writeN k (c.map Prod.fst) }
    let s := if c.length = 8 then { s with wsPoison := setErase s.wsPoison w, wsFlips := s.wsFlips.del w } else s
    if c.any Prod.snd then { s with wsPoison := setInsert s.wsPoison w } else s

/-- What the place of a word of an entry answers to a write. -/
def State.entryMay (s : State) (o : Op) (w : Nat) (poison : Bool) : CopyAns :=
  if o.line = 2 ∨ isWeight o.copyDst then .bytes [] else s.copyMay o (8 * w) poison

/-- Writes a piece. -/
def State.entryPut (s : State) (id : Nat) (o : Op) (j : Nat) (c : Carried) : State :=
  let fs := s.entryFields o
  let at_ := j / max 1 fs.length * 8
  if o.line = 2 then s.updLaunch o.tile.l fun ln =>
    { ln with image := ln.image.writeN at_ (c.map Prod.fst)
              imagePoison := if c.any Prod.snd then setInsert ln.imagePoison (at_ / 8 * 8) else ln.imagePoison }
  else match Addr.of o.copyDst with
    | .weight off => s.weightPut o ((fs[j % max 1 fs.length]?).getD 0) (off + at_) c
    | _ => s.copyPut id o at_ c

/-- One piece is read and written, or, when the entry is cut, written or not by a free choice, unless its places say otherwise. -/
def State.entryPiece (s : State) (id : Nat) (o : Op) (mixed : Bool) (j : Nat) : State :=
  let w := j / max 1 (s.entryFields o).length
  if mixed ∧ !Config.freeBool s.fresh then { s with fresh := s.fresh + 1 }
  else match { s with fresh := s.fresh + 1 }.copyGet o (8 * w) with
    | (.bytes c, s) =>
      let c := if o.poison then c.map fun x => (x.1, true) else c
      (match s.entryMay o w (c.any Prod.snd) with
       | .bytes _ => s.entryPut id o j c
       | _ => s)
    | (_, s) => s
def State.entryPieces (s : State) (id : Nat) (o : Op) (mixed : Bool) (q : Nat × Nat) : State :=
  ((List.range (q.2 - q.1)).map fun i => q.1 + i).foldl (fun (s : State) j => s.entryPiece id o mixed j) s

/-- What the words that are left of a unit of an entry meet. -/
def State.entryCheck (s : State) (o : Op) (u : Nat) : Option (CopyAns × DWord) :=
  let n := (s.entryFields o).length
  s.unitMeets o u (fun w => (s.entryLeft o).any fun q => decide (q.1 < (w + 1) * n) && decide (w * n < q.2)) (s.entryMay o)

/-- The pieces of an entry that are left, cut at the first piece of a unit: those below it and those from it on. -/
def State.entryCut (s : State) (o : Op) (u : Nat) : List (Nat × Nat) × List (Nat × Nat) :=
  let at_ := u * 8192 * (s.entryFields o).length
  ((s.entryLeft o).flatMap (cutRange (at_, 2 ^ 70)), (s.entryLeft o).flatMap (cutRange (0, at_)))

/-- Some pieces of an entry under way are written before the others (R323; 11 R274). -/
def State.entryPart (s : State) (id : Nat) (o : Op) : State :=
  let k := s.fresh
  let s := { s with fresh := k + 6 }
  match freePart (s.entryLeft o) k with
  | none => s
  | some q =>
    let n := 8192 * max 1 (s.entryFields o).length
    if (List.range o.units).any fun u => decide (u * n < q.2) && decide (q.1 < (u + 1) * n) && (s.entryCheck o u).isSome then s
    else (s.entryPieces id o false q).updOp id fun o => { o with parts := o.parts ++ [q], poison := false }

/-- The entry under way is carried through; it waits at a page that is not resident. From its first faulting unit on each word,
in each field, is written or not, and the list ends (R320, R322). `next` is the launch's phase after it. -/
def State.entryRun (s : State) (l id : Nat) (o : Op) (next : LPhase) : State :=
  let hit : Option (Nat × CopyAns) := (List.range o.units).findSome? fun u => (s.entryCheck o u).map fun x => (u, x.1)
  match hit with
  | none =>
    (((s.entryLeft o).foldl (fun (s : State) q => s.entryPieces id o false q) s).dropOp id).updLaunch l fun ln =>
      { ln with phase := next, before := joinIds ln.before (id :: o.view) }
  | some (u, .fault c) =>
    let cut := s.entryCut o u
    let s := cut.1.foldl (fun (s : State) q => s.entryPieces id o false q) s
    ((cut.2.foldl (fun (s : State) q => s.entryPieces id o true q) s).dropOp id).stopLaunch l c
  | some _ => { s with fresh := s.fresh + 3 }

/-- Bytes of a VD that the device reads for itself: the bytes, a wait, or a fault. What another module answers is free. -/
def State.deviceRead (s : State) (vd : Nat) (a : DWord) (n : Nat) : Except CopyAns (List Byte) × State :=
  match Addr.of a with
  | .glob home off =>
    match s.reach vd home off true false with
    | .ok p off =>
      if (List.range n).any fun i => s.inMove p (off + i) then (.error .wait, s)
      else
        let s := s.scrubPage p off n
        (.ok (s.pageBytes p off n), s)
    | .fault c => (.error (.fault c), s)
    | .wait _ _ => (.error .wait, s)
    | .far _ => (.ok ((List.range n).map fun i => BitVec.ofNat 8 (Config.freeNat (s.fresh + i))), { s with fresh := s.fresh + n })
  | _ => (.error (.fault cSpaceInvalid), s)

/-- An operation of the copy list begins. -/
def State.entryStart (s : State) (o : Op) : State :=
  { s with ops := s.ops ++ [(s.nextId, { o with view := s.histIds, born := s.cycle })], nextId := s.nextId + 1 }

/-- COPY_LIST_ENTRY: the next entry of a launch's copy list is read and validated, or the one under way is carried through; after
the last, a launch with work copies its image once (R322). -/
def execCopyListEntry (l : Nat) (s : State) : Out :=
  .next (match s.launch? l with
    | none => s
    | some ln =>
      match ln.phase, s.entryOf l with
      | .copyList i, some e => s.entryRun l e.1 e.2 (.copyList (i + 1))
      | .imageCopy, some e => s.entryRun l e.1 e.2 .placing
      | .copyList i, none =>
        if i ≥ ln.blk.ncopy then
          if ln.blk.w * ln.blk.h = 0 then s.updLaunch l fun ln => { ln with phase := .placing }
          else (s.entryStart (imageOp l ln.vd ln.blk)).updLaunch l fun ln => { ln with phase := .imageCopy }
        else match s.deviceRead ln.vd (ln.blk.copyl + BitVec.ofNat 64 (32 * i)) 32 with
          | (.error (.fault c), s) => s.stopLaunch l c
          | (.error _, _) => s
          | (.ok d, s) =>
            let o := entryOp l ln.vd d
            match s.entryInvalid ln o.copySrc o.copyDst o.copyLen with
            | some c => s.stopLaunch l c
            | none => s.entryStart o
      | _, _ => s)

/-- LAUNCH_COMPLETE: every gang has finished, or there is nothing to place, all that the launch wrote is performed, and what was parked
for its tiles has been answered and counted (R334). -/
def execLaunchComplete (l : Nat) (s : State) : Out :=
  .next (match s.launch? l with
    | none => s
    | some ln =>
      if ln.phase = .placing ∧ ln.allFinished ∧ (s.ops.all fun e => decide (e.2.tile.l ≠ l) ||
          decide (e.2.cls = .group ∧ e.2.phase = .performed)) then
        s.finishLaunch l
      else s)

end Sys2Proof.Machine
end

