-- ==== Sys2Proof/Machine/Gangs.lean ====
section
/-!
DEFINITION. Gangs on their tiles: placement (16 R326, R336), restore (R340), swap-out (R337, R338; 17 R356), park queues
(R332), work donation (R328) and the end of a quantum (R337; 18 R367).
-/
namespace Sys2Proof.Machine

/-! ### A gang becomes resident (18 R365 to R367) -/

/-- The choice of the pool's scheduler is carried out: the VD is owed no longer, LASTD is set, a boost begins. -/
def State.dispatched (s : State) (pool vd : Nat) : State :=
  let v := s.vdRec vd
  let p := s.poolRec pool
  let s := { s with pools := s.pools.set pool { p with choice := none, lastOwed := if v.owed then vd else p.lastOwed } }
  let boosts := v.boostArmed
  let s := s.updVd vd fun v =>
    { v with owed := false, lastd := s.cycle, boostArmed := false
             boostUntil := if boosts then some (s.cycle + quantumQ) else v.boostUntil }
  if boosts then s.at_ (s.cycle + quantumQ) (.boostExpiry pool) else s

/-- A gang takes its tiles: it leaves the run and the summon list, and its residence begins. -/
def State.gangTakes (s : State) (l g f : Nat) (ts : List Nat) : State :=
  let p := ts.headD 0
  (s.updLaunch l fun ln =>
    { ln with runs := ln.runs.map fun e => (e.1, e.2.filter fun x => decide (x ≠ g))
              summon := ln.summon.filter fun x => decide (x ≠ g) }).updGang l g fun x =>
    { x with st := .resident, field := f, row := p / 16 % 16, first := p % 16, since := s.cycle, blockedSince := none
             preempt := false }

/-- A virtual tile stands on a physical tile (R329). -/
def State.settleTile (s : State) (m : TileRef) (p : Nat) : State :=
  s.updTile m fun v =>
    { v with place := .present, ltile := s.logicalOf p, gen := v.gen + 1, vttCache := [], rcache := [], icache := [], wsrfw := 0, stale := []
             pflips := [], issuedAt := none, lag := [] }

/-! ### Park queues (R332, R340 step 4) -/

/-- The head of a park queue is delivered; none when its mailbox or the thread table is full. -/
def State.parkHead (s : State) (m : TileRef) (v : VTile) (id : Nat) : Option State :=
  let s' := s.updTile m fun _ => { v with park := v.park.drop 1 }
  match s.op? id with
  | none => some s'
  | some o =>
    match o.cls with
    | .send => s'.deliverMail id o m
    | .group => some (s'.serveGroup id m)
    | .transfer => some (s'.transferAt id)
    | .migrate =>
      match s.thread? o.t with
      | none => some (s'.dropOp id)
      | some t =>
        if v.finished then
          some ((s'.countDiscard m.l).updOp id fun o => { o with phase := .waiting, unit := t.homev.toNat })
        else s'.land id o t m
    | _ => some (s'.serve id)

/-- A park queue is delivered from its head as far as there is room. -/
def deliverPark : Nat → TileRef → State → State
  | 0, _, s => s
  | n + 1, m, s =>
    match s.tile? m with
    | none => s
    | some v =>
      if v.place ≠ .present ∧ !v.finished then s
      else match v.park with
        | [] => s
        | id :: _ =>
          match s.parkHead m v id with
          | none => s
          | some s => deliverPark n m s

def State.deliverAll (s : State) (m : TileRef) : State := deliverPark (((s.tile? m).map fun v => v.park.length).getD 0) m s

/-- PARK_QUEUE_DELIVERY: the next entry of a present tile's park queue is delivered. -/
def execParkQueueDelivery (v : TileRef) (s : State) : Out := .next (deliverPark 1 v s)

/-! ### Placement (R326, R336) -/

/-- The lead thread as it starts (02 R31). -/
def leadThread (b : Block) (v : Nat) : Thread :=
  { pc := b.entry, tvec := tvecBase b.tvec, tsave := b.tsave, lead := true, homev := BitVec.ofNat 24 v, slot := some 0
    lane := if b.det then BitVec.ofNat 32 (v * 16) else 0xFFFFFFFF, arrive := 1 }

/-- A member of a gang that starts: its scratchpad holds the initial image with its poisoned words (22 R416), its lead thread is in slot 0. -/
def State.startTile (s : State) (ln : Launch) (m : TileRef) (p : Nat) : State :=
  let s := (s.settleTile m p).updTile m fun v => { v with spad := ln.image, poison := ln.imagePoison }
  let r : TRef := ⟨m.l, m.v, 0⟩
  let s := { s with threads := s.threads.set r { leadThread ln.blk m.v with before := Vector.replicate 5 ln.before, acqStamp := s.nextId } }
  if ln.blk.det then { s with lanes := s.lanes.set r {} } else s

/-- Whether the scheduler of a launch's pool has chosen a gang for a field, and the tiles that the field gives it now. -/
def State.chosen (s : State) (l g f : Nat) (ln : Launch) : Option (List Nat) :=
  if (s.poolRec (s.vdRec ln.vd).pool).choice = some (l, g, f) then
    match s.placeable l ln f with
    | some (g', ts) => if g' = g then some ts else none
    | none => none
  else none

/-- GANG_PLACEMENT: a gang not yet started is placed on tiles of field `place`, and its threads start. -/
def execGangPlacement (l g : Nat) (place : Nat) (s : State) : Out :=
  .next (match s.launch? l with
    | none => s
    | some ln =>
      match s.chosen l g place ln with
      | none => s
      | some ts =>
        if (ln.gang g).st ≠ .unstarted then s
        else
          let ms := s.gangMembers l g
          let s := (s.dispatched (s.vdRec ln.vd).pool ln.vd).gangTakes l g place ts
          let s := (ms.zip ts).foldl (fun (s : State) e => s.startTile ln e.1 e.2) s
          ms.foldl (fun (s : State) m => s.deliverAll m) s)

/-! ### Restore (R340) -/

/-- A member of a gang that is restored: what is not saved is reset, and its threads resume with an acquire (11 R290). -/
def State.restoreTile (s : State) (m : TileRef) (p : Nat) : State :=
  let s := s.settleTile m p
  { s with
    threads := s.threads.map fun e =>
      if e.1.tile = m then (e.1, { e.2.learnAll e.2.allView with acqStamp := s.nextId, cycleLatch := none }) else e
    nextId := s.nextId + 1 }

/-! #### A launch from another module (R341) -/

/-- The capability version of the module: VER of the record CORE (02 R44; 23 R445). -/
def capvHere : Nat := 0x0100

/-- The numbers of operations under which a moved launch's data refer to each other, moved up by k. -/
def VTile.renumber (v : VTile) (k : Nat) : VTile :=
  { v with
    spad := v.spad.canon, slots := v.slots.map fun x => { x with mem := x.mem.canon }
    place := .absent, vttCache := [], park := v.park.map (· + k), lineQ := v.lineQ.map (· + k)
    copies := v.copies.map fun e => (e.1, { e.2 with op := e.2.op + k })
    groups := v.groups.map fun e =>
      (e.1, { e.2 with bar := e.2.bar.map (fun a => { a with op := a.op + k })
                       red := e.2.red.map fun p => { p with arr := p.arr.map fun a => { a with op := a.op + k } } }) }
def Thread.renumber (t : Thread) (k : Nat) : Thread :=
  { t with
    slot := none, before := Vector.replicate 5 [], past := Vector.replicate 7 [], posted := Vector.replicate 16 []
    heard := [], fenceRel := none, stopped := false, stopSlot := none, stepPending := false
    held := t.held.map fun h => { h with op := h.op + k }
    reports := t.reports.map fun p => { p with heldOp := p.heldOp.map (· + k) } }
/-- A thread of launch l in place of one of the launch that the other module knew it by. -/
def inLaunch (r : TRef) (l : Nat) : TRef := { r with l }
def VTile.ofLaunch (v : VTile) (l : Nat) : VTile :=
  { v with groups := v.groups.map fun e =>
      (e.1, { e.2 with bar := e.2.bar.map (fun a => { a with t := inLaunch a.t l })
                       red := e.2.red.map fun p => { p with arr := p.arr.map fun a => { a with t := inLaunch a.t l } } }) }
def Op.renumber (o : Op) (l vd : Nat) : Op :=
  { o with t := inLaunch o.t l, tile := ⟨l, o.tile.v⟩, vd, after := [], view := [], gives := none }
/-- No gang holds a tile of this module yet. -/
def Gang.movedIn (x : Gang) (f : Nat) : Gang :=
  { x with st := (match x.st with | .unstarted => .unstarted | .finished => .finished | _ => .swapped), field := f, blockedSince := none
           preempt := false }

/-- Whether this module must refuse the launch: its CAPV differs, or the pool has no room for a gang. -/
def State.incompatible (s : State) (m : Moved) (b : Block) : Bool :=
  let p := s.poolRec (s.vdRec m.vd).pool
  let g := min b.gsize (b.w * b.h)
  decide (m.capv ≠ capvHere) || decide (s.liveOf p < g) || decide (s.widestRow p < b.gsize)

/-- A launch moved by the host is taken, under the next number, with its gangs waiting for restore; its unstarted gangs are cut into
runs anew. One that does not fit ends with RESTORE_INCOMPATIBLE. -/
def State.adopt (s : State) (m : Moved) : State :=
  let b := blockOf m.block
  let l := s.nextLaunch
  if s.incompatible m b then
    let ln : Launch := { m.launch with vd := m.vd, queue := m.queue, blk := b, lpb := 0, lpbPage := false, status := cRestoreIncompatible }
    ({ s with launches := s.launches ++ [(l, ln)], nextLaunch := l + 1 }).finishLaunch l
  else match s.acceptOk m.vd m.queue m.block b with
    | none => s
    | some s =>
      let k := s.nextId
      let top := m.parked.foldl (fun n e => max n (e.1 + 1)) 0
      let top := m.threads.foldl (fun n e => max (max n (e.2.2.readySeq + 1)) (e.2.2.landed.toList.foldl max 0 + 1)) top
      let order := b.gangOrder.filter fun j => decide ((m.launch.gang j).st = .unstarted)
      let runs := s.runsFor (s.poolRec (s.vdRec m.vd).pool) order
      let s := s.updLaunch l fun ln =>
        { m.launch with
          image := m.launch.image.canon, vd := ln.vd, queue := ln.queue, blk := b, lpb := ln.lpb, lpbPage := true, prodL := ln.prodL, phase := .placing, armed := false, qovl := ln.qovl || m.launch.qovl
          runs, gangs := m.launch.gangs.map fun e =>
            (e.1, e.2.movedIn (((runs.find? fun x => x.2.contains e.1).map Prod.fst).getD 0)) }
      { s with
        nextId := k + top
        vtiles := (s.vtiles.filter fun e => decide (e.1.l ≠ l)) ++
          m.tiles.map fun e =>
            (⟨l, e.1⟩, { (e.2.renumber k).ofLaunch l with
              region := !e.2.finished && decide (((m.launch.gang (e.1 / max 1 b.gsize)).movedIn 0).st = .swapped) })
        threads := s.threads ++ m.threads.map fun e => (⟨l, e.1, e.2.1⟩, e.2.2.renumber k)
        lanes := s.lanes ++ m.lanes.map fun e => (⟨l, e.1, e.2.1⟩, { e.2.2 with chunks := [] })
        ops := s.ops ++ m.parked.map fun e => (e.1 + k, e.2.renumber l m.vd) }

/-- GANG_RESTORE: a swapped gang comes back on tiles of field `place`; or the host brings a launch from another module, whose
gangs this one then restores (R341). -/
def execGangRestore (l g : Nat) (place : Nat) (s : State) : Out :=
  .next (match s.input with
  | .moved m => s.adopt m
  | _ =>
    match s.launch? l with
    | none => s
    | some ln =>
      match s.chosen l g place ln with
      | none => s
      | some ts =>
        if (ln.gang g).st ≠ .swapped then s
        else
          let ms := s.gangMembers l g
          let s := (s.dispatched (s.vdRec ln.vd).pool ln.vd).gangTakes l g place ts
          let s := (ms.zip ts).foldl (fun (s : State) e => s.restoreTile e.1 e.2) s
          ms.foldl (fun (s : State) m => (s.deliverAll m).fillSlots m) s)

/-! ### Choosing a gang to swap out (R337; 10 R267) -/

/-- The gang of a list that some number ranks lowest; the first of equals. -/
def lowestGang (l : List (Nat × Nat)) : Option Nat :=
  (l.foldl (fun (b : Option (Nat × Nat)) e => match b with
    | none => some e
    | some x => if e.2 < x.2 then some e else b) none).map Prod.fst

/-- The resident gangs of a launch in a field. -/
def Launch.residents (ln : Launch) (f : Nat) : List (Nat × Gang) :=
  ln.gangs.filter fun e => decide (e.2.st = .resident) && decide (e.2.field = f)

/-- Among some resident gangs: the one blocked longest; else the one resident longest, of those that have had a quantum. -/
def State.victim (s : State) (l : Nat) (gs : List (Nat × Gang)) : Option Nat :=
  match lowestGang ((gs.filter fun e => s.gangBlocked l e.1).map fun e => (e.1, e.2.blockedSince.getD (s.cycle + 1))) with
  | some g => some g
  | none => lowestGang ((gs.filter fun e => decide (e.2.since + quantumQ ≤ s.cycle)).map fun e => (e.1, e.2.since))

/-- Whether a gang of kind 1 or 2 waits for tiles of a field, and none is on its way out there. -/
def State.wantsRoom (s : State) (l : Nat) (ln : Launch) (f : Nat) : Bool :=
  let p := s.poolRec (s.vdRec ln.vd).pool
  p.hasField f && decide (ln.phase = .placing) &&
  (match s.nextGang l ln f with
   | some (g, k) => decide (k ≤ 2) && (s.freeRun p f (ln.blk.gangSize g)).isNone
   | none => false) &&
  ln.gangs.all fun e => decide (e.2.field ≠ f) || decide (e.2.st ≠ .swapping)

/-- Whether a retirement is recorded of a tile that has not taken effect (10 R267). -/
def State.retirePending (s : State) (p : Nat) : Bool :=
  let l := s.mordant.recs
  (recordedBanks l p).any (fun b => !s.bankOut.contains b) ||
    (decide (recordedState l p = 2) && decide (s.tileState.get? p ≠ some 2))

def State.mustLeave (s : State) (l g : Nat) : Bool :=
  (s.gangMembers l g).any fun m => s.retirePending (s.physOf (((s.tile? m).map VTile.ltile).getD 0))

/-- Whether a resident gang is chosen for swap-out. -/
def State.swapChosen (s : State) (l g : Nat) (ln : Launch) : Bool :=
  let x := ln.gang g
  x.preempt || s.mustLeave l g ||
    (s.wantsRoom l ln x.field && decide (s.victim l (ln.residents x.field) = some g))

/-! ### Swap-out (R338) -/

/-- Whether a swap need not wait for an operation: it is parked, held, over, waits in a group phase, or is a copy or a
service (R333, R338; 06 R149; 09 R244). -/
def Op.swapClear (o : Op) : Bool :=
  o.buffered ||
  (match o.phase with
   | .parked => true | .held => true | .faulted => true | .done => true | .performed => true
   | .heldNR => decide (o.prog = 1)
   | _ => match o.cls with
     | .copy => true | .service => true | .fence => true | .trig => true | .cfls => true | .pageFetch => true
     | _ => false)

/-- Whether an instruction of a thread is in the retry latch. -/
def Thread.isLatched (t : Thread) : Bool := match t.run with | .latch _ => true | .latched => true | _ => false

/-- Steps 1 and 2 have ended for a gang: its operations are over, its results have landed, its TRIP followers are complete or
latched. -/
def State.swapDrained (s : State) (l g : Nat) : Bool :=
  let ms := s.gangMembers l g
  (s.ops.all fun e => !ms.contains e.2.tile || (e.2.swapClear && !(decide (e.2.phase = .faulted) && s.mayReport e.2))) &&
  s.threads.all fun e => !ms.contains e.1.tile || (decide (e.2.inflight = []) && (decide (e.2.trip = []) || e.2.isLatched))

/-- The word at offset 0 of its granule column whose parity word stands at a place of VTile.pflips. -/
def parityWord (k : Nat) : Nat := spGranule (k / 32 % 4) 0 (k / 128) + k % 32

/-- The words of a scratchpad as a save reads them: corrected, rebuilt, or poisoned where they cannot be rebuilt (10 R265, R266;
22 R416). Those whose rows hold no error are as they are. -/
def State.saveSpad (s : State) (m : TileRef) : State :=
  match s.tile? m with
  | none => s
  | some v =>
    let rows := (v.flips.map Prod.fst ++ v.poison ++ v.pflips.map fun e => parityWord e.1).eraseDups
    let ws := (rows.flatMap fun w => w :: matesOf w).eraseDups
    let lost := ws.filter fun w => decide (s.readWord v w = .reconFail)
    (ws.foldl (fun (s : State) w => s.scrubExtent m w 8) s).updTile m fun v =>
      { v with flips := [], poison := lost.foldl setInsert v.poison }

/-- The slots as a save reads them. -/
def Slot.saved (x : Slot) : Slot :=
  { x with flips := [], poison := (x.flips.filter fun e => decide (nFlips e.2 ≥ 2)).foldl (fun l e => setInsert l (e.1 / 8 * 8)) x.poison }

/-- A thread's record in the vat: its results have landed, a latched instruction is abandoned (12 R299). -/
def State.swapThread (s : State) (r : TRef) (t : Thread) : Thread :=
  let t' := s.savedThread r t.awake
  if t.isLatched then { t' with run := .ready } else t'

/-- A member's image is written to the vat (R339). -/
def State.saveTile (s : State) (m : TileRef) : State :=
  let s := s.saveSpad m
  let s := s.updTile m fun v => { (v.landWindows (s.cycle + 5)) with slots := v.slots.map Slot.saved }
  { s with threads := s.threads.map fun e => if e.1.tile = m then (e.1, s.swapThread e.1 e.2) else e }

/-- GANG_SWAP_OUT: a gang that is chosen begins to leave, its lanes rolled back to their last commits (17 R356); once it has
drained, its members are saved and the tiles are free. It waits while the vat has no free region for a member (R339). -/
def execGangSwapOut (l g : Nat) (s : State) : Out :=
  .next (match s.launch? l with
    | none => s
    | some ln =>
      let ms := s.gangMembers l g
      match (ln.gang g).st with
      | .resident =>
        if !s.swapChosen l g ln ∨ !s.vatFree l g then s
        else
          let s := ms.foldl (fun (s : State) m =>
            let s := s.rollback m ms
            s.updTile m fun v => { v with place := .moving, gen := v.gen + 1, region := true }) s
          (s.updLaunch l fun ln => { ln with swaps := min (ln.swaps + 1) 0xFFFFFFFF }).updGang l g fun x => { x with st := .swapping }
      | .swapping =>
        if !s.swapDrained l g then s
        else
          let s := ms.foldl (fun (s : State) m => s.saveTile m) s
          let s := (s.gangCycles l g).leaveTiles l g
          { s.updGang l g (fun x => { x with st := .swapped, swapSeq := s.nextId, blockedSince := none, preempt := false }) with
            nextId := s.nextId + 1 }
      | _ => s)

/-- QUANTUM_EXPIRY: a gang has held its tiles for a quantum and its VD is CAPPED, or its own launch needs the room (R337; 18
R367). -/
def execQuantumExpiry (l g : Nat) (s : State) : Out :=
  .next (match s.launch? l with
    | none => s
    | some ln =>
      let x := ln.gang g
      if x.st = .resident ∧ x.since + quantumQ ≤ s.cycle ∧
          (s.isCapped ln.vd ∨ (s.wantsRoom l ln x.field ∧ s.victim l (ln.residents x.field) = some g)) then
        s.updGang l g fun x => { x with preempt := true }
      else s)

/-! ### Work donation (R328) -/

/-- The field with the longest run of unstarted gangs; the lowest of equals. -/
def Launch.donor (ln : Launch) : Option Nat :=
  (ln.runs.foldl (fun (b : Option (Nat × Nat)) e => match b with
    | none => if e.2 = [] then none else some (e.1, e.2.length)
    | some x => if x.2 < e.2.length then some (e.1, e.2.length) else b) none).map Prod.fst

/-- WORK_DONATION: field `dst` has free tiles and no unstarted gang; `src` ships the tail half of its run. -/
def execWorkDonation (l src dst : Nat) (s : State) : Out :=
  .next (match s.launch? l with
    | none => s
    | some ln =>
      let p := s.poolRec (s.vdRec ln.vd).pool
      let run := (ln.runs.get? src).getD []
      let mine := (ln.runs.get? dst).getD []
      let n := (run.length + 1) / 2
      let gift := run.drop (run.length - n)
      if ln.phase = .placing ∧ p.hasField dst ∧ mine = [] ∧ ln.donor = some src ∧ src ≠ dst ∧
          (s.freeRun p dst (ln.blk.gangSize (gift.headD 0))).isSome then
        s.updLaunch l fun ln =>
          { ln with
            runs := (ln.runs.set src (run.take (run.length - n))).set dst gift
            gangs := ln.gangs.map fun e => if gift.contains e.1 then (e.1, { e.2 with field := dst }) else e }
      else s)

end Sys2Proof.Machine
end

