-- ==== Sys2Proof/Machine/Tenancy.lean ====
section
/-!
DEFINITION. The allowance scheduler (18 R364 to R368) and the requests of the physical function about pages (18 R374, R378,
R379; 21 R405, R407).
-/
namespace Sys2Proof.Machine

/-! ### Periods, caps, boosts (R364, R365, R367) -/

/-- A VD as a period begins. -/
def Vd.newPeriod (v : Vd) (runnable : Bool) : Vd :=
  { v with used := 0, capped := false, effWeight := v.weight, effCap := v.cap
           owed := runnable && v.en && decide (0 < v.weight) }

/-- ALLOWANCE_PERIOD_BEGIN: USED returns to 0, WEIGHT and CAP take effect, the runnable VDs become owed. -/
def execAllowancePeriodBegin (s : State) : Out :=
  let vds := s.vds.map fun (e : Nat × Vd) => (e.1, e.2.newPeriod (s.vdRunnable e.1))
  .next (({ s with vds }).at_ (s.cycle + periodP) .allowancePeriodBegin)

/-- BOOST_EXPIRY: the boosts of a pool's VDs that have lasted Q cycles end. -/
def execBoostExpiry (pool : Nat) (s : State) : Out :=
  .next { s with vds := s.vds.map fun e =>
    if e.2.pool = pool ∧ (e.2.boostUntil.map fun c => decide (c ≤ s.cycle)) = some true then (e.1, { e.2 with boostUntil := none })
    else e }

/-- VD_CAPPED: a VD's USED has reached its limit. -/
def execVdCapped (vd : Nat) (s : State) : Out :=
  .next (if s.vdLimit (s.vdRec vd) ≤ s.usedNow vd then s.updVd vd fun v => { v with capped := true } else s)

/-! ### DISPATCH (R366) -/

/-- Whether the choice that a pool has made can still be carried out. -/
def State.choiceStands (s : State) (pool : Nat) : Bool :=
  match (s.poolRec pool).choice with
  | none => false
  | some (l, g, f) =>
    match s.launch? l with
    | none => false
    | some ln => ((s.chosen l g f ln).isSome && decide ((s.vdRec ln.vd).pool = pool))

/-- DISPATCH: the scheduler of a pool chooses the VD, the launch and the gang that it places next. Where several fields could
take the gang that R337 names for them, one of them is taken. -/
def execDispatch (pool : Nat) (s : State) : Out :=
  .next (if s.choiceStands pool then s
    else match (s.vdOrder pool).findSome? fun vd => (let l := s.vdChoices pool vd; if l = [] then none else some l) with
      | none => { s with pools := s.pools.upd pool fun p => { p with choice := none } }
      | some l =>
        let (k, s) := s.draw
        { s with pools := s.pools.upd pool fun p => { p with choice := l[k % max 1 l.length]? } })

/-! ### PREEMPTION (R368) -/

/-- The first launch of a VD that has a gang to place and a field that would place it, were there room. -/
def State.needOf (s : State) (pool vd : Nat) : Option (Nat × List Nat) :=
  (s.vdLaunches vd).findSome? fun e =>
    let fs := (s.poolRec pool).fields.filter fun f => (s.nextGang e.1 e.2 f).isSome && !s.producerWaits e.2 f
    if fs = [] then none else some (e.1, fs)

/-- The resident gangs of a pool in a field, by launch and gang; and whether one is already on its way out. -/
def State.poolGangs (s : State) (pool f : Nat) : List (Nat × Nat × Gang) :=
  s.launches.flatMap fun e => if (s.vdRec e.2.vd).pool = pool then (e.2.residents f).map fun x => (e.1, x.1, x.2) else []
def State.leaving (s : State) (pool f : Nat) : Bool :=
  s.launches.any fun e => decide ((s.vdRec e.2.vd).pool = pool) && e.2.gangs.any fun x =>
    decide (x.2.field = f) && (decide (x.2.st = .swapping) || (decide (x.2.st = .resident) && x.2.preempt))

/-- The gangs that a VD in need may have pre-empted. -/
def State.preemptable (s : State) (pool vd l0 f : Nat) : List (Nat × Nat × Gang) :=
  (s.poolGangs pool f).filter fun x =>
    decide (x.1 ≠ l0) &&
      ((s.vdRec vd).owed || (decide (s.vdOf x.1 ≠ vd) && s.ranksBefore vd (s.vdOf x.1) && s.shareReached (s.vdOf x.1)))

/-- The gang of launch l that goes, of some gangs: one that is blocked; with none blocked, the one that has held its tiles
longest, of those that have had a quantum. -/
def State.preemptPick (s : State) (l : Nat) (c : List (Nat × Nat × Gang)) : Option Nat :=
  let blocked := c.filter fun x => s.gangBlocked x.1 x.2.1
  if blocked ≠ [] then lowestGang ((blocked.filter fun x => decide (x.1 = l)).map fun x => (x.2.1, x.2.2.blockedSince.getD (s.cycle + 1)))
  else
    let old := c.filter fun x => decide (x.2.2.since + quantumQ ≤ s.cycle)
    match old.foldl (fun (b : Option (Nat × Nat × Gang)) x => match b with
      | none => some x
      | some y => if x.2.2.since < y.2.2.since then some x else b) none with
    | some x => if x.1 = l then some x.2.1 else none
    | none => none

/-- The gang of a launch that is pre-empted now, if any. -/
def State.preemptTarget (s : State) (l : Nat) : Option Nat :=
  let pool := (s.vdRec (s.vdOf l)).pool
  (s.vdOrder pool).findSome? fun vd =>
    if s.vdChoices pool vd ≠ [] then none
    else match s.needOf pool vd with
      | none => none
      | some (l0, fs) => fs.findSome? fun f => if s.leaving pool f then none else s.preemptPick l (s.preemptable pool vd l0 f)

/-- PREEMPTION: a gang of launch l is pre-empted for another VD. -/
def execPreemption (l : Nat) (s : State) : Out :=
  .next (match s.preemptTarget l with
    | some g => s.updGang l g fun x => { x with preempt := true }
    | none => s)

/-! ### Pages (R374, R378, R379; 21 R405) -/

/-- What came from outside is to be taken again in the next cycle. -/
def insertInput : List (Nat × Instr × Input) → Nat → Instr → Input → List (Nat × Instr × Input)
  | [], c, i, x => [(c, i, x)]
  | e :: l, c, i, x => if c < e.1 then (c, i, x) :: e :: l else e :: insertInput l c i x
def State.later (s : State) (i : Instr) : State := { s with inputs := insertInput s.inputs (s.cycle + 1) i s.input }

def pageSizeOk (base size : Nat) : Bool :=
  (decide (size = 2 ^ 16) || decide (size = 2 ^ 21) || decide (size = 2 ^ 30)) && decide (base % size = 0) && decide (base + size ≤ 2 ^ 52)

/-- The TLB entries of a page go. -/
def State.dropTlb (s : State) (vd home base : Nat) : State := { s with tlb := s.tlb.filter fun e => decide (e ≠ (vd, home, base)) }
def State.pageAt (s : State) (vd home base : Nat) : Option Page :=
  s.pages.find? fun p => decide (p.vd = vd) && decide (p.home = home) && decide (p.base = base)

/-- A page leaves its frame for the firmware's keeping, under each of its names (R377). -/
def State.pageOut (s : State) (p : Page) : State :=
  let k := hbmKey p.home p.frame
  let saved := (s.hbm.filter fun c => decide (k ≤ c.1) && decide (c.1 < k + p.size)).map fun c => (c.1 - k, c.2)
  let s := s.rekey k (awayKey p.home p.frame) p.size
  { s with pages := s.pages.map fun q => if q.shares p then { q with resident := false, saved } else q }

/-- A request of the physical function, once the accesses translated under the old entry have been performed. -/
def State.pageRequest (s : State) : PageReq → State
  | .map vd home base size frame rd wr resident =>
    if vd < 512 ∧ home < 64 ∧ pageSizeOk base size ∧ s.unmapped vd home base size ∧ frame % 65536 = 0 ∧
        s.frameShared home frame size ∧ (rd ∨ wr) then
      { s with pages := s.pages ++ [{ vd, home, base, size, frame, rd, wr, resident }] }
    else s
  | .remote vd home base size rd wr redwin modId rvd raddr =>
    if vd < 512 ∧ home < 64 ∧ pageSizeOk base size ∧ s.unmapped vd home base size ∧ (rd ∨ wr) then
      { s with pages := s.pages ++ [{ vd, home, base, size, frame := 2 ^ 36, rd, wr, redwin, remote := some (modId, rvd, raddr) }] }
    else s
  | .rights vd home base rd wr => (s.updPage vd home base fun p => { p with rd, wr }).dropTlb vd home base
  | .unmap vd home base =>
    (({ s with pages := s.pages.filter fun p => !(decide (p.vd = vd) && decide (p.home = home) && decide (p.base = base)) }).keepMoves).dropTlb
      vd home base
  | .evict vd home base =>
    match s.pageAt vd home base with
    | some p => if p.resident ∧ p.remote.isNone ∧ (s.moveOf? p).isNone then s.pageOut p else s
    | none => s
  | .moveTo vd home base frame =>
    match s.pageAt vd home base with
    | some p =>
      if p.resident ∧ p.remote.isNone ∧ (s.moveOf? p).isNone ∧ frame % 65536 = 0 ∧ s.frameFree home frame 65536 then
        let s := s.splitAt vd home base
        { s with moves := s.moves ++ [{ vd, home, base, frame := p.frame, newFrame := frame }] }
      else s
    | none => s

/-- The page that a request changes or removes. -/
def oldPage : PageReq → Option (Nat × Nat × Nat)
  | .rights vd home base .. => some (vd, home, base)
  | .unmap vd home base => some (vd, home, base)
  | .evict vd home base => some (vd, home, base)
  | _ => none

/-- PHYSICAL_FUNCTION_PAGE_REQUEST: it completes once no access translated under the old entry is outstanding (R378). -/
def execPhysicalFunctionPageRequest (s : State) : Out :=
  .next (match s.input with
    | .page r =>
      let busy := match oldPage r with | some (vd, home, base) => s.pageBusy vd home base | none => false
      if busy then s.later .physicalFunctionPageRequest else s.pageRequest r
    | _ => s)

end Sys2Proof.Machine
end

