-- ==== Sys2Proof/Machine/Det.lean ====
section
/-!
DEFINITION. The commit rotation of deterministic mode (17 R349 to R355): the cut by count, whose turn comes next, what a turn
finds of its lane, the comparison, the commit, the squash and the rerun.
-/
namespace Sys2Proof.Machine

/-- Whether a lane's newest chunk is open and has retired CHUNK instructions. One that is held under SEN has not retired until it
completes (05 R128). -/
def State.atCount (s : State) (r : TRef) : Bool :=
  match (s.lanes.get? r).bind Lane.openChunk? with
  | some c => decide ((s.blk r.l).chunk ≤ c.retired) && ((s.thread? r).map fun t => t.fpHold.isNone).getD true
  | none => false

/-- CHUNK_COUNT_CUT: the chunk ends after its CHUNK-th retired instruction (R346). -/
def execChunkCountCut (t : TRef) (s : State) : Out := .next (if s.atCount t then s.closeChunk t .count else s)

/-! ### Whose turn (R344, R349) -/

/-- The lanes that take part in round c, by lane number; none for the lead's lane of a virtual tile that has not started. -/
def State.roundLanes (s : State) (l c : Nat) : List (Nat × TileRef × Option TRef) :=
  (s.vtiles.filter fun e => decide (e.1.l = l) && !e.2.finished).flatMap fun e =>
    let rs := s.lanes.filter fun x => decide (x.1.tile = e.1)
    if rs = [] then [(e.1.v * 16, e.1, none)]
    else (rs.filter fun x => decide (x.2.number ≤ c)).map fun x =>
      ((((s.thread? x.1).map fun t => t.lane.toNat).getD 0), e.1, some x.1)

def lowestLane (l : List (Nat × TileRef × Option TRef)) : Option (Nat × TileRef × Option TRef) :=
  l.foldl (fun (b : Option (Nat × TileRef × Option TRef)) x => match b with
    | none => some x
    | some y => if x.1 < y.1 then some x else b) none

/-- The turn that comes next: its round, lane and thread. -/
def State.nextTurn (s : State) (l : Nat) (ln : Launch) : Option (Nat × Nat × TileRef × Option TRef) :=
  match lowestLane ((s.roundLanes l ln.turnC).filter fun x => decide (ln.turnL ≤ x.1)) with
  | some x => some (ln.turnC, x)
  | none => (lowestLane (s.roundLanes l (ln.turnC + 1))).map fun x => (ln.turnC + 1, x)

/-! ### What a turn waits for (R350) -/

/-- The operations that commits released and that have not been performed with all they cause, messages on their way to mailboxes
among them. -/
def State.unsettled (s : State) (l : Nat) : List Op :=
  (s.ops.filter fun e => decide (e.2.tile.l = l) && (e.2.atStart || decide (e.2.cls = .send)) && !e.2.buffered &&
    (match e.2.phase, e.2.cls with
     | .done, _ => false
     | .held, _ => false
     | .performed, _ => false
     | .parked, .array => false
     | _, _ => true)).map Prod.snd

/-- A tile fault with SUMMON, whatever FPOL holds (R349). -/
def State.summonGang (s : State) (m : TileRef) : State :=
  match (s.tile? m).map VTile.place with
  | some .absent =>
    s.updLaunch m.l fun ln =>
      let g := gangOf ln.blk m.v
      { ln with summon := if ln.summon.contains g then ln.summon else ln.summon ++ [g] }
  | _ => s

/-- A parked access holds the rotation: the gang that it is for is summoned (log 21). -/
def State.summonParked (s : State) (l : Nat) : State :=
  (s.unsettled l).foldl (fun (s : State) o =>
    match o.phase, o.destVt with
    | .parked, some v => s.summonGang ⟨l, v⟩
    | _, _ => s) s

/-- A lane whose EXIT has committed and can be performed. -/
def State.exitDue (s : State) (l : Nat) : Option TRef :=
  (s.lanes.find? fun e => decide (e.1.l = l) && decide (e.2.chunks = []) && decide ((s.tile? e.1.tile).map VTile.place = some .present) &&
    (match s.thread? e.1 with
     | some t => decide (t.run = .exitHeld) && (!t.lead || s.exitClear e.1)
     | none => false)).map Prod.fst

/-! ### What a turn finds (R349) -/

/-- A lane's state at its turn: it holds the rotation; it commits an empty chunk; its RECV or LWAIT is performed; what its
next chunk found at its start is examined again; its chunk is to be compared. -/
inductive Exam where
  | hold | empty | perform | again | chunk (c : Chunk)
  deriving DecidableEq, Repr

/-- Whether the wait at which a lane's chunk was cut before anything retired is still unmet (R346). -/
def State.stillBlocked (s : State) (r : TRef) : Bool :=
  let s := s.preview r
  match s.thread? r with
  | none => false
  | some t =>
    if decide (8 ≤ t.reports.length) || t.reports.any Report.now then false else s.waitUnmet r t

/-- Whether a chunk's own operations have completed, or are held with their reports (R351). -/
def State.chunkDone (s : State) (r : TRef) (c : Chunk) : Bool :=
  s.ops.all fun e => !(decide (e.2.t = r) && !e.2.buffered && !e.2.atStart && decide (e.2.chunk = c.number)) ||
    decide (e.2.phase = .held) || decide (e.2.cls = .fence) || decide (e.2.cls = .cfls) ||
    (decide (e.2.phase = .faulted) && !s.reportRoom r)

/-- What a lane's turn finds. A lead's EXIT that 05 R137 holds commits empty chunks while other threads of the tile run on (log 19). -/
def State.examine (s : State) (r : TRef) (l : Lane) (t : Thread) : Exam :=
  match l.chunks with
  | c :: _ =>
    if c.cut = .opened ∨ !s.chunkDone r c then .hold
    else if c.retired = 0 ∧ c.cut = .before then (if s.stillBlocked r then .empty else .again)
    else .chunk c
  | [] =>
    match t.run with
    | .recv mb .. => if ((s.tile? r.tile).getD {}).box mb = [] then .empty else .perform
    | .lwait _ => if s.producersDone r.l then .perform else .hold
    | .line => .empty
    | .exitHeld => .empty
    | _ =>
      if (((s.tile? r.tile).getD {}).lineQ).any fun id => decide ((s.op? id).map Op.t = some r) then .empty
      else if s.inGroupPhase r then .empty
      else .hold

/-! ### Squash (R352 to R355) -/

/-- The first write that meets a chunk's read signature: a turn's since the chunk began, or one in place of another lane's
uncommitted chunk on a virtual tile of which the chunk has read (R352). -/
def State.conflict (s : State) (r : TRef) (ln : Launch) (c : Chunk) : Option (Nat × Nat) :=
  match ln.turnWrites.find? fun e => decide (c.began < e.1) && readMeets c e.2.1 e.2.2 with
  | some e => some e.2
  | none =>
    ((s.lanes.filter fun e => decide (e.1.l = r.l) && decide (e.1 ≠ r) && c.reads.any fun k => decide (keyTile k = some e.1.v)).flatMap fun e => e.2.chunks.flatMap Chunk.writes).findSome?
      fun w => if readMeets c w (keySize w) then some (w, keySize w) else none

/-- The address that a key of a signature stands for, as a thread of virtual tile v names it (02 R49); a QRU table and a thread
table have none. -/
def keyAddr (v k : Nat) : Option DWord :=
  if k < 2 ^ 63 then some (BitVec.ofNat 64 k)
  else if 2 ^ 63 + 2 ^ 60 ≤ k then none
  else
    let w := (k - 2 ^ 63) / 2 ^ 20
    let off := (k - 2 ^ 63) % 2 ^ 20
    some (if w = v then localAddr 0 off else BitVec.ofNat 64 (9 * 2 ^ 60 + w * 2 ^ 36 + off))

/-- A chunk is squashed: its virtual tile is rolled back, DETST and DETAD tell of it, and it runs again now. What DETAD holds for a
place that has no address is not stated: a free value (log 20). -/
def State.squash (s : State) (r : TRef) (c : Chunk) (w : Nat × Nat) : State :=
  let logged := c.readLog.find? fun k => decide (k < w.1 + w.2) && decide (w.1 < k + keySize k)
  let (x, s) := s.draw
  let s := (s.rollback r.tile).updLane r fun l =>
    { l with roll := false, aliased := logged.isNone, detad := (keyAddr r.v (logged.getD w.1)).getD (BitVec.ofNat 64 x) }
  s.updLaunch r.l fun ln => { ln with rerunLane := (s.thread? r).map fun t => t.lane.toNat }

/-! ### Commit (R352) -/

/-- The writes that no uncommitted chunk of a launch has to be compared with any more are forgotten. -/
def State.pruneWrites (s : State) (l : Nat) : State :=
  let began := (s.lanes.filter fun e => decide (e.1.l = l)).flatMap fun e => e.2.chunks.map Chunk.began
  s.updLaunch l fun ln => { ln with turnWrites := ln.turnWrites.filter fun e => began.any fun b => decide (b < e.1) }

/-- The turn passes to the next lane. -/
def State.turnTaken (s : State) (l c lane : Nat) : State :=
  (s.updLaunch l fun ln => { ln with turnC := c, turnL := lane + 1, rerunLane := none }).pruneWrites l

/-- A granule, a dimension or a descriptor that a committing chunk of a lane has written: the chunk's bytes are committed, under those
of the chunks that are still uncommitted, whatever the order of the writes in place (R347, R358). -/
def State.settlePlace (s : State) (r : TRef) (n g : Nat) : State :=
  let raw := ((s.tile? r.tile).getD {}).placeBytes g
  let l := withAfters raw (s.granRecs r.tile g)
  let mine (e : GranRec × List Byte) : Bool := decide (e.1.lane = r) && decide (e.1.number = n)
  let rest := l.filter fun e => !mine e
  match l, rest with
  | _, [] => s
  | [], _ => s
  | x :: _, _ =>
    let y := rechain g ((l.filter mine).foldl (fun b e => e.1.over g e.2 b) x.1.old) rest
    let s := s.setOlds r.tile g y.1
    if y.2 = raw then s else s.putPlace r.tile g y.2

/-- One buffered operation goes out after the one before it: each takes effect once those before it have (R347; 11 R291). Matrix
operations join their queues, and injections wait for those before them (R350; 08 R225). -/
def State.release (s : State) (r : TRef) (prev : Option Nat) (id : Nat) : State :=
  match s.op? id with
  | none => s
  | some o =>
    let copies : List Nat := match o.ins with
      | .cpyq .. => s.openOps fun e => decide (e.2.t = r) && decide (e.2.cls = .copy) && !e.2.buffered && decide (e.1 ≠ id)
      | _ => []
    let o' := { o with buffered := false, after := prev.toList ++ copies, born := s.cycle }
    let s := { s with ops := s.ops.del id ++ [(id, o')] }
    match o.ins with
    | .einj .. => s.einjStart id
    | .oclm .. => s.acceptMtx id o
    | .orls .. => s.acceptMtx id o
    | .oload .. => s.acceptMtx id o
    | .mmg .. => s.acceptMtx id o
    | .mol .. => s.acceptMtx id o
    | .mdrn .. => s.acceptMtx id o
    | .mclr .. => s.acceptMtx id o
    | .mstat .. => s.acceptMtx id o
    | _ => s

def State.releaseAll (s : State) (r : TRef) : Option Nat → List Nat → State
  | _, [] => s
  | prev, id :: l => (s.release r prev id).releaseAll r (some id) l

/-- A chunk commits: its writes in place become a turn's, its records go out in program order, and a service that has
drained may go on. -/
def State.commit (s : State) (r : TRef) (c : Chunk) : State :=
  let s := c.granules.foldl (fun (s : State) g => s.settlePlace r c.number g) s
  let s := c.writes.foldl (fun (s : State) w => s.turnWrote r.l w (keySize w)) s
  let s := s.updLane r fun l => { l with number := c.number + 1, chunks := l.chunks.drop 1, committed := l.committed + c.retired }
  let s := (s.releaseAll r none c.buffered).fencesDone r
  s.settle r

/-- An empty chunk takes the chunk number and adds nothing (R349). -/
def State.commitEmpty (s : State) (r : TRef) : State :=
  s.updLane r fun l => { l with number := l.number + 1, chunks := l.chunks.drop 1 }

/-- RECV or LWAIT of a lane is performed at its turn (R346, R349). -/
def State.performClosing (s : State) (r : TRef) (t : Thread) : State :=
  match t.run with
  | .recv mb _ c pd gi =>
    match ((s.tile? r.tile).getD {}).box mb with
    | m :: rest => (s.movedOn r.tile).recvDone r t c mb pd gi m rest true
    | [] => s
  | .lwait (some c) => (s.lwaitDone r).postNext r (sigOf c t)
  | _ => s

/-- A SPAWN that a commit released and whose turn in its chunk's order has come: its child is made now. -/
def State.spawnDue (s : State) (l : Nat) : Option Nat :=
  (s.ops.find? fun e => decide (e.2.tile.l = l) && decide (e.2.cls = .spawn) && e.2.atStart && decide (e.2.phase = .waiting) &&
    decide (e.2.unit = 0) && s.clear e.2).map Prod.fst

/-- A gang's line is due: every member that is there holds an MMG with room in its array queue, or one has finished while another
holds an MMG (08 R211). -/
def State.lineDue (s : State) (l : Nat) : Bool :=
  (((s.launch? l).map Launch.gangs).getD []).any fun e =>
    let ms := s.gangMembers l e.1
    let held (m : TileRef) : Bool := decide (((s.tile? m).getD {}).lineQ ≠ [])
    decide (ms ≠ []) && ((ms.any s.finishedAt && ms.any held) ||
      (ms.all fun m => held m && s.holdFree m .arrayQueue && decide (((s.tile? m).map VTile.place) = some .present)))

/-- COMMIT_TURN: the next turn of a deterministic launch, once every effect of the turns before it has been performed (R350). -/
def execCommitTurn (l : Nat) (s : State) : Out :=
  .next (match s.launch? l with
    | none => s
    | some ln =>
      if !ln.blk.det ∨ ln.phase ≠ .placing then s
      else match s.exitDue l, s.spawnDue l with
        | some r, _ => s.exitNow r
        | none, some id => s.spawnDo id
        | none, none =>
          if s.unsettled l ≠ [] then s.summonParked l
          else if s.lineDue l then s
          else match s.nextTurn l ln with
            | none => s
            | some (_, _, m, none) => s.summonGang m
            | some (c, n, m, some r) =>
              if ((s.tile? m).map VTile.place) ≠ some .present then s.summonGang m
              else match s.lanes.get? r, s.thread? r with
                | some la, some t =>
                  match s.examine r la t with
                  | .hold =>
                    if la.chunks = [] ∧ la.reruns ∧ !s.rerunNow r ∧ s.releasedDone r ∧ t.run = .ready then
                      (s.rollback m).updLaunch l fun ln => { ln with rerunLane := some n }
                    else s
                  | .empty => (s.commitEmpty r).turnTaken l c n
                  | .perform => s.performClosing r t
                  | .again => s.updLane r fun x => { x with chunks := x.chunks.drop 1 }
                  | .chunk k =>
                    if la.logBad then s.logsRead m
                    else match (if la.reruns then none else s.conflict r ln k) with
                    | some w => s.squash r k w
                    | none => (s.commit r k).turnTaken l c n
                | _, _ => s)

end Sys2Proof.Machine
end

