-- ==== Sys2Proof/Machine/Kill.lean ====
section
/-!
DEFINITION. The kill of a launch: flood, sweep, confirmation and record (22 R426 to R428; 12 R297), and the host's commands KILL
and KILLVD (21 R391).
-/
namespace Sys2Proof.Machine

/-! ### The flood and the sweep (22 R426, R427) -/

/-- An operation that has left its tile, or runs at a copy engine: the flood at the tiles leaves it to the sweep. What a home holds, for
a report or for a page, is discarded at once and never performed (15 R316; 18 R377). -/
def Op.outside (o : Op) : Bool :=
  !o.buffered && decide (o.phase ≠ .held) && decide (o.phase ≠ .heldNR) &&
  match o.cls, o.phase with
  | .globalLoad, _ => true
  | .globalAtomic, _ => true
  | .globalStore, .waiting => false
  | .globalStore, _ => true
  | .launchQ, _ => true
  | .copy, .waiting => true
  | _, _ => false

/-- KILL_FLOOD: the tiles of a killed launch stop issue and discard its threads, their reports, the engines' queues and the
messages on their way out; a deterministic launch's uncommitted chunks go with them. -/
def execKillFlood (l : Nat) (s : State) : Out :=
  .next (match (s.launch? l).map Launch.phase with
    | some .killFlood =>
      { s.updLaunch l (fun ln => { ln with phase := .killSweep s.cycle }) with
        threads := s.threads.filter fun e => decide (e.1.l ≠ l)
        lanes := s.lanes.filter fun e => decide (e.1.l ≠ l)
        ops := s.ops.filter fun e => decide (e.2.tile.l ≠ l) || e.2.outside }
    | _ => s)

/-- The copies of a launch are cancelled as by CPYX (09 R242). -/
def State.cancelAll (s : State) (l : Nat) : State :=
  (s.vtiles.filter fun e => decide (e.1.l = l)).foldl (fun (s : State) e =>
    e.2.copies.foldl (fun (s : State) c => s.cancelCopy e.1 c.1) s) s

/-- A copy-list entry that the kill has cut: each of the words that are left is written or not (R427). -/
def State.cutEntry (s : State) (l : Nat) : State :=
  match s.entryOf l with
  | some e => (s.entryLeft e.2).foldl (fun (s : State) q => s.entryPieces e.1 e.2 true q) s
  | none => s

/-- KILL_SWEEP_END: what is still tagged with the launch is discarded: requests, held accesses, copies, the vat regions and
park queues. The confirmations combine within 128 cycles, and the records follow within 64. -/
def execKillSweepEnd (l : Nat) (s : State) : Out :=
  .next (match s.launch? l with
    | none => s
    | some ln =>
      match ln.phase with
      | .killSweep _ =>
        let s := s.cancelAll l
        let s := s.cutEntry l
        let (a, s) := s.draw
        let (b, s) := s.draw
        let s := { s.updLaunch l (fun ln => { ln with phase := .killConfirm s.cycle }) with
          ops := s.ops.filter fun e => decide (e.2.tile.l ≠ l)
          vtiles := s.vtiles.map fun (e : TileRef × VTile) => if e.1.l = l then (e.1, { e.2 with park := [], copies := [] }) else e }
        s.at_ (s.cycle + a % 129 + b % 65) (.killConfirm l)
      | _ => s)

/-- KILL_CONFIRM: the records are written, and the tiles return to the pool. -/
def execKillConfirm (l : Nat) (s : State) : Out :=
  .next (match s.launch? l with
    | none => s
    | some ln =>
      match ln.phase with
      | .killConfirm _ =>
        let s := (ln.gangs.filter fun e => e.2.holdsTiles).foldl (fun (s : State) e => (s.gangCycles l e.1).leaveTiles l e.1) s
        s.finishLaunch l
      | _ => s)

/-! ### Commands of the host (21 R391) -/

/-- A command that waits for the records of some launches; with none it is complete. -/
def State.commandFor (s : State) (ls : List Nat) : State :=
  if ls = [] then { s with cmdstat := 0 } else { s with cmdWait := ls.foldl setInsert s.cmdWait }

/-- The command KILL: the incomplete launch of that LID, if there is one, ends with KILLED_BY_HOST. -/
def State.killLid (s : State) (vd : Nat) (lid : Word) : State :=
  match s.launches.find? fun e => decide (e.2.vd = vd) && decide (e.2.blk.lid = lid) && decide (e.2.phase ≠ .ended) with
  | none => s.commandFor []
  | some e => (s.startKill e.1 cKilledByHost).commandFor [e.1]

/-- A queue whose blocks up to its tail are discarded, and counted in QERR (21 R393). -/
def Queue.dropped (q : Queue) : Queue :=
  { q with qhead := q.tail, qerr := min (q.qerr + (q.tail - q.qhead).toNat) 0xFFFFFFFF }

/-- The blocks in a VD's rings up to their tails are discarded, and LNCHs that waited at the rim enter queue 3 (21 R395). -/
def State.dropRings (s : State) (vd : Nat) : State :=
  (s.updVd vd fun v => { v with queues := v.queues.map Queue.dropped, gifts := [] }).ringNext vd

/-- The command KILLVD. -/
def State.killVd (s : State) (vd : Nat) : State :=
  let ls := (s.launches.filter fun e => decide (e.2.vd = vd) && decide (e.2.phase ≠ .ended)).map Prod.fst
  ((ls.foldl (fun (s : State) l => s.startKill l cKilledByHost) s).dropRings vd).commandFor ls

/-- The value of CMD that a command leaves. -/
def cmdWord (kind vd : Nat) (lid : Word) : DWord := DWord.mk (BitVec.ofNat 32 (kind + vd % 512 * 2 ^ 16)) lid

/-- Whether the module has booted: a boot that stopped leaves BOOTSTAT alone to be read (23 R441). -/
def State.up (s : State) : Bool := decide (s.bootState = 1)

/-- What comes over the primary port: nothing reaches a module that has not booted; while the link is down it waits (21
R389). -/
def State.overLink (s : State) (i : Instr) (f : State → State) : State :=
  if !s.up then s
  else if !s.linkUp then { s with linkQueue := s.linkQueue ++ [(i, s.input)] }
  else f s

/-- CMD_KILL. -/
def execCmdKill (s : State) : Out :=
  .next (s.overLink .cmdKill fun s =>
    match s.input with
    | .kill vd lid => ({ s with cmd := cmdWord 1 vd lid }).killLid vd lid
    | _ => s)

/-- CMD_KILLVD. -/
def execCmdKillvd (s : State) : Out :=
  .next (s.overLink .cmdKillvd fun s =>
    match s.input with
    | .kill vd lid => ({ s with cmd := cmdWord 2 vd lid }).killVd vd
    | _ => s)

end Sys2Proof.Machine
end

