-- ==== Sys2Proof/Machine/Routes.lean ====
section
/-!
DEFINITION. The mesh: places of routers (23 R433), routes in X and then in Y with the detours around retired routers (23 R436),
and the idle-path times of 00 R6.
-/
namespace Sys2Proof.Machine

/-! ### Places (23 R433) -/

/-- The mesh position of a physical tile's router, and the tile at a position. -/
def meshX (p : Nat) : Nat := 16 * (fieldOf p % 8) + p % 16
def meshY (p : Nat) : Nat := 16 * (fieldOf p / 8) + p / 16 % 16
def tileAtXY (x y : Nat) : Nat := 256 * (8 * (y / 16) + x / 16) + 16 * (y % 16) + x % 16

/-! ### Detours (23 R436) -/

/-- The neighbours of a router in the mesh. -/
def meshNext (p : Nat) : List Nat :=
  let x := meshX p
  let y := meshY p
  (if x = 0 then [] else [tileAtXY (x - 1) y]) ++ (if x = 127 then [] else [tileAtXY (x + 1) y]) ++
  (if y = 0 then [] else [tileAtXY x (y - 1)]) ++ (if y = 127 then [] else [tileAtXY x (y + 1)])

/-- Moves a place one row or column towards the higher numbers or the lower; none beyond the mesh's edge. -/
def beside? (p : Nat) (alongX up : Bool) : Option Nat :=
  let a := if alongX then meshX p else meshY p
  if up then (if a ≥ 127 then none else some (if alongX then tileAtXY (a + 1) (meshY p) else tileAtXY (meshX p) (a + 1)))
  else if a = 0 then none else some (if alongX then tileAtXY (a - 1) (meshY p) else tileAtXY (meshX p) (a - 1))
def beside (p : Nat) (alongX up : Bool) : Nat := (beside? p alongX up).getD p

/-- The routers beside some others, on one side: none when one of them is dead or beyond the edge. -/
def sideTrack (dead : List Nat) (alongX up : Bool) (l : List Nat) : Option (List Nat) :=
  l.mapM fun p => (beside? p alongX up).bind fun q => if dead.contains q then none else some q

/-- The detour entry that a router has for a neighbour whose router is retired: the two routers beside the link, on a side where both
are live; where both sides are, the spec does not say which, and the choice is free (log 47). -/
def detourOf (dead : List Nat) (p d : Nat) : Option Detour :=
  let across := !decide (meshY p = meshY d)
  let via (up : Bool) : Option (List Nat) := sideTrack dead across up [p, d]
  let l := ([Config.detourSide d, !Config.detourSide d].filterMap via)
  l.head?.map fun v => { at_ := p, dead := d, via := v }

/-- The entries that a boot writes: for each router whose next hop may be a retired one. -/
def detoursFor (dead : List Nat) : List Detour :=
  dead.flatMap fun d => ((meshNext d).filter fun p => !dead.contains p).filterMap fun p => detourOf dead p d

/-! ### Routes -/

/-- The next hop of a route: in X first, then in Y. -/
def nextHop (p q : Nat) : Nat :=
  if meshX p < meshX q then beside p true true
  else if meshX q < meshX p then beside p true false
  else if meshY p < meshY q then beside p false true
  else beside p false false

/-- The routers of the line from one to another, less the first. -/
def lineFrom : Nat → Nat → Nat → List Nat
  | 0, _, _ => []
  | n + 1, p, q => if p = q then [] else nextHop p q :: lineFrom n (nextHop p q) q
def meshLine (p q : Nat) : List Nat := lineFrom 256 p q

/-- The routers that are retired, as the detour tables know them. -/
def State.deadNow (s : State) : List Nat := (s.detours.map Detour.dead).eraseDups

/-- A router of a route, and whether a packet comes there on the escape virtual channel of its class. -/
structure Hop where
  at_ : Nat
  escape : Bool := false
  deriving DecidableEq, Repr

/-- A detour around the dead routers with which the line after a router begins: the hops up to its return to the line, and the line
from there on; none when no live way is there. In the straight it runs beside the line, on the side of the router's entry where that is
live. Around a corner it runs on the side to which the line turns, until a router after the turn is live. -/
def State.detourFrom (s : State) (p : Nat) (line : List Nat) : Option (List Hop × List Nat) :=
  let dead := s.deadNow
  let d := line.headD p
  let alongX := decide (meshY p = meshY d)
  let straight := line.takeWhile fun n => if alongX then decide (meshY n = meshY p) else decide (meshX n = meshX p)
  let run := (straight.takeWhile dead.contains).length
  let own := ((s.detours.find? fun e => decide (e.at_ = p) && decide (e.dead = d)).bind fun e => e.via.head?).map fun v =>
    if alongX then decide (meshY p < meshY v) else decide (meshX p < meshX v)
  let side := own.getD true
  let esc (l : List Nat) : List Hop := l.map fun n => ⟨n, true⟩
  if run < straight.length then
    let l := p :: straight.take (run + 1)
    match [side, !side].findSome? fun up => sideTrack dead (!alongX) up l with
    | some t => some (esc (t ++ [straight.getD run p]), line.drop (run + 1))
    | none => none
  else
    let rest := line.drop straight.length
    match rest with
    | [] => none
    | m :: _ =>
      let corner := straight.getLastD p
      let up := decide (meshY corner < meshY m)
      let l := p :: straight.dropLast
      let k := (rest.takeWhile dead.contains).length
      let turn := (List.range k).map fun i => if up then meshY corner + 2 + i else meshY corner - (2 + i)
      let track2 := turn.map fun y => tileAtXY (meshX (l.getLastD p)) y
      match sideTrack dead false up l with
      | some t => if k < rest.length ∧ (track2.any dead.contains) = false then
          some (esc (t ++ track2 ++ [rest.getD k p]), rest.drop (k + 1))
        else none
      | none => none

/-- The hops of a route after its first router. A route with no live way ends. -/
def State.hopsFrom (s : State) : Nat → Nat → List Nat → List Hop
  | 0, _, _ => []
  | _, _, [] => []
  | n + 1, p, d :: l =>
    if s.deadNow.contains d then
      match s.detourFrom p (d :: l) with
      | none => []
      | some (h, rest) => h ++ s.hopsFrom n ((h.getLast?.map Hop.at_).getD p) rest
    else ⟨d, false⟩ :: s.hopsFrom n d l
def State.hopsOf (s : State) (p q : Nat) : List Hop := ⟨p, false⟩ :: s.hopsFrom 256 p (meshLine p q)

/-- The dead routers that a route passes. -/
def State.deadOn (s : State) (p q : Nat) : List Nat := if s.detours = [] then [] else (meshLine p q).filter s.deadNow.contains

/-! ### The least time of a path (00 R6, R446) -/

def meshHops (p q : Nat) : Nat := (max (meshX p) (meshX q) - min (meshX p) (meshX q)) + (max (meshY p) (meshY q) - min (meshY p) (meshY q))

/-- A local hop takes two cycles, an express hop one, entry to the express channels and exit from them three each; a dead router
adds up to four. -/
def State.pathTime (s : State) (p q : Nat) : Nat :=
  let h := meshHops p q
  min (2 * h) (h + 6) + (s.deadOn p q).foldl (fun n d => n + min 4 (Config.detourCost d)) 0

/-- The least time between two virtual tiles where they stand; a tile without a place is reached by its park queue, in no stated
time. -/
def State.meshTime (s : State) (a b : TileRef) : Nat :=
  match s.tile? a, s.tile? b with
  | some x, some y =>
    if x.place = .absent ∨ y.place = .absent then 0 else s.pathTime (s.physOf x.ltile) (s.physOf y.ltile)
  | _, _ => 0

end Sys2Proof.Machine
end

