-- ==== Sys2Proof/Machine/Errors.lean ====
section
/-!
DEFINITION. Errors that arise of themselves (22 R415), scrubbing (R416), errors in the control state of shared structures
(R425), and the retirement of units (23 R431 to R434; 10 R266 to R268).
-/
namespace Sys2Proof.Machine

/-! ### Soft errors (22 R415) -/

def xorFlip (l : Assoc Nat DWord) (w : Nat) (m : DWord) : Assoc Nat DWord :=
  let v := flipsAt l w ^^^ m
  if v = 0 then l.del w else l.set w v

/-- One operation of a list, by a free choice. -/
def pickOp (k : Nat) (l : List (Nat × Op)) : Option (Nat × Op) := l[k % max 1 l.length]?

/-- Whether an operation's request is on its way to a home, or to the weight store; and on its way through the mesh to another tile. -/
def Op.upward (o : Op) : Bool :=
  !o.buffered && decide (o.arrived = 0) &&
  match o.cls, o.phase with
  | .globalLoad, .waiting => true
  | .globalAtomic, .waiting => true
  | .launchQ, .waiting => true
  | .globalStore, .sent => true
  | .weight, .waiting => true
  | _, _ => false
def Op.across (o : Op) : Bool :=
  !o.buffered &&
  match o.cls, o.phase with
  | .send, .waiting => true
  | .transfer, .waiting => true
  | .remote, .waiting => true
  | .remote, .reply => true
  | .group, .waiting => true
  | .migrate, .waiting => true
  | _, _ => false

/-- Whether the way of an operation between two tiles passes a physical tile's router (23 R436). -/
def State.passes (s : State) (o : Op) (p : Nat) : Bool :=
  let place (m : TileRef) : Nat := s.physOf (s.ltileOf m)
  match o.destVt with
  | some v => (s.hopsOf (place o.tile) (place ⟨o.tile.l, v⟩)).any fun h => decide (h.at_ = p)
  | none => false

/-- What passes through a tile's router: requests of the tile's own threads, and the traffic between tiles whose way it is on. -/
def State.inRouter (s : State) (lt : Nat) : List (Nat × Op) :=
  s.ops.filter fun e => (e.2.upward && decide (s.ltileOf e.2.tile = lt)) || (e.2.across && s.passes e.2 (s.physOf lt))

/-- What passes through a field's butterfly, and through one of its gateways: which gateway a request takes is free (log 57). -/
def State.inButterfly (s : State) (f : Nat) : List (Nat × Op) :=
  s.ops.filter fun e => e.2.upward && decide (s.tileField e.2.tile = f)
def State.inGateway (s : State) (f g : Nat) : List (Nat × Op) :=
  (s.inButterfly f).filter fun e => decide (e.2.cls ≠ .weight) && decide (Config.gateway e.1 % 4 = g)

/-- The copies that an engine runs. -/
def State.inEngine (s : State) (home : Nat) : List (Nat × Op) :=
  s.ops.filter fun e => !e.2.buffered && decide (e.2.cls = .copy) && decide (e.2.unit = home) && decide (e.2.phase = .waiting) &&
    (match e.2.ins with | .copy .. => true | _ => false)

/-- The payload of one of some operations is poisoned (R415 SRC 8, 11, 12). -/
def State.poisonOne (s : State) (src unit : Nat) (l : List (Nat × Op)) : State :=
  let (k, s) := s.draw
  let s := s.logQuiet src unit 2 0
  match pickOp k l with
  | some e => s.updOp e.1 fun o => { o with poison := true }
  | none => s

/-- An error that a structure's own means correct, or that is replayed. -/
def State.harmless (s : State) (src unit sev : Nat) : State := s.logQuiet src unit sev 0

/-- The entries of a bank of a home's TLB. -/
def State.inTlb (s : State) (h bank : Nat) : List (Nat × Nat × Nat) :=
  s.tlb.filter fun e => decide (e.2.1 = h) && decide (tlbBankOf e = bank)

/-- One of them goes, by a free choice: it is walked for again. -/
def State.dropEntry (s : State) (h bank : Nat) : State :=
  let (k, s) := s.draw
  let l := s.inTlb h bank
  { s with tlb := s.tlb.filter fun x => decide (some x ≠ l[k % max 1 l.length]?) }

/-- The flip of stored bits: what it leaves in a store whose words are read later, and what becomes of it where each error is
found at once. -/
def State.upsetAt (s : State) (u : StoreUnit) (m : DWord) : State :=
  let one := decide (nFlips m ≤ 1)
  match u with
  | .spad v off => s.updTile v fun t => { t with flips := xorFlip t.flips (off / 8 * 8) m }
  | .parity v off =>
    let w := off / 8 * 8
    s.updTile v fun t => { t with pflips := xorFlip t.pflips (128 * spRow w + 32 * spGroup w + w % 32) m }
  | .slot v i w => s.updTile v fun t =>
      { t with slots := t.slots.mapIdx fun j x => if j = i then { x with flips := xorFlip x.flips (w / 2 * 8) m } else x }
  | .acc v a i => s.updTile v fun t => { t with acc := t.acc.mapIdx fun j x => if j = a then x.setEnt i (x.at_ i ^^^ m) else x }
  | .ws f off => { s with wsFlips := xorFlip s.wsFlips (f * 2 ^ 29 + off / 8 * 8) m }
  | .hbm h off => { s with hbmFlips := xorFlip s.hbmFlips (hbmKey h (off / 8 * 8)) m }
  | .alu t i => s.updThread t fun x => { x with upsets := List.replicate i 0 ++ [m] }
  | .ctx t =>
    if (s.thread? t).isNone then s
    else if one then s.harmless 2 (s.ltileOf t.tile) 0
    else (s.lostState 2 t.tile).retireSoon ⟨1, s.physOf (s.ltileOf t.tile), 0⟩ 3
  | .detlog t =>
    if one ∨ ((s.lanes.get? t).map fun l => decide (l.chunks = [])).getD true then s.harmless 7 (s.ltileOf t.tile) 0
    else s.updLane t fun l => { l with logBad := true }
  | .rcache v line => (s.harmless 5 (s.ltileOf v) 1).updTile v fun t => { t with rcache := t.rcache.eraseIdx line }
  | .mbox v mb i =>
    if one then s.harmless 6 (s.ltileOf v) 0
    else if mb < 4 then
      (s.logQuiet 6 (s.ltileOf v) 2 0).updTile v fun t =>
        t.setBox mb ((t.box mb).mapIdx fun j x => if j = i then { x with poison := true } else x)
    else if mb = 4 then
      match (s.tile? v).bind fun t => t.park[i]? with
      | some id => (s.logQuiet 6 (s.ltileOf v) 2 0).updOp id fun o => { o with poison := true }
      | none => s
    else (s.harmless 6 (s.ltileOf v) 1).updTile v fun t => { t with vttCache := t.vttCache.eraseIdx i }
  | .icache v line => (s.harmless 5 (s.ltileOf v) 1).updTile v fun t => { t with icache := t.icache.eraseIdx line }
  | .router lt => if one then s.harmless 8 lt 1 else s.poisonOne 8 lt (s.inRouter lt)
  | .butterfly f => if one then s.harmless 8 f 0 else s.poisonOne 8 f (s.inButterfly f)
  | .gateway f g => if one then s.harmless 8 f 0 else s.poisonOne 8 f (s.inGateway f g)
  | .link lt => s.harmless 8 lt 1
  | .tlb h bank => if s.inTlb h bank = [] then s else (s.harmless 11 h 1).dropEntry h bank
  | .atomicUnit h => if one then s.harmless 11 h 0 else s.poisonOne 11 h (s.inHome h)
  | .copyEng h => if one then s.harmless 12 h 0 else s.poisonOne 12 h (s.inEngine h)
  | .port p => s.harmless 13 p 1

/-- SOFT_ERROR: stored bits flip of themselves. -/
def execSoftError (s : State) : Out :=
  .next (match s.input with
    | .upset u m => if s.up ∧ m ≠ 0 then s.upsetAt u m else s
    | _ => s)

/-- SCRUB: a home reads a word of its memory and corrects it, or marks it poisoned (R416). -/
def execScrub (s : State) : Out :=
  .next (match s.input with
    | .unit (.hbm h off) => if s.up then s.homeScrub h (hbmKey h off) else s
    | _ => s)

/-! ### Uncontained errors (22 R425) -/

/-- An operation whose request is discarded: it is never performed and never completes. -/
def State.lose (s : State) (id : Nat) : State :=
  { s.updOp id (fun o => { o with phase := .waiting, after := [id] }) with
    walks := s.walks.map fun e => (e.1, { e.2 with ops := e.2.ops.filter fun x => decide (x ≠ id) }) }

/-- POOLMAP of a TLB bank, of a copy engine, with the faulted copies that stay tracked, and of a Woreri port (18 R372). -/
def State.tlbPools (s : State) (h bank : Nat) : BitVec 64 :=
  (s.inTlb h bank).foldl (fun m e => if e.1 < 512 then m ||| (1 <<< (s.vdRec e.1).pool) else m) 0
def State.enginePools (s : State) (h : Nat) : BitVec 64 :=
  s.vtiles.foldl (fun m e => if e.2.copies.any fun c => decide (c.2.state = 3) && decide (c.2.home = h) then m ||| s.tilePoolmap e.1.l else m)
    (s.poolsOf (s.inEngine h))
def State.portPools (s : State) (i : Nat) : BitVec 64 :=
  ((((s.ports.toList)[i]?).map Port.replay).getD []).foldl (fun m e => if e.vd < 512 then m ||| (1 <<< (s.vdRec e.vd).pool) else m) 0

/-- An uncorrectable error in a structure's control state: the record, with POOLMAP as it is now; the entry that is lost; the reports to
every VD of the blast set (R424, R425). -/
def State.uncontained (s : State) (src unit : Nat) (pm : BitVec 64) (loss : State → State) : State :=
  let seq := s.errSeq
  (loss (s.logErr src unit 4 0 0 pm noVd 0)).blast pm seq noVd

/-- The same in a structure that holds requests: it loses one of them, by a free choice. -/
def State.uncontainedOps (s : State) (src unit : Nat) (pm : BitVec 64) (l : List (Nat × Op)) : State :=
  s.uncontained src unit pm fun s =>
    let (k, s) := s.draw
    match pickOp k l with | some e => s.lose e.1 | none => s

/-- UNCONTAINED_ERROR. -/
def execUncontainedError (u : StoreUnit) (s : State) : Out :=
  .next (if !s.up then s
    else match u with
      | .router lt => s.uncontainedOps 8 lt (s.poolsOf (s.inRouter lt)) (s.inRouter lt)
      | .butterfly f => s.uncontainedOps 8 f (s.poolsOf (s.inButterfly f)) (s.inButterfly f)
      | .gateway f g => s.uncontainedOps 8 f (s.poolsOf (s.inGateway f g)) (s.inGateway f g)
      | .atomicUnit h => s.uncontainedOps 11 h (s.poolsOf (s.inHome h)) (s.inHome h)
      | .tlb h bank => s.uncontained 11 h (s.tlbPools h bank) fun s => s.dropEntry h bank
      | .copyEng h => s.uncontainedOps 12 h (s.enginePools h) (s.inEngine h)
      | .port p => s.uncontained 13 p (s.portPools p) id
      | _ => s)

/-! ### Retirement (23 R430 to R434) -/

/-- Whether a record names a unit: a tile is one unit, whatever becomes of its router (R431). -/
def recordNames (l : List MRec) (u : RetUnit) : Bool :=
  l.any fun r => decide (r.kind = u.kind) && decide (r.unit = u.unit) && (decide (u.kind = 1) || decide (r.place = u.place))
def State.recorded (s : State) (u : RetUnit) : Bool := recordNames s.mordant.recs u

/-- The units that records may name (R431). -/
def RetUnit.ok (u : RetUnit) : Bool :=
  match u.kind with
  | 1 => decide (u.unit < numTiles) && decide (u.place < 2)
  | 2 => decide (u.unit < numTiles) && decide (u.place < 16)
  | 3 => decide (u.unit < numTiles) && decide (u.place < 4)
  | 4 => decide (u.unit < 64) && decide (u.place < 64)
  | 5 => decide (u.unit < 64) && decide (u.place < 64)
  | 6 => decide (u.unit < 64) && decide (u.place % 2 ^ 16 < 64) && decide (u.place / 2 ^ 16 < 8192)
  | 7 => decide (u.unit < 64) && decide (u.place < 4)
  | 8 => decide (u.unit < 64) && decide (u.place = 0)
  | _ => false

/-- The boot epoch: the EPOCH that the boot's first update writes (R431, R432). -/
def State.bootEpoch (s : State) : Nat := min 4096 (if s.bootEpochDone then s.epoch else s.epoch + 1)

/-- An update: both copies of the tables get the records as one new generation, and the first update of a boot blows a step
of the epoch counter (R432). -/
def State.appendRecords (s : State) (rs : List (RetUnit × Nat)) : State :=
  let old := s.mordant
  let recs := rs.foldl (fun (l : List MRec) e =>
    l ++ [MRec.mk l.length e.1.kind e.2 e.1.unit e.1.place s.bootEpoch (s.cycle / 2 ^ 32)]) old.recs
  let m : Mordant := { gen := old.gen + 1, epoch := min 4096 (s.epoch + 1), recs, valid := true }
  { s with mordA := m, mordB := m, bootEpochDone := true, epoch := if s.bootEpochDone then s.epoch else min 4096 (s.epoch + 1) }

/-- The frames of 64 KiB that pages have on a pseudo-channel group: VD, home and base. -/
def State.onGroup (s : State) (h g : Nat) : List (Nat × Nat × Nat) :=
  s.pages.flatMap fun p =>
    if p.home = h ∧ p.remote.isNone ∧ p.resident then
      (List.range ((p.size + 65535) / 65536)).filterMap fun i =>
        let f := p.frame + i * 65536
        if f / 2 ^ 30 = g then some (p.vd, h, p.base + i * 65536) else none
    else []

/-- A page leaves retired memory: a move to a free frame, or the firmware's keeping (R434; 18 R379). A page smaller than 64 KiB,
the device's copy of a launch block, moves whole. -/
def State.leaveGroup (s : State) (e : Nat × Nat × Nat) : State :=
  let s := s.splitAt e.1 e.2.1 e.2.2
  match s.pageAt e.1 e.2.1 e.2.2 with
  | none => s
  | some p =>
    if (s.moveOf? p).isSome ∨ !p.resident then s
    else match s.pickFrame p.home p.size with
    | some f =>
      if p.size = 65536 then
        { s with moves := s.moves ++ [{ vd := p.vd, home := p.home, base := p.base, frame := p.frame, newFrame := f }], fresh := s.fresh + 1 }
      else
        let bs := s.pageBytes p p.base p.size
        ({ s with hbm := s.hbm.writeN (hbmKey p.home f) bs, fresh := s.fresh + 1 }.rekey (hbmKey p.home p.frame) (hbmKey p.home f)
          p.size).updPage p.vd p.home p.base fun q => { q with frame := f }
    | none => s.pageOut p

/-- The words of a row that are lost are written poisoned into the spare row that replaces it. -/
def State.spareRow (s : State) (u : RetUnit) : State :=
  let bad := (s.wsFlips.filter fun e => decide (wsRow e.1 = u) && decide (nFlips e.2 ≥ 2)).map Prod.fst
  { s with wsFlips := s.wsFlips.filter fun e => decide (wsRow e.1 ≠ u), wsPoison := bad.foldl setInsert s.wsPoison
           rowsOut := s.rowsOut ++ [(u.unit, u.place % 2 ^ 16, u.place / 2 ^ 16)] }

/-- The lanes that a port uses after some have been retired one after another: the pair without the first, its lane without the
second, then none (21 R404). The pairs are lanes 0, 1 and 2, 3 (log 36). -/
def activeLanes (lost : List Nat) : List Nat :=
  lost.foldl (fun l n =>
    if !l.contains n then l
    else if l.length = 4 then (if n < 2 then [2, 3] else [0, 1])
    else if l.length = 2 then l.filter fun m => decide (m ≠ n)
    else []) [0, 1, 2, 3]
def Port.lose (p : Port) (lane : Nat) : Port :=
  if (activeLanes p.lanes).contains lane then
    { p with lanes := p.lanes ++ [lane], width := (activeLanes (p.lanes ++ [lane])).length, fails := 0 }
  else p

/-- What a retirement does at once (R434): tiles and banks wait until the tile is empty; slices and budgets, until the next
boot. A page that was moving into a group begins again: its old frame holds whatever was written meanwhile (18 R379). -/
def State.retireNow (s : State) (u : RetUnit) (reason : Nat) : State :=
  match u.kind with
  | 1 => if s.tileFree u.unit then s.applyRetired u.unit else s
  | 2 => if s.tileFree u.unit then s.applyRetired u.unit else s
  | 3 => if s.tileFree u.unit then s.applyRetired u.unit else s
  | 4 =>
    let into (m : Move) : Bool := decide (m.home = u.unit) && decide (m.newFrame / 2 ^ 30 = u.place)
    let s' := { s with pcgOut := s.pcgOut ++ [(u.unit, u.place)], moves := s.moves.filter fun m => !into m }
    let s' := ((s.moves.filter into).map fun m => (m.vd, m.home, m.base)).foldl (fun (s : State) e => s.leaveGroup e) s'
    (s'.onGroup u.unit u.place).foldl (fun (s : State) e => s.leaveGroup e) s'
  | 6 =>
    let s := s.spareRow u
    if (s.rowsOut.filter fun e => decide (e.1 = u.unit) && decide (e.2.1 = u.place % 2 ^ 16)).length ≥ 33 then
      s.retireSoon ⟨5, u.unit, u.place % 2 ^ 16⟩ reason
    else s
  | 7 => s.updPort u.unit fun p => p.lose u.place
  | _ => s

/-- UNIT_RETIRE: the retirement is recorded, and then takes effect (R434). -/
def execUnitRetire (u : RetUnit) (reason : Nat) (s : State) : Out :=
  .next (if s.up ∧ RetUnit.ok u ∧ !s.recorded u ∧ s.mordant.recs.length < 2 ^ 20 then
      (s.appendRecords [(u, reason)]).retireNow u reason
    else s)

end Sys2Proof.Machine
end

