-- ==== Sys2Proof/Machine/Links.lean ====
section
/-!
DEFINITION. The Woreri ports: flits with their FEC and CRC (21 R400, R401), receipt, replay and flow control (R402, R403), and
the retraining of lanes (R404).
-/
namespace Sys2Proof.Machine

/-- The sender keeps what the receiver has not acknowledged (R402). -/
def Port.acked (p : Port) (seq : BitVec 12) : Port :=
  { p with replay := p.replay.filter fun e => decide ((e.seq - seq - 1).toNat < 2048) }

/-- The receiver's XOFF of a channel: set while 32 or fewer buffers are free, cleared once 48 are (R403). -/
def xoffFor (old : Bool) (held : Nat) : Bool := if 32 ≤ held then true else if held ≤ 16 then false else old

/-- XOFF of each channel as its buffers stand. -/
def Port.flow (p : Port) : Port :=
  { p with xoffOut := (List.range 4).foldl (fun x i =>
      if xoffFor (p.xoffOut.getLsbD i) ((p.rx.toList[i]?).getD []).length then x ||| (1 <<< i) else x) 0 }

/-- The upper layer has taken some of the oldest flits of each channel, by a free choice: so many at the least that one of the
channel's 64 buffers is free (R403). -/
def Port.drain (p : Port) (k : Nat) : Port :=
  { p with rx := p.rx.mapIdx fun i (l : List (List Byte)) => l.drop (max (l.length - 63) (Config.freeNat (k + i) % (l.length + 1))) }.flow

/-- A good flit in sequence reaches the upper layer's buffers, and its ACK and XOFF are taken. -/
def Port.takeFlit (p : Port) (f : List Nat) : Port :=
  let ack := flitWord f 6 2
  let vc := flitWord f 0 4 / 2 ^ 12 % 4
  let p := p.acked (BitVec.ofNat 12 ack)
  { p with
    lastGood := p.lastGood + 1
    sendNak := false
    fails := 0
    xoffIn := BitVec.ofNat 4 (flitWord f 4 2)
    rx := p.rx.mapIdx fun i l => if i = vc then l ++ [((f.drop 8).take 224).map (BitVec.ofNat 8)] else l }.flow

/-- A flit that fails, or comes out of sequence, is discarded; a flit of channel MGMT carries the NAK (log 34); after 16 replays the
port is retrained, without one of its active lanes. -/
def State.refuseFlit (s : State) (i : Nat) (p : Port) : State :=
  let s := (s.logQuiet 13 i 1 0).updPort i fun p => { p with sendNak := true, fails := if p.fails ≥ 16 then 0 else p.fails + 1 }
  let s := s.portOwe i 3 512
  if p.fails ≥ 16 then
    let (k, s) := s.draw
    let l := activeLanes p.lanes
    s.at_ s.cycle (.laneRetrain i ((l[k % max 1 l.length]?).getD 0))
  else s

/-! ### Corrected symbols (R404) -/

/-- The lane on which a port sends a byte of a flit: the bytes go round over the active lanes (log 36). -/
def laneOf (lost : List Nat) (i : Nat) : Nat :=
  let l := activeLanes lost
  (l[i % max 1 l.length]?).getD 0

/-- The symbols of a flit that its codes corrected are counted by lane. -/
def Port.sawFlit (p : Port) (raw fixed : List Nat) : Port :=
  let bad := (List.range 256).filter fun i => decide (gfCoeff raw i ≠ gfCoeff fixed i)
  { p with seen := p.seen + 1
           symbols := p.symbols.mapIdx fun n c => c + bad.countP fun i => decide (laneOf p.lanes i = n) }

/-- The active lanes whose rate of corrected symbols has passed the threshold as a window ends. -/
def Port.worn (p : Port) : List Nat :=
  if p.seen ≤ Config.laneWindow then []
  else (activeLanes p.lanes).filter fun n => decide (Config.laneThreshold < (p.symbols.toList[n]?).getD 0)
def Port.nextWindow (p : Port) : Port := if p.seen ≤ Config.laneWindow then p else { p with seen := 0, symbols := Vector.replicate 4 0 }

/-- The rates of a port's lanes after a flit: a lane that has passed the threshold is retired by retraining. -/
def State.lanesSeen (s : State) (i : Nat) (raw fixed : List Nat) : State :=
  let s := s.updPort i fun p => p.sawFlit raw fixed
  let l := (((s.ports.toList)[i]?).map Port.worn).getD []
  l.foldl (fun (s : State) n => s.at_ s.cycle (.laneRetrain i n)) (s.updPort i Port.nextWindow)

/-- The operation of an access from another module: it is performed like any access that reaches its home (18 R379), after earlier
ones of that kind to the same place; a home that faults it answers with the fault (R405). The layout of a payload is not given, so the
accesses come beside the flit (log 10). -/
def State.portOp (s : State) (port : Nat) (q : PortReq) : Option Op :=
  match accOf q.ins, Addr.of q.ea with
  | some a, .glob _ _ =>
    if a.go ∨ q.ea.toNat % a.size ≠ 0 ∨ 512 ≤ q.vd then none
    else
      let m : TileRef := ⟨2 ^ 64 + 1, q.vd⟩
      some { t := ⟨m.l, m.v, port⟩, tile := m, count := q.count, vd := q.vd, ins := q.ins, ea := q.ea, size := a.size, data := q.data, scope := .systemS
             cls := (match a.kind with | .load => .globalLoad | .store => .globalStore | .atomic => .globalAtomic)
             phase := if a.kind = .store then .sent else .waiting
             after := (s.ops.filter fun e => decide (e.2.tile = m) && decide (e.2.ea.toNat / 8 = q.ea.toNat / 8)).map Prod.fst }
  | _, _ => none

/-- The accesses that a flit of channel REQ or RED brings. -/
def State.portRequests (s : State) (port vc : Nat) : State :=
  match s.input with
  | .requests l =>
    if vc = 0 ∨ vc = 2 then
      l.foldl (fun (s : State) q => match s.portOp port q with | some o => s.launchOp o | none => s) s
    else s
  | _ => s

/-- WORERI_FLIT_RECEIVE (R402, R403). -/
def execWoreriFlitReceive (port : Nat) (flit : List Byte) (s : State) : Out :=
  .next (match (s.ports.toList)[port]? with
    | none => s
    | some p =>
      if !s.up ∨ p.width = 0 then s
      else
        let s := { s.updPort port (fun p => p.begin.drain s.fresh) with fresh := s.fresh + 4 }
        match openFlit (flit.map BitVec.toNat) with
        | none => s.refuseFlit port p
        | some f =>
          let seq : BitVec 12 := BitVec.ofNat 12 (flitWord f 0 4)
          if seq = p.lastGood + 1 then
            let nak := decide (flitWord f 6 2 / 2 ^ 12 % 2 = 1)
            let s := ((s.updPort port fun p => p.takeFlit f).lanesSeen port (flit.map BitVec.toNat) f).portRequests port
              (flitWord f 0 4 / 2 ^ 12 % 4)
            let s := s.portFlush port
            if nak then s.at_ s.cycle (.woreriNakReplay port ((flitWord f 6 2 + 1) % 4096)) else s
          else if (seq - p.lastGood - 1).toNat < 2048 then s.refuseFlit port p
          else s)

/-- The flits that a port has kept go onto the link again. -/
def Port.resend (p : Port) : Port := { p with out := p.replay.map p.flit }

/-- WORERI_NAK_REPLAY: the sender resends from a sequence on; what was sent before it has been received (R402). -/
def execWoreriNakReplay (port : Nat) (seq : Nat) (s : State) : Out :=
  .next (if s.up then (s.logQuiet 13 port 1 0).updPort port fun p => (p.acked (BitVec.ofNat 12 seq - 1)).resend else s)

/-- LANE_RETRAIN: an active lane is retired, at once, and the port trains narrower (R404; 23 R434). -/
def execLaneRetrain (port lane : Nat) (s : State) : Out :=
  .next (match (s.ports.toList)[port]? with
    | none => s
    | some p =>
      if !s.up ∨ !(activeLanes p.lanes).contains lane then s
      else if s.recorded ⟨7, port, lane⟩ then s.updPort port fun p => p.lose lane
      else s.retireSoon ⟨7, port, lane⟩ 4)

end Sys2Proof.Machine
end

