-- ==== Sys2Proof/Machine/Host.lean ====
section
/-!
DEFINITION. What the host does to the module over the primary port: the link, queues and doorbells (21 R389, R393 to R395), the
window onto a VD's space (R396), and the physical function's registers (R390 to R392; 18 R360 to R363, R370; R406, R410,
R412), with the values that read back.
-/
namespace Sys2Proof.Machine

/-! ### The links of the host ports (R389) -/

/-- The host port that a link event concerns: the primary one, unless the event names another. -/
def State.portNamed (s : State) : Nat := match s.input with | .hostPort p => p % 4 | _ => s.primary

/-- HOST_LINK_DOWN: launches run on; what comes over the primary link waits. Copies find another port's link down (R399). -/
def execHostLinkDown (s : State) : Out :=
  .next (if s.portNamed = s.primary then { s with linkUp := false }
    else { s with portsDown := setInsert s.portsDown s.portNamed })

/-- HOST_LINK_UP: what waited goes on, in its order, and waiting interrupts go out. -/
def execHostLinkUp (s : State) : Out :=
  .next (if s.portNamed = s.primary then
      { s with linkUp := true, linkQueue := [], msix := [], msixOut := s.msixOut ++ s.msix
               inputs := (s.linkQueue.map fun e => (s.cycle, e.1, e.2)) ++ s.inputs }
    else { s with portsDown := setErase s.portsDown s.portNamed })

/-! ### Queues (R393 to R395) -/

/-- A doorbell: the new tail, or a refusal that QERR counts. -/
def Queue.doorbell (x : Queue) (q : Nat) (t : Word) : Queue :=
  if q = 3 ∨ x.qbase = 0 ∨ 2 ^ x.qlog < (t - x.qhead).toNat then { x with qerr := satInc x.qerr }
  else { x with tail := t }

/-- The writes through a VD's window that are outstanding: what a doorbell names now is read after them (R394). -/
def State.holdWrites (s : State) (vd : Nat) : State :=
  let mine (o : Op) : Bool := decide (o.cls = .hostAccess) && decide (o.vd = vd) && (match o.ins with | .hostWindowWrite => true | _ => false)
  { s with ops := s.ops.map fun e => if mine e.2 then (e.1, { e.2 with line := 1 }) else e }

/-- QTAIL_DOORBELL. -/
def execQtailDoorbell (s : State) : Out :=
  .next (s.overLink .qtailDoorbell fun s =>
    match s.input with
    | .doorbell vd q t => if vd < 512 ∧ q < 4 then (s.updQueue vd q fun x => x.doorbell q t).holdWrites vd else s
    | _ => s)

/-- A write of QBASE (0), QLOG (1) or QVEC (2). The first two are discarded while QHEAD differs from the tail. The spec gives no
outcome for a QBASE that is not aligned, nor for a QLOG outside 4 to 16: the register then holds a free value that it may hold. -/
def Queue.config (x : Queue) (reg : Nat) (v : DWord) (k : Nat) : Queue :=
  match reg with
  | 0 =>
    if x.qhead ≠ x.tail then x
    else { x with qbase := if v.toNat % 4096 = 0 then v else BitVec.ofNat 64 (k * 4096) }
  | 1 =>
    if x.qhead ≠ x.tail then x
    else
      let n := v.toNat % 32
      { x with qlog := if 4 ≤ n ∧ n ≤ 16 then n else 4 + k % 13 }
  | 2 => { x with qvec := v.getLsbD 0 }
  | _ => x

/-- QUEUE_CONFIG_WRITE. A ring that queue 3 is given takes the LNCHs that wait at the rim (R395). -/
def execQueueConfigWrite (s : State) : Out :=
  .next (s.overLink .queueConfigWrite fun s =>
    match s.input with
    | .queueCfg vd q reg v =>
      if vd < 512 ∧ q < 4 then
        let (k, s) := s.draw
        let s := s.updQueue vd q fun x => x.config reg v k
        if q = 3 then (s.updVd vd Vd.keepGifts).ringNext vd else s
      else s
    | _ => s)

/-! ### The window (R396) -/

/-- An access of the host through a VD's window: it follows the VD's earlier window accesses that meet it. -/
def State.hostAccess (s : State) (i : Instr) (vd addr n : Nat) (bs : List Byte) : State :=
  if 512 ≤ vd ∨ 2 ^ 42 < addr + n then s
  else
    let after := (s.ops.filter fun e => decide (e.2.cls = .hostAccess) && decide (e.2.vd = vd) &&
      decide (e.2.unit < addr + n) && decide (addr < e.2.unit + e.2.size)).map Prod.fst
    let o : Op :=
      { t := ⟨2 ^ 64, vd, 0⟩, tile := ⟨2 ^ 64, vd⟩, vd, cls := .hostAccess, ins := i, unit := addr, size := n, data := bs
        ea := BitVec.ofNat 64 (addr / 2 ^ 36 * 2 ^ 52 + addr % 2 ^ 36), scope := .systemS, after, arrived := s.nextId }
    let id := s.nextId
    let s := { s with ops := s.ops ++ [(id, o)], nextId := id + 1 }
    if after = [] then s.hostDo id o else s

/-- HOST_WINDOW_READ: the data goes to the host with the access's completion. -/
def execHostWindowRead (s : State) : Out :=
  .next (s.overLink .hostWindowRead fun s =>
    match s.input with
    | .winRead vd addr n => s.hostAccess .hostWindowRead vd addr n []
    | _ => s)

/-- HOST_WINDOW_WRITE. -/
def execHostWindowWrite (s : State) : Out :=
  .next (s.overLink .hostWindowWrite fun s =>
    match s.input with
    | .winWrite vd addr bs => s.hostAccess .hostWindowWrite vd addr bs.length bs
    | _ => s)

/-! ### The pool table (18 R360 to R362; 21 R391) -/

/-- Whether a VD has a launch that has been accepted and has not completed. -/
def State.vdBusy (s : State) (vd : Nat) : Bool := s.launches.any fun e => decide (e.2.vd = vd) && decide (e.2.phase ≠ .ended)
/-- The VDs bound to a pool. -/
def State.boundTo (s : State) (pool : Nat) : List Nat :=
  (s.vds.filter fun e => e.2.en && decide (e.2.pool = pool)).map Prod.fst
def Pool.rowCount (p : Pool) : Nat := (List.range 1024).countP fun i => p.rows.getLsbD i

/-- Slice ranges that meet. -/
def Pool.slicesMeet (p q : Pool) : Bool :=
  decide (0 < p.wsn) && decide (0 < q.wsn) && decide (p.wsbase < q.wsbase + q.wsn) && decide (q.wsbase < p.wsbase + p.wsn)

/-- The code of R391 with which a pool record is refused: the lowest that applies; 0 when it is accepted. A row without a live tile is
one without a tile in the numbering of this boot (18 R362; 23 R435). -/
def State.poolCode (s : State) (i : Nat) (p : Pool) : Nat :=
  let old := s.poolRec i
  let others := s.pools.filter fun e => decide (e.1 ≠ i)
  if others.any fun e => decide (e.2.rows &&& p.rows ≠ 0) then 1
  else if p.wsbase + p.wsn > 64 ∨ others.any (fun e => p.slicesMeet e.2 && p.fields.any e.2.hasField) then 2
  else if (p.rows ≠ old.rows ∨ p.wsn ≠ old.wsn ∨ p.wsbase ≠ old.wsbase) ∧ (s.boundTo i).any s.vdBusy then 3
  else if 0 < p.rowCount ∧ 8 * p.rowCount < (s.boundTo i).length then 4
  else if p.fields.any fun f => (List.range 16).any fun r => p.hasRow f r && (rowPlaces f r).all fun x => !s.numbered x then 6
  else 0

/-- A write of a pool record: ROWS (0) or WS (1). -/
def Pool.written (p : Pool) (reg val : Nat) : Pool :=
  match reg with
  | 0 => { p with rows := BitVec.ofNat 1024 val }
  | 1 => { p with wsn := val / 2 ^ 8 % 128, wsbase := val % 128 }
  | _ => p

/-- POOL_TABLE_WRITE. -/
def execPoolTableWrite (s : State) : Out :=
  .next (s.overLink .poolTableWrite fun s =>
    match s.input with
    | .table i reg val =>
      if i < 64 ∧ reg < 2 then
        let p := (s.poolRec i).written reg val
        let c := s.poolCode i p
        let s := { s with cmdstat := BitVec.ofNat 32 c }
        if c = 0 then { s with pools := s.pools.set i p } else s
      else s
    | _ => s)

/-! ### The VD table (18 R363; 11 R281) -/

/-- The fields of VCTL as they read back. -/
def Vd.control (v : Vd) (val : Nat) : Vd :=
  let cap := val / 2 ^ 16 % 128
  { v with pool := val % 64, en := decide (val / 2 ^ 6 % 2 = 1), weight := val / 2 ^ 8 % 256
           cap := if cap = 0 ∨ 100 < cap then 100 else cap }

/-- The code with which a write of VCTL is refused. -/
def State.vdCode (s : State) (i : Nat) (v : Vd) : Nat :=
  let p := s.poolRec v.pool
  if v.pool ≠ (s.vdRec i).pool ∧ s.vdBusy i then 3
  else if v.en ∧ 0 < p.rowCount ∧ 8 * p.rowCount < ((s.boundTo v.pool).filter fun x => decide (x ≠ i)).length + 1 then 4
  else 0

/-- Threads that a debug session stopped, or a captured BKPT of its VD, go on; their pending steps are withdrawn (12 R306; 21
R412). -/
def State.detachSlot (s : State) (vd : Nat) (slot : Option Nat) : State :=
  { s with threads := s.threads.map fun e =>
      if e.2.stopped ∧ s.vdOf e.1.l = vd ∧ (slot = none ∨ e.2.stopSlot = none ∨ e.2.stopSlot = slot) then
        (e.1, { e.2 with stopped := false, stepPending := false, stopSlot := none })
      else e }

/-- The sessions of a kind end: each is a DETACH of every thread that it stopped (21 R412). -/
def State.endSessions (s : State) (p : Session → Bool) : State :=
  (s.sessions.filter p).foldl (fun (s : State) x => s.detachSlot x.vd (some x.slot))
    { s with sessions := s.sessions.filter fun x => !p x }

/-- VD_TABLE_WRITE: VCTL (0), or the scope policy register (1). A change of EN or POOL ends the VD's debug sessions (21
R412). -/
def execVdTableWrite (s : State) : Out :=
  .next (s.overLink .vdTableWrite fun s =>
    match s.input with
    | .table i reg val =>
      if 512 ≤ i then s
      else match reg with
        | 0 =>
          let old := s.vdRec i
          let v := old.control val
          let c := s.vdCode i v
          let s := { s with cmdstat := BitVec.ofNat 32 c }
          if c ≠ 0 then s
          else
            let s := if v.en ≠ old.en ∨ v.pool ≠ old.pool then s.endSessions fun x => decide (x.vd = i) else s
            s.updVd i fun _ => v
        | 1 => { s.updVd i (fun v => { v with scope := BitVec.ofNat 2 val }) with cmdstat := 0 }
        | _ => s
    | _ => s)

/-! ### NETCTL, ROUTE, DBGCERT and the other registers -/

/-- NETCTL_WRITE: S, held to 16 to 256 (18 R370). -/
def execNetctlWrite (s : State) : Out :=
  .next (s.overLink .netctlWrite fun s =>
    match s.input with
    | .word w => { s with netctl := max 16 (min 256 (w.toNat % 512)) }
    | _ => s)

/-- ROUTE_WRITE: one of the 1,024 entries (21 R406). -/
def execRouteWrite (s : State) : Out :=
  .next (s.overLink .routeWrite fun s =>
    match s.input with
    | .table i _ val =>
      let v : Word := BitVec.ofNat 32 val
      let v := if i % 4 = 0 then v else v &&& 0xFFFF0000
      { s with route := s.route.mapIdx fun j x => if j = i then v else x }
    | _ => s)

/-- DBGCERT_WRITE: the digest (0) or the word (1) of a slot; its sessions end (21 R410, R412). -/
def execDbgcertWrite (s : State) : Out :=
  .next (s.overLink .dbgcertWrite fun s =>
    match s.input with
    | .table i reg val =>
      if 8 ≤ i then s
      else
        let s := s.endSessions fun x => decide (x.slot = i)
        { s with dbgcert := s.dbgcert.mapIdx fun j x =>
            if j ≠ i then x
            else match reg with
              | 0 => { x with digest := val % 2 ^ 256 }
              | 1 => { x with vd := val % 512, en := decide (val / 2 ^ 31 % 2 = 1) }
              | _ => x }
    | _ => s)

/-- A write of CMD (R391). -/
def State.command (s : State) (v : DWord) : State :=
  let s := { s with cmd := v }
  match v.toNat % 16 with
  | 1 => s.killLid (v.toNat / 2 ^ 16 % 512) (v.extractLsb' 32 32)
  | 2 => s.killVd (v.toNat / 2 ^ 16 % 512)
  | _ => { s with cmdstat := 5 }

/-- REGISTER_WRITE: MODID, 8 bytes of INJALLOW, or CMD, by the physical function (0); every other write is discarded (R390). -/
def execRegisterWrite (s : State) : Out :=
  .next (s.overLink .registerWrite fun s =>
    match s.input with
    | .reg fn off v =>
      if fn ≠ 0 then s
      else if off = 0x8004 then { s with modid := v.extractLsb' 0 16 }
      else if 0x8040 ≤ off ∧ off < 0x8080 ∧ off % 8 = 0 then
        let k := 8 * (off - 0x8040)
        { s with injallow := (s.injallow &&& ~~~((0xFFFFFFFFFFFFFFFF : BitVec 512) <<< k)) ||| (v.setWidth 512 <<< k) }
      else if off = 0x8100 then s.command v
      else s
    | _ => s)

/-! ### Values that read back -/

/-- PSTAT of a pool (18 R360). -/
def State.pstat (s : State) (i : Nat) : Word :=
  BitVec.ofNat 32 (s.liveOf (s.poolRec i) + (s.boundTo i).length * 2 ^ 16)

/-- VCTL as it reads back (18 R363). -/
def Vd.vctl (v : Vd) : Word :=
  BitVec.ofNat 32 (v.pool % 64 + (if v.en then 64 else 0) + v.weight % 256 * 2 ^ 8 + v.cap % 128 * 2 ^ 16)

/-- VSTAT: RUNNABLE, OWED, CAPPED, BOOST. -/
def State.vstat (s : State) (i : Nat) : Word :=
  let v := s.vdRec i
  BitVec.ofNat 32 ((if s.vdRunnable i then 1 else 0) + (if v.owed then 2 else 0) + (if s.isCapped i then 4 else 0) +
    (if v.boostUntil.isSome then 8 else 0))

/-- BOOTSTAT (23 R441). -/
def State.bootstat (s : State) : Word := BitVec.ofNat 32 (s.bootStep % 16 + s.bootState % 16 * 2 ^ 8)

/-- Live tiles, and the grade that they give: 1 A, 2 B, 3 C, 0 below (23 R438). -/
def State.liveCount (s : State) : Nat := numTiles - s.numberOut.length - (s.tileState.filter fun e => decide (e.2 = 2) && s.numbered e.1).length
def gradeOf (n : Nat) : Nat := if 16128 ≤ n then 1 else if 15872 ≤ n then 2 else if 15360 ≤ n then 3 else 0

/-- The configuration descriptor's fields (23 R437): a tile's state, a group, a slice, a port's width, a budget. -/
def State.tileCode (s : State) (p : Nat) : Nat := (s.tileState.get? p).getD 0
def State.pcgBit (s : State) (h g : Nat) : Bool := s.pcgOut.contains (h, g)
def State.sliceBit (s : State) (f x : Nat) : Bool := s.sliceOut.contains (f, x)
def State.portCode (s : State) (p : Nat) : Nat :=
  match ((s.ports.toList)[p]?).map Port.width with | some 4 => 0 | some 2 => 1 | some 1 => 2 | _ => 3
def State.budgetBit (s : State) (f : Nat) : Bool := s.budgetOut.contains f

end Sys2Proof.Machine
end

