-- ==== Sys2Proof/Machine/Debug.lean ====
section
/-!
DEFINITION. The debug function: sessions (21 R410, R412), stopping and stepping (12 R305, R306), breakpoint capture (05 R138),
reads and writes of a VD's state (21 R411; 12 R302; 02 R27 to R32).
-/
namespace Sys2Proof.Machine

/-! ### Images and trap banks as bytes (02 R27 to R32) -/

/-- The 128 bytes of a thread's image (R27). -/
def Thread.image (t : Thread) : List Byte :=
  t.g.toList.flatMap (fun w => leBytes w.toNat 4) ++ leBytes t.pc.toNat 8 ++ leBytes t.statusWord.toNat 4 ++ leBytes t.fpctl.toNat 4 ++
    t.tok.toList.map (fun k => BitVec.ofNat 8 k.value) ++ leBytes t.pend.toNat 2 ++ leBytes t.flagsWord.toNat 2 ++ leBytes t.homev.toNat 4 ++
    leBytes t.irpc.toNat 8 ++ leBytes t.rethdr.toNat 8 ++ leBytes t.lane.toNat 4 ++ leBytes 0 4

/-- A thread whose image is written. At another pc no block is current (03 R66). TL is never 3: such a write leaves it. A
token whose byte is as it reads keeps the posts of this cycle. -/
def Thread.setImage (t : Thread) (d : List Byte) : Thread :=
  let st := leField d 0x48 4
  let fl := leField d 0x62 2
  let pc := addrField d 0x40
  { t with
    g := Vector.ofFn fun i => BitVec.ofNat 32 (leField d (4 * i.val) 4)
    pc
    block := if pc = t.pc then t.block else none
    arrive := if pc = t.pc then t.arrive else 0
    trip := []
    tovf := BitVec.ofNat 16 (st / 2 ^ 16)
    rst := decide (st / 8 % 2 = 1)
    uwchk := decide (st / 4 % 2 = 1)
    tl := if st % 4 = 3 then t.tl else st % 4
    fpctl := BitVec.ofNat 32 (leField d 0x4C 4) &&& fpctlMask
    tok := Vector.ofFn fun i => let n := leField d (0x50 + i.val) 1; if n = t.tok[i].value then t.tok[i] else { count := n }
    pend := BitVec.ofNat 16 (leField d 0x60 2)
    sigTok := BitVec.ofNat 4 (fl / 16)
    sigEn := decide (fl / 8 % 2 = 1)
    away := decide (fl / 4 % 2 = 1)
    exitedF := decide (fl / 2 % 2 = 1)
    lead := decide (fl % 2 = 1)
    homev := BitVec.ofNat 24 (leField d 0x64 4)
    irpc := addrField d 0x68
    rethdr := addrField d 0x70
    lane := BitVec.ofNat 32 (leField d 0x78 4) }

/-- The 96 bytes of a trap bank, and a bank written (R32). -/
def Thread.bank (t : Thread) : List Byte := t.half1.bytes ++ t.half2.bytes
def halfOf (d : List Byte) : TrapHalf :=
  { tpc := addrField d 0x00, tval := addrField d 0x08, taux := addrField d 0x10, tinst := addrField d 0x18
    tscL := BitVec.ofNat 32 (leField d 0x20 4), tscH := BitVec.ofNat 32 (leField d 0x24 4)
    tcause := BitVec.ofNat 32 (leField d 0x28 1) }
def Thread.setBank (t : Thread) (d : List Byte) : Thread :=
  { t with half1 := halfOf (d.take 48), half2 := halfOf (d.drop 48), entered := true }

/-- Bytes put over others from an offset on. -/
def overlay (d : List Byte) (off : Nat) (bs : List Byte) : List Byte :=
  d.mapIdx fun i b => if off ≤ i then (bs[i - off]?).getD b else b

/-- The privileged special registers of the first-exception record (12 R302). -/
def VTile.fxReg (v : VTile) (i : Nat) : Word :=
  if i = 0x860 then BitVec.ofNat 32 (v.fx.length + (if v.fxOvf then 16 else 0))
  else match v.fx[(i - 0x840) / 4]? with
    | none => 0
    | some e =>
      match (i - 0x840) % 4 with
      | 0 => BitVec.ofNat 32 e.seq
      | 1 => BitVec.ofNat 32 (e.cause % 256 + e.thid % 64 * 2 ^ 8)
      | 2 => e.tval.lo
      | _ => e.tval.hi

/-! ### Sessions (21 R410, R412) -/

def timeoutCycles : Nat := 2 ^ 31

/-- SPDM_SESSION_ESTABLISH: a requester that has authenticated with a chain whose digest an enabled slot holds for that VD. -/
def execSpdmSessionEstablish (s : State) : Out :=
  .next (s.overLink .spdmSessionEstablish fun s =>
    match s.input with
    | .spdm digest ok vd =>
      match (List.range 8).find? fun i => match s.dbgcert.toList[i]? with
          | some c => c.en && decide (c.digest = digest) && decide (c.vd = vd)
          | none => false with
      | some i =>
        if ok then
          ({ s with hostOut := s.idCert, sessions := (s.sessions.filter fun (x : Session) => decide (x.slot ≠ i)) ++ [Session.mk i vd s.cycle [] 0] }).at_
            (s.cycle + timeoutCycles) .sessionTimeout
        else s
      | none => s
    | _ => s)

/-- Whether what a command is about is the VD's own. -/
def State.targetVd (s : State) (vd : Nat) : DbgTarget → Bool
  | .thread t => decide (s.vdOf t.l = vd) && (s.launch? t.l).isSome
  | .tile v => decide (s.vdOf v.l = vd) && (s.launch? v.l).isSome
  | .gang l _ => decide (s.vdOf l = vd) && (s.launch? l).isSome
  | .launch l => decide (s.vdOf l = vd) && (s.launch? l).isSome

/-- The threads that a command names. -/
def State.targetThreads (s : State) : DbgTarget → List TRef
  | .thread t => [t]
  | .tile v => (s.tileThreads v).map Prod.fst
  | .gang l g => (s.gangThreads l g).map Prod.fst
  | .launch _ => []

/-- The answer of a command. -/
def State.answer (s : State) (slot status : Nat) (out : List Byte) : State :=
  { s with sessions := s.sessions.map fun x => if x.slot = slot then { x with status, out } else x }

/-- A message of a session: its answer so far, and the time from which it may end. -/
def State.message (s : State) (slot : Nat) : State :=
  let touch (x : Session) : Session := if x.slot = slot then { x with lastMsg := s.cycle, status := 0, out := [] } else x
  { s with sessions := s.sessions.map touch, spdmError := none }.at_ (s.cycle + timeoutCycles) .sessionTimeout

/-- A command in a session: refused without one (SessionRequired), and with status 2 for another VD (21 R411, R412). -/
def State.debugCmd (s : State) (i : Instr) (f : Nat → DbgTarget → Nat → Nat → Nat → List Byte → State → State) : State :=
  s.overLink i fun s =>
    match s.input with
    | .debug slot vd tg space off n bs =>
      match s.sessions.find? fun x => decide (x.slot = slot) with
      | none => { s with spdmError := some slot }
      | some x =>
        let s := s.message slot
        if x.vd ≠ vd ∨ !s.targetVd vd tg then s.answer slot 2 [] else f slot tg space off n bs s
    | _ => s

/-! ### Stop and step (12 R305, R306) -/

/-- Whether a thread is blocked at an instruction that has not issued. -/
def State.blockedIn (s : State) (r : TRef) (t : Thread) : Bool := t.blockedAt (s.isDet r.l) && decide (t.run ≠ .ready)

/-- The instruction is abandoned, with what a TRIP vote has taken of it (12 R299). -/
def Thread.quitTry (t : Thread) (blocked : Bool) : Thread := if blocked then { t with run := .ready, trip := [] } else t

/-- A thread stops between issues. An instruction at which it is blocked, which has not issued, is abandoned (12 R299). When it goes
on, it has no current block (03 R66). -/
def State.stopThread (s : State) (slot : Nat) (r : TRef) : State :=
  match s.thread? r with
  | none => s
  | some t =>
    if t.stopped then s
    else
      let b := s.blockedIn r t
      (if b then s.leaveLine r else s).updThread r fun t => { t.quitTry b with stopped := true, stopSlot := some slot, block := none }

def execDebugStop (s : State) : Out :=
  .next (s.debugCmd .debugStop fun slot tg _ _ _ _ s => (s.targetThreads tg).foldl (fun (s : State) r => s.stopThread slot r) s)

/-- DEBUG_STEP: a stopped thread may make one move. -/
def execDebugStep (s : State) : Out :=
  .next (s.debugCmd .debugStep fun _ tg _ _ _ _ s =>
    (s.targetThreads tg).foldl (fun (s : State) r => s.updThread r fun t => if t.stopped then { t with stepPending := true } else t) s)

/-- DEBUG_WITHDRAW: a step still pending is withdrawn, and an instruction that blocks under it is abandoned. -/
def execDebugWithdraw (s : State) : Out :=
  .next (s.debugCmd .debugWithdraw fun _ tg _ _ _ _ s =>
    (s.targetThreads tg).foldl (fun (s : State) r =>
      match s.thread? r with
      | none => s
      | some t =>
        if t.stopped ∧ t.stepPending then
          let b := s.blockedIn r t
          (if b then s.leaveLine r else s).updThread r fun t => { t.quitTry b with stepPending := false }
        else s) s)

/-- A stepped thread stops again. After a trap entry its pc is at the handler's first instruction: it has passed the header that
stands at the vector, if a good one does (12 R305). -/
def State.stopAgain (s : State) (old t : Thread) (r : TRef) : Thread :=
  let t := if old.tl < t.tl then
      match s.fetchWord (s.vdOf r.l) t.pc with
      | .word w => if opOf w = 0xFF ∧ !hdrBad w then t.enterBlock w s.nextId else t
      | _ => t
    else t
  { t with stepPending := false, block := none }

/-- Whether the instruction that a thread has issued keeps its step open: a floating-point word held under SEN, whose trap may still come
(05 R128), an entry that waits for its results, and an MMG until the line releases it (R305). -/
def State.stepOpen (s : State) (r : TRef) (t : Thread) : Bool :=
  t.fpHold.isSome || (match t.run with | .trapDrain .. => true | _ => false) ||
    s.ops.any fun e => decide (e.2.t = r) && (e.2.buffered || decide (e.2.phase = .parked)) &&
      (match e.2.ins with | .mmg .. => true | _ => false)

/-- The number of the chunk that a lane runs or would begin: a rollback lowers it, and undoes the move of a step. -/
def State.laneAt (s : State) (r : TRef) : Nat := ((s.lanes.get? r).map fun l => l.number + l.chunks.length).getD 0

/-- The end of a step: a stopped thread whose step has issued an instruction, entered a trap or taken a report is stopped
again. `old` is the state before the move. -/
def State.endSteps (old s : State) : State :=
  if s.threads.any fun e => e.2.stepPending then
    { s with
      nextId := s.nextId + 1
      threads := s.threads.map fun e =>
        match old.thread? e.1 with
        | some t =>
          if e.2.stepPending ∧ t.stepPending ∧ !s.stepOpen e.1 e.2 ∧ old.laneAt e.1 ≤ s.laneAt e.1 ∧
              (e.2.instret ≠ t.instret ∨ t.tl < e.2.tl ∨ e.2.rcnt ≠ t.rcnt ∨ old.stepOpen e.1 t) then
            (e.1, s.stopAgain t e.2 e.1)
          else e
        | none => e }
  else s

/-- DETACH: every stopped thread of the tenant goes on (12 R306). It names its VD as every command does, and no target. -/
def execDetach (s : State) : Out :=
  .next (s.overLink .detach fun s =>
    match s.input with
    | .debug slot vd .. =>
      match s.sessions.find? fun x => decide (x.slot = slot) with
      | none => { s with spdmError := some slot }
      | some x =>
        let s := s.message slot
        if x.vd ≠ vd then s.answer slot 2 [] else s.detachSlot x.vd none
    | _ => s)

/-- END_SESSION. -/
def execEndSession (s : State) : Out :=
  .next (s.overLink .endSession fun s =>
    match s.input with
    | .session slot =>
      if s.sessions.any fun x => decide (x.slot = slot) then s.endSessions fun x => decide (x.slot = slot)
      else { s with spdmError := some slot }
    | _ => s)

/-- SESSION_TIMEOUT: sessions without a message for 2^31 cycles end. -/
def execSessionTimeout (s : State) : Out :=
  .next (s.endSessions fun x => decide (x.lastMsg + timeoutCycles ≤ s.cycle))

/-! ### Breakpoint capture (05 R138) -/

def State.arm (s : State) (on : Bool) : DbgTarget → State
  | .launch l => s.updLaunch l fun ln => { ln with armed := on }
  | _ => s
def execDebugArm (s : State) : Out := .next (s.debugCmd .debugArm fun _ tg _ _ _ _ s => s.arm true tg)
def execDebugDisarm (s : State) : Out := .next (s.debugCmd .debugDisarm fun _ tg _ _ _ _ s => s.arm false tg)

/-! ### READ and WRITE (21 R411) -/

/-- A tile is stopped when its threads are. -/
def State.tileStopped (s : State) (v : TileRef) : Bool := (s.tileThreads v).all fun e => e.2.stopped

/-- What READ returns. The spaces: 0 image, 1 trap bank, 2 special registers by index, 3 scratchpad, 4 slots, 5 accumulators, 6
park queue (log 23). Of a gang the first virtual tile is read. -/
def State.debugGet (s : State) (tg : DbgTarget) (space off n : Nat) : List Byte :=
  let tile : TileRef := match tg with | .thread t => t.tile | .tile v => v | .gang l g => ((s.gangMembers l g).head?).getD ⟨l, 0⟩ | .launch l => ⟨l, 0⟩
  let v := (s.tile? tile).getD {}
  match space, tg with
  | 0, .thread t => (((s.thread? t).map Thread.image).getD []).drop off |>.take n
  | 1, .thread t => (((s.thread? t).map Thread.bank).getD []).drop off |>.take n
  | 2, .thread t =>
    match s.thread? t with
    | none => []
    | some x => (List.range (n / 4)).flatMap fun i =>
        leBytes (if 0x840 ≤ off + i then v.fxReg (off + i) else s.special t x (off + i)).toNat 4
  | 3, _ => v.spad.readN off n
  | 4, _ => ((v.slots.toList)[off / 16384]?.map fun x => x.mem.readN (off % 16384) n).getD []
  | 5, _ => (List.range (n / 8)).flatMap fun i =>
      leBytes (((v.acc.toList)[(off / 8 + i) / 8192]?.map fun a => (a.at_ ((off / 8 + i) % 8192)).toNat).getD 0) 8
  | 6, _ => ((v.park.flatMap fun id => ((s.op? id).map Op.data).getD []).drop off).take n
  | _, _ => []

def execDebugRead (s : State) : Out :=
  .next (s.debugCmd .debugRead fun slot tg space off n _ s => s.answer slot 0 (s.debugGet tg space off n))

/-- WRITE: image, trap bank, scratchpad, and the OVF bit of FXSTAT (space 7, cleared by a 0); status 3 when the thread or tile is
not stopped, and for a space that WRITE does not reach at its target. -/
def State.debugPut (s : State) (slot : Nat) (tg : DbgTarget) (space off : Nat) (bs : List Byte) : State :=
  match space, tg with
  | 0, .thread r =>
    match s.thread? r with
    | some t => if t.stopped then s.setThread r (t.setImage (overlay t.image off bs)) else s.answer slot 3 []
    | none => s.answer slot 3 []
  | 1, .thread r =>
    match s.thread? r with
    | some t => if t.stopped then s.setThread r (t.setBank (overlay t.bank off bs)) else s.answer slot 3 []
    | none => s.answer slot 3 []
  | 3, .tile v => if s.tileStopped v ∧ off + bs.length ≤ 2 ^ 20 then s.spadWrite v off bs none else s.answer slot 3 []
  | 7, .tile v =>
    if s.tileStopped v then (if leNat bs / 16 % 2 = 0 then s.updTile v fun t => { t with fxOvf := false } else s)
    else s.answer slot 3 []
  | _, _ => s.answer slot 3 []

def execDebugWrite (s : State) : Out :=
  .next (s.debugCmd .debugWrite fun slot tg space off _ bs s => s.debugPut slot tg space off bs)

end Sys2Proof.Machine
end

