-- ==== Sys2Proof/Machine/Life.lean ====
section
/-!
DEFINITION. The module's own life: the boot (23 R432, R435, R437, R439 to R441), loss of power (R432), monitors and the power
governor (R442 to R444).
-/
namespace Sys2Proof.Machine

/-! ### What the records make of the module (R431 to R437) -/

def sortNat (l : List Nat) : List Nat := l.foldl setInsert []

/-- The records of a kind. -/
def ofKind (k : Nat) (l : List MRec) : List MRec := l.filter fun r => decide (r.kind = k)

/-- The tiles that records name. -/
def namedTiles (l : List MRec) : List Nat := sortNat ((l.filter fun r => decide (r.kind ≤ 3)).map MRec.unit)

/-- The tiles whose routers are retired too: WHERE bit 0 of the first record that names the tile (R431, R436). -/
def deadRouters (l : List MRec) : List Nat :=
  sortNat (((ofKind 1 l).map MRec.unit).filter fun p =>
    (((ofKind 1 l).find? fun r => decide (r.unit = p)).map fun r => decide (r.place % 2 = 1)).getD false)

/-- Numbering, banks, groups, slices, rows, lanes and budgets as the records give them at a boot. -/
def State.configured (s : State) : State :=
  let l := s.mordant.recs
  let ts := namedTiles l
  let budgets := sortNat ((ofKind 8 l).map MRec.unit)
  { s with
    numberOut := ts.filter fun p => decide (recordedState l p = 2)
    tileState := (ts.filter fun p => decide (recordedState l p ≠ 0)).map fun p => (p, recordedState l p)
    detours := detoursFor (deadRouters l)
    bankOut := ts.flatMap fun p => recordedBanks l p
    pcgOut := ((ofKind 4 l).map fun r => (r.unit, r.place)).eraseDups
    sliceOut := ((ofKind 5 l).map fun r => (r.unit, r.place)).eraseDups
    rowsOut := ((ofKind 6 l).map fun r => (r.unit, r.place % 2 ^ 16, r.place / 2 ^ 16)).eraseDups
    budgetOut := budgets
    fields := s.fields.mapIdx fun i f => if budgets.contains i then { f with nombud := 240, curbud := 240 } else f
    ports := s.ports.mapIdx fun i p => ((ofKind 7 l).filter fun r => decide (r.unit = i)).foldl (fun p r => p.lose r.place) p }

/-! ### The boot (R439) -/

/-- March C− on a row (R440): the backgrounds, what its five reads expect under one, and whether a read differs. What the row delivers
is free; `k` tells the tests apart. -/
def marchBackgrounds : List (BitVec 256) := [0, BitVec.ofNat 256 ((2 ^ 256 - 1) / 3)]
def marchExpects (d : BitVec 256) : List (BitVec 256) := [d, ~~~d, d, ~~~d, d]
def marchFails (k : Nat) : Bool :=
  marchBackgrounds.any fun d => (marchExpects d).zipIdx.any fun e => decide (e.1 ^^^ Config.cellFault k d e.2 ≠ e.1)

/-- A unit under test, by a free choice: a tile, for its context store and its other SRAMs; a scratchpad bank; a pseudo-channel group; a
row of the weight store. -/
def freeUnit (k : Nat) : RetUnit :=
  let n := Config.freeNat (k + 2)
  match Config.freeNat k % 5 with
  | 0 => ⟨1, Config.freeNat (k + 1) % numTiles, n % 2⟩
  | 1 => ⟨2, Config.freeNat (k + 1) % numTiles, n % 16⟩
  | 2 => ⟨3, Config.freeNat (k + 1) % numTiles, n % 4⟩
  | 3 => ⟨4, Config.freeNat (k + 1) % 64, n % 64⟩
  | _ => ⟨6, Config.freeNat (k + 1) % 64, n % 64 + n / 64 % 8192 * 2 ^ 16⟩

/-- The slice of an eDRAM row. -/
def sliceOfRow (u : RetUnit) : RetUnit := ⟨5, u.unit, u.place % 2 ^ 16⟩

/-- Whether a boot tests a unit: neither its retirement is recorded nor that of what it is a part of (R434, R439). -/
def State.tested (s : State) (u : RetUnit) : Bool :=
  !s.recorded u && (decide (3 < u.kind) || decide (recordedState s.mordant.recs u.unit ≠ 2)) &&
    (decide (u.kind ≠ 6) || !s.recorded (sliceOfRow u))

/-- Whether the test of a unit fails: BIST and the pass over a group are free, banks and rows of the weight store run March C−. -/
def testFails (k : Nat) (u : RetUnit) : Bool :=
  if u.kind = 1 ∨ u.kind = 4 then true else marchFails k

/-- Each unit once. -/
def distinctUnits (l : List RetUnit) : List RetUnit :=
  l.foldl (fun l u => if l.any fun x => decide (x.kind = u.kind) && decide (x.unit = u.unit) && (decide (u.kind = 1) || decide (x.place = u.place))
    then l else l ++ [u]) []

/-- The failing rows of a slice: each takes a spare row, and the slice goes once they run out (R440). -/
def State.sliceFailures (s : State) (sl : RetUnit) (rows : List RetUnit) : List RetUnit :=
  let used := (s.mordant.recs.filter fun r => decide (r.kind = 6) && decide (r.unit = sl.unit) && decide (r.place % 2 ^ 16 = sl.place)).length
  let spares := 32 - used - Config.badSpares sl.unit sl.place
  if rows.length ≤ spares then rows else rows.take spares ++ [sl]

/-- The new failures of a boot. A unit whose retirement is recorded is not tested again. -/
def State.bootFailures (s : State) : List RetUnit :=
  let us := distinctUnits ((List.range (Config.freeNat s.fresh)).filterMap fun i =>
    let k := s.fresh + 1 + 4 * i
    if s.tested (freeUnit k) && testFails k (freeUnit k) then some (freeUnit k) else none)
  let rows := us.filter fun u => decide (u.kind = 6)
  (us.filter fun u => decide (u.kind ≠ 6)) ++
    ((rows.map sliceOfRow).eraseDups.flatMap fun sl => s.sliceFailures sl (rows.filter fun u => decide (sliceOfRow u = sl)))

/-- A copy is valid when its contents are, and its epoch is at least the counter (R432). -/
def Mordant.accept (m : Mordant) (epoch : Nat) : Mordant := { m with valid := m.valid && decide (epoch ≤ m.epoch) }

/-- The module as a boot begins: what persists is the flash, the epoch counter, the identity, the grade shipped, the temperatures,
and what is still to come from outside. -/
def State.bare (s : State) : State :=
  { State.reset with
    fresh := s.fresh
    mordA := s.mordA.accept s.epoch
    mordB := s.mordB.accept s.epoch
    epoch := s.epoch
    idKey := s.idKey
    idCert := s.idCert
    shipped := s.shipped
    stackTemp := s.stackTemp
    fields := State.reset.fields.mapIdx fun i f => { f with temp := (s.field i).temp, hot := (s.field i).hot }
    inputs := s.inputs.map fun e => (e.1 - s.cycle, e.2) }

/-- The host ports as they train: which links come up is free; the primary port is the lowest-numbered one whose link does (21
R389). -/
def State.trainPorts (s : State) (k : Nat) : State :=
  let up := (List.range 4).filter fun p => decide (k / 2 ^ p % 2 = 0)
  { s with primary := up.headD 0, linkUp := decide (up ≠ []), portsDown := (List.range 4).filter fun p => !up.contains p }

/-- The areas for misses that a boot sets aside, one in a live group of each home: which is free (18 R375; log 56). -/
def State.placeAreas (s : State) : State :=
  { s with
    missArea := Vector.ofFn fun h =>
      let gs := (List.range 64).filter fun g => !s.pcgOut.contains (h.val, g)
      (gs[Config.freeNat (s.fresh + 2 * h.val) % max 1 gs.length]?).getD 0 * 2 ^ 30 + Config.freeNat (s.fresh + 2 * h.val + 1) % 16 * 2 ^ 26
    fresh := s.fresh + 128 }

/-- A mordant update cut short by a loss of power (R432): its records are lost with the first copy, which is then not valid, or stand
in the first copy alone. -/
def State.cutUpdate (s : State) (rs : List (RetUnit × Nat)) : State :=
  let (k, s) := s.draw
  let new := (s.appendRecords rs).mordA
  if k % 3 = 1 then { s with mordB := { s.mordB with valid := false } }
  else if k % 3 = 2 then { s with mordB := new, mordA := { s.mordA with valid := false } }
  else s

/-- Steps 2, 4 and 5 of a boot: the copy in use stands in both, and the tests' new failures. -/
def State.bootTests (s : State) : List RetUnit × State :=
  let m := s.mordant
  let s := { s with mordA := m, mordB := m }
  (s.bootFailures, { s with fresh := s.fresh + 1 + 4 * Config.freeNat s.fresh })

/-- The boot sequence: it stops at step 1 when a firmware image fails, at step 2 when no copy is valid; else it ends at step 7. Its own
update may be cut by another loss of power, after which the tests run again (R432). -/
def State.boot (s : State) : State :=
  let s := s.bare
  let (k, s) := s.draw
  let s := s.trainPorts (k / 4)
  if k % 4 = 3 then { s with bootStep := 1, bootState := 2, agenda := [] }
  else if !s.mordA.valid && !s.mordB.valid then { s with bootStep := 2, bootState := 3, agenda := [] }
  else
    let (us, s) := s.bootTests
    let cut := s.cutUpdate (us.map fun u => (u, 1))
    let (us, s) := if us = [] ∨ (cut.mordA.valid ∧ cut.mordB.valid) then (us, s) else cut.bootTests
    let s := if us = [] then s else s.appendRecords (us.map fun u => (u, 1))
    s.configured.placeAreas

/-- MODULE_RESET. -/
def execModuleReset (s : State) : Out := .next s.boot

/-- POWER_LOSS: an update that is due may be cut; when power returns the module boots. -/
def execPowerLoss (s : State) : Out :=
  .next (match s.agenda.findSome? fun e => match e.2 with
      | .unitRetire u reason => if e.1 ≤ s.cycle ∧ RetUnit.ok u ∧ !s.recorded u then some (u, reason) else none
      | _ => none with
    | some (u, reason) => (s.cutUpdate [(u, reason)]).boot
    | none => s.boot)

/-! ### Monitors and the governor (R442, R443) -/

/-- A field's hottest valid sensor; none when every sensor is invalid. -/
def Fld.hottest (f : Fld) : Option Nat :=
  (f.temp.toList.filter fun t => decide (t ≠ 0xFF)).foldl (fun b t => some (match b with | none => t | some x => max x t)) none

/-- The budget after a tick. -/
def Fld.tick (f : Fld) : Fld :=
  match f.hottest with
  | none => f
  | some t =>
    if 95 < t then { f with curbud := max 160 (f.curbud - 32) }
    else if t < 85 then { f with curbud := min f.nombud (f.curbud + 32) }
    else f

/-- GOVERNOR_TICK. -/
def execGovernorTick (s : State) : Out :=
  .next (({ s with fields := s.fields.map Fld.tick }).at_ (s.cycle + 2 ^ 20) .governorTick)

/-- DROOP_EVENT: a monitor counts it, and the field issues nothing for 8 cycles. -/
def execDroopEvent (fld mon : Nat) (s : State) : Out :=
  .next (s.updField fld fun f =>
    { f with stallUntil := s.cycle + 8, droop := f.droop.mapIdx fun i n => if i = mon then min 255 (n + 1) else n })

/-- A sensor's new reading: the refresh period follows the hottest one (02 R46), and passing 105 °C is counted. -/
def Fld.sense (f : Fld) (sensor val : Nat) : Fld :=
  let old := ((f.temp.toList)[sensor]?).getD 0xFF
  let f := { f with temp := f.temp.mapIdx fun i x => if i = sensor then val % 256 else x }
  let passes := decide (val ≠ 0xFF) && decide (105 < val) && (decide (old = 0xFF) || decide (old ≤ 105))
  { f with hot := match f.hottest with | some t => decide (95 < t) | none => false
           hotCount := if passes then f.hotCount + 1 else f.hotCount }

/-- TEMPERATURE_CHANGE: sensors 0 to 15 of a field; 16 is the stack of that number. -/
def execTemperatureChange (s : State) : Out :=
  .next (match s.input with
    | .temp fld sensor val =>
      if fld ≥ 64 then s
      else if sensor = 16 then { s with stackTemp := s.stackTemp.mapIdx fun i x => if i = fld then val % 256 else x }
      else
        let old := (s.field fld).hotCount
        let s := s.updField fld fun f => f.sense sensor val
        if s.up ∧ old ≤ 16 ∧ 16 < (s.field fld).hotCount then s.retireSoon ⟨8, fld, 0⟩ 5 else s
    | _ => s)

/-- RING_OSCILLATOR_WINDOW: the counts of a field's oscillators over 2^16 cycles are latched. -/
def execRingOscillatorWindow (s : State) : Out :=
  .next (match s.input with
    | .ring fld vals =>
      s.updField fld fun f => { f with ring := f.ring.mapIdx fun i x => ((vals[i]?).map (BitVec.ofNat 16)).getD x }
    | _ => s)

end Sys2Proof.Machine
end

