-- ==== Sys2Proof/Machine/Scalar.lean ====
section
/-!
DEFINITION. Scalar FP32 and pair instructions, codes 0x30 to 0x3F (05 R125 to R129).
-/
namespace Sys2Proof.Machine

/-- The rounding mode of a thread. -/
def Thread.rm (t : Thread) : RM := RM.ofBits (fpRM t.fpctl)

/-- An FP instruction of 05 R125: its result and exceptions from the thread. With SEN ≠ 0 and `holds` (the instructions
of R128), the thread is held until completion; an enabled exception then traps in place of the result: TVAL is b:a,
TAUX holds the result and the exceptions. -/
def fpOp (c : Ctl) (reads : List Reg) (rd : Reg) (lat : Nat) (holds : Bool) (ab : Thread → DWord)
    (f : Thread → Word × Exc) (s : State) : Out :=
  issue c (fun _ => { reads, writes := [rd] }) (fun r t s =>
    withTrip c r t (ofWord (f t).1) (f t).2 (fun s t v x =>
      if holds ∧ fpSEN t.fpctl ≠ 0 then
        let i : Option TrapInfo := (lowestEnabled x (fpSEN t.fpctl)).map fun n =>
          { cause := 0x21 + n, tpc := t.pc, tval := ab t, taux := (x.setWidth 64 <<< 32) ||| v.lo.setWidth 64,
            tinst := s.iword }
        let g := if c.wc ∧ c.thr ≠ 0 then some (c.tok, c.thr.toNat) else none
        let fl : Flight := { id := s.nextId, due := s.cycle + lat, writes := oneReg rd v, flags := x, sig := sigOf c t,
                             fpTrap := i, giveBack := g }
        let s := s.retireT r c
        ({ s.updThread r (fun t => { t with inflight := t.inflight ++ [fl], fpHold := some fl.id }) with
            nextId := s.nextId + 1 }).at_ (s.cycle + lat)
          (if i.isSome then .scalarFpTrap r fl.id else .fixedLatencyWriteback r fl.id)
      else (s.retireT r c).fly r lat (oneReg rd v) x (sigOf c t)) s) s

def fp2 (c : Ctl) (rd ra rb : Reg) (lat : Nat) (holds : Bool) (f : RM → Word → Word → Word × Exc) (s : State) : Out :=
  fpOp c [ra, rb] rd lat holds (fun t => DWord.mk (t.reg ra) (t.reg rb)) (fun t => f t.rm (t.reg ra) (t.reg rb)) s
/-- One source: b is the register that the rb field names in a word of the table, which is not read; TVAL's high half
is zero (log 58). -/
def fp1 (c : Ctl) (rd ra : Reg) (lat : Nat) (holds : Bool) (f : RM → Word → Word × Exc) (s : State) : Out :=
  fpOp c [ra] rd lat holds (fun t => ofWord (t.reg ra)) (fun t => f t.rm (t.reg ra)) s

def execFadd (c : Ctl) (rd ra rb : Reg) (s : State) : Out := fp2 c rd ra rb 4 true fpAdd s
def execFsub (c : Ctl) (rd ra rb : Reg) (s : State) : Out := fp2 c rd ra rb 4 true fpSub s
def execFmul (c : Ctl) (rd ra rb : Reg) (s : State) : Out := fp2 c rd ra rb 4 true fpMul s
def execFfma (c : Ctl) (rd ra rb rc : Reg) (s : State) : Out :=
  fpOp c [ra, rb, rc] rd 4 true (fun t => DWord.mk (t.reg ra) (t.reg rb))
    (fun t => fpFma t.rm (t.reg ra) (t.reg rb) (t.reg rc)) s
def execFmin (c : Ctl) (rd ra rb : Reg) (s : State) : Out := fp2 c rd ra rb 4 false (fun _ a b => (fpMin a b, 0)) s
def execFmax (c : Ctl) (rd ra rb : Reg) (s : State) : Out := fp2 c rd ra rb 4 false (fun _ a b => (fpMax a b, 0)) s
def execFcmp (c : Ctl) (cc : FCC) (rd ra rb : Reg) (s : State) : Out :=
  fp2 c rd ra rb 4 false (fun _ a b => (Word.ofBool (fpCmp cc a b), 0)) s
/-- Only `.cps` reads rb (05 R126). -/
def execFsgn (c : Ctl) (k : SgnOp) (rd ra rb : Reg) (s : State) : Out :=
  match k with
  | .cps => fp2 c rd ra rb 4 false (fun _ a b => (fpSgn .cps a b, 0)) s
  | k => fp1 c rd ra 4 false (fun _ a => (fpSgn k a 0, 0)) s
def execFrcp (c : Ctl) (rd ra : Reg) (s : State) : Out := fp1 c rd ra 6 true fpRcp s
def execFrsq (c : Ctl) (rd ra : Reg) (s : State) : Out := fp1 c rd ra 6 true fpRsq s
def execFcvt (c : Ctl) (k : Cvt) (rd ra : Reg) (s : State) : Out := fp1 c rd ra 3 true (fpCvt k) s
def execFcls (c : Ctl) (rd ra : Reg) (s : State) : Out := fp1 c rd ra 4 false (fun _ a => (fpClass a, 0)) s

/-- Both halves of a register pair. -/
def both (r : Reg) : List Reg := [r, Reg.hi r]

def execAddp (c : Ctl) (rd ra rb : Reg) (s : State) : Out :=
  compute c { pairs := [rd, ra, rb], reads := both ra ++ both rb, writes := both rd } 2
    (fun t => t.pair ra + t.pair rb) (pairWrites rd) s
def execAddpi (c : Ctl) (rd ra : Reg) (imm : BitVec 24) (s : State) : Out :=
  compute c { pairs := [rd, ra], reads := both ra, writes := both rd } 2
    (fun t => t.pair ra + BitVec.ofInt 64 (c.imm imm)) (pairWrites rd) s
def execMovp (c : Ctl) (rd ra : Reg) (s : State) : Out :=
  compute c { pairs := [rd, ra], reads := both ra, writes := both rd } 2 (fun t => t.pair ra) (pairWrites rd) s
def execCmpp (c : Ctl) (cc : CC) (rd ra rb : Reg) (s : State) : Out :=
  compute c { pairs := [ra, rb], reads := both ra ++ both rb, writes := [rd] } 2
    (fun t => ofWord (Word.ofBool (CC.holds cc (t.pair ra) (t.pair rb)))) (oneReg rd) s

end Sys2Proof.Machine
end

