-- ==== Sys2Proof/Machine/Dispatch.lean ====
section
/-!
DEFINITION. One arm for each constructor of Instr: the one meaning it calls.
-/
namespace Sys2Proof.Machine

def exec (i : Instr) (s : State) : Host.Outcome State Fault Refusal :=
  match i with
  | .add c rd ra rb => Sys2Proof.Machine.execAdd c rd ra rb s
  | .sub c rd ra rb => Sys2Proof.Machine.execSub c rd ra rb s
  | .mul c rd ra rb => Sys2Proof.Machine.execMul c rd ra rb s
  | .mulh c rd ra rb => Sys2Proof.Machine.execMulh c rd ra rb s
  | .mulhu c rd ra rb => Sys2Proof.Machine.execMulhu c rd ra rb s
  | .div c rd ra rb => Sys2Proof.Machine.execDiv c rd ra rb s
  | .divu c rd ra rb => Sys2Proof.Machine.execDivu c rd ra rb s
  | .rem c rd ra rb => Sys2Proof.Machine.execRem c rd ra rb s
  | .remu c rd ra rb => Sys2Proof.Machine.execRemu c rd ra rb s
  | .and c rd ra rb => Sys2Proof.Machine.execAnd c rd ra rb s
  | .or c rd ra rb => Sys2Proof.Machine.execOr c rd ra rb s
  | .xor c rd ra rb => Sys2Proof.Machine.execXor c rd ra rb s
  | .andn c rd ra rb => Sys2Proof.Machine.execAndn c rd ra rb s
  | .shl c rd ra rb => Sys2Proof.Machine.execShl c rd ra rb s
  | .shr c rd ra rb => Sys2Proof.Machine.execShr c rd ra rb s
  | .sar c rd ra rb => Sys2Proof.Machine.execSar c rd ra rb s
  | .rol c rd ra rb => Sys2Proof.Machine.execRol c rd ra rb s
  | .clz c rd ra => Sys2Proof.Machine.execClz c rd ra s
  | .popc c rd ra => Sys2Proof.Machine.execPopc c rd ra s
  | .brev c rd ra => Sys2Proof.Machine.execBrev c rd ra s
  | .min c rd ra rb => Sys2Proof.Machine.execMin c rd ra rb s
  | .max c rd ra rb => Sys2Proof.Machine.execMax c rd ra rb s
  | .minu c rd ra rb => Sys2Proof.Machine.execMinu c rd ra rb s
  | .maxu c rd ra rb => Sys2Proof.Machine.execMaxu c rd ra rb s
  | .adds c u rd ra rb => Sys2Proof.Machine.execAdds c u rd ra rb s
  | .subs c u rd ra rb => Sys2Proof.Machine.execSubs c u rd ra rb s
  | .cmp c cc rd ra rb => Sys2Proof.Machine.execCmp c cc rd ra rb s
  | .sel c rd ra rb rc => Sys2Proof.Machine.execSel c rd ra rb rc s
  | .mov c rd ra => Sys2Proof.Machine.execMov c rd ra s
  | .extb c sgn rd ra pos w1 => Sys2Proof.Machine.execExtb c sgn rd ra pos w1 s
  | .insb c rd ra pos w1 => Sys2Proof.Machine.execInsb c rd ra pos w1 s
  | .hash c rd ra rb => Sys2Proof.Machine.execHash c rd ra rb s
  | .bswap c rd ra => Sys2Proof.Machine.execBswap c rd ra s
  | .addi c rd ra imm => Sys2Proof.Machine.execAddi c rd ra imm s
  | .andi c rd ra imm => Sys2Proof.Machine.execAndi c rd ra imm s
  | .ori c rd ra imm => Sys2Proof.Machine.execOri c rd ra imm s
  | .xori c rd ra imm => Sys2Proof.Machine.execXori c rd ra imm s
  | .shli c rd ra imm => Sys2Proof.Machine.execShli c rd ra imm s
  | .shri c rd ra imm => Sys2Proof.Machine.execShri c rd ra imm s
  | .sari c rd ra imm => Sys2Proof.Machine.execSari c rd ra imm s
  | .cmpi c cc rd ra imm => Sys2Proof.Machine.execCmpi c cc rd ra imm s
  | .movi c rd imm => Sys2Proof.Machine.execMovi c rd imm s
  | .movhi c rd imm => Sys2Proof.Machine.execMovhi c rd imm s
  | .fadd c rd ra rb => Sys2Proof.Machine.execFadd c rd ra rb s
  | .fsub c rd ra rb => Sys2Proof.Machine.execFsub c rd ra rb s
  | .fmul c rd ra rb => Sys2Proof.Machine.execFmul c rd ra rb s
  | .ffma c rd ra rb rc => Sys2Proof.Machine.execFfma c rd ra rb rc s
  | .fmin c rd ra rb => Sys2Proof.Machine.execFmin c rd ra rb s
  | .fmax c rd ra rb => Sys2Proof.Machine.execFmax c rd ra rb s
  | .fcmp c cc rd ra rb => Sys2Proof.Machine.execFcmp c cc rd ra rb s
  | .fsgn c k rd ra rb => Sys2Proof.Machine.execFsgn c k rd ra rb s
  | .frcp c rd ra => Sys2Proof.Machine.execFrcp c rd ra s
  | .frsq c rd ra => Sys2Proof.Machine.execFrsq c rd ra s
  | .fcvt c k rd ra => Sys2Proof.Machine.execFcvt c k rd ra s
  | .fcls c rd ra => Sys2Proof.Machine.execFcls c rd ra s
  | .addp c rd ra rb => Sys2Proof.Machine.execAddp c rd ra rb s
  | .addpi c rd ra imm => Sys2Proof.Machine.execAddpi c rd ra imm s
  | .movp c rd ra => Sys2Proof.Machine.execMovp c rd ra s
  | .cmpp c cc rd ra rb => Sys2Proof.Machine.execCmpp c cc rd ra rb s
  | .br c off => Sys2Proof.Machine.execBr c off s
  | .bz c pair ra off => Sys2Proof.Machine.execBz c pair ra off s
  | .bnz c pair ra off => Sys2Proof.Machine.execBnz c pair ra off s
  | .loop c ra off => Sys2Proof.Machine.execLoop c ra off s
  | .call c off => Sys2Proof.Machine.execCall c off s
  | .pca c ra off => Sys2Proof.Machine.execPca c ra off s
  | .callr c ra => Sys2Proof.Machine.execCallr c ra s
  | .jmpr c ra => Sys2Proof.Machine.execJmpr c ra s
  | .ret c => Sys2Proof.Machine.execRet c s
  | .dly c imm => Sys2Proof.Machine.execDly c imm s
  | .yield c => Sys2Proof.Machine.execYield c s
  | .exit c => Sys2Proof.Machine.execExit c s
  | .wait c => Sys2Proof.Machine.execWait c s
  | .bkpt c imm => Sys2Proof.Machine.execBkpt c imm s
  | .ld c sz go rt pb off => Sys2Proof.Machine.execLd c sz go rt pb off s
  | .st c sz go rt pb off => Sys2Proof.Machine.execSt c sz go rt pb off s
  | .ldp c go rt pb off => Sys2Proof.Machine.execLdp c go rt pb off s
  | .stp c go rt pb off => Sys2Proof.Machine.execStp c go rt pb off s
  | .ldaq c sz rt pb off => Sys2Proof.Machine.execLdaq c sz rt pb off s
  | .strl c sz rt pb off => Sys2Proof.Machine.execStrl c sz rt pb off s
  | .aadd c sz go rt pb off => Sys2Proof.Machine.execAadd c sz go rt pb off s
  | .aand c sz go rt pb off => Sys2Proof.Machine.execAand c sz go rt pb off s
  | .aor c sz go rt pb off => Sys2Proof.Machine.execAor c sz go rt pb off s
  | .axor c sz go rt pb off => Sys2Proof.Machine.execAxor c sz go rt pb off s
  | .amin c sz go rt pb off => Sys2Proof.Machine.execAmin c sz go rt pb off s
  | .amax c sz go rt pb off => Sys2Proof.Machine.execAmax c sz go rt pb off s
  | .aminu c sz go rt pb off => Sys2Proof.Machine.execAminu c sz go rt pb off s
  | .amaxu c sz go rt pb off => Sys2Proof.Machine.execAmaxu c sz go rt pb off s
  | .axch c sz go rt pb off => Sys2Proof.Machine.execAxch c sz go rt pb off s
  | .acas c sz go rt pb off => Sys2Proof.Machine.execAcas c sz go rt pb off s
  | .afadd c sz go rt pb off => Sys2Proof.Machine.execAfadd c sz go rt pb off s
  | .afmin c sz go rt pb off => Sys2Proof.Machine.execAfmin c sz go rt pb off s
  | .afmax c sz go rt pb off => Sys2Proof.Machine.execAfmax c sz go rt pb off s
  | .cinv c k pb off => Sys2Proof.Machine.execCinv c k pb off s
  | .cfls c k pb off => Sys2Proof.Machine.execCfls c k pb off s
  | .fence c k sc => Sys2Proof.Machine.execFence c k sc s
  | .pfence c paths => Sys2Proof.Machine.execPfence c paths s
  | .send c vt pl tag mb => Sys2Proof.Machine.execSend c vt pl tag mb s
  | .recv c pd gi mb => Sys2Proof.Machine.execRecv c pd gi mb s
  | .mpoll c rd mb => Sys2Proof.Machine.execMpoll c rd mb s
  | .put c nt vt dst src n => Sys2Proof.Machine.execPut c nt vt dst src n s
  | .get c dst vt src n => Sys2Proof.Machine.execGet c dst vt src n s
  | .migr c vt => Sys2Proof.Machine.execMigr c vt s
  | .xin c loc gp sh => Sys2Proof.Machine.execXin c loc gp sh s
  | .xout c loc gp sh => Sys2Proof.Machine.execXout c loc gp sh s
  | .vadd c t d a b n => Sys2Proof.Machine.execVadd c t d a b n s
  | .vsub c t d a b n => Sys2Proof.Machine.execVsub c t d a b n s
  | .vmul c t d a b n => Sys2Proof.Machine.execVmul c t d a b n s
  | .vfma c t d a b e n => Sys2Proof.Machine.execVfma c t d a b e n s
  | .vmin c t d a b n => Sys2Proof.Machine.execVmin c t d a b n s
  | .vmax c t d a b n => Sys2Proof.Machine.execVmax c t d a b n s
  | .vscl c t d a b n => Sys2Proof.Machine.execVscl c t d a b n s
  | .vadds c t d a b n => Sys2Proof.Machine.execVadds c t d a b n s
  | .vabs c t d a n => Sys2Proof.Machine.execVabs c t d a n s
  | .vneg c t d a n => Sys2Proof.Machine.execVneg c t d a n s
  | .vexp c d a n => Sys2Proof.Machine.execVexp c d a n s
  | .vlog c d a n => Sys2Proof.Machine.execVlog c d a n s
  | .vrcp c d a n => Sys2Proof.Machine.execVrcp c d a n s
  | .vrsq c d a n => Sys2Proof.Machine.execVrsq c d a n s
  | .vtanh c d a n => Sys2Proof.Machine.execVtanh c d a n s
  | .vsum c t d a n => Sys2Proof.Machine.execVsum c t d a n s
  | .vmaxr c t d a n => Sys2Proof.Machine.execVmaxr c t d a n s
  | .vminr c t d a n => Sys2Proof.Machine.execVminr c t d a n s
  | .vargm c t d a n => Sys2Proof.Machine.execVargm c t d a n s
  | .vdot c t d a b n => Sys2Proof.Machine.execVdot c t d a b n s
  | .vcmp c k d a b n => Sys2Proof.Machine.execVcmp c k d a b n s
  | .vsel c t d a b e n => Sys2Proof.Machine.execVsel c t d a b e n s
  | .vgath c t d a b n => Sys2Proof.Machine.execVgath c t d a b n s
  | .vscat c t d a b n => Sys2Proof.Machine.execVscat c t d a b n s
  | .vbcst c t d a n => Sys2Proof.Machine.execVbcst c t d a n s
  | .viota c t d a n => Sys2Proof.Machine.execViota c t d a n s
  | .vcopy c t d a n => Sys2Proof.Machine.execVcopy c t d a n s
  | .vlogic c k d a b n => Sys2Proof.Machine.execVlogic c k d a b n s
  | .vhash c d a b n => Sys2Proof.Machine.execVhash c d a b n s
  | .wset c w ra => Sys2Proof.Machine.execWset c w ra s
  | .wget c w ra => Sys2Proof.Machine.execWget c w ra s
  | .qload c seeds ra rb cnt => Sys2Proof.Machine.execQload c seeds ra rb cnt s
  | .qsave c seeds ra rb cnt => Sys2Proof.Machine.execQsave c seeds ra rb cnt s
  | .qseed c x ra rb => Sys2Proof.Machine.execQseed c x ra rb s
  | .qgen c rd ra rb => Sys2Proof.Machine.execQgen c rd ra rb s
  | .qgenv c dst dim idx n => Sys2Proof.Machine.execQgenv c dst dim idx n s
  | .oclm c slt fm role => Sys2Proof.Machine.execOclm c slt fm role s
  | .orls c rd => Sys2Proof.Machine.execOrls c rd s
  | .oload c k slt src len => Sys2Proof.Machine.execOload c k slt src len s
  | .mmg c k acc sa sb fd => Sys2Proof.Machine.execMmg c k acc sa sb fd s
  | .mol c acc sa lst n => Sys2Proof.Machine.execMol c acc sa lst n s
  | .mdrn c acc dst cs rs => Sys2Proof.Machine.execMdrn c acc dst cs rs s
  | .mclr c acc => Sys2Proof.Machine.execMclr c acc s
  | .mstat c rd acc => Sys2Proof.Machine.execMstat c rd acc s
  | .trst c rd => Sys2Proof.Machine.execTrst c rd s
  | .tadd c rd imm => Sys2Proof.Machine.execTadd c rd imm s
  | .trd c rd ra => Sys2Proof.Machine.execTrd c rd ra s
  | .gnew c rd ra => Sys2Proof.Machine.execGnew c rd ra s
  | .gjoin c ra => Sys2Proof.Machine.execGjoin c ra s
  | .gleave c ra => Sys2Proof.Machine.execGleave c ra s
  | .gfree c ra => Sys2Proof.Machine.execGfree c ra s
  | .gcnt c rd ra => Sys2Proof.Machine.execGcnt c rd ra s
  | .gbar c ra k => Sys2Proof.Machine.execGbar c ra k s
  | .gred c k h val cnt res tok => Sys2Proof.Machine.execGred c k h val cnt res tok s
  | .copy c res ra => Sys2Proof.Machine.execCopy c res ra s
  | .cpyx c ra => Sys2Proof.Machine.execCpyx c ra s
  | .cpyq c rd ra => Sys2Proof.Machine.execCpyq c rd ra s
  | .lnch c ra => Sys2Proof.Machine.execLnch c ra s
  | .trig c => Sys2Proof.Machine.execTrig c s
  | .lwait c => Sys2Proof.Machine.execLwait c s
  | .trap c imm => Sys2Proof.Machine.execTrap c imm s
  | .rett c nx => Sys2Proof.Machine.execRett c nx s
  | .srd c rd imm sf => Sys2Proof.Machine.execSrd c rd imm sf s
  | .swr c ra imm sf => Sys2Proof.Machine.execSwr c ra imm sf s
  | .spawn c se ti ent arg k => Sys2Proof.Machine.execSpawn c se ti ent arg k s
  | .reap c rd ra => Sys2Proof.Machine.execReap c rd ra s
  | .svc c imm => Sys2Proof.Machine.execSvc c imm s
  | .einj c gx gm tgt => Sys2Proof.Machine.execEinj c gx gm tgt s
  | .idem c => Sys2Proof.Machine.execIdem c s
  | .fixedLatencyWriteback t id => Sys2Proof.Machine.execFixedLatencyWriteback t id s
  | .longLatencyWrite op => Sys2Proof.Machine.execLongLatencyWrite op s
  | .signalPost t region k n => Sys2Proof.Machine.execSignalPost t region k n s
  | .gapExpiry t => Sys2Proof.Machine.execGapExpiry t s
  | .dlyExpiry t => Sys2Proof.Machine.execDlyExpiry t s
  | .takenTransferRefetch t => Sys2Proof.Machine.execTakenTransferRefetch t s
  | .scalarFpTrap t id => Sys2Proof.Machine.execScalarFpTrap t id s
  | .reportDelivery t => Sys2Proof.Machine.execReportDelivery t s
  | .consumedError t => Sys2Proof.Machine.execConsumedError t s
  | .deferredFaultReport op => Sys2Proof.Machine.execDeferredFaultReport op s
  | .retryLatchRelease t => Sys2Proof.Machine.execRetryLatchRelease t s
  | .threadReady t => Sys2Proof.Machine.execThreadReady t s
  | .vectorOpStart op => Sys2Proof.Machine.execVectorOpStart op s
  | .vectorOpComplete op => Sys2Proof.Machine.execVectorOpComplete op s
  | .qruCommandComplete op => Sys2Proof.Machine.execQruCommandComplete op s
  | .transferComplete op => Sys2Proof.Machine.execTransferComplete op s
  | .oloadComplete op => Sys2Proof.Machine.execOloadComplete op s
  | .gangLineRelease l g => Sys2Proof.Machine.execGangLineRelease l g s
  | .mmgExecute op => Sys2Proof.Machine.execMmgExecute op s
  | .molExecute op => Sys2Proof.Machine.execMolExecute op s
  | .mdrnExecute op => Sys2Proof.Machine.execMdrnExecute op s
  | .mclrExecute op => Sys2Proof.Machine.execMclrExecute op s
  | .mstatExecute op => Sys2Proof.Machine.execMstatExecute op s
  | .parityUpdate v w => Sys2Proof.Machine.execParityUpdate v w s
  | .refreshWindowBegin fld sl => Sys2Proof.Machine.execRefreshWindowBegin fld sl s
  | .refreshWindowEnd fld sl => Sys2Proof.Machine.execRefreshWindowEnd fld sl s
  | .messageDelivery op => Sys2Proof.Machine.execMessageDelivery op s
  | .remoteAccessServe op => Sys2Proof.Machine.execRemoteAccessServe op s
  | .migrationDeparture t => Sys2Proof.Machine.execMigrationDeparture t s
  | .migrationLanding op => Sys2Proof.Machine.execMigrationLanding op s
  | .returnHome t => Sys2Proof.Machine.execReturnHome t s
  | .homeAccess op => Sys2Proof.Machine.execHomeAccess op s
  | .tlbWalkComplete w => Sys2Proof.Machine.execTlbWalkComplete w s
  | .notResidentReport op => Sys2Proof.Machine.execNotResidentReport op s
  | .pageResident vd home base => Sys2Proof.Machine.execPageResident vd home base s
  | .pageMoveSector vd home base => Sys2Proof.Machine.execPageMoveSector vd home base s
  | .readCacheRefill op => Sys2Proof.Machine.execReadCacheRefill op s
  | .writeBufferRelease op => Sys2Proof.Machine.execWriteBufferRelease op s
  | .groupOpAtHome op => Sys2Proof.Machine.execGroupOpAtHome op s
  | .groupAck op => Sys2Proof.Machine.execGroupAck op s
  | .copyUnitComplete op => Sys2Proof.Machine.execCopyUnitComplete op s
  | .launchAccept vd q => Sys2Proof.Machine.execLaunchAccept vd q s
  | .copyListEntry l => Sys2Proof.Machine.execCopyListEntry l s
  | .gangPlacement l g place => Sys2Proof.Machine.execGangPlacement l g place s
  | .parkQueueDelivery v => Sys2Proof.Machine.execParkQueueDelivery v s
  | .workDonation l src dst => Sys2Proof.Machine.execWorkDonation l src dst s
  | .vttCacheRefill v target => Sys2Proof.Machine.execVttCacheRefill v target s
  | .gangSwapOut l g => Sys2Proof.Machine.execGangSwapOut l g s
  | .gangRestore l g place => Sys2Proof.Machine.execGangRestore l g place s
  | .launchComplete l => Sys2Proof.Machine.execLaunchComplete l s
  | .quantumExpiry l g => Sys2Proof.Machine.execQuantumExpiry l g s
  | .allowancePeriodBegin => Sys2Proof.Machine.execAllowancePeriodBegin s
  | .dispatch pool => Sys2Proof.Machine.execDispatch pool s
  | .boostExpiry pool => Sys2Proof.Machine.execBoostExpiry pool s
  | .preemption l => Sys2Proof.Machine.execPreemption l s
  | .chunkCountCut t => Sys2Proof.Machine.execChunkCountCut t s
  | .commitTurn l => Sys2Proof.Machine.execCommitTurn l s
  | .killFlood l => Sys2Proof.Machine.execKillFlood l s
  | .killSweepEnd l => Sys2Proof.Machine.execKillSweepEnd l s
  | .killConfirm l => Sys2Proof.Machine.execKillConfirm l s
  | .uncontainedError u => Sys2Proof.Machine.execUncontainedError u s
  | .voteRecord p => Sys2Proof.Machine.execVoteRecord p s
  | .unitRetire u reason => Sys2Proof.Machine.execUnitRetire u reason s
  | .governorTick => Sys2Proof.Machine.execGovernorTick s
  | .droopEvent fld mon => Sys2Proof.Machine.execDroopEvent fld mon s
  | .woreriFlitReceive port flit => Sys2Proof.Machine.execWoreriFlitReceive port flit s
  | .woreriNakReplay port seq => Sys2Proof.Machine.execWoreriNakReplay port seq s
  | .laneRetrain port lane => Sys2Proof.Machine.execLaneRetrain port lane s
  | .reduceOpPerform op => Sys2Proof.Machine.execReduceOpPerform op s
  | .hostLinkDown => Sys2Proof.Machine.execHostLinkDown s
  | .hostLinkUp => Sys2Proof.Machine.execHostLinkUp s
  | .qtailDoorbell => Sys2Proof.Machine.execQtailDoorbell s
  | .queueConfigWrite => Sys2Proof.Machine.execQueueConfigWrite s
  | .hostWindowRead => Sys2Proof.Machine.execHostWindowRead s
  | .hostWindowWrite => Sys2Proof.Machine.execHostWindowWrite s
  | .cmdKill => Sys2Proof.Machine.execCmdKill s
  | .cmdKillvd => Sys2Proof.Machine.execCmdKillvd s
  | .poolTableWrite => Sys2Proof.Machine.execPoolTableWrite s
  | .vdTableWrite => Sys2Proof.Machine.execVdTableWrite s
  | .netctlWrite => Sys2Proof.Machine.execNetctlWrite s
  | .routeWrite => Sys2Proof.Machine.execRouteWrite s
  | .dbgcertWrite => Sys2Proof.Machine.execDbgcertWrite s
  | .registerWrite => Sys2Proof.Machine.execRegisterWrite s
  | .spdmSessionEstablish => Sys2Proof.Machine.execSpdmSessionEstablish s
  | .debugStop => Sys2Proof.Machine.execDebugStop s
  | .debugStep => Sys2Proof.Machine.execDebugStep s
  | .debugWithdraw => Sys2Proof.Machine.execDebugWithdraw s
  | .debugArm => Sys2Proof.Machine.execDebugArm s
  | .debugDisarm => Sys2Proof.Machine.execDebugDisarm s
  | .debugRead => Sys2Proof.Machine.execDebugRead s
  | .debugWrite => Sys2Proof.Machine.execDebugWrite s
  | .detach => Sys2Proof.Machine.execDetach s
  | .endSession => Sys2Proof.Machine.execEndSession s
  | .sessionTimeout => Sys2Proof.Machine.execSessionTimeout s
  | .svcReturn t => Sys2Proof.Machine.execSvcReturn t s
  | .moduleReset => Sys2Proof.Machine.execModuleReset s
  | .powerLoss => Sys2Proof.Machine.execPowerLoss s
  | .illegalOp w => Sys2Proof.Machine.execIllegalOp w s
  | .temperatureChange => Sys2Proof.Machine.execTemperatureChange s
  | .softError => Sys2Proof.Machine.execSoftError s
  | .scrub => Sys2Proof.Machine.execScrub s
  | .physicalFunctionPageRequest => Sys2Proof.Machine.execPhysicalFunctionPageRequest s
  | .vdCapped vd => Sys2Proof.Machine.execVdCapped vd s
  | .ringOscillatorWindow => Sys2Proof.Machine.execRingOscillatorWindow s

end Sys2Proof.Machine
end

