-- ==== Sys2Proof/Machine/Schedule.lean ====
section
/-!
DEFINITION. Which move comes next (log 3): what is due on the agenda; else what comes from outside by now; else a count that
has run out; else one of the turns and events that the state allows, chosen by a free value; the clock when no turn is left.
-/
namespace Sys2Proof.Machine

/-! ### Turns (02 R37; 05 R447; 17 R344) -/

/-- Whether a thread's tile lets it issue: present, in a resident gang, with no issue in this cycle, in a field that is not
stalled (23 R443); one that is leaving lets a TRIP follower end (16 R338). -/
def State.tileOpen (s : State) (r : TRef) (t : Thread) : Bool :=
  match s.tile? r.tile, s.launch? r.l with
  | some v, some ln =>
    (decide (v.place = .present) || t.midTrip) && decide (v.issuedAt ≠ some s.cycle) &&
      decide ((s.field (fieldOf (s.physOf v.ltile))).stallUntil ≤ s.cycle) &&
      (match ln.phase with | .placing => true | .killFlood => true | _ => false)
  | _, _ => false

/-- Whether a thread may look at its pc: it is ready, or tries a latched instruction, an LWAIT or a RECV again (06 R162; 09 R247; 12
R298). -/
def Run.tries : Run → Bool
  | .ready => true | .latched => true | .lwait none => true | .recv .. => true | _ => false

/-- Whether a thread in a slot is free to issue: no count, fetch, stop or eviction holds it; a TRIP follower ends its turns. -/
def Thread.free (t : Thread) : Bool :=
  t.slot.isSome && t.run.tries && decide (t.gapUntil = 0) && decide (t.dlyUntil = 0) && decide (t.refetchUntil = 0) && t.fpHold.isNone &&
    ((!t.evictDue && (!t.stopped || t.stepPending)) || t.midTrip)

/-- Whether a lane may run at this cycle: its slot has its turn, and its chunk goes on or a new one may begin. -/
def State.laneOpen (s : State) (r : TRef) (t : Thread) : Bool :=
  decide (t.slot = some (s.cycle % 16)) && !s.rerunStops r &&
  match (s.lanes.get? r).bind Lane.openChunk? with
  | some _ => !s.atCount r
  | none => s.mayBegin r

/-- What a turn does with what it finds at the pc. -/
def State.act (s : State) (r : TRef) (t : Thread) : Look → Out
  | .instr i w => exec i { s with iword := w }
  | .trap i =>
    if t.reports ≠ [] ∧ s.reportsOpen r then .next ({ s with iword := i.tinst }.takeReport r) else .next (s.takeTrap r i)
  | .fetchTrap i => .next (s.takeTrap r i)
  | .away a => .next (s.fetchAway r a)
  | .home => .next (s.updThread r fun t => { t with run := .homeDrain false })

/-- A lane that has no chunk in progress begins one with its turn (17 R346). -/
def State.openChunk (s : State) (r : TRef) : State :=
  if s.isDet r.l then
    match (s.lanes.get? r).bind Lane.openChunk? with
    | some _ => s
    | none => s.beginChunk r
  else s

/-- One turn of a thread: the instruction at its pc. The turn after a YIELD passes (05 R135). -/
def State.turn (s : State) (r : TRef) : Out :=
  match s.thread? r with
  | none => .next s
  | some t =>
    if t.skipTurn then .next (s.updThread r fun t => { t with skipTurn := false, gapUntil := s.cycle + 1 })
    else
      let s := s.openChunk r
      match s.thread? r with
      | none => .next s
      | some t =>
        let k := s.look r t
        ({ (s.setThread r k.1).updTile r.tile (fun v => { v with issuedAt := some s.cycle }) with cur := some r }).act r k.1 k.2

/-- Whether a turn of a thread in free mode does anything: a wait that is not met passes it. -/
def State.turnActs (s : State) (r : TRef) (t : Thread) : Bool :=
  match t.run with
  | .lwait none => s.producersDone r.l
  | .recv .. => s.recvMay r t
  | _ => !s.waitUnmet r t ||
    match s.turn r with
    | .next s' => decide (s'.thread? r ≠ some (s.look r t).1)
    | _ => true

/-- The threads that may issue in this cycle. -/
def State.turns (s : State) : List TRef :=
  (s.threads.filter fun e => e.2.free && s.tileOpen e.1 e.2 &&
    (if s.isDet e.1.l then s.laneOpen e.1 e.2 else e.2.skipTurn || s.turnActs e.1 e.2)).map Prod.fst

/-! ### Events that wait for nothing but their order -/

/-- The cycles that an operation takes at the least from its beginning to the event that comes next (00 R6, R446; 07 R175; 08 R205,
R208, R213): its way through the mesh, or its unit's stated time. Every other delay adds to them. -/
def State.leastTime (s : State) (o : Op) : Nat :=
  match o.phase, o.cls with
  | .waiting, .send => 2 + s.meshTime o.tile ⟨o.tile.l, o.unit⟩
  | .waiting, .remote => 1 + s.meshTime o.tile ⟨o.tile.l, (o.destVt).getD o.tile.v⟩
  | .waiting, .group => 1 + s.meshTime o.tile ⟨o.tile.l, (o.destVt).getD o.tile.v⟩
  | .waiting, .transfer => 1 + (match o.ins with | .get .. => 2 | _ => 1) * s.meshTime o.tile ⟨o.tile.l, (o.destVt).getD o.tile.v⟩
  | .waiting, .migrate => 1 + s.meshTime o.tile ⟨o.tile.l, o.unit⟩
  | .reply, .remote => 2 + 2 * s.meshTime o.tile ⟨o.tile.l, (o.destVt).getD o.tile.v⟩
  | .reply, .group => 1 + 2 * s.meshTime o.tile ⟨o.tile.l, (o.destVt).getD o.tile.v⟩
  | .reply, _ => if o.regs = [] then 0 else 2
  | .sent, .vector => if o.fault.isSome ∨ o.val 5 = 0 then 1 else 8 + ((o.val 5).toNat - 1) / vecRate o.ins
  | .waiting, .weight => 2
  | .waiting, .spawn => 2
  | .waiting, .oload =>
    (match o.ins with
     | .oload _ k x .. =>
       let y := ((s.tile? o.tile).getD {}).slot x.toNat
       if (s.oloadStop o k (y.bytes y.k)).isSome then 1 else 8 + (y.bytes y.k - 1) / 256
     | _ => 0)
  | .waiting, .array => (match o.ins with | .mmg _ u .. => (if u = .ts then 64 else 128) | .mclr .. => 16 | _ => 1)
  | _, _ => 0

/-- Whether an operation has begun: what it waits for is over, and its queue has come to it. Its time counts from then on (07 R175; 08
R213). -/
def State.begun (s : State) (id : Nat) (o : Op) : Bool :=
  s.clear o && match o.cls with
    | .vector => decide (s.queueHead o.tile .vector = some id)
    | .oload => decide (s.queueHead o.tile .oload = some id)
    | .array => s.arrayReady id o && (s.siblings o).all fun e => decide (lineKey o = none) || s.arrayReady e.1 e.2
    | _ => true
def State.waitOn (s : State) (id : Nat) (o : Op) : Op :=
  if (o.phase = .waiting ∨ o.phase = .parked) ∧ !s.begun id o then { o with born := s.cycle } else o

/-- The event of an operation at its unit. -/
def State.opEvent (s : State) (id : Nat) (o : Op) : List Instr :=
  let at_ (b : Bool) (i : Instr) : List Instr := if b then [i] else []
  if s.cycle < o.born + s.leastTime o then []
  else match o.phase with
  | .faulted => at_ (s.mayReport o) (.deferredFaultReport id)
  | .reply => [if o.cls = .group then .groupAck id else .longLatencyWrite id]
  | .heldNR => at_ (decide (o.prog = 0)) (.notResidentReport id)
  | .sent =>
    if o.cls = .vector then [.vectorOpComplete id]
    else if o.prog = 2 then [if s.isReduce o then .reduceOpPerform id else .homeAccess id]
    else at_ (decide (o.cls = .globalStore) && s.clear o && !s.moveHolds o) (.homeAccess id)
  | .waiting =>
    if !s.clear o then []
    else match o.cls with
      | .globalLoad => at_ (!s.moveHolds o) (if o.line = 1 then .readCacheRefill id else .homeAccess id)
      | .globalStore => [.writeBufferRelease id]
      | .globalAtomic => at_ (!s.moveHolds o) (.homeAccess id)
      | .launchQ => at_ (!s.moveHolds o) (.homeAccess id)
      | .hostAccess => [.homeAccess id]
      | .weight => [.longLatencyWrite id]
      | .spawn => [.longLatencyWrite id]
      | .remote => [.remoteAccessServe id]
      | .localAtomic => [.remoteAccessServe id]
      | .send => [.messageDelivery id]
      | .group => [.groupOpAtHome id]
      | .migrate => [.migrationLanding id]
      | .transfer => [.transferComplete id]
      | .xfer => [.transferComplete id]
      | .vector => at_ (decide (s.queueHead o.tile .vector = some id)) (.vectorOpStart id)
      | .qru => at_ (decide (s.queueHead o.tile .qru = some id)) (.qruCommandComplete id)
      | .oload => at_ (decide (s.queueHead o.tile .oload = some id)) (.oloadComplete id)
      | .copy => at_ (s.copyGoes o) (.copyUnitComplete id)
      | .array =>
        if !s.arrayReady id o then []
        else match o.ins with
          | .mmg .. => [.mmgExecute id]
          | .mol .. => [.molExecute id]
          | .mdrn .. => [.mdrnExecute id]
          | .mclr .. => [.mclrExecute id]
          | .mstat .. => [.mstatExecute id]
          | _ => []
      | _ => []
  | _ => []

/-- The events of a thread that is not issuing. -/
def State.threadEvent (s : State) (r : TRef) (t : Thread) : List Instr :=
  let at_ (b : Bool) (i : Instr) : List Instr := if b then [i] else []
  at_ (decide (t.reports ≠ []) && t.blockedAt (s.isDet r.l) && s.reportsOpen r && (!t.stopped || t.stepPending) && (t.slot.isSome || t.recvOut))
    (if t.consumedNext then .consumedError r else .reportDelivery r) ++
  match t.run with
  | .latch h => at_ (s.holdFree r.tile h) (.retryLatchRelease r) ++
      (match h with
       | .vtt d => at_ ((((s.tile? r.tile).bind fun v => v.vttCache.get? d)).isNone) (.vttCacheRefill r.tile d)
       | _ => [])
  | .evicted => at_ (!s.awaitsPage r && s.pendClear r) (.threadReady r)
  | .recv .. => at_ (t.recvOut && t.evictDue && !s.awaitsPage r && s.pendClear r) (.threadReady r)
  | .migrDrain .. => at_ (s.drained r && decide (t.pend = 0)) (.migrationDeparture r)
  | .homeDrain _ => at_ (s.drained r && decide (t.pend = 0)) (.returnHome r)
  | .service _ => [.svcReturn r]
  | _ => []

/-- The events of a virtual tile. -/
def State.tileEvent (_ : State) (m : TileRef) (v : VTile) : List Instr :=
  if (v.place = .present ∨ v.finished) ∧ v.park ≠ [] then [.parkQueueDelivery m] else []

/-- The events of a gang. -/
def State.gangEvent (s : State) (l g : Nat) (ln : Launch) (x : Gang) : List Instr :=
  (if (s.gangMembers l g).any fun m => decide (((s.tile? m).map VTile.lineQ).getD [] ≠ []) then [.gangLineRelease l g] else []) ++
  match x.st with
  | .resident =>
    (if s.swapChosen l g ln ∧ s.vatFree l g then [.gangSwapOut l g] else []) ++
    (if x.since + quantumQ ≤ s.cycle ∧ !x.preempt then [.quantumExpiry l g] else [])
  | .swapping => if s.swapDrained l g then [.gangSwapOut l g] else []
  | _ => []

/-- The events of a launch. -/
def State.launchEvent (s : State) (l : Nat) (ln : Launch) : List Instr :=
  (match ln.phase with
   | .copyList _ => [.copyListEntry l]
   | .imageCopy => [.copyListEntry l]
   | .placing =>
     (if ln.allFinished then [.launchComplete l] else []) ++
     (if ln.blk.det then [.commitTurn l] else []) ++
     (if (s.preemptTarget l).isSome then [.preemption l] else []) ++
     (match ln.donor with
      | some src => ((s.poolRec (s.vdRec ln.vd).pool).fields.filter fun f =>
          decide ((ln.runs.get? f).getD [] = []) && decide (f ≠ src)).map fun f => .workDonation l src f
      | none => [])
   | _ => []) ++
  ln.gangs.flatMap fun e => s.gangEvent l e.1 ln e.2

/-- The events of a pool's scheduler: a choice, or carrying it out. -/
def State.poolEvent (s : State) (n : Nat) (p : Pool) : List Instr :=
  if s.choiceStands n then
    match p.choice with
    | some (l, g, f) =>
      match ((s.launch? l).map fun (ln : Launch) => (ln.gang g).st) with
      | some GangSt.swapped => [.gangRestore l g f]
      | _ => [.gangPlacement l g f]
    | none => []
  else if p.choice.isSome || (s.vdOrder n).any fun vd => decide (s.vdChoices n vd ≠ []) then [.dispatch n]
  else []

/-- The events of a VD. -/
def State.vdEvent (s : State) (n : Nat) (v : Vd) : List Instr :=
  (if v.en ∧ !v.capped ∧ s.isCapped n then [.vdCapped n] else []) ++
  ((List.range 4).filter fun q => decide ((s.queue n q).qbase ≠ 0) && decide ((s.queue n q).qhead ≠ (s.queue n q).tail) &&
      (decide (q = 3) || !s.writesDue n)).map
    fun q => .launchAccept n q

/-- Every event that may come now. -/
def State.events (s : State) : List Instr :=
  s.ops.flatMap (fun e => s.opEvent e.1 e.2) ++ s.threads.flatMap (fun e => s.threadEvent e.1 e.2) ++
  s.vtiles.flatMap (fun e => s.tileEvent e.1 e.2) ++ s.launches.flatMap (fun e => s.launchEvent e.1 e.2) ++
  s.pools.flatMap (fun e => s.poolEvent e.1 e.2) ++ s.vds.flatMap (fun e => s.vdEvent e.1 e.2) ++
  s.walks.map (fun e => .tlbWalkComplete e.1) ++
  (s.pages.filter fun p => !p.resident).map (fun p => .pageResident p.vd p.home p.base) ++
  (s.moves.map fun m => .pageMoveSector m.vd m.home m.base) ++
  (s.votes.filter fun e => decide (e.2.1 ≠ 0) && decide (e.2.2 ≤ s.cycle)).map fun e => .voteRecord e.1

/-- Whether the instruction cache of a thread's tile holds the line of its pc; and the line enters it, in place of one that the tile
chooses when 512 are there (00 R5; 05 R133). -/
def State.lineHeld (s : State) (r : TRef) (t : Thread) : Bool := ((s.tile? r.tile).getD {}).icache.contains (t.pc.toNat / 64)
def State.holdLine (s : State) (r : TRef) (t : Thread) : State :=
  if s.lineHeld r t then s
  else
    let (k, s) := s.draw
    s.updTile r.tile fun v =>
      { v with icache := (if v.icache.length < 512 then v.icache else v.icache.eraseIdx (k % 512)) ++ [t.pc.toNat / 64] }

/-- The fetches of a cycle: a line that a thread comes to in sequence is there with it; the line of a taken transfer, of a trap entry or
of a restart that is not held comes in some later cycle. -/
def State.fetchLines (s : State) : State :=
  s.threads.foldl (fun (s : State) (e : TRef × Thread) =>
    if e.2.slot.isNone then s
    else if e.2.refetchUntil = 0 then s.holdLine e.1 e.2
    else if s.cycle ≤ e.2.refetchUntil ∨ s.lineHeld e.1 e.2 then s
    else
      let d := s.draw
      if d.1 % 2 = 0 then d.2.holdLine e.1 e.2 else d.2) s

/-- What a thread's counts have brought, before anything else of its cycle. -/
def State.countEvent (s : State) (r : TRef) (t : Thread) : Option Instr :=
  if t.gapUntil ≠ 0 ∧ t.gapUntil ≤ s.cycle then some (.gapExpiry r)
  else if t.dlyUntil ≠ 0 ∧ t.dlyUntil ≤ s.cycle then some (.dlyExpiry r)
  else if t.refetchUntil ≠ 0 ∧ t.refetchUntil ≤ s.cycle ∧ s.lineHeld r t then some (.takenTransferRefetch r)
  else if s.isDet r.l ∧ s.atCount r then some (.chunkCountCut r)
  else none

/-! ### The clock -/

/-- A VD at the end of a cycle: since when it is not runnable, and whether its next dispatch is boosted (18 R367). -/
def Vd.noteRunnable (v : Vd) (now : Nat) (runnable : Bool) : Vd :=
  match runnable, v.idleSince with
  | true, some c => { v with idleSince := none, boostArmed := v.boostArmed || decide (c + periodP ≤ now) }
  | true, none => v
  | false, some _ => v
  | false, none => { v with idleSince := some now }

/-- A gang at the end of a cycle: since when it is blocked (16 R337). One of which a thread has gone on in that cycle is blocked anew. -/
def Gang.noteBlocked (g : Gang) (now : Nat) (blocked moved : Bool) : Gang :=
  if g.st = .resident ∧ blocked then { g with blockedSince := some (if moved then now else g.blockedSince.getD now) }
  else { g with blockedSince := none }
/-- Whether a thread of a gang has issued in a cycle. -/
def State.gangMoved (s : State) (l g c : Nat) : Bool :=
  (s.gangMembers l g).any fun m => decide ((s.tile? m).bind VTile.issuedAt = some c)

/-- The slices whose refresh windows begin at a cycle (02 R46). -/
def State.refreshes (s : State) (c : Nat) : List (Nat × Nat) :=
  (List.range 64).filterMap fun f =>
    let p := (s.field f).period
    if c % (p / 64) = 0 ∧ c % p / (p / 64) < (s.activeSlices f).length then some (f, c % p / (p / 64)) else none

/-- Fences, flushes and marks for which nothing is left to wait complete: what they waited for may have been discarded (06 R148). -/
def State.lateFences (s : State) : State :=
  s.ops.foldl (fun (s : State) e =>
    match s.op? e.1 with
    | some o => if !o.needsFixed ∧ o.phase = .waiting ∧ s.clear o then s.settle o.t else s
    | none => s) s

/-- The clock advances by one cycle: posts join their counts, window descriptors take effect, free slots are filled. -/
def State.tick (s : State) : State :=
  let c := s.cycle + 1
  let s := { s with
    cycle := c
    ops := s.ops.map fun (e : Nat × Op) => (e.1, { s with cycle := c }.waitOn e.1 e.2)
    threads := s.threads.map fun (e : TRef × Thread) => (e.1, e.2.foldTokens.readTokens)
    vtiles := s.vtiles.map fun (e : TileRef × VTile) => (e.1, e.2.landWindows c) }
  let s := s.fetchLines.lateFences
  let s := s.threads.foldl (fun (s : State) (e : TRef × Thread) => if e.2.evictDue then s.tryEvict e.1 else s) s
  let s := s.vtiles.foldl (fun (s : State) (e : TileRef × VTile) => if e.2.place = .present then s.fillSlots e.1 else s) s
  let vds := s.vds.map fun (e : Nat × Vd) => (e.1, e.2.noteRunnable c (s.vdRunnable e.1))
  let launches := s.launches.map fun (e : Nat × Launch) =>
    (e.1, { e.2 with gangs := e.2.gangs.map fun (x : Nat × Gang) => (x.1, x.2.noteBlocked c (s.gangBlocked e.1 x.1) (s.gangMoved e.1 x.1 (c - 1))) })
  (s.refreshes c).foldl (fun (s : State) (x : Nat × Nat) => s.at_ c (.refreshWindowBegin x.1 x.2)) { s with vds, launches }

/-! ### The move -/

/-- Whether some elements, words or bytes of an engine operation may be carried out before the others (11 R274): in free mode, and for
an entry of a copy list; those of a transfer between tiles not before their way through the mesh. -/
def State.hasPart (s : State) (o : Op) : Bool :=
  s.clear o && decide (o.born + (if o.cls = .transfer then max 8 (s.leastTime o) else 8) ≤ s.cycle) &&
  match o.cls, o.phase with
  | .xfer, .waiting => !s.isDet o.tile.l
  | .transfer, .waiting => !s.isDet o.tile.l
  | .vector, .sent => !s.isDet o.tile.l
  | .qru, .waiting => !s.isDet o.tile.l && (match o.ins with | .qgenv .. => true | _ => false)
  | .oload, .waiting => !s.isDet o.tile.l
  | .array, .waiting => !s.isDet o.tile.l && (match o.ins with | .mdrn .. => true | _ => false)
  | .copy, .waiting => (match o.ins with | .copyListEntry _ => true | .copy .. => !s.isDet o.tile.l && decide (o.line ≠ 0) | _ => false)
  | _, _ => false

/-- Part of an engine operation. -/
def State.partOf (s : State) (id : Nat) : State :=
  match s.op? id with
  | none => s
  | some o =>
    if !s.hasPart o then s
    else match o.cls, o.ins with
      | .xfer, _ => s.xferPart id o
      | .transfer, _ => s.transferPart id o
      | .vector, _ => s.vecPart id o
      | .qru, _ => s.qgenvPart id o
      | .oload, _ => s.oloadPart id o
      | .array, _ => s.drainPart id o
      | .copy, .copyListEntry _ => s.entryPart id o
      | .copy, _ => s.copyPart id o
      | _, _ => s

/-- One move of the machine. -/
inductive Choice where
  | event (i : Instr)
  | part (id : Nat)
  | turn (r : TRef)
  | tick
  deriving DecidableEq, Repr

def State.move (s : State) : Choice → Out
  | .event i => exec i { s with cur := none, input := .none }
  | .part id => .next (s.partOf id)
  | .turn r => s.turn r
  | .tick => .next s.tick

/-- The moves among which a free value chooses: the clock only when no thread is left to issue in this cycle. -/
def State.choices (s : State) : List Choice :=
  let ts := s.turns.map Choice.turn
  s.events.map Choice.event ++ (s.ops.filter fun e => s.hasPart e.2).map (fun e => .part e.1) ++ (if ts = [] then [.tick] else ts)

/-- The end of a move: debug steps that have been made (12 R305). -/
def finish (old : State) : Out → Out
  | .next s => .next (old.endSteps s)
  | o => o

/-- A move of several: a free value tells which. -/
def State.pick (s : State) : List Choice → Out
  | [] => .next s.tick
  | [m] => s.move m
  | l =>
    let d := s.draw
    d.2.move ((l[d.1 % l.length]?).getD .tick)

/-- A count that has run out. -/
def State.forcedCount? (s : State) : Option (Instr × State) :=
  (s.threads.findSome? fun e => s.countEvent e.1 e.2).map fun i => (i, { s with input := .none })

/-- What comes from outside by now; else a count. -/
def State.forcedInput? (s : State) : Option (Instr × State) :=
  match s.inputs with
  | e :: l => if e.1 ≤ s.cycle then some (e.2.1, { s with inputs := l, input := e.2.2 }) else s.forcedCount?
  | [] => s.forcedCount?

/-- What must come now: due on the agenda, from outside, or of a count. -/
def State.forced? (s : State) : Option (Instr × State) :=
  match s.agenda with
  | e :: l => if e.1 ≤ s.cycle then some (e.2, { s with agenda := l, input := .none }) else s.forcedInput?
  | [] => s.forcedInput?

/-- One step of the machine. -/
def State.advance (s : State) : Out :=
  match s.forced? with
  | some x => finish s (exec x.1 { x.2 with cur := none })
  | none => finish s (s.pick s.choices)

/-! ### A program that is already placed (log 25) -/

/-- The launch of one virtual tile whose kernel begins at address 0. -/
def placedBlock : Block := { w := 1, h := 1, chunk := 64 }

/-- The bytes of a kernel: a block header with LEN 63, and the words of an instruction. -/
def placedBytes (nbits w : Nat) : List Byte := leBytes (0xFF * 2 ^ 56 + 63 * 2 ^ 50) 8 ++ tableBytes nbits w

/-- The machine with launch 0 of VD 0, its one gang resident on logical tile 0, its kernel at address 0 of home 0, and its lead
thread about to issue for the first time, every token full enough for any wait; nothing else runs. -/
def State.placed (s : State) (nbits w : Nat) : State :=
  { s with
    cur := none
    agenda := s.agenda.filter fun e => decide (s.cycle < e.1)
    inputs := []
    ops := []
    threads := [(⟨0, 0, 0⟩, { leadThread placedBlock 0 with tok := Vector.replicate 16 { count := 63 } })]
    vtiles := [(⟨0, 0⟩, { place := .present, gen := 1 })]
    lanes := []
    launches := [(0, { vd := 0, queue := 0, blk := placedBlock, phase := .placing
                       gangs := [(0, { st := .resident, since := s.cycle })] })]
    nextLaunch := 1
    hbm := s.hbm.writeN 0 (placedBytes nbits w)
    hbmPoison := []
    hbmFlips := []
    pages := [{ vd := 0, home := 0, base := 0, size := 65536, frame := 0, rd := true, wr := true }]
    walks := []
    moves := []
    pools := s.pools.map fun (e : Nat × Pool) => (e.1, { e.2 with choice := none })
    vds := [(0, { en := true })]
    fields := s.fields.map fun (f : Fld) => { f with stallUntil := 0 } }

end Sys2Proof.Machine
end

