-- ==== Sys2Proof/Machine/Step.lean ====
section
/-!
DEFINITION. One step of the machine, and the state in which a given instruction is the next to run.
-/
namespace Sys2Proof.Machine

/-- One move: an instruction issues, an event of the device happens, or the clock advances (log 3). -/
def step (s : State) : Host.Outcome State Fault Refusal := s.advance

/-- The state with an instruction where the next step fetches it: a program is loaded by a launch, which this state has
behind it (log 25). -/
def State.withFetchWord (s : State) (nbits w : Nat) : State := s.placed nbits w

end Sys2Proof.Machine
end

