-- ==== Sys2Proof/Machine/Digest.lean ====
section
/-!
DEFINITION. SHA-256, which the configuration descriptor names for its identifier (23 R437). The spec names the function and
does not define it: it is FIPS 180-4's (PRESUMED, log 48).
-/
namespace Sys2Proof.Machine

/-- The largest number of at most `n` bits above `x`'s lowest whose power `k` does not pass `v`, bit by bit from the highest. -/
def rootBits (k v : Nat) : Nat → Nat → Nat
  | 0, x => x
  | n + 1, x => rootBits k v n (if (x + 2 ^ n) ^ k ≤ v then x + 2 ^ n else x)

/-- The first 32 bits after the point of the root of degree `k` of `p`. -/
def rootFraction (k p : Nat) : Word := BitVec.ofNat 32 (rootBits k (p * 2 ^ (32 * k)) 37 0)

/-- The primes below `n`. -/
def primesBelow (n : Nat) : List Nat :=
  (List.range n).filter fun p => decide (1 < p) && (List.range p).all fun d => decide (d < 2) || decide (p % d ≠ 0)

/-- The constants of the rounds: from the cube roots of the first 64 primes. -/
def shaRounds : List Word := (primesBelow 312).map (rootFraction 3)

/-- The eight chaining words. -/
structure Sha where
  a : Word
  b : Word
  c : Word
  d : Word
  e : Word
  f : Word
  g : Word
  h : Word
  deriving DecidableEq, Repr

/-- The first chaining words: from the square roots of the first eight primes. -/
def Sha.first : Sha :=
  let w (i : Nat) : Word := (((primesBelow 20).map (rootFraction 2))[i]?).getD 0
  { a := w 0, b := w 1, c := w 2, d := w 3, e := w 4, f := w 5, g := w 6, h := w 7 }

/-- One round, with the round's constant and schedule word added. -/
def Sha.round (x : Sha) (kw : Word) : Sha :=
  let s1 := x.e.rotateRight 6 ^^^ x.e.rotateRight 11 ^^^ x.e.rotateRight 25
  let ch := (x.e &&& x.f) ^^^ (~~~x.e &&& x.g)
  let t1 := x.h + s1 + ch + kw
  let s0 := x.a.rotateRight 2 ^^^ x.a.rotateRight 13 ^^^ x.a.rotateRight 22
  let maj := (x.a &&& x.b) ^^^ (x.a &&& x.c) ^^^ (x.b &&& x.c)
  ⟨t1 + (s0 + maj), x.a, x.b, x.c, x.d + t1, x.e, x.f, x.g⟩

/-- The schedule, newest word first. -/
def shaExtend : Nat → List Word → List Word
  | 0, w => w
  | n + 1, w =>
    let at_ (i : Nat) : Word := (w[i]?).getD 0
    let a := at_ 14
    let b := at_ 1
    let s0 := a.rotateRight 7 ^^^ a.rotateRight 18 ^^^ (a >>> 3)
    let s1 := b.rotateRight 17 ^^^ b.rotateRight 19 ^^^ (b >>> 10)
    shaExtend n ((at_ 15 + s0 + at_ 6 + s1) :: w)

/-- The words of a block are big-endian. -/
def beWords : Nat → List Byte → List Word
  | 0, _ => []
  | n + 1, bs => BitVec.ofNat 32 (leNat (bs.take 4).reverse) :: beWords n (bs.drop 4)

def Sha.block (x : Sha) (bs : List Byte) : Sha :=
  let w := (shaExtend 48 (beWords 16 bs).reverse).reverse
  let y := ((shaRounds.zip w).foldl (fun x kw => Sha.round x (kw.1 + kw.2)) x)
  ⟨x.a + y.a, x.b + y.b, x.c + y.c, x.d + y.d, x.e + y.e, x.f + y.f, x.g + y.g, x.h + y.h⟩

def Sha.blocks : Nat → Sha → List Byte → Sha
  | 0, x, _ => x
  | n + 1, x, bs => Sha.blocks n (x.block (bs.take 64)) (bs.drop 64)

/-- The message with its 1 bit, its zeros and its length in bits. -/
def shaPad (bs : List Byte) : List Byte :=
  bs ++ 0x80 :: List.replicate ((119 - bs.length % 64) % 64) 0 ++ (leBytes (8 * bs.length) 8).reverse

/-- The digest's 32 bytes, in the order in which the standard writes them. -/
def sha256 (bs : List Byte) : List Byte :=
  let m := shaPad bs
  let x := Sha.blocks (m.length / 64) Sha.first m
  [x.a, x.b, x.c, x.d, x.e, x.f, x.g, x.h].flatMap fun w => (leBytes w.toNat 4).reverse

end Sys2Proof.Machine
end

