-- ==== Sys2Proof/Machine/Registers.lean ====
section
/-!
DEFINITION. What a read of a function's BAR0 returns (21 R389, R390, R393; 18 R360, R363; 23 R441, R442): the configuration
descriptor (R437) and the capability list (R445); and the layout of the mordant tables and the error log. No row of the opcode table is such a read: it changes nothing, and answers
`State.barByte`.
-/
namespace Sys2Proof.Machine

/-! ### The configuration descriptor (23 R437) -/

/-- The number whose bits are those of a list, the lowest first. -/
def ofBits (l : List Bool) : Nat := l.foldr (fun b n => (if b then 1 else 0) + 2 * n) 0
/-- The bytes of n bits. -/
def bitBytes (f : Nat → Bool) (n : Nat) : List Byte :=
  (List.range (n / 8)).map fun i => BitVec.ofNat 8 (ofBits ((List.range 8).map fun j => f (8 * i + j)))

/-- TILES to BUDGET: bytes 0x000 to 0x1417. -/
def State.configBody (s : State) : List Byte :=
  bitBytes (fun i => decide (s.tileCode (i / 2) / 2 ^ (i % 2) % 2 = 1)) 32768 ++
  bitBytes (fun i => s.pcgBit (i / 64) (i % 64)) 4096 ++ bitBytes (fun i => s.sliceBit (i / 64) (i % 64)) 4096 ++
  bitBytes (fun i => decide (s.portCode (i / 2) / 2 ^ (i % 2) % 2 = 1)) 128 ++ bitBytes s.budgetBit 64

/-- The descriptor with CONFIGID. -/
def State.configBytes (s : State) : List Byte := s.configBody ++ sha256 s.configBody

/-! ### The mordant tables on their flash (23 R430, R431) -/

/-- A record's 32 bytes. -/
def MRec.bytes (r : MRec) : List Byte :=
  leBytes r.seq 4 ++ leBytes r.kind 1 ++ leBytes r.reason 1 ++ leBytes r.unit 2 ++ leBytes r.place 8 ++ leBytes r.cycleH 4 ++
    leBytes r.epoch 4 ++ leBytes 0 8

/-- The bytes of a copy that its signature signs; the copy, from byte 0 on. What the signature is, is free (log 35). -/
def Mordant.signed (m : Mordant) : List Byte :=
  leBytes 0x4D4F5244 4 ++ leBytes 1 4 ++ leBytes m.gen 8 ++ leBytes m.epoch 4 ++ leBytes m.recs.length 4 ++ List.replicate 40 0 ++
    m.recs.flatMap MRec.bytes
def Mordant.bytes (m : Mordant) (key : BitVec 3072) : List Byte :=
  m.signed ++ (List.range 384).map fun i => Config.sigByte key m.signed i

/-! ### The capability list (23 R445) -/

/-- A record of the list: its ID, its VER and its body. -/
structure CapRec where
  id : Nat
  ver : Nat
  body : List Byte
  deriving DecidableEq, Repr

/-- The records for the physical function, or for another function. The spec gives no widths for the fields of CORE and GRADE,
no VER but CORE's, and no address of the log (log 48). -/
def State.capRecords (s : State) (pf : Bool) : List CapRec :=
  let rec_ (id : Nat) (body : List Byte) : CapRec := ⟨id, Config.capVer id, body⟩
  { id := 1, ver := capvHere, body := leBytes capvHere 4 ++ leBytes s.modid.toNat 4 } ::
  rec_ 2 (leBytes s.shipped 4 ++ leBytes (gradeOf s.liveCount) 4 ++ leBytes s.liveCount 4) ::
  ((List.range 8).map fun i => rec_ (3 + i) (leBytes 1 4)) ++
  [rec_ 0xB ((List.range 64).map fun f => BitVec.ofNat 8 (s.activeSlices f).length),
   rec_ 0xC s.configBytes,
   rec_ 0xD (if pf then leBytes Config.errLogAt 8 ++ leBytes s.errSeq 8 else List.replicate 16 0),
   rec_ 0xE (leBytes Config.laneThreshold 4),
   rec_ 0xF (leBytes s.mordant.gen 8 ++ leBytes s.mordant.epoch 4 ++ leBytes s.mordant.recs.length 4)]

/-- The records from offset `at_` on, each with its header; the last one's NEXT is 0. -/
def capBytes : Nat → List CapRec → List Byte
  | _, [] => []
  | at_, r :: l =>
    let next := at_ + 12 + r.body.length
    leBytes r.id 2 ++ leBytes r.ver 2 ++ leBytes r.body.length 4 ++ leBytes (if l = [] then 0 else next) 4 ++ r.body ++
      capBytes next l
def State.capList (s : State) (pf : Bool) : List Byte := capBytes 0 (s.capRecords pf)

/-! ### The tables (18 R360, R363) and the other registers (21 R390) -/

/-- The bytes of a range of registers, from their values: each at its offset, with its width; zero between them. -/
def regByte (l : List (Nat × Nat × Nat)) (off : Nat) : Byte :=
  match l.find? fun e => decide (e.1 ≤ off) && decide (off < e.1 + e.2.1) with
  | some e => BitVec.ofNat 8 (e.2.2 / 2 ^ (8 * (off - e.1)))
  | none => 0

/-- A pool record. -/
def State.poolByte (s : State) (i off : Nat) : Byte :=
  let p := s.poolRec i
  regByte [(0, 128, p.rows.toNat), (0x80, 4, p.wsn * 2 ^ 8 + p.wsbase), (0x84, 4, (s.pstat i).toNat)] off

/-- A VD's record. -/
def State.vdByte (s : State) (i off : Nat) : Byte :=
  let v := s.vdRec i
  regByte [(0, 4, v.vctl.toNat), (4, 4, v.scope.toNat), (8, 8, s.usedNow i), (0x10, 8, v.lastd), (0x18, 4, (s.vstat i).toNat)] off

/-- A field's monitors (23 R442). -/
def State.monitorByte (s : State) (f off : Nat) : Byte :=
  let x := s.field f
  if off < 0x10 then BitVec.ofNat 8 ((x.temp.toList[off]?).getD 0)
  else if off < 0x18 then BitVec.ofNat 8 ((x.droop.toList[off - 0x10]?).getD 0)
  else if off < 0x20 then BitVec.ofNat 8 ((((x.ring.toList[(off - 0x18) / 2]?).map BitVec.toNat).getD 0) / 2 ^ (8 * (off % 2)))
  else regByte [(0x20, 2, x.nombud), (0x22, 2, x.curbud), (0x24, 2, s.resid f)] off

/-- A debug certificate's slot (21 R410). -/
def Cert.byte (c : Cert) (off : Nat) : Byte :=
  regByte [(0, 32, c.digest), (32, 4, c.vd % 512 + if c.en then 2 ^ 31 else 0)] off

/-- The physical function's registers. -/
def State.pfByte (s : State) (off : Nat) : Byte :=
  if off < 0x4000 then s.poolByte (off / 256) (off % 256)
  else if off < 0x8000 then s.vdByte ((off - 0x4000) / 32) (off % 32)
  else if 0x9000 ≤ off ∧ off < 0xA000 then
    BitVec.ofNat 8 ((((s.route.toList[(off - 0x9000) / 4]?).map BitVec.toNat).getD 0) / 2 ^ (8 * (off % 4)))
  else if 0xA000 ≤ off ∧ off < 0xA200 then (((s.dbgcert.toList)[(off - 0xA000) / 64]?).map fun c => c.byte (off % 64)).getD 0
  else if 0x10000 ≤ off ∧ off < 0x11000 then s.monitorByte ((off - 0x10000) / 64) (off % 64)
  else if 0x11000 ≤ off ∧ off < 0x11040 then BitVec.ofNat 8 ((s.stackTemp.toList[off - 0x11000]?).getD 0)
  else regByte [(0x8000, 4, s.netctl), (0x8004, 4, s.modid.toNat), (0x8040, 64, s.injallow.toNat), (0x8100, 8, s.cmd.toNat),
    (0x8108, 4, s.cmdstat.toNat), (0x8200, 4, s.bootstat.toNat)] off

/-- A queue's registers (21 R393). QTAIL of queues 0 to 2 is for writing, and what a read of it gives is not stated; queue 3's
reads back its tail (R395). -/
def Queue.byte (x : Queue) (q off : Nat) : Byte :=
  regByte [(0, 8, x.qbase.toNat), (8, 4, x.qlog), (0xC, 4, x.qhead.toNat),
    (0x10, 4, if q = 3 then x.tail.toNat else Config.tailRead q), (0x14, 4, x.qerr), (0x18, 4, if x.qvec then 1 else 0)] off

/-! ### The error log (22 R413, R414) -/

/-- A record's 64 bytes. -/
def ErrRec.bytes (r : ErrRec) : List Byte :=
  leBytes r.seq 8 ++ leBytes r.time 8 ++ leBytes r.src 2 ++ leBytes r.unit 2 ++ leBytes r.sev 1 ++ leBytes r.cause 1 ++ leBytes r.count 2 ++
    leBytes r.addr.toNat 8 ++ leBytes r.poolmap.toNat 8 ++ leBytes r.vd 4 ++ leBytes r.lid.toNat 4 ++ List.replicate 16 0

/-- Place i of the ring in home 0, as the physical function reads it. -/
def State.errPlace (s : State) (i : Nat) : List Byte :=
  ((s.errlog.find? fun r => decide (r.seq % 65536 = i)).map ErrRec.bytes).getD (List.replicate 64 0)

/-! ### A read of BAR0 -/

/-- A function of the primary port: the physical function, a VD's virtual function, or the debug function. -/
inductive Pcie where
  | pf | vf (n : Nat) | debug
  deriving DecidableEq, Repr

/-- The byte at an offset of a function's BAR0 on the primary port. A module whose boot stopped shows BOOTSTAT alone (23 R441). -/
def State.barByte (s : State) (fn : Pcie) (off : Nat) : Byte :=
  if !s.up then
    match fn with
    | .pf => regByte [(0x8200, 4, s.bootstat.toNat)] off
    | _ => 0
  else if 0x20000 ≤ off then ((s.capList (decide (fn = .pf)))[off - 0x20000]?).getD 0
  else match fn with
    | .pf => s.pfByte off
    | .vf n => (((s.vdRec n).queues.toList[off / 0x40]?).map fun x => x.byte (off / 0x40) (off % 0x40)).getD 0
    | .debug => 0

/-- The byte at an offset of the BAR0 of a function of another port: its first word holds the primary port's number (21 R389). -/
def State.otherBarByte (s : State) (off : Nat) : Byte := regByte [(0, 4, s.primary)] off

end Sys2Proof.Machine
end

