-- ==== Sys2Proof/Safety.lean ====
section
/-!
DEFINITION. What a safe run is, in the terms the statements use: the canonical form that steps keep, and when a thread's
instruction is at the point where its own effect follows (03 R53, R54).
-/
namespace Sys2Proof.Machine

/-- A virtual tile's byte memories are in their canonical form: its scratchpad and its operand slots. -/
def VTile.memWf (v : VTile) : Bool := v.spad.wf && v.slots.toList.all fun x => x.mem.wf

/-- Every byte memory of a state is in its canonical form (log 4): the homes' frames, the weight store, every scratchpad and
operand slot, the bytes that the firmware keeps of pages, and the launches' images. -/
def State.memWf (s : State) : Bool :=
  s.hbm.wf && s.ws.wf && s.vtiles.all (fun e => e.2.memWf) &&
    s.pages.all (fun p => p.saved.wf) && s.launches.all fun e => e.2.image.wf

/-- A machine whose next step is a next state. -/
def Runs (s : State) : Prop := ∃ s', step s = .next s'

/-! ### A thread's turn -/

/-- The thread `r`, which stands as `t`, has the turn: no report waits, no copy of a TRIP follower has been made, and no
resource has held its instruction. -/
def State.atTurn (s : State) (r : TRef) (t : Thread) : Bool :=
  decide (s.cur = some r) && decide (s.thread? r = some t) && decide (t.reports = []) && decide (t.run = .ready) &&
    decide (t.trip = [])

/-- The wait of an instruction is met, and no overflow of its token shows (03 R53, R54). -/
def Thread.waitMet (t : Thread) (c : Ctl) : Bool :=
  decide (c.thr = 0) || (!t.overAt c.tok (if c.wc then c.thr.toNat else 0) && decide (c.thr.toNat ≤ (t.tokAt c.tok).value))

/-- No register named waits for a long-latency result, or UWCHK is 0 (02 R42). -/
def Thread.waited (t : Thread) (l : List Reg) : Bool := !t.uwchk || l.all fun x => !t.pend.getLsbD x.toNat

/-- What an instruction reads and writes, and the fields that must name pairs. -/
structure Uses where
  reads : List Reg := []
  writes : List Reg := []
  pairs : List Reg := []

/-- An instruction that no check of 03 R53 stops, with no TRIP before it: the mode, lead and level checks are its own. -/
def State.clearToIssue (s : State) (r : TRef) (t : Thread) (c : Ctl) (u : Uses) : Bool :=
  s.atTurn r t && t.waitMet c && t.waited (u.reads ++ u.writes) && u.pairs.all (fun x => !Reg.odd x)

end Sys2Proof.Machine
end

