-- ==== Sys2Proof/Safety/Scalar.lean ====
section
/-!
DEFINITION. What the scalar instructions compute, in the words of 05 R117 to R131, for the statements about them.
-/
namespace Sys2Proof.Claims
open Sys2Proof.Machine

/-! ### Values (05 R117 to R124) -/

/-- The word whose bit i is f i. -/
def bitsOf (f : Nat → Bool) : Nat → Word
  | 0 => 0
  | n + 1 => bitsOf f n ||| (if f n then 1 <<< n else 0)
def wordOf (f : Nat → Bool) : Word := bitsOf f 32

/-- Bits 63:32 of the signed and of the unsigned product. -/
def highSigned (a b : Word) : Word := (a.signExtend 64 * b.signExtend 64).extractLsb' 32 32
def highUnsigned (a b : Word) : Word := (a.setWidth 64 * b.setWidth 64).extractLsb' 32 32
/-- The number of set bits; the zero bits above the highest set bit; bit i goes to bit 31 − i. -/
def setBits (a : Word) : Nat := ((List.range 32).filter fun i => a.getLsbD i).length
def leadingZeros (a : Word) : Nat := if a = 0 then 32 else 31 - Nat.log2 a.toNat
def reversed (a : Word) : Word := wordOf fun i => a.getLsbD (31 - i)
def bytesSwapped (a : Word) : Word := wordOf fun i => a.getLsbD (8 * (3 - i / 8) + i % 8)
/-- A sum or difference clamped (05 R120). -/
def clampSigned (n : Int) : Word := if n < -2147483648 then 0x80000000 else if n > 2147483647 then 0x7FFFFFFF else BitVec.ofInt 32 n
def clampUnsigned (n : Int) : Word := if n < 0 then 0 else if n > 4294967295 then 0xFFFFFFFF else BitVec.ofInt 32 n
/-- EXTB and INSB bit by bit (05 R121): the field of width w at pos. -/
def extracted (sgn : Bool) (a : Word) (pos w : Nat) : Word :=
  wordOf fun i => if i < w then a.getLsbD (pos + i) else sgn && a.getLsbD (pos + w - 1)
def inserted (d a : Word) (pos w : Nat) : Word :=
  wordOf fun i => if pos ≤ i ∧ i < pos + w then a.getLsbD (i - pos) else d.getLsbD i
/-- HASH (05 R122). -/
def hashed (a b : Word) : Word :=
  let h1 := (a ^^^ b) ^^^ ((a ^^^ b) >>> 16)
  let h2 := h1 * 0x2C1B3C6D
  let h3 := (h2 ^^^ (h2 >>> 15)) * 0x297A2D39
  h3 ^^^ (h3 >>> 16)
/-- The conditions of 03 R78. -/
def compares (k : CC) {n : Nat} (a b : BitVec n) : Bool :=
  match k with
  | .eq => decide (a.toNat = b.toNat)
  | .ne => !decide (a.toNat = b.toNat)
  | .lt => decide (a.toInt < b.toInt)
  | .le => decide (a.toInt ≤ b.toInt)
  | .ltu => decide (a.toNat < b.toNat)
  | .leu => decide (a.toNat ≤ b.toNat)
/-- The immediate as a word (03 R71): the field sign-extended, or IMM24's low bits below XIMM's. -/
def immediate (c : Ctl) (imm : BitVec 24) : Word := BitVec.ofInt 32 (c.imm imm)

/-- Address of the instruction word + 8 × OFF (05 R130). -/
def branchTarget (t : Thread) (c : Ctl) (off : BitVec 24) : DWord :=
  t.pc + BitVec.ofNat 64 (8 * c.pfx.length) + BitVec.ofInt 64 (8 * c.imm off)

/-- A row of an instruction that computes from registers: its control fields, what it uses, its latency (02 R40), and the
registers that it writes with their values. -/
structure Row where
  c : Ctl
  u : Uses
  lat : Nat
  out : List (Reg × Word)

/-- The value that TRIP votes on: the word written, or the pair. -/
def valueOf (w : Row) : DWord :=
  match w.out with
  | [(_, lo), (_, hi)] => hi ++ lo
  | [(_, lo)] => (0 : Word) ++ lo
  | _ => 0

/-- One word result in rd from a and b. -/
def two (c : Ctl) (rd ra rb : Reg) (lat : Nat) (v : Word) : Row := ⟨c, { reads := [ra, rb], writes := [rd] }, lat, [(rd, v)]⟩
def one (c : Ctl) (rd ra : Reg) (lat : Nat) (v : Word) : Row := ⟨c, { reads := [ra], writes := [rd] }, lat, [(rd, v)]⟩

/-- The integer instructions on registers but the divisions (05 R117, R120 to R122). -/
def registerRow (t : Thread) : Instr → Option Row
  | .add c rd ra rb => some (two c rd ra rb 2 (t.reg ra + t.reg rb))
  | .sub c rd ra rb => some (two c rd ra rb 2 (t.reg ra - t.reg rb))
  | .mul c rd ra rb => some (two c rd ra rb 4 (BitVec.ofNat 32 ((t.reg ra).toNat * (t.reg rb).toNat)))
  | .mulh c rd ra rb => some (two c rd ra rb 4 (highSigned (t.reg ra) (t.reg rb)))
  | .mulhu c rd ra rb => some (two c rd ra rb 4 (highUnsigned (t.reg ra) (t.reg rb)))
  | .and c rd ra rb => some (two c rd ra rb 2 (t.reg ra &&& t.reg rb))
  | .or c rd ra rb => some (two c rd ra rb 2 (t.reg ra ||| t.reg rb))
  | .xor c rd ra rb => some (two c rd ra rb 2 (t.reg ra ^^^ t.reg rb))
  | .andn c rd ra rb => some (two c rd ra rb 2 (t.reg ra &&& ~~~(t.reg rb)))
  | .shl c rd ra rb => some (two c rd ra rb 2 (t.reg ra <<< (t.reg rb &&& 31)))
  | .shr c rd ra rb => some (two c rd ra rb 2 (t.reg ra >>> (t.reg rb &&& 31)))
  | .sar c rd ra rb => some (two c rd ra rb 2 ((t.reg ra).sshiftRight' (t.reg rb &&& 31)))
  | .rol c rd ra rb => some (two c rd ra rb 2 ((t.reg ra).rotateLeft ((t.reg rb).toNat % 32)))
  | .clz c rd ra => some (one c rd ra 2 (BitVec.ofNat 32 (leadingZeros (t.reg ra))))
  | .popc c rd ra => some (one c rd ra 2 (BitVec.ofNat 32 (setBits (t.reg ra))))
  | .brev c rd ra => some (one c rd ra 2 (reversed (t.reg ra)))
  | .min c rd ra rb => some (two c rd ra rb 2 (BitVec.ofInt 32 (min (t.reg ra).toInt (t.reg rb).toInt)))
  | .max c rd ra rb => some (two c rd ra rb 2 (BitVec.ofInt 32 (max (t.reg ra).toInt (t.reg rb).toInt)))
  | .minu c rd ra rb => some (two c rd ra rb 2 (BitVec.ofNat 32 (min (t.reg ra).toNat (t.reg rb).toNat)))
  | .maxu c rd ra rb => some (two c rd ra rb 2 (BitVec.ofNat 32 (max (t.reg ra).toNat (t.reg rb).toNat)))
  | .adds c .sgn rd ra rb => some (two c rd ra rb 2 (clampSigned ((t.reg ra).toInt + (t.reg rb).toInt)))
  | .adds c .uns rd ra rb => some (two c rd ra rb 2 (clampUnsigned ((t.reg ra).toNat + (t.reg rb).toNat)))
  | .subs c .sgn rd ra rb => some (two c rd ra rb 2 (clampSigned ((t.reg ra).toInt - (t.reg rb).toInt)))
  | .subs c .uns rd ra rb => some (two c rd ra rb 2 (clampUnsigned ((t.reg ra).toNat - (t.reg rb).toNat)))
  | .cmp c cc rd ra rb => some (two c rd ra rb 2 (if compares cc (t.reg ra) (t.reg rb) then 1 else 0))
  | .sel c rd ra rb rc =>
    some ⟨c, { reads := [ra, rb, rc], writes := [rd] }, 2, [(rd, if t.reg rc = 0 then t.reg rb else t.reg ra)]⟩
  | .mov c rd ra => some (one c rd ra 2 (t.reg ra))
  | .extb c sgn rd ra pos w1 => some (one c rd ra 2 (extracted sgn (t.reg ra) pos.toNat (w1.toNat + 1)))
  | .insb c rd ra pos w1 =>
    some ⟨c, { reads := [ra, rd], writes := [rd] }, 2, [(rd, inserted (t.reg rd) (t.reg ra) pos.toNat (w1.toNat + 1))]⟩
  | .hash c rd ra rb => some (two c rd ra rb 3 (hashed (t.reg ra) (t.reg rb)))
  | .bswap c rd ra => some (one c rd ra 2 (bytesSwapped (t.reg ra)))
  | _ => none

/-- The integer instructions with immediates, and the pair instructions (05 R123, R124, R129), and PCA (R130). -/
def immediateRow (t : Thread) : Instr → Option Row
  | .addi c rd ra imm => some (one c rd ra 2 (t.reg ra + immediate c imm))
  | .andi c rd ra imm => some (one c rd ra 2 (t.reg ra &&& immediate c imm))
  | .ori c rd ra imm => some (one c rd ra 2 (t.reg ra ||| immediate c imm))
  | .xori c rd ra imm => some (one c rd ra 2 (t.reg ra ^^^ immediate c imm))
  | .shli c rd ra imm => some (one c rd ra 2 (t.reg ra <<< (immediate c imm &&& 31)))
  | .shri c rd ra imm => some (one c rd ra 2 (t.reg ra >>> (immediate c imm &&& 31)))
  | .sari c rd ra imm => some (one c rd ra 2 ((t.reg ra).sshiftRight' (immediate c imm &&& 31)))
  | .cmpi c cc rd ra imm => some (one c rd ra 2 (if compares cc (t.reg ra) (immediate c imm) then 1 else 0))
  | .movi c rd imm => some ⟨c, { writes := [rd] }, 2, [(rd, imm)]⟩
  | .movhi c rd imm => some ⟨c, { writes := [Reg.hi rd], pairs := [rd] }, 2, [(Reg.hi rd, imm)]⟩
  | .addp c rd ra rb =>
    some ⟨c, { reads := [ra, Reg.hi ra, rb, Reg.hi rb], writes := [rd, Reg.hi rd], pairs := [rd, ra, rb] }, 2,
      pairWrites rd (t.pair ra + t.pair rb)⟩
  | .addpi c rd ra imm =>
    some ⟨c, { reads := [ra, Reg.hi ra], writes := [rd, Reg.hi rd], pairs := [rd, ra] }, 2,
      pairWrites rd (t.pair ra + BitVec.ofInt 64 (c.imm imm))⟩
  | .movp c rd ra =>
    some ⟨c, { reads := [ra, Reg.hi ra], writes := [rd, Reg.hi rd], pairs := [rd, ra] }, 2, pairWrites rd (t.pair ra)⟩
  | .pca c ra off =>
    some ⟨c, { writes := [ra, Reg.hi ra], pairs := [ra] }, 2, pairWrites ra (branchTarget t c off)⟩
  | .cmpp c cc rd ra rb =>
    some ⟨c, { reads := [ra, Reg.hi ra, rb, Reg.hi rb], writes := [rd], pairs := [ra, rb] }, 2,
      [(rd, if compares cc (t.pair ra) (t.pair rb) then 1 else 0)]⟩
  | _ => none

/-- Quotients and remainders for b ≠ 0 (05 R119). -/
def quotient (a b : Word) : Word := if a = 0x80000000 ∧ b = 0xFFFFFFFF then 0x80000000 else BitVec.ofInt 32 (a.toInt.tdiv b.toInt)
def remainder (a b : Word) : Word :=
  if a = 0x80000000 ∧ b = 0xFFFFFFFF then 0 else BitVec.ofInt 32 (a.toInt - a.toInt.tdiv b.toInt * b.toInt)

/-- The divisions, with the divisor's register (05 R119): L is 18. -/
def divisionRow (t : Thread) : Instr → Option (Reg × Reg × Row)
  | .div c rd ra rb => some (ra, rb, two c rd ra rb 18 (quotient (t.reg ra) (t.reg rb)))
  | .divu c rd ra rb => some (ra, rb, two c rd ra rb 18 (BitVec.ofNat 32 ((t.reg ra).toNat / (t.reg rb).toNat)))
  | .rem c rd ra rb => some (ra, rb, two c rd ra rb 18 (remainder (t.reg ra) (t.reg rb)))
  | .remu c rd ra rb => some (ra, rb, two c rd ra rb 18 (BitVec.ofNat 32 ((t.reg ra).toNat % (t.reg rb).toNat)))
  | _ => none

/-! ### Floating point (05 R125 to R128) -/

/-- FMIN, FMAX, FCMP, FSGN and FCLS on bit patterns (04 R103, R104; 05 R126). -/
def isNaN32 (a : Word) : Bool := decide (a &&& 0x7FFFFFFF > 0x7F800000)
/-- The order of numbers that are no NaN, −0 and +0 being equal. -/
def rank32 (a : Word) : Int := if a.getLsbD 31 then -((a &&& 0x7FFFFFFF).toNat : Int) else (a.toNat : Int)
def fcompares (k : FCC) (a b : Word) : Bool :=
  let nan := isNaN32 a || isNaN32 b
  match k with
  | .eq => !nan && decide (rank32 a = rank32 b)
  | .ne => nan || !decide (rank32 a = rank32 b)
  | .lt => !nan && decide (rank32 a < rank32 b)
  | .le => !nan && decide (rank32 a ≤ rank32 b)
  | .un => nan
  | .ord => !nan
def signChanged (k : SgnOp) (a b : Word) : Word :=
  if isNaN32 a then 0x7FC00000
  else match k with
    | .abs => a &&& 0x7FFFFFFF
    | .neg => a ^^^ 0x80000000
    | .cps => (a &&& 0x7FFFFFFF) ||| (b &&& 0x80000000)
def classMask (a : Word) : Word :=
  if isNaN32 a then 0x100
  else if a = 0x7F800000 then 0x80 else if a = 0xFF800000 then 1
  else if a = 0 then 0x10 else if a = 0x80000000 then 8
  else
    let sub := decide (a &&& 0x7F800000 = 0)
    match a.getLsbD 31, sub with
    | true, false => 2 | true, true => 4 | false, true => 0x20 | false, false => 0x40

/-- An FP instruction: its control fields, sources, destination, latency, whether SEN holds its thread (R128), its result
and the exceptions it raises. -/
structure FpRow where
  c : Ctl
  reads : List Reg
  rd : Reg
  lat : Nat
  holds : Bool
  v : Word
  x : Exc

def fpRow (t : Thread) : Instr → Option FpRow
  | .fadd c rd ra rb => let p := fpAdd t.rm (t.reg ra) (t.reg rb); some ⟨c, [ra, rb], rd, 4, true, p.1, p.2⟩
  | .fsub c rd ra rb => let p := fpAdd t.rm (t.reg ra) (t.reg rb ^^^ 0x80000000); some ⟨c, [ra, rb], rd, 4, true, p.1, p.2⟩
  | .fmul c rd ra rb => let p := fpMul t.rm (t.reg ra) (t.reg rb); some ⟨c, [ra, rb], rd, 4, true, p.1, p.2⟩
  | .ffma c rd ra rb rc =>
    let p := fpFma t.rm (t.reg ra) (t.reg rb) (t.reg rc); some ⟨c, [ra, rb, rc], rd, 4, true, p.1, p.2⟩
  | .fmin c rd ra rb => some ⟨c, [ra, rb], rd, 4, false, fpMin (t.reg ra) (t.reg rb), 0⟩
  | .fmax c rd ra rb => some ⟨c, [ra, rb], rd, 4, false, fpMax (t.reg ra) (t.reg rb), 0⟩
  | .fcmp c cc rd ra rb => some ⟨c, [ra, rb], rd, 4, false, if fcompares cc (t.reg ra) (t.reg rb) then 1 else 0, 0⟩
  | .fsgn c .cps rd ra rb => some ⟨c, [ra, rb], rd, 4, false, signChanged .cps (t.reg ra) (t.reg rb), 0⟩
  | .fsgn c k rd ra _ => some ⟨c, [ra], rd, 4, false, signChanged k (t.reg ra) 0, 0⟩
  | .frcp c rd ra => let p := fpRcp t.rm (t.reg ra); some ⟨c, [ra], rd, 6, true, p.1, p.2⟩
  | .frsq c rd ra => let p := fpRsq t.rm (t.reg ra); some ⟨c, [ra], rd, 6, true, p.1, p.2⟩
  | .fcvt c k rd ra => let p := fpCvt k t.rm (t.reg ra); some ⟨c, [ra], rd, 3, true, p.1, p.2⟩
  | .fcls c rd ra => some ⟨c, [ra], rd, 4, false, classMask (t.reg ra), 0⟩
  | _ => none

/-! ### Transfers (05 R130 to R133) -/

/-- A transfer's control fields, what it uses, its target when it is taken, whether its word is a call, and what it writes. -/
structure JumpRow where
  c : Ctl
  u : Uses
  taken : Bool
  target : DWord
  call : Bool
  out : List (Reg × Word)

def linkOf (t : Thread) (c : Ctl) : DWord := t.pc + BitVec.ofNat 64 (8 * c.pfx.length) + 8

def jumpRow (t : Thread) : Instr → Option JumpRow
  | .br c off => some ⟨c, {}, true, branchTarget t c off, false, []⟩
  | .bz c false ra off => some ⟨c, { reads := [ra] }, decide (t.reg ra = 0), branchTarget t c off, false, []⟩
  | .bz c true ra off =>
    some ⟨c, { reads := [ra, Reg.hi ra], pairs := [ra] }, decide (t.pair ra = 0), branchTarget t c off, false, []⟩
  | .bnz c false ra off => some ⟨c, { reads := [ra] }, decide (t.reg ra ≠ 0), branchTarget t c off, false, []⟩
  | .bnz c true ra off =>
    some ⟨c, { reads := [ra, Reg.hi ra], pairs := [ra] }, decide (t.pair ra ≠ 0), branchTarget t c off, false, []⟩
  | .loop c ra off =>
    some ⟨c, { reads := [ra], writes := [ra] }, decide (t.reg ra - 1 ≠ 0), branchTarget t c off, false, [(ra, t.reg ra - 1)]⟩
  | .call c off => some ⟨c, { writes := [14, 15] }, true, branchTarget t c off, true, pairWrites 14 (linkOf t c)⟩
  | .callr c ra =>
    some ⟨c, { reads := [ra, Reg.hi ra], writes := [14, 15], pairs := [ra] }, true, t.pair ra, true, pairWrites 14 (linkOf t c)⟩
  | .jmpr c ra => some ⟨c, { reads := [ra, Reg.hi ra], pairs := [ra] }, true, t.pair ra, false, []⟩
  | .ret c => some ⟨c, { reads := [14, 15] }, true, t.pair 14, false, []⟩
  | _ => none

/-- The thread after a transfer: the two cycles of 05 R133 follow one that is taken. -/
def landed (s : State) (r : TRef) (j : JumpRow) : State :=
  if j.taken then
    (s.retire r j.c).updThread r fun t => { t with pc := j.target, arrive := 1, block := none, refetchUntil := s.cycle + 2 }
  else s.retire r j.c

/-- Writes that are readable two cycles on, or, without any, the post of the cycle after issue (02 R40; 03 R55). -/
def completed (s : State) (r : TRef) (t : Thread) (c : Ctl) (out : List (Reg × Word)) : State :=
  if out = [] then s.postNext r (sigOf c t) else s.fly r 2 out 0 (sigOf c t)

end Sys2Proof.Claims
end

