-- ==== Sys2Proof/Safety/System.lean ====
section
/-!
DEFINITION. Terms for the statements about control, tokens, traps, special registers and threads (05 R134 to R138; 09
R226, R227, R248 to R255; 02 R43 to R46).
-/
namespace Sys2Proof.Claims
open Sys2Proof.Machine

/-- Instructions that complete in the cycle after issue and write no register, with what they do beside issuing: DLY, WAIT,
TRST, TADD, IDEM and YIELD without a thread to give the slot to. -/
def plainRow (s : State) (r : TRef) (t : Thread) : Instr → Option (Ctl × (Thread → Thread))
  | .dly c imm => some (c, fun t => { t with dlyUntil := s.cycle + 1 + (c.imm imm).toNat })
  | .wait c => some (c, id)
  | .yield c => if s.isDet r.l then some (c, id)
    else match s.nextReady r.tile with
      | none => some (c, fun t => { t with skipTurn := true, evictable := true })
      | some _ => none
  | .trst c k => some (c, fun u =>
      { u with rst := false, tok := u.tok.set k.toFin { count := 0, inc := (t.tokAt k).inc }
               tovf := u.tovf &&& ~~~((1 : BitVec 16) <<< k.toNat) })
  | .tadd c k imm =>
    if 0 ≤ c.imm imm ∧ c.imm imm ≤ 255 then some (c, fun u =>
      { u with rst := false, tok := u.tok.set k.toFin { u.tok[k.toFin] with inc := u.tok[k.toFin].inc + (c.imm imm).toNat } })
    else none
  | _ => none

/-- The special registers of 02 R44 that a thread's own image holds, and the constants of its place. -/
def imageValue (r : TRef) (t : Thread) (i : Nat) : Option Word :=
  match i with
  | 0x000 => some t.lane
  | 0x002 => some (BitVec.ofNat 32 r.th)
  | 0x003 => some (BitVec.ofNat 32 r.v)
  | 0x00A => some (t.homev.setWidth 32)
  | 0x012 => some t.instret
  | 0x020 => some t.fpctl
  | 0x021 => some (if t.uwchk then 1 else 0)
  | 0x022 => some (t.pend.setWidth 32)
  | 0x030 => some (BitVec.ofNat 32 t.tl)
  | 0x031 => some (t.half1.tpc.extractLsb' 0 32)
  | 0x032 => some (t.half1.tpc.extractLsb' 32 32)
  | 0x033 => some t.half1.tcause
  | 0x034 => some (t.half1.tval.extractLsb' 0 32)
  | 0x035 => some (t.half1.tval.extractLsb' 32 32)
  | 0x036 => some (t.half1.taux.extractLsb' 0 32)
  | 0x037 => some (t.half1.taux.extractLsb' 32 32)
  | 0x038 => some (t.half1.tinst.extractLsb' 56 8 ++ t.half1.tinst.extractLsb' 12 24)
  | 0x039 => some (t.half2.tpc.extractLsb' 0 32)
  | 0x03A => some (t.half2.tpc.extractLsb' 32 32)
  | 0x03B => some t.half2.tcause
  | 0x043 => some (t.tsave.extractLsb' 0 32)
  | 0x044 => some (t.tsave.extractLsb' 32 32)
  | 0x045 => some (t.irpc.extractLsb' 0 32)
  | 0x046 => some (t.irpc.extractLsb' 32 32)
  | 0x047 => some t.half1.tscL
  | 0x048 => some t.half1.tscH
  | 0x049 => some t.half2.tscL
  | 0x04A => some t.half2.tscH
  | 0x0F0 => some 0x0100
  | _ => none

/-- What a SWR of an image register leaves (02 R28, R29, R32, R44): the thread with the named 32 bits replaced. -/
def imageWrite (t : Thread) (i : Nat) (w : Word) : Option Thread :=
  match i with
  | 0x020 => some { t with fpctl := w &&& 0x03FF0FFF }
  | 0x021 => some { t with uwchk := w.getLsbD 0 }
  | 0x043 => some { t with tsave := t.tsave.extractLsb' 32 32 ++ w }
  | 0x044 => some { t with tsave := w ++ t.tsave.extractLsb' 0 32 }
  | 0x045 => some { t with irpc := t.irpc.extractLsb' 32 32 ++ w }
  | 0x046 => some { t with irpc := w ++ t.irpc.extractLsb' 0 32 }
  | 0x031 => some { t with half1 := { t.half1 with tpc := t.half1.tpc.extractLsb' 32 32 ++ w } }
  | 0x032 => some { t with half1 := { t.half1 with tpc := w ++ t.half1.tpc.extractLsb' 0 32 } }
  | 0x033 => some { t with half1 := { t.half1 with tcause := w } }
  | 0x047 => some { t with half1 := { t.half1 with tscL := w } }
  | 0x048 => some { t with half1 := { t.half1 with tscH := w } }
  | 0x03B => some { t with half2 := { t.half2 with tcause := w } }
  | _ => none

/-- An entry at trap level n for a thread with no result in flight (12 R293, R294): what it records, the link to the save
area, the level, and the vector of the cause's class. -/
structure Entered (t : Thread) (i : TrapInfo) (now : Nat) (t' : Thread) : Prop where
  level : t'.tl = t.tl + 1
  tpc : (t'.half (t.tl + 1)).tpc = i.tpc
  tval : (t'.half (t.tl + 1)).tval = i.tval
  taux : (t'.half (t.tl + 1)).taux = i.taux
  tinst : (t'.half (t.tl + 1)).tinst = i.tinst
  tcause : (t'.half (t.tl + 1)).tcause = BitVec.ofNat 32 i.cause
  tsc : (t'.half (t.tl + 1)).tscL = t.reg 14 ∧ (t'.half (t.tl + 1)).tscH = t.reg 15
  other : t'.half (if t.tl = 0 then 2 else 1) = t.half (if t.tl = 0 then 2 else 1)
  link : t'.pair 14 = t.tsave + BitVec.ofNat 64 (256 * t.tl)
  pc : t'.pc = (t.tvec &&& ~~~(63 : DWord)) + BitVec.ofNat 64 (64 * (i.cause / 32))
  issue : t'.refetchUntil = now + 12 ∧ t'.run = .ready
  regs : ∀ x : Reg, x ≠ 14 → x ≠ 15 → t'.reg x = t.reg x
  rest : t'.tok = t.tok ∧ t'.tovf = t.tovf ∧ t'.fpctl = t.fpctl ∧ t'.uwchk = t.uwchk ∧ t'.rst = t.rst ∧ t'.pend = t.pend ∧
    t'.tvec = t.tvec ∧ t'.tsave = t.tsave ∧ t'.irpc = t.irpc ∧ t'.instret = t.instret

/-- The cause, TVAL and TAUX of the instructions whose own effect is a trap (05 R138; 09 R248). -/
def trapRow (s : State) (r : TRef) (t : Thread) : Instr → Option (Ctl × Nat × DWord)
  | .trap c imm => if 0 ≤ c.imm imm ∧ c.imm imm ≤ 31 then some (c, 0xE0 + (c.imm imm).toNat, 0) else none
  | .bkpt c imm =>
    if t.bkptPass = false ∧ ((s.launch? r.l).map Launch.armed).getD false = false then some (c, 0x0D, BitVec.ofInt 64 (c.imm imm))
    else none
  | _ => none

end Sys2Proof.Claims
end

