-- ==== Sys2Proof/Safety/Requests.lean ====
section
/-!
DEFINITION. What the instructions that hand an operation to a unit leave, in the words of 06 to 09, for the statements about
them: the operation with its operands, and what else happens at issue.
-/
namespace Sys2Proof.Claims
open Sys2Proof.Machine

/-- An instruction that hands an operation to a unit: its fields, what it uses, whether only the lead may issue it, the
resources that must be free (12 R298), whether a second execution could change its effect (22 R420), whether it takes a place
in its tile's issue sequence (12 R302), the operation, and what its acceptance does at once. -/
structure Request where
  c : Ctl
  u : Uses
  holds : List Hold := []
  clears : Bool := false
  numbered : Bool := true
  op : Op
  also : State → State := id

/-- The machine after a request in free mode. -/
def handed (s : State) (r : TRef) (q : Request) : State :=
  let s1 := if q.clears then (s.retire r q.c).updThread r (fun t => { t with rst := false }) else s.retire r q.c
  let s2 := if q.numbered then s1.updTile r.tile (fun v => VTile.ageFx { v with issueSeq := v.issueSeq + 1 }) else s1
  q.also (s2.launchOp q.op)

/-- A thread in free mode, which has no lane (17 R344). -/
def inFreeMode (s : State) (r : TRef) : Bool := !s.isDet r.l && (s.lanes.get? r).isNone

def tileOf (s : State) (r : TRef) : VTile := (s.tile? r.tile).getD {}
def seqOf (s : State) (r : TRef) : Nat := ((s.tile? r.tile).map fun v => v.issueSeq.toNat).getD 0

/-- What an engine operation follows: the operations of its thread that its path must follow, where it writes, the reads that its
thread has not made, and the stores that happen before it (11 R276, R284, R289). -/
def engineAfter (s : State) (r : TRef) (p : Path) (rd wr : Bool) : List Nat :=
  (s.pathAfter r p rd wr ++ (if wr then s.readsBefore r none else []) ++ (s.before r p).map Prod.fst).eraseDups

/-- The operation of an instruction with its operand values, behind the operations of its thread that its path must follow. -/
def opOf (s : State) (r : TRef) (t : Thread) (c : Ctl) (i : Instr) (cls : Cls) (p : Path) (rd wr : Bool) (vals : List Word) : Op :=
  { t := r, tile := r.tile, vd := s.vdOf r.l, cls, ins := i, vals, path := p
    waddr := t.pc + BitVec.ofNat 64 (8 * c.pfx.length), tinst := s.iword, after := engineAfter (s.retire r c) r p rd wr
    sig := sigOf c t, region := t.region, ven := t.fpctl.extractLsb' 7 5, rm := t.fpctl.extractLsb' 0 2, seq := seqOf s r }

/-! ### The vector engine (07 R172 to R183) -/

/-- The registers of a vector word: destination, sources, scalar, count. -/
def vectorRow : Instr → Option (Ctl × Reg × List Reg × Option Reg × Reg)
  | .vadd c _ d a b n => some (c, d, [a, b], none, n)
  | .vsub c _ d a b n => some (c, d, [a, b], none, n)
  | .vmul c _ d a b n => some (c, d, [a, b], none, n)
  | .vfma c _ d a b e n => some (c, d, [a, b, e], none, n)
  | .vmin c _ d a b n => some (c, d, [a, b], none, n)
  | .vmax c _ d a b n => some (c, d, [a, b], none, n)
  | .vscl c _ d a b n => some (c, d, [a], some b, n)
  | .vadds c _ d a b n => some (c, d, [a], some b, n)
  | .vabs c _ d a n => some (c, d, [a], none, n)
  | .vneg c _ d a n => some (c, d, [a], none, n)
  | .vexp c d a n => some (c, d, [a], none, n)
  | .vlog c d a n => some (c, d, [a], none, n)
  | .vrcp c d a n => some (c, d, [a], none, n)
  | .vrsq c d a n => some (c, d, [a], none, n)
  | .vtanh c d a n => some (c, d, [a], none, n)
  | .vsum c _ d a n => some (c, d, [a], none, n)
  | .vmaxr c _ d a n => some (c, d, [a], none, n)
  | .vminr c _ d a n => some (c, d, [a], none, n)
  | .vargm c _ d a n => some (c, d, [a], none, n)
  | .vdot c _ d a b n => some (c, d, [a, b], none, n)
  | .vcmp c _ d a b n => some (c, d, [a, b], none, n)
  | .vsel c _ d a b e n => some (c, d, [a, b, e], none, n)
  | .vgath c _ d a b n => some (c, d, [a, b], none, n)
  | .vscat c _ d a b n => some (c, d, [a, b], none, n)
  | .vbcst c _ d a n => some (c, d, [], some a, n)
  | .viota c _ d a n => some (c, d, [], some a, n)
  | .vcopy c _ d a n => some (c, d, [a], none, n)
  | .vlogic c .not d a _ n => some (c, d, [a], none, n)
  | .vlogic c _ d a b n => some (c, d, [a, b], none, n)
  | .vhash c d a b n => some (c, d, [a], some b, n)
  | _ => none

/-- The request of a vector word: its operands' values, in the places destination, three sources, scalar, count, and the
window descriptors as they stand at issue (07 R173). -/
def vectorRequest (s : State) (r : TRef) (t : Thread) (i : Instr) : Option Request :=
  match vectorRow i with
  | none => none
  | some (c, d, srcs, sc, n) =>
    let src (k : Nat) : Word := ((srcs[k]?).map t.reg).getD 0
    let vals := [t.reg d, src 0, src 1, src 2, (sc.map t.reg).getD 0, t.reg n]
    some { c, u := { reads := [d, n] ++ srcs ++ sc.toList }, holds := [.vecQueue]
           op :=
             let wins := ((s.tile? r.tile).map fun v => v.win.toList).getD []
             { opOf s r t c i .vector .vec (decide (srcs ≠ [])) true vals with
               wins, srcs := ((vform i).map fun f => vecSrcs i f wins vals).getD [] } }

/-! ### Messages and block transfers (06 R160 to R167) -/

/-- A short address that names no space of the tile's own, or is not aligned, reads no descriptor (06 R166). -/
def shapeBytes (s : State) (r : TRef) (w : Word) : List Byte :=
  match extentOf w 24 with
  | .ok off => if off % 8 = 0 then (tileOf s r).spad.readN off 24 else []
  | .error _ => []

/-- No word of the descriptor is flipped, poisoned or in a retired bank. -/
def shapeSound (s : State) (r : TRef) (w : Word) : Bool :=
  match extentOf w 24 with
  | .ok off => (wordsIn off 24).all fun x => decide (s.readWord (tileOf s r) x = .ok)
  | .error _ => true

def reach (s : State) (r : TRef) (d : Nat) : List Hold := if d < s.gridSize r.l then [.vtt d] else []

def messageRequest (s : State) (r : TRef) (t : Thread) (i : Instr) : Option Request :=
  match i with
  | .send c vt pl tag mb =>
    let d := (t.reg vt).toNat
    if d < s.gridSize r.l then some
      { c, u := { reads := [vt, pl, Reg.hi pl], pairs := [pl] }, holds := [.vtt d, .outQueue], clears := true, numbered := false
        op := { t := r, tile := r.tile, vd := s.vdOf r.l, cls := .send, ins := i, path := .msg
                waddr := t.pc + BitVec.ofNat 64 (8 * c.pfx.length), tinst := s.iword, unit := d, prog := mb.toNat, line := tag.toNat
                data := leBytes (t.pair pl).toNat 8, sig := sigOf c t, region := t.region
                after := ((s.retire r c).coreOpen r ++ s.pathAfter r .msg false true).eraseDups
                gives := (s.retire r c).coreGift r .vdS [] } }
    else none
  | .put c _ vt dst src n =>
    some { c, u := { reads := [vt, dst, src, n] }, holds := reach s r (t.reg vt).toNat, clears := true
           op := { opOf s r t c i .transfer .msg true true [t.reg vt, t.reg dst, t.reg src, t.reg n] with unit := (t.reg vt).toNat } }
  | .get c dst vt src n =>
    some { c, u := { reads := [dst, vt, src, n] }, holds := reach s r (t.reg vt).toNat
           op := { opOf s r t c i .transfer .msg true true [t.reg dst, t.reg vt, t.reg src, t.reg n] with unit := (t.reg vt).toNat } }
  | .xin c loc gp sh =>
    if shapeSound s r (t.reg sh) = false then none else some
         { c, u := { reads := [loc, gp, Reg.hi gp, sh], pairs := [gp] }
           op := { opOf s r t c i .xfer .vec true true [t.reg loc, t.reg gp, t.reg (Reg.hi gp), t.reg sh] with
                   data := shapeBytes s r (t.reg sh), scope := .vdS } }
  | .xout c loc gp sh =>
    if shapeSound s r (t.reg sh) = false then none else some
         { c, u := { reads := [loc, gp, Reg.hi gp, sh], pairs := [gp] }
           op := { opOf s r t c i .xfer .vec true true [t.reg loc, t.reg gp, t.reg (Reg.hi gp), t.reg sh] with
                   data := shapeBytes s r (t.reg sh), scope := .vdS } }
  | _ => none

/-! ### The quasi-random unit and the matrix path (07 R195 to R199; 08 R204 to R224) -/

/-- A record's bytes; the place of a QLOAD or QSAVE that R195 admits. -/
def qmoveOk (a : Word) (d cnt n : Nat) : Bool :=
  decide (d + cnt ≤ 64) &&
  match shortAddr a with
  | some (_, off) => decide (off + cnt * n ≤ 2 ^ 20) && decide (off % 8 = 0)
  | none => false

def slotAt (s : State) (r : TRef) (x : Reg) : Slot := (tileOf s r).slot x.toNat
def putSlot (r : TRef) (x : Reg) (f : Slot → Slot) (s : State) : State := s.updSlot r.tile x.toNat f

def engineRequest (s : State) (r : TRef) (t : Thread) (i : Instr) : Option Request :=
  match i with
  | .qload c short ra rb cnt =>
    if qmoveOk (t.reg ra) (t.reg rb).toNat cnt.toNat (if short then 8 else 136) then some
      { c, u := { reads := [ra, rb] }, holds := [.qruQueue], op := opOf s r t c i .qru .vec true false [t.reg ra, t.reg rb] }
    else none
  | .qsave c short ra rb cnt =>
    if qmoveOk (t.reg ra) (t.reg rb).toNat cnt.toNat (if short then 8 else 136) then some
      { c, u := { reads := [ra, rb] }, holds := [.qruQueue], op := opOf s r t c i .qru .vec false true [t.reg ra, t.reg rb] }
    else none
  | .qseed c _ ra rb =>
    if (t.reg ra).toNat < 64 then some
      { c, u := { reads := [ra, rb] }, holds := [.qruQueue], op := opOf s r t c i .qru .vec false false [t.reg ra, t.reg rb] }
    else none
  | .qgenv c dst dim idx n =>
    some { c, u := { reads := [dst, dim, idx, n] }, holds := [.qruQueue]
           op := { opOf s r t c i .qru .vec false true [t.reg dst, t.reg dim, t.reg idx, t.reg n] with
                   wins := ((s.tile? r.tile).map fun v => v.win.toList).getD [] } }
  | .oload c k x src len =>
    let y := slotAt s r x
    if (y.st = .claimed ∨ y.st = .filled) ∧ s.slotInUse r.tile x.toNat = false ∧ y.depthOk (t.reg len).toNat = true then
      let a : DWord := if k = .l then (t.reg src).setWidth 64 else t.pair src
      some { c, u := { reads := (if k = .l then [src] else [src, Reg.hi src]) ++ [len], pairs := if k = .l then [] else [src] }
             op := { opOf s r t c i .oload .mtx true false [a.setWidth 32, a.extractLsb' 32 32, t.reg len] with
                     unit := OSrc.code k, scope := .vdS
                     after := engineAfter (s.retire r c) r .mtx true false ++ s.drainsBefore r.tile }
             also := putSlot r x fun y => { y with st := .filling, k := (t.reg len).toNat, cursor := 0 } }
    else none
  | .mol c acc sa lst n =>
    let x := slotAt s r sa
    if x.st = .filled ∧ x.role = .a ∧ x.fmt ≠ .bf ∧ ((tileOf s r).accu acc.toNat).tag ≠ .bf then some
      { c, u := { reads := [lst, n] }, holds := [.arrayQueue], clears := true
        op := opOf s r t c i .array .mtx true false [t.reg lst, t.reg n]
        also := fun s => s.updAcc r.tile acc.toNat fun y => { y with tag := .int } }
    else none
  | .mdrn c _ dst cs rs =>
    some { c, u := { reads := [dst, cs, rs] }, holds := [.arrayQueue]
           op := { opOf s r t c i .array .mtx true true [t.reg dst, t.reg cs, t.reg rs] with
                   wins := ((s.tile? r.tile).map fun v => v.win.toList).getD [] } }
  | .mclr c acc =>
    some { c, u := {}, holds := [.arrayQueue], op := opOf s r t c i .array .mtx false false []
           also := fun s => s.updAcc r.tile acc.toNat fun y => { y with tag := .none } }
  | .mstat c rd _ =>
    some { c, u := { writes := [rd] }, holds := [.arrayQueue]
           op := { opOf s r t c i .array .mtx false false [] with regs := [rd] } }
  | _ => none

/-! ### Groups, copies and launches (09 R228 to R247) -/

/-- A group message: to the home that a handle names in bits 23:0. -/
def groupMessage (s : State) (r : TRef) (t : Thread) (c : Ctl) (i : Instr) (home : Nat) (vals : List Word) (arrival : Bool) : Op :=
  { t := r, tile := r.tile, vd := s.vdOf r.l, cls := .group, ins := i, vals, path := .msg
    waddr := t.pc + BitVec.ofNat 64 (8 * c.pfx.length), tinst := s.iword, unit := home, sig := sigOf c t, region := t.region
    after := (s.pathAfter r .msg false true ++ (if arrival then (s.retire r c).coreOpen r else [])).eraseDups
    gives := if arrival then (s.retire r c).coreGift r .vdS [] else none }

def homeIn (h : Word) : Nat := (h &&& 0xFFFFFF).toNat

def groupRequest (s : State) (r : TRef) (t : Thread) (i : Instr) : Option Request :=
  let ok (n : Nat) (q : Request) : Option Request := if n < s.gridSize r.l then some { q with numbered := false } else none
  match i with
  | .gnew c rd ra => ok (t.reg ra).toNat
      { c, u := { reads := [ra], writes := [rd] }, clears := true
        op := { groupMessage s r t c i (t.reg ra).toNat [t.reg ra] false with regs := [rd] } }
  | .gjoin c ra => ok (homeIn (t.reg ra))
      { c, u := { reads := [ra] }, clears := true, op := groupMessage s r t c i (homeIn (t.reg ra)) [t.reg ra] false }
  | .gleave c ra => ok (homeIn (t.reg ra))
      { c, u := { reads := [ra] }, clears := true, op := groupMessage s r t c i (homeIn (t.reg ra)) [t.reg ra] false }
  | .gfree c ra => ok (homeIn (t.reg ra))
      { c, u := { reads := [ra] }, clears := true, op := groupMessage s r t c i (homeIn (t.reg ra)) [t.reg ra] false }
  | .gcnt c rd ra => ok (homeIn (t.reg ra))
      { c, u := { reads := [ra], writes := [rd] }
        op := { groupMessage s r t c i (homeIn (t.reg ra)) [t.reg ra] false with regs := [rd] } }
  | .gbar c ra k => ok (homeIn (t.reg ra))
      { c, u := { reads := [ra] }, clears := true
        op := { groupMessage s r t c i (homeIn (t.reg ra)) [t.reg ra] true with gbar := some ⟨k, 1, t.region⟩ } }
  | .gred c _ h val cnt res tok =>
    match shortAddr (t.reg res) with
    | some (_, off) => if off % 4 = 0 then ok (homeIn (t.reg h))
        { c, u := { reads := [h, val, cnt, res] }, clears := true
          op := { groupMessage s r t c i (homeIn (t.reg h)) [t.reg h, t.reg val, t.reg cnt, t.reg res] true with
                  gbar := some ⟨tok, 1, t.region⟩ } } else none
    | none => none
  | .lnch c ra =>
    match Addr.of (t.pair ra) with
    | .glob home _ =>
      if (t.pair ra).toNat % 256 = 0 then some
        { c, u := { reads := [ra, Reg.hi ra], pairs := [ra] }, clears := true, numbered := false
          op := { t := r, tile := r.tile, vd := s.vdOf r.l, cls := .launchQ, ins := i, ea := t.pair ra, size := 256, unit := home
                  path := .core, scope := .vdS, waddr := t.pc + BitVec.ofNat 64 (8 * c.pfx.length), tinst := s.iword
                  sig := sigOf c t, region := t.region
                  after := ((s.retire r c).coreOpen r ++ s.pathAfter r .core true true).eraseDups
                  gives := (s.retire r c).coreGift r .vdS [] } }
      else none
    | _ => none
  | _ => none

/-- A state in which the request's instruction issues. -/
def requestReady (s : State) (r : TRef) (t : Thread) (q : Request) : Bool :=
  s.clearToIssue r t q.c q.u && q.holds.all (s.holdFree r.tile)

end Sys2Proof.Claims
end

