-- ==== Sys2Proof/Safety/Access.lean ====
section
/-!
DEFINITION. Loads, stores and atomics in the words of 06 R143 to R155, for the statements about them.
-/
namespace Sys2Proof.Claims
open Sys2Proof.Machine

/-- The address of F-M: the pair and the offset, modulo 2^64 (06 R143). -/
def eaOf (t : Thread) (c : Ctl) (pb : Reg) (off : BitVec 24) : DWord := t.pair pb + BitVec.ofInt 64 (c.imm off)

/-- The place in a tile's own scratchpad that an address names: a local address, or, in a GO form, a remote address of the
tile itself (06 R149). -/
def ownPlace (r : TRef) (go : Bool) (ea : DWord) : Option (Nat × Nat) :=
  match Addr.of ea with
  | .loc w off => if go then none else some (w, off)
  | .remote v w off => if go ∧ v = r.v then some (w, off) else none
  | _ => none

/-- Little-endian value (04 R90), and its extension to a word (06 R146). -/
def littleEndian (bs : List Byte) : Nat := bs.foldr (fun b n => b.toNat + 256 * n) 0
def extended (sgn : Bool) (bs : List Byte) : Word :=
  let n := littleEndian bs
  if sgn ∧ 2 ^ (8 * bs.length - 1) ≤ n then BitVec.ofInt 32 ((n : Int) - 2 ^ (8 * bs.length)) else BitVec.ofNat 32 n
/-- The k low bytes of a value, lowest first. -/
def lowBytes (v : Nat) (k : Nat) : List Byte := (List.range k).map fun i => BitVec.ofNat 8 (v / 256 ^ i)

/-- A load or store: its fields, whether it goes, its registers, the bytes that it moves raw, and whether it sign-extends. -/
structure Access where
  c : Ctl
  go : Bool := false
  rt : Reg
  pb : Reg
  off : BitVec 24
  n : Nat
  sgn : Bool := false

def ldBytes : LdSz → Nat | .b => 1 | .bu => 1 | .h => 2 | .hu => 2 | .w => 4
def stBytes : StSz → Nat | .b => 1 | .h => 2 | .w => 4
def aqBytes : AqSz → Nat | .w => 4 | .d => 8

def loadRow : Instr → Option Access
  | .ld c sz go rt pb off => some ⟨c, go, rt, pb, off, ldBytes sz, decide (sz = .b ∨ sz = .h)⟩
  | .ldp c go rt pb off => some ⟨c, go, rt, pb, off, 8, false⟩
  | _ => none
def storeRow : Instr → Option (Access × Bool)
  | .st c sz go rt pb off => some (⟨c, go, rt, pb, off, stBytes sz, false⟩, false)
  | .stp c go rt pb off => some (⟨c, go, rt, pb, off, 8, false⟩, false)
  | .strl c sz rt pb off => some (⟨c, false, rt, pb, off, aqBytes sz, false⟩, true)
  | _ => none

def Access.pair (a : Access) : Bool := decide (a.n = 8)
def Access.data (a : Access) : List Reg := if a.n = 8 then [a.rt, Reg.hi a.rt] else [a.rt]
def Access.loadUses (a : Access) : Uses :=
  { reads := [a.pb, Reg.hi a.pb], writes := a.data, pairs := a.pb :: (if a.n = 8 then [a.rt] else []) }
def Access.storeUses (a : Access) : Uses :=
  { reads := [a.pb, Reg.hi a.pb] ++ a.data, pairs := a.pb :: (if a.n = 8 then [a.rt] else []) }

/-- The bytes that an access of a word through a window of a format moves (06 R144); others move their own size through RAW, a
pair through OL64 too (06 R146). -/
def Access.through (a : Access) (fmt : Nat) : Option Nat :=
  if fmt = 0 then some a.n
  else if a.n = 4 ∧ fmt ≤ 9 then some (if fmt = 1 ∨ fmt = 7 ∨ fmt = 9 then 4 else if fmt = 2 ∨ fmt = 3 ∨ fmt = 6 then 2 else 1)
  else if a.n = 8 ∧ fmt = 10 then some 8
  else none

/-- What a load delivers from its bytes. -/
def Access.loaded (a : Access) (fmt : Nat) (bs : List Byte) : List (Reg × Word) :=
  if a.n = 8 then [(a.rt, BitVec.ofNat 32 (littleEndian bs)), (Reg.hi a.rt, BitVec.ofNat 32 (littleEndian bs / 2 ^ 32))]
  else if fmt = 0 then [(a.rt, extended a.sgn bs)]
  else if 4 ≤ fmt ∧ fmt ≤ 7 then [(a.rt, BitVec.ofInt 32 (decodeInt fmt (littleEndian bs)))]
  else [(a.rt, (decodeF32 fmt (littleEndian bs)).1)]

/-- The bytes that a store writes and the exceptions that it raises (06 R146). -/
def Access.stored (a : Access) (t : Thread) (w : Window) (n : Nat) : List Byte × Exc :=
  if a.n = 8 then (lowBytes (t.pair a.rt).toNat 8, 0)
  else if w.fmt = 0 then (lowBytes (t.reg a.rt).toNat n, 0)
  else if 4 ≤ w.fmt ∧ w.fmt ≤ 7 then (lowBytes (clampInt w.fmt (t.reg a.rt).toInt) n, 0)
  else (lowBytes (encodeVal w (v32 (t.reg a.rt))).1 n, (encodeVal w (v32 (t.reg a.rt))).2)

/-- Whether a VD's SCOPE allows a scope (06 R147 step 6). -/
def scopeAllowed (s : State) (r : TRef) (sc : Scope) : Bool :=
  match sc with
  | .moduleS => (s.vdRec (s.vdOf r.l)).scope.getLsbD 0
  | .systemS => (s.vdRec (s.vdOf r.l)).scope.getLsbD 1
  | _ => true

/-- A GO form only at level 0 of a launch in free mode (06 R149; 09 R256). -/
def goAllowed (s : State) (r : TRef) (t : Thread) (go : Bool) : Bool := !go || (decide (t.tl = 0) && !s.isDet r.l)

/-- No word of an extent is flipped, poisoned or in a retired bank. -/
def sound (s : State) (v : VTile) (off n : Nat) : Bool := (wordsIn off n).all fun w => decide (s.readWord v w = .ok)

/-! ### Atomics (06 R154, R155) -/

structure AtomicRow where
  c : Ctl
  go : Bool
  rt : Reg
  pb : Reg
  off : BitVec 24
  n : Nat
  ret : Bool
  /-- The new value from the old one, the operand and the replacement. -/
  new : Nat → Nat → Nat → Nat

def ofSize (n : Nat) (a : Nat) : Int := if a < 2 ^ (8 * n - 1) then a else (a : Int) - 2 ^ (8 * n)
def atBytes : AtSz → Nat | .w => 4 | .wn => 4 | .d => 8 | .dn => 8
def atRet : AtSz → Bool | .w => true | .wn => false | .d => true | .dn => false

def atomicRow : Instr → Option AtomicRow
  | .aadd c sz go rt pb off => some ⟨c, go, rt, pb, off, atBytes sz, atRet sz, fun o v _ => (o + v) % 2 ^ (8 * atBytes sz)⟩
  | .aand c sz go rt pb off => some ⟨c, go, rt, pb, off, atBytes sz, atRet sz, fun o v _ => o &&& v⟩
  | .aor c sz go rt pb off => some ⟨c, go, rt, pb, off, atBytes sz, atRet sz, fun o v _ => o ||| v⟩
  | .axor c sz go rt pb off => some ⟨c, go, rt, pb, off, atBytes sz, atRet sz, fun o v _ => o ^^^ v⟩
  | .amin c sz go rt pb off =>
    some ⟨c, go, rt, pb, off, atBytes sz, atRet sz, fun o v _ => if ofSize (atBytes sz) v < ofSize (atBytes sz) o then v else o⟩
  | .amax c sz go rt pb off =>
    some ⟨c, go, rt, pb, off, atBytes sz, atRet sz, fun o v _ => if ofSize (atBytes sz) o < ofSize (atBytes sz) v then v else o⟩
  | .aminu c sz go rt pb off => some ⟨c, go, rt, pb, off, atBytes sz, atRet sz, fun o v _ => if v < o then v else o⟩
  | .amaxu c sz go rt pb off => some ⟨c, go, rt, pb, off, atBytes sz, atRet sz, fun o v _ => if o < v then v else o⟩
  | .axch c sz go rt pb off => some ⟨c, go, rt, pb, off, atBytes sz, atRet sz, fun _ v _ => v⟩
  | .acas c sz go rt pb off => some ⟨c, go, rt, pb, off, aqBytes sz, true, fun o v x => if o = v then x else o⟩
  | .afadd c sz go rt pb off => some ⟨c, go, rt, pb, off, 4, decide (sz = .w), fun o v _ =>
      (fpAdd .rne (BitVec.ofNat 32 o) (BitVec.ofNat 32 v)).1.toNat⟩
  | .afmin c sz go rt pb off => some ⟨c, go, rt, pb, off, 4, decide (sz = .w), fun o v _ =>
      (fpMin (BitVec.ofNat 32 o) (BitVec.ofNat 32 v)).toNat⟩
  | .afmax c sz go rt pb off => some ⟨c, go, rt, pb, off, 4, decide (sz = .w), fun o v _ =>
      (fpMax (BitVec.ofNat 32 o) (BitVec.ofNat 32 v)).toNat⟩
  | _ => none

def isAcas : Instr → Bool | .acas .. => true | _ => false
/-- Registers: the operand; for ACAS the replacement in the next register, or the next pair. -/
def AtomicRow.operand (a : AtomicRow) (t : Thread) : Nat := if a.n = 8 then (t.pair a.rt).toNat else (t.reg a.rt).toNat
def AtomicRow.replacement (a : AtomicRow) (t : Thread) : Nat :=
  if a.n = 8 then (t.pair (a.rt + 2)).toNat else (t.reg (a.rt + 1)).toNat
def AtomicRow.out (a : AtomicRow) (old : Nat) : List (Reg × Word) :=
  if !a.ret then []
  else if a.n = 8 then [(a.rt, BitVec.ofNat 32 old), (Reg.hi a.rt, BitVec.ofNat 32 (old / 2 ^ 32))] else [(a.rt, BitVec.ofNat 32 old)]
def AtomicRow.uses (a : AtomicRow) (cas : Bool) : Uses :=
  { reads := [a.pb, Reg.hi a.pb] ++
      (if cas then (if a.n = 8 then [a.rt, a.rt + 1, a.rt + 2, a.rt + 3] else [a.rt, a.rt + 1])
       else if a.n = 8 then [a.rt, Reg.hi a.rt] else [a.rt])
    writes := (a.out 0).map Prod.fst
    pairs := a.pb :: (if a.n = 8 then [a.rt] else []) ++ (if cas ∧ a.n = 8 ∧ a.rt.toNat % 4 ≠ 0 then [1] else []) }

/-! ### Accesses that leave the tile (06 R144, R148, R152, R153) -/

/-- Kind, size, whether it returns, acquire or release, and the data read at issue, of any access. -/
structure Leaving where
  c : Ctl
  u : Uses
  go : Bool
  kind : AccKind
  n : Nat
  regs : List Reg
  data : List Byte
  aq : Bool := false
  rl : Bool := false
  rt : Reg
  pb : Reg
  off : BitVec 24

def leavingRow (t : Thread) (i : Instr) : Option Leaving :=
  match loadRow i, storeRow i, atomicRow i, i with
  | some a, _, _, _ => some { c := a.c, u := a.loadUses, go := a.go, kind := .load, n := a.n, regs := a.data, data := [], rt := a.rt, pb := a.pb, off := a.off }
  | _, some (a, rl), _, _ =>
    some { c := a.c, u := a.storeUses, go := a.go, kind := .store, n := a.n, regs := [], rl, rt := a.rt, pb := a.pb, off := a.off
           data := if a.n = 8 then lowBytes (t.pair a.rt).toNat 8 else lowBytes (t.reg a.rt).toNat a.n }
  | _, _, some a, _ =>
    some { c := a.c, u := a.uses (isAcas i), go := a.go, kind := .atomic, n := a.n, regs := (a.out 0).map Prod.fst, rt := a.rt, pb := a.pb
           off := a.off, data := lowBytes (a.operand t) a.n ++ (if isAcas i then lowBytes (a.replacement t) a.n else []) }
  | _, _, _, .ldaq c sz rt pb off =>
    let a : Access := ⟨c, false, rt, pb, off, aqBytes sz, false⟩
    some { c, u := a.loadUses, go := false, kind := .load, n := a.n, regs := a.data, data := [], aq := true, rt, pb, off }
  | _, _, _, _ => none

/-- The scope of an access: VD for atomics, acquires and releases, TILE for the others, unless ORD says otherwise (03 R73). -/
def Leaving.scope (a : Leaving) : Scope := a.c.scope (if a.kind = .atomic ∨ a.aq ∨ a.rl then .vdS else .tileS)
/-- A load that the read cache may serve (06 R152, R153). -/
def Leaving.cacheable (a : Leaving) (s : State) (r : TRef) : Bool :=
  decide (a.kind = .load) && (decide (a.scope = .slotS) || decide (a.scope = .tileS)) && !a.aq && !s.isDet r.l

/-- What a write hands over when it is performed: as a release, or after a FENCE.rel (11 R278, R279). -/
def Leaving.gift (a : Leaving) (s : State) (r : TRef) : Option Gift :=
  if a.kind = .load then none else (s.retire r a.c).giftFor r s.nextId a.rl a.scope

/-- The operation of an access of another tile, of weight space or of global memory. -/
def leavingOp (s : State) (r : TRef) (t : Thread) (i : Instr) (a : Leaving) : Op :=
  { t := r, tile := r.tile, vd := s.vdOf r.l, cls := .remote, ins := i, ea := eaOf t a.c a.pb a.off, size := a.n, data := a.data
    acquire := a.aq, release := a.rl, scope := a.scope, path := .core, gives := a.gift s r, waddr := t.pc + BitVec.ofNat 64 (8 * a.c.pfx.length)
    tinst := s.iword, sig := sigOf a.c t, regs := a.regs, region := t.region }

/-- The request of an access that its checks admit and that is not for its own scratchpad (06 R147). A global load that the
cache may serve is apart. -/
def accessRequest (s : State) (r : TRef) (t : Thread) (i : Instr) : Option Request :=
  match leavingRow t i with
  | none => none
  | some a =>
    let ea := eaOf t a.c a.pb a.off
    let o := leavingOp s r t i a
    let s' := s.retire r a.c
    let rel := if a.rl then s'.releaseAfter r a.scope else []
    if a.go then none
    else if !scopeAllowed s r a.scope then none
    else match Addr.of ea with
      | .remote v w _ => if v < s.gridSize r.l then some
          { c := a.c, u := a.u, holds := [.vtt v], clears := decide (a.kind = .atomic), numbered := false
            op := { o with unit := w, after := s'.coreAfter r a.kind ea 8 false ++ rel } } else none
      | .weight off =>
        if a.kind = .load ∧ a.aq = false ∧ ea.toNat % a.n = 0 ∧ (s.wsAt (s.tilePool r.tile) (s.tileField r.tile) off).isSome then some
          { c := a.c, u := a.u, numbered := false
            op := { o with cls := .weight, unit := off, after := s'.coreAfter r .load ea a.n false } } else none
      | .glob home _ =>
        if ea.toNat % a.n ≠ 0 then none
        else match a.kind with
          | .load => if a.cacheable s r ∧ (s.cached r ea.toNat).isSome then none else some
              { c := a.c, u := a.u, holds := (if a.cacheable s r then [.refills] else []) ++ [.homes], numbered := false
                op := { o with cls := .globalLoad, unit := home, after := s'.coreAfter r .load ea a.n true
                               line := if a.cacheable s r then 1 else 0 }
                also := fun s => { s with fresh := s.fresh + 1 } }
          | .store => some
              { c := a.c, u := a.u, holds := [.writeBuffer, .homes], numbered := false
                op := { o with cls := .globalStore, unit := home, after := s'.coreAfter r .store ea a.n true ++ rel }
                also := fun s => s.updateLine r.tile ea.toNat (o.data.take a.n) r o.gives }
          | .atomic => some
              { c := a.c, u := a.u, holds := [.homes], clears := true, numbered := false
                op :=
                  let g : Op := { o with cls := .globalAtomic, unit := home }
                  { g with after := s.reduceAfter g (s'.coreAfter r .atomic ea a.n true) }
                also := fun s => s.dropLine r.tile ea.toNat }
      | _ => none

/-- The machine once the checks of an access have read a window's descriptor, which a chunk counts among its reads: its own tile's, or,
for a load, that of the tile it addresses (17 R347; log 20). -/
def windowRead (s : State) (r : TRef) (a : Leaving) (ea : DWord) : State :=
  let key (v w : Nat) : Nat := 2 ^ 63 + 2 ^ 61 + 32 * (8 * v + w)
  match Addr.of ea with
  | .loc w _ => s.noteRead r (key r.v w)
  | .remote v w _ => if a.kind = .load then s.noteRead r (key v w) else s
  | _ => s

/-- The first check of 06 R147 that an access fails, in their order: the other tile, the space, the alignment, the weight
store, the window's format, the scope. -/
def accessTrap (s : State) (r : TRef) (a : Leaving) (ea : DWord) : Option Nat :=
  let bad : Option Nat := if scopeAllowed s r a.scope then none else some 0x43
  let acc : Access := ⟨a.c, a.go, a.rt, a.pb, a.off, a.n, false⟩
  let own (w : Nat) : Option Nat :=
    let fmt := ((tileOf s r).window w).fmt
    let n := if a.kind = .atomic then a.n else if a.n = 4 then (acc.through fmt).getD 4 else a.n
    if ea.toNat % n ≠ 0 then some 0x40
    else if a.kind ≠ .atomic ∧ (acc.through fmt).isNone then some 0x47 else bad
  match Addr.of ea with
  | .remote v w _ =>
    if v ≥ s.gridSize r.l then some 0x45
    else if a.go then (if v = r.v then own w else none) else bad
  | .loc w _ => if a.go then some 0x46 else own w
  | .host => some (if a.go then 0x46 else 0x48)
  | .bad => some 0x46
  | .weight off =>
    if a.go ∨ a.aq ∨ a.rl then some 0x46
    else if ea.toNat % a.n ≠ 0 then some 0x40
    else if (s.wsAt (s.tilePool r.tile) (s.tileField r.tile) off).isNone then some 0x41
    else if a.kind ≠ .load then some 0x44 else bad
  | .glob _ _ => if a.go then some 0x46 else if ea.toNat % a.n ≠ 0 then some 0x40 else bad

end Sys2Proof.Claims
end

