-- ==== Sys2Proof/Safety/Direct.lean ====
section
/-!
DEFINITION. Terms for the statements about instructions that act on their own tile at issue: descriptors, quasi-random points,
fences, cache lines (06 R158, R159; 07 R188, R193).
-/
namespace Sys2Proof.Claims
open Sys2Proof.Machine

/-- The window descriptor that 32 bytes give, and the bytes of one (07 R188). -/
def descriptorOf (b : List Byte) : Window :=
  let ctl := littleEndian (b.take 4)
  { fmt := ctl % 16, smode := ctl / 16 % 4, rnd := ctl / 64 % 2, ovf := ctl / 128 % 2
    sbase := littleEndian ((b.drop 4).take 4), len := littleEndian ((b.drop 8).take 4) % 2097152 }
def bytesOfDescriptor (w : Window) : List Byte :=
  lowBytes (w.fmt + 16 * w.smode + 64 * w.rnd + 128 * w.ovf) 4 ++ lowBytes w.sbase 4 ++ lowBytes w.len 4 ++ List.replicate 20 0

/-- x(i): the direction numbers that the index's set bits select, combined; and the scrambled point (07 R193). -/
def combined (q : QDim) (i : Word) : Word :=
  (List.finRange 32).foldl (fun x b => if i.getLsbD b.val then x ^^^ q.v[b] else x) 0
def scrambled (x seed : Word) : Word :=
  let z := reversed x + seed
  let z := z ^^^ (z * 0x5A3C96E2)
  let z := z ^^^ (z * 0x31D74B28)
  let z := z ^^^ (z * 0xE9A61F54)
  reversed z
def pointOf (q : QDim) (i : Word) : Word := if q.scr then scrambled (combined q i) q.seed else combined q i

/-- No command of a tile's quasi-random unit is under way. -/
def qruIdle (s : State) (r : TRef) : Bool :=
  s.ops.all fun e => !(decide (e.2.tile = r.tile) && decide (e.2.cls = .qru))

/-- The reads of a thread on CORE that are not performed, and what a fence of each kind waits for (06 R158). -/
def openReads (s : State) (r : TRef) : List Nat :=
  s.openOps fun e => decide (e.2.t = r) && !e.2.buffered && decide (e.2.path = .core) && e.2.reads
def fenceAfter (s : State) (r : TRef) (k : FenceKind) (sc : Scope) : List Nat :=
  match k with
  | .acq => openReads s r
  | .rel => s.releaseAfter r sc
  | .ar => (openReads s r ++ s.releaseAfter r sc).eraseDups
/-- What PFENCE waits for: the operations of the thread on the paths that its mask names, CORE first. -/
def inMask (m : BitVec 5) : Path → Bool
  | .core => m.getLsbD 0 | .vec => m.getLsbD 1 | .mtx => m.getLsbD 2 | .copy => m.getLsbD 3 | .msg => m.getLsbD 4
def pfenceAfter (s : State) (r : TRef) (m : BitVec 5) : List Nat :=
  s.openOps fun e => decide (e.2.t = r) && !e.2.buffered && decide (e.2.cls ≠ .fence) && inMask m e.2.path

/-- A mark that waits for some operations, or completes in the next cycle: a fence, a flush. `fresh` is whether the thread's
later loads may use no line filled before; `first` is what it does at issue. -/
def marked (s : State) (r : TRef) (t : Thread) (c : Ctl) (o : Op) (fresh : Bool) (first : State → State := id) : State :=
  let s1 := first (s.retire r c)
  if o.after = [] then
    (if fresh then s1.updThread r (fun t => { t with acqStamp := s1.nextId }) else s1).postNext r (sigOf c t)
  else s1.launchOp o
def markOp (s : State) (r : TRef) (t : Thread) (c : Ctl) (i : Instr) (cls : Cls) (sc : Scope) (ea : DWord) (after : List Nat) : Op :=
  { t := r, tile := r.tile, vd := s.vdOf r.l, cls, ins := i, scope := sc, ea, waddr := t.pc + BitVec.ofNat 64 (8 * c.pfx.length)
    tinst := s.iword, after, sig := sigOf c t, region := t.region }

/-- The stores of a tile that its write buffer holds, of one line or of all. -/
def heldStores (s : State) (r : TRef) (line : Option Nat) : List Nat :=
  s.openOps fun e => decide (e.2.tile = r.tile) && decide (e.2.cls = .globalStore) && !e.2.buffered &&
    (match line with | none => true | some a => decide (e.2.ea.toNat / 64 = a / 64))

/-- The address of a line operation when it is a global address; ALL names none. -/
def lineOf (t : Thread) (c : Ctl) (k : LineKind) (pb : Reg) (off : BitVec 24) : Option (Option Nat) :=
  match k with
  | .all => some none
  | .line => match Addr.of (eaOf t c pb off) with
    | .glob _ _ => some (some (eaOf t c pb off).toNat)
    | _ => none
/-- Whether a cached line is the line of an address, or of another name of it (11 R272). -/
def sameLine (s : State) (v : TileRef) (a : Nat) (l : Line) : Bool :=
  decide (l.vdAddr = a / 64 * 64) || decide (s.locKey v (BitVec.ofNat 64 l.vdAddr) = s.locKey v (BitVec.ofNat 64 (a / 64 * 64)))
def lineUses (k : LineKind) (pb : Reg) : Uses := match k with | .line => { reads := [pb, Reg.hi pb], pairs := [pb] } | .all => {}

/-- The machine after an issue that clears RST (22 R420). -/
def issuedOnce (s : State) (r : TRef) (c : Ctl) : State := (s.retire r c).updThread r fun t => { t with rst := false }

/-- A handle of a copy: a short address of 64-byte alignment (09 R237). -/
def handleOf (w : Word) : Option Nat :=
  match shortAddr w with
  | some (_, off) => if off % 64 = 0 then some off else none
  | none => none

end Sys2Proof.Claims
end

