-- ==== Sys2Proof/Safety/Events.lean ====
section
/-!
DEFINITION. Terms for the statements about the events that units and homes bring.
-/
namespace Sys2Proof.Claims
open Sys2Proof.Machine

/-- What the end of an operation that no commit released leaves: it is gone, and its signal has joined its thread's token. -/
def endedFrom (s : State) (id : Nat) (o : Op) (s' : State) : Prop :=
  s'.op? id = none ∧
  ∀ t g, s.thread? o.t = some t → t.run = .ready → o.sig = some g →
    ∃ t', s'.thread? o.t = some t' ∧ (t.tokAt g.tok).inc + g.inc ≤ (t'.tokAt g.tok).inc

/-- A thread that no eviction, trap entry or service waits for, and whose lines may not be pushed out: the end of an operation or of
a result changes nothing else of it (05 R135; 12 R293, R300). -/
def steady (t : Thread) : Bool :=
  !t.evictDue && !t.evictable && (match t.run with | .trapDrain .. => false | .svcDrain _ => false | _ => true)

/-- No fence, cache flush or TRIG of a thread's tile waits for its completion alone. -/
def marksStand (s : State) (r : TRef) : Bool :=
  s.ops.all fun e => !((decide (e.2.tile = r.tile) || decide (e.2.t = r)) &&
    (decide (e.2.cls = .fence) || decide (e.2.cls = .cfls) || decide (e.2.cls = .trig)) && s.clear e.2)

/-- The classes of the operations whose deferred fault leaves the access with its thread until RETT (06 R148). -/
def heldForRett (c : Cls) : Bool :=
  match c with
  | .globalLoad => true | .globalStore => true | .globalAtomic => true | .launchQ => true | .remote => true | .localAtomic => true
  | .localAq => true | .weight => true | _ => false

/-- A vector operation of free mode that has started, with no element read or written and nothing recorded. -/
def vectorRuns (s : State) (id : Nat) (o : Op) : Bool :=
  decide (s.op? id = some o) && decide (o.cls = .vector) && decide (o.phase = .sent) && decide (o.elems = 0) && decide (o.fault = none) &&
    o.snap.isNone && !o.atStart && !s.isDet o.tile.l

/-- A thread that has restarted its region (22 R422 steps 2 to 4) at a level not above the region's, at cycle `now`. -/
structure Restarted (t : Thread) (now : Nat) (t' : Thread) : Prop where
  pc : t'.pc = t.irpc
  rcnt : t'.rcnt = t.rcnt + 1
  rst : t'.rst = true
  acc : ∀ k : Fin 16, t'.acc[k] = 0
  tok : ∀ k : Tok, (t'.tokAt k).count = (min 255 (max 0 (((t.tokAt k).count : Int) + (t.tokAt k).inc + t.acc[k.toFin]))).toNat ∧ (t'.tokAt k).inc = 0
  regs : t'.g = t.g
  issue : t'.refetchUntil = now + 12 ∧ t'.run = .ready

/-- A thread stands at an instruction that has not issued: in RECV, LWAIT, the latch or the gang line (12 R301). -/
def standing : Run → Bool
  | .recv .. => true
  | .lwait none => true
  | .latch _ => true
  | .latched => true
  | .line => true
  | _ => false

/-- The trap of a report that is delivered at the instruction of the word w (12 R301). -/
def reportTrap (t : Thread) (p : Report) (w : DWord) : TrapInfo :=
  { cause := p.cause, tpc := t.pc, tval := p.tval, taux := p.taux, tinst := w }

/-- A thread consumes an error: its region restarts, or its launch dies (22 R422, R423); in a launch that is being killed the error is
discarded (22 R428). -/
def ErrorConsumed (s s' : State) (r : TRef) (t : Thread) (rest : List Report) : Prop :=
  (∀ ln, s.launch? r.l = some ln → ln.dying = true → s'.errlog = s.errlog ∧ s'.launch? r.l = some ln ∧
    ∃ t', s'.thread? r = some t' ∧ t'.reports = rest ∧ t'.g = t.g ∧ t'.pc = t.pc) ∧
  ((s.launch? r.l).all (fun ln => !ln.dying) = true → t.rst = true → t.rcnt < 3 → t.tl ≤ t.irtl → s.restartDrained r t = true →
    ∃ t', s'.thread? r = some t' ∧ Restarted t s.cycle t' ∧ t'.reports = rest) ∧
  (∀ ln, t.rst = false ∨ 3 ≤ t.rcnt → s.launch? r.l = some ln → ln.phase = .placing →
    ∃ ln', s'.launch? r.l = some ln' ∧ ln'.phase = .killFlood ∧ ln'.status = 0xA0 ∧ (s'.thread? r).map Thread.run = some .dead)

/-! ### The vector engine on 32-bit integers (07 R179) -/

/-- The new word of an integer operation from its source words, its scalar and the element's index; minima and maxima of
unsigned order are clamped when they are stored (07 R178). -/
def vectorInteger : Instr → Option (List Word → Word → Nat → Word)
  | .vadd _ .i .. => some fun v _ _ => v.getD 0 0 + v.getD 1 0
  | .vsub _ .i .. => some fun v _ _ => v.getD 0 0 - v.getD 1 0
  | .vmul _ .i .. => some fun v _ _ => v.getD 0 0 * v.getD 1 0
  | .vfma _ .i .. => some fun v _ _ => v.getD 0 0 * v.getD 1 0 + v.getD 2 0
  | .vmin _ .i .. => some fun v _ _ => BitVec.ofInt 32 (min (v.getD 0 0).toInt (v.getD 1 0).toInt)
  | .vmax _ .i .. => some fun v _ _ => BitVec.ofInt 32 (max (v.getD 0 0).toInt (v.getD 1 0).toInt)
  | .vmin _ .u .. => some fun v _ _ => BitVec.ofNat 32 (min 0x7FFFFFFF (min (v.getD 0 0).toNat (v.getD 1 0).toNat))
  | .vmax _ .u .. => some fun v _ _ => BitVec.ofNat 32 (min 0x7FFFFFFF (max (v.getD 0 0).toNat (v.getD 1 0).toNat))
  | .vscl _ .i .. => some fun v s _ => v.getD 0 0 * s
  | .vadds _ .i .. => some fun v s _ => v.getD 0 0 + s
  | .vabs _ .i .. => some fun v _ _ => BitVec.ofInt 32 ((v.getD 0 0).toInt.natAbs : Int)
  | .vneg _ .i .. => some fun v _ _ => BitVec.ofInt 32 (-(v.getD 0 0).toInt)
  | .vcmp _ .ieq .. => some fun v _ _ => if compares .eq (v.getD 0 0) (v.getD 1 0) then 1 else 0
  | .vcmp _ .ine .. => some fun v _ _ => if compares .ne (v.getD 0 0) (v.getD 1 0) then 1 else 0
  | .vcmp _ .ilt .. => some fun v _ _ => if compares .lt (v.getD 0 0) (v.getD 1 0) then 1 else 0
  | .vcmp _ .ile .. => some fun v _ _ => if compares .le (v.getD 0 0) (v.getD 1 0) then 1 else 0
  | .vcmp _ .iltu .. => some fun v _ _ => if compares .ltu (v.getD 0 0) (v.getD 1 0) then 1 else 0
  | .vcmp _ .ileu .. => some fun v _ _ => if compares .leu (v.getD 0 0) (v.getD 1 0) then 1 else 0
  | .vsel _ .i .. => some fun v _ _ => if v.getD 0 0 = 0 then v.getD 2 0 else v.getD 1 0
  | .vbcst _ .i .. => some fun _ s _ => s
  | .viota _ .i .. => some fun _ s i => s + BitVec.ofNat 32 i
  | .vcopy _ .i .. => some fun v _ _ => v.getD 0 0
  | .vlogic _ .and .. => some fun v _ _ => v.getD 0 0 &&& v.getD 1 0
  | .vlogic _ .or .. => some fun v _ _ => v.getD 0 0 ||| v.getD 1 0
  | .vlogic _ .xor .. => some fun v _ _ => v.getD 0 0 ^^^ v.getD 1 0
  | .vlogic _ .andn .. => some fun v _ _ => v.getD 0 0 &&& ~~~(v.getD 1 0)
  | .vlogic _ .not .. => some fun v _ _ => ~~~(v.getD 0 0)
  | .vhash .. => some fun v s _ => hashed (v.getD 0 0) s
  | _ => none

/-- The word at an offset. -/
def wordAt (m : Memory) (off : Nat) : Word := BitVec.ofNat 32 (littleEndian (m.readN off 4))
/-- The offset that an operand's short address names for n words, if its place is one (02 R48; 07 R184). -/
def wordsPlace (a : Word) (n : Nat) : Option Nat :=
  match shortAddr a with
  | some (_, off) => if off % 4 = 0 ∧ off + 4 * n ≤ 2 ^ 20 then some off else none
  | none => none
/-- Whether a source's words are the destination's own or apart from them. -/
def apart (d a n : Nat) : Bool := decide (d = a) || decide (d + 4 * n ≤ a) || decide (a + 4 * n ≤ d)
/-- The operands' offsets: the destination's and the sources'. -/
def vectorPlaces (o : Op) : Option (Nat × List Nat) :=
  match vectorRow o.ins with
  | none => none
  | some (_, _, srcs, _, _) =>
    let n := (o.val 5).toNat
    match wordsPlace (o.val 0) n, (List.range srcs.length).mapM fun k => wordsPlace (o.val (k + 1)) n with
    | some d, some l => some (d, l)
    | _, _ => none
/-- Every captured window is one of 32-bit integers without scale (07 R188). -/
def integerWindows (o : Op) : Bool := decide (o.wins.length = 8) && o.wins.all fun w => decide (w.fmt = 7) && decide (w.smode = 0)
/-- The bytes of the destination. -/
def vectorBytes (g : List Word → Word → Nat → Word) (m : Memory) (srcs : List Nat) (sc : Word) (n : Nat) : List Byte :=
  (List.range n).flatMap fun i => lowBytes (g (srcs.map fun a => wordAt m (a + 4 * i)) sc i).toNat 4

/-! ### The quasi-random unit -/

/-- A dimension from its record, or its seed and scramble bit from the short one (07 R192, R195). -/
def dimensionOf (q : QDim) (short : Bool) (m : Memory) (off : Nat) : QDim :=
  let s := if short then off else off + 128
  { v := if short then q.v else Vector.ofFn fun k => wordAt m (off + 4 * k.val)
    seed := wordAt m s, scr := (wordAt m (s + 4)).getLsbD 0 }
def recordBytes (q : QDim) (short : Bool) : List Byte :=
  (if short then [] else (List.finRange 32).flatMap fun k => lowBytes q.v[k].toNat 4) ++ lowBytes q.seed.toNat 4 ++
    lowBytes (if q.scr then 1 else 0) 4

/-! ### The array (08 R212) -/

/-- The exact dot product of step rows: A's row i from the cursor on and B's column n, INT8 units of 2^-6 (04 R96). -/
def signedByte (b : Byte) : Int := b.toInt
def dotI8 (a b : Memory) (k cursor i n : Nat) : Int :=
  ((List.range 32).map fun d => signedByte (a.read (i * k + cursor + d)) * signedByte (b.read (d * 512 + n)) * 64).foldl (· + ·) 0

/-- The operation at the head of its unit's queue, with nothing left that it must follow and room for its report. -/
def atHead (s : State) (id : Nat) (o : Op) (cls : Cls) : Bool :=
  decide (s.op? id = some o) && decide (o.cls = cls) && decide (o.phase = .waiting) && s.clear o &&
    decide (s.queueHead o.tile cls = some id) && s.reportRoom o.t && !o.atStart

end Sys2Proof.Claims
end

