-- ==== Sys2Proof/Safety/Units.lean ====
section
/-!
DEFINITION. Terms for the statements about the matrix path's events (08).
-/
namespace Sys2Proof.Claims
open Sys2Proof.Machine

/-- No error injection waits for its turn (09 R254). -/
def noInjection (s : State) : Bool := s.ops.all fun e => match e.2.ins with | .einj .. => false | _ => true

/-- The clamp of an accumulator entry (04 R97). -/
def clamped (x : Int) : Int := if x > 2 ^ 47 - 1 then 2 ^ 47 - 1 else if x < -(2 ^ 47 - 1) then -(2 ^ 47 - 1) else x

/-- A slot whose words are sound. -/
def cleanSlot (x : Slot) : Bool := x.flips.isEmpty && x.poison.isEmpty

/-- The bytes that an OLOAD of a slot copies (08 R205). -/
def slotBytes (x : Slot) : Nat :=
  match x.role, x.fmt with
  | .b, _ => 16384
  | .a, .bf => 32 * x.k
  | .a, _ => 16 * x.k

/-- The value of a byte of format TS8 in units of 2^-6: two signed powers of two (04 R91). -/
def powerOf (n : Nat) : Int := if n % 8 = 7 then 0 else (if 8 ≤ n then -1 else 1) * (2 : Int) ^ (6 - n % 8)
def ts8Value (b : Byte) : Int := powerOf (b.toNat / 16) + powerOf (b.toNat % 16)

/-- The exact contribution of one MMG of an integer format to the entry of row i and column n, in units of 2^-6. -/
def contribution (k : OFmt) (a b : Slot) (i n : Nat) : Int :=
  match k with
  | .ts => ((List.range 32).map fun d =>
      signedByte (a.mem.read (i * a.k + a.cursor + d)) * ts8Value (b.mem.read (d * 512 + n))).foldl (· + ·) 0
  | _ => dotI8 a.mem b.mem a.k a.cursor i n

/-- A bfloat16 in memory as FP32, a subnormal read as a zero of its sign. -/
def halfAt (m : Memory) (off : Nat) : Word :=
  let h := littleEndian (m.readN off 2)
  BitVec.ofNat 32 (65536 * (if h / 128 % 256 = 0 then h / 32768 * 32768 else h))

/-- An entry after MMG (08 R212). -/
def entryAfter (k : OFmt) (a b : Slot) (i n : Nat) (old : DWord) : DWord :=
  match k with
  | .bf => ((List.range 16).foldl (fun w d =>
      (fpFma .rne (halfAt a.mem (2 * (i * a.k + a.cursor + d))) (halfAt b.mem (2 * (d * 512 + n))) w).1) (old.setWidth 32)).setWidth 64
  | k => BitVec.ofInt 64 (clamped (old.toInt + contribution k a b i n))

/-- An entry after MOL: the list's contributions in its order, those of the entry's column alone (08 R214). -/
def entryAfterList (a : Slot) (m : Memory) (off len i n : Nat) (old : DWord) : DWord :=
  BitVec.ofInt 64 ((List.range len).foldl (fun x j =>
    if littleEndian (m.readN (off + 8 * j + 4) 2) = n then
      clamped (x + signedByte (a.mem.read (i * a.k + littleEndian (m.readN (off + 8 * j + 6) 2))) *
        (BitVec.ofNat 16 (littleEndian (m.readN (off + 8 * j + 2) 2))).toInt)
    else x) old.toInt)

/-- The status word of an accumulator (08 R222). -/
def statusOf (a : Acc) : Word :=
  let bit (b : Bool) : BitVec 1 := BitVec.ofBool b
  bit a.sat ++ bit a.ckinv ++ BitVec.ofNat 2 (match a.tagX with | .none => 0 | .int => 1 | .bf => 2) ++ bit a.rep.unc ++
    bit a.rep.ckfix ++ bit a.rep.dovf ++ BitVec.ofNat 4 a.rep.ncorr ++ (0 : BitVec 8) ++ BitVec.ofNat 4 a.rep.row ++ BitVec.ofNat 9 a.rep.col

/-- The value of an entry that a drain encodes: the entry times its column's scale, times its row's (08 R218). -/
def drained (t : AccTag) (e : DWord) (col row : Word) : Word :=
  let v : Word := if t = .bf then e.setWidth 32 else (fpMul .rne (fpOfInt .rne e.toInt).1 0x3C800000).1
  (fpMul .rne (fpMul .rne v col).1 row).1

/-- A bfloat16 scale. -/
def scaleAt (m : Memory) (off : Nat) : Word := BitVec.ofNat 32 (65536 * littleEndian (m.readN off 2))

/-- The extent of n bytes that a short address names, aligned to e. -/
def placeOf (w : Word) (n e : Nat) : Option Nat :=
  match shortAddr w with
  | some (_, off) => if off + n ≤ 2 ^ 20 ∧ off % e = 0 then some off else none
  | none => none

/-- An MMG at the gang line: its member, its operation, its thread. -/
structure AtLine where
  m : TileRef
  v : VTile
  id : Nat
  o : Op
  t : Thread
  c : Ctl
  sa : Reg

/-- A member's MMG holds the line and passes its own checks, its wait is met, and the member's queue has room (08 R210, R211). -/
def lineReady (s : State) (acc : BitVec 1) (k : OFmt) (sb fd : Reg) (h : AtLine) : Bool :=
  decide (s.tile? h.m = some h.v) && decide (h.v.place = .present) && !h.v.finished && decide (h.v.lineQ.head? = some h.id) &&
    !h.v.lineQ.tail.contains h.id && decide (s.op? h.id = some h.o) && decide (h.o.tile = h.m) && decide (h.o.t.tile = h.m) &&
    !h.o.atStart && decide (h.o.ins = .mmg h.c k acc h.sa sb fd) && decide (s.thread? h.o.t = some h.t) && decide (h.t.run = .line) &&
    s.holdFree h.m .arrayQueue && (s.lanes.get? h.o.t).isNone && decide ((h.v.slot h.sa.toNat).st = .filled) &&
    decide ((h.v.slot h.sa.toNat).role = .a) && decide ((h.v.slot h.sa.toNat).fmt = k) && (h.v.accu acc.toNat).tag.ok k &&
    decide (h.c.thr.toNat ≤ (h.t.tokAt h.c.tok).value)

def tileAt (s : State) (m : TileRef) : VTile := (s.tile? m).getD {}

end Sys2Proof.Claims
end

