-- ==== Sys2Proof/Safety/Groups.lean ====
section
/-!
DEFINITION. Terms for the statements about group operations at their homes (09 R229 to R235), and about traffic between
virtual tiles (06 R160 to R170; 16 R329 to R335).
-/
namespace Sys2Proof.Claims
open Sys2Proof.Machine

/-- An item bound for virtual tile `d` that may leave: its accesses are performed and nothing of its source to the same
destination stands before it (16 R331). -/
def mayLeave (s : State) (id : Nat) (o : Op) (cls : Cls) (d : Nat) : Bool :=
  decide (s.op? id = some o) && decide (o.cls = cls) && decide (o.phase = .waiting) && s.clear o && !o.atStart && !o.buffered &&
    s.firstTo id o.tile ⟨o.tile.l, d⟩ Op.destVt

/-- The tile at which an item arrives: present, not finished, nothing parked for it, and named rightly by the source's
entry, if it has one (16 R330). -/
def arrivesAt (s : State) (src dst : TileRef) (v : VTile) : Bool :=
  decide (s.tile? dst = some v) && !v.finished && decide (v.place = .present) && decide (v.park = []) && (s.tile? src).isSome &&
    (match (s.tile? src).bind fun a => a.vttCache.get? dst.v with
     | some (p, lt, _) => decide (p = .present) && decide (lt = v.ltile)
     | none => true)

/-- The home of a group operation. -/
def groupHome (o : Op) : TileRef := ⟨o.tile.l, o.unit⟩

/-- A record of a home, as a handle names it (09 R229). -/
def recordOf (v : VTile) (n : Nat) : Group := (v.groups.get? n).getD {}
def recordNo (h : Word) : Nat := h.toNat / 2 ^ 24 % 32
def live (v : VTile) (h : Word) : Bool := (recordOf v (recordNo h)).used && decide ((recordOf v (recordNo h)).gen.toNat = h.toNat / 2 ^ 29)

/-- The group instructions that name a record by its handle. -/
def usesHandle : Instr → Bool
  | .gjoin .. => true
  | .gleave .. => true
  | .gfree .. => true
  | .gcnt .. => true
  | .gbar .. => true
  | .gred .. => true
  | _ => false

/-- How many waiting arrivers the release test posts (09 R232): its loop takes `count` of them until fewer are left. -/
def releasedOf (count arrivals : Nat) : Nat := if count = 0 then 0 else arrivals / count * count

/-- Combine and identity of 09 R234. -/
def combinedBy (k : RedOp) (p v : Word) : Word :=
  match k with
  | .addI => p + v
  | .addF => (fpAdd .rne p v).1
  | .min => if p.toInt ≤ v.toInt then p else v
  | .max => if p.toInt ≤ v.toInt then v else p
  | .minu => if p.toNat ≤ v.toNat then p else v
  | .maxu => if p.toNat ≤ v.toNat then v else p
  | .and => p &&& v
  | .or => p ||| v
def neutral : RedOp → Word
  | .addI => 0 | .addF => 0 | .min => 0x7FFFFFFF | .max => 0x80000000 | .minu => 0xFFFFFFFF | .maxu => 0 | .and => 0xFFFFFFFF | .or => 0

/-- An arriver's operation has ended: it is gone, and the token that it named and its signal have been posted. -/
def released (s : State) (a : Nat) (s' : State) : Prop :=
  s'.op? a = none ∧ ∀ o t, s.op? a = some o → s.thread? o.t = some t → t.run = .ready →
    ∃ t', s'.thread? o.t = some t' ∧ (∀ g, o.gbar = some g → (t.tokAt g.tok).inc + g.inc ≤ (t'.tokAt g.tok).inc) ∧
      ∀ g, o.sig = some g → (t.tokAt g.tok).inc + g.inc ≤ (t'.tokAt g.tok).inc

/-- A result has reached an arriver: its four bytes are on its tile. -/
def delivered (s : State) (a off : Nat) (w : Word) (s' : State) : Prop :=
  ∀ o v, s.op? a = some o → s.tile? o.tile = some v → v.finished = false →
    ∃ v', s'.tile? o.tile = some v' ∧ wordAt v'.spad off = w

/-- The waiting arrivers are operations that no commit released. -/
def plainArrivers (s : State) (l : List Arriver) : Bool := l.all fun a => (s.op? a.op).all fun o => !o.atStart

/-- A fault that the home has found: the operation carries it back (09 R230). -/
def faultedBy (id : Nat) (o : Op) (cause detail : Nat) (s' : State) : Prop :=
  ∃ o', s'.op? id = some o' ∧ o'.phase = .faulted ∧
    o'.fault = some { cause, tval := (o.val 0).setWidth 64 ||| (BitVec.ofNat 64 detail <<< 32), taux := o.waddr, tinst := o.tinst }

/-! ### Accesses at other tiles, transfers and homes -/

/-- The bytes that a store brings to a window, from the data that it read at issue. -/
def storedBytes (n0 : Nat) (w : Window) (n : Nat) (data : List Byte) : List Byte :=
  let x := BitVec.ofNat 32 (littleEndian data)
  if n0 = 8 then data
  else if w.fmt = 0 then data.take n
  else if 4 ≤ w.fmt ∧ w.fmt ≤ 7 then lowBytes (clampInt w.fmt x.toInt) n
  else lowBytes (encodeVal w (v32 x)).1 n

/-- A load, of any of the load words. -/
def anyLoad (i : Instr) : Option Access :=
  match i with
  | .ldaq c sz rt pb off => some ⟨c, false, rt, pb, off, aqBytes sz, false⟩
  | i => loadRow i

/-- Where a home keeps a byte of a VD: in the page's frame, if the page is there and admits the access (18 R376). -/
def homePlace (s : State) (vd home off : Nat) (rd wr : Bool) : Option Nat :=
  match s.page? vd home off with
  | some p => if p.resident ∧ p.remote = none ∧ p.base % 65536 = 0 ∧ (rd = true → p.rd = true) ∧ (wr = true → p.wr = true) then
      some (hbmKey home (p.frame + (off - p.base))) else none
  | none => none

/-- No word of the homes' memory is flipped or poisoned, no page moves, and every page is one of whole lines. -/
def homesSound (s : State) : Bool := s.hbmFlips.isEmpty && s.hbmPoison.isEmpty && s.moves.isEmpty &&
  s.pages.all fun p => decide (p.base % 64 = 0) && decide (p.size % 64 = 0)

/-- The bytes that XIN or XOUT moves, in transfer order: the global and the local offset of each (06 R166). -/
def movedBytes (o : Op) (off loc : Nat) : List (Int × Nat) :=
  let rowlen := littleEndian (o.data.take 4)
  let rows := littleEndian ((o.data.drop 4).take 4)
  let gstride := (BitVec.ofNat 64 (littleEndian ((o.data.drop 8).take 8))).toInt
  let lstride := littleEndian ((o.data.drop 16).take 4)
  (List.range rows).flatMap fun (r : Nat) => (List.range rowlen).map fun (c : Nat) => ((off : Int) + r * gstride + c, loc + r * lstride + c)

/-- A message at the end of its mailbox. -/
def newest (v : VTile) (o : Op) : Msg :=
  { payload := BitVec.ofNat 64 (littleEndian o.data), tag := BitVec.ofNat 8 o.line, source := BitVec.ofNat 24 o.tile.v, seq := v.mseq
    op := 0, poison := o.poison, gift := (o.gives.map Gift.ops).getD [] }

end Sys2Proof.Claims
end

