-- ==== Sys2Proof/Safety/Homes.lean ====
section
/-!
DEFINITION. Terms for the statements about what happens at the homes (06 R145, R152 to R157; 18 R374 to R379).
-/
namespace Sys2Proof.Claims
open Sys2Proof.Machine

/-- An operation of free mode at a stage, whose earlier accesses are performed, with a sound payload; the homes' memory is
sound and in its canonical form. -/
def stands (s : State) (id : Nat) (o : Op) (cls : Cls) (ph : Phase) : Bool :=
  decide (s.op? id = some o) && decide (o.cls = cls) && decide (o.phase = ph) && s.clear o && !o.atStart && !o.buffered && !o.poison &&
    homesSound s && !s.isDet o.tile.l && s.hbm.wf

/-- The home's TLB holds the translation (18 R375). -/
def translated (s : State) (o : Op) (home off : Nat) : Bool := s.tlb.contains (o.vd, home, s.pageBase o.vd home off)

def bytesFrom (m : Memory) (f n : Nat) : List Byte := (List.range n).map fun i => m.read (f + i)

/-- No store of the tile is on its way, and no atomic waits for a commit. -/
def noStores (s : State) (o : Op) : Bool := s.ops.all fun e =>
  (decide (e.2.cls ≠ .globalStore) || decide (e.2.tile ≠ o.tile)) && (decide (e.2.cls ≠ .globalAtomic) || !e.2.buffered)
/-- No other global atomic is on its way: nothing may merge with one (06 R157). -/
def noMerge (s : State) (id : Nat) : Bool := s.ops.all fun e => decide (e.1 = id) || decide (e.2.cls ≠ .globalAtomic)

/-- A load is answered: its registers' values are on their way. -/
def answered (id : Nat) (l : List (Reg × Word)) (s' : State) : Prop :=
  ∃ o', s'.op? id = some o' ∧ o'.phase = .reply ∧ o'.res = l

/-- A fault that the home has found: the access keeps it for its report (06 R148). -/
def refusedBy (id : Nat) (o : Op) (cause : Nat) (s' : State) : Prop :=
  ∃ o', s'.op? id = some o' ∧ o'.phase = .faulted ∧ o'.fault = some { cause, tval := o.ea, taux := o.waddr, tinst := o.tinst }

/-- Memory that holds `bs` from f on and is as before elsewhere. -/
def holdsAt (m m' : Memory) (f : Nat) (bs : List Byte) : Prop :=
  ∀ x, m'.read x = if f ≤ x ∧ x < f + bs.length then bs.getD (x - f) 0 else m.read x

/-- The places of a copy's source and destination bytes in the homes' memory: none unless each is in a page that is there. -/
def copyPlaces (s : State) (o : Op) : Option (List (Nat × Nat)) :=
  match Addr.of o.copySrc, Addr.of o.copyDst with
  | .glob h a, .glob k b => (List.range o.copyLen).mapM fun i =>
      match homePlace s o.vd h (a + i) true false, homePlace s o.vd k (b + i) false true with
      | some x, some y => some (x, y)
      | _, _ => none
  | _, _ => none

end Sys2Proof.Claims
end

