-- ==== Sys2Proof/Safety/Launches.lean ====
section
/-!
DEFINITION. Terms for the statements about launches, gangs and the scheduler (16; 17 R349 to R352; 18 R364 to R368; 21 R393
to R398).
-/
namespace Sys2Proof.Claims
open Sys2Proof.Machine

/-- A field of a parameter block. -/
def blockField (d : List Byte) (off n : Nat) : Nat := littleEndian ((d.drop off).take n)

/-- The ring entry that a queue's QHEAD names (21 R394). -/
def entryAt (q : Queue) : DWord := q.qbase + BitVec.ofNat 64 (256 * (q.qhead.toNat % 2 ^ q.qlog))

/-- The bytes of a ring entry or of a record, where a page holds them. -/
def globalBytes (s : State) (vd : Nat) (a : DWord) (n : Nat) : Option (List Byte) :=
  match Addr.of a with
  | .glob home off => (List.range n).mapM fun i => (homePlace s vd home (off + i) true false).map s.hbm.read
  | _ => none

/-- The extent lies in one page that is there, with the right asked for. -/
def inPage (s : State) (vd : Nat) (a : DWord) (n : Nat) (rd wr : Bool) : Bool :=
  match Addr.of a with
  | .glob home off => match s.page? vd home off with
    | some p => p.resident && p.remote.isNone && decide (p.base % 65536 = 0) && decide (p.base ≤ off) && decide (off + n ≤ p.base + p.size) &&
        (!rd || p.rd) && (!wr || p.wr) && (List.range n).all (fun i => decide (s.page? vd home (off + i) = some p))
    | none => false
  | _ => false

/-- An operation of a launch's copy list as the device begins it. -/
def startedAs (o o' : Op) : Prop := o = { o' with view := o.view, born := o.born }

/-- The queue of a VD, as its registers stand. -/
def queueOf (s : State) (vd q : Nat) : Queue := (((s.vds.get? vd).getD {}).queues.toList.getD q {})

/-- Two queues that differ in QHEAD and QERR alone. -/
def advanced (x y : Queue) (err : Bool) : Prop :=
  y = { x with qhead := x.qhead + 1, qerr := if err then min (x.qerr + 1) 0xFFFFFFFF else x.qerr }

/-- Whether the choice that the pool has made for a launch is this gang in this field, and its tiles. -/
def placedOn (s : State) (l g f : Nat) (ln : Launch) (ts : List Nat) : Bool :=
  decide (s.launch? l = some ln) && decide (s.chosen l g f ln = some ts) && (s.gangMembers l g).all (fun m => (s.tile? m).isSome) &&
    (s.gangMembers l g).all (fun m => (((s.tile? m).map VTile.park).getD []).isEmpty) && (s.ops.all fun e => decide (e.2.tile.l ≠ l)) &&
    (ln.gangs.get? g).isSome

/-- A lane whose turn it is, with the chunk to commit (17 R349). -/
def turnOf (s : State) (l : Nat) (ln : Launch) (r : TRef) (t : Thread) (la : Lane) (k : Chunk) (c n : Nat) : Bool :=
  decide (s.launch? l = some ln) && ln.blk.det && decide (ln.phase = .placing) && decide (s.exitDue l = none) && decide (s.spawnDue l = none) &&
    decide (s.unsettled l = []) && !la.logBad &&
    !s.lineDue l &&
    decide (s.nextTurn l ln = some (c, n, r.tile, some r)) && decide ((s.tile? r.tile).map VTile.place = some .present) &&
    decide (s.lanes.get? r = some la) && decide (s.thread? r = some t) && decide (r.l = l) && decide (la.chunks.head? = some k) &&
    decide (k.cut ≠ .opened) && s.chunkDone r k && !(decide (k.retired = 0) && decide (k.cut = .before))

end Sys2Proof.Claims
end

