-- ==== Sys2Proof/Safety/Module.lean ====
section
/-!
DEFINITION. Terms for the statements about the module as a whole: the scheduler, the host, the debug function, errors, kills and
service life (18 R364 to R368; 21; 22 R413 to R428; 23).
-/
namespace Sys2Proof.Claims
open Sys2Proof.Machine

/-- What comes over the primary port reaches the module: it has booted, and the link is up (21 R389; 23 R441). -/
def reached (s : State) : Bool := decide (s.bootState = 1) && s.linkUp

/-- Each launch, gang and VD stands once in its table. -/
def distinct (s : State) : Bool :=
  decide (s.launches.map Prod.fst).Nodup && (s.launches.all fun e => decide (e.2.gangs.map Prod.fst).Nodup) && decide (s.vds.map Prod.fst).Nodup

/-- A VD that the scheduler of a pool may dispatch now (18 R365 to R367): bound, enabled, of some weight, runnable or with a gang that is summoned (log 26), owed or not
CAPPED, and with a gang that some field can place. -/
def candidate (s : State) (pool vd : Nat) : Bool :=
  match s.vds.get? vd with
  | some d => decide (d.pool = pool) && d.en && decide (0 < d.effWeight) && (s.vdRunnable vd || s.vdSummons vd) && (d.owed || !s.isCapped vd) &&
      decide (s.vdChoices pool vd ≠ [])
  | none => false

/-- A VD's place in the ring of owed VDs, which starts after the one that the pool dispatched as owed last. -/
def ringPlace (s : State) (pool vd : Nat) : Nat := (vd + 512 - ((s.poolRec pool).lastOwed + 1) % 512) % 512

/-- A field's hottest valid sensor; 0xFF marks a sensor as invalid (23 R442). -/
def isHottest (f : Fld) (h : Nat) : Prop := h ∈ f.temp.toList ∧ h ≠ 0xFF ∧ ∀ t ∈ f.temp.toList, t ≠ 0xFF → t ≤ h

/-- Nothing of a launch is left. -/
def goneFrom (s : State) (l : Nat) : Prop :=
  (∀ e ∈ s.threads, e.1.l ≠ l) ∧ (∀ e ∈ s.lanes, e.1.l ≠ l) ∧ (∀ e ∈ s.ops, e.2.tile.l ≠ l) ∧ ∀ e ∈ s.vtiles, e.1.l ≠ l

/-- A kill has reached a launch (22 R426, R428): its status, and the flood and the end of the sweep to come. -/
def killing (s : State) (l status : Nat) (s' : State) : Prop :=
  (∃ ln', s'.launch? l = some ln' ∧ ln'.phase = .killFlood ∧ ln'.status = status) ∧
  (∃ c, c ≤ s.cycle + 260 ∧ (c, Instr.killFlood l) ∈ s'.agenda) ∧ (s.cycle + 4096, Instr.killSweepEnd l) ∈ s'.agenda

/-- The newest record of the error log (22 R413, R414). -/
def logged (s : State) (src unit sev : Nat) (s' : State) : Prop :=
  ∃ e, s'.errlog.getLast? = some e ∧ e.seq = s.errSeq ∧ e.time = s.cycle ∧ e.src = src ∧ e.unit = unit ∧ e.sev = sev ∧
    s'.errSeq = s.errSeq + 1

/-- The pools whose operations a structure holds (18 R372). -/
def holdsPools (s : State) (l : List (Nat × Op)) (p : Nat) : Bool := l.any fun e => decide (e.2.vd < 512) && decide ((s.vdRec e.2.vd).pool = p)

/-- A launch's lowest unfinished virtual tile. -/
def lowestTile (s : State) (l v : Nat) : Bool :=
  (s.vtiles.any fun e => decide (e.1 = ⟨l, v⟩) && !e.2.finished) &&
    s.vtiles.all fun e => decide (e.1.l ≠ l) || e.2.finished || decide (v ≤ e.1.v)

/-- What a module reset leaves (18 R364, R370; 21 R412; 23 R439): no work and no session; cycles count from it. -/
def cleared (s : State) : Prop :=
  s.cycle = 0 ∧ s.launches = [] ∧ s.threads = [] ∧ s.lanes = [] ∧ s.vtiles = [] ∧ s.ops = [] ∧ s.sessions = [] ∧ s.netctl = 64

/-- A mordant record of a unit, as an update writes it (23 R431). -/
def recordsUnit (m : MRec) (u : RetUnit) (reason : Nat) : Prop := m.kind = u.kind ∧ m.unit = u.unit ∧ m.place = u.place ∧ m.reason = reason

/-- A lane that a port uses still: at first any of four; once one is retired, those of the other pair; then the last of that pair (21
R404; that the pairs are lanes 0, 1 and 2, 3 is the model's reading: log 36). -/
def usesLane (p : Port) (lane : Nat) : Bool :=
  decide (lane < 4) && (match p.lanes with
    | [] => true
    | [a] => decide (a < 4) && decide (lane / 2 ≠ a / 2)
    | [a, b] => decide (a < 4) && decide (b < 4) && decide (b / 2 ≠ a / 2) && decide (lane / 2 = b / 2) && decide (lane ≠ b)
    | _ => false)

/-- A flit of a sequence number and channel with this payload, as it stands on the link (21 R400). -/
def carries (g : List Byte) (seq : BitVec 12) (vc : Nat) (payload : List Byte) : Prop :=
  g.length = 256 ∧ littleEndian (g.take 4) = seq.toNat + 4096 * vc ∧ (g.drop 8).take 224 = payload

/-- A port's record with the lanes it has lost and the width that they leave (21 R404). -/
def narrowed (p p' : Port) (lane : Nat) : Prop :=
  p'.lanes = p.lanes ++ [lane] ∧
    p'.width = (match p'.lanes.length with | 0 => 4 | 1 => 2 | 2 => 1 | _ => 0)

/-- The session of a slot, for a VD, with a command about what is the VD's own. -/
def inSession (s : State) (slot vd : Nat) (tg : DbgTarget) (space off n : Nat) (bs : List Byte) : Bool :=
  reached s && decide (s.input = .debug slot vd tg space off n bs) && s.targetVd vd tg &&
    ((s.sessions.find? fun x => decide (x.slot = slot)).any fun x => decide (x.vd = vd))

/-- The answer that a session's command leaves. -/
def answers (s' : State) (slot status : Nat) (out : List Byte) : Prop :=
  ∃ x ∈ s'.sessions, x.slot = slot ∧ x.status = status ∧ x.out = out

/-- A thread freed by a DETACH or by the end of a session (12 R306). -/
def detached (t t' : Thread) : Prop := t' = { t with stopped := false, stepPending := false, stopSlot := none }

/-- The debug function's commands that a session carries (21 R411). -/
def debugCommand : Instr → Bool
  | .debugStop => true | .debugStep => true | .debugWithdraw => true | .debugArm => true | .debugDisarm => true
  | .debugRead => true | .debugWrite => true
  | _ => false

/-- What comes over the primary port (21 R389). -/
def fromHost : Instr → Bool
  | .qtailDoorbell => true | .queueConfigWrite => true | .hostWindowRead => true | .hostWindowWrite => true | .cmdKill => true
  | .cmdKillvd => true | .poolTableWrite => true | .vdTableWrite => true | .netctlWrite => true | .routeWrite => true
  | .dbgcertWrite => true | .registerWrite => true | .spdmSessionEstablish => true | .detach => true | .endSession => true
  | i => debugCommand i

end Sys2Proof.Claims
end

