-- ==== Sys2Proof/Safety/Fp.lean ====
section
/-!
DEFINITION. What the scalar FP instructions deliver, over exact rationals and apart from the model's own arithmetic, in the words of
04 R90, R98, R100, R103 to R106 and 05 R127, for the statement about them.
-/
namespace Sys2Proof.Claims
open Sys2Proof.Machine

/-! ### Formats and values (04 R90) -/

/-- A floating-point format: its exponent and fraction bits. -/
structure Binary where
  eb : Nat
  mb : Nat
def single : Binary := ⟨8, 23⟩
def brain : Binary := ⟨8, 7⟩
def half : Binary := ⟨5, 10⟩

/-- The power of two of the least subnormal, and the one that every finite magnitude lies below. -/
def Binary.least (f : Binary) : Int := 2 - 2 ^ (f.eb - 1) - f.mb
def Binary.top (f : Binary) : Rat := (2 : Rat) ^ (2 ^ (f.eb - 1) : Int)
def power (q : Int) : Rat := (2 : Rat) ^ q

def Binary.expOf (f : Binary) (b : Nat) : Nat := b / 2 ^ f.mb % 2 ^ f.eb
def Binary.neg (f : Binary) (b : Nat) : Bool := decide (b / 2 ^ (f.mb + f.eb) % 2 = 1)
def Binary.nan (f : Binary) (b : Nat) : Bool := decide (f.expOf b = 2 ^ f.eb - 1) && decide (b % 2 ^ f.mb ≠ 0)
def Binary.inf (f : Binary) (b : Nat) : Bool := decide (f.expOf b = 2 ^ f.eb - 1) && decide (b % 2 ^ f.mb = 0)
def Binary.mag (f : Binary) (b : Nat) : Rat :=
  if f.expOf b = 0 then ((b % 2 ^ f.mb : Nat) : Rat) * power f.least
  else ((2 ^ f.mb + b % 2 ^ f.mb : Nat) : Rat) * power (f.least + (f.expOf b - 1))
def Binary.val (f : Binary) (b : Nat) : Rat := if f.neg b then -f.mag b else f.mag b

def Binary.sign (f : Binary) (neg : Bool) : Nat := if neg then 2 ^ (f.mb + f.eb) else 0
def Binary.infBits (f : Binary) (neg : Bool) : Nat := f.sign neg + (2 ^ f.eb - 1) * 2 ^ f.mb
/-- The canonical NaN (R103). -/
def Binary.quiet (f : Binary) : Nat := (2 ^ f.eb - 1) * 2 ^ f.mb + 2 ^ (f.mb - 1)

/-! ### Rounding (04 R98, R100) -/

/-- A positive magnitude, by where it stands to the rationals: whether it is below one, and whether it is one. -/
structure Mag where
  below : Rat → Bool
  is : Rat → Bool
def Mag.of (x : Rat) : Mag := ⟨fun y => decide (x < y), fun y => decide (x = y)⟩
/-- 1 ÷ √v. -/
def Mag.invRoot (v : Rat) : Mag :=
  ⟨fun y => decide (0 < y) && decide (1 < y * y * v), fun y => decide (0 < y) && decide (y * y * v = 1)⟩

/-- k units of size u are a magnitude rounded to a whole number of units: the nearest, at a tie the even one; or toward zero; or away
from it. -/
def wholeUnits (rm : RM) (neg : Bool) (x : Mag) (u : Rat) (k : Nat) : Bool :=
  let at_ (z : Rat) : Rat := ((k : Rat) + z) * u
  match rm, neg with
  | .rne, _ => !x.below (at_ (-1 / 2)) && (x.below (at_ (1 / 2)) || x.is (at_ (1 / 2))) &&
      (decide (k % 2 = 0) || !(x.is (at_ (1 / 2)) || x.is (at_ (-1 / 2))))
  | .rz, _ => !x.below (at_ 0) && x.below (at_ 1)
  | .rup, true => !x.below (at_ 0) && x.below (at_ 1)
  | .rdn, false => !x.below (at_ 0) && x.below (at_ 1)
  | .rup, false => (x.below (at_ 0) || x.is (at_ 0)) && !x.below (at_ (-1)) && !x.is (at_ (-1))
  | .rdn, true => (x.below (at_ 0) || x.is (at_ 0)) && !x.below (at_ (-1)) && !x.is (at_ (-1))

/-- 2^q is the unit in which a format holds a magnitude: that of its binade, or the least. -/
def unitOf (f : Binary) (x : Mag) (q : Int) : Bool :=
  decide (f.least ≤ q) && x.below (power (q + f.mb + 1)) && (decide (q = f.least) || !x.below (power (q + f.mb)))

/-- What overflow delivers (R98). -/
def overflown (f : Binary) (rm : RM) (neg : Bool) : Nat :=
  match rm, neg with
  | .rne, _ => f.infBits neg
  | .rz, _ => f.infBits neg - 1
  | .rup, true => f.infBits neg - 1
  | .rdn, false => f.infBits neg - 1
  | .rup, false => f.infBits neg
  | .rdn, true => f.infBits neg

/-- The bits and the exceptions that a rounding to k units of 2^q delivers. An inexact result below the smallest normal raises
underflow, one that rounds to zero too: the model's reading of R100 (log 50). -/
def delivered32 (f : Binary) (rm : RM) (neg : Bool) (x : Mag) (q : Int) (k : Nat) (b : Nat) (e : Exc) : Bool :=
  let y := (k : Rat) * power q
  if f.top ≤ y then decide (b = overflown f rm neg) && decide (e = 0x14)
  else decide (b < 2 ^ (f.eb + f.mb + 1)) && decide (f.expOf b ≠ 2 ^ f.eb - 1) && decide (f.neg b = neg) && decide (f.mag b = y) &&
    decide (e = if x.is y then 0 else if y < power (f.least + f.mb) then 0x18 else 0x10)

/-- A magnitude rounded to a format, with a sign. -/
def roundsTo (f : Binary) (rm : RM) (neg : Bool) (x : Mag) (b : Nat) (e : Exc) : Prop :=
  ∃ (q : Int) (k : Nat), unitOf f x q = true ∧ wholeUnits rm neg x (power q) k = true ∧ delivered32 f rm neg x q k b e = true
/-- A rational that is not zero, rounded. -/
def ratRounds (f : Binary) (rm : RM) (x : Rat) (b : Nat) (e : Exc) : Prop := roundsTo f rm (decide (x < 0)) (Mag.of x.abs) b e

/-! ### The operations (04 R103 to R106) -/

/-- An exact result: bits and exceptions. -/
def exactly (w b : Nat) (e x : Exc) : Prop := b = w ∧ e = x

/-- A finite sum: a zero takes the common sign of its terms, or R98's. -/
def sumRounds (rm : RM) (na nb : Bool) (x : Rat) (b : Nat) (e : Exc) : Prop :=
  if x = 0 then exactly (single.sign (if na = nb then na else decide (rm = .rdn))) b e 0 else ratRounds single rm x b e

def sumOf (rm : RM) (a c : Nat) (b : Nat) (e : Exc) : Prop :=
  if single.nan a ∨ single.nan c then exactly single.quiet b e 0
  else if single.inf a ∧ single.inf c ∧ single.neg a ≠ single.neg c then exactly single.quiet b e 1
  else if single.inf a then exactly a b e 0
  else if single.inf c then exactly c b e 0
  else sumRounds rm (single.neg a) (single.neg c) (single.val a + single.val c) b e

/-- 0 × ∞. -/
def zeroByInf (a c : Nat) : Bool :=
  (decide (single.mag a = 0) && !single.inf a && single.inf c) || (single.inf a && decide (single.mag c = 0) && !single.inf c)

def productOf (rm : RM) (a c : Nat) (b : Nat) (e : Exc) : Prop :=
  let neg := single.neg a != single.neg c
  if single.nan a ∨ single.nan c then exactly single.quiet b e 0
  else if zeroByInf a c then exactly single.quiet b e 1
  else if single.inf a ∨ single.inf c then exactly (single.infBits neg) b e 0
  else if single.mag a * single.mag c = 0 then exactly (single.sign neg) b e 0
  else roundsTo single rm neg (Mag.of (single.mag a * single.mag c)) b e

def fusedOf (rm : RM) (a c d : Nat) (b : Nat) (e : Exc) : Prop :=
  let neg := single.neg a != single.neg c
  if zeroByInf a c then exactly single.quiet b e 1
  else if single.nan a ∨ single.nan c ∨ single.nan d then exactly single.quiet b e 0
  else if single.inf a ∨ single.inf c then
    if single.inf d ∧ single.neg d ≠ neg then exactly single.quiet b e 1 else exactly (single.infBits neg) b e 0
  else if single.inf d then exactly d b e 0
  else sumRounds rm neg (single.neg d) (single.val a * single.val c + single.val d) b e

/-- R104: −0 below +0, the other operand for a NaN. -/
def place32 (a : Nat) : Int := if single.neg a then -((a % 2 ^ 31 : Nat) : Int) - 1 else (a : Int)
def lesserOf (a c : Nat) : Nat :=
  if single.nan a then (if single.nan c then single.quiet else c) else if single.nan c then a else if place32 a ≤ place32 c then a else c
def greaterOf (a c : Nat) : Nat :=
  if single.nan a then (if single.nan c then single.quiet else c) else if single.nan c then a else if place32 a ≤ place32 c then c else a

def reciprocalOf (rm : RM) (a : Nat) (b : Nat) (e : Exc) : Prop :=
  if single.nan a then exactly single.quiet b e 0
  else if single.inf a then exactly (single.sign (single.neg a)) b e 0
  else if single.mag a = 0 then exactly (single.infBits (single.neg a)) b e 2
  else roundsTo single rm (single.neg a) (Mag.of (1 / single.mag a)) b e

def invRootOf (rm : RM) (a : Nat) (b : Nat) (e : Exc) : Prop :=
  if single.nan a then exactly single.quiet b e 0
  else if single.mag a = 0 ∧ !single.inf a then exactly (single.infBits (single.neg a)) b e 2
  else if single.neg a then exactly single.quiet b e 1
  else if single.inf a then exactly 0 b e 0
  else roundsTo single rm false (Mag.invRoot (single.mag a)) b e

/-! ### Conversions (04 R105; 05 R127) -/

/-- To an integer of a range: rounded first, then checked. -/
def integerOf (rm : RM) (lo hi : Int) (a : Nat) (v : Int) (e : Exc) : Prop :=
  if single.nan a then v = 0 ∧ e = 1
  else if single.inf a then v = (if single.neg a then lo else hi) ∧ e = 1
  else ∃ k : Nat, wholeUnits rm (single.neg a) (Mag.of (single.mag a)) 1 k = true ∧
    let i : Int := if single.neg a then -(k : Int) else k
    (i < lo → v = lo ∧ e = 1) ∧ (hi < i → v = hi ∧ e = 1) ∧
    (lo ≤ i → i ≤ hi → v = i ∧ e = if single.mag a = (k : Rat) then 0 else 0x10)
def ofIntegerRounds (rm : RM) (i : Int) (b : Nat) (e : Exc) : Prop :=
  if i = 0 then exactly 0 b e 0 else ratRounds single rm i b e
def narrowed32 (f : Binary) (rm : RM) (a : Nat) (b : Nat) (e : Exc) : Prop :=
  if single.nan a then exactly f.quiet b e 0
  else if single.inf a then exactly (f.infBits (single.neg a)) b e 0
  else if single.mag a = 0 then exactly (f.sign (single.neg a)) b e 0
  else roundsTo f rm (single.neg a) (Mag.of (single.mag a)) b e
/-- Every value of a narrow format is one of FP32. -/
def widened32 (f : Binary) (a : Nat) (b : Nat) (e : Exc) : Prop :=
  if f.nan a then exactly single.quiet b e 0
  else if f.inf a then exactly (single.infBits (f.neg a)) b e 0
  else single.expOf b ≠ 255 ∧ single.neg b = f.neg a ∧ single.mag b = f.mag a ∧ e = 0

def convertedTo (k : Cvt) (rm : RM) (a v : Word) (e : Exc) : Prop :=
  match k with
  | .f32i32 => integerOf rm (-2147483648) 2147483647 a.toNat v.toInt e
  | .f32u32 => integerOf rm 0 4294967295 a.toNat v.toNat e
  | .i32f32 => ofIntegerRounds rm a.toInt v.toNat e
  | .u32f32 => ofIntegerRounds rm a.toNat v.toNat e
  | .f32bf16 => narrowed32 brain rm a.toNat v.toNat e
  | .bf16f32 => widened32 brain (a.toNat % 65536) v.toNat e
  | .f32f16 => narrowed32 half rm a.toNat v.toNat e
  | .f16f32 => widened32 half (a.toNat % 65536) v.toNat e
  | .f32i32z => integerOf .rz (-2147483648) 2147483647 a.toNat v.toInt e
  | .f32u32z => integerOf .rz 0 4294967295 a.toNat v.toNat e
  | .fracf32 => single.expOf v.toNat ≠ 255 ∧ single.neg v.toNat = false ∧ single.mag v.toNat = ((a.toNat / 256 : Nat) : Rat) * power (-24) ∧ e = 0

/-- The mode of FPCTL.RM (02 R29; 04 R99). -/
def modeOf (t : Thread) : RM :=
  match t.fpctl.toNat % 4 with
  | 0 => .rne | 1 => .rz | 2 => .rup | _ => .rdn

/-- What an FP instruction computes from its thread's registers: the value v and the exceptions e. The comparisons, FSGN and FCLS stand
in their row (05 R126). -/
def computes (t : Thread) (i : Instr) (v : Word) (e : Exc) : Prop :=
  let g (x : Reg) : Nat := (t.reg x).toNat
  match i with
  | .fadd _ _ a b => sumOf (modeOf t) (g a) (g b) v.toNat e
  | .fsub _ _ a b => sumOf (modeOf t) (g a) ((t.reg b ^^^ 0x80000000).toNat) v.toNat e
  | .fmul _ _ a b => productOf (modeOf t) (g a) (g b) v.toNat e
  | .ffma _ _ a b c => fusedOf (modeOf t) (g a) (g b) (g c) v.toNat e
  | .fmin _ _ a b => exactly (lesserOf (g a) (g b)) v.toNat e 0
  | .fmax _ _ a b => exactly (greaterOf (g a) (g b)) v.toNat e 0
  | .frcp _ _ a => reciprocalOf (modeOf t) (g a) v.toNat e
  | .frsq _ _ a => invRootOf (modeOf t) (g a) v.toNat e
  | .fcvt _ k _ a => convertedTo k (modeOf t) (t.reg a) v e
  | _ => True

/-- The cause of an enabled exception: the lowest of 0x21 to 0x25 that is raised and enabled (05 R128). -/
def lowestCause (raised : Exc) : Nat := 0x21 + ((List.range 5).find? fun i => raised.getLsbD i).getD 0
/-- TVAL's operands a and b; b is 0 for an instruction that reads one (log 58). -/
def operandsOf (t : Thread) (i : Instr) : DWord :=
  match i with
  | .fadd _ _ a b => t.reg b ++ t.reg a
  | .fsub _ _ a b => t.reg b ++ t.reg a
  | .fmul _ _ a b => t.reg b ++ t.reg a
  | .ffma _ _ a b _ => t.reg b ++ t.reg a
  | .frcp _ _ a => (0 : Word) ++ t.reg a
  | .frsq _ _ a => (0 : Word) ++ t.reg a
  | .fcvt _ _ _ a => (0 : Word) ++ t.reg a
  | _ => 0

/-- An instruction that R128 holds, with the value v and the exceptions x: its thread waits for it, and its writeback or its trap is due
L cycles on, the trap with the lowest enabled cause, the operands, and in TAUX the result and every exception raised. -/
def FpHeld (s s' : State) (r : TRef) (t : Thread) (i : Instr) (w : FpRow) (v : Word) (x : Exc) : Prop :=
  ∃ t', s'.thread? r = some t' ∧ t'.fpHold = some s.nextId ∧ t'.g = t.g ∧ t'.fpctl = t.fpctl ∧
    (if x &&& fpSEN t.fpctl = 0 then (s.cycle + w.lat, Instr.fixedLatencyWriteback r s.nextId)
     else (s.cycle + w.lat, Instr.scalarFpTrap r s.nextId)) ∈ s'.agenda ∧
    (∃ f ∈ t'.inflight, f.id = s.nextId ∧ f.due = s.cycle + w.lat ∧ f.writes = [(w.rd, v)] ∧ f.flags = x ∧
      f.giveBack = (if w.c.wc ∧ w.c.thr ≠ 0 then some (w.c.tok, w.c.thr.toNat) else none) ∧
      f.fpTrap = if x &&& fpSEN t.fpctl = 0 then none
        else some { cause := lowestCause (x &&& fpSEN t.fpctl), tpc := t.pc, tval := operandsOf t i,
                    taux := (0 : BitVec 27) ++ x ++ v, tinst := s.iword }) ∧
    s'.hbm = s.hbm ∧ s'.ws = s.ws ∧ s'.vtiles = s.vtiles

end Sys2Proof.Claims
end

