-- ==== Sys2Proof/Safety/Trip.lean ====
section
/-!
DEFINITION. The three turns of an instruction with TRIP, in the words of 03 R72, for the statement about them.
-/
namespace Sys2Proof.Claims
open Sys2Proof.Machine

/-- What a form puts to the vote: its control fields, what it uses, the value that each copy computes, and its exceptions. -/
structure Ballot where
  c : Ctl
  u : Uses
  v : DWord
  x : Exc := 0

def rowBallot (w : Row) : Ballot := ⟨w.c, w.u, valueOf w, 0⟩
def fpUses (w : FpRow) : Uses := { reads := w.reads, writes := [w.rd] }
def fpBallot (w : FpRow) : Ballot := ⟨w.c, fpUses w, (0 : Word) ++ w.v, w.x⟩

/-- The ballot of every form that takes TRIP (03 R74; 05 R139): a result, the address of a load or store, the condition of BZ and
BNZ. -/
def ballotOf (t : Thread) (i : Instr) : Option Ballot :=
  match i with
  | .pca .. => none
  | .bz .. => (jumpRow t i).map fun j => ⟨j.c, j.u, if j.taken then 1 else 0, 0⟩
  | .bnz .. => (jumpRow t i).map fun j => ⟨j.c, j.u, if j.taken then 1 else 0, 0⟩
  | .ld .. => (loadRow i).map fun a => ⟨a.c, a.loadUses, eaOf t a.c a.pb a.off, 0⟩
  | .ldp .. => (loadRow i).map fun a => ⟨a.c, a.loadUses, eaOf t a.c a.pb a.off, 0⟩
  | .st .. => (storeRow i).map fun a => ⟨a.1.c, a.1.storeUses, eaOf t a.1.c a.1.pb a.1.off, 0⟩
  | .stp .. => (storeRow i).map fun a => ⟨a.1.c, a.1.storeUses, eaOf t a.1.c a.1.pb a.1.off, 0⟩
  | i =>
    match registerRow t i, immediateRow t i, divisionRow t i, fpRow t i with
    | some w, _, _, _ => some (rowBallot w)
    | _, some w, _, _ => some (rowBallot w)
    | _, _, some (_, rb, w), _ => if t.reg rb = 0 then none else some (rowBallot w)
    | _, _, _, some w => some (fpBallot w)
    | _, _, _, _ => none

/-- A form comes to its first copy at once: no transfer to a page that is away, no access in deterministic mode. -/
def ballotOpen (s : State) (r : TRef) (t : Thread) (i : Instr) : Bool :=
  (match jumpRow t i with | some j => !(j.taken && s.targetAway r.l j.target) | none => true) &&
  ((loadRow i).isNone && (storeRow i).isNone || inFreeMode s r)

/-- A copy: the value as the upset that strikes it leaves it, and its exceptions. -/
abbrev Copy := DWord × Exc
def copyOf (t : Thread) (b : Ballot) : Copy := (match t.upsets with | [] => b.v | u :: _ => b.v ^^^ u, b.x)
/-- The copy on whose value two agree. -/
def agreed (p q d : Copy) : Option Copy := if p.1 = q.1 ∨ p.1 = d.1 then some p else if q.1 = d.1 then some q else none
def unanimous (p q d : Copy) : Bool := decide (p.1 = q.1) && decide (q.1 = d.1)

/-- The machine after a vote that an instruction goes on from: no copies are kept, and a vote that is not unanimous is counted for the
physical tile (22 R417). -/
def votedState (s : State) (r : TRef) (t : Thread) (all : Bool) : State :=
  let p := s.physOf (tileOf s r).ltile
  let x := (s.votes.get? p).getD (0, 0)
  { s.setThread r { t with trip := [], upsets := t.upsets.drop 1 } with
    votes := if all then s.votes else s.votes.set p (min 0xFFFF (x.1 + 1), x.2) }

/-- The thread with the consume of its wait given back. -/
def unconsumed (t : Thread) (c : Ctl) : Thread := if c.wc ∧ c.thr ≠ 0 then t.giveBack c.tok c.thr.toNat else t

/-- The writes of a row with the value voted. -/
def votedOut (w : Row) (v : DWord) : List (Reg × Word) :=
  match w.out with
  | [(x, _), (y, _)] => [(x, v.extractLsb' 0 32), (y, v.extractLsb' 32 32)]
  | [(x, _)] => [(x, v.extractLsb' 0 32)]
  | l => l

end Sys2Proof.Claims
end

