-- ==== Sys2Proof/Certificates/Slice0/Obligations.lean ====
section
/-!
DEFINITION. The statements about the machine, for the provers.
-/
section
open Sys2Proof Sys2Proof.Machine Sys2Proof.Claims

/-! ### Scalar instructions (05) -/

/-- 05 R117, R120 to R122: an integer register form that no check stops issues, and its one result is readable L cycles
later (02 R40); nothing else changes but what every issue changes. -/
def Obligations.IntegerRegisterResults : Prop :=
  ∀ (i : Instr) (s : State) (r : TRef) (t : Thread) (w : Row), registerRow t i = some w → w.c.hasTrip = false →
    s.clearToIssue r t w.c w.u = true → exec i s = .next ((s.retire r w.c).fly r w.lat w.out 0 (sigOf w.c t))

/-- 05 R123, R124, R129, and PCA of R130: the same for the immediate and the pair forms. -/
def Obligations.ImmediateAndPairResults : Prop :=
  ∀ (i : Instr) (s : State) (r : TRef) (t : Thread) (w : Row), immediateRow t i = some w → w.c.hasTrip = false →
    s.clearToIssue r t w.c w.u = true → exec i s = .next ((s.retire r w.c).fly r w.lat w.out 0 (sigOf w.c t))

/-- 05 R119: a division by zero traps INT_DIV0 precisely with the dividend in TVAL; any other writes its quotient or
remainder after 18 cycles. -/
def Obligations.DivisionResults : Prop :=
  ∀ (i : Instr) (s : State) (r : TRef) (t : Thread) (ra rb : Reg) (w : Row), divisionRow t i = some (ra, rb, w) →
    w.c.hasTrip = false → s.clearToIssue r t w.c w.u = true →
    (t.reg rb = 0 →
      exec i s = .next (s.takeTrap r { cause := 0x20, tpc := t.pc, tval := (t.reg ra).setWidth 64, tinst := s.iword })) ∧
    (t.reg rb ≠ 0 → exec i s = .next ((s.retire r w.c).fly r w.lat w.out 0 (sigOf w.c t)))

/-- 05 R125 to R128: an FP instruction while SEN is zero, or one that R128 does not hold, writes its result after L cycles and ORs its
exceptions into SFLG then. 05 R128: while SEN is not zero, the thread of FADD, FSUB, FMUL, FFMA, FRCP, FRSQ or FCVT is held until the
instruction completes, L cycles on: with its writeback if no exception that it raises is enabled, and else with its trap, whose cause is
the lowest exception raised and enabled, TVAL the operands a and b (b is 0 where the form reads one source: log 58) and TAUX the result and
every exception raised. 04 R98, R100, R103 to R106: the result and the exceptions are those that `computes` gives over the rationals (the
underflow of an inexact result that rounds to zero is the model's reading: log 50). -/
def Obligations.FloatingPointResults : Prop :=
  (∀ (i : Instr) (s : State) (r : TRef) (t : Thread) (w : FpRow), fpRow t i = some w → w.c.hasTrip = false →
     s.clearToIssue r t w.c { reads := w.reads, writes := [w.rd] } = true → w.holds = false ∨ fpSEN t.fpctl = 0 →
     exec i s = .next ((s.retire r w.c).fly r w.lat [(w.rd, w.v)] w.x (sigOf w.c t))) ∧
  (∀ (i : Instr) (s : State) (r : TRef) (t : Thread) (w : FpRow), fpRow t i = some w → w.c.hasTrip = false →
     s.clearToIssue r t w.c { reads := w.reads, writes := [w.rd] } = true → w.holds = true → fpSEN t.fpctl ≠ 0 →
     ∃ s', exec i s = .next s' ∧ FpHeld s s' r t i w w.v w.x) ∧
  (∀ (i : Instr) (t : Thread) (w : FpRow), fpRow t i = some w → computes t i w.v w.x)

/-- 05 R130 to R133: a transfer whose target may be entered, or that is not taken, moves the pc, writes its link or its counter, and
holds the thread for two cycles when it is taken. A call must be the last word of its block. 03 R69; 05 R131: a taken transfer to a
place that is no header traps BAD_TARGET at the transfer, with the target in TVAL; a call that is not the last word of its block does so
first, with the return address. 18 R377: where the target's page is not resident the check waits for it, and the thread is evicted. -/
def Obligations.Transfers : Prop :=
  (∀ (i : Instr) (s : State) (r : TRef) (t : Thread) (j : JumpRow), jumpRow t i = some j → j.c.hasTrip = false →
     s.clearToIssue r t j.c j.u = true → (j.call = true → t.lastInBlock j.c = true) →
     (j.taken = true → s.badTarget r.l j.target = false ∧ s.targetAway r.l j.target = false) →
     exec i s = .next (completed (landed s r j) r t j.c j.out)) ∧
  (∀ (i : Instr) (s : State) (r : TRef) (t : Thread) (j : JumpRow), jumpRow t i = some j → j.c.hasTrip = false →
     s.clearToIssue r t j.c j.u = true →
     (j.call = true → t.lastInBlock j.c = false →
       exec i s = .next (s.takeTrap r { cause := 0x05, tpc := t.pc, tval := linkOf t j.c, tinst := s.iword })) ∧
     ((j.call = true → t.lastInBlock j.c = true) → j.taken = true → s.badTarget r.l j.target = true →
       exec i s = .next (s.takeTrap r { cause := 0x05, tpc := t.pc, tval := j.target, tinst := s.iword })) ∧
     ((j.call = true → t.lastInBlock j.c = true) → j.taken = true → s.badTarget r.l j.target = false →
       s.targetAway r.l j.target = true → exec i s = .next (s.fetchAway r j.target)))

/-- 03 R72, for every form that takes TRIP: the first turn consumes the wait and makes a copy, the second turn makes one more, and
neither does anything else; the third makes the last. When no two agree, the instruction traps TRIP_NOVOTE with its consume given back.
When two agree, the instruction goes on with their value and exceptions, and the vote is counted unless all three agree: an integer, FP or
pair result is written L cycles after the third copy, and an FP instruction that R128 holds is held from it; BZ and BNZ transfer or not,
or trap BAD_TARGET; LD and LDP load from the address, ST and STP store to it their registers of then, here in the tile's own
scratchpad. What an access waits for is read with log 10. -/
def Obligations.TripVotes : Prop :=
  (∀ (i : Instr) (s : State) (r : TRef) (t : Thread) (b : Ballot), ballotOf t i = some b → b.c.hasTrip = true →
     let d := copyOf t b
     let left := t.upsets.drop 1
     (s.clearToIssue r t b.c b.u = true → ballotOpen s r t i = true →
       exec i s = .next (s.setThread r { t.consumeWait b.c with trip := [d], upsets := left })) ∧
     (s.cur = some r → s.thread? r = some t → t.run = .ready → ((loadRow i).isNone && (storeRow i).isNone || inFreeMode s r) = true →
       (∀ p, t.trip = [p] → exec i s = .next (s.setThread r { t with trip := [p, d], upsets := left })) ∧
       (∀ p q, t.trip = [p, q] → agreed p q d = none →
         let t' := unconsumed { t with trip := [], upsets := left } b.c
         exec i s = .next ((s.setThread r t').takeTrap r { cause := 0x0C, tpc := t.pc, tval := 0, tinst := s.iword })))) ∧
  (∀ (i : Instr) (s : State) (r : TRef) (t : Thread) (b : Ballot) (p q m : Copy), ballotOf t i = some b → b.c.hasTrip = true →
     s.cur = some r → s.thread? r = some t → t.run = .ready → t.trip = [p, q] → agreed p q (copyOf t b) = some m →
     let s1 := votedState s r t (unanimous p q (copyOf t b))
     (∀ w, registerRow t i = some w ∨ immediateRow t i = some w ∨ (∃ ra rb, divisionRow t i = some (ra, rb, w)) →
       exec i s = .next ((s1.retireT r w.c).fly r w.lat (votedOut w m.1) 0 (sigOf w.c t))) ∧
     (∀ w, fpRow t i = some w →
       (w.holds = false ∨ fpSEN t.fpctl = 0 →
         exec i s = .next ((s1.retireT r w.c).fly r w.lat [(w.rd, m.1.extractLsb' 0 32)] m.2 (sigOf w.c t))) ∧
       (w.holds = true → fpSEN t.fpctl ≠ 0 → ∃ s', exec i s = .next s' ∧ FpHeld s s' r t i w (m.1.extractLsb' 0 32) m.2)) ∧
     (∀ j, jumpRow t i = some j →
       (m.1 = 0 → exec i s = .next ((s1.retireT r j.c).postNext r (sigOf j.c t))) ∧
       (m.1 ≠ 0 → s.badTarget r.l j.target = true →
         let t' := unconsumed { t with trip := [], upsets := t.upsets.drop 1 } j.c
         exec i s = .next ((s1.setThread r t').takeTrap r { cause := 0x05, tpc := t.pc, tval := j.target, tinst := s.iword })) ∧
       (m.1 ≠ 0 → s.badTarget r.l j.target = false →
         exec i s = .next (((s1.retireT r j.c).updThread r fun t =>
           { t with pc := j.target, arrive := 1, block := none, refetchUntil := s.cycle + 2 }).postNext r (sigOf j.c t)))) ∧
     (∀ (a : Access) (w off n : Nat), loadRow i = some a → inFreeMode s r = true → ownPlace r a.go m.1 = some (w, off) →
       a.through ((tileOf s r).window w).fmt = some n → goAllowed s r t a.go = true → (a.go = true → r.v < s.gridSize r.l) →
       m.1.toNat % n = 0 → scopeAllowed s r (a.c.scope .tileS) = true → (s.coreAfter r .load m.1 8 false).all s.closed = true →
       sound s (tileOf s r) off n = true →
       exec i s = .next ((((if a.go then (s1.retireT r a.c).updThread r (fun t => { t with rst := false }) else s1.retireT r a.c).hear
         r none .tileS (s.marksAt (spadKey r.tile off) n)).coreEvent r none (sigOf a.c t)).fly r 5
         (a.loaded ((tileOf s r).window w).fmt ((tileOf s r).spad.readN off n)) 0 (sigOf a.c t))) ∧
     (∀ (v : VTile) (a : Access) (rl : Bool) (w off n : Nat), storeRow i = some (a, rl) → inFreeMode s r = true →
       ownPlace r a.go m.1 = some (w, off) → s.tile? r.tile = some v → v.spad.wf = true → a.through (v.window w).fmt = some n →
       goAllowed s r t a.go = true → (a.go = true → r.v < s.gridSize r.l) → m.1.toNat % n = 0 →
       scopeAllowed s r (a.c.scope .tileS) = true → (s.coreAfter r .store m.1 8 false).all s.closed = true →
       s.staleFull v off 8 = false →
       let bs := (a.stored t (v.window w) n).1
       ∃ s' v' t', exec i s = .next s' ∧ s'.tile? r.tile = some v' ∧
         (∀ x, v'.spad.read x = if off ≤ x ∧ x < off + n then bs.getD (x - off) 0 else v.spad.read x) ∧
         (∀ q, q ≠ r.tile → s'.tile? q = s.tile? q) ∧ s'.hbm = s.hbm ∧ s'.ws = s.ws ∧ s'.ops = s.ops ∧ s'.votes = s1.votes ∧
         s'.thread? r = some t' ∧
         t' = { Thread.passAt { t with trip := [], upsets := t.upsets.drop 1 } a.c s.cycle s.nextId with
           fpctl := orSFLG t.fpctl (a.stored t (v.window w) n).2, rst := t.rst && !a.go
           before := t'.before, past := t'.past, posted := t'.posted }))

/-! ### Issue: waits and checks (03 R53, R54; 02 R37, R42) -/

/-- 03 R53: the checks on pairs, on a token's overflow, on the wait and on PEND bits come in this order, and the first that
fails decides: BAD_PAIR, TOKEN_OVERFLOW with the token in TVAL, a turn that passes, UNDERWAIT with the lowest register. -/
def Obligations.ChecksBeforeIssue : Prop :=
  ∀ (i : Instr) (s : State) (r : TRef) (t : Thread) (w : Row), registerRow t i = some w ∨ immediateRow t i = some w →
    s.atTurn r t = true →
    let trap (cause : Nat) (tval taux : DWord) : Out :=
      .next (s.takeTrap r { cause, tpc := t.pc, tval, taux, tinst := s.iword })
    if w.u.pairs.any Reg.odd then exec i s = trap 0x0B 0 0
    else if w.c.thr ≠ 0 ∧ t.overAt w.c.tok (if w.c.wc then w.c.thr.toNat else 0) = true then exec i s = trap 0x61 (w.c.tok.setWidth 64) 0
    else if (t.tokAt w.c.tok).value < w.c.thr.toNat then s.isDet r.l = false → exec i s = .next s
    else ∀ x : Reg, t.uwchk = true → x ∈ w.u.reads ++ w.u.writes → t.pend.getLsbD x.toNat = true →
      (∀ y : Reg, y ∈ w.u.reads ++ w.u.writes → t.pend.getLsbD y.toNat = true → x.toNat ≤ y.toNat) →
      exec i s = trap 0x60 (BitVec.ofNat 64 x.toNat) (t.pend.setWidth 64)

/-- 03 R54, R56; 02 R35, R44; 22 R421: what every issue changes: the consume comes off its token, and onto ACC in a region;
the pc passes the prefixes and the word; GAP begins; INSTRET counts; no register, no other token and no flag changes. -/
def Obligations.EveryIssue : Prop :=
  ∀ (t : Thread) (c : Ctl) (now stamp : Nat), c.thr.toNat ≤ (t.tokAt c.tok).value →
    let t' := (t.consumeWait c).passAt c now stamp
    t'.pc = t.pc + BitVec.ofNat 64 (8 * c.pfx.length) + 8 ∧ t'.gapUntil = now + 1 + c.gap.toNat ∧ t'.instret = t.instret + 1 ∧
    t'.g = t.g ∧ t'.fpctl = t.fpctl ∧ t'.tovf = t.tovf ∧ t'.tl = t.tl ∧ t'.rst = t.rst ∧ t'.inflight = t.inflight ∧
    (∀ k : Tok, k ≠ c.tok → t'.tokAt k = t.tokAt k ∧ t'.acc[k.toFin] = t.acc[k.toFin]) ∧
    (t'.tokAt c.tok).count + (t'.tokAt c.tok).inc =
      (t.tokAt c.tok).count + (t.tokAt c.tok).inc - (if c.wc then c.thr.toNat else 0) ∧
    t'.acc[c.tok.toFin] = t.acc[c.tok.toFin] + (if c.wc ∧ t.rst then (c.thr.toNat : Int) else 0)

/-! ### Control, traps and special registers -/

/-- 05 R134 to R136; 09 R226: DLY, WAIT, YIELD with no other thread ready, TRST and TADD do what they say and complete in the next
cycle. 05 R135: in free mode YIELD gives its slot to the thread that became ready first, when one waits for a slot; its own lines may
then be pushed out, which keeps every register but those that a header says are not live (03 R68). -/
def Obligations.PlainInstructions : Prop :=
  (∀ (i : Instr) (s : State) (r : TRef) (t : Thread) (c : Ctl) (f : Thread → Thread), plainRow s r t i = some (c, f) →
     s.clearToIssue r t c {} = true → exec i s = .next (((s.retire r c).updThread r f).postNext r (sigOf c t))) ∧
  (∀ (s : State) (r q : TRef) (t : Thread) (c : Ctl), s.clearToIssue r t c {} = true → s.isDet r.l = false →
     t.slot ≠ none → s.nextReady r.tile = some q → (s.threads.map Prod.fst).Nodup →
     ∃ s' t' u', exec (.yield c) s = .next s' ∧ q ≠ r ∧ s'.thread? r = some t' ∧ t'.slot = none ∧ t'.run = .ready ∧
       s'.thread? q = some u' ∧ u'.slot = t.slot ∧ (∀ x : Reg, t'.reg x = t.reg x ∨ t'.reg x = 0) ∧ s'.hbm = s.hbm ∧ s'.vtiles = s.vtiles)

/-- 09 R227: TRD reads a token once its issue cycle has ended, after its own consume and every post of that cycle: the clock gives its
result the count, at most 255, and bit 8 for TOVF. In deterministic mode it traps DET_ILLEGAL. -/
def Obligations.TokenRead : Prop :=
  (∀ (s : State) (r : TRef) (t : Thread) (c : Ctl) (rd k : Reg), s.clearToIssue r t c { writes := [rd] } = true →
    (s.isDet r.l = false → exec (.trd c rd k) s = .next ((s.retire r c).fly r 2 [] 0 (sigOf c t) (some (k, rd)))) ∧
    (s.isDet r.l = true →
      exec (.trd c rd k) s = .next (s.takeTrap r { cause := 0x09, tpc := t.pc, tinst := s.iword }))) ∧
  (∀ (s : State) (r : TRef) (t : Thread) (f : Flight) (k : Tok) (rd : Reg), s.thread? r = some t → f ∈ t.inflight → f.trd = some (k, rd) →
    steady t = true →
    ∃ t' f', s.tick.thread? r = some t' ∧ f' ∈ t'.inflight ∧ f'.id = f.id ∧ f'.due = f.due ∧
      f'.writes = [(rd, BitVec.ofNat 32 (min 255 ((t.tokAt k).count + (t.tokAt k).inc) +
        (if t.tovf.getLsbD k.toNat ∨ 255 < (t.tokAt k).count + (t.tokAt k).inc then 256 else 0)))])

/-- 12 R293, R294: a trap that finds the thread below level 2, with no result on its way and no PEND bit set, enters the next
level: the bank, TSC, p7, TL and the pc as the rules give them, everything else of the thread and of the machine as before. -/
def Obligations.TrapEntry : Prop :=
  ∀ (s : State) (r : TRef) (t : Thread) (i : TrapInfo), s.thread? r = some t → t.tl < 2 → s.awaitsCommit r = false →
    t.inflight = [] → t.pend = 0 → i.cause < 256 →
    ∃ t', s.takeTrap r i = s.setThread r t' ∧ Entered t i s.cycle t'

/-- 05 R138; 09 R248; 03 R77: TRAP n traps with cause 0xE0 + n, BKPT without capture with cause 0x0D and its code in TVAL, a word whose
primary code is 0 with ZERO_WORD, and one of another code that no instruction has with ILLEGAL_OP. 05 R138; 12 R305: with capture armed,
BKPT stops its thread, which has no current block then (03 R66), and issues when the thread is stepped from it. -/
def Obligations.TrapInstructions : Prop :=
  (∀ (i : Instr) (s : State) (r : TRef) (t : Thread) (c : Ctl) (cause : Nat) (tval : DWord),
     trapRow s r t i = some (c, cause, tval) → s.clearToIssue r t c {} = true → t.tl < 2 → s.awaitsCommit r = false →
     t.inflight = [] → t.pend = 0 →
     ∃ t', exec i s = .next (s.setThread r t') ∧ Entered t { cause, tpc := t.pc, tval, tinst := s.iword } s.cycle t') ∧
  (∀ (s : State) (r : TRef) (t : Thread) (w : DWord), s.atTurn r t = true → s.iword = w → t.tl < 2 → s.awaitsCommit r = false →
     t.inflight = [] → t.pend = 0 →
     ∃ t', exec (.illegalOp w) s = .next (s.setThread r t') ∧
       Entered t { cause := if w.extractLsb' 56 8 = 0 then 0x01 else 0x02, tpc := t.pc, tinst := w } s.cycle t') ∧
  (∀ (s : State) (r : TRef) (t : Thread) (ln : Launch) (c : Ctl) (imm : BitVec 24), s.clearToIssue r t c {} = true →
     s.launch? r.l = some ln → ln.armed = true →
     (t.bkptPass = false → t.stopped = false →
       exec (.bkpt c imm) s = .next (s.setThread r { t with stopped := true, bkptPass := true, block := none })) ∧
     (t.bkptPass = true ∨ t.stopped = true → exec (.bkpt c imm) s = .next ((s.retire r c).postNext r (sigOf c t))))

/-- 12 R297: a trap at level 2 escalates: the thread issues nothing more, its trap bank, the third trap and its names stand in the
escalation record, and the launch is killed with status ESCALATE. -/
def Obligations.Escalation : Prop :=
  ∀ (s : State) (r : TRef) (t : Thread) (ln : Launch) (i : TrapInfo), s.thread? r = some t → t.tl = 2 →
    s.launch? r.l = some ln → ln.phase = .placing → ln.esc = none →
    ∃ ln', (s.takeTrap r i).launch? r.l = some ln' ∧ ln'.status = 0xC0 ∧ ln'.phase = .killFlood ∧
      ln'.esc = some { h1 := t.half1, h2 := t.half2, third := i, thid := r.th, vt := r.v } ∧
      (s.takeTrap r i).thread? r = some { t with run := .dead }

/-- 09 R249; 22 R420: RETT returns to TPC, RETT.N past the instruction there; g14 and g15 come from TSC, TL falls by one, and RST is
cleared when it falls below IRTL. 09 R249, R256: RETT at level 0 traps PRIVILEGED. -/
def Obligations.Returns : Prop :=
  (∀ (s : State) (r : TRef) (t : Thread) (c : Ctl) (nx : Bool), s.clearToIssue r t c {} = true → t.tl ≠ 0 → t.pend = 0 →
     t.held = [] → (nx = true → s.prefixAway r.l (t.half t.tl).tpc = none) →
     ∃ s' t', exec (.rett c nx) s = .next s' ∧ s'.thread? r = some t' ∧ t'.tl = t.tl - 1 ∧
       t'.pc = (t.half t.tl).tpc + (if nx then BitVec.ofNat 64 (8 * (s.prefixesAt r.l 64 (t.half t.tl).tpc + 1)) else 0) ∧
       t'.reg 14 = (t.half t.tl).tscL ∧ t'.reg 15 = (t.half t.tl).tscH ∧ (∀ x : Reg, x ≠ 14 → x ≠ 15 → t'.reg x = t.reg x) ∧
       t'.rst = (t.rst && !decide (t.tl - 1 < t.irtl)) ∧ t'.fpctl = t.fpctl ∧ t'.half1 = t.half1 ∧ t'.half2 = t.half2 ∧
       s'.hbm = s.hbm ∧ s'.ws = s.ws ∧ s'.vtiles = s.vtiles ∧ s'.ops = s.ops) ∧
  (∀ (s : State) (r : TRef) (t : Thread) (c : Ctl) (nx : Bool), s.atTurn r t = true → t.tl = 0 →
     exec (.rett c nx) s = .next (s.takeTrap r { cause := 0x08, tpc := t.pc, tinst := s.iword }))

/-- 02 R43, R44: SRD of a register that the image holds writes its 32 bits two cycles on. 02 R28, R29, R32, R44: SWR replaces the named
32 bits of the image, less the fields that read as zero; the trap bank only above level 0. 02 R43: SRD and SWR of an index from 0x800 on
trap PRIVILEGED with the index in TVAL, and so do a SWR of a register marked R and a SWR of the trap bank at level 0. -/
def Obligations.SpecialRegisters : Prop :=
  (∀ (s : State) (r : TRef) (t : Thread) (c : Ctl) (rd : Reg) (imm : BitVec 24) (v : Word),
     imageValue r t (imm.toNat % 4096) = some v → c.imm imm = (imm.toNat % 4096 : Nat) →
     s.clearToIssue r t c { writes := [rd] } = true →
     exec (.srd c rd imm 0) s = .next ((s.retire r c).fly r 2 [(rd, v)] 0 (sigOf c t))) ∧
  (∀ (s : State) (r : TRef) (t t' : Thread) (c : Ctl) (ra : Reg) (imm : BitVec 24),
     imageWrite ((t.consumeWait c).passAt c s.cycle s.nextId) (imm.toNat % 4096) (t.reg ra) = some t' →
     c.imm imm = (imm.toNat % 4096 : Nat) → (t.tl ≠ 0 ∨ imm.toNat % 4096 = 0x020 ∨ imm.toNat % 4096 = 0x021 ∨
       (0x043 ≤ imm.toNat % 4096 ∧ imm.toNat % 4096 ≤ 0x046)) →
     s.clearToIssue r t c { reads := [ra] } = true → s.isDet r.l = false →
     exec (.swr c ra imm 0) s = .next ((s.setThread r t').postNext r (sigOf c t))) ∧
  (∀ (s : State) (r : TRef) (t : Thread) (c : Ctl) (x : Reg) (imm : BitVec 24) (sf : BitVec 4), s.atTurn r t = true →
     let trap : Out := .next (s.takeTrap r { cause := 0x08, tpc := t.pc, tval := BitVec.ofNat 64 (imm.toNat % 4096), tinst := s.iword })
     (0x800 ≤ imm.toNat % 4096 → exec (.srd c x imm sf) s = trap ∧ exec (.swr c x imm sf) s = trap) ∧
     (t.tl = 0 → (0x031 ≤ imm.toNat % 4096 ∧ imm.toNat % 4096 ≤ 0x040) ∨ (0x047 ≤ imm.toNat % 4096 ∧ imm.toNat % 4096 ≤ 0x04A) →
       exec (.swr c x imm sf) s = trap) ∧
     (imm.toNat % 4096 ≤ 0x00C ∨ imm.toNat % 4096 ∈ [0x010, 0x011, 0x012, 0x022, 0x030, 0x060, 0x061, 0x062, 0x0F0] →
       exec (.swr c x imm sf) s = trap))

/-- 22 R419; 09 R255: IDEM begins a region at the word after it: IRPC, RST, IRTL, RCNT and every ACC entry. -/
def Obligations.RegionBegins : Prop :=
  ∀ (s : State) (r : TRef) (t : Thread) (c : Ctl), s.clearToIssue r t c {} = true →
    ∃ s' t', exec (.idem c) s = .next s' ∧ s'.thread? r = some t' ∧ t'.irpc = t.pc + BitVec.ofNat 64 (8 * c.pfx.length) + 8 ∧
      t'.pc = t'.irpc ∧ t'.rst = true ∧ t'.irtl = t.tl ∧ t'.rcnt = 0 ∧ (∀ k : Fin 16, t'.acc[k] = 0) ∧ t'.g = t.g ∧
      s'.hbm = s.hbm ∧ s'.vtiles = s.vtiles

/-- 05 R137: EXIT of a thread at home that is not the lead, in free mode: its image stays with EXITED set, its slot and its results on their
way are gone, and memory is unchanged; the lead's token k gets 1 when SIGEN is set. 05 R137; 16 R336: EXIT of the lead is held while
R137 says so, and then finishes the virtual tile, whose threads are gone; when no other member of its gang is left unfinished, the gang
is FINISHED. That the lead's EXIT waits for group operations, which are messages (09 R230), and not for a SEND that a park queue holds, is the
model's reading of R137 and R161 (log 27). -/
def Obligations.Exits : Prop :=
  (∀ (s : State) (r : TRef) (t : Thread) (c : Ctl), s.clearToIssue r t c {} = true → t.lead = false → t.away = false →
     inFreeMode s r = true → t.held = [] →
     ∃ s' t', exec (.exit c) s = .next s' ∧ s'.thread? r = some t' ∧ t'.exitedF = true ∧ t'.run = .exited ∧ t'.slot = none ∧
       t'.inflight = [] ∧ t'.pend = 0 ∧ t'.g = t.g ∧ s'.hbm = s.hbm ∧ s'.ws = s.ws ∧ s'.vtiles = s.vtiles ∧
       (∀ q u, t.sigEn = true → s.leadOf r.l t.homev.toNat = some q → q ≠ r → s.thread? q = some u → u.run ≠ .exited →
         ∃ u', s'.thread? q = some u' ∧ (u'.tokAt t.sigTok).inc = (u.tokAt t.sigTok).inc + 1)) ∧
  (∀ (s : State) (r : TRef) (t : Thread) (c : Ctl) (v : VTile), s.clearToIssue r t c {} = true → t.lead = true →
     t.away = false → s.isDet r.l = false → s.tile? r.tile = some v → t.held = [] →
     (s.exitClear r = false → exec (.exit c) s = .next s) ∧
     (s.exitClear r = true → ∃ s' v', exec (.exit c) s = .next s' ∧ s'.tile? r.tile = some v' ∧ v'.finished = true ∧
       (∀ e ∈ s'.threads, e.1.tile ≠ r.tile) ∧ v'.spad = v.spad ∧ s'.hbm = s.hbm ∧ s'.ws = s.ws))

/-! ### Loads, stores and atomics (06) -/

/-- 06 R143 to R147, R153; 02 R40: LD and LDP of the tile's own scratchpad deliver its bytes after 5 cycles, extended, or
converted by the window's format, and keep in mind the releases that the bytes hold (11 R278; log 10); LDAQ delivers them as a long-latency result with its PEND bits set. Memory is unchanged. -/
def Obligations.LocalLoads : Prop :=
  (∀ (i : Instr) (s : State) (r : TRef) (t : Thread) (a : Access) (w off n : Nat), loadRow i = some a → a.c.hasTrip = false →
    ownPlace r a.go (eaOf t a.c a.pb a.off) = some (w, off) → a.through ((tileOf s r).window w).fmt = some n →
    inFreeMode s r = true → s.clearToIssue r t a.c a.loadUses = true → goAllowed s r t a.go = true →
    (a.go = true → r.v < s.gridSize r.l) → (eaOf t a.c a.pb a.off).toNat % n = 0 → scopeAllowed s r (a.c.scope .tileS) = true →
    (s.coreAfter r .load (eaOf t a.c a.pb a.off) 8 false).all s.closed = true → sound s (tileOf s r) off n = true →
    exec i s = .next ((((if a.go then (s.retire r a.c).updThread r (fun t => { t with rst := false }) else s.retire r a.c).hear r none .tileS
      (s.marksAt (spadKey r.tile off) n)).coreEvent r none (sigOf a.c t)).fly r 5
      (a.loaded ((tileOf s r).window w).fmt ((tileOf s r).spad.readN off n)) 0 (sigOf a.c t))) ∧
  (∀ (s : State) (r : TRef) (t : Thread) (c : Ctl) (sz : AqSz) (rt pb : Reg) (o : BitVec 24) (w off n : Nat),
    let a : Access := ⟨c, false, rt, pb, o, aqBytes sz, false⟩
    c.hasTrip = false → ownPlace r false (eaOf t c pb o) = some (w, off) → a.through ((tileOf s r).window w).fmt = some n →
    inFreeMode s r = true → s.clearToIssue r t c a.loadUses = true → (eaOf t c pb o).toNat % n = 0 →
    scopeAllowed s r (c.scope .vdS) = true → (s.coreAfter r .load (eaOf t c pb o) 8 false).all s.closed = true →
    sound s (tileOf s r) off n = true → s.ops.all (fun e => decide (e.1 < s.nextId)) = true →
    ∃ s' t' x, exec (.ldaq c sz rt pb o) s = .next s' ∧ s'.op? s.nextId = some x ∧ x.phase = .reply ∧
      x.res = a.loaded ((tileOf s r).window w).fmt ((tileOf s r).spad.readN off n) ∧ s'.thread? r = some t' ∧ t'.g = t.g ∧
      (∀ y ∈ a.data, t'.pend.getLsbD y.toNat = true) ∧ s'.hbm = s.hbm ∧ s'.ws = s.ws ∧
      ∀ q, (tileOf s' q).spad = (tileOf s q).spad)

/-- 06 R143 to R147, R152: ST, STP and STRL to the tile's own scratchpad write their bytes at the address that eaOf gives, and
no other byte of any memory; the thread changes as every issue changes it, and SFLG by a conversion's exceptions. What an access waits for is read with
log 10. -/
def Obligations.LocalStores : Prop :=
  ∀ (i : Instr) (s : State) (r : TRef) (t : Thread) (v : VTile) (a : Access) (rl : Bool) (w off n : Nat),
    storeRow i = some (a, rl) → a.c.hasTrip = false → ownPlace r a.go (eaOf t a.c a.pb a.off) = some (w, off) →
    s.tile? r.tile = some v → v.spad.wf = true → a.through (v.window w).fmt = some n →
    s.clearToIssue r t a.c a.storeUses = true → goAllowed s r t a.go = true → (a.go = true → r.v < s.gridSize r.l) →
    (eaOf t a.c a.pb a.off).toNat % n = 0 → scopeAllowed s r (a.c.scope (if rl then .vdS else .tileS)) = true →
    (s.coreAfter r .store (eaOf t a.c a.pb a.off) 8 false ++
      (if rl then s.releaseAfter r (a.c.scope .vdS) else [])).all s.closed = true →
    s.staleFull v off 8 = false → s.logFits r 1 0 = true →
    let bs := (a.stored t (v.window w) n).1
    ∃ s' v' t', exec i s = .next s' ∧ s'.tile? r.tile = some v' ∧
      (∀ x, v'.spad.read x = if off ≤ x ∧ x < off + n then bs.getD (x - off) 0 else v.spad.read x) ∧
      (∀ q, q ≠ r.tile → s'.tile? q = s.tile? q) ∧ s'.hbm = s.hbm ∧ s'.ws = s.ws ∧ s'.ops = s.ops ∧ s'.thread? r = some t' ∧
      t' = { (t.consumeWait a.c).passAt a.c s.cycle s.nextId with
        fpctl := orSFLG t.fpctl (a.stored t (v.window w) n).2, rst := t.rst && !a.go
        before := t'.before, past := t'.past, posted := t'.posted } ∧
      (∀ q, q ≠ r → s'.thread? q = s.thread? q)

/-- 06 R154, R155; 22 R420: an atomic of the tile's own scratchpad in free mode writes the new value of its operation to its
bytes and no other byte, clears RST, and, in a returning form, has the old value on its way to its registers. What an access waits for is
read with log 10. -/
def Obligations.LocalAtomics : Prop :=
  ∀ (i : Instr) (s : State) (r : TRef) (t : Thread) (v : VTile) (a : AtomicRow) (w off : Nat), atomicRow i = some a →
    a.c.hasTrip = false → ownPlace r a.go (eaOf t a.c a.pb a.off) = some (w, off) → s.tile? r.tile = some v →
    v.spad.wf = true → inFreeMode s r = true → s.clearToIssue r t a.c (a.uses (isAcas i)) = true →
    goAllowed s r t a.go = true → (a.go = true → r.v < s.gridSize r.l) → (eaOf t a.c a.pb a.off).toNat % a.n = 0 →
    scopeAllowed s r (a.c.scope .vdS) = true →
    (s.coreAfter r .atomic (eaOf t a.c a.pb a.off) 8 false).all s.closed = true → s.staleFull v off 8 = false →
    sound s v off a.n = true → s.ops.all (fun e => decide (e.1 < s.nextId)) = true →
    let old := littleEndian (v.spad.readN off a.n)
    let bs := lowBytes (a.new old (a.operand t) (a.replacement t)) a.n
    ∃ s' v' t', exec i s = .next s' ∧ s'.tile? r.tile = some v' ∧ s'.thread? r = some t' ∧
      (∀ x, v'.spad.read x = if off ≤ x ∧ x < off + a.n then bs.getD (x - off) 0 else v.spad.read x) ∧
      (∀ q, q ≠ r.tile → s'.tile? q = s.tile? q) ∧ s'.hbm = s.hbm ∧ s'.ws = s.ws ∧ t'.rst = false ∧ t'.g = t.g ∧
      (a.ret = false → s'.op? s.nextId = none) ∧
      (a.ret = true → (∃ o, s'.op? s.nextId = some o ∧ o.phase = .reply ∧ o.res = a.out old) ∧
        ∀ y ∈ (a.out 0).map Prod.fst, t'.pend.getLsbD y.toNat = true)

/-- 06 R144, R148, R152 to R155; 11 R271: an access of another tile, of weight space or of global memory, in free mode, leaves as an
operation behind the accesses of its thread that it must follow; a global store updates the tile's cached line, and a global atomic
drops it. The list of earlier accesses that an operation waits for is the model's reading of the ordering rules (log 10). -/
def Obligations.AccessRequests : Prop :=
  ∀ (i : Instr) (s : State) (r : TRef) (t : Thread) (q : Request), accessRequest s r t i = some q → q.c.hasTrip = false →
    inFreeMode s r = true → requestReady s r t q = true → exec i s = .next (handed s r q)

/-- 06 R152, R153: a plain global load of a line that the read cache holds, behind no earlier access, is answered from the
line, or goes to the home. What an access waits for is read with log 10. -/
def Obligations.CachedLoads : Prop :=
  ∀ (i : Instr) (s : State) (r : TRef) (t : Thread) (a : Leaving) (l : Line) (home off : Nat), leavingRow t i = some a →
    a.c.hasTrip = false → inFreeMode s r = true → a.cacheable s r = true → a.go = false → a.n ≤ 64 →
    Addr.of (eaOf t a.c a.pb a.off) = .glob home off → s.cached r (eaOf t a.c a.pb a.off).toNat = some l →
    (eaOf t a.c a.pb a.off).toNat % a.n = 0 → s.clearToIssue r t a.c a.u = true →
    s.coreAfter r .load (eaOf t a.c a.pb a.off) a.n true = [] → [Hold.refills, .homes].all (s.holdFree r.tile) = true →
    s.ops.all (fun e => decide (e.1 < s.nextId)) = true →
    ∃ s' o, exec i s = .next s' ∧ s'.op? s.nextId = some o ∧ o.regs = a.regs ∧ s'.hbm = s.hbm ∧ s'.ws = s.ws ∧
      ((o.phase = .waiting ∧ o.cls = .globalLoad) ∨
       (o.phase = .reply ∧ ∃ sz : Access, loadRow i = some sz ∧
          o.res = sz.loaded 0 ((l.bytes.drop ((eaOf t a.c a.pb a.off).toNat % 64)).take a.n)))

/-- 06 R147: the first check that an access fails, in the rule's order, traps precisely with the address in TVAL; 12 R293. In
deterministic mode the window whose descriptor the checks read is one of the chunk's reads (17 R347; log 20). -/
def Obligations.AccessChecks : Prop :=
  ∀ (i : Instr) (s : State) (r : TRef) (t : Thread) (a : Leaving) (cause : Nat), leavingRow t i = some a →
    a.c.hasTrip = false → s.clearToIssue r t a.c a.u = true → goAllowed s r t a.go = true →
    accessTrap s r a (eaOf t a.c a.pb a.off) = some cause →
    exec i s = .next ((windowRead s r a (eaOf t a.c a.pb a.off)).takeTrap r
      { cause, tpc := t.pc, tval := eaOf t a.c a.pb a.off, tinst := s.iword })

/-! ### Engines, messages, groups and copies (06 to 09) -/

/-- 07 R172 to R174: a vector word in free mode issues when the engine's queue has room, with its operands' values and the window
descriptors as they stand, behind the operations that its path must follow. The list of earlier accesses that an operation waits for is
the model's reading of the ordering rules (log 10). -/
def Obligations.VectorRequests : Prop :=
  ∀ (i : Instr) (s : State) (r : TRef) (t : Thread) (q : Request), vectorRequest s r t i = some q → inFreeMode s r = true →
    requestReady s r t q = true → exec i s = .next (handed s r q)

/-- 06 R161, R165 to R167: SEND, PUT, GET, XIN and XOUT in free mode leave as messages or transfers with the operands read at
issue. -/
def Obligations.MessageRequests : Prop :=
  ∀ (i : Instr) (s : State) (r : TRef) (t : Thread) (q : Request), messageRequest s r t i = some q → inFreeMode s r = true →
    requestReady s r t q = true → exec i s = .next (handed s r q)

/-- 07 R195 to R199; 08 R204, R205, R214, R218, R222: the commands of the quasi-random unit, OLOAD and the array's operations in free
mode are handed over; OLOAD's slot fills, and MOL and MCLR set the accumulator's tag at issue. -/
def Obligations.EngineRequests : Prop :=
  ∀ (i : Instr) (s : State) (r : TRef) (t : Thread) (q : Request), engineRequest s r t i = some q → inFreeMode s r = true →
    requestReady s r t q = true → exec i s = .next (handed s r q)

/-- 09 R229 to R233, R245: a group instruction in free mode sends its message to its home, and LNCH its request to the home of
the block's page, with the operands read at issue. -/
def Obligations.GroupRequests : Prop :=
  ∀ (i : Instr) (s : State) (r : TRef) (t : Thread) (q : Request), groupRequest s r t i = some q → inFreeMode s r = true →
    requestReady s r t q = true → exec i s = .next (handed s r q)

/-- 06 R162, R163: RECV of a mailbox that has an entry, with no thread blocked before it, takes the oldest in its issue cycle;
else its thread blocks without issuing. MPOLL reads the number of entries and the oldest tag, and takes nothing. -/
def Obligations.MailboxReads : Prop :=
  (∀ (s : State) (r : TRef) (t : Thread) (c : Ctl) (pd gi : Reg) (mb : BitVec 2) (m : Msg) (rest : List Msg),
    s.clearToIssue r t c { writes := [pd, Reg.hi pd, gi], pairs := [pd] } = true → inFreeMode s r = true →
    s.firstRecv r.tile mb.toNat = none → (tileOf s r).box mb.toNat = m :: rest → m.poison = false →
    (List.finRange 16).all (fun x => decide (t.landed[x] ≤ s.nextId)) = true →
    ∃ s' t', exec (.recv c pd gi mb) s = .next s' ∧ s'.thread? r = some t' ∧ t'.reg gi = m.tag ++ m.source ∧
      (gi ≠ pd → t'.reg pd = m.payload.extractLsb' 0 32) ∧ (gi ≠ Reg.hi pd → t'.reg (Reg.hi pd) = m.payload.extractLsb' 32 32) ∧
      (∀ x, x ≠ pd → x ≠ Reg.hi pd → x ≠ gi → t'.reg x = t.reg x) ∧ t'.run = .ready ∧ t'.rst = false ∧
      t'.pc = t.pc + BitVec.ofNat 64 (8 * c.pfx.length) + 8 ∧ (tileOf s' r).box mb.toNat = rest ∧
      (∀ k : Nat, k ≠ mb.toNat → (tileOf s' r).box k = (tileOf s r).box k) ∧ (tileOf s' r).spad = (tileOf s r).spad ∧
      s'.hbm = s.hbm ∧ s'.ops = s.ops) ∧
  (∀ (s : State) (r : TRef) (t : Thread) (c : Ctl) (pd gi : Reg) (mb : BitVec 2),
    s.clearToIssue r t c { writes := [pd, Reg.hi pd, gi], pairs := [pd] } = true → inFreeMode s r = true →
    (tileOf s r).box mb.toNat = [] ∨ s.firstRecv r.tile mb.toNat ≠ none →
    exec (.recv c pd gi mb) s =
      .next { s.updThread r (fun t => { t with run := .recv mb.toNat s.nextId c pd gi }) with nextId := s.nextId + 1 }) ∧
  (∀ (s : State) (r : TRef) (t : Thread) (c : Ctl) (rd : Reg) (mb : BitVec 2), s.clearToIssue r t c { writes := [rd] } = true →
    s.isDet r.l = false → s.ops.all (fun e => decide (e.1 < s.nextId)) = true →
    ∃ s' o, exec (.mpoll c rd mb) s = .next s' ∧ s'.op? s.nextId = some o ∧ o.phase = .reply ∧
      o.res = [(rd, BitVec.ofNat 32 (((tileOf s r).box mb.toNat).length +
        (match (tileOf s r).box mb.toNat with | [] => 0 | m :: _ => 256 * m.tag.toNat)))] ∧
      s'.hbm = s.hbm ∧ ∀ k : Nat, (tileOf s' r).box k = (tileOf s r).box k)

/-- 07 R188, R190, R193: WSET reads 32 bytes of its scratchpad into a descriptor that is in effect from the fifth cycle on,
WGET writes a descriptor's 32 bytes, and QGEN computes one point of a dimension; each at an address or a dimension that the
rules admit. What an access waits for, and what WGET keeps for later acquires, are read with log 10. -/
def Obligations.WindowsAndPoints : Prop :=
  (∀ (s : State) (r : TRef) (t : Thread) (c : Ctl) (w : BitVec 3) (ra : Reg) (k off : Nat),
    s.clearToIssue r t c { reads := [ra] } = true → inFreeMode s r = true → shortAddr (t.reg ra) = some (k, off) → off % 32 = 0 →
    (s.coreAfter r .load (localAddr 0 off) 32 false).all s.closed = true → (s.tile? r.tile).isSome = true →
    sound s (tileOf s r) off 32 = true →
    exec (.wset c w ra) s = .next (((((s.retire r c).hear r none .tileS (s.marksAt (spadKey r.tile off) 32)).coreEvent r none
      (sigOf c t)).postNext r (sigOf c t)).updTile r.tile fun v =>
      { v with winNext := v.winNext ++ [(s.cycle + 5, w.toNat, descriptorOf ((tileOf s r).spad.readN off 32))] })) ∧
  (∀ (s : State) (r : TRef) (t : Thread) (c : Ctl) (w : BitVec 3) (ra : Reg) (k off : Nat),
    s.clearToIssue r t c { reads := [ra] } = true → inFreeMode s r = true → shortAddr (t.reg ra) = some (k, off) → off % 32 = 0 →
    (s.coreAfter r .store (localAddr 0 off) 32 false).all s.closed = true → s.staleFull (tileOf s r) off 32 = false →
    exec (.wget c w ra) s = .next ((((s.retire r c).coreStore r off (bytesOfDescriptor ((tileOf s r).window w.toNat))
      ((s.retire r c).giftFor r s.nextId false .tileS)).coreEvent r (some s.nextId) (sigOf c t)).postNext r (sigOf c t))) ∧
  (∀ (s : State) (r : TRef) (t : Thread) (c : Ctl) (rd ra rb : Reg),
    s.clearToIssue r t c { reads := [ra, rb], writes := [rd] } = true → s.isDet r.l = false → (t.reg ra).toNat < 64 →
    qruIdle s r = true →
    exec (.qgen c rd ra rb) s =
      .next ((s.retire r c).fly r 4 [(rd, pointOf ((tileOf s r).qdim (t.reg ra).toNat) (t.reg rb))] 0 (sigOf c t)))

/-- 08 R204, R210; 12 R304: OCLM claims a free slot and ORLS frees one that is not filling or in use, and both trap SLOT_STATE
otherwise; MMG, once its own checks pass, waits at its tile's gang line without issuing. -/
def Obligations.SlotsAndLine : Prop :=
  (∀ (s : State) (r : TRef) (t : Thread) (c : Ctl) (x : Reg) (fm : OFmt) (role : Role), s.clearToIssue r t c {} = true →
    s.isDet r.l = false →
    exec (.oclm c x fm role) s = if (slotAt s r x).st = .free then
        .next ((putSlot r x (fun y => { y with st := .claimed, fmt := fm, role }) (issuedOnce s r c)).postNext r (sigOf c t))
      else .next (s.takeTrap r { cause := 0x83, tpc := t.pc, tinst := s.iword })) ∧
  (∀ (s : State) (r : TRef) (t : Thread) (c : Ctl) (x : Reg), s.clearToIssue r t c {} = true → s.isDet r.l = false →
    exec (.orls c x) s = if ((slotAt s r x).st = .claimed ∨ (slotAt s r x).st = .filled) ∧ s.slotInUse r.tile x.toNat = false then
        .next ((putSlot r x (fun y => { y with st := .free }) (issuedOnce s r c)).postNext r (sigOf c t))
      else .next (s.takeTrap r { cause := 0x83, tpc := t.pc, tinst := s.iword })) ∧
  (∀ (s : State) (r : TRef) (t : Thread) (v : VTile) (c : Ctl) (k : OFmt) (acc : BitVec 1) (sa sb fd : Reg),
    s.clearToIssue r t c {} = true → inFreeMode s r = true → s.tile? r.tile = some v → (s.blk r.l).heavy ≠ 0 →
    fd.toNat < (s.gangOfTile r.tile).length → (s.gangOfTile r.tile).any s.finishedAt = false → (v.slot sa.toNat).st = .filled →
    (v.slot sa.toNat).role = .a → (v.slot sa.toNat).fmt = k → (v.accu acc.toNat).tag.ok k = true →
    s.ops.all (fun e => decide (e.1 < s.nextId)) = true →
    ∃ s' t' v' o, exec (.mmg c k acc sa sb fd) s = .next s' ∧ s'.thread? r = some t' ∧ t'.run = .line ∧ t'.pc = t.pc ∧
      t'.tok = t.tok ∧ t'.instret = t.instret ∧ t'.g = t.g ∧ s'.tile? r.tile = some v' ∧ v'.lineQ = v.lineQ ++ [s.nextId] ∧
      v'.slots = v.slots ∧ v'.acc = v.acc ∧ v'.spad = v.spad ∧ s'.op? s.nextId = some o ∧ o.ins = .mmg c k acc sa sb fd ∧ s'.hbm = s.hbm)

/-- 09 R237, R238, R242, R243: in free mode COPY and COPY.r hand the descriptor's copy to its engine: tracked, STATUS running, PROG
zero for a copy from its start; CPYX of a handle that is not tracked does nothing, and marks a faulted copy cancelled; CPYQ
reads the state of a tracked copy, or the descriptor's STATUS. -/
def Obligations.CopyInstructions : Prop :=
  (∀ (s : State) (r : TRef) (t : Thread) (v : VTile) (c : Ctl) (res : Bool) (ra : Reg) (off : Nat),
    s.clearToIssue r t c { reads := [ra] } = true → inFreeMode s r = true → s.tile? r.tile = some v → handleOf (t.reg ra) = some off →
    v.spad.wf = true → s.copyBuffered r off = false → s.ops.all (fun e => decide (e.1 < s.nextId)) = true →
    (if res then (v.copies.get? off).map CopyTr.state = some 3
     else (v.copies.get? off).all (fun x => decide (x.state ≠ 1 ∧ x.state ≠ 3)) = true ∧ s.copiesTracked r.tile < 16) →
    let first := if res then littleEndian (v.spad.readN (off + 24) 8) / 65536 else 0
    ∃ s' v' o, exec (.copy c res ra) s = .next s' ∧ s'.tile? r.tile = some v' ∧ s'.op? s.nextId = some o ∧ o.cls = .copy ∧
      o.copySrc.toNat = littleEndian (v.spad.readN off 8) ∧ o.copyDst.toNat = littleEndian (v.spad.readN (off + 8) 8) ∧
      o.copyLen = littleEndian (v.spad.readN (off + 16) 8) ∧ o.line = 1 ∧ o.parts = (if first = 0 then [] else [(0, first * 8192)]) ∧
      v'.copies.get? off = some { state := 1, op := s.nextId } ∧ v'.issueSeq = v.issueSeq + 1 ∧ s'.hbm = s.hbm ∧
      ∀ x, v'.spad.read x = if off + 0x20 ≤ x ∧ x < off + 0x24 then (if x = off + 0x20 then 1 else 0)
        else if off + 0x18 ≤ x ∧ x < off + 0x20 ∧ first = 0 then 0 else v.spad.read x) ∧
  (∀ (s : State) (r : TRef) (t : Thread) (v : VTile) (c : Ctl) (ra : Reg) (off : Nat),
    s.clearToIssue r t c { reads := [ra] } = true → inFreeMode s r = true → s.tile? r.tile = some v → handleOf (t.reg ra) = some off →
    (v.copies.get? off = none → exec (.cpyx c ra) s = .next ((issuedOnce s r c).postNext r (sigOf c t))) ∧
    (∀ x, v.copies.get? off = some x → x.state = 3 →
      exec (.cpyx c ra) s = .next ((((issuedOnce s r c).spadWrite r.tile (off + 0x20) (lowBytes (4 + 256 * x.cause) 4) none).updTile
        r.tile fun v => { v with copies := v.copies.del off }).postNext r (sigOf c t)))) ∧
  (∀ (s : State) (r : TRef) (t : Thread) (v : VTile) (c : Ctl) (rd ra : Reg) (off : Nat),
    s.clearToIssue r t c { reads := [ra], writes := [rd] } = true → s.isDet r.l = false → s.tile? r.tile = some v →
    handleOf (t.reg ra) = some off → sound s v (off + 0x20) 4 = true →
    exec (.cpyq c rd ra) s = .next ((s.retire r c).fly r 5 [(rd, match v.copies.get? off with
      | some x => BitVec.ofNat 32 (x.state + 256 * x.cause)
      | none => BitVec.ofNat 32 (littleEndian (v.spad.readN (off + 0x20) 4)))] 0 (sigOf c t)))

/-- 09 R251 to R253; 06 R149, R168: the lead's SPAWN puts the child's image into the table at the lowest free index; REAP frees
the entry of a child that has exited and returns its g0; SVC evicts its thread to the firmware; MIGR and a GO form bound for
another tile begin to drain. What SPAWN's child comes after is read with log 10, and when PEND lets a thread leave with log 30. -/
def Obligations.ThreadInstructions : Prop :=
  (∀ (s : State) (r : TRef) (t : Thread) (c : Ctl) (se : Bool) (ti ent arg k : Reg) (n : Nat),
    s.clearToIssue r t c { reads := [ent, Reg.hi ent, arg], writes := [ti], pairs := [ent] } = true → inFreeMode s r = true →
    t.lead = true → s.badTarget r.l (t.pair ent) = false → s.targetAway r.l (t.pair ent) = false → (s.tileThreads r.tile).length < 64 → s.freeIndex r.tile = some n →
    s.ops.all (fun e => decide (e.1 < s.nextId)) = true →
    ∃ s' u o, exec (.spawn c se ti ent arg k) s = .next s' ∧ s'.thread? ⟨r.l, r.v, n⟩ = some u ∧ u.pc = t.pair ent ∧ u.tl = 0 ∧
      (∀ x : Reg, u.reg x = if x = 0 then t.reg arg else 0) ∧ u.fpctl = t.fpctl &&& 0xFFF ∧ u.uwchk = t.uwchk ∧ u.sigEn = se ∧
      u.sigTok = k ∧ u.lead = false ∧ u.homev.toNat = r.v % 2 ^ 24 ∧ u.tvec = t.tvec ∧ u.tsave = t.tsave ∧ u.slot = none ∧
      s'.op? s.nextId = some o ∧ o.res = [(ti, BitVec.ofNat 32 n)] ∧ o.after = ((s.retire r c).releaseAfter r .tileS).filter (fun x => (s.op? x).isSome)) ∧
  (∀ (s : State) (r : TRef) (t u : Thread) (c : Ctl) (rd ra : Reg),
    s.clearToIssue r t c { reads := [ra], writes := [rd] } = true → inFreeMode s r = true → t.lead = true →
    (t.reg ra).toNat ≠ 0 → (t.reg ra).toNat < 64 → s.thread? ⟨r.l, r.v, (t.reg ra).toNat⟩ = some u → u.run = .exited →
    s.ops.all (fun e => decide (e.1 < s.nextId)) = true → t.run = .ready →
    ∃ s' o, exec (.reap c rd ra) s = .next s' ∧ s'.thread? ⟨r.l, r.v, (t.reg ra).toNat⟩ = none ∧ s'.op? s.nextId = some o ∧
      o.phase = .reply ∧ o.res = [(rd, u.reg 0)] ∧ s'.hbm = s.hbm) ∧
  (∀ (s : State) (r : TRef) (t : Thread) (c : Ctl) (imm : BitVec 24), s.clearToIssue r t c {} = true → inFreeMode s r = true →
    t.inflight = [] → s.pendClear r = true → s.serviceSent r = true → s.ops.all (fun e => decide (e.1 < s.nextId)) = true →
    ∃ s' t' o, exec (.svc c imm) s = .next s' ∧ s'.thread? r = some t' ∧ t'.run = .service (BitVec.ofInt 64 (c.imm imm)) ∧
      t'.slot = none ∧ t'.rst = false ∧ s'.op? s.nextId = some o ∧ o.cls = .service ∧ s'.hbm = s.hbm) ∧
  (∀ (s : State) (r : TRef) (t : Thread) (c : Ctl) (vt : Reg), s.clearToIssue r t c { reads := [vt] } = true → s.isDet r.l = false →
    t.tl = 0 → (t.reg vt).toNat < s.gridSize r.l → s.holdFree r.tile (.vtt (t.reg vt).toNat) = true →
    exec (.migr c vt) s = .next (s.updThread r fun t => { t with run := .migrDrain (t.reg vt).toNat false c })) ∧
  (∀ (i : Instr) (s : State) (r : TRef) (t : Thread) (a : Leaving) (v w off : Nat), leavingRow t i = some a → a.go = true →
    a.c.hasTrip = false → s.clearToIssue r t a.c a.u = true → s.isDet r.l = false → t.tl = 0 →
    Addr.of (eaOf t a.c a.pb a.off) = .remote v w off → v ≠ r.v → v < s.gridSize r.l → s.holdFree r.tile (.vtt v) = true →
    exec i s = .next (s.updThread r fun t => { t with run := .migrDrain v true a.c }))

/-- 06 R158, R159; 09 R246, R247; 11 R275, R276: a fence is a mark behind the accesses that its kind, scope or paths name, and completes at
once when there is none; CINV drops a cached line or all, CFLS waits for the tile's buffered stores of a line or for all; TRIG marks its
tile after the thread's accesses; LWAIT waits for the producers. That a fence is a mark with the list of what it waits for is the
model's form of the ordering rules (log 10). -/
def Obligations.OrderingInstructions : Prop :=
  (∀ (s : State) (r : TRef) (t : Thread) (c : Ctl) (k : FenceKind) (sc : Scope), s.clearToIssue r t c {} = true →
    scopeAllowed s r sc = true →
    exec (.fence c k sc) s = .next (marked s r t c (markOp s r t c (.fence c k sc) .fence sc 0 (fenceAfter (s.retire r c) r k sc))
      (decide (k ≠ .rel) && decide (2 ≤ sc.code)) (first := fun s => s.fenceSync r none k sc))) ∧
  (∀ (s : State) (r : TRef) (t : Thread) (c : Ctl) (m : BitVec 5), s.clearToIssue r t c {} = true → s.isDet r.l = false →
    exec (.pfence c m) s = .next (marked s r t c (markOp s r t c (.pfence c m) .fence .tileS 0 (pfenceAfter s r m)) (m.getLsbD 0)
      (first := fun s => s.joinPaths r m))) ∧
  (∀ (s : State) (r : TRef) (t : Thread) (c : Ctl) (k : LineKind) (pb : Reg) (off : BitVec 24),
    s.clearToIssue r t c (lineUses k pb) = true → (s.pathAfter r .core true false).all s.closed = true →
    exec (.cinv c k pb off) s = .next (((s.retire r c).updTile r.tile fun v => { v with rcache := match lineOf t c k pb off with
      | some none => []
      | some (some a) => v.rcache.filter fun l => !sameLine s r.tile a l
      | none => v.rcache }).postNext r (sigOf c t))) ∧
  (∀ (s : State) (r : TRef) (t : Thread) (c : Ctl) (k : LineKind) (pb : Reg) (off : BitVec 24),
    s.clearToIssue r t c (lineUses k pb) = true → (s.pathAfter r .core false true).all s.closed = true →
    exec (.cfls c k pb off) s = .next (marked s r t c (markOp s r t c (.cfls c k pb off) .cfls .tileS (eaOf t c pb off)
      (match lineOf t c k pb off with | some l => heldStores s r l | none => [])) false)) ∧
  (∀ (s : State) (r : TRef) (t : Thread) (c : Ctl), s.clearToIssue r t c {} = true → s.isDet r.l = false → s.allOpen r = [] →
    exec (.trig c) s = .next ((((s.retire r c).noteTrig r.l ((s.retire r c).allViewOf r)).updTile r.tile fun v =>
      { v with triggered := true }).postNext r (sigOf c t))) ∧
  (∀ (s : State) (r : TRef) (t : Thread) (c : Ctl), s.clearToIssue r t c {} = true → s.isDet r.l = false →
    exec (.lwait c) s = if s.producersDone r.l then
        .next (((s.retire r c).updThread r fun t => { t.learnAll (s.producerGift r.l) with run := .ready, acqStamp := s.nextId }).postNext r
          (sigOf c t))
      else .next (s.updThread r fun t => { t with run := .lwait none }))

/-- 09 R254; 10 R259: EINJ without its permission traps PRIVILEGED; with it, a target or an index outside its ranges traps BAD_SUBOP, and
any other issues in free mode: it has taken effect, or waits for the tile's matrix operations before it. With no matrix operation of
the tile under way the stored bits that the mask names invert at once. -/
def Obligations.ErrorInjection : Prop :=
  (∀ (s : State) (r : TRef) (t : Thread) (c : Ctl) (gx gm tgt : Reg), s.atTurn r t = true →
    ((s.blk r.l).test && s.injallow.getLsbD (s.vdOf r.l)) = false →
    exec (.einj c gx gm tgt) s = .next (s.takeTrap r { cause := 0x08, tpc := t.pc, tinst := s.iword })) ∧
  (∀ (s : State) (r : TRef) (t : Thread) (c : Ctl) (gx gm tgt : Reg), s.clearToIssue r t c { reads := [gx, gm] } = true →
    (s.blk r.l).test = true → s.injallow.getLsbD (s.vdOf r.l) = true → 4 < tgt.toNat ∨ einjBad tgt (t.reg gx) = true →
    exec (.einj c gx gm tgt) s = .next (s.takeTrap r { cause := 0x03, tpc := t.pc, tinst := s.iword })) ∧
  (∀ (s : State) (r : TRef) (t : Thread) (c : Ctl) (gx gm tgt : Reg), s.clearToIssue r t c { reads := [gx, gm] } = true →
    inFreeMode s r = true → (s.blk r.l).test = true → s.injallow.getLsbD (s.vdOf r.l) = true → tgt.toNat ≤ 4 →
    einjBad tgt (t.reg gx) = false → s.ops.all (fun e => decide (e.1 < s.nextId)) = true →
    ∃ s' t', exec (.einj c gx gm tgt) s = .next s' ∧ s'.thread? r = some t' ∧ t'.rst = false ∧ t'.instret = t.instret + 1 ∧
      t'.pc = t.pc + BitVec.ofNat 64 (8 * c.pfx.length) + 8 ∧ s'.hbm = s.hbm ∧ (s'.op? s.nextId = none ∨
        ∃ o, s'.op? s.nextId = some o ∧ o.ins = .einj c gx gm tgt ∧ o.phase = .parked ∧ o.val 0 = t.reg gx ∧ o.val 1 = t.reg gm)) ∧
  (∀ (s : State) (r : TRef) (t : Thread) (v : VTile) (c : Ctl) (gx gm tgt : Reg),
    s.clearToIssue r t c { reads := [gx, gm] } = true → inFreeMode s r = true → s.tile? r.tile = some v →
    (s.blk r.l).test = true → s.injallow.getLsbD (s.vdOf r.l) = true → tgt.toNat ≤ 4 → einjBad tgt (t.reg gx) = false →
    s.ops.all (fun e => decide (e.1 < s.nextId) &&
      !(decide (e.2.tile = r.tile) && (decide (e.2.cls = .array) || decide (e.2.cls = .oload)))) = true → noInjection s = true →
    ∃ s' v' t', exec (.einj c gx gm tgt) s = .next s' ∧ s'.tile? r.tile = some v' ∧ v' = v.inject tgt (t.reg gx) (t.reg gm) ∧
      v'.spad = v.spad ∧ s'.thread? r = some t' ∧ t'.rst = false ∧ t'.g = t.g ∧ s'.hbm = s.hbm)

/-! ### Events -/

/-- 02 R34 to R36, R40, R41; 03 R55, R56; 05 R133, R134; 12 R298; 17 R346; 22 R421: a fixed-latency result lands, unless a
later producer's has, with its flags and post; a post joins its token, and comes off ACC in its region; the counts of GAP, DLY and a fetch
run out; a latched instruction is released when its resource is free; a chunk at its count is cut. -/
def Obligations.ResultsAndPosts : Prop :=
  (∀ (s : State) (r : TRef) (t : Thread) (f : Flight) (x : Reg) (w : Word), s.thread? r = some t →
    t.inflight.find? (fun g => decide (g.id = f.id)) = some f → f.due ≤ s.cycle → f.fpTrap = none → f.writes = [(x, w)] →
    steady t = true → marksStand s r = true →
    ∃ s' t', exec (.fixedLatencyWriteback r f.id) s = .next s' ∧ s'.thread? r = some t' ∧
      t'.reg x = (if t.landed[x.toFin] ≤ f.id then w else t.reg x) ∧ (∀ y, y ≠ x → t'.reg y = t.reg y) ∧
      t'.fpctl = orSFLG t.fpctl f.flags ∧ (∀ g ∈ t'.inflight, g.id ≠ f.id) ∧ t'.pc = t.pc ∧ t'.pend = t.pend ∧
      (∀ k : Tok, (t'.tokAt k).inc = (t.tokAt k).inc + (match f.sig with
        | some g => if g.tok = k ∧ t.run ≠ .exited then g.inc else 0
        | none => 0)) ∧ s'.hbm = s.hbm ∧ s'.vtiles = s.vtiles ∧ s'.ops = s.ops) ∧
  (∀ (s : State) (r : TRef) (t : Thread) (region n : Nat) (k : Tok), s.thread? r = some t →
    ∃ t', exec (.signalPost r region k n) s = .next (s.setThread r t') ∧
      (t.run = .exited → t' = t) ∧
      (t.run ≠ .exited → (∀ j : Tok, (t'.tokAt j).count = (t.tokAt j).count ∧
          (t'.tokAt j).inc = (t.tokAt j).inc + (if j = k then n else 0) ∧
          t'.acc[j.toFin] = t.acc[j.toFin] - (if j = k ∧ t.rst = true ∧ region = t.region then (n : Int) else 0)) ∧
        t'.g = t.g ∧ t'.pc = t.pc)) ∧
  (∀ (s : State) (r : TRef) (t : Thread), s.thread? r = some t →
    (t.gapUntil ≤ s.cycle → exec (.gapExpiry r) s = .next (s.setThread r { t with gapUntil := 0 })) ∧
    (t.dlyUntil ≤ s.cycle → exec (.dlyExpiry r) s = .next (s.setThread r { t with dlyUntil := 0 })) ∧
    (t.refetchUntil ≤ s.cycle → exec (.takenTransferRefetch r) s = .next (s.setThread r { t with refetchUntil := 0 })) ∧
    (∀ h, t.run = .latch h → s.holdFree r.tile h = true →
      exec (.retryLatchRelease r) s = .next (s.setThread r { t with run := .latched }))) ∧
  (∀ (s : State) (r : TRef), s.atCount r = true →
    exec (.chunkCountCut r) s = .next (s.updChunk r fun c => { c with cut := .count }))

/-- 10 R263, R264; 02 R46; 22 R417: a due parity update makes its row current, and its entry frees in the cycle after; a refresh window opens for 128 cycles and closes;
the votes of a tile are logged once and counted from zero again. -/
def Obligations.Upkeep : Prop :=
  (∀ (s : State) (v : TileRef) (x : VTile) (i : Nat) (e : Stale), s.tile? v = some x →
    x.stale.find? (fun y => decide (y.row * 4 + y.grp = i)) = some e →
    (e.due ≠ 0 → e.due ≤ s.cycle → ∃ s' x', exec (.parityUpdate v i) s = .next s' ∧ s'.tile? v = some x' ∧ x'.spad = x.spad ∧
      (∀ y ∈ x'.stale, y.row * 4 + y.grp = i → y.due = 0) ∧ (∀ y, y.row * 4 + y.grp ≠ i → (y ∈ x'.stale ↔ y ∈ x.stale)) ∧
      (s.cycle + 1, Instr.parityUpdate v i) ∈ s'.agenda ∧ (∀ q, q ≠ v → s'.tile? q = s.tile? q) ∧ s'.threads = s.threads) ∧
    (e.due = 0 → ∃ s' x', exec (.parityUpdate v i) s = .next s' ∧ s'.tile? v = some x' ∧ x'.spad = x.spad ∧
      (∀ y, y ∈ x'.stale ↔ y ∈ x.stale ∧ y.row * 4 + y.grp ≠ i) ∧ (∀ q, q ≠ v → s'.tile? q = s.tile? q) ∧ s'.threads = s.threads)) ∧
  (∀ (s : State) (f sl : Nat), f < 64 → (s.field f).inWindow.contains sl = false →
    ∃ s', exec (.refreshWindowBegin f sl) s = .next s' ∧ (s'.field f).inWindow.contains sl = true ∧
      (s.cycle + 128, Instr.refreshWindowEnd f sl) ∈ s'.agenda ∧ s'.threads = s.threads ∧ s'.vtiles = s.vtiles) ∧
  (∀ (s : State) (f sl : Nat), f < 64 →
    ∃ s', exec (.refreshWindowEnd f sl) s = .next s' ∧ (s'.field f).inWindow.contains sl = false ∧
      (∀ x, x ≠ sl → (s'.field f).inWindow.contains x = (s.field f).inWindow.contains x) ∧ s'.threads = s.threads) ∧
  (∀ (s : State) (p n at_ : Nat), s.votes.get? p = some (n, at_) → n ≠ 0 → at_ ≤ s.cycle → ∃ s', exec (.voteRecord p) s = .next s' ∧
    s' = { s.logErr 14 (s.logicalOf p) 5 0 0 0 0xFFFFFFFF 0 n with votes := s.votes.set p (0, s.cycle + 1048576) })

/-- 02 R38; 06 R148, R150; 12 R301, R303; 22 R422, R423: a long-latency result is written, its PEND bits clear and its signal posts; a deferred
fault joins its thread's reports, with its PEND bits clear and nothing written. The first report is delivered at a turn whose instruction's
wait is met, or whose checks before it fail, or any turn once eight wait; else the turn passes. A thread that stands in RECV, LWAIT, the
latch or the gang line has that instruction abandoned for it, its MMG withdrawn; one that sleeps under DLY or GAP wakes, and one out of its
slot in RECV becomes ready. A consumed error, met in the same ways, restarts its region or kills its launch; in a
launch that is being killed it is discarded (22 R428). -/
def Obligations.LateResults : Prop :=
  (∀ (s : State) (id : Nat) (o : Op) (t : Thread), s.op? id = some o → o.phase = .reply → o.atStart = false →
    s.thread? o.t = some t → t.run = .ready → steady t = true → o.regs = o.res.map Prod.fst → o.regs.Nodup →
    ∃ s' t', exec (.longLatencyWrite id) s = .next s' ∧ endedFrom s id o s' ∧ s'.thread? o.t = some t' ∧
      (∀ e ∈ o.res, t'.reg e.1 = e.2) ∧ (∀ y, y ∉ o.regs → t'.reg y = t.reg y) ∧
      (∀ y : Reg, t'.pend.getLsbD y.toNat = (t.pend.getLsbD y.toNat &&
        (!o.regs.contains y || s.ops.any fun e => decide (e.2.t = o.t) && decide (e.1 ≠ id) && decide (e.2.phase ≠ .done) &&
          decide (e.2.phase ≠ .held) && e.2.regs.contains y))) ∧
      s'.hbm = s.hbm) ∧
  (∀ (s : State) (id : Nat) (o : Op) (i : TrapInfo) (t : Thread), s.op? id = some o → o.phase = .faulted → o.fault = some i →
    o.consumedF = false → heldForRett o.cls = true → s.thread? o.t = some t → t.run = .ready → steady t = true → t.reports.length < 8 →
    s.isDet o.t.l = false →
    ∃ s' t' p, exec (.deferredFaultReport id) s = .next s' ∧ s'.thread? o.t = some t' ∧ t'.reports = t.reports ++ [p] ∧
      p.cause = i.cause ∧ p.tval = i.tval ∧ p.taux = i.taux ∧ p.heldOp = some id ∧ p.consumed = false ∧ t'.g = t.g ∧
      (s'.op? id).map Op.phase = some .held ∧ t'.held = t.held ++ [{ op := id }]) ∧
  (∀ (s : State) (r : TRef) (t : Thread) (p : Report) (rest : List Report), s.thread? r = some t → standing t.run = true →
    t.reports = p :: rest → p.consumed = false → s.isDet r.l = false → t.stopped = false → t.slot ≠ none → t.tl < 2 →
    t.inflight = [] → t.pend = 0 → s.awaitsCommit r = false → p.cause < 256 →
    ∃ s' t', exec (.reportDelivery r) s = .next s' ∧ s'.thread? r = some t' ∧ t'.reports = rest ∧
      Entered t (reportTrap t p (s.nextWord r t)) s.cycle t' ∧
      ∀ v', s'.tile? r.tile = some v' → ∀ id ∈ v'.lineQ, (s.op? id).map Op.t ≠ some r) ∧
  (∀ (s : State) (r : TRef) (t : Thread) (p : Report) (rest : List Report), s.thread? r = some t → standing t.run = true →
    t.reports = p :: rest → p.consumed = true → s.isDet r.l = false → t.stopped = false → t.slot ≠ none → t.inflight = [] →
    t.held = [] → ∃ s', exec (.consumedError r) s = .next s' ∧ ErrorConsumed s s' r t rest) ∧
  (∀ (i : Instr) (s : State) (r : TRef) (t : Thread) (w : Row) (p : Report) (rest : List Report),
    registerRow t i = some w ∨ immediateRow t i = some w → s.cur = some r → s.thread? r = some t → t.run = .ready → t.trip = [] →
    t.reports = p :: rest → s.isDet r.l = false →
    let decided := w.u.pairs.any Reg.odd || decide (w.c.thr ≠ 0) && t.overAt w.c.tok (if w.c.wc then w.c.thr.toNat else 0) ||
      decide (w.c.thr.toNat ≤ (t.tokAt w.c.tok).value)
    (decided = false → t.reports.length < 8 → t.reports.any Report.now = false → exec i s = .next s) ∧
    (decided = true ∨ 8 ≤ t.reports.length →
      (p.consumed = false → t.tl < 2 → t.inflight = [] → t.pend = 0 → s.awaitsCommit r = false → p.cause < 256 →
        ∃ s' t', exec i s = .next s' ∧ s'.thread? r = some t' ∧ t'.reports = rest ∧ Entered t (reportTrap t p s.iword) s.cycle t') ∧
      (p.consumed = true → t.inflight = [] → t.held = [] → ∃ s', exec i s = .next s' ∧ ErrorConsumed s s' r t rest))) ∧
  (∀ (s : State) (r : TRef) (t : Thread) (p : Report) (rest : List Report), s.thread? r = some t → t.reports = p :: rest →
    s.isDet r.l = false → t.stopped = false →
    let e : Instr := if p.consumed then .consumedError r else .reportDelivery r
    (t.run = .ready → t.gapUntil ≠ 0 ∨ t.dlyUntil ≠ 0 → t.trip = [] → t.slot ≠ none →
      ∃ s', exec e s = .next s' ∧ s'.thread? r = some { t with gapUntil := 0, dlyUntil := 0 }) ∧
    (∀ mb n c pd gi, t.run = .recv mb n c pd gi → t.slot = none →
      ∃ s' t', exec e s = .next s' ∧ s'.thread? r = some t' ∧ t'.run = .ready ∧ t'.reports = t.reports ∧ t'.g = t.g ∧ t'.pc = t.pc))

/-- 05 R128; 06 R149; 09 R253; 18 R378: an instruction held under SEN that raises an enabled exception is not counted, gives its consume
back and traps; an evicted thread becomes ready when no page keeps it; a service that the firmware does not know answers
all ones. When PEND lets a thread leave is read with log 30. -/
def Obligations.ThreadEvents : Prop :=
  (∀ (s : State) (r : TRef) (t : Thread) (f : Flight) (i : TrapInfo) (k : Tok) (n : Nat), s.thread? r = some t → t.inflight = [f] →
    f.fpTrap = some i → f.giveBack = some (k, n) → f.due ≤ s.cycle → t.tl < 2 → t.pend = 0 → s.isDet r.l = false →
    s.awaitsCommit r = false → i.cause < 256 →
    ∃ s' t', exec (.scalarFpTrap r f.id) s = .next s' ∧ s'.thread? r = some t' ∧ t'.tl = t.tl + 1 ∧
      (∀ x : Reg, x ≠ 14 → x ≠ 15 → t'.reg x = t.reg x) ∧
      (t'.half (t.tl + 1)).tpc = i.tpc ∧ (t'.half (t.tl + 1)).tcause = BitVec.ofNat 32 i.cause ∧ t'.instret = t.instret - 1 ∧
      (t'.tokAt k).count = min 255 ((t.tokAt k).count + n) ∧ t'.fpctl = t.fpctl ∧ t'.fpHold = none ∧ t'.inflight = []) ∧
  (∀ (s : State) (r : TRef) (t : Thread), s.thread? r = some t → t.run = .evicted → t.slot = none → t.evictable = false → s.awaitsPage r = false →
    s.pendClear r = true → ∃ s' t', exec (.threadReady r) s = .next s' ∧ s'.thread? r = some t' ∧ t'.run = .ready ∧ t'.g = t.g ∧
      t'.pc = t.pc ∧ (s.nextReady r.tile = none → s.lowestSlot r.tile ≠ none → t'.slot ≠ none)) ∧
  (∀ (s : State) (r : TRef) (t : Thread) (n : DWord), s.thread? r = some t → t.run = .service n → n ≠ 1 → n ≠ 2 →
    s.awaitsPage r = false → t.evictable = false →
    s.ops.all (fun e => !(decide (e.2.t = r) && decide (e.2.cls = .service)) || (s.clear e.2 && decide (e.2.res = []))) = true →
    ∃ s' t', exec (.svcReturn r) s = .next s' ∧ s'.thread? r = some t' ∧ t'.run = .ready ∧ t'.reg 0 = 0xFFFFFFFF ∧
      (∀ x, x ≠ 0 → t'.reg x = t.reg x) ∧ s'.hbm = s.hbm ∧ s'.pages = s.pages)

/-- 07 R175, R177 to R179, R184 to R186: an operation whose operands are sound starts; an element-wise integer operation on windows of
32-bit integers, whose sources are its destination's own words or apart from them, has written for each element, by its completion, the
word that its operation gives, and nothing else; a count
above 2^20 faults VEC_LENGTH with nothing written; a completion ORs the operation's flags into VFLG and ends it, or reports
its fault. -/
def Obligations.VectorEvents : Prop :=
  (∀ (s : State) (id : Nat) (o : Op) (v : VTile) (g : List Word → Word → Nat → Word) (d : Nat) (srcs : List Nat),
    vectorInteger o.ins = some g → atHead s id o .vector = true → s.tile? o.tile = some v → v.spad.wf = true →
    o.vals.length = 6 → integerWindows o = true → vectorPlaces o = some (d, srcs) → (o.val 5).toNat ≤ 2 ^ 20 →
    srcs.all (fun a => apart d a (o.val 5).toNat && sound s v a (4 * (o.val 5).toNat)) = true →
    ∃ s' v', exec (.vectorOpStart id) s = .next s' ∧ s'.tile? o.tile = some v' ∧ v'.spad = v.spad ∧
      s'.op? id = some { o with phase := .sent } ∧ s'.hbm = s.hbm) ∧
  (∀ (s : State) (id : Nat) (o : Op) (v : VTile) (g : List Word → Word → Nat → Word) (d : Nat) (srcs : List Nat),
    vectorInteger o.ins = some g → vectorRuns s id o = true → s.tile? o.tile = some v → v.spad.wf = true → v.lag = [] →
    o.vals.length = 6 → integerWindows o = true → vectorPlaces o = some (d, srcs) → (o.val 5).toNat ≤ 2 ^ 20 →
    srcs.all (fun a => apart d a (o.val 5).toNat) = true →
    ∃ s' v', exec (.vectorOpComplete id) s = .next s' ∧ s'.tile? o.tile = some v' ∧
      v'.spad = v.spad.writeN d (vectorBytes g v.spad srcs (o.val 4) (o.val 5).toNat) ∧ endedFrom s id o s' ∧ s'.hbm = s.hbm ∧
      ∀ q, q ≠ o.tile → (s'.tile? q).map VTile.spad = (s.tile? q).map VTile.spad) ∧
  (∀ (s : State) (id : Nat) (o : Op), (vectorRow o.ins).isSome = true → atHead s id o .vector = true → 2 ^ 20 < (o.val 5).toNat →
    ∃ s' o', exec (.vectorOpStart id) s = .next s' ∧ s'.op? id = some o' ∧ o'.phase = .sent ∧
      o'.fault = some { cause := 0x82, tval := (o.val 5).setWidth 64, taux := o.waddr, tinst := o.tinst } ∧
      s'.vtiles = s.vtiles ∧ s'.threads = s.threads) ∧
  (∀ (s : State) (id : Nat) (o : Op) (t : Thread), s.op? id = some o → o.cls = .vector → o.phase = .sent → o.atStart = false →
    (vectorRow o.ins).isSome = true → o.elems = (o.val 5).toNat → o.elems ≠ 0 →
    s.thread? o.t = some t → t.run = .ready → steady t = true → s.isDet o.t.l = false →
    (o.fault = none → ∃ s' t', exec (.vectorOpComplete id) s = .next s' ∧ endedFrom s id o s' ∧ s'.thread? o.t = some t' ∧
      t'.fpctl = orVFLG t.fpctl o.exc ∧ t'.g = t.g) ∧
    (∀ i, o.fault = some i → t.reports.length < 8 → ∃ s' t' p, exec (.vectorOpComplete id) s = .next s' ∧ s'.op? id = none ∧
      s'.thread? o.t = some t' ∧ t'.reports = t.reports ++ [p] ∧ p.cause = i.cause ∧ p.tval = i.tval ∧ t'.fpctl = orVFLG t.fpctl o.exc))

/-- 07 R192 to R199: the commands of the quasi-random unit at the head of its queue: QSEED and QLOAD write dimensions, QSAVE writes records
to the scratchpad, QGENV writes points; each then ends, here in free mode. -/
def Obligations.QuasiRandomEvents : Prop :=
  ∀ (s : State) (id : Nat) (o : Op) (v : VTile), atHead s id o .qru = true → s.tile? o.tile = some v → v.spad.wf = true → v.lag = [] →
    o.elems = 0 → o.fault = none → s.isDet o.tile.l = false →
    (∀ c x ra rb, o.ins = .qseed c x ra rb → ∃ s' v', exec (.qruCommandComplete id) s = .next s' ∧ endedFrom s id o s' ∧
      s'.tile? o.tile = some v' ∧ v'.spad = v.spad ∧ v'.qdim (o.val 0).toNat = { v.qdim (o.val 0).toNat with seed := o.val 1, scr := x } ∧
      ∀ d, d ≠ (o.val 0).toNat → v'.qdim d = v.qdim d) ∧
    (∀ c short ra rb cnt, o.ins = .qload c short ra rb cnt →
      sound s v (offsetOf (o.val 0)) (cnt.toNat * (if short then 8 else 136)) = true →
      ∃ s' v', exec (.qruCommandComplete id) s = .next s' ∧ endedFrom s id o s' ∧ s'.tile? o.tile = some v' ∧ v'.spad = v.spad ∧
        ∀ d, v'.qdim d = if (o.val 1).toNat ≤ d ∧ d < (o.val 1).toNat + cnt.toNat then
          dimensionOf (v.qdim d) short v.spad (offsetOf (o.val 0) + (d - (o.val 1).toNat) * (if short then 8 else 136)) else v.qdim d) ∧
    (∀ c short ra rb cnt, o.ins = .qsave c short ra rb cnt →
      ∃ s' v', exec (.qruCommandComplete id) s = .next s' ∧ endedFrom s id o s' ∧ s'.tile? o.tile = some v' ∧ v'.qru = v.qru ∧
        v'.spad = v.spad.writeN (offsetOf (o.val 0)) ((List.range cnt.toNat).flatMap fun i => recordBytes (v.qdim ((o.val 1).toNat + i)) short)) ∧
    (∀ c dst dim idx n d, o.ins = .qgenv c dst dim idx n → o.wins.length = 8 → o.wins.all (fun w => decide (w.fmt = 0)) = true →
      (o.val 1).toNat < 64 → (o.val 3).toNat ≤ 2 ^ 20 → wordsPlace (o.val 0) (o.val 3).toNat = some d →
      ∃ s' v', exec (.qruCommandComplete id) s = .next s' ∧ endedFrom s id o s' ∧ s'.tile? o.tile = some v' ∧ v'.qru = v.qru ∧
        v'.spad = v.spad.writeN d ((List.range (o.val 3).toNat).flatMap fun j =>
          lowBytes (pointOf (v.qdim (o.val 1).toNat) (o.val 2 + BitVec.ofNat 32 j)).toNat 4))

/-- 08 R205, R208, R211 to R214, R218, R222: the matrix path's events on sound operands. OLOAD at its queue's head fills its slot from the
scratchpad, from its field's weight store or from global memory; when every member of a gang holds an MMG at the line that agrees with the
others, the release issues them all; the MMGs of a release and MOL change each entry as their loops say, with the feeder's B slot; MDRN of
an accumulator whose blocks agree writes every entry in its window's format; MCLR clears; MSTAT reads the status word. -/
def Obligations.MatrixEvents : Prop :=
  (∀ (s : State) (id : Nat) (o : Op) (v : VTile) (c : Ctl) (x src gk : Reg) (off : Nat), atHead s id o .oload = true → noInjection s = true →
    s.tile? o.tile = some v → o.ins = .oload c .l x src gk → (v.slot x.toNat).mem.wf = true → v.lag = [] → o.parts = [] →
    placeOf (o.val 0) (slotBytes (v.slot x.toNat)) 8 = some off → sound s v off (slotBytes (v.slot x.toNat)) = true →
    ∃ s' v', exec (.oloadComplete id) s = .next s' ∧ endedFrom s id o s' ∧ s'.tile? o.tile = some v' ∧
      (v'.slot x.toNat).st = .filled ∧ (v'.slot x.toNat).fmt = (v.slot x.toNat).fmt ∧ (v'.slot x.toNat).role = (v.slot x.toNat).role ∧
      (v'.slot x.toNat).k = (v.slot x.toNat).k ∧
      (∀ b, (v'.slot x.toNat).mem.read b = if b < slotBytes (v.slot x.toNat) then v.spad.read (off + b) else (v.slot x.toNat).mem.read b) ∧
      (∀ j : Nat, j ≠ x.toNat → v'.slot j = v.slot j) ∧ v'.spad = v.spad ∧ v'.acc = v.acc) ∧
  (∀ (s : State) (id : Nat) (o : Op) (v : VTile) (c : Ctl) (src : OSrc) (x sr gk : Reg) (off : Nat), atHead s id o .oload = true →
    noInjection s = true → s.tile? o.tile = some v → o.ins = .oload c src x sr gk → (v.slot x.toNat).mem.wf = true → o.parts = [] →
    off % 8 = 0 → ∀ from_ : Nat → Option Byte, (∀ b, b < slotBytes (v.slot x.toNat) → (from_ b).isSome = true) →
    (src = .w ∧ Addr.of (DWord.mk (o.val 0) (o.val 1)) = .weight off ∧ s.wsBusy o.tile off (slotBytes (v.slot x.toNat)) = false ∧
        0 < slotBytes (v.slot x.toNat) ∧ s.wsFlips = [] ∧ s.wsPoison = [] ∧
        (∀ b, from_ b = (s.wsAt (s.tilePool o.tile) (s.tileField o.tile) (off + b)).map s.ws.read) ∨
      src = .g ∧ s.memWf = true ∧ homesSound s = true ∧ s.hist = [] ∧ s.homesFull o = false ∧ s.isDet o.tile.l = false ∧
        ∃ home, Addr.of (DWord.mk (o.val 0) (o.val 1)) = .glob home off ∧ off + slotBytes (v.slot x.toNat) ≤ 2 ^ 52 ∧
          ∀ b, from_ b = (homePlace s o.vd home (off + b) true false).map s.hbm.read) →
    ∃ s' v', exec (.oloadComplete id) s = .next s' ∧ endedFrom s id o s' ∧ s'.tile? o.tile = some v' ∧
      (v'.slot x.toNat).st = .filled ∧ (v'.slot x.toNat).fmt = (v.slot x.toNat).fmt ∧ (v'.slot x.toNat).role = (v.slot x.toNat).role ∧
      (v'.slot x.toNat).k = (v.slot x.toNat).k ∧
      (∀ b, (v'.slot x.toNat).mem.read b = if b < slotBytes (v.slot x.toNat) then (from_ b).getD 0 else (v.slot x.toNat).mem.read b) ∧
      (∀ j : Nat, j ≠ x.toNat → v'.slot j = v.slot j) ∧ v'.spad = v.spad ∧ v'.acc = v.acc ∧ s'.hbm = s.hbm ∧ s'.ws = s.ws) ∧
  (∀ (s : State) (l g : Nat) (heads : List AtLine) (acc : BitVec 1) (k : OFmt) (sb fd : Reg) (f : AtLine),
    heads.map AtLine.m = s.gangMembers l g → heads ≠ [] → (heads.map AtLine.m).Nodup → heads.all (lineReady s acc k sb fd) = true →
    heads[fd.toNat]? = some f → (f.v.slot sb.toNat).st = .filled → (f.v.slot sb.toNat).role = .b → (f.v.slot sb.toNat).fmt = k →
    ∃ s' n, exec (.gangLineRelease l g) s = .next s' ∧ ∀ h ∈ heads, ∃ v' t' o', s'.tile? h.m = some v' ∧ v'.lineQ = h.v.lineQ.tail ∧
      v'.slots = h.v.slots ∧ v'.spad = h.v.spad ∧ (v'.accu acc.toNat).tag = (if k = .bf then .bf else .int) ∧
      (v'.accu acc.toNat).ent = (h.v.accu acc.toNat).ent ∧ s'.thread? h.o.t = some t' ∧ t'.run = .ready ∧
      t'.pc = h.t.pc + BitVec.ofNat 64 (8 * h.c.pfx.length) + 8 ∧ t'.rst = false ∧ t'.g = h.t.g ∧
      (h.c.wc = true → (t'.tokAt h.c.tok).count + (t'.tokAt h.c.tok).inc =
        (h.t.tokAt h.c.tok).count + (h.t.tokAt h.c.tok).inc - h.c.thr.toNat) ∧
      s'.op? h.id = some o' ∧ o'.phase = .waiting ∧ o'.ins = h.o.ins ∧ o'.stamp = n) ∧
  (∀ (s : State) (id : Nat) (o : Op) (heads : List (Nat × Op)) (k : OFmt) (acc : BitVec 1) (sb fd : Reg) (fm : TileRef) (f : VTile),
    s.op? id = some o → o.cls = .array → (∃ c sa, o.ins = .mmg c k acc sa sb fd) → s.siblings o = heads → noInjection s = true →
    (heads.map fun e => e.2.tile).Nodup → (heads.map Prod.fst).Nodup →
    (∀ e ∈ heads, atHead s e.1 e.2 .array = true ∧ (s.tile? e.2.tile).isSome = true ∧
      ∃ c sa, e.2.ins = .mmg c k acc sa sb fd ∧ cleanSlot ((tileAt s e.2.tile).slot sa.toNat) = true) →
    (s.gangOfTile o.tile)[fd.toNat]? = some fm → s.tile? fm = some f → cleanSlot (f.slot sb.toNat) = true →
    ∃ s', exec (.mmgExecute id) s = .next s' ∧ s'.hbm = s.hbm ∧ s'.ws = s.ws ∧
      ∀ e ∈ heads, ∀ (c : Ctl) (sa : Reg) (v : VTile), e.2.ins = .mmg c k acc sa sb fd → s.tile? e.2.tile = some v →
        ∃ v', endedFrom s e.1 e.2 s' ∧ s'.tile? e.2.tile = some v' ∧
          (∀ i n : Nat, i < 16 → n < 512 → (v'.accu acc.toNat).at_ (i * 512 + n) =
            entryAfter k (v.slot sa.toNat) (f.slot sb.toNat) i n ((v.accu acc.toNat).at_ (i * 512 + n))) ∧
          v'.accu (1 - acc.toNat) = v.accu (1 - acc.toNat) ∧
          v'.slot sa.toNat =
            { v.slot sa.toNat with cursor := ((v.slot sa.toNat).cursor + (if k = .bf then 16 else 32)) % max 1 (v.slot sa.toNat).k } ∧
          (∀ j : Nat, j ≠ sa.toNat → v'.slot j = v.slot j) ∧ v'.spad = v.spad) ∧
  (∀ (s : State) (id : Nat) (o : Op) (v : VTile) (c : Ctl) (acc : BitVec 1) (sa lst n : Reg) (off : Nat), atHead s id o .array = true →
    noInjection s = true → s.tile? o.tile = some v → o.ins = .mol c acc sa lst n → v.lag = [] → (o.val 1).toNat ≤ 16384 →
    placeOf (o.val 0) (8 * (o.val 1).toNat) 8 = some off → sound s v off (8 * (o.val 1).toNat) = true → cleanSlot (v.slot sa.toNat) = true →
    (∀ j, j < (o.val 1).toNat → littleEndian (v.spad.readN (off + 8 * j + 6) 2) < (v.slot sa.toNat).k ∧
      littleEndian (v.spad.readN (off + 8 * j + 4) 2) < 512) →
    ∃ s' v', exec (.molExecute id) s = .next s' ∧ endedFrom s id o s' ∧ s'.tile? o.tile = some v' ∧
      (∀ i n : Nat, i < 16 → n < 512 → (v'.accu acc.toNat).at_ (i * 512 + n) =
        entryAfterList (v.slot sa.toNat) v.spad off (o.val 1).toNat i n ((v.accu acc.toNat).at_ (i * 512 + n))) ∧
      v'.accu (1 - acc.toNat) = v.accu (1 - acc.toNat) ∧ v'.slots = v.slots ∧ v'.spad = v.spad) ∧
  (∀ (s : State) (id : Nat) (o : Op) (v : VTile) (c : Ctl) (acc : BitVec 1) (dst cs rs : Reg) (w : Window) (e d col row : Nat),
    atHead s id o .array = true → noInjection s = true → s.tile? o.tile = some v → o.ins = .mdrn c acc dst cs rs → v.spad.wf = true →
    v.lag = [] → o.parts = [] → o.snap = none → s.isDet o.tile.l = false →
    o.wins[((o.val 0).extractLsb' 21 3).toNat]? = some w → 1 ≤ w.fmt → w.fmt ≤ 9 → fmtSize w.fmt = some e →
    placeOf (o.val 0) (8192 * e) e = some d → placeOf (o.val 1) 1024 2 = some col → placeOf (o.val 2) 32 2 = some row →
    sound s v col 1024 = true → sound s v row 32 = true →
    (∀ b < 8, ({ v.accu acc.toNat with rep := {} } : Acc).check b = ({ v.accu acc.toNat with rep := {} }, true)) →
    ∃ s' v', exec (.mdrnExecute id) s = .next s' ∧ endedFrom s id o s' ∧ s'.tile? o.tile = some v' ∧ v'.slots = v.slots ∧
      (v'.accu acc.toNat).ent = (v.accu acc.toNat).ent ∧ v'.accu (1 - acc.toNat) = v.accu (1 - acc.toNat) ∧
      (∀ i n : Nat, i < 16 → n < 512 → v'.spad.readN (d + (i * 512 + n) * e) e =
        lowBytes (encodeVal { w with smode := 0 } (v32 (drained (v.accu acc.toNat).tagX ((v.accu acc.toNat).at_ (i * 512 + n))
          (scaleAt v.spad (col + 2 * n)) (scaleAt v.spad (row + 2 * i))))).1 e) ∧
      (∀ x, x < d ∨ d + 8192 * e ≤ x → v'.spad.read x = v.spad.read x)) ∧
  (∀ (s : State) (id : Nat) (o : Op) (v : VTile) (c : Ctl) (acc : BitVec 1), atHead s id o .array = true → noInjection s = true →
    s.tile? o.tile = some v →
    (o.ins = .mclr c acc → ∃ s' v', exec (.mclrExecute id) s = .next s' ∧ endedFrom s id o s' ∧ s'.tile? o.tile = some v' ∧
      v'.accu acc.toNat = { tag := (v.accu acc.toNat).tag } ∧ v'.accu (1 - acc.toNat) = v.accu (1 - acc.toNat) ∧ v'.slots = v.slots ∧
      v'.spad = v.spad) ∧
    (∀ rd, o.ins = .mstat c rd acc → (v.accu acc.toNat).rep.ncorr < 16 → (v.accu acc.toNat).rep.row < 16 → (v.accu acc.toNat).rep.col < 512 →
      ∃ s' o', exec (.mstatExecute id) s = .next s' ∧ s'.op? id = some o' ∧ o'.phase = .reply ∧
        o'.res = [(rd, statusOf (v.accu acc.toNat))] ∧
        (s'.tile? o.tile).map (fun v' => (v'.acc, v'.slots, v'.spad)) = some (v.acc, v.slots, v.spad)))

/-- 09 R229 to R234: a group operation that arrives at its home: GNEW takes the lowest free record, GJOIN, GLEAVE, GFREE and
GCNT act on a live one, and a stale handle faults GROUP_INVALID; the release test of GBAR, GJOIN and GLEAVE posts the arrivers of every full phase;
GRED delivers its identity, combines into its phase, or delivers the phase's result to all its arrivers; and the acknowledgement
completes the instruction. -/
def Obligations.GroupEvents : Prop :=
  (∀ (s : State) (id : Nat) (o : Op) (v : VTile), mayLeave s id o .group o.unit = true → arrivesAt s o.tile (groupHome o) v = true →
    (∀ c rd ra, o.ins = .gnew c rd ra →
      (∀ j : Nat, j < 32 → (recordOf v j).used = false → (∀ i : Nat, i < j → (recordOf v i).used = true) →
        ∃ s' o' v', exec (.groupOpAtHome id) s = .next s' ∧ s'.op? id = some o' ∧ o'.phase = .reply ∧
          o'.res = [(rd, ((recordOf v j).gen + 1) ++ BitVec.ofNat 5 j ++ BitVec.ofNat 24 o.unit)] ∧ s'.tile? (groupHome o) = some v' ∧
          recordOf v' j = { used := true, gen := (recordOf v j).gen + 1 } ∧ ∀ i, i ≠ j → recordOf v' i = recordOf v i) ∧
      ((∀ i : Nat, i < 32 → (recordOf v i).used = true) →
        ∃ s', exec (.groupOpAtHome id) s = .next s' ∧ faultedBy id o 0x65 2 s' ∧ s'.vtiles = s.vtiles)) ∧
    (∀ c ra, o.ins = .gjoin c ra ∨ o.ins = .gleave c ra → live v (o.val 0) = true →
      let g := recordOf v (recordNo (o.val 0))
      let n := match o.ins with | .gjoin .. => min (g.count + 1) (2 ^ 32 - 1) | _ => g.count - 1
      plainArrivers s g.bar = true → g.bar.all (fun a => decide (a.op ≠ id)) = true → (o.ins = .gleave c ra → g.count ≠ 0) →
      ∃ s' o' v', exec (.groupOpAtHome id) s = .next s' ∧ s'.op? id = some o' ∧ o'.phase = .reply ∧ o'.res = [] ∧
        s'.tile? (groupHome o) = some v' ∧
        recordOf v' (recordNo (o.val 0)) = { g with count := n, bar := g.bar.drop (releasedOf n g.bar.length) } ∧
        ∀ a ∈ g.bar.take (releasedOf n g.bar.length), released s a.op s') ∧
    (∀ c ra, o.ins = .gfree c ra → live v (o.val 0) = true →
      let g := recordOf v (recordNo (o.val 0))
      (g.count = 0 → g.bar = [] → g.red = none →
        ∃ s' o' v', exec (.groupOpAtHome id) s = .next s' ∧ s'.op? id = some o' ∧ o'.phase = .reply ∧ s'.tile? (groupHome o) = some v' ∧
          (recordOf v' (recordNo (o.val 0))).used = false ∧ (recordOf v' (recordNo (o.val 0))).gen = g.gen) ∧
      (g.count ≠ 0 → ∃ s', exec (.groupOpAtHome id) s = .next s' ∧ faultedBy id o 0x65 1 s' ∧ s'.vtiles = s.vtiles)) ∧
    (∀ c rd ra, o.ins = .gcnt c rd ra → live v (o.val 0) = true →
      ∃ s' o', exec (.groupOpAtHome id) s = .next s' ∧ s'.op? id = some o' ∧ o'.phase = .reply ∧
        o'.res = [(rd, BitVec.ofNat 32 (recordOf v (recordNo (o.val 0))).count)]) ∧
    (usesHandle o.ins = true → live v (o.val 0) = false →
      ∃ s', exec (.groupOpAtHome id) s = .next s' ∧ faultedBy id o 0x65 0 s') ∧
    (∀ c ra k, o.ins = .gbar c ra k → live v (o.val 0) = true →
      let g := recordOf v (recordNo (o.val 0))
      let l := g.bar ++ [{ op := id, t := o.t, tok := k }]
      plainArrivers s g.bar = true → g.bar.all (fun a => decide (a.op ≠ id)) = true → g.count ≠ 0 →
      ∃ s' v', exec (.groupOpAtHome id) s = .next s' ∧ s'.tile? (groupHome o) = some v' ∧
        recordOf v' (recordNo (o.val 0)) = { g with bar := l.drop (releasedOf g.count l.length) } ∧
        (∀ a ∈ l.take (releasedOf g.count l.length), released s a.op s') ∧
        (l.length < g.count → (s'.op? id).map Op.phase = some .performed))) ∧
  (∀ (s : State) (id : Nat) (o : Op) (v : VTile) (c : Ctl) (k : RedOp) (h val cnt res tok : Reg) (off : Nat),
    mayLeave s id o .group o.unit = true → arrivesAt s o.tile (groupHome o) v = true → o.ins = .gred c k h val cnt res tok →
    s.memWf = true → live v (o.val 0) = true → wordsPlace (o.val 3) 1 = some off →
    let g := recordOf v (recordNo (o.val 0))
    let n := (o.val 2).toNat
    (g.count ≠ 0 → n = 0 →
      ∃ s', exec (.groupOpAtHome id) s = .next s' ∧ released s id s' ∧ delivered s id off (neutral k) s') ∧
    (g.count ≠ 0 → n = 1 → g.red = none →
      ∃ s', exec (.groupOpAtHome id) s = .next s' ∧ released s id s' ∧ delivered s id off (o.val 1) s') ∧
    (g.count < n → g.count ≠ 0 →
      ∃ s', exec (.groupOpAtHome id) s = .next s' ∧ faultedBy id o 0x62 (min g.count 255) s' ∧ s'.vtiles = s.vtiles) ∧
    (2 ≤ n → n ≤ g.count → g.red = none →
      ∃ s' v', exec (.groupOpAtHome id) s = .next s' ∧ (s'.op? id).map Op.phase = some .performed ∧ s'.tile? (groupHome o) = some v' ∧
        recordOf v' (recordNo (o.val 0)) =
          { g with red := some { rop := k, n, arr := [{ op := id, t := o.t, tok := 0, raddr := off }], part := o.val 1 } }) ∧
    (∀ p, g.red = some p → 1 ≤ n → n ≤ g.count → p.n ≠ n ∨ p.rop ≠ k →
      ∃ s', exec (.groupOpAtHome id) s = .next s' ∧ faultedBy id o 0x63 (min p.n 255) s' ∧ s'.vtiles = s.vtiles) ∧
    (∀ p, g.red = some p → p.n = n → p.rop = k → n ≤ g.count → p.arr.length + 1 < n →
      ∃ s' v', exec (.groupOpAtHome id) s = .next s' ∧ (s'.op? id).map Op.phase = some .performed ∧ s'.tile? (groupHome o) = some v' ∧
        recordOf v' (recordNo (o.val 0)) = { g with red := some { p with
          arr := p.arr ++ [{ op := id, t := o.t, tok := 0, raddr := off }], part := combinedBy k p.part (o.val 1) } }) ∧
    (∀ p, g.red = some p → p.n = n → p.rop = k → n ≤ g.count → p.arr.length + 1 = n → plainArrivers s p.arr = true →
      p.arr.all (fun a => decide (a.op ≠ id) && decide (a.raddr % 4 = 0)) = true → (p.arr.map Arriver.op).Nodup →
      ∃ s', exec (.groupOpAtHome id) s = .next s' ∧ released s id s' ∧ delivered s id off (combinedBy k p.part (o.val 1)) s' ∧
        (∀ a ∈ p.arr, released s a.op s' ∧ delivered s a.op a.raddr (combinedBy k p.part (o.val 1)) s') ∧
        (s'.tile? (groupHome o)).map (fun v' => (recordOf v' (recordNo (o.val 0))).red) = some none)) ∧
  (∀ (s : State) (id : Nat) (o : Op) (t : Thread), s.op? id = some o → o.cls = .group → o.phase = .reply → o.atStart = false →
    s.thread? o.t = some t → t.run = .ready → steady t = true → (o.res.map Prod.fst).Nodup →
    ∃ s' t', exec (.groupAck id) s = .next s' ∧ endedFrom s id o s' ∧ s'.thread? o.t = some t' ∧ (∀ e ∈ o.res, t'.reg e.1 = e.2) ∧
      ∀ y, y ∉ o.res.map Prod.fst → t'.reg y = t.reg y)

/-- 06 R161 to R167; 16 R329, R330, R332, R334: PUT, GET, XIN and XOUT whose operands and pages are sound move their bytes and end, and a
notifying PUT's message leaves; a message enters its mailbox with its payload, tag and source, goes to a blocked RECV, or parks; a
park queue gives up its head; a sender's interface takes an entry from the table; traffic for a finished tile is counted. What a park queue has
room for is read with log 46. -/
def Obligations.TransferEvents : Prop :=
  (∀ (s : State) (id : Nat) (o : Op) (v u : VTile) (src dst : Nat), s.memWf = true → s.isDet o.tile.l = false → s.reportRoom o.t = true →
    s.tile? o.tile = some v → o.poison = false → o.unit < s.gridSize o.tile.l → mayLeave s id o .transfer o.unit = true →
    arrivesAt s o.tile (groupHome o) u = true → v.lag = [] → u.lag = [] → o.parts = [] → o.got = none → (o.val 3).toNat ≤ 2 ^ 20 → placeOf (o.val 2) (o.val 3).toNat 1 = some src →
    (∀ c k vt d n m, o.ins = .put c k vt d m n → (o.val 0).toNat = o.unit → placeOf (o.val 1) (o.val 3).toNat 1 = some dst →
      sound s v src (o.val 3).toNat = true →
      ∃ s' u', exec (.transferComplete id) s = .next s' ∧ s'.tile? (groupHome o) = some u' ∧ s'.op? id = none ∧
        (∀ x, u'.spad.read x = if dst ≤ x ∧ x < dst + (o.val 3).toNat then v.spad.read (src + (x - dst)) else u.spad.read x) ∧
        (k = .plain → endedFrom s id o s') ∧
        (∀ tag mb, k = .note tag mb → s.ops.all (fun e => decide (e.1 < s.nextId)) = true → ∃ p, s'.op? s.nextId = some p ∧ p.cls = .send ∧ p.phase = .waiting ∧ p.prog = mb.toNat ∧
          p.line = tag.toNat ∧ littleEndian p.data = (o.val 1).toNat + 2 ^ 32 * (o.val 3).toNat ∧ p.sig = o.sig)) ∧
    (∀ c d vt m n, o.ins = .get c d vt m n → (o.val 1).toNat = o.unit → placeOf (o.val 0) (o.val 3).toNat 1 = some dst →
      sound s u src (o.val 3).toNat = true →
      ∃ s' v', exec (.transferComplete id) s = .next s' ∧ s'.tile? o.tile = some v' ∧ endedFrom s id o s' ∧
        ∀ x, v'.spad.read x = if dst ≤ x ∧ x < dst + (o.val 3).toNat then u.spad.read (src + (x - dst)) else v.spad.read x)) ∧
  (∀ (s : State) (id : Nat) (o : Op) (v : VTile) (home off loc sh : Nat), s.memWf = true → homesSound s = true → s.isDet o.tile.l = false →
    s.reportRoom o.t = true → s.tile? o.tile = some v → s.op? id = some o → o.cls = .xfer → o.phase = .waiting → s.clear o = true →
    o.atStart = false → o.fault = none → o.parts = [] → o.got = none → v.lag = [] → s.hist = [] → s.homesFull o = false →
    Addr.of (DWord.mk (o.val 1) (o.val 2)) = .glob home off → placeOf (o.val 3) 24 8 = some sh →
    littleEndian (o.data.take 4) * littleEndian ((o.data.drop 4).take 4) ≤ 2 ^ 20 → shortAddr (o.val 0) = some ((o.val 0).toNat / 2 ^ 21 % 8, loc) →
    let l := movedBytes o off loc
    l.all (fun e => decide (0 ≤ e.1) && decide (e.1 < 2 ^ 52) && decide (e.2 < 2 ^ 20)) = true →
    (∀ c d b m, o.ins = .xin c d b m → l.all (fun e => (homePlace s o.vd home e.1.toNat true false).isSome) = true → (l.map Prod.snd).Nodup →
      ∃ s' v', exec (.transferComplete id) s = .next s' ∧ s'.tile? o.tile = some v' ∧ endedFrom s id o s' ∧ s'.hbm = s.hbm ∧
        (∀ e ∈ l, ∀ f, homePlace s o.vd home e.1.toNat true false = some f → v'.spad.read e.2 = s.hbm.read f) ∧
        ∀ x, x ∉ l.map Prod.snd → v'.spad.read x = v.spad.read x) ∧
    (∀ c d b m, o.ins = .xout c d b m → l.all (fun e => (homePlace s o.vd home e.1.toNat false true).isSome && sound s v e.2 1) = true →
      (l.map fun e => homePlace s o.vd home e.1.toNat false true).Nodup →
      ∃ s' v', exec (.transferComplete id) s = .next s' ∧ s'.tile? o.tile = some v' ∧ v'.spad = v.spad ∧ endedFrom s id o s' ∧
        (∀ e ∈ l, ∀ f, homePlace s o.vd home e.1.toNat false true = some f → s'.hbm.read f = v.spad.read e.2) ∧
        ∀ f, some f ∉ (l.map fun e => homePlace s o.vd home e.1.toNat false true) → s'.hbm.read f = s.hbm.read f)) ∧
  (∀ (s : State) (id : Nat) (o : Op) (v : VTile), mayLeave s id o .send o.unit = true →
    (arrivesAt s o.tile (groupHome o) v = true → (v.box o.prog).length < 64 → o.prog < 4 → s.firstRecv (groupHome o) o.prog = none →
      ∃ s' v', exec (.messageDelivery id) s = .next s' ∧ endedFrom s id o s' ∧ s'.tile? (groupHome o) = some v' ∧
        v'.box o.prog = v.box o.prog ++ [newest v o] ∧ (∀ k, k ≠ o.prog → v'.box k = v.box k) ∧ v'.spad = v.spad) ∧
    (arrivesAt s o.tile (groupHome o) v = true → 64 ≤ (v.box o.prog).length → exec (.messageDelivery id) s = .next s) ∧
    (∀ r t n c pd gi, arrivesAt s o.tile (groupHome o) v = true → v.box o.prog = [] → o.prog < 4 → o.poison = false → s.isDet r.l = false →
      s.firstRecv (groupHome o) o.prog = some (r, t, n, c, pd, gi) → s.thread? r = some t → t.slot ≠ none → t.evictDue = false → t.stopped = false →
       r.tile = groupHome o → r ≠ o.t →
      (s.lanes.get? r).isNone = true → gi ≠ pd → gi ≠ Reg.hi pd → pd ≠ Reg.hi pd → t.landed.toList.all (fun x => decide (x ≤ s.nextId)) = true →
      ∃ s' t' v', exec (.messageDelivery id) s = .next s' ∧ endedFrom s id o s' ∧ s'.thread? r = some t' ∧
        t'.reg pd = BitVec.ofNat 32 (littleEndian o.data) ∧ t'.reg (Reg.hi pd) = BitVec.ofNat 32 (littleEndian o.data / 2 ^ 32) ∧
        t'.reg gi = BitVec.ofNat 8 o.line ++ BitVec.ofNat 24 o.tile.v ∧ t'.run = .ready ∧ s'.tile? (groupHome o) = some v' ∧ v'.box o.prog = []) ∧
    (s.tile? (groupHome o) = some v → v.finished = false → v.place = .absent → s.parkFull (groupHome o) o = false →
      ∃ s' v', exec (.messageDelivery id) s = .next s' ∧ s'.tile? (groupHome o) = some v' ∧ v'.park = v.park ++ [id] ∧
        (s'.op? id).map Op.phase = some .parked ∧ (s'.op? id).map Op.sig = some none ∧ v'.mbox = v.mbox) ∧
    (s.tile? (groupHome o) = some v → v.finished = true →
      ∃ s', exec (.messageDelivery id) s = .next s' ∧ endedFrom s id o s' ∧ (s'.tile? (groupHome o)).map VTile.mbox = some v.mbox ∧
        ∀ ln, s.launch? o.tile.l = some ln → (s'.launch? o.tile.l).map Launch.ndisc = some (min (ln.ndisc + 1) 0xFFFFFFFF))) ∧
  (∀ (s : State) (m : TileRef) (v : VTile) (id : Nat) (o : Op) (rest : List Nat), s.tile? m = some v → v.place = .present → v.finished = false →
    v.park = id :: rest → s.op? id = some o → o.cls = .send → o.prog < 4 → (v.box o.prog).length < 64 → o.atStart = false →
    s.firstRecv m o.prog = none →
    ∃ s' v', exec (.parkQueueDelivery m) s = .next s' ∧ s'.tile? m = some v' ∧ v'.park = rest ∧ s'.op? id = none ∧
      v'.box o.prog = v.box o.prog ++ [newest v o] ∧ v'.spad = v.spad) ∧
  (∀ (s : State) (m : TileRef) (d : Nat) (v u : VTile), s.tile? m = some v → s.tile? ⟨m.l, d⟩ = some u → v.vttCache.get? d = none →
    ∃ s' v', exec (.vttCacheRefill m d) s = .next s' ∧ s'.tile? m = some v' ∧ v'.vttCache.get? d = some (u.place, u.ltile, u.gen) ∧
      v'.spad = v.spad ∧ s'.threads = s.threads)

/-- 06 R144 to R149, R154; 16 R334: an access that has reached another tile reads or writes there through that tile's window, with the
data that it read at issue; one for a finished tile returns zero. -/
def Obligations.RemoteAccesses : Prop :=
  ∀ (s : State) (id : Nat) (o : Op) (d w off : Nat) (v : VTile), mayLeave s id o .remote d = true →
    Addr.of o.ea = .remote d w off → s.isDet o.tile.l = false → o.poison = false → s.memWf = true →
    (∀ (a : Access) (n : Nat), arrivesAt s o.tile ⟨o.tile.l, d⟩ v = true → anyLoad o.ins = some a → a.through (v.window w).fmt = some n →
      o.ea.toNat % n = 0 → sound s v off n = true →
      ∃ s' o', exec (.remoteAccessServe id) s = .next s' ∧ s'.op? id = some o' ∧ o'.phase = .reply ∧
        o'.res = a.loaded (v.window w).fmt (v.spad.readN off n) ∧ (s'.tile? ⟨o.tile.l, d⟩).map VTile.spad = some v.spad) ∧
    (∀ (a : Access) (rl : Bool) (n : Nat), arrivesAt s o.tile ⟨o.tile.l, d⟩ v = true → storeRow o.ins = some (a, rl) →
      a.through (v.window w).fmt = some n → o.ea.toNat % n = 0 → o.data.length = a.n →
      ∃ s' v', exec (.remoteAccessServe id) s = .next s' ∧ endedFrom s id o s' ∧ s'.tile? ⟨o.tile.l, d⟩ = some v' ∧
        (∀ x, v'.spad.read x = if off ≤ x ∧ x < off + n then (storedBytes a.n (v.window w) n o.data).getD (x - off) 0 else v.spad.read x) ∧
        s'.hbm = s.hbm) ∧
    (∀ (a : AtomicRow), arrivesAt s o.tile ⟨o.tile.l, d⟩ v = true → atomicRow o.ins = some a → o.ea.toNat % a.n = 0 → sound s v off a.n = true →
      let old := littleEndian (v.spad.readN off a.n)
      let bs := lowBytes (a.new old (littleEndian (o.data.take a.n)) (littleEndian (o.data.drop a.n))) a.n
      ∃ s' v', exec (.remoteAccessServe id) s = .next s' ∧ s'.tile? ⟨o.tile.l, d⟩ = some v' ∧
        (∀ x, v'.spad.read x = if off ≤ x ∧ x < off + a.n then bs.getD (x - off) 0 else v.spad.read x) ∧ s'.hbm = s.hbm ∧
        (a.ret = false → endedFrom s id o s') ∧
        (a.ret = true → ∃ o', s'.op? id = some o' ∧ o'.phase = .reply ∧ o'.res = a.out old)) ∧
    (∀ (a : Access), s.tile? ⟨o.tile.l, d⟩ = some v → v.finished = true → anyLoad o.ins = some a →
      ∃ s' o', exec (.remoteAccessServe id) s = .next s' ∧ s'.op? id = some o' ∧ o'.phase = .reply ∧ o'.res = a.data.map fun x => (x, 0))

/-- 06 R168 to R170; 16 R329, R334; 05 R137: a thread whose drain has ended leaves for another tile as a message with its image, its entry and slot free,
or goes on where it is already; an image lands at its index and is ready there, and one for a finished tile turns to its home; a
thread away returns to its home virtual tile. Which index a landing thread takes is the model's choice (log 44); what a park
queue has room for is read with log 46. -/
def Obligations.MigrationEvents : Prop :=
  (∀ (s : State) (r : TRef) (t : Thread) (dest : Nat) (go : Bool) (c : Ctl), s.thread? r = some t → t.run = .migrDrain dest go c →
    s.drained r = true → t.pend = 0 → t.inflight = [] → t.reports = [] → (s.lanes.get? r).isNone = true → c.thr.toNat ≤ (t.tokAt c.tok).value →
    r.v < 2 ^ 24 → s.ops.all (fun e => decide (e.1 < s.nextId)) = true → s.threads.all (fun e => decide (e.1.v < 2 ^ 24 + s.nextId)) = true →
    (dest = r.v → go = false → ∃ s' t', exec (.migrationDeparture r) s = .next s' ∧ s'.thread? r = some t' ∧ t'.run = .ready ∧
      t'.pc = t.pc + BitVec.ofNat 64 (8 * c.pfx.length) + 8 ∧ t'.g = t.g ∧ t'.rst = false) ∧
    (dest ≠ r.v ∨ go = true → ∃ s' id o u, exec (.migrationDeparture r) s = .next s' ∧ s'.thread? r = none ∧ s.op? id = none ∧
      s'.op? id = some o ∧ o.cls = .migrate ∧ o.unit = dest ∧ o.phase = .waiting ∧ s'.thread? o.t = some u ∧ u.run = .transit ∧
      u.slot = none ∧ u.g = t.g ∧ u.fpctl = t.fpctl ∧ u.tl = t.tl ∧
      u.pc = (if go then t.pc else t.pc + BitVec.ofNat 64 (8 * c.pfx.length) + 8) ∧ u.away = decide (dest ≠ t.homev.toNat) ∧
      (dest = t.homev.toNat → u.rethdr = 0))) ∧
  (∀ (s : State) (id : Nat) (o : Op) (t : Thread) (v : VTile) (n : Nat), s.op? id = some o → o.cls = .migrate → o.phase = .waiting →
    s.thread? o.t = some t → s.tile? (groupHome o) = some v → s.firstTo id o.tile (groupHome o) Op.destVt = true →
    (arrivesAt s o.tile (groupHome o) v = true → o.t ≠ ⟨o.tile.l, o.unit, n⟩ → o.t.tile ≠ groupHome o →
      s.ops.all (fun e => decide (e.2.t ≠ ⟨o.tile.l, o.unit, n⟩) && (decide (e.2.t ≠ o.t) || decide (e.2.phase ≠ .heldNR))) = true →
      t.evictable = false → s.thread? ⟨o.tile.l, o.unit, n⟩ = none → n < 64 →
      (if t.lead = true ∧ t.homev.toNat = o.unit ∧ s.thread? ⟨o.tile.l, o.unit, 0⟩ = none then n = 0
       else (1 ≤ n ∧ ∀ k : Nat, 1 ≤ k → k < n → s.thread? ⟨o.tile.l, o.unit, k⟩ ≠ none) ∨
         (n = 0 ∧ ∀ k : Nat, 1 ≤ k → k < 64 → s.thread? ⟨o.tile.l, o.unit, k⟩ ≠ none)) →
      ∃ s' u, exec (.migrationLanding id) s = .next s' ∧ s'.op? id = none ∧ s'.thread? o.t = none ∧
        s'.thread? ⟨o.tile.l, o.unit, n⟩ = some u ∧ u.run = .ready ∧ u.g = t.g ∧ u.pc = t.pc ∧ u.fpctl = t.fpctl ∧
        u.away = decide (o.unit ≠ t.homev.toNat)) ∧
    (v.finished = true → ∃ s' o', exec (.migrationLanding id) s = .next s' ∧ s'.op? id = some o' ∧ o'.unit = t.homev.toNat ∧
      s'.threads = s.threads) ∧
    (v.finished = false → v.place = .absent → s.parkFull (groupHome o) o = false → ∃ s' v', exec (.migrationLanding id) s = .next s' ∧ s'.tile? (groupHome o) = some v' ∧
      v'.park = v.park ++ [id] ∧ s'.threads = s.threads)) ∧
  (∀ (s : State) (r : TRef) (t : Thread) (x : Bool), s.thread? r = some t → t.run = .homeDrain x → s.drained r = true → t.pend = 0 →
    t.inflight = [] → t.reports = [] → r.v < 2 ^ 24 → s.ops.all (fun e => decide (e.1 < s.nextId)) = true →
    s.threads.all (fun e => decide (e.1.v < 2 ^ 24 + s.nextId)) = true →
    ∃ s' id o u, exec (.returnHome r) s = .next s' ∧ s'.thread? r = none ∧ s.op? id = none ∧ s'.op? id = some o ∧ o.cls = .migrate ∧
      o.unit = t.homev.toNat ∧ s'.thread? o.t = some u ∧ u.run = .transit ∧ u.g = t.g ∧ u.pc = t.pc ∧ u.away = false ∧ u.rethdr = 0)

/-- 06 R145, R148, R152 to R155; 18 R374 to R377; 21 R409: an access at its home. A translation that the TLB holds performs it: a load is
answered with the frame's bytes, a store writes its bytes, an atomic its new value, and a refill brings the line. A miss starts a
walk, whose end fills the TLB and performs, refuses or holds the access. A reduce operation is performed at the target. The banks of the TLB are the model's (log 5). -/
def Obligations.HomeEvents : Prop :=
  (∀ (s : State) (id : Nat) (o : Op) (home off f : Nat) (a : Access), Addr.of o.ea = .glob home off → translated s o home off = true →
    homePlace s o.vd home off true false = some f → anyLoad o.ins = some a → o.size = a.n → o.ea.toNat % a.n = 0 → noStores s o = true →
    s.hist = [] →
    (stands s id o .globalLoad .waiting = true → o.line = 0 → ∃ s', exec (.homeAccess id) s = .next s' ∧
      answered id (a.loaded 0 (bytesFrom s.hbm f a.n)) s' ∧ s'.hbm = s.hbm) ∧
    (stands s id o .globalLoad .waiting = true → o.line = 1 → s.cached o.t o.ea.toNat = none → (s.tile? o.tile).isSome = true →
      ∃ s' v' l, exec (.readCacheRefill id) s = .next s' ∧ answered id (a.loaded 0 (bytesFrom s.hbm f a.n)) s' ∧ s'.hbm = s.hbm ∧
        s'.tile? o.tile = some v' ∧ l ∈ v'.rcache ∧ l.vdAddr = o.ea.toNat / 64 * 64 ∧
        ((List.range 64).all (fun i => (homePlace s o.vd home (off / 64 * 64 + i) true false).isSome) = true →
          ∀ i : Nat, i < 64 → ∀ g, homePlace s o.vd home (off / 64 * 64 + i) true false = some g → l.bytes.getD i 0 = s.hbm.read g))) ∧
  (∀ (s : State) (id : Nat) (o : Op) (home off f : Nat) (a : Access) (rl : Bool), stands s id o .globalStore .sent = true →
    o.prog ≠ 2 →
    Addr.of o.ea = .glob home off → translated s o home off = true → homePlace s o.vd home off false true = some f →
    storeRow o.ins = some (a, rl) → o.size = a.n → o.data.length = a.n →
    ∃ s', exec (.homeAccess id) s = .next s' ∧ endedFrom s id o s' ∧ holdsAt s.hbm s'.hbm f o.data ∧
      ∀ q, (s'.tile? q).map VTile.spad = (s.tile? q).map VTile.spad) ∧
  (∀ (s : State) (id : Nat) (o : Op), s.op? id = some o → o.cls = .globalStore → o.phase = .waiting → s.clear o = true →
    exec (.writeBufferRelease id) s = .next (s.updOp id fun o => { o with phase := .sent })) ∧
  (∀ (s : State) (id : Nat) (o : Op) (home off f : Nat) (a : AtomicRow), stands s id o .globalAtomic .waiting = true →
    Addr.of o.ea = .glob home off → translated s o home off = true → homePlace s o.vd home off true true = some f →
    atomicRow o.ins = some a → o.size = a.n → noMerge s id = true →
    let old := littleEndian (bytesFrom s.hbm f a.n)
    let bs := lowBytes (a.new old (littleEndian (o.data.take a.n)) (littleEndian (o.data.drop a.n))) a.n
    ∃ s', exec (.homeAccess id) s = .next s' ∧ holdsAt s.hbm s'.hbm f bs ∧ (a.ret = false → endedFrom s id o s') ∧
      (a.ret = true → answered id (a.out old) s')) ∧
  (∀ (s : State) (id : Nat) (o : Op) (home off : Nat) (a : Access), stands s id o .globalLoad .waiting = true → o.line = 0 →
    Addr.of o.ea = .glob home off → translated s o home off = false → anyLoad o.ins = some a → s.walksOf home < 256 →
    s.walks.all (fun e => decide (e.1 < s.nextId)) = true →
    s.walks.all (fun e => !(decide (e.2.vd = o.vd) && decide (e.2.home = home) && decide (e.2.page = s.pageBase o.vd home off))) = true →
    ∃ s', exec (.homeAccess id) s = .next s' ∧ (s'.op? id).map Op.phase = some (.walking s.nextId) ∧
      s'.walks.get? s.nextId = some { vd := o.vd, home, page := s.pageBase o.vd home off, ops := [id] } ∧ s'.hbm = s.hbm) ∧
  (∀ (s : State) (w id : Nat) (o : Op) (home off : Nat) (a : Access), stands s id o .globalLoad (.walking w) = true →
    Addr.of o.ea = .glob home off → anyLoad o.ins = some a → o.size = a.n → o.ea.toNat % a.n = 0 → noStores s o = true → o.line = 0 → s.hist = [] →
    s.walks.get? w = some { vd := o.vd, home, page := s.pageBase o.vd home off, ops := [id] } →
    (∀ f, homePlace s o.vd home off true false = some f → s.page? o.vd home (s.pageBase o.vd home off) ≠ none →
      ∃ s', exec (.tlbWalkComplete w) s = .next s' ∧ translated s' o home off = true ∧
        answered id (a.loaded 0 (bytesFrom s.hbm f a.n)) s') ∧
    (s.page? o.vd home off = none → ∃ s', exec (.tlbWalkComplete w) s = .next s' ∧ refusedBy id o 0x41 s' ∧ s'.hbm = s.hbm) ∧
    (∀ p, s.page? o.vd home off = some p → p.rd = false →
      ∃ s', exec (.tlbWalkComplete w) s = .next s' ∧ refusedBy id o 0x42 s' ∧ s'.hbm = s.hbm) ∧
    (∀ p, s.page? o.vd home off = some p → p.rd = true → p.remote = none → p.resident = false → (s.launch? o.tile.l).all (fun ln => !ln.dying) = true →
      ∃ s', exec (.tlbWalkComplete w) s = .next s' ∧ (s'.op? id).map Op.phase = some .heldNR ∧ s'.hbm = s.hbm)) ∧
  (∀ (s : State) (id : Nat) (o : Op) (a : AtomicRow), s.op? id = some o → o.phase = .sent → o.prog = 2 → s.isReduce o = true →
    atomicRow o.ins = some a → o.atStart = false →
    (s.loopback o true true = none → ∃ s', exec (.reduceOpPerform id) s = .next s' ∧ s'.hbm = s.hbm ∧
      (s'.op? id = none ∨ (s'.op? id).map Op.phase = some .faulted)) ∧
    (∀ x, s.loopback o true true = some (.nomap, x) → ∃ s', exec (.reduceOpPerform id) s = .next s' ∧ refusedBy id o 0x41 s' ∧ s'.hbm = s.hbm) ∧
    (∀ q x, s.loopback o true true = some (.ok q, x) → homesSound s = true → s.hbm.wf = true → q.base ≤ x → o.poison = false → o.size = a.n → noMerge s id = true →
      let f := hbmKey q.home (q.frame + (x - q.base))
      ∃ s', exec (.reduceOpPerform id) s = .next s' ∧ endedFrom s id o s' ∧ holdsAt s.hbm s'.hbm f
        (lowBytes (a.new (littleEndian (bytesFrom s.hbm f a.n)) (littleEndian (o.data.take a.n)) (littleEndian (o.data.drop a.n))) a.n)))

/-- 06 R149; 12 R300; 18 R377, R379; 09 R239, R241: an access held for a page evicts its thread; the page's saved bytes come into its
frame and the access that it held is performed; a move copies one sector at a time and switches after the last; a copy moves a unit of its
bytes, and, when none is left, is done. When PEND lets the thread leave is read with log 30. -/
def Obligations.PageEvents : Prop :=
  (∀ (s : State) (id : Nat) (o : Op) (t : Thread), s.op? id = some o → o.phase = .heldNR → o.prog = 0 → (accOf o.ins).isSome = true →
    s.thread? o.t = some t → t.run = .ready → t.inflight = [] → t.slot ≠ none → t.trip = [] →
    (s.updOp id fun o => { o with prog := 1 }).pendClear o.t = true →
    ∃ s' t', exec (.notResidentReport id) s = .next s' ∧ s'.thread? o.t = some t' ∧ t'.run = .evicted ∧ t'.slot = none ∧ t'.pc = t.pc ∧
      t'.g = (s.savedThread o.t t).g ∧ (s'.op? id).map Op.prog = some 1 ∧ s'.hbm = s.hbm) ∧
  (∀ (s : State) (p : Page), p ∈ s.pages → p.resident = false → s.hbm.wf = true → p.saved.wf = true →
    (∀ q ∈ s.pages, q.vd = p.vd → q.home = p.home → q.base = p.base → q = p) → s.frameFor p = some p.frame →
    let at_ (i : Nat) : Nat := hbmKey p.home (p.frame + i)
    (s.ops.all (fun e => decide (e.2.phase ≠ .heldNR)) = true → (∀ x, p.size ≤ x → p.saved.read x = 0) →
      ∃ s' q, exec (.pageResident p.vd p.home p.base) s = .next s' ∧ q ∈ s'.pages ∧ q.vd = p.vd ∧ q.home = p.home ∧ q.base = p.base ∧
        q.frame = p.frame ∧ q.resident = true ∧
        ∀ x, s'.hbm.read x = if at_ 0 ≤ x ∧ x < at_ 0 + p.size then p.saved.read (x - at_ 0) else s.hbm.read x) ∧
    (∀ id o a off, stands s id o .globalLoad .heldNR = true → (s.launch? o.tile.l).all (fun ln => !ln.dying) = true → o.vd = p.vd → Addr.of o.ea = .glob p.home off → s.page? p.vd p.home off = some p →
      p.remote = none → p.rd = true → p.base % 65536 = 0 → (∀ x, p.size ≤ x → p.saved.read x = 0) →
      off + 64 ≤ p.base + p.size → s.ops.all (fun e => decide (e.2.phase ≠ .heldNR) || decide (e.1 = id)) = true →
      anyLoad o.ins = some a → o.size = a.n → o.ea.toNat % a.n = 0 → noStores s o = true → o.line = 0 → s.hist = [] →
      ∃ s', exec (.pageResident p.vd p.home p.base) s = .next s' ∧ answered id (a.loaded 0 (bytesFrom p.saved (off - p.base) a.n)) s')) ∧
  (∀ (s : State) (p : Page) (m : Move), p ∈ s.pages → s.moves = [m] → m.home = p.home → m.frame = p.frame → p.remote = none → s.hbm.wf = true →
    s.hbmFlips = [] → s.hbmPoison = [] → (∀ q ∈ s.pages, q.vd = p.vd → q.home = p.home → q.base = p.base → q = p) →
    (p.frame + 65536 ≤ m.newFrame ∨ m.newFrame + 65536 ≤ p.frame) →
    ∃ s' q, exec (.pageMoveSector p.vd p.home p.base) s = .next s' ∧ q ∈ s'.pages ∧ q.vd = p.vd ∧ q.home = p.home ∧ q.base = p.base ∧
      holdsAt s.hbm s'.hbm (hbmKey p.home (m.newFrame + 256 * m.cursor)) (bytesFrom s.hbm (hbmKey p.home (p.frame + 256 * m.cursor)) 256) ∧
      (m.cursor < 255 → s'.moves = [{ m with cursor := m.cursor + 1 }] ∧ q.frame = p.frame) ∧
      (m.cursor = 255 → s'.moves = [] ∧ q.frame = m.newFrame)) ∧
  (∀ (s : State) (id : Nat) (o : Op) (v : VTile) (c : Ctl) (r : Bool) (ra : Reg) (off : Nat), stands s id o .copy .waiting = true →
    s.reportRoom o.t = true → s.tile? o.tile = some v → v.spad.wf = true → o.ins = .copy c r ra → handleOf (o.val 0) = some off → o.stamp = 0 →
    copyInvalid o.copySrc o.copyDst o.copyLen ((o.val 0).setWidth 64) = none →
    (∀ l, copyPlaces s o = some l → 0 < o.copyLen → o.copyLen ≤ 65536 → o.parts = [] → o.got = none → o.line = 1 → s.hist = [] → (l.map Prod.snd).Nodup →
      (∀ e ∈ l, e.1 ∉ l.map Prod.snd) →
      ∃ s' o', exec (.copyUnitComplete id) s = .next s' ∧ s'.op? id = some o' ∧ o'.unitsLeft = [] ∧
        (∀ e ∈ l, s'.hbm.read e.2 = s.hbm.read e.1) ∧ (∀ x, x ∉ l.map Prod.snd → s'.hbm.read x = s.hbm.read x) ∧
        (s'.tile? o.tile).map (fun v' => littleEndian (v'.spad.readN (off + 0x18) 8)) = some o.copyLen) ∧
    (o.unitsLeft = [] → o.line = 1 → o.fault = none →
      ∃ s' v', exec (.copyUnitComplete id) s = .next s' ∧ endedFrom s id o s' ∧ s'.tile? o.tile = some v' ∧ v'.copies.get? off = none ∧
        littleEndian (v'.spad.readN (off + 0x20) 4) = 2 ∧ littleEndian (v'.spad.readN (off + 0x18) 8) = o.copyLen ∧ s'.hbm = s.hbm))

/-- 16 R318 to R323; 21 R394 to R398: the device takes a queue's next block: one without a good record address is counted, one out of its
ranges is rejected, another is accepted with its fields; a copy list's entry is read, checked and begun, then carried through, and the initial image is copied; the launch ends
with its record, STATUS last. The address of the device's copy of the block is free (log 12). -/
def Obligations.LaunchEvents : Prop :=
  (∀ (s : State) (vd q : Nat) (d : List Byte), q < 3 → (s.vds.get? vd).isSome = true → (queueOf s vd q).qbase ≠ 0 →
    (queueOf s vd q).qhead ≠ (queueOf s vd q).tail → inPage s vd (entryAt (queueOf s vd q)) 256 true false = true → s.moves = [] →
    globalBytes s vd (entryAt (queueOf s vd q)) 256 = some d →
    (s.crecOk vd (BitVec.ofNat 64 (blockField d 0x38 8)) = false → ∃ s', exec (.launchAccept vd q) s = .next s' ∧
      advanced (queueOf s vd q) (queueOf s' vd q) true ∧ s'.launches = s.launches ∧ s'.hbm = s.hbm) ∧
    (s.crecOk vd (BitVec.ofNat 64 (blockField d 0x38 8)) = true → s.blockRejected vd d (blockOf d) = true →
      s.launches.all (fun e => decide (e.1 < s.nextLaunch)) = true →
      ∃ s' ln, exec (.launchAccept vd q) s = .next s' ∧ advanced (queueOf s vd q) (queueOf s' vd q) false ∧
        s'.launch? s.nextLaunch = some ln ∧ ln.phase = .ended ∧ ln.status = 0xC2 ∧ ln.gangs = []) ∧
    (s.crecOk vd (BitVec.ofNat 64 (blockField d 0x38 8)) = true → s.blockRejected vd d (blockOf d) = false →
      (s.acceptOk vd q d (blockOf d)).isSome = true → s.launches.all (fun e => decide (e.1 < s.nextLaunch)) = true →
      ∃ s' ln, exec (.launchAccept vd q) s = .next s' ∧ advanced (queueOf s vd q) (queueOf s' vd q) false ∧
        s'.launch? s.nextLaunch = some ln ∧ ln.vd = vd ∧ ln.queue = q ∧ ln.tacc = s.cycle ∧ ln.phase = .copyList 0 ∧
        ln.blk.entry.toNat = blockField d 0x00 8 ∧ ln.blk.lid.toNat = blockField d 0x08 4 ∧ ln.blk.w = blockField d 0x10 2 ∧
        ln.blk.h = blockField d 0x12 2 ∧ ln.blk.chunk = blockField d 0x14 2 ∧ ln.blk.gsize = blockField d 0x0C 4 % 16 + 1 ∧
        (ln.blk.det = true ↔ (blockField d 0x0C 4).testBit 13 = true) ∧ ln.blk.tvec.toNat = blockField d 0x28 8 ∧
        ln.blk.image.toNat = blockField d 0x60 8 ∧ ln.blk.ncopy = blockField d 0x78 4 ∧
        ∀ v, v < ln.blk.w * ln.blk.h → (s'.tile? ⟨s.nextLaunch, v⟩).isSome = true)) ∧
  (∀ (s : State) (l i : Nat) (ln : Launch), s.launch? l = some ln → homesSound s = true → s.hbm.wf = true →
    (ln.phase = .copyList i → ln.blk.ncopy ≤ i → s.entryOf l = none → ∃ s' ln', exec (.copyListEntry l) s = .next s' ∧
      s'.launch? l = some ln' ∧ ln'.phase = (if ln.blk.w * ln.blk.h = 0 then .placing else .imageCopy) ∧ s'.hbm = s.hbm ∧
      (ln.blk.w * ln.blk.h ≠ 0 → ∃ id o, s'.entryOf l = some (id, o) ∧ startedAs o (imageOp l ln.vd ln.blk))) ∧
    (∀ id o bs, ln.phase = .imageCopy → s.entryOf l = some (id, o) → startedAs o (imageOp l ln.vd ln.blk) → ln.image = [] → s.hist = [] →
      inPage s ln.vd ln.blk.image ln.blk.imglen true false = true → ln.blk.imglen % 8 = 0 → ln.blk.imglen ≤ 2 ^ 20 →
      globalBytes s ln.vd ln.blk.image ln.blk.imglen = some bs → ln.blk.image.toNat % 8 = 0 →
      ∃ s' ln', exec (.copyListEntry l) s = .next s' ∧ s'.launch? l = some ln' ∧ ln'.phase = .placing ∧
        (∀ x, ln'.image.read x = bs.getD x 0) ∧ s'.op? id = none ∧ s'.hbm = s.hbm) ∧
    (∀ d, ln.phase = .copyList i → i < ln.blk.ncopy → s.entryOf l = none →
      inPage s ln.vd (ln.blk.copyl + BitVec.ofNat 64 (32 * i)) 32 true false = true →
      globalBytes s ln.vd (ln.blk.copyl + BitVec.ofNat 64 (32 * i)) 32 = some d →
      let o := entryOp l ln.vd d
      (s.entryInvalid ln o.copySrc o.copyDst o.copyLen = none → ∃ s' id o', exec (.copyListEntry l) s = .next s' ∧
        s'.entryOf l = some (id, o') ∧ startedAs o' o ∧ s'.launch? l = some ln ∧ s'.hbm = s.hbm) ∧
      (∀ c, s.entryInvalid ln o.copySrc o.copyDst o.copyLen = some c →
        ∃ s' ln', exec (.copyListEntry l) s = .next s' ∧ s'.launch? l = some ln' ∧ ln'.status = c ∧ ln'.gangs = [] ∧ s'.hbm = s.hbm)) ∧
    (∀ id o d ps, ln.phase = .copyList i → s.entryOf l = some (id, o) → startedAs o (entryOp l ln.vd d) → s.hist = [] →
      s.entryInvalid ln o.copySrc o.copyDst o.copyLen = none → copyPlaces s o = some ps → (ps.map Prod.snd).Nodup →
      (∀ e ∈ ps, e.1 ∉ ps.map Prod.snd) →
      ∃ s' ln', exec (.copyListEntry l) s = .next s' ∧ s'.launch? l = some ln' ∧ ln'.phase = .copyList (i + 1) ∧ ln'.status = ln.status ∧
        s'.op? id = none ∧ (∀ e ∈ ps, s'.hbm.read e.2 = s.hbm.read e.1) ∧ ∀ x, x ∉ ps.map Prod.snd → s'.hbm.read x = s.hbm.read x)) ∧
  (∀ (s : State) (l home off f : Nat) (ln : Launch), s.launch? l = some ln → ln.phase = .placing → ln.allFinished = true → s.hbm.wf = true →
    homesSound s = true → s.ops.all (fun e => decide (e.2.tile.l ≠ l)) = true → ln.esc = none → ln.lpbPage = false →
    Addr.of ln.blk.crec = .glob home off → inPage s ln.vd ln.blk.crec 64 false false = true → ln.blk.crec.toNat % 64 = 0 →
    homePlace s ln.vd home off false false = some f →
    ∃ s' ln', exec (.launchComplete l) s = .next s' ∧ s'.launch? l = some ln' ∧ ln'.phase = .ended ∧ ln'.status = ln.status ∧
      (s'.threads.all fun e => decide (e.1.l ≠ l)) = true ∧ (s'.vtiles.all fun e => decide (e.1.l ≠ l)) = true ∧
      littleEndian (bytesFrom s'.hbm f 4) = ln.blk.lid.toNat ∧
      littleEndian (bytesFrom s'.hbm (f + 4) 4) = ln.status % 256 + (if ln.qovl then 256 else 0) + 2 ^ 31 ∧
      littleEndian (bytesFrom s'.hbm (f + 8) 8) = ln.tacc % 2 ^ 64 ∧ littleEndian (bytesFrom s'.hbm (f + 16) 8) = s.cycle % 2 ^ 64 ∧
      ∀ x, x < f ∨ f + 64 ≤ x → s'.hbm.read x = s.hbm.read x)

/-- 16 R326, R328, R329, R336 to R340; 17 R346, R349, R352; 18 R366 to R368: a chosen gang is placed with its image and its lead threads at
the kernel's entry, or comes back as it was saved; a gang chosen to leave moves out once it has drained; a quantum's end pre-empts; a
field without work takes the tail half of the longest run; and a lane's turn commits its chunk. What a commit compares is read with log
14 and log 20, when a swap may begin with log 30 and log 46. -/
def Obligations.GangEvents : Prop :=
  (∀ (s : State) (l g f : Nat) (ln : Launch) (ts : List Nat), placedOn s l g f ln ts = true →
    ((ln.gang g).st = .unstarted → ∃ s' ln', exec (.gangPlacement l g f) s = .next s' ∧ s'.launch? l = some ln' ∧
      (ln'.gang g).st = .resident ∧ (ln'.gang g).field = f ∧ (ln'.gang g).since = s.cycle ∧
      (∀ e ∈ (s.gangMembers l g).zip ts, ∃ v t, s'.tile? e.1 = some v ∧ v.place = .present ∧ v.ltile = s.logicalOf e.2 ∧
        v.spad = ln.image ∧ s'.thread? ⟨l, e.1.v, 0⟩ = some t ∧ t.pc = ln.blk.entry ∧ (∀ x, t.reg x = 0) ∧ t.lead = true ∧ t.tl = 0 ∧
        t.homev.toNat = e.1.v % 2 ^ 24 ∧ t.tsave = ln.blk.tsave ∧ t.tok = Vector.replicate 16 {}) ∧
      (∀ v, v ∉ (s.gangMembers l g) → s'.tile? v = s.tile? v) ∧ s'.hbm = s.hbm) ∧
    ((ln.gang g).st = .swapped → ∃ s' ln', exec (.gangRestore l g f) s = .next s' ∧ s'.launch? l = some ln' ∧
      (ln'.gang g).st = .resident ∧ (ln'.gang g).field = f ∧
      (∀ e ∈ (s.gangMembers l g).zip ts, ∃ v, s'.tile? e.1 = some v ∧ v.place = .present ∧ v.ltile = s.logicalOf e.2 ∧
        some v.spad = (s.tile? e.1).map VTile.spad ∧ some v.acc = (s.tile? e.1).map VTile.acc ∧ v.rcache = []) ∧
      (∀ r t, s.thread? r = some t → t.evictable = false → ∃ t', s'.thread? r = some t' ∧ t'.g = t.g ∧ t'.pc = t.pc ∧ t'.fpctl = t.fpctl) ∧
      s'.hbm = s.hbm)) ∧
  (∀ (s : State) (l g : Nat) (ln : Launch), s.launch? l = some ln → (ln.gangs.get? g).isSome = true →
    (s.gangMembers l g).all (fun m => (s.tile? m).isSome) = true →
    ((ln.gang g).st = .resident → s.swapChosen l g ln = true → s.vatFree l g = true → (s.lanes.all fun e => decide (e.1.l ≠ l)) = true →
      ∃ s' ln', exec (.gangSwapOut l g) s = .next s' ∧ s'.launch? l = some ln' ∧ (ln'.gang g).st = .swapping ∧
        ln'.swaps = min (ln.swaps + 1) 0xFFFFFFFF ∧
        ∀ m ∈ s.gangMembers l g, ∃ v v', s.tile? m = some v ∧ s'.tile? m = some v' ∧ v'.place = .moving ∧ v'.gen = v.gen + 1 ∧ v'.spad = v.spad) ∧
    ((ln.gang g).st = .swapping → s.swapDrained l g = true → ∃ s' ln', exec (.gangSwapOut l g) s = .next s' ∧ s'.launch? l = some ln' ∧
      (ln'.gang g).st = .swapped ∧
      ∀ m ∈ s.gangMembers l g, ∃ v v', s.tile? m = some v ∧ s'.tile? m = some v' ∧ v'.place = .absent ∧ v'.spad = v.spad ∧ v'.acc = v.acc ∧
        v'.rcache = []) ∧
    ((ln.gang g).st = .resident → (ln.gang g).since + 2 ^ 20 ≤ s.cycle → (s.vdRec ln.vd).capped = true →
      ∃ s' ln', exec (.quantumExpiry l g) s = .next s' ∧ s'.launch? l = some ln' ∧ (ln'.gang g).preempt = true)) ∧
  (∀ (s : State) (l src dst : Nat) (ln : Launch) (run : List Nat), s.launch? l = some ln → ln.phase = .placing → ln.runs.get? src = some run →
    ln.runs.get? dst = some [] → src ≠ dst → ln.donor = some src → (s.poolRec (s.vdRec ln.vd).pool).hasField dst = true →
    (s.freeRun (s.poolRec (s.vdRec ln.vd).pool) dst (ln.blk.gangSize ((run.drop (run.length / 2)).headD 0))).isSome = true →
    ∃ s' ln', exec (.workDonation l src dst) s = .next s' ∧ s'.launch? l = some ln' ∧
      ln'.runs.get? src = some (run.take (run.length / 2)) ∧ ln'.runs.get? dst = some (run.drop (run.length / 2)) ∧ s'.vtiles = s.vtiles) ∧
  (∀ (s : State) (l c n : Nat) (ln : Launch) (r : TRef) (t : Thread) (la : Lane) (k : Chunk), turnOf s l ln r t la k c n = true →
    (la.reruns = true ∨ s.conflict r ln k = none → k.buffered = [] → t.run = .ready →
      ∃ s' ln' la', exec (.commitTurn l) s = .next s' ∧ s'.launch? l = some ln' ∧ ln'.turnC = c ∧ ln'.turnL = n + 1 ∧
        s'.lanes.get? r = some la' ∧ la'.number = k.number + 1 ∧ la'.committed = la.committed + k.retired ∧
        la'.chunks.map (fun x => (x.number, x.cut, x.retired)) = (la.chunks.drop 1).map fun x => (x.number, x.cut, x.retired)) ∧
    (la.reruns = false → ∀ w, s.conflict r ln k = some w → ∃ s' la', exec (.commitTurn l) s = .next s' ∧ s'.lanes.get? r = some la' ∧
      la'.chunks = [] ∧ la'.number = la.number ∧ la'.committed = la.committed))

/-- 18 R363 to R368, R374, R377, R378: a period's begin, the end of boosts, a VD's cap; the scheduler's choice, owed VDs first in their ring
and then the others by class, use and number; the gang that a VD in need pre-empts; and the physical function's pages. That a swapped
gang on the summon list counts as runnable is the model's reading (log 26). -/
def Obligations.TenancyEvents : Prop :=
  (∀ s : State, ∃ s', exec .allowancePeriodBegin s = .next s' ∧ (s.cycle + 2 ^ 24, Instr.allowancePeriodBegin) ∈ s'.agenda ∧
    s'.launches = s.launches ∧ s'.hbm = s.hbm ∧
    ∀ v d, s.vds.get? v = some d → s'.vds.get? v = some { d with
      used := 0, capped := false, effWeight := d.weight, effCap := d.cap, owed := s.vdRunnable v && d.en && decide (0 < d.weight) }) ∧
  (∀ (s : State) (pool : Nat), ∃ s', exec (.boostExpiry pool) s = .next s' ∧ s'.launches = s.launches ∧ ∀ v d, s.vds.get? v = some d →
    (d.pool = pool ∧ (∃ c, d.boostUntil = some c ∧ c ≤ s.cycle) → s'.vds.get? v = some { d with boostUntil := none }) ∧
    (¬(d.pool = pool ∧ ∃ c, d.boostUntil = some c ∧ c ≤ s.cycle) → s'.vds.get? v = some d)) ∧
  (∀ (s : State) (vd : Nat) (d : Vd), s.vds.get? vd = some d →
    d.effCap * s.liveOf (s.poolRec d.pool) * 2 ^ 24 / 100 ≤ s.usedNow vd →
    exec (.vdCapped vd) s = .next (s.updVd vd fun _ => { d with capped := true })) ∧
  (∀ (s : State) (pool : Nat), distinct s = true → s.choiceStands pool = false → (s.pools.get? pool).isSome = true →
    ∃ s', exec (.dispatch pool) s = .next s' ∧ s'.launches = s.launches ∧ s'.vds = s.vds ∧
      ((s'.poolRec pool).choice = none ↔ ∀ v, candidate s pool v = false) ∧
      ∀ l g f, (s'.poolRec pool).choice = some (l, g, f) → ∃ ln ts, s.launch? l = some ln ∧ candidate s pool ln.vd = true ∧
        s.placeable l ln f = some (g, ts) ∧ ∀ w, candidate s pool w = true →
          if (s.vdRec ln.vd).owed = true then ((s.vdRec w).owed = true → ringPlace s pool ln.vd ≤ ringPlace s pool w)
          else (s.vdRec w).owed = false ∧ s.vdBefore w ln.vd = false) ∧
  (∀ (s : State) (l g : Nat) (ln : Launch) (x : Gang), distinct s = true → s.launch? l = some ln → ln.gangs.get? g = some x →
    s.preemptTarget l = some g → x.st = .resident ∧ (s.gangBlocked l g = true ∨ x.since + 2 ^ 20 ≤ s.cycle) ∧
    ∃ s' ln', exec (.preemption l) s = .next s' ∧ s'.launch? l = some ln' ∧ ln'.gangs.get? g = some { x with preempt := true } ∧
      s'.threads = s.threads ∧ s'.vtiles = s.vtiles) ∧
  (∀ (s : State) (vd home base size frame : Nat) (rd wr res : Bool), s.input = .page (.map vd home base size frame rd wr res) → vd < 512 →
    home < 64 → pageSizeOk base size = true → s.unmapped vd home base size = true → frame % 65536 = 0 → s.frameFree home frame size = true →
    rd = true ∨ wr = true → ∃ s', exec .physicalFunctionPageRequest s = .next s' ∧
      s'.pages = s.pages ++ [{ vd, home, base, size, frame, rd, wr, resident := res }] ∧ s'.hbm = s.hbm) ∧
  (∀ (s : State) (vd home base : Nat) (rd wr : Bool) (q : PageReq), s.input = .page q →
    q = .unmap vd home base ∨ q = .rights vd home base rd wr ∨ q = .evict vd home base →
    (s.pageBusy vd home base = true → ∃ s', exec .physicalFunctionPageRequest s = .next s' ∧ s'.pages = s.pages ∧ s'.tlb = s.tlb ∧
      (s.cycle + 1, Instr.physicalFunctionPageRequest, s.input) ∈ s'.inputs) ∧
    (s.pageBusy vd home base = false → ∀ p ∈ s.pages, p.vd = vd → p.home = home → p.base = base →
      (∀ x ∈ s.pages, x.vd = vd → x.home = home → x.base = base → x = p) →
      ∃ s', exec .physicalFunctionPageRequest s = .next s' ∧
        (∀ x ∈ s.pages, x ≠ p → (q = .evict vd home base → x.shares p = false) → x ∈ s'.pages) ∧
        (q = .unmap vd home base → (∀ x ∈ s'.pages, x ≠ p) ∧ (vd, home, base) ∉ s'.tlb) ∧
        (q = .rights vd home base rd wr → { p with rd, wr } ∈ s'.pages ∧ (vd, home, base) ∉ s'.tlb) ∧
        (q = .evict vd home base → p.resident = true → p.remote = none → s.moveOf? p = none → s.hbm.wf = true →
          ∃ x ∈ s'.pages, x.vd = vd ∧ x.home = home ∧ x.base = base ∧ x.resident = false ∧
            ∀ k, k < p.size → x.saved.read k = s.hbm.read (hbmKey home p.frame + k))))

/-- 23 R431, R432, R439, R442 to R444; 02 R46: the governor moves a field's budget by its hottest sensor; a droop is counted and holds
the field for 8 cycles; sensors and oscillators read what the module measured; and a reset or a loss of power leaves no work, and the
records of a valid copy of the mordant tables. What the checks of a boot find is read with log 35. -/
def Obligations.ModuleEvents : Prop :=
  (∀ s : State, ∃ s', exec .governorTick s = .next s' ∧ (s.cycle + 2 ^ 20, Instr.governorTick) ∈ s'.agenda ∧ s'.launches = s.launches ∧
    ∀ i : Fin 64, (∀ h, isHottest s.fields[i] h → s'.fields[i] = { s.fields[i] with
      curbud := if 95 < h then max 160 (s.fields[i].curbud - 32)
        else if h < 85 then min s.fields[i].nombud (s.fields[i].curbud + 32) else s.fields[i].curbud }) ∧
      ((∀ t ∈ s.fields[i].temp.toList, t = 0xFF) → s'.fields[i] = s.fields[i])) ∧
  (∀ (s : State) (f : Fin 64) (m : Fin 8), ∃ s', exec (.droopEvent f m) s = .next s' ∧ s'.fields[f].stallUntil = s.cycle + 8 ∧
    s'.fields[f].droop[m] = min 255 (s.fields[f].droop[m] + 1) ∧ (∀ k : Fin 8, k ≠ m → s'.fields[f].droop[k] = s.fields[f].droop[k]) ∧
    ∀ g : Fin 64, g ≠ f → s'.fields[g] = s.fields[g]) ∧
  (∀ (s : State) (f : Fin 64) (sensor val : Nat), s.input = .temp f sensor val → val < 256 →
    (∀ h : sensor < 16, ∃ s', exec .temperatureChange s = .next s' ∧ s'.fields[f].temp[sensor] = val ∧
      (∀ k : Fin 16, k.val ≠ sensor → s'.fields[f].temp[k] = s.fields[f].temp[k]) ∧
      (s'.fields[f].hot = true ↔ ∃ x, isHottest s'.fields[f] x ∧ 95 < x) ∧ ∀ g : Fin 64, g ≠ f → s'.fields[g] = s.fields[g]) ∧
    (sensor = 16 → ∃ s', exec .temperatureChange s = .next s' ∧ s'.stackTemp[f] = val ∧ s'.fields = s.fields)) ∧
  (∀ (s : State) (f : Fin 64) (vals : List Nat), s.input = .ring f vals → vals.length = 4 →
    ∃ s', exec .ringOscillatorWindow s = .next s' ∧ (∀ k : Fin 4, s'.fields[f].ring[k] = BitVec.ofNat 16 (vals.getD k 0)) ∧
      ∀ g : Fin 64, g ≠ f → s'.fields[g] = s.fields[g]) ∧
  (∀ s : State, (∃ s', exec .moduleReset s = .next s' ∧ cleared s' ∧ min 4096 s.epoch ≤ s'.epoch ∧
      (s'.bootState = 1 → s'.bootStep = 7 ∧ s'.mordA = s'.mordB ∧ ∃ m, (m = s.mordA ∨ m = s.mordB) ∧ m.valid = true ∧ s.epoch ≤ m.epoch ∧
        m.recs <+: s'.mordA.recs) ∧
      ((s.mordA.valid && decide (s.epoch ≤ s.mordA.epoch)) = false → (s.mordB.valid && decide (s.epoch ≤ s.mordB.epoch)) = false →
        s'.bootState ≠ 1)) ∧
    (∃ s', exec .powerLoss s = .next s' ∧ cleared s' ∧ (s'.bootState = 1 → s'.bootStep = 7 ∧ s'.mordA = s'.mordB)) ∧
    ((∀ e ∈ s.agenda, ∀ u n, e.2 ≠ .unitRetire u n) → exec .powerLoss s = exec .moduleReset s))

/-- 21 R391, R395; 22 R415, R416, R422 to R428; 23 R431 to R434; 18 R372, R373: a host's kill, the flood, the sweep and the record; flipped bits
and what a home's scrub makes of them; an error in a shared structure's control state, told to every tenant of its blast set; and the record
and the effect of a retirement. The flood, the severities and what a retirement leaves are read with log 22, log 28 and log 36. -/
def Obligations.KillAndErrorEvents : Prop :=
  (∀ (s : State) (vd : Nat) (lid : Word), reached s = true → s.input = .kill vd lid → distinct s = true →
    ((∀ e ∈ s.launches, e.2.vd = vd → e.2.blk.lid = lid → e.2.phase = .ended) →
      ∃ s', exec .cmdKill s = .next s' ∧ s'.cmdstat = 0 ∧ s'.launches = s.launches) ∧
    (∀ l ln, s.launch? l = some ln → ln.vd = vd → ln.blk.lid = lid → ln.dying = false →
      (∀ e ∈ s.launches, e.2.vd = vd → e.2.blk.lid = lid → e.2.phase ≠ .ended → e.1 = l) →
      ∃ s', exec .cmdKill s = .next s' ∧ killing s l 0xC1 s' ∧ l ∈ s'.cmdWait ∧ s'.threads = s.threads) ∧
    (∀ d, s.vds.get? vd = some d → (s.ops.all fun e => decide (e.2.cls ≠ .launchQ)) = true → ∃ s' d', exec .cmdKillvd s = .next s' ∧
      (∀ l ln, s.launch? l = some ln → ln.vd = vd → ln.dying = false → killing s l 0xC1 s' ∧ l ∈ s'.cmdWait) ∧
      s'.vds.get? vd = some d' ∧ (∀ q : Fin 4, d'.queues[q] = { d.queues[q] with
        qhead := d.queues[q].tail, qerr := min (d.queues[q].qerr + (d.queues[q].tail - d.queues[q].qhead).toNat) 0xFFFFFFFF }) ∧
      ∀ l ln, s.launch? l = some ln → ln.vd ≠ vd → s'.launch? l = some ln)) ∧
  (∀ (s : State) (l : Nat) (ln : Launch), s.launch? l = some ln →
    (ln.phase = .killFlood → ∃ s' ln', exec (.killFlood l) s = .next s' ∧ s'.launch? l = some ln' ∧ ln'.phase = .killSweep s.cycle ∧
      ln'.status = ln.status ∧ (∀ e ∈ s'.threads, e.1.l ≠ l) ∧ (∀ e ∈ s'.lanes, e.1.l ≠ l) ∧ s'.hbm = s.hbm ∧ s'.ws = s.ws ∧
      ∀ r t, r.l ≠ l → s.thread? r = some t → s'.thread? r = some t) ∧
    (∀ c, ln.phase = .killSweep c → (∀ e ∈ s.vtiles, e.1.l = l → e.2.copies = []) → s.entryOf l = none →
      ∃ s' ln', exec (.killSweepEnd l) s = .next s' ∧ s'.launch? l = some ln' ∧ ln'.phase = .killConfirm s.cycle ∧
        (∀ e ∈ s'.ops, e.2.tile.l ≠ l) ∧ (∀ e ∈ s'.vtiles, e.1.l = l → e.2.park = [] ∧ e.2.copies = []) ∧ s'.hbm = s.hbm ∧
        (∀ id o, s.op? id = some o → o.tile.l ≠ l → s'.op? id = some o) ∧
        ∃ k, k ≤ s.cycle + 192 ∧ (k, Instr.killConfirm l) ∈ s'.agenda) ∧
    (∀ c home off f, ln.phase = .killConfirm c → s.hbm.wf = true → homesSound s = true → ln.esc = none → ln.lpbPage = false →
      Addr.of ln.blk.crec = .glob home off → inPage s ln.vd ln.blk.crec 64 false false = true → ln.blk.crec.toNat % 64 = 0 →
      homePlace s ln.vd home off false false = some f →
      ∃ s' ln', exec (.killConfirm l) s = .next s' ∧ s'.launch? l = some ln' ∧ ln'.phase = .ended ∧ ln'.status = ln.status ∧ goneFrom s' l ∧
        littleEndian (bytesFrom s'.hbm (f + 4) 4) = ln.status % 256 + (if ln.qovl then 256 else 0) + 2 ^ 31 ∧
        ∀ x, x < f ∨ f + 64 ≤ x → s'.hbm.read x = s.hbm.read x)) ∧
  (∀ (s : State) (u : StoreUnit) (m : DWord), s.bootState = 1 → s.input = .upset u m → m ≠ 0 →
    (∀ v t off, u = .spad v off → s.tile? v = some t → ∃ s' t', exec .softError s = .next s' ∧ s'.tile? v = some t' ∧ t'.spad = t.spad ∧
      (∀ w, flipsAt t'.flips w = if w = off / 8 * 8 then flipsAt t.flips w ^^^ m else flipsAt t.flips w) ∧ s'.threads = s.threads) ∧
    (∀ h off, u = .hbm h off → ∃ s', exec .softError s = .next s' ∧ s'.hbm = s.hbm ∧
      ∀ w, flipsAt s'.hbmFlips w = if w = hbmKey h (off / 8 * 8) then flipsAt s.hbmFlips w ^^^ m else flipsAt s.hbmFlips w) ∧
    (∀ r t ln, u = .ctx r → s.thread? r = some t → s.launch? r.l = some ln →
      (nFlips m = 1 → ∃ s', exec .softError s = .next s' ∧ logged s 2 (s.ltileOf r.tile) 0 s' ∧ s'.threads = s.threads) ∧
      (2 ≤ nFlips m → ln.dying = false → ∃ s', exec .softError s = .next s' ∧ killing s r.l 0xA0 s'))) ∧
  (∀ (s : State) (h off : Nat), s.bootState = 1 → s.input = .unit (.hbm h off) → off < 2 ^ 36 →
    let k := hbmKey h (off / 8 * 8)
    (flipsAt s.hbmFlips k = 0 → ∃ s', exec .scrub s = .next s' ∧ s' = s) ∧
    (nFlips (flipsAt s.hbmFlips k) = 1 → ∃ s', exec .scrub s = .next s' ∧ s'.hbmFlips = s.hbmFlips.del k ∧ s'.hbmPoison = s.hbmPoison ∧
      s'.hbm = s.hbm ∧ logged s 10 h 0 s') ∧
    (2 ≤ nFlips (flipsAt s.hbmFlips k) → ∃ s', exec .scrub s = .next s' ∧ s'.hbmFlips = s.hbmFlips.del k ∧ k ∈ s'.hbmPoison ∧ logged s 10 h 2 s' ∧
      (s.cycle, Instr.unitRetire ⟨4, h, off / 2 ^ 30⟩ 3) ∈ s'.agenda)) ∧
  (∀ (s : State) (h : Nat), s.bootState = 1 → distinct s = true →
    ∃ s', exec (.uncontainedError (.atomicUnit h)) s = .next s' ∧ logged s 11 h 4 s' ∧ s'.launches.map Prod.fst = s.launches.map Prod.fst ∧
      ∀ l ln v t, s.launch? l = some ln → ln.phase ≠ .ended → (s.vdRec ln.vd).en = true → (s.vdRec ln.vd).pool < 64 → ln.vd < 512 →
        holdsPools s (s.inHome h) (s.vdRec ln.vd).pool = true → lowestTile s l v = true → ∀ r, s.leadOf l v = some r →
        s.thread? r = some t → s.reportRoom r = true → ∃ t' p, s'.thread? r = some t' ∧ t'.reports = t.reports ++ [p] ∧ p.cause = 0xA3 ∧ p.tval = BitVec.ofNat 64 s.errSeq ∧
          ∀ i, i < 64 → (p.taux.getLsbD i = true ↔ holdsPools s (s.inHome h) i = true)) ∧
  (∀ (s : State) (u : RetUnit) (reason : Nat), s.bootState = 1 → RetUnit.ok u = true → s.recorded u = false → s.mordant.recs.length < 2 ^ 20 →
    s.epoch < 4096 → ∃ s' m, exec (.unitRetire u reason) s = .next s' ∧ s'.mordA = s'.mordB ∧ s'.mordA.valid = true ∧
      s'.mordA.gen = s.mordant.gen + 1 ∧ s'.mordA.recs = s.mordant.recs ++ [m] ∧ recordsUnit m u reason ∧
      s'.epoch = (if s.bootEpochDone then s.epoch else s.epoch + 1) ∧ s'.bootEpochDone = true ∧
      (u.kind = 4 → (u.unit, u.place) ∈ s'.pcgOut) ∧
      (u.kind = 7 → ∀ p p', s.ports.toList[u.unit]? = some p → s'.ports.toList[u.unit]? = some p' → usesLane p u.place = true →
        narrowed p p' u.place))

/-- 21 R389, R400 to R404: a good flit in sequence reaches its channel, and its number is the one that the port acknowledges from then on;
another is discarded and asked for again, by a flit with NAK, whose channel is the model's choice (log 34); a NAK that comes makes the port
send what it has kept from that number on; a lane that fails is retired (which lanes a narrowed port uses is the model's reading: log 36);
the primary link's loss holds what comes over it until it is back; and each of the other host ports has a link of its own, whose changes
the outside tells (log 52). -/
def Obligations.LinkEvents : Prop :=
  (∀ (s : State) (i : Fin 64) (flit : List Byte), s.bootState = 1 → s.ports[i].width ≠ 0 →
    let p := s.ports[i]
    (∀ f, openFlit (flit.map BitVec.toNat) = some f →
      let seq := BitVec.ofNat 12 (flitWord f 0 4)
      (seq = p.lastGood + 1 → ∃ s', exec (.woreriFlitReceive i flit) s = .next s' ∧ s'.ports[i].lastGood = seq ∧ s'.ports[i].fails = 0 ∧
        s'.ports[i].sendNak = false ∧ s'.ports[i].xoffIn = BitVec.ofNat 4 (flitWord f 4 2) ∧
        (∀ k : Fin 4, k.val = flitWord f 0 4 / 2 ^ 12 % 4 → s'.ports[i].rx[k].getLast? = some (((f.drop 8).take 224).map (BitVec.ofNat 8))) ∧
        (p.owed = [] → ∀ e, e ∈ s'.ports[i].replay ↔ e ∈ p.replay ∧ (e.seq - BitVec.ofNat 12 (flitWord f 6 2) - 1).toNat < 2048) ∧
        (flitWord f 6 2 / 2 ^ 12 % 2 = 1 → (s.cycle, Instr.woreriNakReplay i ((flitWord f 6 2 + 1) % 4096)) ∈ s'.agenda) ∧
        ∀ k : Fin 64, k ≠ i → s'.ports[k] = s.ports[k]) ∧
      (seq ≠ p.lastGood + 1 → 2048 ≤ (seq - p.lastGood - 1).toNat → ∃ s', exec (.woreriFlitReceive i flit) s = .next s' ∧
        s'.ports[i].lastGood = p.lastGood ∧ s'.ports[i].sendNak = p.sendNak ∧ s'.errlog = s.errlog)) ∧
    ((openFlit (flit.map BitVec.toNat) = none ∨ ∃ f, openFlit (flit.map BitVec.toNat) = some f ∧
        0 < (BitVec.ofNat 12 (flitWord f 0 4) - p.lastGood - 1).toNat ∧ (BitVec.ofNat 12 (flitWord f 0 4) - p.lastGood - 1).toNat < 2048) →
      ∃ s', exec (.woreriFlitReceive i flit) s = .next s' ∧ s'.ports[i].lastGood = p.lastGood ∧
      s'.ports[i].sendNak = true ∧ logged s 13 i 1 s' ∧
      (p.xoffIn.getLsbD 3 = false → ∃ g, s'.ports[i].out = [g] ∧ g.length = 256 ∧
        littleEndian ((g.drop 6).take 2) = p.lastGood.toNat + 4096 ∧ littleEndian (g.take 4) = p.nextSeq.toNat + 3 * 4096) ∧ (p.fails < 16 → s'.ports[i].fails = p.fails + 1) ∧
      (16 ≤ p.fails → ∃ k, k < 4 ∧ (s.cycle, Instr.laneRetrain i k) ∈ s'.agenda))) ∧
  (∀ (s : State) (i : Fin 64) (seq : Nat), s.bootState = 1 → ∃ s', exec (.woreriNakReplay i seq) s = .next s' ∧ logged s 13 i 1 s' ∧
    (∀ e, e ∈ s'.ports[i].replay ↔ e ∈ s.ports[i].replay ∧ (e.seq - BitVec.ofNat 12 seq).toNat < 2048) ∧
    s'.ports[i].out.length = s'.ports[i].replay.length ∧
    ∀ (j : Nat) (e : Kept), s'.ports[i].replay[j]? = some e → e.vc < 4 → e.payload.length = 224 →
      ∃ g, s'.ports[i].out[j]? = some g ∧ carries g e.seq e.vc e.payload) ∧
  (∀ (s : State) (i : Fin 64) (lane : Nat), 4 ≤ lane ∨ lane ∈ s.ports[i].lanes → exec (.laneRetrain i lane) s = .next s) ∧
  (∀ (s : State) (i : Fin 64) (lane : Nat), s.bootState = 1 → s.ports[i].width ≠ 0 → usesLane s.ports[i] lane = true →
    (s.recorded ⟨7, i, lane⟩ = false → ∃ s', exec (.laneRetrain i lane) s = .next s' ∧ (s.cycle, Instr.unitRetire ⟨7, i, lane⟩ 4) ∈ s'.agenda ∧
      s'.ports = s.ports) ∧
    (s.recorded ⟨7, i, lane⟩ = true → ∃ s', exec (.laneRetrain i lane) s = .next s' ∧ narrowed s.ports[i] s'.ports[i] lane)) ∧
  (∀ s : State, (∀ p, s.input = .hostPort p → p % 4 = s.primary) → exec .hostLinkDown s = .next { s with linkUp := false } ∧
    ∃ s', exec .hostLinkUp s = .next s' ∧ s'.linkUp = true ∧ s'.linkQueue = [] ∧ s'.msix = [] ∧ s'.msixOut = s.msixOut ++ s.msix ∧
      s'.inputs = (s.linkQueue.map fun e => (s.cycle, e.1, e.2)) ++ s.inputs ∧ s'.launches = s.launches) ∧
  (∀ (s : State) (p : Nat), s.input = .hostPort p → p < 4 → p ≠ s.primary →
    (∃ s', exec .hostLinkDown s = .next s' ∧ s'.portDown p = true ∧ s'.linkUp = s.linkUp ∧ s'.linkQueue = s.linkQueue ∧
      ∀ k, k ≠ p → s'.portDown k = s.portDown k) ∧
    ∃ s', exec .hostLinkUp s = .next s' ∧ s'.portDown p = false ∧ s'.linkUp = s.linkUp ∧ s'.linkQueue = s.linkQueue ∧
      ∀ k, k ≠ p → s'.portDown k = s.portDown k)

/-- 18 R360 to R363, R370; 21 R389 to R396, R406, R410, R412: what the host writes: doorbells and queue registers, its window onto a VD's
pages, the pool and VD tables with the refusals of R391, NETCTL, ROUTE, DBGCERT, MODID, INJALLOW and CMD. While the link is down it
waits. 23 R445: what BAR0 reads back of the capability list at 0x2_0000 (the widths of a header's fields are the model's choice, log 48). -/
def Obligations.HostWrites : Prop :=
  (∀ (s : State) (i : Instr), fromHost i = true →
    (s.bootState ≠ 1 → exec i s = .next s) ∧
    (s.bootState = 1 → s.linkUp = false → exec i s = .next { s with linkQueue := s.linkQueue ++ [(i, s.input)] })) ∧
  (∀ (s : State) (vd : Nat) (q : Fin 4) (d : Vd), reached s = true → s.vds.get? vd = some d → vd < 512 →
    let x := d.queues[q]
    let now (s' : State) : Option Queue := (s'.vds.get? vd).map fun d' => d'.queues[q]
    (∀ t, s.input = .doorbell vd q t → ∃ s', exec .qtailDoorbell s = .next s' ∧ s'.hbm = s.hbm ∧
      now s' = some (if q.val = 3 ∨ x.qbase = 0 ∨ 2 ^ x.qlog < (t - x.qhead).toNat then { x with qerr := min (x.qerr + 1) 0xFFFFFFFF }
        else { x with tail := t })) ∧
    (∀ v, s.input = .queueCfg vd q 0 v → v.toNat % 4096 = 0 → ∃ s', exec .queueConfigWrite s = .next s' ∧
      now s' = some (if x.qhead = x.tail then { x with qbase := v } else x)) ∧
    (∀ v, s.input = .queueCfg vd q 1 v → 4 ≤ v.toNat → v.toNat ≤ 16 → ∃ s', exec .queueConfigWrite s = .next s' ∧
      now s' = some (if x.qhead = x.tail then { x with qlog := v.toNat } else x)) ∧
    (∀ v, s.input = .queueCfg vd q 2 v → ∃ s', exec .queueConfigWrite s = .next s' ∧ now s' = some { x with qvec := v.getLsbD 0 })) ∧
  (∀ (s : State) (vd addr n : Nat) (d : Vd), reached s = true → vd < 512 → addr + n ≤ 2 ^ 42 → 0 < n → s.vds.get? vd = some d →
    (s.ops.all fun e => decide (e.2.cls ≠ .hostAccess)) = true → homesSound s = true → s.hbm.wf = true →
    (addr + n - 1) / 2 ^ 36 = addr / 2 ^ 36 →
    let a := BitVec.ofNat 64 (addr / 2 ^ 36 * 2 ^ 52 + addr % 2 ^ 36)
    (∀ bs, s.input = .winRead vd addr n → inPage s vd a n true false = true → globalBytes s vd a n = some bs →
      ∃ s', exec .hostWindowRead s = .next s' ∧ s'.hostOut = bs ∧ s'.hbm = s.hbm ∧ s'.ops = s.ops) ∧
    (s.input = .winRead vd addr n → (∀ i, i < n → s.page? vd (addr / 2 ^ 36) (addr % 2 ^ 36 + i) = none) →
      ∃ s', exec .hostWindowRead s = .next s' ∧ s'.hostOut = List.replicate n 0xFF ∧ s'.hbm = s.hbm ∧ s'.ops = s.ops) ∧
    (∀ bs f, s.input = .winWrite vd addr bs → bs.length = n → inPage s vd a n false true = true →
      homePlace s vd (addr / 2 ^ 36) (addr % 2 ^ 36) false true = some f →
      ∃ s', exec .hostWindowWrite s = .next s' ∧ holdsAt s.hbm s'.hbm f bs ∧ s'.ops = s.ops)) ∧
  (∀ (s : State) (i reg val : Nat), reached s = true → s.input = .table i reg val →
    (i < 64 → reg < 2 → let p := (s.poolRec i).written reg val
      ∃ s', exec .poolTableWrite s = .next s' ∧ s'.cmdstat = BitVec.ofNat 32 (s.poolCode i p) ∧
        s'.poolRec i = (if s.poolCode i p = 0 then p else s.poolRec i) ∧ ∀ k, k ≠ i → s'.poolRec k = s.poolRec k) ∧
    (i < 512 → reg = 0 → let d := (s.vdRec i).control val
      ∃ s', exec .vdTableWrite s = .next s' ∧ s'.cmdstat = BitVec.ofNat 32 (s.vdCode i d) ∧
        s'.vdRec i = (if s.vdCode i d = 0 then d else s.vdRec i) ∧ (∀ k, k ≠ i → s'.vdRec k = s.vdRec k) ∧
        (s.vdCode i d = 0 → (d.en ≠ (s.vdRec i).en ∨ d.pool ≠ (s.vdRec i).pool) → ∀ x ∈ s'.sessions, x.vd ≠ i)) ∧
    (i < 512 → reg = 1 → ∃ s', exec .vdTableWrite s = .next s' ∧ s'.vdRec i = { s.vdRec i with scope := BitVec.ofNat 2 val } ∧ s'.cmdstat = 0) ∧
    (∀ h : i < 1024, ∃ s', exec .routeWrite s = .next s' ∧ (∀ k : Fin 1024, k.val ≠ i → s'.route[k] = s.route[k]) ∧
      s'.route[i] = (if i % 4 = 0 then BitVec.ofNat 32 val else BitVec.ofNat 32 val &&& 0xFFFF0000)) ∧
    (∀ h : i < 8, ∃ s', exec .dbgcertWrite s = .next s' ∧ (∀ x ∈ s'.sessions, x.slot ≠ i) ∧ (∀ k : Fin 8, k.val ≠ i → s'.dbgcert[k] = s.dbgcert[k]) ∧
      (reg = 0 → s'.dbgcert[i] = { s.dbgcert[i] with digest := val % 2 ^ 256 }) ∧
      (reg = 1 → s'.dbgcert[i] = { s.dbgcert[i] with vd := val % 512, en := val.testBit 31 }))) ∧
  (∀ (s : State), reached s = true →
    (∀ w, s.input = .word w → exec .netctlWrite s = .next { s with netctl := max 16 (min 256 (w.toNat % 512)) }) ∧
    (∀ v, s.input = .reg 0 0x8004 v → exec .registerWrite s = .next { s with modid := v.extractLsb' 0 16 }) ∧
    (∀ k v, s.input = .reg 0 (0x8040 + 8 * k) v → k < 8 → ∃ s', exec .registerWrite s = .next s' ∧
      ∀ b, s'.injallow.getLsbD b = (if b / 64 = k then v.getLsbD (b % 64) else s.injallow.getLsbD b)) ∧
    (∀ v, s.input = .reg 0 0x8100 v → v.toNat % 16 ≠ 1 → v.toNat % 16 ≠ 2 → exec .registerWrite s = .next { s with cmd := v, cmdstat := 5 }) ∧
    (∀ fn off v, s.input = .reg fn off v → fn ≠ 0 → exec .registerWrite s = .next s)) ∧
  (∀ (s : State) (fn : Pcie), s.bootState = 1 →
    let field (i n : Nat) : Nat := littleEndian ((List.range n).map fun k => s.barByte fn (0x20000 + i + k))
    field 0 2 = 1 ∧ field 2 2 = 0x0100 ∧ 0 < field 8 4 ∧ field 12 2 = 0x0100 ∧ field (field 8 4) 2 = 2 ∧
      field 8 4 < field (field 8 4 + 8) 4 ∧ littleEndian ((List.range 4).map s.otherBarByte) = s.primary % 2 ^ 32)

/-- 05 R138; 12 R299, R302, R305, R306; 21 R410 to R412; 02 R27, R31, R32: the debug function: a session's begin and its end, stopping a
thread, one step, its withdrawal, DETACH, breakpoint capture, and what READ returns and WRITE changes of a thread that is stopped. The
codes of the spaces of READ and WRITE are the model's choice (log 23). -/
def Obligations.DebugEvents : Prop :=
  (∀ (s : State) (digest : Nat) (ok : Bool) (vd : Nat), reached s = true → s.input = .spdm digest ok vd →
    (ok = false → exec .spdmSessionEstablish s = .next s) ∧
    ((∀ k : Fin 8, s.dbgcert[k].en = true → s.dbgcert[k].digest = digest → s.dbgcert[k].vd ≠ vd) → exec .spdmSessionEstablish s = .next s) ∧
    (∀ k : Fin 8, ok = true → s.dbgcert[k] = { digest, vd, en := true } →
      (∀ j : Fin 8, j < k → s.dbgcert[j].en = false ∨ s.dbgcert[j].digest ≠ digest ∨ s.dbgcert[j].vd ≠ vd) →
      ∃ s', exec .spdmSessionEstablish s = .next s' ∧ (⟨k, vd, s.cycle, [], 0⟩ : Session) ∈ s'.sessions ∧ s'.hostOut = s.idCert ∧
        s'.threads = s.threads)) ∧
  (∀ (s : State) (slot vd : Nat) (tg : DbgTarget) (space off n : Nat) (bs : List Byte), reached s = true →
    s.input = .debug slot vd tg space off n bs → ∀ i, debugCommand i = true →
    ((∀ x ∈ s.sessions, x.slot ≠ slot) → exec i s = .next { s with spdmError := some slot }) ∧
    (∀ x, s.sessions.find? (fun x => decide (x.slot = slot)) = some x → (x.vd ≠ vd ∨ s.targetVd vd tg = false) →
      ∃ s', exec i s = .next s' ∧ answers s' slot 2 [] ∧ s'.threads = s.threads ∧ s'.vtiles = s.vtiles ∧ s'.launches = s.launches)) ∧
  (∀ (s : State) (slot vd : Nat) (r : TRef) (t : Thread) (space off n : Nat) (bs : List Byte),
    inSession s slot vd (.thread r) space off n bs = true → s.thread? r = some t →
    (t.stopped = false → ∃ s' t', exec .debugStop s = .next s' ∧ s'.thread? r = some t' ∧ t'.stopped = true ∧ t'.stopSlot = some slot ∧
      t'.pc = t.pc ∧ t'.g = t.g ∧ t'.block = none ∧ (t.run = .ready → t'.run = .ready) ∧ answers s' slot 0 []) ∧
    (t.stopped = true → ∃ s', exec .debugStep s = .next s' ∧ s'.thread? r = some { t with stepPending := true } ∧ answers s' slot 0 []) ∧
    (t.stopped = true → t.stepPending = true → ∃ s' t', exec .debugWithdraw s = .next s' ∧ s'.thread? r = some t' ∧ t'.stepPending = false ∧
      t'.stopped = true ∧ t'.pc = t.pc ∧ t'.g = t.g ∧ answers s' slot 0 []) ∧
    (space = 0 → ∃ s', exec .debugRead s = .next s' ∧ answers s' slot 0 ((t.image.drop off).take n) ∧ s'.threads = s.threads) ∧
    (space = 1 → ∃ s', exec .debugRead s = .next s' ∧ answers s' slot 0 ((t.bank.drop off).take n) ∧ s'.threads = s.threads) ∧
    (space ≤ 1 → t.stopped = false → ∃ s', exec .debugWrite s = .next s' ∧ answers s' slot 3 [] ∧ s'.threads = s.threads) ∧
    (∀ k : Fin 16, space = 0 → off = 4 * k → bs.length = 4 → t.stopped = true → ∃ s' t', exec .debugWrite s = .next s' ∧
      s'.thread? r = some t' ∧ t'.g = t.g.set k (BitVec.ofNat 32 (littleEndian bs)) ∧ t'.pc = t.pc ∧ t'.tok = t.tok ∧
      answers s' slot 0 []) ∧
    (2 ≤ space → ∃ s', exec .debugWrite s = .next s' ∧ answers s' slot 3 [] ∧ s'.threads = s.threads)) ∧
  (∀ (s : State) (slot vd : Nat) (q : TileRef) (v : VTile) (off n : Nat) (bs : List Byte),
    s.tile? q = some v →
    (inSession s slot vd (.tile q) 3 off n bs = true →
      (∃ s', exec .debugRead s = .next s' ∧ answers s' slot 0 (v.spad.readN off n) ∧ s'.vtiles = s.vtiles) ∧
      (v.spad.wf = true → s.tileStopped q = true → (∀ e ∈ s.lanes, e.1.tile = q → e.2.chunks = []) → off + bs.length ≤ 2 ^ 20 → ∃ s' v', exec .debugWrite s = .next s' ∧ s'.tile? q = some v' ∧
        ∀ x, v'.spad.read x = if off ≤ x ∧ x < off + bs.length then bs.getD (x - off) 0 else v.spad.read x) ∧
      (s.tileStopped q = false → ∃ s', exec .debugWrite s = .next s' ∧ answers s' slot 3 [] ∧ s'.vtiles = s.vtiles))) ∧
  (∀ (s : State) (slot vd l : Nat) (ln : Launch) (space off n : Nat) (bs : List Byte),
    inSession s slot vd (.launch l) space off n bs = true → s.launch? l = some ln →
    (∃ s', exec .debugArm s = .next s' ∧ s'.launch? l = some { ln with armed := true } ∧ answers s' slot 0 []) ∧
    (∃ s', exec .debugDisarm s = .next s' ∧ s'.launch? l = some { ln with armed := false } ∧ answers s' slot 0 [])) ∧
  (∀ (s : State) (slot : Nat) (x : Session), x ∈ s.sessions → x.slot = slot → (∀ y ∈ s.sessions, y.slot = slot → y = x) →
    (∀ vd tg space off n bs, reached s = true → s.input = .debug slot vd tg space off n bs →
      (vd = x.vd → ∃ s', exec .detach s = .next s' ∧ answers s' slot 0 [] ∧ ∀ r t, s.thread? r = some t → s.vdOf r.l = x.vd → t.stopped = true →
        ∃ t', s'.thread? r = some t' ∧ detached t t') ∧
      (vd ≠ x.vd → ∃ s', exec .detach s = .next s' ∧ answers s' slot 2 [] ∧ s'.threads = s.threads)) ∧
    (reached s = true → s.input = .session slot →
      (∃ s', exec .endSession s = .next s' ∧ (∀ y ∈ s'.sessions, y.slot ≠ slot) ∧ ∀ r t, s.thread? r = some t → s.vdOf r.l = x.vd →
        t.stopped = true → t.stopSlot = some slot → ∃ t', s'.thread? r = some t' ∧ detached t t')) ∧
    (x.lastMsg + 2 ^ 31 ≤ s.cycle → ∃ s', exec .sessionTimeout s = .next s' ∧ x ∉ s'.sessions ∧ (∀ y ∈ s.sessions, s.cycle < y.lastMsg + 2 ^ 31 →
      y ∈ s'.sessions) ∧ ∀ r t, s.thread? r = some t → s.vdOf r.l = x.vd → t.stopped = true → t.stopSlot = some slot →
        ∃ t', s'.thread? r = some t' ∧ detached t t'))

/-! ### The machine as a whole -/

/-- 03 R51, R52, R58 to R64, R70 to R76: decoding gives back every well-formed instruction that its words encode, with every operand,
whatever bytes follow. -/
def Obligations.DecodingInvertsEncoding : Prop :=
  ∀ i : Instr, i.isWord = true → i.wellFormed = true →
    decodeWords [] false 3 (encode i) = .ok (i, []) ∧ ∀ rest, decode ((encode i).flatMap bytesOf ++ rest) = .ok (i, rest)

/-- 03 R51, R58 to R63, R71, R76 to R89: words written out from the encoding tables decode to the instructions they stand for. -/
def Obligations.DecodedWords : Prop :=
  decodeWords [] false 3 [0x0100000123000000] = .ok (.add {} 1 2 3, []) ∧
  decodeWords [] false 3 [0x030000045FFFFFF0] = .ok (.addi {} 4 5 0xFFFFFF, []) ∧
  decodeWords [] false 3 [0xFC00000012345678, 0x0300000450000010] = .ok (.addi { pfx := [.ximm 0x12345678] } 4 5 1, []) ∧
  decodeWords [] false 3 [0x500000034000010C] = .ok (.ld {} .w true 3 4 0x10, []) ∧
  decodeWords [] false 3 [0x41000002FFFFF801] = .ok (.bz {} true 2 0xFFFFF8, []) ∧
  decodeWords [] false 3 [0x25000007DEADBEEF] = .ok (.movi {} 7 0xDEADBEEF, []) ∧
  decodeWords [] false 3 [0x8000000123050001] = .ok (.vadd {} .i 1 2 3 5, []) ∧
  decodeWords [] false 3 [0x4C30759000000000] = .ok (.wait { tok := 3, thr := 1, wc := true, sgEn := true, sgTok := 5, sgInc := 2, gap := 1 }, []) ∧
  decodeWords [] false 3 [0x0000000000000000] = .ok (.illegalOp 0, []) ∧
  decodeWords [] false 3 [0x0100000123010000] = .error .badSubop ∧
  decodeWords [] false 3 [0xFD00000000000000, 0x4A00000000000000] = .error .prefixMisuse

/-- A step runs what is decoded (log 3; 02 R37; 03 R66, R67, R75): with nothing forced, a step is one of the moves that the state allows; an
event is performed; and a thread's turn performs the instruction whose words stand at its pc, inside its block or behind the header that
it enters. That one free value picks among the moves is the model's choice. -/
def Obligations.StepRunsDecoded : Prop :=
  (∀ (s : State) (i : Instr) (s1 : State), s.forced? = some (i, s1) → step s = finish s (exec i { s1 with cur := none })) ∧
  (∀ s : State, s.forced? = none → ∃ m ∈ s.choices, ∃ n, step s = finish s (State.move { s with fresh := n } m)) ∧
  (∀ (s : State) (r : TRef), s.forced? = none → s.choices = [.turn r] → step s = finish s (s.turn r)) ∧
  (∀ s s' : State, (s'.threads.any fun e => e.2.stepPending) = false → finish s (.next s') = .next s') ∧
  (∀ (s : State) (r : TRef) (t0 t : Thread) (i : Instr) (ws : List DWord), s.thread? r = some t0 → t0.skipTurn = false →
    let s1 := s.openChunk r
    let words (a : DWord) : Prop := ∀ k, k < ws.length → s1.fetchWord (s1.vdOf r.l) (a + BitVec.ofNat 64 (8 * k)) = .word (ws.getD k 0)
    let atPc (t : Thread) : State := { (s1.setThread r t).updTile r.tile (fun v => { v with issuedAt := some s1.cycle }) with
      cur := some r, iword := ws.getLastD 0 }
    s1.thread? r = some t → decodeWords [] false 3 ws = .ok (i, []) →
    (∀ n, t.wordsLeft = some n → ws.length ≤ n → t.arrive ≠ 2 → words t.pc → s.turn r = exec i (atPc t)) ∧
    (∀ h, s1.fetchWord (s1.vdOf r.l) t.pc = .word h → opOf h = 0xFF → (t.wordsLeft = none ∨ t.wordsLeft = some 0) → hdrBad h = false →
      (t.away = false ∨ t.pc ≠ t.rethdr) → ws.length ≤ hdrLen h → words (t.pc + 8) → s.turn r = exec i (atPc (t.enterBlock h s1.nextId))))

/-- Every step keeps the canonical form of every byte memory (log 4): equal memories are equal data. The form, and that an unlisted byte
reads as zero, are the model's own. -/
def Obligations.StepKeepsMemoryForm : Prop :=
  ∀ s s' : State, s.memWf = true → step s = .next s' → s'.memWf = true

/-- The machine right after reset: its memories are in their canonical form, nothing runs, and NETCTL, BOOTSTAT and the events that recur
stand as 18 R364, R370 and 23 R441, R443 give them. That reset is the end of a boot, with empty tables, is the model's choice (log 2),
as are the values that no rule states (log 8); the memory form is its own (log 4). -/
def Obligations.ResetState : Prop :=
  State.reset.memWf = true ∧ State.reset.cycle = 0 ∧ State.reset.launches = [] ∧ State.reset.threads = [] ∧ State.reset.sessions = [] ∧
    State.reset.netctl = 64 ∧ State.reset.bootstat = 0x107 ∧ (2 ^ 20, Instr.governorTick) ∈ State.reset.agenda ∧
    (2 ^ 24, Instr.allowancePeriodBegin) ∈ State.reset.agenda

end
end

