-- ==== Sys2Proof/Laws/Bits.lean ====
section
/-!
SUPPORT. The fields of joined bit vectors, and the operand formats of instruction words: reading the fields of a word's operand
area gives back the fields that it was made of (03 R51, R58 to R63).
-/
namespace Sys2Proof

theorem extract_append_high {m n : Nat} (x : BitVec m) (y : BitVec n) (s k : Nat) (h : n ≤ s) :
    (x ++ y).extractLsb' s k = x.extractLsb' (s - n) k := by
  apply BitVec.eq_of_getLsbD_eq
  intro i hi
  simp only [BitVec.getLsbD_extractLsb', BitVec.getLsbD_append]
  rw [if_neg (by omega)]
  congr 2
  omega

theorem extract_append_low {m n : Nat} (x : BitVec m) (y : BitVec n) (s k : Nat) (h : s + k ≤ n) :
    (x ++ y).extractLsb' s k = y.extractLsb' s k := by
  apply BitVec.eq_of_getLsbD_eq
  intro i hi
  simp only [BitVec.getLsbD_extractLsb', BitVec.getLsbD_append]
  rw [if_pos (by omega)]

theorem extract_self {n : Nat} (x : BitVec n) : x.extractLsb' 0 n = x := by
  apply BitVec.eq_of_getLsbD_eq
  intro i hi
  simp [hi]

theorem bit_append_high {m n : Nat} (x : BitVec m) (y : BitVec n) (s : Nat) (h : n ≤ s) :
    (x ++ y).getLsbD s = x.getLsbD (s - n) := by
  rw [BitVec.getLsbD_append, if_neg (by omega)]

theorem bit_append_low {m n : Nat} (x : BitVec m) (y : BitVec n) (s : Nat) (h : s < n) :
    (x ++ y).getLsbD s = y.getLsbD s := by
  rw [BitVec.getLsbD_append, if_pos h]

theorem bit_ofBool (b : Bool) : (BitVec.ofBool b).getLsbD 0 = b := by cases b <;> rfl

@[simp] theorem FR.of_bits (f : FR) : FR.of f.bits = f := by
  cases f
  simp (disch := omega) only [FR.of, FR.bits, extract_append_high, extract_append_low, Nat.reduceSub, extract_self]

@[simp] theorem FI.of_bits (f : FI) : FI.of f.bits = f := by
  cases f
  simp (disch := omega) only [FI.of, FI.bits, extract_append_high, extract_append_low, Nat.reduceSub, extract_self]

@[simp] theorem FM.of_bits (f : FM) : FM.of f.bits = f := by
  cases f
  simp (disch := omega) only [FM.of, FM.bits, extract_append_high, extract_append_low, bit_append_high, bit_append_low,
    Nat.reduceSub, extract_self, bit_ofBool]

@[simp] theorem FB.of_bits (f : FB) : FB.of f.bits = f := by
  cases f
  simp (disch := omega) only [FB.of, FB.bits, extract_append_high, extract_append_low, Nat.reduceSub, extract_self]

@[simp] theorem FL.of_bits (f : FL) : FL.of f.bits = f := by
  cases f
  simp (disch := omega) only [FL.of, FL.bits, extract_append_high, extract_append_low, Nat.reduceSub, extract_self]

@[simp] theorem FE.of_bits (f : FE) : FE.of f.bits = f := by
  cases f
  simp (disch := omega) only [FE.of, FE.bits, extract_append_high, extract_append_low, Nat.reduceSub, extract_self]

@[simp] theorem Ctl.of_bits (c : Ctl) : Ctl.of c.bits c.pfx = c := by
  cases c
  simp (disch := omega) only [Ctl.of, Ctl.bits, extract_append_high, extract_append_low, bit_append_high, bit_append_low,
    Nat.reduceSub, extract_self, bit_ofBool]

/-! ### Reading an operand area that was made of fields -/

theorem FR.read (g : FR → Option Instr) (f : FR) {i : Instr} (h : g f = some i) : g (FR.of f.bits) = some i := by
  rw [FR.of_bits]; exact h
theorem FI.read (g : FI → Option Instr) (f : FI) {i : Instr} (h : g f = some i) : g (FI.of f.bits) = some i := by
  rw [FI.of_bits]; exact h
theorem FM.read (g : FM → Option Instr) (f : FM) {i : Instr} (h : g f = some i) : g (FM.of f.bits) = some i := by
  rw [FM.of_bits]; exact h
theorem FB.read (g : FB → Option Instr) (f : FB) {i : Instr} (h : g f = some i) : g (FB.of f.bits) = some i := by
  rw [FB.of_bits]; exact h
theorem FL.read (g : FL → Option Instr) (f : FL) {i : Instr} (h : g f = some i) : g (FL.of f.bits) = some i := by
  rw [FL.of_bits]; exact h
theorem FE.read (g : FE → Option Instr) (f : FE) {i : Instr} (h : g f = some i) : g (FE.of f.bits) = some i := by
  rw [FE.of_bits]; exact h

theorem PutNote.of_bits (n : PutNote) : PutNote.ofBits n.bits = some n := by
  cases n with
  | plain => decide
  | note tag mb =>
    simp (disch := omega) only [PutNote.ofBits, PutNote.bits, extract_append_high, extract_append_low, bit_append_high,
      bit_append_low, Nat.reduceSub, extract_self]
    rfl

end Sys2Proof
end

