-- ==== Sys2Proof/Laws/Table.lean ====
section
/-!
SUPPORT. The laws of the plain containers: tables (a read after a change), and byte memories (a read after a write, and the
canonical form, which every memory operation keeps).
-/
namespace Sys2Proof.Machine

/-! ### Tables -/

@[simp] theorem Assoc.get?_nil {κ α : Type} [DecidableEq κ] (k : κ) : Assoc.get? ([] : Assoc κ α) k = none := rfl

theorem Assoc.get?_cons {κ α : Type} [DecidableEq κ] (e : κ × α) (t : Assoc κ α) (k : κ) :
    Assoc.get? (e :: t) k = if e.1 = k then some e.2 else t.get? k := rfl

@[simp] theorem Assoc.get?_set {κ α : Type} [DecidableEq κ] (t : Assoc κ α) (k : κ) (a : α) (j : κ) :
    (t.set k a).get? j = if k = j then some a else t.get? j := by
  induction t with
  | nil => simp [Assoc.set, Assoc.get?]
  | cons e t ih =>
    obtain ⟨k', a'⟩ := e
    by_cases h : k' = k
    · subst h; by_cases hj : k' = j <;> simp [Assoc.set, Assoc.get?, hj]
    · by_cases hj : k' = j
      · subst hj; simp [Assoc.set, Assoc.get?, h, Ne.symm h]
      · simp [Assoc.set, Assoc.get?, h, hj, ih]

@[simp] theorem Assoc.get?_upd {κ α : Type} [DecidableEq κ] (t : Assoc κ α) (k : κ) (f : α → α) (j : κ) :
    (t.upd k f).get? j = if k = j then (t.get? j).map f else t.get? j := by
  induction t with
  | nil => simp [Assoc.upd, Assoc.get?]
  | cons e t ih =>
    obtain ⟨k', a'⟩ := e
    by_cases h : k' = k
    · subst h; by_cases hj : k' = j <;> simp [Assoc.upd, Assoc.get?, hj]
    · by_cases hj : k' = j
      · subst hj; simp [Assoc.upd, Assoc.get?, h, Ne.symm h]
      · simp [Assoc.upd, Assoc.get?, h, hj, ih]

@[simp] theorem Assoc.get?_del {κ α : Type} [DecidableEq κ] (t : Assoc κ α) (k j : κ) :
    (t.del k).get? j = if k = j then none else t.get? j := by
  induction t with
  | nil => simp [Assoc.del, Assoc.get?]
  | cons e t ih =>
    obtain ⟨k', a'⟩ := e
    by_cases h : k' = k
    · subst h
      rw [show Assoc.del ((k', a') :: t) k' = Assoc.del t k' by simp [Assoc.del], ih]
      by_cases hj : k' = j <;> simp [Assoc.get?, hj]
    · rw [show Assoc.del ((k', a') :: t) k = (k', a') :: Assoc.del t k by simp [Assoc.del, h]]
      by_cases hj : k' = j
      · subst hj; simp [Assoc.get?, Ne.symm h]
      · simp [Assoc.get?, hj, ih]

/-- Setting an entry to what it holds changes nothing. -/
theorem Assoc.set_of_get? {κ α : Type} [DecidableEq κ] {t : Assoc κ α} {k : κ} {a : α} (h : t.get? k = some a) :
    t.set k a = t := by
  induction t with
  | nil => simp [Assoc.get?] at h
  | cons e t ih =>
    obtain ⟨k', a'⟩ := e
    by_cases hk : k' = k
    · simp [Assoc.get?, hk] at h; simp [Assoc.set, hk, h]
    · simp [Assoc.get?, hk] at h; simp [Assoc.set, hk, ih h]

/-- On a key with an entry, `upd` sets it. -/
theorem Assoc.upd_of_get? {κ α : Type} [DecidableEq κ] {t : Assoc κ α} {k : κ} {a : α} (f : α → α)
    (h : t.get? k = some a) : t.upd k f = t.set k (f a) := by
  induction t with
  | nil => simp [Assoc.get?] at h
  | cons e t ih =>
    obtain ⟨k', a'⟩ := e
    by_cases hk : k' = k
    · simp [Assoc.get?, hk] at h; simp [Assoc.set, Assoc.upd, hk, h]
    · simp [Assoc.get?, hk] at h; simp [Assoc.set, Assoc.upd, hk, ih h]

/-- On a key without an entry, `upd` changes nothing. -/
theorem Assoc.upd_of_none {κ α : Type} [DecidableEq κ] {t : Assoc κ α} {k : κ} (f : α → α)
    (h : t.get? k = none) : t.upd k f = t := by
  induction t with
  | nil => rfl
  | cons e t ih =>
    obtain ⟨k', a'⟩ := e
    by_cases hk : k' = k
    · simp [Assoc.get?, hk] at h
    · simp [Assoc.get?, hk] at h; simp [Assoc.upd, hk, ih h]

@[simp] theorem Assoc.upd_upd {κ α : Type} [DecidableEq κ] (t : Assoc κ α) (k : κ) (f g : α → α) :
    (t.upd k f).upd k g = t.upd k (fun a => g (f a)) := by
  induction t with
  | nil => rfl
  | cons e t ih =>
    obtain ⟨k', a'⟩ := e
    by_cases hk : k' = k <;> simp [Assoc.upd, hk, ih]

@[simp] theorem Assoc.set_set {κ α : Type} [DecidableEq κ] (t : Assoc κ α) (k : κ) (a b : α) :
    (t.set k a).set k b = t.set k b := by
  induction t with
  | nil => simp [Assoc.set]
  | cons e t ih =>
    obtain ⟨k', a'⟩ := e
    by_cases hk : k' = k <;> simp [Assoc.set, hk, ih]

/-- Every entry that a changed table holds at a key is one the table held there, or the new one. -/
theorem Assoc.mem_set {κ α : Type} [DecidableEq κ] {t : Assoc κ α} {k : κ} {a : α} {e : κ × α} (h : e ∈ t.set k a) :
    e = (k, a) ∨ e ∈ t := by
  induction t with
  | nil => simp only [Assoc.set, List.mem_singleton] at h; exact .inl h
  | cons d t ih =>
    obtain ⟨k', a'⟩ := d
    by_cases hk : k' = k
    · simp only [Assoc.set, if_pos hk, List.mem_cons] at h
      exact h.imp_right fun h => List.mem_cons_of_mem _ h
    · simp only [Assoc.set, if_neg hk, List.mem_cons] at h
      rcases h with rfl | h
      · exact .inr List.mem_cons_self
      · exact (ih h).imp_right fun h => List.mem_cons_of_mem _ h

theorem Assoc.mem_upd {κ α : Type} [DecidableEq κ] {t : Assoc κ α} {k : κ} {f : α → α} {e : κ × α}
    (h : e ∈ t.upd k f) : e ∈ t ∨ ∃ a, (k, a) ∈ t ∧ e = (k, f a) := by
  induction t with
  | nil => simp [Assoc.upd] at h
  | cons d t ih =>
    obtain ⟨k', a'⟩ := d
    by_cases hk : k' = k
    · subst hk
      rw [show Assoc.upd ((k', a') :: t) k' f = (k', f a') :: t by simp [Assoc.upd], List.mem_cons] at h
      rcases h with rfl | h
      · exact .inr ⟨a', List.mem_cons_self, rfl⟩
      · exact .inl (List.mem_cons_of_mem _ h)
    · simp only [Assoc.upd, if_neg hk, List.mem_cons] at h
      rcases h with rfl | h
      · exact .inl List.mem_cons_self
      · rcases ih h with h | ⟨a, h, he⟩
        · exact .inl (List.mem_cons_of_mem _ h)
        · exact .inr ⟨a, List.mem_cons_of_mem _ h, he⟩

theorem Assoc.mem_del {κ α : Type} [DecidableEq κ] {t : Assoc κ α} {k : κ} {e : κ × α} (h : e ∈ t.del k) : e ∈ t :=
  (List.mem_filter.mp h).1

/-- An entry that a table answers is in its list. -/
theorem Assoc.mem_of_get? {κ α : Type} [DecidableEq κ] {t : Assoc κ α} {k : κ} {a : α} (h : t.get? k = some a) :
    (k, a) ∈ t := by
  induction t with
  | nil => simp at h
  | cons d t ih =>
    obtain ⟨k', a'⟩ := d
    by_cases hk : k' = k
    · simp [Assoc.get?, hk] at h; simp [hk, h]
    · simp [Assoc.get?, hk] at h; exact List.mem_cons_of_mem _ (ih h)

/-! ### Memories -/

@[simp] theorem Memory.read_nil (a : Nat) : Memory.read [] a = Memory.blank := rfl

/-- In a memory whose listed addresses begin at `lo`, a lower address reads blank. -/
theorem Memory.read_below {m : Memory} {lo a : Nat} (h : Memory.wfFrom lo m = true) (ha : a < lo) :
    m.read a = Memory.blank := by
  induction m generalizing lo with
  | nil => rfl
  | cons c m ih =>
    obtain ⟨b, x⟩ := c
    simp only [Memory.wfFrom, Bool.and_eq_true, decide_eq_true_eq] at h
    simp only [Memory.read]
    rw [if_neg (by omega)]
    exact ih h.2 (by omega)

theorem Memory.wfFrom_le {m : Memory} {lo lo' : Nat} (h : Memory.wfFrom lo m = true) (hl : lo' ≤ lo) :
    Memory.wfFrom lo' m = true := by
  cases m with
  | nil => rfl
  | cons c m =>
    obtain ⟨b, x⟩ := c
    simp only [Memory.wfFrom, Bool.and_eq_true, decide_eq_true_eq] at h ⊢
    exact ⟨⟨by omega, h.1.2⟩, h.2⟩

/-- A write keeps the form from any bound that is not above its address. -/
theorem Memory.wfFrom_write {m : Memory} {lo a : Nat} {b : Byte} (h : Memory.wfFrom lo m = true) (ha : lo ≤ a) :
    Memory.wfFrom lo (m.write a b) = true := by
  induction m generalizing lo with
  | nil => by_cases hb : b = Memory.blank <;> simp [Memory.write, Memory.wfFrom, hb, ha]
  | cons c m ih =>
    obtain ⟨a', x⟩ := c
    simp only [Memory.wfFrom, Bool.and_eq_true, decide_eq_true_eq] at h
    obtain ⟨⟨h1, h2⟩, h3⟩ := h
    simp only [Memory.write]
    split
    · split
      · simp only [Memory.wfFrom, Bool.and_eq_true, decide_eq_true_eq]; exact ⟨⟨h1, h2⟩, h3⟩
      · next hlt hb =>
        simp only [Memory.wfFrom, Bool.and_eq_true, decide_eq_true_eq]
        exact ⟨⟨ha, hb⟩, ⟨by omega, h2⟩, h3⟩
    · split
      · split
        · exact Memory.wfFrom_le h3 (by omega)
        · next hlt heq hb =>
          subst heq
          simp only [Memory.wfFrom, Bool.and_eq_true, decide_eq_true_eq]
          exact ⟨⟨ha, hb⟩, h3⟩
      · simp only [Memory.wfFrom, Bool.and_eq_true, decide_eq_true_eq]
        exact ⟨⟨h1, h2⟩, ih h3 (by omega)⟩

theorem Memory.wf_nil : Memory.wf [] = true := rfl

theorem Memory.wf_write {m : Memory} (h : m.wf = true) (a : Nat) (b : Byte) : (m.write a b).wf = true :=
  Memory.wfFrom_write h (Nat.zero_le a)

theorem Memory.wf_writeN {m : Memory} (h : m.wf = true) (a : Nat) (bs : List Byte) : (m.writeN a bs).wf = true := by
  induction bs generalizing m a with
  | nil => exact h
  | cons b bs ih => exact ih (Memory.wf_write h a b) (a + 1)

/-- What is left of a memory after some cells are taken out keeps the form. -/
theorem Memory.wfFrom_filter {m : Memory} {lo : Nat} (p : Host.Cell → Bool) (h : Memory.wfFrom lo m = true) :
    Memory.wfFrom lo (m.filter p) = true := by
  induction m generalizing lo with
  | nil => rfl
  | cons c m ih =>
    obtain ⟨a', x⟩ := c
    simp only [Memory.wfFrom, Bool.and_eq_true, decide_eq_true_eq] at h
    rw [List.filter_cons]
    split
    · simp only [Memory.wfFrom, Bool.and_eq_true, decide_eq_true_eq]
      exact ⟨h.1, ih h.2⟩
    · exact Memory.wfFrom_le (ih h.2) (by omega)

theorem Memory.wf_filter {m : Memory} (p : Host.Cell → Bool) (h : m.wf = true) : Memory.wf (m.filter p) = true :=
  Memory.wfFrom_filter p h

/-- A byte read after a write: at the address written, the byte written; at any other, what was there. -/
theorem Memory.read_write {m : Memory} {lo : Nat} (h : Memory.wfFrom lo m = true) (a : Nat) (b : Byte) (x : Nat) :
    (m.write a b).read x = if x = a then b else m.read x := by
  induction m generalizing lo with
  | nil =>
    by_cases hb : b = Memory.blank <;> by_cases hx : x = a <;>
      simp [Memory.write, Memory.read, hb, hx, @eq_comm _ a x]
  | cons c m ih =>
    obtain ⟨a', y⟩ := c
    simp only [Memory.wfFrom, Bool.and_eq_true, decide_eq_true_eq] at h
    obtain ⟨⟨h1, h2⟩, h3⟩ := h
    simp only [Memory.write]
    split
    · next hlt =>
      split
      · next hb =>
        by_cases hx : x = a
        · subst hx
          rw [if_pos rfl, hb]
          simp only [Memory.read]
          rw [if_neg (by omega)]
          exact Memory.read_below h3 (by omega)
        · rw [if_neg hx]
      · simp only [Memory.read]
        by_cases hx : x = a
        · simp [hx]
        · rw [if_neg (fun e => hx e.symm), if_neg hx]
    · split
      · next heq =>
        subst heq
        split
        · next hb =>
          by_cases hx : x = a
          · subst hx
            rw [if_pos rfl, hb]
            exact Memory.read_below h3 (by omega)
          · rw [if_neg hx]
            simp only [Memory.read]
            rw [if_neg (fun e => hx e.symm)]
        · simp only [Memory.read]
          by_cases hx : x = a
          · simp [hx]
          · rw [if_neg (fun e => hx e.symm), if_neg hx, if_neg (fun e => hx e.symm)]
      · next hlt hne =>
        simp only [Memory.read]
        by_cases hx : a' = x
        · rw [if_pos hx, if_pos hx, if_neg (by omega)]
        · rw [if_neg hx, if_neg hx]
          exact ih h3

/-- A byte read after bytes are written upward from `a`. -/
theorem Memory.read_writeN {m : Memory} (h : m.wf = true) (a : Nat) (bs : List Byte) (x : Nat) :
    (m.writeN a bs).read x = if a ≤ x ∧ x < a + bs.length then bs.getD (x - a) 0 else m.read x := by
  induction bs generalizing m a with
  | nil => simp only [Memory.writeN, List.length_nil]; rw [if_neg (by omega)]
  | cons b bs ih =>
    simp only [Memory.writeN, List.length_cons]
    rw [ih (Memory.wf_write h a b) (a + 1), Memory.read_write h]
    by_cases hx : x = a
    · subst hx
      rw [if_neg (by omega), if_pos rfl, if_pos (by omega)]
      simp
    · by_cases hin : a + 1 ≤ x ∧ x < a + 1 + bs.length
      · rw [if_pos hin, if_pos (by omega)]
        obtain ⟨k, hk⟩ : ∃ k, x - a = k + 1 := ⟨x - a - 1, by omega⟩
        rw [hk, show x - (a + 1) = k by omega]
        simp
      · rw [if_neg hin, if_neg hx, if_neg (by omega)]

/-- Two memories in the canonical form that read alike at every address are the same list. -/
theorem Memory.eq_of_read {m n : Memory} {lo : Nat} (hm : Memory.wfFrom lo m = true) (hn : Memory.wfFrom lo n = true)
    (h : ∀ a, m.read a = n.read a) : m = n := by
  induction m generalizing n lo with
  | nil =>
    cases n with
    | nil => rfl
    | cons c n =>
      obtain ⟨b, y⟩ := c
      simp only [Memory.wfFrom, Bool.and_eq_true, decide_eq_true_eq] at hn
      have := h b
      simp [Memory.read] at this
      exact absurd this.symm hn.1.2
  | cons c m ih =>
    obtain ⟨a, x⟩ := c
    simp only [Memory.wfFrom, Bool.and_eq_true, decide_eq_true_eq] at hm
    cases n with
    | nil =>
      have := h a
      simp [Memory.read] at this
      exact absurd this hm.1.2
    | cons d n =>
      obtain ⟨b, y⟩ := d
      simp only [Memory.wfFrom, Bool.and_eq_true, decide_eq_true_eq] at hn
      have hab : a = b := by
        rcases Nat.lt_trichotomy a b with hlt | heq | hgt
        · have := h a
          simp only [Memory.read, if_true] at this
          rw [if_neg (by omega), Memory.read_below hn.2 (by omega)] at this
          exact absurd this hm.1.2
        · exact heq
        · have := h b
          simp only [Memory.read, if_true] at this
          rw [if_neg (by omega), Memory.read_below hm.2 (by omega)] at this
          exact absurd this.symm hn.1.2
      subst hab
      have hxy : x = y := by simpa [Memory.read] using h a
      subst hxy
      rw [ih hm.2 hn.2]
      intro z
      by_cases hz : a = z
      · subst hz
        rw [Memory.read_below hm.2 (by omega), Memory.read_below hn.2 (by omega)]
      · have := h z
        simp only [Memory.read] at this
        rwa [if_neg hz, if_neg hz] at this

@[simp] theorem leBytes_length (v n : Nat) : (leBytes v n).length = n := by
  induction n generalizing v with
  | zero => rfl
  | succ n ih => simp [leBytes, ih]

@[simp] theorem Memory.readN_length (m : Memory) (a n : Nat) : (m.readN a n).length = n := by
  induction n generalizing a with
  | zero => rfl
  | succ n ih => simp [Memory.readN, ih]

/-- The little-endian value of a number's bytes is the number, cut to their width (04 R90). -/
theorem leNat_leBytes (v n : Nat) : leNat (leBytes v n) = v % 256 ^ n := by
  induction n generalizing v with
  | zero => simp [leBytes, leNat, Nat.mod_one]
  | succ n ih =>
    simp only [leBytes, leNat, ih, BitVec.toNat_ofNat]
    rw [show (256 : Nat) ^ (n + 1) = 256 * 256 ^ n by rw [Nat.pow_succ, Nat.mul_comm], Nat.mod_mul]

end Sys2Proof.Machine
end

