-- ==== Sys2Proof/Laws/State.lean ====
section
/-!
SUPPORT. What each update of State and of Thread leaves in each field: one lemma per field per update, true by the definition; and
what the tables answer after an update.
-/
namespace Sys2Proof.Machine

/-! ### State.setThread -/

@[simp] theorem State.setThread_cycle (s : State) (r : TRef) (t : Thread) : (s.setThread r t).cycle = s.cycle := rfl
@[simp] theorem State.setThread_cur (s : State) (r : TRef) (t : Thread) : (s.setThread r t).cur = s.cur := rfl
@[simp] theorem State.setThread_iword (s : State) (r : TRef) (t : Thread) : (s.setThread r t).iword = s.iword := rfl
@[simp] theorem State.setThread_input (s : State) (r : TRef) (t : Thread) : (s.setThread r t).input = s.input := rfl
@[simp] theorem State.setThread_inputs (s : State) (r : TRef) (t : Thread) : (s.setThread r t).inputs = s.inputs := rfl
@[simp] theorem State.setThread_agenda (s : State) (r : TRef) (t : Thread) : (s.setThread r t).agenda = s.agenda := rfl
@[simp] theorem State.setThread_nextId (s : State) (r : TRef) (t : Thread) : (s.setThread r t).nextId = s.nextId := rfl
@[simp] theorem State.setThread_fresh (s : State) (r : TRef) (t : Thread) : (s.setThread r t).fresh = s.fresh := rfl
@[simp] theorem State.setThread_ops (s : State) (r : TRef) (t : Thread) : (s.setThread r t).ops = s.ops := rfl
@[simp] theorem State.setThread_threads (s : State) (r : TRef) (t : Thread) : (s.setThread r t).threads = s.threads.set r t := rfl
@[simp] theorem State.setThread_vtiles (s : State) (r : TRef) (t : Thread) : (s.setThread r t).vtiles = s.vtiles := rfl
@[simp] theorem State.setThread_lanes (s : State) (r : TRef) (t : Thread) : (s.setThread r t).lanes = s.lanes := rfl
@[simp] theorem State.setThread_launches (s : State) (r : TRef) (t : Thread) : (s.setThread r t).launches = s.launches := rfl
@[simp] theorem State.setThread_nextLaunch (s : State) (r : TRef) (t : Thread) : (s.setThread r t).nextLaunch = s.nextLaunch := rfl
@[simp] theorem State.setThread_hbm (s : State) (r : TRef) (t : Thread) : (s.setThread r t).hbm = s.hbm := rfl
@[simp] theorem State.setThread_hbmPoison (s : State) (r : TRef) (t : Thread) : (s.setThread r t).hbmPoison = s.hbmPoison := rfl
@[simp] theorem State.setThread_hbmFlips (s : State) (r : TRef) (t : Thread) : (s.setThread r t).hbmFlips = s.hbmFlips := rfl
@[simp] theorem State.setThread_hist (s : State) (r : TRef) (t : Thread) : (s.setThread r t).hist = s.hist := rfl
@[simp] theorem State.setThread_marks (s : State) (r : TRef) (t : Thread) : (s.setThread r t).marks = s.marks := rfl
@[simp] theorem State.setThread_trigs (s : State) (r : TRef) (t : Thread) : (s.setThread r t).trigs = s.trigs := rfl
@[simp] theorem State.setThread_ws (s : State) (r : TRef) (t : Thread) : (s.setThread r t).ws = s.ws := rfl
@[simp] theorem State.setThread_wsPoison (s : State) (r : TRef) (t : Thread) : (s.setThread r t).wsPoison = s.wsPoison := rfl
@[simp] theorem State.setThread_wsFlips (s : State) (r : TRef) (t : Thread) : (s.setThread r t).wsFlips = s.wsFlips := rfl
@[simp] theorem State.setThread_pages (s : State) (r : TRef) (t : Thread) : (s.setThread r t).pages = s.pages := rfl
@[simp] theorem State.setThread_tlb (s : State) (r : TRef) (t : Thread) : (s.setThread r t).tlb = s.tlb := rfl
@[simp] theorem State.setThread_walks (s : State) (r : TRef) (t : Thread) : (s.setThread r t).walks = s.walks := rfl
@[simp] theorem State.setThread_missArea (s : State) (r : TRef) (t : Thread) : (s.setThread r t).missArea = s.missArea := rfl
@[simp] theorem State.setThread_moves (s : State) (r : TRef) (t : Thread) : (s.setThread r t).moves = s.moves := rfl
@[simp] theorem State.setThread_fields (s : State) (r : TRef) (t : Thread) : (s.setThread r t).fields = s.fields := rfl
@[simp] theorem State.setThread_stackTemp (s : State) (r : TRef) (t : Thread) : (s.setThread r t).stackTemp = s.stackTemp := rfl
@[simp] theorem State.setThread_votes (s : State) (r : TRef) (t : Thread) : (s.setThread r t).votes = s.votes := rfl
@[simp] theorem State.setThread_pools (s : State) (r : TRef) (t : Thread) : (s.setThread r t).pools = s.pools := rfl
@[simp] theorem State.setThread_vds (s : State) (r : TRef) (t : Thread) : (s.setThread r t).vds = s.vds := rfl
@[simp] theorem State.setThread_netctl (s : State) (r : TRef) (t : Thread) : (s.setThread r t).netctl = s.netctl := rfl
@[simp] theorem State.setThread_modid (s : State) (r : TRef) (t : Thread) : (s.setThread r t).modid = s.modid := rfl
@[simp] theorem State.setThread_injallow (s : State) (r : TRef) (t : Thread) : (s.setThread r t).injallow = s.injallow := rfl
@[simp] theorem State.setThread_cmd (s : State) (r : TRef) (t : Thread) : (s.setThread r t).cmd = s.cmd := rfl
@[simp] theorem State.setThread_cmdstat (s : State) (r : TRef) (t : Thread) : (s.setThread r t).cmdstat = s.cmdstat := rfl
@[simp] theorem State.setThread_cmdWait (s : State) (r : TRef) (t : Thread) : (s.setThread r t).cmdWait = s.cmdWait := rfl
@[simp] theorem State.setThread_bootStep (s : State) (r : TRef) (t : Thread) : (s.setThread r t).bootStep = s.bootStep := rfl
@[simp] theorem State.setThread_bootState (s : State) (r : TRef) (t : Thread) : (s.setThread r t).bootState = s.bootState := rfl
@[simp] theorem State.setThread_route (s : State) (r : TRef) (t : Thread) : (s.setThread r t).route = s.route := rfl
@[simp] theorem State.setThread_dbgcert (s : State) (r : TRef) (t : Thread) : (s.setThread r t).dbgcert = s.dbgcert := rfl
@[simp] theorem State.setThread_linkUp (s : State) (r : TRef) (t : Thread) : (s.setThread r t).linkUp = s.linkUp := rfl
@[simp] theorem State.setThread_primary (s : State) (r : TRef) (t : Thread) : (s.setThread r t).primary = s.primary := rfl
@[simp] theorem State.setThread_portsDown (s : State) (r : TRef) (t : Thread) : (s.setThread r t).portsDown = s.portsDown := rfl
@[simp] theorem State.setThread_linkQueue (s : State) (r : TRef) (t : Thread) : (s.setThread r t).linkQueue = s.linkQueue := rfl
@[simp] theorem State.setThread_msix (s : State) (r : TRef) (t : Thread) : (s.setThread r t).msix = s.msix := rfl
@[simp] theorem State.setThread_msixOut (s : State) (r : TRef) (t : Thread) : (s.setThread r t).msixOut = s.msixOut := rfl
@[simp] theorem State.setThread_ports (s : State) (r : TRef) (t : Thread) : (s.setThread r t).ports = s.ports := rfl
@[simp] theorem State.setThread_sessions (s : State) (r : TRef) (t : Thread) : (s.setThread r t).sessions = s.sessions := rfl
@[simp] theorem State.setThread_errlog (s : State) (r : TRef) (t : Thread) : (s.setThread r t).errlog = s.errlog := rfl
@[simp] theorem State.setThread_errSeq (s : State) (r : TRef) (t : Thread) : (s.setThread r t).errSeq = s.errSeq := rfl
@[simp] theorem State.setThread_mordA (s : State) (r : TRef) (t : Thread) : (s.setThread r t).mordA = s.mordA := rfl
@[simp] theorem State.setThread_mordB (s : State) (r : TRef) (t : Thread) : (s.setThread r t).mordB = s.mordB := rfl
@[simp] theorem State.setThread_epoch (s : State) (r : TRef) (t : Thread) : (s.setThread r t).epoch = s.epoch := rfl
@[simp] theorem State.setThread_bootEpochDone (s : State) (r : TRef) (t : Thread) : (s.setThread r t).bootEpochDone = s.bootEpochDone := rfl
@[simp] theorem State.setThread_tileState (s : State) (r : TRef) (t : Thread) : (s.setThread r t).tileState = s.tileState := rfl
@[simp] theorem State.setThread_bankOut (s : State) (r : TRef) (t : Thread) : (s.setThread r t).bankOut = s.bankOut := rfl
@[simp] theorem State.setThread_pcgOut (s : State) (r : TRef) (t : Thread) : (s.setThread r t).pcgOut = s.pcgOut := rfl
@[simp] theorem State.setThread_sliceOut (s : State) (r : TRef) (t : Thread) : (s.setThread r t).sliceOut = s.sliceOut := rfl
@[simp] theorem State.setThread_rowsOut (s : State) (r : TRef) (t : Thread) : (s.setThread r t).rowsOut = s.rowsOut := rfl
@[simp] theorem State.setThread_budgetOut (s : State) (r : TRef) (t : Thread) : (s.setThread r t).budgetOut = s.budgetOut := rfl
@[simp] theorem State.setThread_corrected (s : State) (r : TRef) (t : Thread) : (s.setThread r t).corrected = s.corrected := rfl
@[simp] theorem State.setThread_numberOut (s : State) (r : TRef) (t : Thread) : (s.setThread r t).numberOut = s.numberOut := rfl
@[simp] theorem State.setThread_detours (s : State) (r : TRef) (t : Thread) : (s.setThread r t).detours = s.detours := rfl
@[simp] theorem State.setThread_idKey (s : State) (r : TRef) (t : Thread) : (s.setThread r t).idKey = s.idKey := rfl
@[simp] theorem State.setThread_idCert (s : State) (r : TRef) (t : Thread) : (s.setThread r t).idCert = s.idCert := rfl
@[simp] theorem State.setThread_hostOut (s : State) (r : TRef) (t : Thread) : (s.setThread r t).hostOut = s.hostOut := rfl
@[simp] theorem State.setThread_spdmError (s : State) (r : TRef) (t : Thread) : (s.setThread r t).spdmError = s.spdmError := rfl
@[simp] theorem State.setThread_shipped (s : State) (r : TRef) (t : Thread) : (s.setThread r t).shipped = s.shipped := rfl

/-! ### State.updThread -/

@[simp] theorem State.updThread_cycle (s : State) (r : TRef) (f : Thread → Thread) : (s.updThread r f).cycle = s.cycle := rfl
@[simp] theorem State.updThread_cur (s : State) (r : TRef) (f : Thread → Thread) : (s.updThread r f).cur = s.cur := rfl
@[simp] theorem State.updThread_iword (s : State) (r : TRef) (f : Thread → Thread) : (s.updThread r f).iword = s.iword := rfl
@[simp] theorem State.updThread_input (s : State) (r : TRef) (f : Thread → Thread) : (s.updThread r f).input = s.input := rfl
@[simp] theorem State.updThread_inputs (s : State) (r : TRef) (f : Thread → Thread) : (s.updThread r f).inputs = s.inputs := rfl
@[simp] theorem State.updThread_agenda (s : State) (r : TRef) (f : Thread → Thread) : (s.updThread r f).agenda = s.agenda := rfl
@[simp] theorem State.updThread_nextId (s : State) (r : TRef) (f : Thread → Thread) : (s.updThread r f).nextId = s.nextId := rfl
@[simp] theorem State.updThread_fresh (s : State) (r : TRef) (f : Thread → Thread) : (s.updThread r f).fresh = s.fresh := rfl
@[simp] theorem State.updThread_ops (s : State) (r : TRef) (f : Thread → Thread) : (s.updThread r f).ops = s.ops := rfl
@[simp] theorem State.updThread_threads (s : State) (r : TRef) (f : Thread → Thread) : (s.updThread r f).threads = s.threads.upd r f := rfl
@[simp] theorem State.updThread_vtiles (s : State) (r : TRef) (f : Thread → Thread) : (s.updThread r f).vtiles = s.vtiles := rfl
@[simp] theorem State.updThread_lanes (s : State) (r : TRef) (f : Thread → Thread) : (s.updThread r f).lanes = s.lanes := rfl
@[simp] theorem State.updThread_launches (s : State) (r : TRef) (f : Thread → Thread) : (s.updThread r f).launches = s.launches := rfl
@[simp] theorem State.updThread_nextLaunch (s : State) (r : TRef) (f : Thread → Thread) : (s.updThread r f).nextLaunch = s.nextLaunch := rfl
@[simp] theorem State.updThread_hbm (s : State) (r : TRef) (f : Thread → Thread) : (s.updThread r f).hbm = s.hbm := rfl
@[simp] theorem State.updThread_hbmPoison (s : State) (r : TRef) (f : Thread → Thread) : (s.updThread r f).hbmPoison = s.hbmPoison := rfl
@[simp] theorem State.updThread_hbmFlips (s : State) (r : TRef) (f : Thread → Thread) : (s.updThread r f).hbmFlips = s.hbmFlips := rfl
@[simp] theorem State.updThread_hist (s : State) (r : TRef) (f : Thread → Thread) : (s.updThread r f).hist = s.hist := rfl
@[simp] theorem State.updThread_marks (s : State) (r : TRef) (f : Thread → Thread) : (s.updThread r f).marks = s.marks := rfl
@[simp] theorem State.updThread_trigs (s : State) (r : TRef) (f : Thread → Thread) : (s.updThread r f).trigs = s.trigs := rfl
@[simp] theorem State.updThread_ws (s : State) (r : TRef) (f : Thread → Thread) : (s.updThread r f).ws = s.ws := rfl
@[simp] theorem State.updThread_wsPoison (s : State) (r : TRef) (f : Thread → Thread) : (s.updThread r f).wsPoison = s.wsPoison := rfl
@[simp] theorem State.updThread_wsFlips (s : State) (r : TRef) (f : Thread → Thread) : (s.updThread r f).wsFlips = s.wsFlips := rfl
@[simp] theorem State.updThread_pages (s : State) (r : TRef) (f : Thread → Thread) : (s.updThread r f).pages = s.pages := rfl
@[simp] theorem State.updThread_tlb (s : State) (r : TRef) (f : Thread → Thread) : (s.updThread r f).tlb = s.tlb := rfl
@[simp] theorem State.updThread_walks (s : State) (r : TRef) (f : Thread → Thread) : (s.updThread r f).walks = s.walks := rfl
@[simp] theorem State.updThread_missArea (s : State) (r : TRef) (f : Thread → Thread) : (s.updThread r f).missArea = s.missArea := rfl
@[simp] theorem State.updThread_moves (s : State) (r : TRef) (f : Thread → Thread) : (s.updThread r f).moves = s.moves := rfl
@[simp] theorem State.updThread_fields (s : State) (r : TRef) (f : Thread → Thread) : (s.updThread r f).fields = s.fields := rfl
@[simp] theorem State.updThread_stackTemp (s : State) (r : TRef) (f : Thread → Thread) : (s.updThread r f).stackTemp = s.stackTemp := rfl
@[simp] theorem State.updThread_votes (s : State) (r : TRef) (f : Thread → Thread) : (s.updThread r f).votes = s.votes := rfl
@[simp] theorem State.updThread_pools (s : State) (r : TRef) (f : Thread → Thread) : (s.updThread r f).pools = s.pools := rfl
@[simp] theorem State.updThread_vds (s : State) (r : TRef) (f : Thread → Thread) : (s.updThread r f).vds = s.vds := rfl
@[simp] theorem State.updThread_netctl (s : State) (r : TRef) (f : Thread → Thread) : (s.updThread r f).netctl = s.netctl := rfl
@[simp] theorem State.updThread_modid (s : State) (r : TRef) (f : Thread → Thread) : (s.updThread r f).modid = s.modid := rfl
@[simp] theorem State.updThread_injallow (s : State) (r : TRef) (f : Thread → Thread) : (s.updThread r f).injallow = s.injallow := rfl
@[simp] theorem State.updThread_cmd (s : State) (r : TRef) (f : Thread → Thread) : (s.updThread r f).cmd = s.cmd := rfl
@[simp] theorem State.updThread_cmdstat (s : State) (r : TRef) (f : Thread → Thread) : (s.updThread r f).cmdstat = s.cmdstat := rfl
@[simp] theorem State.updThread_cmdWait (s : State) (r : TRef) (f : Thread → Thread) : (s.updThread r f).cmdWait = s.cmdWait := rfl
@[simp] theorem State.updThread_bootStep (s : State) (r : TRef) (f : Thread → Thread) : (s.updThread r f).bootStep = s.bootStep := rfl
@[simp] theorem State.updThread_bootState (s : State) (r : TRef) (f : Thread → Thread) : (s.updThread r f).bootState = s.bootState := rfl
@[simp] theorem State.updThread_route (s : State) (r : TRef) (f : Thread → Thread) : (s.updThread r f).route = s.route := rfl
@[simp] theorem State.updThread_dbgcert (s : State) (r : TRef) (f : Thread → Thread) : (s.updThread r f).dbgcert = s.dbgcert := rfl
@[simp] theorem State.updThread_linkUp (s : State) (r : TRef) (f : Thread → Thread) : (s.updThread r f).linkUp = s.linkUp := rfl
@[simp] theorem State.updThread_primary (s : State) (r : TRef) (f : Thread → Thread) : (s.updThread r f).primary = s.primary := rfl
@[simp] theorem State.updThread_portsDown (s : State) (r : TRef) (f : Thread → Thread) : (s.updThread r f).portsDown = s.portsDown := rfl
@[simp] theorem State.updThread_linkQueue (s : State) (r : TRef) (f : Thread → Thread) : (s.updThread r f).linkQueue = s.linkQueue := rfl
@[simp] theorem State.updThread_msix (s : State) (r : TRef) (f : Thread → Thread) : (s.updThread r f).msix = s.msix := rfl
@[simp] theorem State.updThread_msixOut (s : State) (r : TRef) (f : Thread → Thread) : (s.updThread r f).msixOut = s.msixOut := rfl
@[simp] theorem State.updThread_ports (s : State) (r : TRef) (f : Thread → Thread) : (s.updThread r f).ports = s.ports := rfl
@[simp] theorem State.updThread_sessions (s : State) (r : TRef) (f : Thread → Thread) : (s.updThread r f).sessions = s.sessions := rfl
@[simp] theorem State.updThread_errlog (s : State) (r : TRef) (f : Thread → Thread) : (s.updThread r f).errlog = s.errlog := rfl
@[simp] theorem State.updThread_errSeq (s : State) (r : TRef) (f : Thread → Thread) : (s.updThread r f).errSeq = s.errSeq := rfl
@[simp] theorem State.updThread_mordA (s : State) (r : TRef) (f : Thread → Thread) : (s.updThread r f).mordA = s.mordA := rfl
@[simp] theorem State.updThread_mordB (s : State) (r : TRef) (f : Thread → Thread) : (s.updThread r f).mordB = s.mordB := rfl
@[simp] theorem State.updThread_epoch (s : State) (r : TRef) (f : Thread → Thread) : (s.updThread r f).epoch = s.epoch := rfl
@[simp] theorem State.updThread_bootEpochDone (s : State) (r : TRef) (f : Thread → Thread) : (s.updThread r f).bootEpochDone = s.bootEpochDone := rfl
@[simp] theorem State.updThread_tileState (s : State) (r : TRef) (f : Thread → Thread) : (s.updThread r f).tileState = s.tileState := rfl
@[simp] theorem State.updThread_bankOut (s : State) (r : TRef) (f : Thread → Thread) : (s.updThread r f).bankOut = s.bankOut := rfl
@[simp] theorem State.updThread_pcgOut (s : State) (r : TRef) (f : Thread → Thread) : (s.updThread r f).pcgOut = s.pcgOut := rfl
@[simp] theorem State.updThread_sliceOut (s : State) (r : TRef) (f : Thread → Thread) : (s.updThread r f).sliceOut = s.sliceOut := rfl
@[simp] theorem State.updThread_rowsOut (s : State) (r : TRef) (f : Thread → Thread) : (s.updThread r f).rowsOut = s.rowsOut := rfl
@[simp] theorem State.updThread_budgetOut (s : State) (r : TRef) (f : Thread → Thread) : (s.updThread r f).budgetOut = s.budgetOut := rfl
@[simp] theorem State.updThread_corrected (s : State) (r : TRef) (f : Thread → Thread) : (s.updThread r f).corrected = s.corrected := rfl
@[simp] theorem State.updThread_numberOut (s : State) (r : TRef) (f : Thread → Thread) : (s.updThread r f).numberOut = s.numberOut := rfl
@[simp] theorem State.updThread_detours (s : State) (r : TRef) (f : Thread → Thread) : (s.updThread r f).detours = s.detours := rfl
@[simp] theorem State.updThread_idKey (s : State) (r : TRef) (f : Thread → Thread) : (s.updThread r f).idKey = s.idKey := rfl
@[simp] theorem State.updThread_idCert (s : State) (r : TRef) (f : Thread → Thread) : (s.updThread r f).idCert = s.idCert := rfl
@[simp] theorem State.updThread_hostOut (s : State) (r : TRef) (f : Thread → Thread) : (s.updThread r f).hostOut = s.hostOut := rfl
@[simp] theorem State.updThread_spdmError (s : State) (r : TRef) (f : Thread → Thread) : (s.updThread r f).spdmError = s.spdmError := rfl
@[simp] theorem State.updThread_shipped (s : State) (r : TRef) (f : Thread → Thread) : (s.updThread r f).shipped = s.shipped := rfl

/-! ### State.updTile -/

@[simp] theorem State.updTile_cycle (s : State) (v : TileRef) (f : VTile → VTile) : (s.updTile v f).cycle = s.cycle := rfl
@[simp] theorem State.updTile_cur (s : State) (v : TileRef) (f : VTile → VTile) : (s.updTile v f).cur = s.cur := rfl
@[simp] theorem State.updTile_iword (s : State) (v : TileRef) (f : VTile → VTile) : (s.updTile v f).iword = s.iword := rfl
@[simp] theorem State.updTile_input (s : State) (v : TileRef) (f : VTile → VTile) : (s.updTile v f).input = s.input := rfl
@[simp] theorem State.updTile_inputs (s : State) (v : TileRef) (f : VTile → VTile) : (s.updTile v f).inputs = s.inputs := rfl
@[simp] theorem State.updTile_agenda (s : State) (v : TileRef) (f : VTile → VTile) : (s.updTile v f).agenda = s.agenda := rfl
@[simp] theorem State.updTile_nextId (s : State) (v : TileRef) (f : VTile → VTile) : (s.updTile v f).nextId = s.nextId := rfl
@[simp] theorem State.updTile_fresh (s : State) (v : TileRef) (f : VTile → VTile) : (s.updTile v f).fresh = s.fresh := rfl
@[simp] theorem State.updTile_ops (s : State) (v : TileRef) (f : VTile → VTile) : (s.updTile v f).ops = s.ops := rfl
@[simp] theorem State.updTile_threads (s : State) (v : TileRef) (f : VTile → VTile) : (s.updTile v f).threads = s.threads := rfl
@[simp] theorem State.updTile_vtiles (s : State) (v : TileRef) (f : VTile → VTile) : (s.updTile v f).vtiles = s.vtiles.upd v f := rfl
@[simp] theorem State.updTile_lanes (s : State) (v : TileRef) (f : VTile → VTile) : (s.updTile v f).lanes = s.lanes := rfl
@[simp] theorem State.updTile_launches (s : State) (v : TileRef) (f : VTile → VTile) : (s.updTile v f).launches = s.launches := rfl
@[simp] theorem State.updTile_nextLaunch (s : State) (v : TileRef) (f : VTile → VTile) : (s.updTile v f).nextLaunch = s.nextLaunch := rfl
@[simp] theorem State.updTile_hbm (s : State) (v : TileRef) (f : VTile → VTile) : (s.updTile v f).hbm = s.hbm := rfl
@[simp] theorem State.updTile_hbmPoison (s : State) (v : TileRef) (f : VTile → VTile) : (s.updTile v f).hbmPoison = s.hbmPoison := rfl
@[simp] theorem State.updTile_hbmFlips (s : State) (v : TileRef) (f : VTile → VTile) : (s.updTile v f).hbmFlips = s.hbmFlips := rfl
@[simp] theorem State.updTile_hist (s : State) (v : TileRef) (f : VTile → VTile) : (s.updTile v f).hist = s.hist := rfl
@[simp] theorem State.updTile_marks (s : State) (v : TileRef) (f : VTile → VTile) : (s.updTile v f).marks = s.marks := rfl
@[simp] theorem State.updTile_trigs (s : State) (v : TileRef) (f : VTile → VTile) : (s.updTile v f).trigs = s.trigs := rfl
@[simp] theorem State.updTile_ws (s : State) (v : TileRef) (f : VTile → VTile) : (s.updTile v f).ws = s.ws := rfl
@[simp] theorem State.updTile_wsPoison (s : State) (v : TileRef) (f : VTile → VTile) : (s.updTile v f).wsPoison = s.wsPoison := rfl
@[simp] theorem State.updTile_wsFlips (s : State) (v : TileRef) (f : VTile → VTile) : (s.updTile v f).wsFlips = s.wsFlips := rfl
@[simp] theorem State.updTile_pages (s : State) (v : TileRef) (f : VTile → VTile) : (s.updTile v f).pages = s.pages := rfl
@[simp] theorem State.updTile_tlb (s : State) (v : TileRef) (f : VTile → VTile) : (s.updTile v f).tlb = s.tlb := rfl
@[simp] theorem State.updTile_walks (s : State) (v : TileRef) (f : VTile → VTile) : (s.updTile v f).walks = s.walks := rfl
@[simp] theorem State.updTile_missArea (s : State) (v : TileRef) (f : VTile → VTile) : (s.updTile v f).missArea = s.missArea := rfl
@[simp] theorem State.updTile_moves (s : State) (v : TileRef) (f : VTile → VTile) : (s.updTile v f).moves = s.moves := rfl
@[simp] theorem State.updTile_fields (s : State) (v : TileRef) (f : VTile → VTile) : (s.updTile v f).fields = s.fields := rfl
@[simp] theorem State.updTile_stackTemp (s : State) (v : TileRef) (f : VTile → VTile) : (s.updTile v f).stackTemp = s.stackTemp := rfl
@[simp] theorem State.updTile_votes (s : State) (v : TileRef) (f : VTile → VTile) : (s.updTile v f).votes = s.votes := rfl
@[simp] theorem State.updTile_pools (s : State) (v : TileRef) (f : VTile → VTile) : (s.updTile v f).pools = s.pools := rfl
@[simp] theorem State.updTile_vds (s : State) (v : TileRef) (f : VTile → VTile) : (s.updTile v f).vds = s.vds := rfl
@[simp] theorem State.updTile_netctl (s : State) (v : TileRef) (f : VTile → VTile) : (s.updTile v f).netctl = s.netctl := rfl
@[simp] theorem State.updTile_modid (s : State) (v : TileRef) (f : VTile → VTile) : (s.updTile v f).modid = s.modid := rfl
@[simp] theorem State.updTile_injallow (s : State) (v : TileRef) (f : VTile → VTile) : (s.updTile v f).injallow = s.injallow := rfl
@[simp] theorem State.updTile_cmd (s : State) (v : TileRef) (f : VTile → VTile) : (s.updTile v f).cmd = s.cmd := rfl
@[simp] theorem State.updTile_cmdstat (s : State) (v : TileRef) (f : VTile → VTile) : (s.updTile v f).cmdstat = s.cmdstat := rfl
@[simp] theorem State.updTile_cmdWait (s : State) (v : TileRef) (f : VTile → VTile) : (s.updTile v f).cmdWait = s.cmdWait := rfl
@[simp] theorem State.updTile_bootStep (s : State) (v : TileRef) (f : VTile → VTile) : (s.updTile v f).bootStep = s.bootStep := rfl
@[simp] theorem State.updTile_bootState (s : State) (v : TileRef) (f : VTile → VTile) : (s.updTile v f).bootState = s.bootState := rfl
@[simp] theorem State.updTile_route (s : State) (v : TileRef) (f : VTile → VTile) : (s.updTile v f).route = s.route := rfl
@[simp] theorem State.updTile_dbgcert (s : State) (v : TileRef) (f : VTile → VTile) : (s.updTile v f).dbgcert = s.dbgcert := rfl
@[simp] theorem State.updTile_linkUp (s : State) (v : TileRef) (f : VTile → VTile) : (s.updTile v f).linkUp = s.linkUp := rfl
@[simp] theorem State.updTile_primary (s : State) (v : TileRef) (f : VTile → VTile) : (s.updTile v f).primary = s.primary := rfl
@[simp] theorem State.updTile_portsDown (s : State) (v : TileRef) (f : VTile → VTile) : (s.updTile v f).portsDown = s.portsDown := rfl
@[simp] theorem State.updTile_linkQueue (s : State) (v : TileRef) (f : VTile → VTile) : (s.updTile v f).linkQueue = s.linkQueue := rfl
@[simp] theorem State.updTile_msix (s : State) (v : TileRef) (f : VTile → VTile) : (s.updTile v f).msix = s.msix := rfl
@[simp] theorem State.updTile_msixOut (s : State) (v : TileRef) (f : VTile → VTile) : (s.updTile v f).msixOut = s.msixOut := rfl
@[simp] theorem State.updTile_ports (s : State) (v : TileRef) (f : VTile → VTile) : (s.updTile v f).ports = s.ports := rfl
@[simp] theorem State.updTile_sessions (s : State) (v : TileRef) (f : VTile → VTile) : (s.updTile v f).sessions = s.sessions := rfl
@[simp] theorem State.updTile_errlog (s : State) (v : TileRef) (f : VTile → VTile) : (s.updTile v f).errlog = s.errlog := rfl
@[simp] theorem State.updTile_errSeq (s : State) (v : TileRef) (f : VTile → VTile) : (s.updTile v f).errSeq = s.errSeq := rfl
@[simp] theorem State.updTile_mordA (s : State) (v : TileRef) (f : VTile → VTile) : (s.updTile v f).mordA = s.mordA := rfl
@[simp] theorem State.updTile_mordB (s : State) (v : TileRef) (f : VTile → VTile) : (s.updTile v f).mordB = s.mordB := rfl
@[simp] theorem State.updTile_epoch (s : State) (v : TileRef) (f : VTile → VTile) : (s.updTile v f).epoch = s.epoch := rfl
@[simp] theorem State.updTile_bootEpochDone (s : State) (v : TileRef) (f : VTile → VTile) : (s.updTile v f).bootEpochDone = s.bootEpochDone := rfl
@[simp] theorem State.updTile_tileState (s : State) (v : TileRef) (f : VTile → VTile) : (s.updTile v f).tileState = s.tileState := rfl
@[simp] theorem State.updTile_bankOut (s : State) (v : TileRef) (f : VTile → VTile) : (s.updTile v f).bankOut = s.bankOut := rfl
@[simp] theorem State.updTile_pcgOut (s : State) (v : TileRef) (f : VTile → VTile) : (s.updTile v f).pcgOut = s.pcgOut := rfl
@[simp] theorem State.updTile_sliceOut (s : State) (v : TileRef) (f : VTile → VTile) : (s.updTile v f).sliceOut = s.sliceOut := rfl
@[simp] theorem State.updTile_rowsOut (s : State) (v : TileRef) (f : VTile → VTile) : (s.updTile v f).rowsOut = s.rowsOut := rfl
@[simp] theorem State.updTile_budgetOut (s : State) (v : TileRef) (f : VTile → VTile) : (s.updTile v f).budgetOut = s.budgetOut := rfl
@[simp] theorem State.updTile_corrected (s : State) (v : TileRef) (f : VTile → VTile) : (s.updTile v f).corrected = s.corrected := rfl
@[simp] theorem State.updTile_numberOut (s : State) (v : TileRef) (f : VTile → VTile) : (s.updTile v f).numberOut = s.numberOut := rfl
@[simp] theorem State.updTile_detours (s : State) (v : TileRef) (f : VTile → VTile) : (s.updTile v f).detours = s.detours := rfl
@[simp] theorem State.updTile_idKey (s : State) (v : TileRef) (f : VTile → VTile) : (s.updTile v f).idKey = s.idKey := rfl
@[simp] theorem State.updTile_idCert (s : State) (v : TileRef) (f : VTile → VTile) : (s.updTile v f).idCert = s.idCert := rfl
@[simp] theorem State.updTile_hostOut (s : State) (v : TileRef) (f : VTile → VTile) : (s.updTile v f).hostOut = s.hostOut := rfl
@[simp] theorem State.updTile_spdmError (s : State) (v : TileRef) (f : VTile → VTile) : (s.updTile v f).spdmError = s.spdmError := rfl
@[simp] theorem State.updTile_shipped (s : State) (v : TileRef) (f : VTile → VTile) : (s.updTile v f).shipped = s.shipped := rfl

/-! ### State.updLaunch -/

@[simp] theorem State.updLaunch_cycle (s : State) (l : Nat) (f : Launch → Launch) : (s.updLaunch l f).cycle = s.cycle := rfl
@[simp] theorem State.updLaunch_cur (s : State) (l : Nat) (f : Launch → Launch) : (s.updLaunch l f).cur = s.cur := rfl
@[simp] theorem State.updLaunch_iword (s : State) (l : Nat) (f : Launch → Launch) : (s.updLaunch l f).iword = s.iword := rfl
@[simp] theorem State.updLaunch_input (s : State) (l : Nat) (f : Launch → Launch) : (s.updLaunch l f).input = s.input := rfl
@[simp] theorem State.updLaunch_inputs (s : State) (l : Nat) (f : Launch → Launch) : (s.updLaunch l f).inputs = s.inputs := rfl
@[simp] theorem State.updLaunch_agenda (s : State) (l : Nat) (f : Launch → Launch) : (s.updLaunch l f).agenda = s.agenda := rfl
@[simp] theorem State.updLaunch_nextId (s : State) (l : Nat) (f : Launch → Launch) : (s.updLaunch l f).nextId = s.nextId := rfl
@[simp] theorem State.updLaunch_fresh (s : State) (l : Nat) (f : Launch → Launch) : (s.updLaunch l f).fresh = s.fresh := rfl
@[simp] theorem State.updLaunch_ops (s : State) (l : Nat) (f : Launch → Launch) : (s.updLaunch l f).ops = s.ops := rfl
@[simp] theorem State.updLaunch_threads (s : State) (l : Nat) (f : Launch → Launch) : (s.updLaunch l f).threads = s.threads := rfl
@[simp] theorem State.updLaunch_vtiles (s : State) (l : Nat) (f : Launch → Launch) : (s.updLaunch l f).vtiles = s.vtiles := rfl
@[simp] theorem State.updLaunch_lanes (s : State) (l : Nat) (f : Launch → Launch) : (s.updLaunch l f).lanes = s.lanes := rfl
@[simp] theorem State.updLaunch_launches (s : State) (l : Nat) (f : Launch → Launch) : (s.updLaunch l f).launches = s.launches.upd l f := rfl
@[simp] theorem State.updLaunch_nextLaunch (s : State) (l : Nat) (f : Launch → Launch) : (s.updLaunch l f).nextLaunch = s.nextLaunch := rfl
@[simp] theorem State.updLaunch_hbm (s : State) (l : Nat) (f : Launch → Launch) : (s.updLaunch l f).hbm = s.hbm := rfl
@[simp] theorem State.updLaunch_hbmPoison (s : State) (l : Nat) (f : Launch → Launch) : (s.updLaunch l f).hbmPoison = s.hbmPoison := rfl
@[simp] theorem State.updLaunch_hbmFlips (s : State) (l : Nat) (f : Launch → Launch) : (s.updLaunch l f).hbmFlips = s.hbmFlips := rfl
@[simp] theorem State.updLaunch_hist (s : State) (l : Nat) (f : Launch → Launch) : (s.updLaunch l f).hist = s.hist := rfl
@[simp] theorem State.updLaunch_marks (s : State) (l : Nat) (f : Launch → Launch) : (s.updLaunch l f).marks = s.marks := rfl
@[simp] theorem State.updLaunch_trigs (s : State) (l : Nat) (f : Launch → Launch) : (s.updLaunch l f).trigs = s.trigs := rfl
@[simp] theorem State.updLaunch_ws (s : State) (l : Nat) (f : Launch → Launch) : (s.updLaunch l f).ws = s.ws := rfl
@[simp] theorem State.updLaunch_wsPoison (s : State) (l : Nat) (f : Launch → Launch) : (s.updLaunch l f).wsPoison = s.wsPoison := rfl
@[simp] theorem State.updLaunch_wsFlips (s : State) (l : Nat) (f : Launch → Launch) : (s.updLaunch l f).wsFlips = s.wsFlips := rfl
@[simp] theorem State.updLaunch_pages (s : State) (l : Nat) (f : Launch → Launch) : (s.updLaunch l f).pages = s.pages := rfl
@[simp] theorem State.updLaunch_tlb (s : State) (l : Nat) (f : Launch → Launch) : (s.updLaunch l f).tlb = s.tlb := rfl
@[simp] theorem State.updLaunch_walks (s : State) (l : Nat) (f : Launch → Launch) : (s.updLaunch l f).walks = s.walks := rfl
@[simp] theorem State.updLaunch_missArea (s : State) (l : Nat) (f : Launch → Launch) : (s.updLaunch l f).missArea = s.missArea := rfl
@[simp] theorem State.updLaunch_moves (s : State) (l : Nat) (f : Launch → Launch) : (s.updLaunch l f).moves = s.moves := rfl
@[simp] theorem State.updLaunch_fields (s : State) (l : Nat) (f : Launch → Launch) : (s.updLaunch l f).fields = s.fields := rfl
@[simp] theorem State.updLaunch_stackTemp (s : State) (l : Nat) (f : Launch → Launch) : (s.updLaunch l f).stackTemp = s.stackTemp := rfl
@[simp] theorem State.updLaunch_votes (s : State) (l : Nat) (f : Launch → Launch) : (s.updLaunch l f).votes = s.votes := rfl
@[simp] theorem State.updLaunch_pools (s : State) (l : Nat) (f : Launch → Launch) : (s.updLaunch l f).pools = s.pools := rfl
@[simp] theorem State.updLaunch_vds (s : State) (l : Nat) (f : Launch → Launch) : (s.updLaunch l f).vds = s.vds := rfl
@[simp] theorem State.updLaunch_netctl (s : State) (l : Nat) (f : Launch → Launch) : (s.updLaunch l f).netctl = s.netctl := rfl
@[simp] theorem State.updLaunch_modid (s : State) (l : Nat) (f : Launch → Launch) : (s.updLaunch l f).modid = s.modid := rfl
@[simp] theorem State.updLaunch_injallow (s : State) (l : Nat) (f : Launch → Launch) : (s.updLaunch l f).injallow = s.injallow := rfl
@[simp] theorem State.updLaunch_cmd (s : State) (l : Nat) (f : Launch → Launch) : (s.updLaunch l f).cmd = s.cmd := rfl
@[simp] theorem State.updLaunch_cmdstat (s : State) (l : Nat) (f : Launch → Launch) : (s.updLaunch l f).cmdstat = s.cmdstat := rfl
@[simp] theorem State.updLaunch_cmdWait (s : State) (l : Nat) (f : Launch → Launch) : (s.updLaunch l f).cmdWait = s.cmdWait := rfl
@[simp] theorem State.updLaunch_bootStep (s : State) (l : Nat) (f : Launch → Launch) : (s.updLaunch l f).bootStep = s.bootStep := rfl
@[simp] theorem State.updLaunch_bootState (s : State) (l : Nat) (f : Launch → Launch) : (s.updLaunch l f).bootState = s.bootState := rfl
@[simp] theorem State.updLaunch_route (s : State) (l : Nat) (f : Launch → Launch) : (s.updLaunch l f).route = s.route := rfl
@[simp] theorem State.updLaunch_dbgcert (s : State) (l : Nat) (f : Launch → Launch) : (s.updLaunch l f).dbgcert = s.dbgcert := rfl
@[simp] theorem State.updLaunch_linkUp (s : State) (l : Nat) (f : Launch → Launch) : (s.updLaunch l f).linkUp = s.linkUp := rfl
@[simp] theorem State.updLaunch_primary (s : State) (l : Nat) (f : Launch → Launch) : (s.updLaunch l f).primary = s.primary := rfl
@[simp] theorem State.updLaunch_portsDown (s : State) (l : Nat) (f : Launch → Launch) : (s.updLaunch l f).portsDown = s.portsDown := rfl
@[simp] theorem State.updLaunch_linkQueue (s : State) (l : Nat) (f : Launch → Launch) : (s.updLaunch l f).linkQueue = s.linkQueue := rfl
@[simp] theorem State.updLaunch_msix (s : State) (l : Nat) (f : Launch → Launch) : (s.updLaunch l f).msix = s.msix := rfl
@[simp] theorem State.updLaunch_msixOut (s : State) (l : Nat) (f : Launch → Launch) : (s.updLaunch l f).msixOut = s.msixOut := rfl
@[simp] theorem State.updLaunch_ports (s : State) (l : Nat) (f : Launch → Launch) : (s.updLaunch l f).ports = s.ports := rfl
@[simp] theorem State.updLaunch_sessions (s : State) (l : Nat) (f : Launch → Launch) : (s.updLaunch l f).sessions = s.sessions := rfl
@[simp] theorem State.updLaunch_errlog (s : State) (l : Nat) (f : Launch → Launch) : (s.updLaunch l f).errlog = s.errlog := rfl
@[simp] theorem State.updLaunch_errSeq (s : State) (l : Nat) (f : Launch → Launch) : (s.updLaunch l f).errSeq = s.errSeq := rfl
@[simp] theorem State.updLaunch_mordA (s : State) (l : Nat) (f : Launch → Launch) : (s.updLaunch l f).mordA = s.mordA := rfl
@[simp] theorem State.updLaunch_mordB (s : State) (l : Nat) (f : Launch → Launch) : (s.updLaunch l f).mordB = s.mordB := rfl
@[simp] theorem State.updLaunch_epoch (s : State) (l : Nat) (f : Launch → Launch) : (s.updLaunch l f).epoch = s.epoch := rfl
@[simp] theorem State.updLaunch_bootEpochDone (s : State) (l : Nat) (f : Launch → Launch) : (s.updLaunch l f).bootEpochDone = s.bootEpochDone := rfl
@[simp] theorem State.updLaunch_tileState (s : State) (l : Nat) (f : Launch → Launch) : (s.updLaunch l f).tileState = s.tileState := rfl
@[simp] theorem State.updLaunch_bankOut (s : State) (l : Nat) (f : Launch → Launch) : (s.updLaunch l f).bankOut = s.bankOut := rfl
@[simp] theorem State.updLaunch_pcgOut (s : State) (l : Nat) (f : Launch → Launch) : (s.updLaunch l f).pcgOut = s.pcgOut := rfl
@[simp] theorem State.updLaunch_sliceOut (s : State) (l : Nat) (f : Launch → Launch) : (s.updLaunch l f).sliceOut = s.sliceOut := rfl
@[simp] theorem State.updLaunch_rowsOut (s : State) (l : Nat) (f : Launch → Launch) : (s.updLaunch l f).rowsOut = s.rowsOut := rfl
@[simp] theorem State.updLaunch_budgetOut (s : State) (l : Nat) (f : Launch → Launch) : (s.updLaunch l f).budgetOut = s.budgetOut := rfl
@[simp] theorem State.updLaunch_corrected (s : State) (l : Nat) (f : Launch → Launch) : (s.updLaunch l f).corrected = s.corrected := rfl
@[simp] theorem State.updLaunch_numberOut (s : State) (l : Nat) (f : Launch → Launch) : (s.updLaunch l f).numberOut = s.numberOut := rfl
@[simp] theorem State.updLaunch_detours (s : State) (l : Nat) (f : Launch → Launch) : (s.updLaunch l f).detours = s.detours := rfl
@[simp] theorem State.updLaunch_idKey (s : State) (l : Nat) (f : Launch → Launch) : (s.updLaunch l f).idKey = s.idKey := rfl
@[simp] theorem State.updLaunch_idCert (s : State) (l : Nat) (f : Launch → Launch) : (s.updLaunch l f).idCert = s.idCert := rfl
@[simp] theorem State.updLaunch_hostOut (s : State) (l : Nat) (f : Launch → Launch) : (s.updLaunch l f).hostOut = s.hostOut := rfl
@[simp] theorem State.updLaunch_spdmError (s : State) (l : Nat) (f : Launch → Launch) : (s.updLaunch l f).spdmError = s.spdmError := rfl
@[simp] theorem State.updLaunch_shipped (s : State) (l : Nat) (f : Launch → Launch) : (s.updLaunch l f).shipped = s.shipped := rfl

/-! ### State.updOp -/

@[simp] theorem State.updOp_cycle (s : State) (id : Nat) (f : Op → Op) : (s.updOp id f).cycle = s.cycle := rfl
@[simp] theorem State.updOp_cur (s : State) (id : Nat) (f : Op → Op) : (s.updOp id f).cur = s.cur := rfl
@[simp] theorem State.updOp_iword (s : State) (id : Nat) (f : Op → Op) : (s.updOp id f).iword = s.iword := rfl
@[simp] theorem State.updOp_input (s : State) (id : Nat) (f : Op → Op) : (s.updOp id f).input = s.input := rfl
@[simp] theorem State.updOp_inputs (s : State) (id : Nat) (f : Op → Op) : (s.updOp id f).inputs = s.inputs := rfl
@[simp] theorem State.updOp_agenda (s : State) (id : Nat) (f : Op → Op) : (s.updOp id f).agenda = s.agenda := rfl
@[simp] theorem State.updOp_nextId (s : State) (id : Nat) (f : Op → Op) : (s.updOp id f).nextId = s.nextId := rfl
@[simp] theorem State.updOp_fresh (s : State) (id : Nat) (f : Op → Op) : (s.updOp id f).fresh = s.fresh := rfl
@[simp] theorem State.updOp_ops (s : State) (id : Nat) (f : Op → Op) : (s.updOp id f).ops = s.ops.upd id f := rfl
@[simp] theorem State.updOp_threads (s : State) (id : Nat) (f : Op → Op) : (s.updOp id f).threads = s.threads := rfl
@[simp] theorem State.updOp_vtiles (s : State) (id : Nat) (f : Op → Op) : (s.updOp id f).vtiles = s.vtiles := rfl
@[simp] theorem State.updOp_lanes (s : State) (id : Nat) (f : Op → Op) : (s.updOp id f).lanes = s.lanes := rfl
@[simp] theorem State.updOp_launches (s : State) (id : Nat) (f : Op → Op) : (s.updOp id f).launches = s.launches := rfl
@[simp] theorem State.updOp_nextLaunch (s : State) (id : Nat) (f : Op → Op) : (s.updOp id f).nextLaunch = s.nextLaunch := rfl
@[simp] theorem State.updOp_hbm (s : State) (id : Nat) (f : Op → Op) : (s.updOp id f).hbm = s.hbm := rfl
@[simp] theorem State.updOp_hbmPoison (s : State) (id : Nat) (f : Op → Op) : (s.updOp id f).hbmPoison = s.hbmPoison := rfl
@[simp] theorem State.updOp_hbmFlips (s : State) (id : Nat) (f : Op → Op) : (s.updOp id f).hbmFlips = s.hbmFlips := rfl
@[simp] theorem State.updOp_hist (s : State) (id : Nat) (f : Op → Op) : (s.updOp id f).hist = s.hist := rfl
@[simp] theorem State.updOp_marks (s : State) (id : Nat) (f : Op → Op) : (s.updOp id f).marks = s.marks := rfl
@[simp] theorem State.updOp_trigs (s : State) (id : Nat) (f : Op → Op) : (s.updOp id f).trigs = s.trigs := rfl
@[simp] theorem State.updOp_ws (s : State) (id : Nat) (f : Op → Op) : (s.updOp id f).ws = s.ws := rfl
@[simp] theorem State.updOp_wsPoison (s : State) (id : Nat) (f : Op → Op) : (s.updOp id f).wsPoison = s.wsPoison := rfl
@[simp] theorem State.updOp_wsFlips (s : State) (id : Nat) (f : Op → Op) : (s.updOp id f).wsFlips = s.wsFlips := rfl
@[simp] theorem State.updOp_pages (s : State) (id : Nat) (f : Op → Op) : (s.updOp id f).pages = s.pages := rfl
@[simp] theorem State.updOp_tlb (s : State) (id : Nat) (f : Op → Op) : (s.updOp id f).tlb = s.tlb := rfl
@[simp] theorem State.updOp_walks (s : State) (id : Nat) (f : Op → Op) : (s.updOp id f).walks = s.walks := rfl
@[simp] theorem State.updOp_missArea (s : State) (id : Nat) (f : Op → Op) : (s.updOp id f).missArea = s.missArea := rfl
@[simp] theorem State.updOp_moves (s : State) (id : Nat) (f : Op → Op) : (s.updOp id f).moves = s.moves := rfl
@[simp] theorem State.updOp_fields (s : State) (id : Nat) (f : Op → Op) : (s.updOp id f).fields = s.fields := rfl
@[simp] theorem State.updOp_stackTemp (s : State) (id : Nat) (f : Op → Op) : (s.updOp id f).stackTemp = s.stackTemp := rfl
@[simp] theorem State.updOp_votes (s : State) (id : Nat) (f : Op → Op) : (s.updOp id f).votes = s.votes := rfl
@[simp] theorem State.updOp_pools (s : State) (id : Nat) (f : Op → Op) : (s.updOp id f).pools = s.pools := rfl
@[simp] theorem State.updOp_vds (s : State) (id : Nat) (f : Op → Op) : (s.updOp id f).vds = s.vds := rfl
@[simp] theorem State.updOp_netctl (s : State) (id : Nat) (f : Op → Op) : (s.updOp id f).netctl = s.netctl := rfl
@[simp] theorem State.updOp_modid (s : State) (id : Nat) (f : Op → Op) : (s.updOp id f).modid = s.modid := rfl
@[simp] theorem State.updOp_injallow (s : State) (id : Nat) (f : Op → Op) : (s.updOp id f).injallow = s.injallow := rfl
@[simp] theorem State.updOp_cmd (s : State) (id : Nat) (f : Op → Op) : (s.updOp id f).cmd = s.cmd := rfl
@[simp] theorem State.updOp_cmdstat (s : State) (id : Nat) (f : Op → Op) : (s.updOp id f).cmdstat = s.cmdstat := rfl
@[simp] theorem State.updOp_cmdWait (s : State) (id : Nat) (f : Op → Op) : (s.updOp id f).cmdWait = s.cmdWait := rfl
@[simp] theorem State.updOp_bootStep (s : State) (id : Nat) (f : Op → Op) : (s.updOp id f).bootStep = s.bootStep := rfl
@[simp] theorem State.updOp_bootState (s : State) (id : Nat) (f : Op → Op) : (s.updOp id f).bootState = s.bootState := rfl
@[simp] theorem State.updOp_route (s : State) (id : Nat) (f : Op → Op) : (s.updOp id f).route = s.route := rfl
@[simp] theorem State.updOp_dbgcert (s : State) (id : Nat) (f : Op → Op) : (s.updOp id f).dbgcert = s.dbgcert := rfl
@[simp] theorem State.updOp_linkUp (s : State) (id : Nat) (f : Op → Op) : (s.updOp id f).linkUp = s.linkUp := rfl
@[simp] theorem State.updOp_primary (s : State) (id : Nat) (f : Op → Op) : (s.updOp id f).primary = s.primary := rfl
@[simp] theorem State.updOp_portsDown (s : State) (id : Nat) (f : Op → Op) : (s.updOp id f).portsDown = s.portsDown := rfl
@[simp] theorem State.updOp_linkQueue (s : State) (id : Nat) (f : Op → Op) : (s.updOp id f).linkQueue = s.linkQueue := rfl
@[simp] theorem State.updOp_msix (s : State) (id : Nat) (f : Op → Op) : (s.updOp id f).msix = s.msix := rfl
@[simp] theorem State.updOp_msixOut (s : State) (id : Nat) (f : Op → Op) : (s.updOp id f).msixOut = s.msixOut := rfl
@[simp] theorem State.updOp_ports (s : State) (id : Nat) (f : Op → Op) : (s.updOp id f).ports = s.ports := rfl
@[simp] theorem State.updOp_sessions (s : State) (id : Nat) (f : Op → Op) : (s.updOp id f).sessions = s.sessions := rfl
@[simp] theorem State.updOp_errlog (s : State) (id : Nat) (f : Op → Op) : (s.updOp id f).errlog = s.errlog := rfl
@[simp] theorem State.updOp_errSeq (s : State) (id : Nat) (f : Op → Op) : (s.updOp id f).errSeq = s.errSeq := rfl
@[simp] theorem State.updOp_mordA (s : State) (id : Nat) (f : Op → Op) : (s.updOp id f).mordA = s.mordA := rfl
@[simp] theorem State.updOp_mordB (s : State) (id : Nat) (f : Op → Op) : (s.updOp id f).mordB = s.mordB := rfl
@[simp] theorem State.updOp_epoch (s : State) (id : Nat) (f : Op → Op) : (s.updOp id f).epoch = s.epoch := rfl
@[simp] theorem State.updOp_bootEpochDone (s : State) (id : Nat) (f : Op → Op) : (s.updOp id f).bootEpochDone = s.bootEpochDone := rfl
@[simp] theorem State.updOp_tileState (s : State) (id : Nat) (f : Op → Op) : (s.updOp id f).tileState = s.tileState := rfl
@[simp] theorem State.updOp_bankOut (s : State) (id : Nat) (f : Op → Op) : (s.updOp id f).bankOut = s.bankOut := rfl
@[simp] theorem State.updOp_pcgOut (s : State) (id : Nat) (f : Op → Op) : (s.updOp id f).pcgOut = s.pcgOut := rfl
@[simp] theorem State.updOp_sliceOut (s : State) (id : Nat) (f : Op → Op) : (s.updOp id f).sliceOut = s.sliceOut := rfl
@[simp] theorem State.updOp_rowsOut (s : State) (id : Nat) (f : Op → Op) : (s.updOp id f).rowsOut = s.rowsOut := rfl
@[simp] theorem State.updOp_budgetOut (s : State) (id : Nat) (f : Op → Op) : (s.updOp id f).budgetOut = s.budgetOut := rfl
@[simp] theorem State.updOp_corrected (s : State) (id : Nat) (f : Op → Op) : (s.updOp id f).corrected = s.corrected := rfl
@[simp] theorem State.updOp_numberOut (s : State) (id : Nat) (f : Op → Op) : (s.updOp id f).numberOut = s.numberOut := rfl
@[simp] theorem State.updOp_detours (s : State) (id : Nat) (f : Op → Op) : (s.updOp id f).detours = s.detours := rfl
@[simp] theorem State.updOp_idKey (s : State) (id : Nat) (f : Op → Op) : (s.updOp id f).idKey = s.idKey := rfl
@[simp] theorem State.updOp_idCert (s : State) (id : Nat) (f : Op → Op) : (s.updOp id f).idCert = s.idCert := rfl
@[simp] theorem State.updOp_hostOut (s : State) (id : Nat) (f : Op → Op) : (s.updOp id f).hostOut = s.hostOut := rfl
@[simp] theorem State.updOp_spdmError (s : State) (id : Nat) (f : Op → Op) : (s.updOp id f).spdmError = s.spdmError := rfl
@[simp] theorem State.updOp_shipped (s : State) (id : Nat) (f : Op → Op) : (s.updOp id f).shipped = s.shipped := rfl

/-! ### State.updLane -/

@[simp] theorem State.updLane_cycle (s : State) (r : TRef) (f : Lane → Lane) : (s.updLane r f).cycle = s.cycle := rfl
@[simp] theorem State.updLane_cur (s : State) (r : TRef) (f : Lane → Lane) : (s.updLane r f).cur = s.cur := rfl
@[simp] theorem State.updLane_iword (s : State) (r : TRef) (f : Lane → Lane) : (s.updLane r f).iword = s.iword := rfl
@[simp] theorem State.updLane_input (s : State) (r : TRef) (f : Lane → Lane) : (s.updLane r f).input = s.input := rfl
@[simp] theorem State.updLane_inputs (s : State) (r : TRef) (f : Lane → Lane) : (s.updLane r f).inputs = s.inputs := rfl
@[simp] theorem State.updLane_agenda (s : State) (r : TRef) (f : Lane → Lane) : (s.updLane r f).agenda = s.agenda := rfl
@[simp] theorem State.updLane_nextId (s : State) (r : TRef) (f : Lane → Lane) : (s.updLane r f).nextId = s.nextId := rfl
@[simp] theorem State.updLane_fresh (s : State) (r : TRef) (f : Lane → Lane) : (s.updLane r f).fresh = s.fresh := rfl
@[simp] theorem State.updLane_ops (s : State) (r : TRef) (f : Lane → Lane) : (s.updLane r f).ops = s.ops := rfl
@[simp] theorem State.updLane_threads (s : State) (r : TRef) (f : Lane → Lane) : (s.updLane r f).threads = s.threads := rfl
@[simp] theorem State.updLane_vtiles (s : State) (r : TRef) (f : Lane → Lane) : (s.updLane r f).vtiles = s.vtiles := rfl
@[simp] theorem State.updLane_lanes (s : State) (r : TRef) (f : Lane → Lane) : (s.updLane r f).lanes = s.lanes.upd r f := rfl
@[simp] theorem State.updLane_launches (s : State) (r : TRef) (f : Lane → Lane) : (s.updLane r f).launches = s.launches := rfl
@[simp] theorem State.updLane_nextLaunch (s : State) (r : TRef) (f : Lane → Lane) : (s.updLane r f).nextLaunch = s.nextLaunch := rfl
@[simp] theorem State.updLane_hbm (s : State) (r : TRef) (f : Lane → Lane) : (s.updLane r f).hbm = s.hbm := rfl
@[simp] theorem State.updLane_hbmPoison (s : State) (r : TRef) (f : Lane → Lane) : (s.updLane r f).hbmPoison = s.hbmPoison := rfl
@[simp] theorem State.updLane_hbmFlips (s : State) (r : TRef) (f : Lane → Lane) : (s.updLane r f).hbmFlips = s.hbmFlips := rfl
@[simp] theorem State.updLane_hist (s : State) (r : TRef) (f : Lane → Lane) : (s.updLane r f).hist = s.hist := rfl
@[simp] theorem State.updLane_marks (s : State) (r : TRef) (f : Lane → Lane) : (s.updLane r f).marks = s.marks := rfl
@[simp] theorem State.updLane_trigs (s : State) (r : TRef) (f : Lane → Lane) : (s.updLane r f).trigs = s.trigs := rfl
@[simp] theorem State.updLane_ws (s : State) (r : TRef) (f : Lane → Lane) : (s.updLane r f).ws = s.ws := rfl
@[simp] theorem State.updLane_wsPoison (s : State) (r : TRef) (f : Lane → Lane) : (s.updLane r f).wsPoison = s.wsPoison := rfl
@[simp] theorem State.updLane_wsFlips (s : State) (r : TRef) (f : Lane → Lane) : (s.updLane r f).wsFlips = s.wsFlips := rfl
@[simp] theorem State.updLane_pages (s : State) (r : TRef) (f : Lane → Lane) : (s.updLane r f).pages = s.pages := rfl
@[simp] theorem State.updLane_tlb (s : State) (r : TRef) (f : Lane → Lane) : (s.updLane r f).tlb = s.tlb := rfl
@[simp] theorem State.updLane_walks (s : State) (r : TRef) (f : Lane → Lane) : (s.updLane r f).walks = s.walks := rfl
@[simp] theorem State.updLane_missArea (s : State) (r : TRef) (f : Lane → Lane) : (s.updLane r f).missArea = s.missArea := rfl
@[simp] theorem State.updLane_moves (s : State) (r : TRef) (f : Lane → Lane) : (s.updLane r f).moves = s.moves := rfl
@[simp] theorem State.updLane_fields (s : State) (r : TRef) (f : Lane → Lane) : (s.updLane r f).fields = s.fields := rfl
@[simp] theorem State.updLane_stackTemp (s : State) (r : TRef) (f : Lane → Lane) : (s.updLane r f).stackTemp = s.stackTemp := rfl
@[simp] theorem State.updLane_votes (s : State) (r : TRef) (f : Lane → Lane) : (s.updLane r f).votes = s.votes := rfl
@[simp] theorem State.updLane_pools (s : State) (r : TRef) (f : Lane → Lane) : (s.updLane r f).pools = s.pools := rfl
@[simp] theorem State.updLane_vds (s : State) (r : TRef) (f : Lane → Lane) : (s.updLane r f).vds = s.vds := rfl
@[simp] theorem State.updLane_netctl (s : State) (r : TRef) (f : Lane → Lane) : (s.updLane r f).netctl = s.netctl := rfl
@[simp] theorem State.updLane_modid (s : State) (r : TRef) (f : Lane → Lane) : (s.updLane r f).modid = s.modid := rfl
@[simp] theorem State.updLane_injallow (s : State) (r : TRef) (f : Lane → Lane) : (s.updLane r f).injallow = s.injallow := rfl
@[simp] theorem State.updLane_cmd (s : State) (r : TRef) (f : Lane → Lane) : (s.updLane r f).cmd = s.cmd := rfl
@[simp] theorem State.updLane_cmdstat (s : State) (r : TRef) (f : Lane → Lane) : (s.updLane r f).cmdstat = s.cmdstat := rfl
@[simp] theorem State.updLane_cmdWait (s : State) (r : TRef) (f : Lane → Lane) : (s.updLane r f).cmdWait = s.cmdWait := rfl
@[simp] theorem State.updLane_bootStep (s : State) (r : TRef) (f : Lane → Lane) : (s.updLane r f).bootStep = s.bootStep := rfl
@[simp] theorem State.updLane_bootState (s : State) (r : TRef) (f : Lane → Lane) : (s.updLane r f).bootState = s.bootState := rfl
@[simp] theorem State.updLane_route (s : State) (r : TRef) (f : Lane → Lane) : (s.updLane r f).route = s.route := rfl
@[simp] theorem State.updLane_dbgcert (s : State) (r : TRef) (f : Lane → Lane) : (s.updLane r f).dbgcert = s.dbgcert := rfl
@[simp] theorem State.updLane_linkUp (s : State) (r : TRef) (f : Lane → Lane) : (s.updLane r f).linkUp = s.linkUp := rfl
@[simp] theorem State.updLane_primary (s : State) (r : TRef) (f : Lane → Lane) : (s.updLane r f).primary = s.primary := rfl
@[simp] theorem State.updLane_portsDown (s : State) (r : TRef) (f : Lane → Lane) : (s.updLane r f).portsDown = s.portsDown := rfl
@[simp] theorem State.updLane_linkQueue (s : State) (r : TRef) (f : Lane → Lane) : (s.updLane r f).linkQueue = s.linkQueue := rfl
@[simp] theorem State.updLane_msix (s : State) (r : TRef) (f : Lane → Lane) : (s.updLane r f).msix = s.msix := rfl
@[simp] theorem State.updLane_msixOut (s : State) (r : TRef) (f : Lane → Lane) : (s.updLane r f).msixOut = s.msixOut := rfl
@[simp] theorem State.updLane_ports (s : State) (r : TRef) (f : Lane → Lane) : (s.updLane r f).ports = s.ports := rfl
@[simp] theorem State.updLane_sessions (s : State) (r : TRef) (f : Lane → Lane) : (s.updLane r f).sessions = s.sessions := rfl
@[simp] theorem State.updLane_errlog (s : State) (r : TRef) (f : Lane → Lane) : (s.updLane r f).errlog = s.errlog := rfl
@[simp] theorem State.updLane_errSeq (s : State) (r : TRef) (f : Lane → Lane) : (s.updLane r f).errSeq = s.errSeq := rfl
@[simp] theorem State.updLane_mordA (s : State) (r : TRef) (f : Lane → Lane) : (s.updLane r f).mordA = s.mordA := rfl
@[simp] theorem State.updLane_mordB (s : State) (r : TRef) (f : Lane → Lane) : (s.updLane r f).mordB = s.mordB := rfl
@[simp] theorem State.updLane_epoch (s : State) (r : TRef) (f : Lane → Lane) : (s.updLane r f).epoch = s.epoch := rfl
@[simp] theorem State.updLane_bootEpochDone (s : State) (r : TRef) (f : Lane → Lane) : (s.updLane r f).bootEpochDone = s.bootEpochDone := rfl
@[simp] theorem State.updLane_tileState (s : State) (r : TRef) (f : Lane → Lane) : (s.updLane r f).tileState = s.tileState := rfl
@[simp] theorem State.updLane_bankOut (s : State) (r : TRef) (f : Lane → Lane) : (s.updLane r f).bankOut = s.bankOut := rfl
@[simp] theorem State.updLane_pcgOut (s : State) (r : TRef) (f : Lane → Lane) : (s.updLane r f).pcgOut = s.pcgOut := rfl
@[simp] theorem State.updLane_sliceOut (s : State) (r : TRef) (f : Lane → Lane) : (s.updLane r f).sliceOut = s.sliceOut := rfl
@[simp] theorem State.updLane_rowsOut (s : State) (r : TRef) (f : Lane → Lane) : (s.updLane r f).rowsOut = s.rowsOut := rfl
@[simp] theorem State.updLane_budgetOut (s : State) (r : TRef) (f : Lane → Lane) : (s.updLane r f).budgetOut = s.budgetOut := rfl
@[simp] theorem State.updLane_corrected (s : State) (r : TRef) (f : Lane → Lane) : (s.updLane r f).corrected = s.corrected := rfl
@[simp] theorem State.updLane_numberOut (s : State) (r : TRef) (f : Lane → Lane) : (s.updLane r f).numberOut = s.numberOut := rfl
@[simp] theorem State.updLane_detours (s : State) (r : TRef) (f : Lane → Lane) : (s.updLane r f).detours = s.detours := rfl
@[simp] theorem State.updLane_idKey (s : State) (r : TRef) (f : Lane → Lane) : (s.updLane r f).idKey = s.idKey := rfl
@[simp] theorem State.updLane_idCert (s : State) (r : TRef) (f : Lane → Lane) : (s.updLane r f).idCert = s.idCert := rfl
@[simp] theorem State.updLane_hostOut (s : State) (r : TRef) (f : Lane → Lane) : (s.updLane r f).hostOut = s.hostOut := rfl
@[simp] theorem State.updLane_spdmError (s : State) (r : TRef) (f : Lane → Lane) : (s.updLane r f).spdmError = s.spdmError := rfl
@[simp] theorem State.updLane_shipped (s : State) (r : TRef) (f : Lane → Lane) : (s.updLane r f).shipped = s.shipped := rfl

/-! ### State.dropOp -/

@[simp] theorem State.dropOp_cycle (s : State) (id : Nat) : (s.dropOp id).cycle = s.cycle := rfl
@[simp] theorem State.dropOp_cur (s : State) (id : Nat) : (s.dropOp id).cur = s.cur := rfl
@[simp] theorem State.dropOp_iword (s : State) (id : Nat) : (s.dropOp id).iword = s.iword := rfl
@[simp] theorem State.dropOp_input (s : State) (id : Nat) : (s.dropOp id).input = s.input := rfl
@[simp] theorem State.dropOp_inputs (s : State) (id : Nat) : (s.dropOp id).inputs = s.inputs := rfl
@[simp] theorem State.dropOp_agenda (s : State) (id : Nat) : (s.dropOp id).agenda = s.agenda := rfl
@[simp] theorem State.dropOp_nextId (s : State) (id : Nat) : (s.dropOp id).nextId = s.nextId := rfl
@[simp] theorem State.dropOp_fresh (s : State) (id : Nat) : (s.dropOp id).fresh = s.fresh := rfl
@[simp] theorem State.dropOp_ops (s : State) (id : Nat) : (s.dropOp id).ops = s.ops.del id := rfl
@[simp] theorem State.dropOp_threads (s : State) (id : Nat) : (s.dropOp id).threads = s.threads := rfl
@[simp] theorem State.dropOp_vtiles (s : State) (id : Nat) : (s.dropOp id).vtiles = s.vtiles := rfl
@[simp] theorem State.dropOp_lanes (s : State) (id : Nat) : (s.dropOp id).lanes = s.lanes := rfl
@[simp] theorem State.dropOp_launches (s : State) (id : Nat) : (s.dropOp id).launches = s.launches := rfl
@[simp] theorem State.dropOp_nextLaunch (s : State) (id : Nat) : (s.dropOp id).nextLaunch = s.nextLaunch := rfl
@[simp] theorem State.dropOp_hbm (s : State) (id : Nat) : (s.dropOp id).hbm = s.hbm := rfl
@[simp] theorem State.dropOp_hbmPoison (s : State) (id : Nat) : (s.dropOp id).hbmPoison = s.hbmPoison := rfl
@[simp] theorem State.dropOp_hbmFlips (s : State) (id : Nat) : (s.dropOp id).hbmFlips = s.hbmFlips := rfl
@[simp] theorem State.dropOp_hist (s : State) (id : Nat) : (s.dropOp id).hist = s.hist := rfl
@[simp] theorem State.dropOp_marks (s : State) (id : Nat) : (s.dropOp id).marks = s.marks := rfl
@[simp] theorem State.dropOp_trigs (s : State) (id : Nat) : (s.dropOp id).trigs = s.trigs := rfl
@[simp] theorem State.dropOp_ws (s : State) (id : Nat) : (s.dropOp id).ws = s.ws := rfl
@[simp] theorem State.dropOp_wsPoison (s : State) (id : Nat) : (s.dropOp id).wsPoison = s.wsPoison := rfl
@[simp] theorem State.dropOp_wsFlips (s : State) (id : Nat) : (s.dropOp id).wsFlips = s.wsFlips := rfl
@[simp] theorem State.dropOp_pages (s : State) (id : Nat) : (s.dropOp id).pages = s.pages := rfl
@[simp] theorem State.dropOp_tlb (s : State) (id : Nat) : (s.dropOp id).tlb = s.tlb := rfl
@[simp] theorem State.dropOp_walks (s : State) (id : Nat) : (s.dropOp id).walks = s.walks := rfl
@[simp] theorem State.dropOp_missArea (s : State) (id : Nat) : (s.dropOp id).missArea = s.missArea := rfl
@[simp] theorem State.dropOp_moves (s : State) (id : Nat) : (s.dropOp id).moves = s.moves := rfl
@[simp] theorem State.dropOp_fields (s : State) (id : Nat) : (s.dropOp id).fields = s.fields := rfl
@[simp] theorem State.dropOp_stackTemp (s : State) (id : Nat) : (s.dropOp id).stackTemp = s.stackTemp := rfl
@[simp] theorem State.dropOp_votes (s : State) (id : Nat) : (s.dropOp id).votes = s.votes := rfl
@[simp] theorem State.dropOp_pools (s : State) (id : Nat) : (s.dropOp id).pools = s.pools := rfl
@[simp] theorem State.dropOp_vds (s : State) (id : Nat) : (s.dropOp id).vds = s.vds := rfl
@[simp] theorem State.dropOp_netctl (s : State) (id : Nat) : (s.dropOp id).netctl = s.netctl := rfl
@[simp] theorem State.dropOp_modid (s : State) (id : Nat) : (s.dropOp id).modid = s.modid := rfl
@[simp] theorem State.dropOp_injallow (s : State) (id : Nat) : (s.dropOp id).injallow = s.injallow := rfl
@[simp] theorem State.dropOp_cmd (s : State) (id : Nat) : (s.dropOp id).cmd = s.cmd := rfl
@[simp] theorem State.dropOp_cmdstat (s : State) (id : Nat) : (s.dropOp id).cmdstat = s.cmdstat := rfl
@[simp] theorem State.dropOp_cmdWait (s : State) (id : Nat) : (s.dropOp id).cmdWait = s.cmdWait := rfl
@[simp] theorem State.dropOp_bootStep (s : State) (id : Nat) : (s.dropOp id).bootStep = s.bootStep := rfl
@[simp] theorem State.dropOp_bootState (s : State) (id : Nat) : (s.dropOp id).bootState = s.bootState := rfl
@[simp] theorem State.dropOp_route (s : State) (id : Nat) : (s.dropOp id).route = s.route := rfl
@[simp] theorem State.dropOp_dbgcert (s : State) (id : Nat) : (s.dropOp id).dbgcert = s.dbgcert := rfl
@[simp] theorem State.dropOp_linkUp (s : State) (id : Nat) : (s.dropOp id).linkUp = s.linkUp := rfl
@[simp] theorem State.dropOp_primary (s : State) (id : Nat) : (s.dropOp id).primary = s.primary := rfl
@[simp] theorem State.dropOp_portsDown (s : State) (id : Nat) : (s.dropOp id).portsDown = s.portsDown := rfl
@[simp] theorem State.dropOp_linkQueue (s : State) (id : Nat) : (s.dropOp id).linkQueue = s.linkQueue := rfl
@[simp] theorem State.dropOp_msix (s : State) (id : Nat) : (s.dropOp id).msix = s.msix := rfl
@[simp] theorem State.dropOp_msixOut (s : State) (id : Nat) : (s.dropOp id).msixOut = s.msixOut := rfl
@[simp] theorem State.dropOp_ports (s : State) (id : Nat) : (s.dropOp id).ports = s.ports := rfl
@[simp] theorem State.dropOp_sessions (s : State) (id : Nat) : (s.dropOp id).sessions = s.sessions := rfl
@[simp] theorem State.dropOp_errlog (s : State) (id : Nat) : (s.dropOp id).errlog = s.errlog := rfl
@[simp] theorem State.dropOp_errSeq (s : State) (id : Nat) : (s.dropOp id).errSeq = s.errSeq := rfl
@[simp] theorem State.dropOp_mordA (s : State) (id : Nat) : (s.dropOp id).mordA = s.mordA := rfl
@[simp] theorem State.dropOp_mordB (s : State) (id : Nat) : (s.dropOp id).mordB = s.mordB := rfl
@[simp] theorem State.dropOp_epoch (s : State) (id : Nat) : (s.dropOp id).epoch = s.epoch := rfl
@[simp] theorem State.dropOp_bootEpochDone (s : State) (id : Nat) : (s.dropOp id).bootEpochDone = s.bootEpochDone := rfl
@[simp] theorem State.dropOp_tileState (s : State) (id : Nat) : (s.dropOp id).tileState = s.tileState := rfl
@[simp] theorem State.dropOp_bankOut (s : State) (id : Nat) : (s.dropOp id).bankOut = s.bankOut := rfl
@[simp] theorem State.dropOp_pcgOut (s : State) (id : Nat) : (s.dropOp id).pcgOut = s.pcgOut := rfl
@[simp] theorem State.dropOp_sliceOut (s : State) (id : Nat) : (s.dropOp id).sliceOut = s.sliceOut := rfl
@[simp] theorem State.dropOp_rowsOut (s : State) (id : Nat) : (s.dropOp id).rowsOut = s.rowsOut := rfl
@[simp] theorem State.dropOp_budgetOut (s : State) (id : Nat) : (s.dropOp id).budgetOut = s.budgetOut := rfl
@[simp] theorem State.dropOp_corrected (s : State) (id : Nat) : (s.dropOp id).corrected = s.corrected := rfl
@[simp] theorem State.dropOp_numberOut (s : State) (id : Nat) : (s.dropOp id).numberOut = s.numberOut := rfl
@[simp] theorem State.dropOp_detours (s : State) (id : Nat) : (s.dropOp id).detours = s.detours := rfl
@[simp] theorem State.dropOp_idKey (s : State) (id : Nat) : (s.dropOp id).idKey = s.idKey := rfl
@[simp] theorem State.dropOp_idCert (s : State) (id : Nat) : (s.dropOp id).idCert = s.idCert := rfl
@[simp] theorem State.dropOp_hostOut (s : State) (id : Nat) : (s.dropOp id).hostOut = s.hostOut := rfl
@[simp] theorem State.dropOp_spdmError (s : State) (id : Nat) : (s.dropOp id).spdmError = s.spdmError := rfl
@[simp] theorem State.dropOp_shipped (s : State) (id : Nat) : (s.dropOp id).shipped = s.shipped := rfl

/-! ### State.updVd -/

@[simp] theorem State.updVd_cycle (s : State) (n : Nat) (f : Vd → Vd) : (s.updVd n f).cycle = s.cycle := rfl
@[simp] theorem State.updVd_cur (s : State) (n : Nat) (f : Vd → Vd) : (s.updVd n f).cur = s.cur := rfl
@[simp] theorem State.updVd_iword (s : State) (n : Nat) (f : Vd → Vd) : (s.updVd n f).iword = s.iword := rfl
@[simp] theorem State.updVd_input (s : State) (n : Nat) (f : Vd → Vd) : (s.updVd n f).input = s.input := rfl
@[simp] theorem State.updVd_inputs (s : State) (n : Nat) (f : Vd → Vd) : (s.updVd n f).inputs = s.inputs := rfl
@[simp] theorem State.updVd_agenda (s : State) (n : Nat) (f : Vd → Vd) : (s.updVd n f).agenda = s.agenda := rfl
@[simp] theorem State.updVd_nextId (s : State) (n : Nat) (f : Vd → Vd) : (s.updVd n f).nextId = s.nextId := rfl
@[simp] theorem State.updVd_fresh (s : State) (n : Nat) (f : Vd → Vd) : (s.updVd n f).fresh = s.fresh := rfl
@[simp] theorem State.updVd_ops (s : State) (n : Nat) (f : Vd → Vd) : (s.updVd n f).ops = s.ops := rfl
@[simp] theorem State.updVd_threads (s : State) (n : Nat) (f : Vd → Vd) : (s.updVd n f).threads = s.threads := rfl
@[simp] theorem State.updVd_vtiles (s : State) (n : Nat) (f : Vd → Vd) : (s.updVd n f).vtiles = s.vtiles := rfl
@[simp] theorem State.updVd_lanes (s : State) (n : Nat) (f : Vd → Vd) : (s.updVd n f).lanes = s.lanes := rfl
@[simp] theorem State.updVd_launches (s : State) (n : Nat) (f : Vd → Vd) : (s.updVd n f).launches = s.launches := rfl
@[simp] theorem State.updVd_nextLaunch (s : State) (n : Nat) (f : Vd → Vd) : (s.updVd n f).nextLaunch = s.nextLaunch := rfl
@[simp] theorem State.updVd_hbm (s : State) (n : Nat) (f : Vd → Vd) : (s.updVd n f).hbm = s.hbm := rfl
@[simp] theorem State.updVd_hbmPoison (s : State) (n : Nat) (f : Vd → Vd) : (s.updVd n f).hbmPoison = s.hbmPoison := rfl
@[simp] theorem State.updVd_hbmFlips (s : State) (n : Nat) (f : Vd → Vd) : (s.updVd n f).hbmFlips = s.hbmFlips := rfl
@[simp] theorem State.updVd_hist (s : State) (n : Nat) (f : Vd → Vd) : (s.updVd n f).hist = s.hist := rfl
@[simp] theorem State.updVd_marks (s : State) (n : Nat) (f : Vd → Vd) : (s.updVd n f).marks = s.marks := rfl
@[simp] theorem State.updVd_trigs (s : State) (n : Nat) (f : Vd → Vd) : (s.updVd n f).trigs = s.trigs := rfl
@[simp] theorem State.updVd_ws (s : State) (n : Nat) (f : Vd → Vd) : (s.updVd n f).ws = s.ws := rfl
@[simp] theorem State.updVd_wsPoison (s : State) (n : Nat) (f : Vd → Vd) : (s.updVd n f).wsPoison = s.wsPoison := rfl
@[simp] theorem State.updVd_wsFlips (s : State) (n : Nat) (f : Vd → Vd) : (s.updVd n f).wsFlips = s.wsFlips := rfl
@[simp] theorem State.updVd_pages (s : State) (n : Nat) (f : Vd → Vd) : (s.updVd n f).pages = s.pages := rfl
@[simp] theorem State.updVd_tlb (s : State) (n : Nat) (f : Vd → Vd) : (s.updVd n f).tlb = s.tlb := rfl
@[simp] theorem State.updVd_walks (s : State) (n : Nat) (f : Vd → Vd) : (s.updVd n f).walks = s.walks := rfl
@[simp] theorem State.updVd_missArea (s : State) (n : Nat) (f : Vd → Vd) : (s.updVd n f).missArea = s.missArea := rfl
@[simp] theorem State.updVd_moves (s : State) (n : Nat) (f : Vd → Vd) : (s.updVd n f).moves = s.moves := rfl
@[simp] theorem State.updVd_fields (s : State) (n : Nat) (f : Vd → Vd) : (s.updVd n f).fields = s.fields := rfl
@[simp] theorem State.updVd_stackTemp (s : State) (n : Nat) (f : Vd → Vd) : (s.updVd n f).stackTemp = s.stackTemp := rfl
@[simp] theorem State.updVd_votes (s : State) (n : Nat) (f : Vd → Vd) : (s.updVd n f).votes = s.votes := rfl
@[simp] theorem State.updVd_pools (s : State) (n : Nat) (f : Vd → Vd) : (s.updVd n f).pools = s.pools := rfl
@[simp] theorem State.updVd_vds (s : State) (n : Nat) (f : Vd → Vd) : (s.updVd n f).vds = s.vds.set n (f (s.vdRec n)) := rfl
@[simp] theorem State.updVd_netctl (s : State) (n : Nat) (f : Vd → Vd) : (s.updVd n f).netctl = s.netctl := rfl
@[simp] theorem State.updVd_modid (s : State) (n : Nat) (f : Vd → Vd) : (s.updVd n f).modid = s.modid := rfl
@[simp] theorem State.updVd_injallow (s : State) (n : Nat) (f : Vd → Vd) : (s.updVd n f).injallow = s.injallow := rfl
@[simp] theorem State.updVd_cmd (s : State) (n : Nat) (f : Vd → Vd) : (s.updVd n f).cmd = s.cmd := rfl
@[simp] theorem State.updVd_cmdstat (s : State) (n : Nat) (f : Vd → Vd) : (s.updVd n f).cmdstat = s.cmdstat := rfl
@[simp] theorem State.updVd_cmdWait (s : State) (n : Nat) (f : Vd → Vd) : (s.updVd n f).cmdWait = s.cmdWait := rfl
@[simp] theorem State.updVd_bootStep (s : State) (n : Nat) (f : Vd → Vd) : (s.updVd n f).bootStep = s.bootStep := rfl
@[simp] theorem State.updVd_bootState (s : State) (n : Nat) (f : Vd → Vd) : (s.updVd n f).bootState = s.bootState := rfl
@[simp] theorem State.updVd_route (s : State) (n : Nat) (f : Vd → Vd) : (s.updVd n f).route = s.route := rfl
@[simp] theorem State.updVd_dbgcert (s : State) (n : Nat) (f : Vd → Vd) : (s.updVd n f).dbgcert = s.dbgcert := rfl
@[simp] theorem State.updVd_linkUp (s : State) (n : Nat) (f : Vd → Vd) : (s.updVd n f).linkUp = s.linkUp := rfl
@[simp] theorem State.updVd_primary (s : State) (n : Nat) (f : Vd → Vd) : (s.updVd n f).primary = s.primary := rfl
@[simp] theorem State.updVd_portsDown (s : State) (n : Nat) (f : Vd → Vd) : (s.updVd n f).portsDown = s.portsDown := rfl
@[simp] theorem State.updVd_linkQueue (s : State) (n : Nat) (f : Vd → Vd) : (s.updVd n f).linkQueue = s.linkQueue := rfl
@[simp] theorem State.updVd_msix (s : State) (n : Nat) (f : Vd → Vd) : (s.updVd n f).msix = s.msix := rfl
@[simp] theorem State.updVd_msixOut (s : State) (n : Nat) (f : Vd → Vd) : (s.updVd n f).msixOut = s.msixOut := rfl
@[simp] theorem State.updVd_ports (s : State) (n : Nat) (f : Vd → Vd) : (s.updVd n f).ports = s.ports := rfl
@[simp] theorem State.updVd_sessions (s : State) (n : Nat) (f : Vd → Vd) : (s.updVd n f).sessions = s.sessions := rfl
@[simp] theorem State.updVd_errlog (s : State) (n : Nat) (f : Vd → Vd) : (s.updVd n f).errlog = s.errlog := rfl
@[simp] theorem State.updVd_errSeq (s : State) (n : Nat) (f : Vd → Vd) : (s.updVd n f).errSeq = s.errSeq := rfl
@[simp] theorem State.updVd_mordA (s : State) (n : Nat) (f : Vd → Vd) : (s.updVd n f).mordA = s.mordA := rfl
@[simp] theorem State.updVd_mordB (s : State) (n : Nat) (f : Vd → Vd) : (s.updVd n f).mordB = s.mordB := rfl
@[simp] theorem State.updVd_epoch (s : State) (n : Nat) (f : Vd → Vd) : (s.updVd n f).epoch = s.epoch := rfl
@[simp] theorem State.updVd_bootEpochDone (s : State) (n : Nat) (f : Vd → Vd) : (s.updVd n f).bootEpochDone = s.bootEpochDone := rfl
@[simp] theorem State.updVd_tileState (s : State) (n : Nat) (f : Vd → Vd) : (s.updVd n f).tileState = s.tileState := rfl
@[simp] theorem State.updVd_bankOut (s : State) (n : Nat) (f : Vd → Vd) : (s.updVd n f).bankOut = s.bankOut := rfl
@[simp] theorem State.updVd_pcgOut (s : State) (n : Nat) (f : Vd → Vd) : (s.updVd n f).pcgOut = s.pcgOut := rfl
@[simp] theorem State.updVd_sliceOut (s : State) (n : Nat) (f : Vd → Vd) : (s.updVd n f).sliceOut = s.sliceOut := rfl
@[simp] theorem State.updVd_rowsOut (s : State) (n : Nat) (f : Vd → Vd) : (s.updVd n f).rowsOut = s.rowsOut := rfl
@[simp] theorem State.updVd_budgetOut (s : State) (n : Nat) (f : Vd → Vd) : (s.updVd n f).budgetOut = s.budgetOut := rfl
@[simp] theorem State.updVd_corrected (s : State) (n : Nat) (f : Vd → Vd) : (s.updVd n f).corrected = s.corrected := rfl
@[simp] theorem State.updVd_numberOut (s : State) (n : Nat) (f : Vd → Vd) : (s.updVd n f).numberOut = s.numberOut := rfl
@[simp] theorem State.updVd_detours (s : State) (n : Nat) (f : Vd → Vd) : (s.updVd n f).detours = s.detours := rfl
@[simp] theorem State.updVd_idKey (s : State) (n : Nat) (f : Vd → Vd) : (s.updVd n f).idKey = s.idKey := rfl
@[simp] theorem State.updVd_idCert (s : State) (n : Nat) (f : Vd → Vd) : (s.updVd n f).idCert = s.idCert := rfl
@[simp] theorem State.updVd_hostOut (s : State) (n : Nat) (f : Vd → Vd) : (s.updVd n f).hostOut = s.hostOut := rfl
@[simp] theorem State.updVd_spdmError (s : State) (n : Nat) (f : Vd → Vd) : (s.updVd n f).spdmError = s.spdmError := rfl
@[simp] theorem State.updVd_shipped (s : State) (n : Nat) (f : Vd → Vd) : (s.updVd n f).shipped = s.shipped := rfl

/-! ### State.at_ -/

@[simp] theorem State.at_cycle (s : State) (c : Nat) (i : Instr) : (s.at_ c i).cycle = s.cycle := rfl
@[simp] theorem State.at_cur (s : State) (c : Nat) (i : Instr) : (s.at_ c i).cur = s.cur := rfl
@[simp] theorem State.at_iword (s : State) (c : Nat) (i : Instr) : (s.at_ c i).iword = s.iword := rfl
@[simp] theorem State.at_input (s : State) (c : Nat) (i : Instr) : (s.at_ c i).input = s.input := rfl
@[simp] theorem State.at_inputs (s : State) (c : Nat) (i : Instr) : (s.at_ c i).inputs = s.inputs := rfl
@[simp] theorem State.at_agenda (s : State) (c : Nat) (i : Instr) : (s.at_ c i).agenda = insertEvent s.agenda c i := rfl
@[simp] theorem State.at_nextId (s : State) (c : Nat) (i : Instr) : (s.at_ c i).nextId = s.nextId := rfl
@[simp] theorem State.at_fresh (s : State) (c : Nat) (i : Instr) : (s.at_ c i).fresh = s.fresh := rfl
@[simp] theorem State.at_ops (s : State) (c : Nat) (i : Instr) : (s.at_ c i).ops = s.ops := rfl
@[simp] theorem State.at_threads (s : State) (c : Nat) (i : Instr) : (s.at_ c i).threads = s.threads := rfl
@[simp] theorem State.at_vtiles (s : State) (c : Nat) (i : Instr) : (s.at_ c i).vtiles = s.vtiles := rfl
@[simp] theorem State.at_lanes (s : State) (c : Nat) (i : Instr) : (s.at_ c i).lanes = s.lanes := rfl
@[simp] theorem State.at_launches (s : State) (c : Nat) (i : Instr) : (s.at_ c i).launches = s.launches := rfl
@[simp] theorem State.at_nextLaunch (s : State) (c : Nat) (i : Instr) : (s.at_ c i).nextLaunch = s.nextLaunch := rfl
@[simp] theorem State.at_hbm (s : State) (c : Nat) (i : Instr) : (s.at_ c i).hbm = s.hbm := rfl
@[simp] theorem State.at_hbmPoison (s : State) (c : Nat) (i : Instr) : (s.at_ c i).hbmPoison = s.hbmPoison := rfl
@[simp] theorem State.at_hbmFlips (s : State) (c : Nat) (i : Instr) : (s.at_ c i).hbmFlips = s.hbmFlips := rfl
@[simp] theorem State.at_hist (s : State) (c : Nat) (i : Instr) : (s.at_ c i).hist = s.hist := rfl
@[simp] theorem State.at_marks (s : State) (c : Nat) (i : Instr) : (s.at_ c i).marks = s.marks := rfl
@[simp] theorem State.at_trigs (s : State) (c : Nat) (i : Instr) : (s.at_ c i).trigs = s.trigs := rfl
@[simp] theorem State.at_ws (s : State) (c : Nat) (i : Instr) : (s.at_ c i).ws = s.ws := rfl
@[simp] theorem State.at_wsPoison (s : State) (c : Nat) (i : Instr) : (s.at_ c i).wsPoison = s.wsPoison := rfl
@[simp] theorem State.at_wsFlips (s : State) (c : Nat) (i : Instr) : (s.at_ c i).wsFlips = s.wsFlips := rfl
@[simp] theorem State.at_pages (s : State) (c : Nat) (i : Instr) : (s.at_ c i).pages = s.pages := rfl
@[simp] theorem State.at_tlb (s : State) (c : Nat) (i : Instr) : (s.at_ c i).tlb = s.tlb := rfl
@[simp] theorem State.at_walks (s : State) (c : Nat) (i : Instr) : (s.at_ c i).walks = s.walks := rfl
@[simp] theorem State.at_missArea (s : State) (c : Nat) (i : Instr) : (s.at_ c i).missArea = s.missArea := rfl
@[simp] theorem State.at_moves (s : State) (c : Nat) (i : Instr) : (s.at_ c i).moves = s.moves := rfl
@[simp] theorem State.at_fields (s : State) (c : Nat) (i : Instr) : (s.at_ c i).fields = s.fields := rfl
@[simp] theorem State.at_stackTemp (s : State) (c : Nat) (i : Instr) : (s.at_ c i).stackTemp = s.stackTemp := rfl
@[simp] theorem State.at_votes (s : State) (c : Nat) (i : Instr) : (s.at_ c i).votes = s.votes := rfl
@[simp] theorem State.at_pools (s : State) (c : Nat) (i : Instr) : (s.at_ c i).pools = s.pools := rfl
@[simp] theorem State.at_vds (s : State) (c : Nat) (i : Instr) : (s.at_ c i).vds = s.vds := rfl
@[simp] theorem State.at_netctl (s : State) (c : Nat) (i : Instr) : (s.at_ c i).netctl = s.netctl := rfl
@[simp] theorem State.at_modid (s : State) (c : Nat) (i : Instr) : (s.at_ c i).modid = s.modid := rfl
@[simp] theorem State.at_injallow (s : State) (c : Nat) (i : Instr) : (s.at_ c i).injallow = s.injallow := rfl
@[simp] theorem State.at_cmd (s : State) (c : Nat) (i : Instr) : (s.at_ c i).cmd = s.cmd := rfl
@[simp] theorem State.at_cmdstat (s : State) (c : Nat) (i : Instr) : (s.at_ c i).cmdstat = s.cmdstat := rfl
@[simp] theorem State.at_cmdWait (s : State) (c : Nat) (i : Instr) : (s.at_ c i).cmdWait = s.cmdWait := rfl
@[simp] theorem State.at_bootStep (s : State) (c : Nat) (i : Instr) : (s.at_ c i).bootStep = s.bootStep := rfl
@[simp] theorem State.at_bootState (s : State) (c : Nat) (i : Instr) : (s.at_ c i).bootState = s.bootState := rfl
@[simp] theorem State.at_route (s : State) (c : Nat) (i : Instr) : (s.at_ c i).route = s.route := rfl
@[simp] theorem State.at_dbgcert (s : State) (c : Nat) (i : Instr) : (s.at_ c i).dbgcert = s.dbgcert := rfl
@[simp] theorem State.at_linkUp (s : State) (c : Nat) (i : Instr) : (s.at_ c i).linkUp = s.linkUp := rfl
@[simp] theorem State.at_primary (s : State) (c : Nat) (i : Instr) : (s.at_ c i).primary = s.primary := rfl
@[simp] theorem State.at_portsDown (s : State) (c : Nat) (i : Instr) : (s.at_ c i).portsDown = s.portsDown := rfl
@[simp] theorem State.at_linkQueue (s : State) (c : Nat) (i : Instr) : (s.at_ c i).linkQueue = s.linkQueue := rfl
@[simp] theorem State.at_msix (s : State) (c : Nat) (i : Instr) : (s.at_ c i).msix = s.msix := rfl
@[simp] theorem State.at_msixOut (s : State) (c : Nat) (i : Instr) : (s.at_ c i).msixOut = s.msixOut := rfl
@[simp] theorem State.at_ports (s : State) (c : Nat) (i : Instr) : (s.at_ c i).ports = s.ports := rfl
@[simp] theorem State.at_sessions (s : State) (c : Nat) (i : Instr) : (s.at_ c i).sessions = s.sessions := rfl
@[simp] theorem State.at_errlog (s : State) (c : Nat) (i : Instr) : (s.at_ c i).errlog = s.errlog := rfl
@[simp] theorem State.at_errSeq (s : State) (c : Nat) (i : Instr) : (s.at_ c i).errSeq = s.errSeq := rfl
@[simp] theorem State.at_mordA (s : State) (c : Nat) (i : Instr) : (s.at_ c i).mordA = s.mordA := rfl
@[simp] theorem State.at_mordB (s : State) (c : Nat) (i : Instr) : (s.at_ c i).mordB = s.mordB := rfl
@[simp] theorem State.at_epoch (s : State) (c : Nat) (i : Instr) : (s.at_ c i).epoch = s.epoch := rfl
@[simp] theorem State.at_bootEpochDone (s : State) (c : Nat) (i : Instr) : (s.at_ c i).bootEpochDone = s.bootEpochDone := rfl
@[simp] theorem State.at_tileState (s : State) (c : Nat) (i : Instr) : (s.at_ c i).tileState = s.tileState := rfl
@[simp] theorem State.at_bankOut (s : State) (c : Nat) (i : Instr) : (s.at_ c i).bankOut = s.bankOut := rfl
@[simp] theorem State.at_pcgOut (s : State) (c : Nat) (i : Instr) : (s.at_ c i).pcgOut = s.pcgOut := rfl
@[simp] theorem State.at_sliceOut (s : State) (c : Nat) (i : Instr) : (s.at_ c i).sliceOut = s.sliceOut := rfl
@[simp] theorem State.at_rowsOut (s : State) (c : Nat) (i : Instr) : (s.at_ c i).rowsOut = s.rowsOut := rfl
@[simp] theorem State.at_budgetOut (s : State) (c : Nat) (i : Instr) : (s.at_ c i).budgetOut = s.budgetOut := rfl
@[simp] theorem State.at_corrected (s : State) (c : Nat) (i : Instr) : (s.at_ c i).corrected = s.corrected := rfl
@[simp] theorem State.at_numberOut (s : State) (c : Nat) (i : Instr) : (s.at_ c i).numberOut = s.numberOut := rfl
@[simp] theorem State.at_detours (s : State) (c : Nat) (i : Instr) : (s.at_ c i).detours = s.detours := rfl
@[simp] theorem State.at_idKey (s : State) (c : Nat) (i : Instr) : (s.at_ c i).idKey = s.idKey := rfl
@[simp] theorem State.at_idCert (s : State) (c : Nat) (i : Instr) : (s.at_ c i).idCert = s.idCert := rfl
@[simp] theorem State.at_hostOut (s : State) (c : Nat) (i : Instr) : (s.at_ c i).hostOut = s.hostOut := rfl
@[simp] theorem State.at_spdmError (s : State) (c : Nat) (i : Instr) : (s.at_ c i).spdmError = s.spdmError := rfl
@[simp] theorem State.at_shipped (s : State) (c : Nat) (i : Instr) : (s.at_ c i).shipped = s.shipped := rfl

/-! ### Thread.setReg -/

@[simp] theorem Thread.setReg_g (t : Thread) (r : Reg) (w : Word) : (t.setReg r w).g = t.g.set r.toFin w := rfl
@[simp] theorem Thread.setReg_pc (t : Thread) (r : Reg) (w : Word) : (t.setReg r w).pc = t.pc := rfl
@[simp] theorem Thread.setReg_tovf (t : Thread) (r : Reg) (w : Word) : (t.setReg r w).tovf = t.tovf := rfl
@[simp] theorem Thread.setReg_rst (t : Thread) (r : Reg) (w : Word) : (t.setReg r w).rst = t.rst := rfl
@[simp] theorem Thread.setReg_uwchk (t : Thread) (r : Reg) (w : Word) : (t.setReg r w).uwchk = t.uwchk := rfl
@[simp] theorem Thread.setReg_tl (t : Thread) (r : Reg) (w : Word) : (t.setReg r w).tl = t.tl := rfl
@[simp] theorem Thread.setReg_fpctl (t : Thread) (r : Reg) (w : Word) : (t.setReg r w).fpctl = t.fpctl := rfl
@[simp] theorem Thread.setReg_tok (t : Thread) (r : Reg) (w : Word) : (t.setReg r w).tok = t.tok := rfl
@[simp] theorem Thread.setReg_pend (t : Thread) (r : Reg) (w : Word) : (t.setReg r w).pend = t.pend := rfl
@[simp] theorem Thread.setReg_sigTok (t : Thread) (r : Reg) (w : Word) : (t.setReg r w).sigTok = t.sigTok := rfl
@[simp] theorem Thread.setReg_sigEn (t : Thread) (r : Reg) (w : Word) : (t.setReg r w).sigEn = t.sigEn := rfl
@[simp] theorem Thread.setReg_away (t : Thread) (r : Reg) (w : Word) : (t.setReg r w).away = t.away := rfl
@[simp] theorem Thread.setReg_exitedF (t : Thread) (r : Reg) (w : Word) : (t.setReg r w).exitedF = t.exitedF := rfl
@[simp] theorem Thread.setReg_lead (t : Thread) (r : Reg) (w : Word) : (t.setReg r w).lead = t.lead := rfl
@[simp] theorem Thread.setReg_homev (t : Thread) (r : Reg) (w : Word) : (t.setReg r w).homev = t.homev := rfl
@[simp] theorem Thread.setReg_irpc (t : Thread) (r : Reg) (w : Word) : (t.setReg r w).irpc = t.irpc := rfl
@[simp] theorem Thread.setReg_rethdr (t : Thread) (r : Reg) (w : Word) : (t.setReg r w).rethdr = t.rethdr := rfl
@[simp] theorem Thread.setReg_lane (t : Thread) (r : Reg) (w : Word) : (t.setReg r w).lane = t.lane := rfl
@[simp] theorem Thread.setReg_half1 (t : Thread) (r : Reg) (w : Word) : (t.setReg r w).half1 = t.half1 := rfl
@[simp] theorem Thread.setReg_half2 (t : Thread) (r : Reg) (w : Word) : (t.setReg r w).half2 = t.half2 := rfl
@[simp] theorem Thread.setReg_tvec (t : Thread) (r : Reg) (w : Word) : (t.setReg r w).tvec = t.tvec := rfl
@[simp] theorem Thread.setReg_tsave (t : Thread) (r : Reg) (w : Word) : (t.setReg r w).tsave = t.tsave := rfl
@[simp] theorem Thread.setReg_instret (t : Thread) (r : Reg) (w : Word) : (t.setReg r w).instret = t.instret := rfl
@[simp] theorem Thread.setReg_irtl (t : Thread) (r : Reg) (w : Word) : (t.setReg r w).irtl = t.irtl := rfl
@[simp] theorem Thread.setReg_rcnt (t : Thread) (r : Reg) (w : Word) : (t.setReg r w).rcnt = t.rcnt := rfl
@[simp] theorem Thread.setReg_acc (t : Thread) (r : Reg) (w : Word) : (t.setReg r w).acc = t.acc := rfl
@[simp] theorem Thread.setReg_region (t : Thread) (r : Reg) (w : Word) : (t.setReg r w).region = t.region := rfl
@[simp] theorem Thread.setReg_reports (t : Thread) (r : Reg) (w : Word) : (t.setReg r w).reports = t.reports := rfl
@[simp] theorem Thread.setReg_held (t : Thread) (r : Reg) (w : Word) : (t.setReg r w).held = t.held := rfl
@[simp] theorem Thread.setReg_block (t : Thread) (r : Reg) (w : Word) : (t.setReg r w).block = t.block := rfl
@[simp] theorem Thread.setReg_arrive (t : Thread) (r : Reg) (w : Word) : (t.setReg r w).arrive = t.arrive := rfl
@[simp] theorem Thread.setReg_restarting (t : Thread) (r : Reg) (w : Word) : (t.setReg r w).restarting = t.restarting := rfl
@[simp] theorem Thread.setReg_run (t : Thread) (r : Reg) (w : Word) : (t.setReg r w).run = t.run := rfl
@[simp] theorem Thread.setReg_slot (t : Thread) (r : Reg) (w : Word) : (t.setReg r w).slot = t.slot := rfl
@[simp] theorem Thread.setReg_gapUntil (t : Thread) (r : Reg) (w : Word) : (t.setReg r w).gapUntil = t.gapUntil := rfl
@[simp] theorem Thread.setReg_dlyUntil (t : Thread) (r : Reg) (w : Word) : (t.setReg r w).dlyUntil = t.dlyUntil := rfl
@[simp] theorem Thread.setReg_refetchUntil (t : Thread) (r : Reg) (w : Word) : (t.setReg r w).refetchUntil = t.refetchUntil := rfl
@[simp] theorem Thread.setReg_skipTurn (t : Thread) (r : Reg) (w : Word) : (t.setReg r w).skipTurn = t.skipTurn := rfl
@[simp] theorem Thread.setReg_fpHold (t : Thread) (r : Reg) (w : Word) : (t.setReg r w).fpHold = t.fpHold := rfl
@[simp] theorem Thread.setReg_inflight (t : Thread) (r : Reg) (w : Word) : (t.setReg r w).inflight = t.inflight := rfl
@[simp] theorem Thread.setReg_landed (t : Thread) (r : Reg) (w : Word) : (t.setReg r w).landed = t.landed := rfl
@[simp] theorem Thread.setReg_trip (t : Thread) (r : Reg) (w : Word) : (t.setReg r w).trip = t.trip := rfl
@[simp] theorem Thread.setReg_upsets (t : Thread) (r : Reg) (w : Word) : (t.setReg r w).upsets = t.upsets := rfl
@[simp] theorem Thread.setReg_cycleLatch (t : Thread) (r : Reg) (w : Word) : (t.setReg r w).cycleLatch = t.cycleLatch := rfl
@[simp] theorem Thread.setReg_stopped (t : Thread) (r : Reg) (w : Word) : (t.setReg r w).stopped = t.stopped := rfl
@[simp] theorem Thread.setReg_stopSlot (t : Thread) (r : Reg) (w : Word) : (t.setReg r w).stopSlot = t.stopSlot := rfl
@[simp] theorem Thread.setReg_stepPending (t : Thread) (r : Reg) (w : Word) : (t.setReg r w).stepPending = t.stepPending := rfl
@[simp] theorem Thread.setReg_bkptPass (t : Thread) (r : Reg) (w : Word) : (t.setReg r w).bkptPass = t.bkptPass := rfl
@[simp] theorem Thread.setReg_entered (t : Thread) (r : Reg) (w : Word) : (t.setReg r w).entered = t.entered := rfl
@[simp] theorem Thread.setReg_evictDue (t : Thread) (r : Reg) (w : Word) : (t.setReg r w).evictDue = t.evictDue := rfl
@[simp] theorem Thread.setReg_evictable (t : Thread) (r : Reg) (w : Word) : (t.setReg r w).evictable = t.evictable := rfl
@[simp] theorem Thread.setReg_acqStamp (t : Thread) (r : Reg) (w : Word) : (t.setReg r w).acqStamp = t.acqStamp := rfl
@[simp] theorem Thread.setReg_before (t : Thread) (r : Reg) (w : Word) : (t.setReg r w).before = t.before := rfl
@[simp] theorem Thread.setReg_past (t : Thread) (r : Reg) (w : Word) : (t.setReg r w).past = t.past := rfl
@[simp] theorem Thread.setReg_posted (t : Thread) (r : Reg) (w : Word) : (t.setReg r w).posted = t.posted := rfl
@[simp] theorem Thread.setReg_fenceRel (t : Thread) (r : Reg) (w : Word) : (t.setReg r w).fenceRel = t.fenceRel := rfl
@[simp] theorem Thread.setReg_heard (t : Thread) (r : Reg) (w : Word) : (t.setReg r w).heard = t.heard := rfl
@[simp] theorem Thread.setReg_readySeq (t : Thread) (r : Reg) (w : Word) : (t.setReg r w).readySeq = t.readySeq := rfl

/-! ### Thread.setTok -/

@[simp] theorem Thread.setTok_g (t : Thread) (k : Tok) (v : Token) : (t.setTok k v).g = t.g := rfl
@[simp] theorem Thread.setTok_pc (t : Thread) (k : Tok) (v : Token) : (t.setTok k v).pc = t.pc := rfl
@[simp] theorem Thread.setTok_tovf (t : Thread) (k : Tok) (v : Token) : (t.setTok k v).tovf = t.tovf := rfl
@[simp] theorem Thread.setTok_rst (t : Thread) (k : Tok) (v : Token) : (t.setTok k v).rst = t.rst := rfl
@[simp] theorem Thread.setTok_uwchk (t : Thread) (k : Tok) (v : Token) : (t.setTok k v).uwchk = t.uwchk := rfl
@[simp] theorem Thread.setTok_tl (t : Thread) (k : Tok) (v : Token) : (t.setTok k v).tl = t.tl := rfl
@[simp] theorem Thread.setTok_fpctl (t : Thread) (k : Tok) (v : Token) : (t.setTok k v).fpctl = t.fpctl := rfl
@[simp] theorem Thread.setTok_tok (t : Thread) (k : Tok) (v : Token) : (t.setTok k v).tok = t.tok.set k.toFin v := rfl
@[simp] theorem Thread.setTok_pend (t : Thread) (k : Tok) (v : Token) : (t.setTok k v).pend = t.pend := rfl
@[simp] theorem Thread.setTok_sigTok (t : Thread) (k : Tok) (v : Token) : (t.setTok k v).sigTok = t.sigTok := rfl
@[simp] theorem Thread.setTok_sigEn (t : Thread) (k : Tok) (v : Token) : (t.setTok k v).sigEn = t.sigEn := rfl
@[simp] theorem Thread.setTok_away (t : Thread) (k : Tok) (v : Token) : (t.setTok k v).away = t.away := rfl
@[simp] theorem Thread.setTok_exitedF (t : Thread) (k : Tok) (v : Token) : (t.setTok k v).exitedF = t.exitedF := rfl
@[simp] theorem Thread.setTok_lead (t : Thread) (k : Tok) (v : Token) : (t.setTok k v).lead = t.lead := rfl
@[simp] theorem Thread.setTok_homev (t : Thread) (k : Tok) (v : Token) : (t.setTok k v).homev = t.homev := rfl
@[simp] theorem Thread.setTok_irpc (t : Thread) (k : Tok) (v : Token) : (t.setTok k v).irpc = t.irpc := rfl
@[simp] theorem Thread.setTok_rethdr (t : Thread) (k : Tok) (v : Token) : (t.setTok k v).rethdr = t.rethdr := rfl
@[simp] theorem Thread.setTok_lane (t : Thread) (k : Tok) (v : Token) : (t.setTok k v).lane = t.lane := rfl
@[simp] theorem Thread.setTok_half1 (t : Thread) (k : Tok) (v : Token) : (t.setTok k v).half1 = t.half1 := rfl
@[simp] theorem Thread.setTok_half2 (t : Thread) (k : Tok) (v : Token) : (t.setTok k v).half2 = t.half2 := rfl
@[simp] theorem Thread.setTok_tvec (t : Thread) (k : Tok) (v : Token) : (t.setTok k v).tvec = t.tvec := rfl
@[simp] theorem Thread.setTok_tsave (t : Thread) (k : Tok) (v : Token) : (t.setTok k v).tsave = t.tsave := rfl
@[simp] theorem Thread.setTok_instret (t : Thread) (k : Tok) (v : Token) : (t.setTok k v).instret = t.instret := rfl
@[simp] theorem Thread.setTok_irtl (t : Thread) (k : Tok) (v : Token) : (t.setTok k v).irtl = t.irtl := rfl
@[simp] theorem Thread.setTok_rcnt (t : Thread) (k : Tok) (v : Token) : (t.setTok k v).rcnt = t.rcnt := rfl
@[simp] theorem Thread.setTok_acc (t : Thread) (k : Tok) (v : Token) : (t.setTok k v).acc = t.acc := rfl
@[simp] theorem Thread.setTok_region (t : Thread) (k : Tok) (v : Token) : (t.setTok k v).region = t.region := rfl
@[simp] theorem Thread.setTok_reports (t : Thread) (k : Tok) (v : Token) : (t.setTok k v).reports = t.reports := rfl
@[simp] theorem Thread.setTok_held (t : Thread) (k : Tok) (v : Token) : (t.setTok k v).held = t.held := rfl
@[simp] theorem Thread.setTok_block (t : Thread) (k : Tok) (v : Token) : (t.setTok k v).block = t.block := rfl
@[simp] theorem Thread.setTok_arrive (t : Thread) (k : Tok) (v : Token) : (t.setTok k v).arrive = t.arrive := rfl
@[simp] theorem Thread.setTok_restarting (t : Thread) (k : Tok) (v : Token) : (t.setTok k v).restarting = t.restarting := rfl
@[simp] theorem Thread.setTok_run (t : Thread) (k : Tok) (v : Token) : (t.setTok k v).run = t.run := rfl
@[simp] theorem Thread.setTok_slot (t : Thread) (k : Tok) (v : Token) : (t.setTok k v).slot = t.slot := rfl
@[simp] theorem Thread.setTok_gapUntil (t : Thread) (k : Tok) (v : Token) : (t.setTok k v).gapUntil = t.gapUntil := rfl
@[simp] theorem Thread.setTok_dlyUntil (t : Thread) (k : Tok) (v : Token) : (t.setTok k v).dlyUntil = t.dlyUntil := rfl
@[simp] theorem Thread.setTok_refetchUntil (t : Thread) (k : Tok) (v : Token) : (t.setTok k v).refetchUntil = t.refetchUntil := rfl
@[simp] theorem Thread.setTok_skipTurn (t : Thread) (k : Tok) (v : Token) : (t.setTok k v).skipTurn = t.skipTurn := rfl
@[simp] theorem Thread.setTok_fpHold (t : Thread) (k : Tok) (v : Token) : (t.setTok k v).fpHold = t.fpHold := rfl
@[simp] theorem Thread.setTok_inflight (t : Thread) (k : Tok) (v : Token) : (t.setTok k v).inflight = t.inflight := rfl
@[simp] theorem Thread.setTok_landed (t : Thread) (k : Tok) (v : Token) : (t.setTok k v).landed = t.landed := rfl
@[simp] theorem Thread.setTok_trip (t : Thread) (k : Tok) (v : Token) : (t.setTok k v).trip = t.trip := rfl
@[simp] theorem Thread.setTok_upsets (t : Thread) (k : Tok) (v : Token) : (t.setTok k v).upsets = t.upsets := rfl
@[simp] theorem Thread.setTok_cycleLatch (t : Thread) (k : Tok) (v : Token) : (t.setTok k v).cycleLatch = t.cycleLatch := rfl
@[simp] theorem Thread.setTok_stopped (t : Thread) (k : Tok) (v : Token) : (t.setTok k v).stopped = t.stopped := rfl
@[simp] theorem Thread.setTok_stopSlot (t : Thread) (k : Tok) (v : Token) : (t.setTok k v).stopSlot = t.stopSlot := rfl
@[simp] theorem Thread.setTok_stepPending (t : Thread) (k : Tok) (v : Token) : (t.setTok k v).stepPending = t.stepPending := rfl
@[simp] theorem Thread.setTok_bkptPass (t : Thread) (k : Tok) (v : Token) : (t.setTok k v).bkptPass = t.bkptPass := rfl
@[simp] theorem Thread.setTok_entered (t : Thread) (k : Tok) (v : Token) : (t.setTok k v).entered = t.entered := rfl
@[simp] theorem Thread.setTok_evictDue (t : Thread) (k : Tok) (v : Token) : (t.setTok k v).evictDue = t.evictDue := rfl
@[simp] theorem Thread.setTok_evictable (t : Thread) (k : Tok) (v : Token) : (t.setTok k v).evictable = t.evictable := rfl
@[simp] theorem Thread.setTok_acqStamp (t : Thread) (k : Tok) (v : Token) : (t.setTok k v).acqStamp = t.acqStamp := rfl
@[simp] theorem Thread.setTok_before (t : Thread) (k : Tok) (v : Token) : (t.setTok k v).before = t.before := rfl
@[simp] theorem Thread.setTok_past (t : Thread) (k : Tok) (v : Token) : (t.setTok k v).past = t.past := rfl
@[simp] theorem Thread.setTok_posted (t : Thread) (k : Tok) (v : Token) : (t.setTok k v).posted = t.posted := rfl
@[simp] theorem Thread.setTok_fenceRel (t : Thread) (k : Tok) (v : Token) : (t.setTok k v).fenceRel = t.fenceRel := rfl
@[simp] theorem Thread.setTok_heard (t : Thread) (k : Tok) (v : Token) : (t.setTok k v).heard = t.heard := rfl
@[simp] theorem Thread.setTok_readySeq (t : Thread) (k : Tok) (v : Token) : (t.setTok k v).readySeq = t.readySeq := rfl

/-! ### Thread.post -/

@[simp] theorem Thread.post_g (t : Thread) (k : Tok) (n : Nat) : (t.post k n).g = t.g := rfl
@[simp] theorem Thread.post_pc (t : Thread) (k : Tok) (n : Nat) : (t.post k n).pc = t.pc := rfl
@[simp] theorem Thread.post_tovf (t : Thread) (k : Tok) (n : Nat) : (t.post k n).tovf = t.tovf := rfl
@[simp] theorem Thread.post_rst (t : Thread) (k : Tok) (n : Nat) : (t.post k n).rst = t.rst := rfl
@[simp] theorem Thread.post_uwchk (t : Thread) (k : Tok) (n : Nat) : (t.post k n).uwchk = t.uwchk := rfl
@[simp] theorem Thread.post_tl (t : Thread) (k : Tok) (n : Nat) : (t.post k n).tl = t.tl := rfl
@[simp] theorem Thread.post_fpctl (t : Thread) (k : Tok) (n : Nat) : (t.post k n).fpctl = t.fpctl := rfl
@[simp] theorem Thread.post_tok (t : Thread) (k : Tok) (n : Nat) : (t.post k n).tok = t.tok.set k.toFin { t.tokAt k with inc := (t.tokAt k).inc + n } := rfl
@[simp] theorem Thread.post_pend (t : Thread) (k : Tok) (n : Nat) : (t.post k n).pend = t.pend := rfl
@[simp] theorem Thread.post_sigTok (t : Thread) (k : Tok) (n : Nat) : (t.post k n).sigTok = t.sigTok := rfl
@[simp] theorem Thread.post_sigEn (t : Thread) (k : Tok) (n : Nat) : (t.post k n).sigEn = t.sigEn := rfl
@[simp] theorem Thread.post_away (t : Thread) (k : Tok) (n : Nat) : (t.post k n).away = t.away := rfl
@[simp] theorem Thread.post_exitedF (t : Thread) (k : Tok) (n : Nat) : (t.post k n).exitedF = t.exitedF := rfl
@[simp] theorem Thread.post_lead (t : Thread) (k : Tok) (n : Nat) : (t.post k n).lead = t.lead := rfl
@[simp] theorem Thread.post_homev (t : Thread) (k : Tok) (n : Nat) : (t.post k n).homev = t.homev := rfl
@[simp] theorem Thread.post_irpc (t : Thread) (k : Tok) (n : Nat) : (t.post k n).irpc = t.irpc := rfl
@[simp] theorem Thread.post_rethdr (t : Thread) (k : Tok) (n : Nat) : (t.post k n).rethdr = t.rethdr := rfl
@[simp] theorem Thread.post_lane (t : Thread) (k : Tok) (n : Nat) : (t.post k n).lane = t.lane := rfl
@[simp] theorem Thread.post_half1 (t : Thread) (k : Tok) (n : Nat) : (t.post k n).half1 = t.half1 := rfl
@[simp] theorem Thread.post_half2 (t : Thread) (k : Tok) (n : Nat) : (t.post k n).half2 = t.half2 := rfl
@[simp] theorem Thread.post_tvec (t : Thread) (k : Tok) (n : Nat) : (t.post k n).tvec = t.tvec := rfl
@[simp] theorem Thread.post_tsave (t : Thread) (k : Tok) (n : Nat) : (t.post k n).tsave = t.tsave := rfl
@[simp] theorem Thread.post_instret (t : Thread) (k : Tok) (n : Nat) : (t.post k n).instret = t.instret := rfl
@[simp] theorem Thread.post_irtl (t : Thread) (k : Tok) (n : Nat) : (t.post k n).irtl = t.irtl := rfl
@[simp] theorem Thread.post_rcnt (t : Thread) (k : Tok) (n : Nat) : (t.post k n).rcnt = t.rcnt := rfl
@[simp] theorem Thread.post_acc (t : Thread) (k : Tok) (n : Nat) : (t.post k n).acc = t.acc := rfl
@[simp] theorem Thread.post_region (t : Thread) (k : Tok) (n : Nat) : (t.post k n).region = t.region := rfl
@[simp] theorem Thread.post_reports (t : Thread) (k : Tok) (n : Nat) : (t.post k n).reports = t.reports := rfl
@[simp] theorem Thread.post_held (t : Thread) (k : Tok) (n : Nat) : (t.post k n).held = t.held := rfl
@[simp] theorem Thread.post_block (t : Thread) (k : Tok) (n : Nat) : (t.post k n).block = t.block := rfl
@[simp] theorem Thread.post_arrive (t : Thread) (k : Tok) (n : Nat) : (t.post k n).arrive = t.arrive := rfl
@[simp] theorem Thread.post_restarting (t : Thread) (k : Tok) (n : Nat) : (t.post k n).restarting = t.restarting := rfl
@[simp] theorem Thread.post_run (t : Thread) (k : Tok) (n : Nat) : (t.post k n).run = t.run := rfl
@[simp] theorem Thread.post_slot (t : Thread) (k : Tok) (n : Nat) : (t.post k n).slot = t.slot := rfl
@[simp] theorem Thread.post_gapUntil (t : Thread) (k : Tok) (n : Nat) : (t.post k n).gapUntil = t.gapUntil := rfl
@[simp] theorem Thread.post_dlyUntil (t : Thread) (k : Tok) (n : Nat) : (t.post k n).dlyUntil = t.dlyUntil := rfl
@[simp] theorem Thread.post_refetchUntil (t : Thread) (k : Tok) (n : Nat) : (t.post k n).refetchUntil = t.refetchUntil := rfl
@[simp] theorem Thread.post_skipTurn (t : Thread) (k : Tok) (n : Nat) : (t.post k n).skipTurn = t.skipTurn := rfl
@[simp] theorem Thread.post_fpHold (t : Thread) (k : Tok) (n : Nat) : (t.post k n).fpHold = t.fpHold := rfl
@[simp] theorem Thread.post_inflight (t : Thread) (k : Tok) (n : Nat) : (t.post k n).inflight = t.inflight := rfl
@[simp] theorem Thread.post_landed (t : Thread) (k : Tok) (n : Nat) : (t.post k n).landed = t.landed := rfl
@[simp] theorem Thread.post_trip (t : Thread) (k : Tok) (n : Nat) : (t.post k n).trip = t.trip := rfl
@[simp] theorem Thread.post_upsets (t : Thread) (k : Tok) (n : Nat) : (t.post k n).upsets = t.upsets := rfl
@[simp] theorem Thread.post_cycleLatch (t : Thread) (k : Tok) (n : Nat) : (t.post k n).cycleLatch = t.cycleLatch := rfl
@[simp] theorem Thread.post_stopped (t : Thread) (k : Tok) (n : Nat) : (t.post k n).stopped = t.stopped := rfl
@[simp] theorem Thread.post_stopSlot (t : Thread) (k : Tok) (n : Nat) : (t.post k n).stopSlot = t.stopSlot := rfl
@[simp] theorem Thread.post_stepPending (t : Thread) (k : Tok) (n : Nat) : (t.post k n).stepPending = t.stepPending := rfl
@[simp] theorem Thread.post_bkptPass (t : Thread) (k : Tok) (n : Nat) : (t.post k n).bkptPass = t.bkptPass := rfl
@[simp] theorem Thread.post_entered (t : Thread) (k : Tok) (n : Nat) : (t.post k n).entered = t.entered := rfl
@[simp] theorem Thread.post_evictDue (t : Thread) (k : Tok) (n : Nat) : (t.post k n).evictDue = t.evictDue := rfl
@[simp] theorem Thread.post_evictable (t : Thread) (k : Tok) (n : Nat) : (t.post k n).evictable = t.evictable := rfl
@[simp] theorem Thread.post_acqStamp (t : Thread) (k : Tok) (n : Nat) : (t.post k n).acqStamp = t.acqStamp := rfl
@[simp] theorem Thread.post_before (t : Thread) (k : Tok) (n : Nat) : (t.post k n).before = t.before := rfl
@[simp] theorem Thread.post_past (t : Thread) (k : Tok) (n : Nat) : (t.post k n).past = t.past := rfl
@[simp] theorem Thread.post_posted (t : Thread) (k : Tok) (n : Nat) : (t.post k n).posted = t.posted := rfl
@[simp] theorem Thread.post_fenceRel (t : Thread) (k : Tok) (n : Nat) : (t.post k n).fenceRel = t.fenceRel := rfl
@[simp] theorem Thread.post_heard (t : Thread) (k : Tok) (n : Nat) : (t.post k n).heard = t.heard := rfl
@[simp] theorem Thread.post_readySeq (t : Thread) (k : Tok) (n : Nat) : (t.post k n).readySeq = t.readySeq := rfl

/-! ### Thread.setPair -/

@[simp] theorem Thread.setPair_g (t : Thread) (r : Reg) (d : DWord) : (t.setPair r d).g = (t.g.set r.toFin d.lo).set (Reg.hi r).toFin d.hi := rfl
@[simp] theorem Thread.setPair_pc (t : Thread) (r : Reg) (d : DWord) : (t.setPair r d).pc = t.pc := rfl
@[simp] theorem Thread.setPair_tovf (t : Thread) (r : Reg) (d : DWord) : (t.setPair r d).tovf = t.tovf := rfl
@[simp] theorem Thread.setPair_rst (t : Thread) (r : Reg) (d : DWord) : (t.setPair r d).rst = t.rst := rfl
@[simp] theorem Thread.setPair_uwchk (t : Thread) (r : Reg) (d : DWord) : (t.setPair r d).uwchk = t.uwchk := rfl
@[simp] theorem Thread.setPair_tl (t : Thread) (r : Reg) (d : DWord) : (t.setPair r d).tl = t.tl := rfl
@[simp] theorem Thread.setPair_fpctl (t : Thread) (r : Reg) (d : DWord) : (t.setPair r d).fpctl = t.fpctl := rfl
@[simp] theorem Thread.setPair_tok (t : Thread) (r : Reg) (d : DWord) : (t.setPair r d).tok = t.tok := rfl
@[simp] theorem Thread.setPair_pend (t : Thread) (r : Reg) (d : DWord) : (t.setPair r d).pend = t.pend := rfl
@[simp] theorem Thread.setPair_sigTok (t : Thread) (r : Reg) (d : DWord) : (t.setPair r d).sigTok = t.sigTok := rfl
@[simp] theorem Thread.setPair_sigEn (t : Thread) (r : Reg) (d : DWord) : (t.setPair r d).sigEn = t.sigEn := rfl
@[simp] theorem Thread.setPair_away (t : Thread) (r : Reg) (d : DWord) : (t.setPair r d).away = t.away := rfl
@[simp] theorem Thread.setPair_exitedF (t : Thread) (r : Reg) (d : DWord) : (t.setPair r d).exitedF = t.exitedF := rfl
@[simp] theorem Thread.setPair_lead (t : Thread) (r : Reg) (d : DWord) : (t.setPair r d).lead = t.lead := rfl
@[simp] theorem Thread.setPair_homev (t : Thread) (r : Reg) (d : DWord) : (t.setPair r d).homev = t.homev := rfl
@[simp] theorem Thread.setPair_irpc (t : Thread) (r : Reg) (d : DWord) : (t.setPair r d).irpc = t.irpc := rfl
@[simp] theorem Thread.setPair_rethdr (t : Thread) (r : Reg) (d : DWord) : (t.setPair r d).rethdr = t.rethdr := rfl
@[simp] theorem Thread.setPair_lane (t : Thread) (r : Reg) (d : DWord) : (t.setPair r d).lane = t.lane := rfl
@[simp] theorem Thread.setPair_half1 (t : Thread) (r : Reg) (d : DWord) : (t.setPair r d).half1 = t.half1 := rfl
@[simp] theorem Thread.setPair_half2 (t : Thread) (r : Reg) (d : DWord) : (t.setPair r d).half2 = t.half2 := rfl
@[simp] theorem Thread.setPair_tvec (t : Thread) (r : Reg) (d : DWord) : (t.setPair r d).tvec = t.tvec := rfl
@[simp] theorem Thread.setPair_tsave (t : Thread) (r : Reg) (d : DWord) : (t.setPair r d).tsave = t.tsave := rfl
@[simp] theorem Thread.setPair_instret (t : Thread) (r : Reg) (d : DWord) : (t.setPair r d).instret = t.instret := rfl
@[simp] theorem Thread.setPair_irtl (t : Thread) (r : Reg) (d : DWord) : (t.setPair r d).irtl = t.irtl := rfl
@[simp] theorem Thread.setPair_rcnt (t : Thread) (r : Reg) (d : DWord) : (t.setPair r d).rcnt = t.rcnt := rfl
@[simp] theorem Thread.setPair_acc (t : Thread) (r : Reg) (d : DWord) : (t.setPair r d).acc = t.acc := rfl
@[simp] theorem Thread.setPair_region (t : Thread) (r : Reg) (d : DWord) : (t.setPair r d).region = t.region := rfl
@[simp] theorem Thread.setPair_reports (t : Thread) (r : Reg) (d : DWord) : (t.setPair r d).reports = t.reports := rfl
@[simp] theorem Thread.setPair_held (t : Thread) (r : Reg) (d : DWord) : (t.setPair r d).held = t.held := rfl
@[simp] theorem Thread.setPair_block (t : Thread) (r : Reg) (d : DWord) : (t.setPair r d).block = t.block := rfl
@[simp] theorem Thread.setPair_arrive (t : Thread) (r : Reg) (d : DWord) : (t.setPair r d).arrive = t.arrive := rfl
@[simp] theorem Thread.setPair_restarting (t : Thread) (r : Reg) (d : DWord) : (t.setPair r d).restarting = t.restarting := rfl
@[simp] theorem Thread.setPair_run (t : Thread) (r : Reg) (d : DWord) : (t.setPair r d).run = t.run := rfl
@[simp] theorem Thread.setPair_slot (t : Thread) (r : Reg) (d : DWord) : (t.setPair r d).slot = t.slot := rfl
@[simp] theorem Thread.setPair_gapUntil (t : Thread) (r : Reg) (d : DWord) : (t.setPair r d).gapUntil = t.gapUntil := rfl
@[simp] theorem Thread.setPair_dlyUntil (t : Thread) (r : Reg) (d : DWord) : (t.setPair r d).dlyUntil = t.dlyUntil := rfl
@[simp] theorem Thread.setPair_refetchUntil (t : Thread) (r : Reg) (d : DWord) : (t.setPair r d).refetchUntil = t.refetchUntil := rfl
@[simp] theorem Thread.setPair_skipTurn (t : Thread) (r : Reg) (d : DWord) : (t.setPair r d).skipTurn = t.skipTurn := rfl
@[simp] theorem Thread.setPair_fpHold (t : Thread) (r : Reg) (d : DWord) : (t.setPair r d).fpHold = t.fpHold := rfl
@[simp] theorem Thread.setPair_inflight (t : Thread) (r : Reg) (d : DWord) : (t.setPair r d).inflight = t.inflight := rfl
@[simp] theorem Thread.setPair_landed (t : Thread) (r : Reg) (d : DWord) : (t.setPair r d).landed = t.landed := rfl
@[simp] theorem Thread.setPair_trip (t : Thread) (r : Reg) (d : DWord) : (t.setPair r d).trip = t.trip := rfl
@[simp] theorem Thread.setPair_upsets (t : Thread) (r : Reg) (d : DWord) : (t.setPair r d).upsets = t.upsets := rfl
@[simp] theorem Thread.setPair_cycleLatch (t : Thread) (r : Reg) (d : DWord) : (t.setPair r d).cycleLatch = t.cycleLatch := rfl
@[simp] theorem Thread.setPair_stopped (t : Thread) (r : Reg) (d : DWord) : (t.setPair r d).stopped = t.stopped := rfl
@[simp] theorem Thread.setPair_stopSlot (t : Thread) (r : Reg) (d : DWord) : (t.setPair r d).stopSlot = t.stopSlot := rfl
@[simp] theorem Thread.setPair_stepPending (t : Thread) (r : Reg) (d : DWord) : (t.setPair r d).stepPending = t.stepPending := rfl
@[simp] theorem Thread.setPair_bkptPass (t : Thread) (r : Reg) (d : DWord) : (t.setPair r d).bkptPass = t.bkptPass := rfl
@[simp] theorem Thread.setPair_entered (t : Thread) (r : Reg) (d : DWord) : (t.setPair r d).entered = t.entered := rfl
@[simp] theorem Thread.setPair_evictDue (t : Thread) (r : Reg) (d : DWord) : (t.setPair r d).evictDue = t.evictDue := rfl
@[simp] theorem Thread.setPair_evictable (t : Thread) (r : Reg) (d : DWord) : (t.setPair r d).evictable = t.evictable := rfl
@[simp] theorem Thread.setPair_acqStamp (t : Thread) (r : Reg) (d : DWord) : (t.setPair r d).acqStamp = t.acqStamp := rfl
@[simp] theorem Thread.setPair_before (t : Thread) (r : Reg) (d : DWord) : (t.setPair r d).before = t.before := rfl
@[simp] theorem Thread.setPair_past (t : Thread) (r : Reg) (d : DWord) : (t.setPair r d).past = t.past := rfl
@[simp] theorem Thread.setPair_posted (t : Thread) (r : Reg) (d : DWord) : (t.setPair r d).posted = t.posted := rfl
@[simp] theorem Thread.setPair_fenceRel (t : Thread) (r : Reg) (d : DWord) : (t.setPair r d).fenceRel = t.fenceRel := rfl
@[simp] theorem Thread.setPair_heard (t : Thread) (r : Reg) (d : DWord) : (t.setPair r d).heard = t.heard := rfl
@[simp] theorem Thread.setPair_readySeq (t : Thread) (r : Reg) (d : DWord) : (t.setPair r d).readySeq = t.readySeq := rfl

/-! ### What the tables answer after an update -/

@[simp] theorem State.thread?_setThread (s : State) (r q : TRef) (t : Thread) :
    (s.setThread r t).thread? q = if r = q then some t else s.thread? q := Assoc.get?_set ..
@[simp] theorem State.thread?_updThread (s : State) (r q : TRef) (f : Thread → Thread) :
    (s.updThread r f).thread? q = if r = q then (s.thread? q).map f else s.thread? q := Assoc.get?_upd ..
@[simp] theorem State.tile?_updTile (s : State) (v w : TileRef) (f : VTile → VTile) :
    (s.updTile v f).tile? w = if v = w then (s.tile? w).map f else s.tile? w := Assoc.get?_upd ..
@[simp] theorem State.launch?_updLaunch (s : State) (l m : Nat) (f : Launch → Launch) :
    (s.updLaunch l f).launch? m = if l = m then (s.launch? m).map f else s.launch? m := Assoc.get?_upd ..
@[simp] theorem State.op?_updOp (s : State) (i j : Nat) (f : Op → Op) :
    (s.updOp i f).op? j = if i = j then (s.op? j).map f else s.op? j := Assoc.get?_upd ..
@[simp] theorem State.op?_dropOp (s : State) (i j : Nat) :
    (s.dropOp i).op? j = if i = j then none else s.op? j := Assoc.get?_del ..
@[simp] theorem State.lane_updLane (s : State) (r q : TRef) (f : Lane → Lane) :
    (s.updLane r f).lanes.get? q = if r = q then (s.lanes.get? q).map f else s.lanes.get? q := Assoc.get?_upd ..
@[simp] theorem State.vdRec_updVd (s : State) (n m : Nat) (f : Vd → Vd) :
    (s.updVd n f).vdRec m = if n = m then f (s.vdRec m) else s.vdRec m := by
  simp only [State.vdRec, State.updVd_vds, Assoc.get?_set]
  split
  · next h => subst h; rfl
  · rfl

/-! Each table's answer depends on that table only. -/

@[simp] theorem State.tile?_setThread (s : State) (r : TRef) (t : Thread) (k : TileRef) : (s.setThread r t).tile? k = s.tile? k := rfl
@[simp] theorem State.launch?_setThread (s : State) (r : TRef) (t : Thread) (k : Nat) : (s.setThread r t).launch? k = s.launch? k := rfl
@[simp] theorem State.op?_setThread (s : State) (r : TRef) (t : Thread) (k : Nat) : (s.setThread r t).op? k = s.op? k := rfl
@[simp] theorem State.vdRec_setThread (s : State) (r : TRef) (t : Thread) (k : Nat) : (s.setThread r t).vdRec k = s.vdRec k := rfl
@[simp] theorem State.blk_setThread (s : State) (r : TRef) (t : Thread) (k : Nat) : (s.setThread r t).blk k = s.blk k := rfl
@[simp] theorem State.isDet_setThread (s : State) (r : TRef) (t : Thread) (k : Nat) : (s.setThread r t).isDet k = s.isDet k := rfl
@[simp] theorem State.vdOf_setThread (s : State) (r : TRef) (t : Thread) (k : Nat) : (s.setThread r t).vdOf k = s.vdOf k := rfl
@[simp] theorem State.tile?_updThread (s : State) (r : TRef) (f : Thread → Thread) (k : TileRef) : (s.updThread r f).tile? k = s.tile? k := rfl
@[simp] theorem State.launch?_updThread (s : State) (r : TRef) (f : Thread → Thread) (k : Nat) : (s.updThread r f).launch? k = s.launch? k := rfl
@[simp] theorem State.op?_updThread (s : State) (r : TRef) (f : Thread → Thread) (k : Nat) : (s.updThread r f).op? k = s.op? k := rfl
@[simp] theorem State.vdRec_updThread (s : State) (r : TRef) (f : Thread → Thread) (k : Nat) : (s.updThread r f).vdRec k = s.vdRec k := rfl
@[simp] theorem State.blk_updThread (s : State) (r : TRef) (f : Thread → Thread) (k : Nat) : (s.updThread r f).blk k = s.blk k := rfl
@[simp] theorem State.isDet_updThread (s : State) (r : TRef) (f : Thread → Thread) (k : Nat) : (s.updThread r f).isDet k = s.isDet k := rfl
@[simp] theorem State.vdOf_updThread (s : State) (r : TRef) (f : Thread → Thread) (k : Nat) : (s.updThread r f).vdOf k = s.vdOf k := rfl
@[simp] theorem State.thread?_updTile (s : State) (v : TileRef) (f : VTile → VTile) (k : TRef) : (s.updTile v f).thread? k = s.thread? k := rfl
@[simp] theorem State.launch?_updTile (s : State) (v : TileRef) (f : VTile → VTile) (k : Nat) : (s.updTile v f).launch? k = s.launch? k := rfl
@[simp] theorem State.op?_updTile (s : State) (v : TileRef) (f : VTile → VTile) (k : Nat) : (s.updTile v f).op? k = s.op? k := rfl
@[simp] theorem State.vdRec_updTile (s : State) (v : TileRef) (f : VTile → VTile) (k : Nat) : (s.updTile v f).vdRec k = s.vdRec k := rfl
@[simp] theorem State.blk_updTile (s : State) (v : TileRef) (f : VTile → VTile) (k : Nat) : (s.updTile v f).blk k = s.blk k := rfl
@[simp] theorem State.isDet_updTile (s : State) (v : TileRef) (f : VTile → VTile) (k : Nat) : (s.updTile v f).isDet k = s.isDet k := rfl
@[simp] theorem State.vdOf_updTile (s : State) (v : TileRef) (f : VTile → VTile) (k : Nat) : (s.updTile v f).vdOf k = s.vdOf k := rfl
@[simp] theorem State.thread?_updLaunch (s : State) (l : Nat) (f : Launch → Launch) (k : TRef) : (s.updLaunch l f).thread? k = s.thread? k := rfl
@[simp] theorem State.tile?_updLaunch (s : State) (l : Nat) (f : Launch → Launch) (k : TileRef) : (s.updLaunch l f).tile? k = s.tile? k := rfl
@[simp] theorem State.op?_updLaunch (s : State) (l : Nat) (f : Launch → Launch) (k : Nat) : (s.updLaunch l f).op? k = s.op? k := rfl
@[simp] theorem State.vdRec_updLaunch (s : State) (l : Nat) (f : Launch → Launch) (k : Nat) : (s.updLaunch l f).vdRec k = s.vdRec k := rfl
@[simp] theorem State.thread?_updOp (s : State) (id : Nat) (f : Op → Op) (k : TRef) : (s.updOp id f).thread? k = s.thread? k := rfl
@[simp] theorem State.tile?_updOp (s : State) (id : Nat) (f : Op → Op) (k : TileRef) : (s.updOp id f).tile? k = s.tile? k := rfl
@[simp] theorem State.launch?_updOp (s : State) (id : Nat) (f : Op → Op) (k : Nat) : (s.updOp id f).launch? k = s.launch? k := rfl
@[simp] theorem State.vdRec_updOp (s : State) (id : Nat) (f : Op → Op) (k : Nat) : (s.updOp id f).vdRec k = s.vdRec k := rfl
@[simp] theorem State.blk_updOp (s : State) (id : Nat) (f : Op → Op) (k : Nat) : (s.updOp id f).blk k = s.blk k := rfl
@[simp] theorem State.isDet_updOp (s : State) (id : Nat) (f : Op → Op) (k : Nat) : (s.updOp id f).isDet k = s.isDet k := rfl
@[simp] theorem State.vdOf_updOp (s : State) (id : Nat) (f : Op → Op) (k : Nat) : (s.updOp id f).vdOf k = s.vdOf k := rfl
@[simp] theorem State.thread?_updLane (s : State) (r : TRef) (f : Lane → Lane) (k : TRef) : (s.updLane r f).thread? k = s.thread? k := rfl
@[simp] theorem State.tile?_updLane (s : State) (r : TRef) (f : Lane → Lane) (k : TileRef) : (s.updLane r f).tile? k = s.tile? k := rfl
@[simp] theorem State.launch?_updLane (s : State) (r : TRef) (f : Lane → Lane) (k : Nat) : (s.updLane r f).launch? k = s.launch? k := rfl
@[simp] theorem State.op?_updLane (s : State) (r : TRef) (f : Lane → Lane) (k : Nat) : (s.updLane r f).op? k = s.op? k := rfl
@[simp] theorem State.vdRec_updLane (s : State) (r : TRef) (f : Lane → Lane) (k : Nat) : (s.updLane r f).vdRec k = s.vdRec k := rfl
@[simp] theorem State.blk_updLane (s : State) (r : TRef) (f : Lane → Lane) (k : Nat) : (s.updLane r f).blk k = s.blk k := rfl
@[simp] theorem State.isDet_updLane (s : State) (r : TRef) (f : Lane → Lane) (k : Nat) : (s.updLane r f).isDet k = s.isDet k := rfl
@[simp] theorem State.vdOf_updLane (s : State) (r : TRef) (f : Lane → Lane) (k : Nat) : (s.updLane r f).vdOf k = s.vdOf k := rfl
@[simp] theorem State.thread?_dropOp (s : State) (id : Nat) (k : TRef) : (s.dropOp id).thread? k = s.thread? k := rfl
@[simp] theorem State.tile?_dropOp (s : State) (id : Nat) (k : TileRef) : (s.dropOp id).tile? k = s.tile? k := rfl
@[simp] theorem State.launch?_dropOp (s : State) (id : Nat) (k : Nat) : (s.dropOp id).launch? k = s.launch? k := rfl
@[simp] theorem State.vdRec_dropOp (s : State) (id : Nat) (k : Nat) : (s.dropOp id).vdRec k = s.vdRec k := rfl
@[simp] theorem State.blk_dropOp (s : State) (id : Nat) (k : Nat) : (s.dropOp id).blk k = s.blk k := rfl
@[simp] theorem State.isDet_dropOp (s : State) (id : Nat) (k : Nat) : (s.dropOp id).isDet k = s.isDet k := rfl
@[simp] theorem State.vdOf_dropOp (s : State) (id : Nat) (k : Nat) : (s.dropOp id).vdOf k = s.vdOf k := rfl
@[simp] theorem State.thread?_updVd (s : State) (n : Nat) (f : Vd → Vd) (k : TRef) : (s.updVd n f).thread? k = s.thread? k := rfl
@[simp] theorem State.tile?_updVd (s : State) (n : Nat) (f : Vd → Vd) (k : TileRef) : (s.updVd n f).tile? k = s.tile? k := rfl
@[simp] theorem State.launch?_updVd (s : State) (n : Nat) (f : Vd → Vd) (k : Nat) : (s.updVd n f).launch? k = s.launch? k := rfl
@[simp] theorem State.op?_updVd (s : State) (n : Nat) (f : Vd → Vd) (k : Nat) : (s.updVd n f).op? k = s.op? k := rfl
@[simp] theorem State.blk_updVd (s : State) (n : Nat) (f : Vd → Vd) (k : Nat) : (s.updVd n f).blk k = s.blk k := rfl
@[simp] theorem State.isDet_updVd (s : State) (n : Nat) (f : Vd → Vd) (k : Nat) : (s.updVd n f).isDet k = s.isDet k := rfl
@[simp] theorem State.vdOf_updVd (s : State) (n : Nat) (f : Vd → Vd) (k : Nat) : (s.updVd n f).vdOf k = s.vdOf k := rfl
@[simp] theorem State.thread?_at (s : State) (c : Nat) (i : Instr) (k : TRef) : (s.at_ c i).thread? k = s.thread? k := rfl
@[simp] theorem State.tile?_at (s : State) (c : Nat) (i : Instr) (k : TileRef) : (s.at_ c i).tile? k = s.tile? k := rfl
@[simp] theorem State.launch?_at (s : State) (c : Nat) (i : Instr) (k : Nat) : (s.at_ c i).launch? k = s.launch? k := rfl
@[simp] theorem State.op?_at (s : State) (c : Nat) (i : Instr) (k : Nat) : (s.at_ c i).op? k = s.op? k := rfl
@[simp] theorem State.vdRec_at (s : State) (c : Nat) (i : Instr) (k : Nat) : (s.at_ c i).vdRec k = s.vdRec k := rfl
@[simp] theorem State.blk_at (s : State) (c : Nat) (i : Instr) (k : Nat) : (s.at_ c i).blk k = s.blk k := rfl
@[simp] theorem State.isDet_at (s : State) (c : Nat) (i : Instr) (k : Nat) : (s.at_ c i).isDet k = s.isDet k := rfl
@[simp] theorem State.vdOf_at (s : State) (c : Nat) (i : Instr) (k : Nat) : (s.at_ c i).vdOf k = s.vdOf k := rfl

@[simp] theorem Thread.reg_setReg (t : Thread) (r q : Reg) (w : Word) :
    (t.setReg r w).reg q = if r = q then w else t.reg q := by
  simp only [Thread.reg, Thread.setReg, Fin.getElem_fin, Vector.getElem_set]
  simp [← BitVec.toNat_inj]

@[simp] theorem Thread.tokAt_setTok (t : Thread) (k j : Tok) (v : Token) :
    (t.setTok k v).tokAt j = if k = j then v else t.tokAt j := by
  simp only [Thread.tokAt, Thread.setTok, Fin.getElem_fin, Vector.getElem_set]
  simp [← BitVec.toNat_inj]

/-- Putting a thread back as it stands changes nothing. -/
theorem State.setThread_self {s : State} {r : TRef} {t : Thread} (h : s.thread? r = some t) : s.setThread r t = s := by
  simp only [State.setThread, Assoc.set_of_get? h]

/-- On a thread that the state holds, `updThread` sets it. -/
theorem State.updThread_eq {s : State} {r : TRef} {t : Thread} (h : s.thread? r = some t) (f : Thread → Thread) :
    s.updThread r f = s.setThread r (f t) := by
  simp only [State.updThread, State.setThread, Assoc.upd_of_get? f h]

@[simp] theorem State.setThread_setThread (s : State) (r : TRef) (t u : Thread) :
    (s.setThread r t).setThread r u = s.setThread r u := by
  simp only [State.setThread, Assoc.set_set]

@[simp] theorem State.updThread_updThread (s : State) (r : TRef) (f g : Thread → Thread) :
    (s.updThread r f).updThread r g = s.updThread r fun t => g (f t) := by
  simp only [State.updThread, Assoc.upd_upd]

end Sys2Proof.Machine
end

