-- ==== Sys2Proof/Laws/Ops.lean ====
section
/-!
SUPPORT. One lemma per shared operation, that says everything it can do: when an instruction reaches its own effect and what it does
instead (03 R53), what issue, a fixed-latency result, a post and a trap entry are, and which operations touch no byte memory. Proofs
about an instruction cite these and do not unfold the operations.
-/
namespace Sys2Proof.Machine

/-! ### The turn and the checks -/

theorem State.atTurn_iff {s : State} {r : TRef} {t : Thread} :
    s.atTurn r t = true ↔ s.cur = some r ∧ s.thread? r = some t ∧ t.reports = [] ∧ t.run = .ready ∧ t.trip = [] := by
  simp [State.atTurn, and_assoc]

theorem State.clearToIssue_iff {s : State} {r : TRef} {t : Thread} {c : Ctl} {u : Uses} :
    s.clearToIssue r t c u = true ↔
      s.atTurn r t = true ∧ t.waitMet c = true ∧ t.waited (u.reads ++ u.writes) = true ∧
        ∀ x ∈ u.pairs, Reg.odd x = false := by
  simp [State.clearToIssue, and_assoc]

theorem State.curThread?_eq {s : State} {r : TRef} {t : Thread} (hc : s.cur = some r) (ht : s.thread? r = some t) :
    s.curThread? = some (r, t) := by simp [State.curThread?, hc, ht]

/-- With no report waiting, a turn does what the checks say: the trap, the wait, or the instruction's own effect. -/
theorem issue_atTurn {c : Ctl} {n : Thread → Need} {body : TRef → Thread → State → State} {s : State} {r : TRef} {t : Thread}
    (h : s.atTurn r t = true) :
    issue c n body s =
      match gate c (n t) t (s.isDet r.l) with
      | .trap cause tval taux => .next (s.trapHere r t cause tval taux)
      | .wait => .next (s.waitTurn r t c)
      | .go => .next (body r t s) := by
  obtain ⟨hc, ht, hr, hrun, htrip⟩ := State.atTurn_iff.mp h
  simp only [issue, State.curThread?_eq hc ht, hr, hrun, htrip]
  cases gate c (n t) t (s.isDet r.l) <;> rfl

/-- A TRIP follower whose first copies are made, and an instruction that a busy resource held, do not repeat the checks. -/
theorem issue_again {c : Ctl} {n : Thread → Need} {body : TRef → Thread → State → State} {s : State} {r : TRef} {t : Thread}
    (hc : s.cur = some r) (ht : s.thread? r = some t) (h : t.midTrip = true ∨ (t.run = .latched ∧ t.reports = [])) :
    issue c n body s = .next (body r t s) := by
  rcases h with h | ⟨h, h'⟩
  · have : t.trip ≠ [] := by simp only [Thread.midTrip, Bool.and_eq_true, decide_eq_true_eq] at h; exact h.1
    simp [issue, State.curThread?_eq hc ht, h, this]
  · simp [issue, State.curThread?_eq hc ht, h, h']

theorem oneBit_getLsbD (n i : Nat) (hi : i < 16) : (BitVec.ofNat 16 (1 <<< n)).getLsbD i = decide (n = i) := by
  rw [BitVec.getLsbD_ofNat, Nat.one_shiftLeft, Nat.testBit_two_pow]
  simp [hi]

theorem pendMask_bit (t : Thread) (l : List Reg) (m : BitVec 16) (i : Nat) (hi : i < 16) :
    (l.foldl (fun (m : BitVec 16) r => if t.pend.getLsbD r.toNat then m ||| BitVec.ofNat 16 (1 <<< r.toNat) else m) m).getLsbD i =
      (m.getLsbD i || (t.pend.getLsbD i && l.any fun x => x.toNat == i)) := by
  induction l generalizing m with
  | nil => simp
  | cons x l ih =>
    rw [List.foldl_cons, ih, List.any_cons]
    by_cases hx : x.toNat = i
    · have h1 : (x.toNat == i) = true := by simpa using hx
      rw [h1, Bool.true_or, hx]
      cases hp : t.pend.getLsbD i
      · simp
      · rw [if_pos rfl, BitVec.getLsbD_or, oneBit_getLsbD _ _ hi]; simp
    · have h1 : (x.toNat == i) = false := by simpa using hx
      rw [h1, Bool.false_or]
      split
      · rw [BitVec.getLsbD_or, oneBit_getLsbD _ _ hi]; simp [hx]
      · rfl

/-- Bit i of the mask is set exactly when i is named and its PEND bit is set. -/
theorem pendMask_getLsbD (t : Thread) (l : List Reg) (i : Nat) (hi : i < 16) :
    (pendMask t l).getLsbD i = (t.pend.getLsbD i && l.any fun x => x.toNat == i) := by
  refine (pendMask_bit t l 0 i hi).trans ?_
  simp

theorem pendMask_eq_zero {t : Thread} {l : List Reg} (h : (l.all fun x => !t.pend.getLsbD x.toNat) = true) :
    pendMask t l = 0 := by
  apply BitVec.eq_of_getLsbD_eq
  intro i hi
  rw [pendMask_getLsbD t l i hi]
  simp only [List.all_eq_true, Bool.not_eq_true'] at h
  cases hp : t.pend.getLsbD i
  · simp
  · rw [Bool.true_and, show BitVec.getLsbD (0 : BitVec 16) i = false from BitVec.getLsbD_zero, List.any_eq_false]
    intro x hx he
    have := h x hx
    rw [beq_iff_eq.mp he, hp] at this
    exact absurd this (by simp)

/-- An instruction that no check of 03 R53 stops. The first five conditions are its own restrictions (09 R256). -/
theorem gate_go {c : Ctl} {n : Need} {t : Thread} {det : Bool} (hp : n.priv = none) (hb : n.badsub = false)
    (hd : (n.det && det) = false) (hg : n.go = false ∨ t.tl = 0) (hl : n.lead = false ∨ t.lead = true)
    (hpairs : ∀ x ∈ n.pairs, Reg.odd x = false) (hw : t.waitMet c = true) (hu : t.waited (n.reads ++ n.writes) = true) :
    gate c n t det = .go := by
  have h1 : (n.go && decide (t.tl > 0)) = false := by rcases hg with h | h <;> simp [h]
  have h2 : (n.lead && !t.lead) = false := by rcases hl with h | h <;> simp [h]
  have h3 : n.pairs.any Reg.odd = false := by simpa using hpairs
  have h4 : (decide (c.thr ≠ 0) && t.overAt c.tok (if c.wc then c.thr.toNat else 0)) = false := by
    rcases Bool.or_eq_true_iff.mp hw with h | h
    · simp at h; simp [h]
    · simp only [Bool.and_eq_true, Bool.not_eq_true'] at h; rw [h.1, Bool.and_false]
  have h5 : ¬ (t.tokAt c.tok).value < c.thr.toNat := by
    rcases Bool.or_eq_true_iff.mp hw with h | h
    · simp at h; simp [h]
    · simp only [Bool.and_eq_true, decide_eq_true_eq] at h; omega
  have h6 : (t.uwchk && decide (pendMask t (n.reads ++ n.writes) ≠ 0)) = false := by
    rcases Bool.or_eq_true_iff.mp hu with h | h
    · simp at h; simp [h]
    · simp [pendMask_eq_zero h]
  unfold gate
  rw [if_neg (by simp [hp]), if_neg (by simp [hb]), if_neg (by simp [hd]), if_neg (by simp [h1]), if_neg (by simp [h2]),
    if_neg (by simp [h3]), if_neg (by rw [h4]; simp), if_neg h5, if_neg (by rw [h6]; simp)]

/-- An instruction of no restricted kind that nothing stops does its own effect. -/
theorem issue_clear {c : Ctl} {n : Thread → Need} {body : TRef → Thread → State → State} {s : State} {r : TRef} {t : Thread}
    {u : Uses} (h : s.clearToIssue r t c u = true) (hn : n t = { reads := u.reads, writes := u.writes, pairs := u.pairs }) :
    issue c n body s = .next (body r t s) := by
  obtain ⟨ha, hw, hu, hp⟩ := State.clearToIssue_iff.mp h
  rw [issue_atTurn ha, hn, gate_go rfl rfl rfl (.inl rfl) (.inl rfl) hp hw hu]

/-- The same for an instruction with restrictions that are met. -/
theorem issue_clear_restricted {c : Ctl} {n : Thread → Need} {body : TRef → Thread → State → State} {s : State} {r : TRef}
    {t : Thread} {u : Uses} (h : s.clearToIssue r t c u = true) (hr : (n t).reads = u.reads) (hw : (n t).writes = u.writes)
    (hp : (n t).pairs = u.pairs) (hpriv : (n t).priv = none) (hb : (n t).badsub = false)
    (hd : ((n t).det && s.isDet r.l) = false) (hg : (n t).go = false ∨ t.tl = 0) (hl : (n t).lead = false ∨ t.lead = true) :
    issue c n body s = .next (body r t s) := by
  obtain ⟨ha, hwt, hu, hpr⟩ := State.clearToIssue_iff.mp h
  rw [issue_atTurn ha, gate_go hpriv hb hd hg hl (by rw [hp]; exact hpr) hwt (by rw [hr, hw]; exact hu)]

/-- A privileged form at TL 0 traps PRIVILEGED before every other check (03 R53; 09 R251). -/
theorem issue_privileged {c : Ctl} {n : Thread → Need} {body : TRef → Thread → State → State} {s : State} {r : TRef} {t : Thread}
    {d : DWord} (h : s.atTurn r t = true) (hp : (n t).priv = some d) :
    issue c n body s = .next (s.trapHere r t cPrivileged d) := by
  rw [issue_atTurn h]; simp [gate, hp]

/-- Outside deterministic mode, a turn whose wait is not met changes nothing. -/
theorem State.waitTurn_eq {s : State} {r : TRef} {t : Thread} {c : Ctl} (h : s.isDet r.l = false) : s.waitTurn r t c = s := by
  simp [State.waitTurn, h]

/-! ### Issue itself (03 R54, R56) -/

/-- Outside deterministic mode, issue changes the thread and nothing else. -/
theorem State.retire_eq {s : State} {r : TRef} {t : Thread} (c : Ctl) (ht : s.thread? r = some t) (hd : s.isDet r.l = false) :
    s.retire r c = s.setThread r ((t.consumeWait c).passAt c s.cycle s.nextId) := by
  rw [State.retire, State.updThread_eq ht, State.countChunk, State.isDet_setThread, hd]
  rfl

/-- In deterministic mode it counts in the lane's chunk as well (17 R346). -/
theorem State.retire_thread {s : State} {r : TRef} {t : Thread} (c : Ctl) (ht : s.thread? r = some t) :
    (s.retire r c).thread? r = some ((t.consumeWait c).passAt c s.cycle s.nextId) := by
  rw [State.retire, State.countChunk]
  split
  · simp [State.updChunk, ht]
  · simp [ht]

theorem State.retire_other {s : State} {r q : TRef} (c : Ctl) (h : r ≠ q) : (s.retire r c).thread? q = s.thread? q := by
  rw [State.retire, State.countChunk]
  split <;> simp [State.updChunk, h]

theorem State.retire_fields (s : State) (r : TRef) (c : Ctl) :
    (s.retire r c).cycle = s.cycle ∧ (s.retire r c).cur = s.cur ∧ (s.retire r c).nextId = s.nextId ∧
    (s.retire r c).agenda = s.agenda ∧ (s.retire r c).ops = s.ops ∧ (s.retire r c).vtiles = s.vtiles ∧
    (s.retire r c).launches = s.launches ∧ (s.retire r c).hbm = s.hbm ∧ (s.retire r c).ws = s.ws ∧
    (s.retire r c).pages = s.pages ∧ (s.retire r c).vds = s.vds ∧ (s.retire r c).errlog = s.errlog := by
  unfold State.retire State.countChunk
  split <;> exact ⟨rfl, rfl, rfl, rfl, rfl, rfl, rfl, rfl, rfl, rfl, rfl, rfl⟩

/-! ### TRIP and the shared shapes (03 R72) -/

/-- Without TRIP the consume is made and the effect follows at once. -/
theorem withTrip_none {c : Ctl} {r : TRef} {t : Thread} {v : DWord} {x : Exc}
    {done : State → Thread → DWord → Exc → State} {s : State} (h : c.hasTrip = false) :
    withTrip c r t v x done s = done (s.updThread r fun t => t.consumeWait c) t v x := by
  simp [withTrip, h]

/-- Consume and issue together are the issue. -/
theorem State.retireT_consume (s : State) (r : TRef) (c : Ctl) :
    (s.updThread r fun t => t.consumeWait c).retireT r c = s.retire r c := by
  simp only [State.retireT, State.retire, State.updThread_updThread, State.updThread_cycle, State.updThread_nextId]

/-- An instruction that computes one value, with nothing to stop it: it issues, and the value is on its way (02 R40). -/
theorem compute_clear {c : Ctl} {n : Need} {lat : Nat} {f : Thread → DWord} {mk : DWord → List (Reg × Word)} {s : State}
    {r : TRef} {t : Thread} {u : Uses} (h : s.clearToIssue r t c u = true)
    (hn : n = { reads := u.reads, writes := u.writes, pairs := u.pairs }) (ht : c.hasTrip = false) :
    compute c n lat f mk s = .next ((s.retire r c).fly r lat (mk (f t)) 0 (sigOf c t)) := by
  rw [compute, issue_clear h hn, withTrip_none ht, State.retireT_consume]

/-- The same for a word result in one register. -/
theorem alu_clear {c : Ctl} {reads : List Reg} {rd : Reg} {lat : Nat} {f : Thread → Word} {s : State} {r : TRef} {t : Thread}
    (h : s.clearToIssue r t c { reads, writes := [rd] } = true) (ht : c.hasTrip = false) :
    alu c reads rd lat f s = .next ((s.retire r c).fly r lat [(rd, f t)] 0 (sigOf c t)) := by
  rw [alu, compute_clear h rfl ht]
  have : (ofWord (f t)).lo = f t := by
    apply BitVec.eq_of_getLsbD_eq
    intro i hi
    simp only [ofWord, DWord.mk, DWord.lo, BitVec.getLsbD_extractLsb', BitVec.getLsbD_append]
    simp [hi]
  simp [oneReg, this]

/-- An instruction without result, with nothing to stop it. -/
theorem plain_clear {c : Ctl} {n : Thread → Need} {f : TRef → State → State} {s : State} {r : TRef} {t : Thread} {u : Uses}
    (h : s.clearToIssue r t c u = true) (hn : n t = { reads := u.reads, writes := u.writes, pairs := u.pairs }) :
    plain c n f s = .next ((f r (s.retire r c)).postNext r (sigOf c t)) := by
  rw [plain, issue_clear h hn]

/-! ### Results and posts -/

/-- The result that `fly` puts on its way. -/
def flightOf (s : State) (lat : Nat) (w : List (Reg × Word)) (x : Exc) (g : Option Sig) : Flight :=
  { id := s.nextId, due := s.cycle + lat, writes := w, flags := x, sig := g }

theorem State.fly_thread {s : State} {r : TRef} {t : Thread} {lat : Nat} {w : List (Reg × Word)} {x : Exc} {g : Option Sig}
    (ht : s.thread? r = some t) :
    (s.fly r lat w x g).thread? r = some { t with inflight := t.inflight ++ [flightOf s lat w x g] } := by
  simp [State.fly, State.at_, State.thread?, State.updThread, flightOf] at ht ⊢
  simp [ht]

theorem State.fly_fields (s : State) (r : TRef) (lat : Nat) (w : List (Reg × Word)) (x : Exc) (g : Option Sig) :
    (s.fly r lat w x g).nextId = s.nextId + 1 ∧
    (s.fly r lat w x g).agenda = insertEvent s.agenda (s.cycle + lat) (.fixedLatencyWriteback r s.nextId) ∧
    (s.fly r lat w x g).cycle = s.cycle ∧ (s.fly r lat w x g).ops = s.ops ∧ (s.fly r lat w x g).vtiles = s.vtiles ∧
    (s.fly r lat w x g).launches = s.launches ∧ (s.fly r lat w x g).lanes = s.lanes ∧ (s.fly r lat w x g).hbm = s.hbm ∧
    (s.fly r lat w x g).ws = s.ws ∧ (s.fly r lat w x g).pages = s.pages :=
  ⟨rfl, rfl, rfl, rfl, rfl, rfl, rfl, rfl, rfl, rfl⟩

/-- A post without SG is nothing; with it, it is an event of the next cycle. -/
theorem State.postNext_none (s : State) (r : TRef) : s.postNext r none = s := rfl
theorem State.postNext_some (s : State) (r : TRef) (g : Sig) :
    s.postNext r (some g) = s.at_ (s.cycle + 1) (.signalPost r g.region g.tok g.inc) := rfl

theorem State.postNext_threads (s : State) (r : TRef) (g : Option Sig) : (s.postNext r g).threads = s.threads := by
  cases g <;> rfl

/-- What is in the agenda after an event is put into it. -/
theorem mem_insertEvent {l : List (Nat × Instr)} {c : Nat} {i : Instr} {e : Nat × Instr} :
    e ∈ insertEvent l c i ↔ e = (c, i) ∨ e ∈ l := by
  induction l with
  | nil => simp [insertEvent]
  | cons a l ih =>
    simp only [insertEvent]
    split
    · simp
    · simp only [List.mem_cons, ih]
      exact or_left_comm

/-! ### Traps (12 R293) -/

/-- Taking a trap below level 2: at once when every result has landed and PEND is 0, and else when that is so. -/
theorem State.takeTrap_eq {s : State} {r : TRef} {t : Thread} (i : TrapInfo) (ht : s.thread? r = some t) (hl : t.tl < 2)
    (hc : s.awaitsCommit r = false) :
    s.takeTrap r i =
      s.setThread r (if t.awake.quiet then t.awake.enterTrap i s.cycle else { t.awake with run := .trapDrain i false, trip := [] }) := by
  have h2 : ¬ t.tl ≥ 2 := by omega
  simp only [State.takeTrap, ht, if_neg h2, hc, Bool.false_eq_true, if_false]
  split <;> rfl

/-- A third trap escalates (12 R297). -/
theorem State.takeTrap_escalates {s : State} {r : TRef} {t : Thread} (i : TrapInfo) (ht : s.thread? r = some t)
    (hl : 2 ≤ t.tl) : s.takeTrap r i = s.escalate r i := by
  simp [State.takeTrap, ht, hl]

/-- What a trap entry leaves in the thread: the level, the vector of the cause's class, and when its handler may issue. -/
theorem Thread.enterTrap_fields (t : Thread) (i : TrapInfo) (now : Nat) :
    (t.enterTrap i now).tl = t.tl + 1 ∧
    (t.enterTrap i now).pc = tvecBase t.tvec + BitVec.ofNat 64 (i.cause / 32 * 64) ∧
    (t.enterTrap i now).refetchUntil = now + 12 ∧ (t.enterTrap i now).run = .ready ∧ (t.enterTrap i now).block = none ∧
    (t.enterTrap i now).tok = t.tok ∧ (t.enterTrap i now).fpctl = t.fpctl ∧ (t.enterTrap i now).pend = t.pend := by
  unfold Thread.enterTrap Thread.setHalf
  by_cases h : t.tl + 1 = 1 <;> simp only [h, if_true, if_false] <;>
    refine ⟨?_, ?_, ?_, ?_, ?_, ?_, ?_, ?_⟩ <;> first | rfl | trivial

/-! ### Operations in flight (02 R38) -/

/-- The operation as `launchOp` files it. -/
def filed (s : State) (o : Op) : Op :=
  { o with born := s.cycle, after := o.after.filter fun i => (s.op? i).isSome, chunk := s.chunkNo o.t, view := s.viewOf o }

theorem State.issued_launches (s : State) (r : TRef) (k : Fin 7) (id : Nat) (l : List Nat) :
    (s.issued r k id l).launches = s.launches := by unfold State.issued; split <;> rfl

/-- Outside deterministic mode, an operation is filed under the next number, its registers' PEND bits are set, and it joins what its
thread has issued. -/
theorem State.launchOp_eq {s : State} {o : Op} (hd : s.isDet o.tile.l = false) :
    s.launchOp o =
      (({ s with ops := s.ops ++ [(s.nextId, filed s o)], nextId := s.nextId + 1 } : State).updThread o.t fun t =>
        { t with pend := t.pend ||| pendOf o.regs }).issued o.t o.track s.nextId (s.viewOf o) := by
  have h : ∀ x : State, x.launches = s.launches → x.isDet o.tile.l = false := by
    intro x hx
    rw [← hd]
    simp only [State.isDet, State.blk, State.launch?, hx]
  simp only [State.launchOp, filed]
  rw [if_neg]
  rw [Bool.not_eq_true]; exact h _ (State.issued_launches ..)

/-- An operation whose resources are free goes on; one that lacks a resource waits in the retry latch (12 R298). -/
theorem State.holding_free {s : State} {r : TRef} {l : List Hold} {body : State → State}
    (h : ∀ x ∈ l, s.holdFree r.tile x = true) : s.holding r l body = body s := by
  have : s.firstHold r.tile l = none := by
    simp only [State.firstHold, List.find?_eq_none]
    intro x hx; simp [h x hx]
  simp [State.holding, this]

theorem State.holding_busy {s : State} {r : TRef} {l : List Hold} {body : State → State} {h : Hold}
    (hh : s.firstHold r.tile l = some h) : s.holding r l body = s.latch r h := by simp [State.holding, hh]

/-- Outside deterministic mode nothing is logged. -/
theorem State.logged_eq {s : State} {r : TRef} {undo buf : Nat} {body : State → State} (hd : s.isDet r.l = false) :
    s.logged r undo buf body = body s := by simp [State.logged, State.logFits, State.takeLog, hd]

/-- The end of an operation that a commit has not released. -/
theorem State.endOp_eq {s : State} {id : Nat} {o : Op} (ho : s.op? id = some o) (h : o.atStart = false) (hl : o.tile.l ≠ 2 ^ 64 + 1) :
    s.endOp id = (s.completeOp id).settle o.t := by
  rw [State.endOp, ho]
  exact (if_neg hl).trans (if_neg (by simp [h]))

/-- Completion: the results are written, the PEND bits go, the signals post, the operation is gone. -/
theorem State.completeOp_eq {s : State} {id : Nat} {o : Op} (ho : s.op? id = some o) :
    s.completeOp id =
      ((((({ s.updThread o.t (fun t => t.longWrites s.nextId o.res) with nextId := s.nextId + 1 } : State).clearPend o.t id
        o.regs).postBy o.t (id :: o.view) o.sig).postBy o.t (id :: o.view) o.gbar).dropOp id) := by simp only [State.completeOp, ho]

/-! ### The byte memories -/

theorem State.memWf_iff {s : State} :
    s.memWf = true ↔ s.hbm.wf = true ∧ s.ws.wf = true ∧ (∀ e ∈ s.vtiles, e.2.memWf = true) ∧
      (∀ p ∈ s.pages, p.saved.wf = true) ∧ ∀ e ∈ s.launches, e.2.image.wf = true := by
  simp [State.memWf, and_assoc]

/-- The form depends on five fields only. -/
theorem State.memWf_congr {s s' : State} (h : s.memWf = true) (h1 : s'.hbm = s.hbm) (h2 : s'.ws = s.ws)
    (h3 : s'.vtiles = s.vtiles) (h4 : s'.pages = s.pages) (h5 : s'.launches = s.launches) : s'.memWf = true := by
  rw [State.memWf_iff] at h ⊢
  rw [h1, h2, h3, h4, h5]
  exact h

theorem State.memWf_eq {s s' : State} (h1 : s'.hbm = s.hbm) (h2 : s'.ws = s.ws) (h3 : s'.vtiles = s.vtiles)
    (h4 : s'.pages = s.pages) (h5 : s'.launches = s.launches) : s'.memWf = s.memWf := by
  rw [State.memWf, State.memWf, h1, h2, h3, h4, h5]

@[simp] theorem State.memWf_setThread (s : State) (r : TRef) (t : Thread) : (s.setThread r t).memWf = s.memWf := rfl
@[simp] theorem State.memWf_updThread (s : State) (r : TRef) (f : Thread → Thread) : (s.updThread r f).memWf = s.memWf := rfl
@[simp] theorem State.memWf_updOp (s : State) (i : Nat) (f : Op → Op) : (s.updOp i f).memWf = s.memWf := rfl
@[simp] theorem State.memWf_dropOp (s : State) (i : Nat) : (s.dropOp i).memWf = s.memWf := rfl
@[simp] theorem State.memWf_updLane (s : State) (r : TRef) (f : Lane → Lane) : (s.updLane r f).memWf = s.memWf := rfl
@[simp] theorem State.memWf_updVd (s : State) (n : Nat) (f : Vd → Vd) : (s.updVd n f).memWf = s.memWf := rfl
@[simp] theorem State.memWf_at_ (s : State) (c : Nat) (i : Instr) : (s.at_ c i).memWf = s.memWf := rfl
@[simp] theorem State.memWf_fly (s : State) (r : TRef) (lat : Nat) (w : List (Reg × Word)) (x : Exc) (g : Option Sig) :
    (s.fly r lat w x g).memWf = s.memWf := rfl
theorem State.memWf_log (s : State) (l : List ErrRec) (n : Nat) : State.memWf { s with errlog := l, errSeq := n } = s.memWf := rfl
@[simp] theorem State.memWf_logErr (s : State) (src unit sev cause : Nat) (a : DWord) (pm : BitVec 64) (vd : Nat) (lid : Word)
    (n : Nat) : (s.logErr src unit sev cause a pm vd lid n).memWf = s.memWf := by
  unfold State.logErr
  exact State.memWf_log s _ _
@[simp] theorem State.memWf_postNext (s : State) (r : TRef) (g : Option Sig) : (s.postNext r g).memWf = s.memWf := by
  cases g <;> rfl
@[simp] theorem State.memWf_postSig? (s : State) (r : TRef) (g : Option Sig) : (s.postSig? r g).memWf = s.memWf := by
  cases g <;> rfl
@[simp] theorem State.memWf_retire (s : State) (r : TRef) (c : Ctl) : (s.retire r c).memWf = s.memWf := by
  unfold State.retire State.countChunk; split <;> rfl

/-- A change of a virtual tile that keeps its own memories in form keeps the state's. -/
theorem State.memWf_updTile {s : State} (h : s.memWf = true) (v : TileRef) {f : VTile → VTile}
    (hf : ∀ x, x.memWf = true → (f x).memWf = true) : (s.updTile v f).memWf = true := by
  rw [State.memWf_iff] at h ⊢
  refine ⟨h.1, h.2.1, ?_, h.2.2.2.1, h.2.2.2.2⟩
  intro e he
  rcases Assoc.mem_upd he with he | ⟨a, ha, rfl⟩
  · exact h.2.2.1 e he
  · exact hf a (h.2.2.1 _ ha)

theorem State.memWf_updLaunch {s : State} (h : s.memWf = true) (l : Nat) {f : Launch → Launch}
    (hf : ∀ x, x.image.wf = true → (f x).image.wf = true) : (s.updLaunch l f).memWf = true := by
  rw [State.memWf_iff] at h ⊢
  refine ⟨h.1, h.2.1, h.2.2.1, h.2.2.2.1, ?_⟩
  intro e he
  rcases Assoc.mem_upd he with he | ⟨a, ha, rfl⟩
  · exact h.2.2.2.2 e he
  · exact hf a (h.2.2.2.2 _ ha)

theorem State.memWf_startKill (s : State) (l status : Nat) (h : s.memWf = true) : (s.startKill l status).memWf = true := by
  unfold State.startKill
  split
  · exact h
  · split
    · exact h
    · simp only [State.draw, State.memWf_at_]
      exact State.memWf_updLaunch (s := { s with fresh := s.fresh + 1 }) h l fun x hx => hx

theorem State.memWf_escalate (s : State) (r : TRef) (i : TrapInfo) (h : s.memWf = true) : (s.escalate r i).memWf = true := by
  unfold State.escalate
  split
  · exact h
  · dsimp only
    split
    · exact State.memWf_updLaunch (by simpa using h) _ fun x hx => hx
    · exact State.memWf_updLaunch (by simpa using h) _ fun x hx => hx
    · simpa using h
    · simpa using h
    · simpa using h
    · exact State.memWf_startKill _ _ _ (State.memWf_updLaunch (by simpa using h) _ fun x hx => hx)

theorem State.memWf_takeTrap (s : State) (r : TRef) (i : TrapInfo) (h : s.memWf = true) : (s.takeTrap r i).memWf = true := by
  unfold State.takeTrap
  split
  · exact h
  · split
    · exact State.memWf_escalate _ _ _ h
    · split
      · exact h
      · dsimp only
        split <;> exact h

/-- An error record touches the error log only. -/
theorem State.logErr_eq (s : State) (src unit sev cause : Nat) (a : DWord) (pm : BitVec 64) (vd : Nat) (lid : Word) (n : Nat) :
    ∃ l k, s.logErr src unit sev cause a pm vd lid n = { s with errlog := l, errSeq := k } := ⟨_, _, rfl⟩

theorem State.memWf_updChunk (s : State) (r : TRef) (f : Chunk → Chunk) : (s.updChunk r f).memWf = s.memWf := rfl

/-- A raw write keeps the scratchpad's form: marks touch no byte. -/
theorem State.writeWordMarks_mems (s : State) (v : VTile) (w : Nat) (b : Bool) :
    (s.writeWordMarks v w b).spad = v.spad ∧ (s.writeWordMarks v w b).slots = v.slots := by
  unfold State.writeWordMarks
  split
  · exact ⟨rfl, rfl⟩
  · split <;> exact ⟨rfl, rfl⟩

theorem VTile.memWf_marks {l : List Nat} {f : VTile → Nat → VTile} (hf : ∀ v w, (f v w).spad = v.spad ∧ (f v w).slots = v.slots)
    (v : VTile) : (l.foldl f v).spad = v.spad ∧ (l.foldl f v).slots = v.slots := by
  induction l generalizing v with
  | nil => exact ⟨rfl, rfl⟩
  | cons w l ih =>
    rw [List.foldl_cons]
    exact ⟨(ih (f v w)).1.trans (hf v w).1, (ih (f v w)).2.trans (hf v w).2⟩

theorem State.memWf_spadData {s : State} {v : VTile} (off : Nat) (bs : List Byte) (rows : List (Nat × Nat))
    (h : v.memWf = true) : (s.spadData v off bs rows).memWf = true := by
  have hm := VTile.memWf_marks (l := wordsIn off bs.length)
    (f := fun v w => s.writeWordMarks v w (decide (off ≤ w) && decide (w + 8 ≤ off + bs.length)))
    (fun v w => State.writeWordMarks_mems s v w _) v
  simp only [VTile.memWf, State.spadData, Bool.and_eq_true] at h ⊢
  rw [hm.1, hm.2]
  exact ⟨Memory.wf_writeN h.1 off bs, h.2⟩

theorem State.memWf_retireSoon (s : State) (u : RetUnit) (n : Nat) : (s.retireSoon u n).memWf = s.memWf := rfl

theorem State.memWf_sawCorrected (s : State) (u : RetUnit) (w : Nat) : (s.sawCorrected u w).memWf = s.memWf := by
  unfold State.sawCorrected
  split
  · rfl
  · dsimp only
    split
    · split <;> rfl
    · rfl

/-- What a read finds corrected is written back: the marks change, no byte. -/
theorem State.memWf_mendWord (s : State) (r : TileRef) (v : VTile) (w : Nat) (h : s.memWf = true) :
    (s.mendWord r v w).memWf = true := by
  unfold State.mendWord
  split
  · rw [State.memWf_sawCorrected, State.logQuiet, State.memWf_logErr]
    exact State.memWf_updTile h r fun x hx => hx
  · exact h

theorem memWf_foldl {α : Type} {l : List α} {f : State → α → State} (hf : ∀ s a, s.memWf = true → (f s a).memWf = true)
    {s : State} (h : s.memWf = true) : (l.foldl f s).memWf = true := by
  induction l generalizing s with
  | nil => exact h
  | cons a l ih => exact ih (hf s a h)

theorem State.memWf_dropLags (s : State) (r : TileRef) (v : VTile) (off n : Nat) (h : s.memWf = true) :
    (s.dropLags r v off n).memWf = true := by
  unfold State.dropLags
  split
  · exact h
  · exact State.memWf_updTile h r fun x hx => hx

/-- A record of what a read finds, and the retirement that it asks for, touch no memory. -/
theorem State.memWf_logRetire (s : State) (src unit sev : Nat) (a : DWord) (u : RetUnit) (n : Nat) (h : s.memWf = true) :
    ((s.logQuiet src unit sev a).retireSoon u n).memWf = true := by
  rw [State.memWf_retireSoon, State.logQuiet, State.memWf_logErr]; exact h

theorem State.memWf_mendParity (s : State) (r : TileRef) (v : VTile) (w : Nat) (h : s.memWf = true) :
    (s.mendParity r v w).memWf = true := by
  unfold State.mendParity
  dsimp only
  split
  · exact h
  · split
    · rw [State.memWf_sawCorrected, State.logQuiet, State.memWf_logErr]
      exact State.memWf_updTile h r fun x hx => hx
    · exact State.memWf_logRetire _ _ _ _ _ _ _ h

theorem State.memWf_mendMates (s : State) (r : TileRef) (v : VTile) (w : Nat) (h : s.memWf = true) :
    (s.mendMates r v w).memWf = true := by
  unfold State.mendMates
  refine State.memWf_mendParity _ _ _ _ (memWf_foldl (fun s m hs => ?_) h)
  split
  · exact hs
  · unfold State.meetMate
    split
    · exact State.memWf_mendWord _ _ _ _ hs
    · exact State.memWf_logRetire _ _ _ _ _ _ _ hs

theorem VTile.memWf_afterRead (v : VTile) (w : Nat) (k : WordRead) : (v.afterRead w k).memWf = v.memWf := by
  cases k with
  | poison b => cases b <;> rfl
  | _ => rfl

/-- A read of a word changes marks and the log, no byte. -/
theorem State.memWf_scrubWord (s : State) (r : TileRef) (v : VTile) (w : Nat) (h : s.memWf = true) :
    (s.scrubWord r v w).memWf = true := by
  unfold State.scrubWord
  have h1 : (s.updTile r fun v' => v'.afterRead w (s.readWord v w)).memWf = true :=
    State.memWf_updTile h r fun x hx => (VTile.memWf_afterRead x w _).trans hx
  dsimp only
  generalize (s.updTile r fun v' => v'.afterRead w (s.readWord v w)) = s' at h1 ⊢
  split
  · exact State.memWf_mendMates _ _ _ _ h1
  · rw [State.memWf_sawCorrected, State.logQuiet, State.memWf_logErr]; exact h1
  · exact State.memWf_mendMates _ _ _ _ (State.memWf_logRetire _ _ _ _ _ _ _ h1)
  · exact State.memWf_logRetire _ _ _ _ _ _ _ h1
  · refine State.memWf_mendMates _ _ _ _ ?_
    split
    · exact h1
    · exact State.memWf_logRetire _ _ _ _ _ _ _ h1
  · exact h1

theorem State.memWf_readOld (s : State) (r : TileRef) (v : VTile) (off n : Nat) (rows : List (Nat × Nat)) (h : s.memWf = true) :
    (s.readOld r v off n rows).memWf = true := by
  unfold State.readOld
  split
  · exact h
  · refine memWf_foldl (fun s w hs => ?_) h
    split
    · exact hs
    · unfold State.oldWord
      dsimp only
      have h1 : ∀ (v : VTile) (b : Bool), (if b = true then s.mendParity r v w else s).memWf = true := by
        intro v b
        split
        · exact State.memWf_mendParity _ _ _ _ hs
        · exact hs
      split
      · exact h1 _ _
      · split
        · exact State.memWf_scrubWord _ _ _ _ (h1 _ _)
        · exact State.memWf_updTile (State.memWf_scrubWord _ _ _ _ (h1 _ _)) r fun x hx => hx

theorem State.memWf_staleEntry (s : State) (r : TileRef) (due : Nat) (e : Nat × Nat) (h : s.memWf = true) :
    (State.staleEntry r due s e).memWf = true := by
  unfold State.staleEntry
  split
  · exact h
  · refine State.memWf_updTile ?_ r fun x hx => hx
    split
    · split
      · exact h
      · exact memWf_foldl (fun s k hs => State.memWf_mendParity _ _ _ _ hs) h
    · exact h

theorem State.memWf_spadRaw (s : State) (r : TileRef) (off : Nat) (bs : List Byte) (burst : Bool) (h : s.memWf = true) :
    (s.spadRaw r off bs burst).memWf = true := by
  unfold State.spadRaw
  split
  · exact h
  · rename_i v _
    dsimp only
    have h1 := State.memWf_readOld s r v off bs.length (s.staleRows v off bs.length burst) h
    generalize s.readOld r v off bs.length (s.staleRows v off bs.length burst) = s1 at h1 ⊢
    have h2 := State.memWf_dropLags s1 r v off bs.length h1
    have h3 : (s1.dropLags r v off bs.length).draw.2.memWf = true := h2
    refine State.memWf_updTile ?_ r fun x hx => State.memWf_spadData _ _ _ hx
    exact memWf_foldl (fun s e hs => State.memWf_staleEntry s r _ e hs)
      (memWf_foldl (fun s a hs => (State.memWf_at_ _ _ _).trans hs) h3)

theorem State.memWf_setOlds (s : State) (v : TileRef) (g : Nat) (l : List GranRec) : (s.setOlds v g l).memWf = s.memWf := rfl

theorem State.memWf_turnWrote (s : State) (l a n : Nat) (h : s.memWf = true) : (s.turnWrote l a n).memWf = true := by
  unfold State.turnWrote
  split
  · exact State.memWf_updLaunch h _ fun x hx => hx
  · exact h

theorem State.memWf_underWrites (s : State) (r : TileRef) (v : VTile) (off : Nat) (bs : List Byte) (h : s.memWf = true) :
    (s.underWrites r v off bs).2.memWf = true := by
  unfold State.underWrites
  refine memWf_foldl (l := placesIn off bs.length) (fun s g hs => ?_) h
  by_cases hg : s.granRecs r g = []
  · simpa [hg] using hs
  · simpa [hg, State.memWf_setOlds] using hs

/-- A write's records touch no memory. -/
theorem State.memWf_noteWrite (s : State) (r : TileRef) (v : VTile) (off : Nat) (bs : List Byte) (who : Option TRef)
    (h : s.memWf = true) : (s.noteWrite r v off bs who).2.memWf = true := by
  unfold State.noteWrite
  split
  · dsimp only; split <;> exact h
  · split
    · exact State.memWf_underWrites _ _ _ _ _ (State.memWf_turnWrote _ _ _ _ h)
    · exact h

theorem State.memWf_spadWrite (s : State) (r : TileRef) (off : Nat) (bs : List Byte) (who : Option TRef) (burst : Bool)
    (h : s.memWf = true) : (s.spadWrite r off bs who burst).memWf = true := by
  unfold State.spadWrite
  split
  · exact h
  · exact State.memWf_spadRaw _ _ _ _ _ (State.memWf_noteWrite _ _ _ _ _ _ h)

theorem State.memWf_pageWrite (s : State) (p : Page) (off : Nat) (b : Byte) (h : s.memWf = true) :
    (s.pageWrite p off b).memWf = true := by
  rw [State.memWf_iff] at h ⊢
  refine ⟨?_, h.2⟩
  unfold State.pageWrite
  generalize s.writeKeys p off = l
  have : ∀ m : Memory, m.wf = true → (l.foldl (fun m k => m.write k b) m).wf = true := by
    induction l with
    | nil => exact fun m hm => hm
    | cons k l ih => exact fun m hm => ih _ (Memory.wf_write hm k b)
  exact this _ h.1

theorem State.memWf_pageWriteN (s : State) (p : Page) (off : Nat) (bs : List Byte) (h : s.memWf = true) :
    (s.pageWriteN p off bs).memWf = true := by
  induction bs generalizing s off with
  | nil => exact h
  | cons b bs ih => exact ih _ _ (State.memWf_pageWrite s p off b h)

/-- A home's read of a word changes marks and the log, no byte. -/
theorem State.memWf_homeScrub (s : State) (home k : Nat) (h : s.memWf = true) : (s.homeScrub home k).memWf = true := by
  unfold State.homeScrub
  dsimp only
  split
  · exact h
  · split
    · rw [State.memWf_sawCorrected, State.logQuiet, State.memWf_logErr]; exact h
    · refine State.memWf_logRetire _ _ _ _ _ _ _ ?_; exact h

/-- A store to a page keeps the form. -/
theorem State.memWf_pageStore (s : State) (p : Page) (off : Nat) (bs : List Byte) (h : s.memWf = true) :
    (s.pageStore p off bs).memWf = true := by
  unfold State.pageStore State.pageMarks
  refine State.memWf_pageWriteN _ _ _ _ (memWf_foldl ?_ h)
  intro s w hs
  refine memWf_foldl ?_ hs
  intro s k hs
  dsimp only
  split
  · exact hs
  · exact State.memWf_homeScrub _ _ _ hs

end Sys2Proof.Machine
end

