-- ==== Sys2Proof/Laws/PerInstr.lean ====
section
/-!
SUPPORT. One lemma for each instruction: the decoder reads the operand area that the encoder wrote for it (03 R52, R58 to R64,
R76 to R89).
-/
namespace Sys2Proof.Laws.Encodes
set_option linter.unusedSimpArgs false

/-- The operand area of an instruction of the opcode map, its fields inside their limits, is read back as the instruction; an
event has no primary code, and a word of no instruction keeps its own. -/
def Statement (i : Instr) : Prop :=
  i.fieldsOk = true → ∀ op, i.opcode = some op → op < 256 ∧ decodeArea op i.ctl i.area = some i

theorem add (c : Ctl) (rd : Reg) (ra : Reg) (rb : Reg) : Statement (.add c rd ra rb) := by
  intro _ _ h; cases h
  exact ⟨by decide, FR.read (fun f => sub0 f (.add c f.rd f.ra f.rb)) (FR.mk rd ra rb 0 0) rfl⟩
theorem sub (c : Ctl) (rd : Reg) (ra : Reg) (rb : Reg) : Statement (.sub c rd ra rb) := by
  intro _ _ h; cases h
  exact ⟨by decide, FR.read (fun f => sub0 f (.sub c f.rd f.ra f.rb)) (FR.mk rd ra rb 0 0) rfl⟩
theorem mul (c : Ctl) (rd : Reg) (ra : Reg) (rb : Reg) : Statement (.mul c rd ra rb) := by
  intro _ _ h; cases h
  exact ⟨by decide, FR.read (fun f => sub0 f (.mul c f.rd f.ra f.rb)) (FR.mk rd ra rb 0 0) rfl⟩
theorem mulh (c : Ctl) (rd : Reg) (ra : Reg) (rb : Reg) : Statement (.mulh c rd ra rb) := by
  intro _ _ h; cases h
  exact ⟨by decide, FR.read (fun f => sub0 f (.mulh c f.rd f.ra f.rb)) (FR.mk rd ra rb 0 0) rfl⟩
theorem mulhu (c : Ctl) (rd : Reg) (ra : Reg) (rb : Reg) : Statement (.mulhu c rd ra rb) := by
  intro _ _ h; cases h
  exact ⟨by decide, FR.read (fun f => sub0 f (.mulhu c f.rd f.ra f.rb)) (FR.mk rd ra rb 0 0) rfl⟩
theorem div (c : Ctl) (rd : Reg) (ra : Reg) (rb : Reg) : Statement (.div c rd ra rb) := by
  intro _ _ h; cases h
  exact ⟨by decide, FR.read (fun f => sub0 f (.div c f.rd f.ra f.rb)) (FR.mk rd ra rb 0 0) rfl⟩
theorem divu (c : Ctl) (rd : Reg) (ra : Reg) (rb : Reg) : Statement (.divu c rd ra rb) := by
  intro _ _ h; cases h
  exact ⟨by decide, FR.read (fun f => sub0 f (.divu c f.rd f.ra f.rb)) (FR.mk rd ra rb 0 0) rfl⟩
theorem rem (c : Ctl) (rd : Reg) (ra : Reg) (rb : Reg) : Statement (.rem c rd ra rb) := by
  intro _ _ h; cases h
  exact ⟨by decide, FR.read (fun f => sub0 f (.rem c f.rd f.ra f.rb)) (FR.mk rd ra rb 0 0) rfl⟩
theorem remu (c : Ctl) (rd : Reg) (ra : Reg) (rb : Reg) : Statement (.remu c rd ra rb) := by
  intro _ _ h; cases h
  exact ⟨by decide, FR.read (fun f => sub0 f (.remu c f.rd f.ra f.rb)) (FR.mk rd ra rb 0 0) rfl⟩
theorem and (c : Ctl) (rd : Reg) (ra : Reg) (rb : Reg) : Statement (.and c rd ra rb) := by
  intro _ _ h; cases h
  exact ⟨by decide, FR.read (fun f => sub0 f (.and c f.rd f.ra f.rb)) (FR.mk rd ra rb 0 0) rfl⟩
theorem or (c : Ctl) (rd : Reg) (ra : Reg) (rb : Reg) : Statement (.or c rd ra rb) := by
  intro _ _ h; cases h
  exact ⟨by decide, FR.read (fun f => sub0 f (.or c f.rd f.ra f.rb)) (FR.mk rd ra rb 0 0) rfl⟩
theorem xor (c : Ctl) (rd : Reg) (ra : Reg) (rb : Reg) : Statement (.xor c rd ra rb) := by
  intro _ _ h; cases h
  exact ⟨by decide, FR.read (fun f => sub0 f (.xor c f.rd f.ra f.rb)) (FR.mk rd ra rb 0 0) rfl⟩
theorem andn (c : Ctl) (rd : Reg) (ra : Reg) (rb : Reg) : Statement (.andn c rd ra rb) := by
  intro _ _ h; cases h
  exact ⟨by decide, FR.read (fun f => sub0 f (.andn c f.rd f.ra f.rb)) (FR.mk rd ra rb 0 0) rfl⟩
theorem shl (c : Ctl) (rd : Reg) (ra : Reg) (rb : Reg) : Statement (.shl c rd ra rb) := by
  intro _ _ h; cases h
  exact ⟨by decide, FR.read (fun f => sub0 f (.shl c f.rd f.ra f.rb)) (FR.mk rd ra rb 0 0) rfl⟩
theorem shr (c : Ctl) (rd : Reg) (ra : Reg) (rb : Reg) : Statement (.shr c rd ra rb) := by
  intro _ _ h; cases h
  exact ⟨by decide, FR.read (fun f => sub0 f (.shr c f.rd f.ra f.rb)) (FR.mk rd ra rb 0 0) rfl⟩
theorem sar (c : Ctl) (rd : Reg) (ra : Reg) (rb : Reg) : Statement (.sar c rd ra rb) := by
  intro _ _ h; cases h
  exact ⟨by decide, FR.read (fun f => sub0 f (.sar c f.rd f.ra f.rb)) (FR.mk rd ra rb 0 0) rfl⟩
theorem rol (c : Ctl) (rd : Reg) (ra : Reg) (rb : Reg) : Statement (.rol c rd ra rb) := by
  intro _ _ h; cases h
  exact ⟨by decide, FR.read (fun f => sub0 f (.rol c f.rd f.ra f.rb)) (FR.mk rd ra rb 0 0) rfl⟩
theorem clz (c : Ctl) (rd : Reg) (ra : Reg) : Statement (.clz c rd ra) := by
  intro _ _ h; cases h
  exact ⟨by decide, FR.read (fun f => sub0 f (.clz c f.rd f.ra)) (FR.mk rd ra 0 0 0) rfl⟩
theorem popc (c : Ctl) (rd : Reg) (ra : Reg) : Statement (.popc c rd ra) := by
  intro _ _ h; cases h
  exact ⟨by decide, FR.read (fun f => sub0 f (.popc c f.rd f.ra)) (FR.mk rd ra 0 0 0) rfl⟩
theorem brev (c : Ctl) (rd : Reg) (ra : Reg) : Statement (.brev c rd ra) := by
  intro _ _ h; cases h
  exact ⟨by decide, FR.read (fun f => sub0 f (.brev c f.rd f.ra)) (FR.mk rd ra 0 0 0) rfl⟩
theorem min (c : Ctl) (rd : Reg) (ra : Reg) (rb : Reg) : Statement (.min c rd ra rb) := by
  intro _ _ h; cases h
  exact ⟨by decide, FR.read (fun f => sub0 f (.min c f.rd f.ra f.rb)) (FR.mk rd ra rb 0 0) rfl⟩
theorem max (c : Ctl) (rd : Reg) (ra : Reg) (rb : Reg) : Statement (.max c rd ra rb) := by
  intro _ _ h; cases h
  exact ⟨by decide, FR.read (fun f => sub0 f (.max c f.rd f.ra f.rb)) (FR.mk rd ra rb 0 0) rfl⟩
theorem minu (c : Ctl) (rd : Reg) (ra : Reg) (rb : Reg) : Statement (.minu c rd ra rb) := by
  intro _ _ h; cases h
  exact ⟨by decide, FR.read (fun f => sub0 f (.minu c f.rd f.ra f.rb)) (FR.mk rd ra rb 0 0) rfl⟩
theorem maxu (c : Ctl) (rd : Reg) (ra : Reg) (rb : Reg) : Statement (.maxu c rd ra rb) := by
  intro _ _ h; cases h
  exact ⟨by decide, FR.read (fun f => sub0 f (.maxu c f.rd f.ra f.rb)) (FR.mk rd ra rb 0 0) rfl⟩
theorem adds (c : Ctl) (u : Sat) (rd : Reg) (ra : Reg) (rb : Reg) : Statement (.adds c u rd ra rb) := by
  intro _ _ h; cases h
  refine ⟨by decide, FR.read (fun f => (Sat.ofCode f.sub.toNat).map fun x => .adds c x f.rd f.ra f.rb) (FR.mk rd ra rb (BitVec.ofNat 8 u.code) 0) ?_⟩
  cases u <;> rfl
theorem subs (c : Ctl) (u : Sat) (rd : Reg) (ra : Reg) (rb : Reg) : Statement (.subs c u rd ra rb) := by
  intro _ _ h; cases h
  refine ⟨by decide, FR.read (fun f => (Sat.ofCode f.sub.toNat).map fun x => .subs c x f.rd f.ra f.rb) (FR.mk rd ra rb (BitVec.ofNat 8 u.code) 0) ?_⟩
  cases u <;> rfl
theorem cmp (c : Ctl) (cc : CC) (rd : Reg) (ra : Reg) (rb : Reg) : Statement (.cmp c cc rd ra rb) := by
  intro _ _ h; cases h
  refine ⟨by decide, FR.read (fun f => (CC.ofCode f.sub.toNat).map fun x => .cmp c x f.rd f.ra f.rb) (FR.mk rd ra rb (BitVec.ofNat 8 cc.code) 0) ?_⟩
  cases cc <;> rfl
theorem sel (c : Ctl) (rd : Reg) (ra : Reg) (rb : Reg) (rc : Reg) : Statement (.sel c rd ra rb rc) := by
  intro _ _ h; cases h
  refine ⟨by decide, FR.read (fun f => sub0 f (.sel c f.rd f.ra f.rb (f.aux.extractLsb' 12 4))) (FR.mk rd ra rb 0 (rc ++ (0 : BitVec 12))) ?_⟩
  simp (disch := omega) only [extract_append_high, extract_append_low, bit_append_high, bit_append_low, Nat.reduceSub, extract_self, bit_ofBool] <;> rfl
theorem mov (c : Ctl) (rd : Reg) (ra : Reg) : Statement (.mov c rd ra) := by
  intro _ _ h; cases h
  exact ⟨by decide, FR.read (fun f => sub0 f (.mov c f.rd f.ra)) (FR.mk rd ra 0 0 0) rfl⟩
theorem extb (c : Ctl) (sgn : Bool) (rd : Reg) (ra : Reg) (pos : BitVec 5) (w1 : BitVec 5) : Statement (.extb c sgn rd ra pos w1) := by
  intro _ _ h; cases h
  refine ⟨by decide, FR.read (fun f => if f.sub = 0 ∧ f.aux.extractLsb' 11 5 = 0 then some (.extb c (f.aux.getLsbD 10) f.rd f.ra (f.aux.extractLsb' 0 5) (f.aux.extractLsb' 5 5)) else none) (FR.mk rd ra 0 0 ((0 : BitVec 5) ++ BitVec.ofBool sgn ++ w1 ++ pos)) ?_⟩
  simp (disch := omega) only [extract_append_high, extract_append_low, bit_append_high, bit_append_low, Nat.reduceSub, extract_self, bit_ofBool] <;> rfl
theorem insb (c : Ctl) (rd : Reg) (ra : Reg) (pos : BitVec 5) (w1 : BitVec 5) : Statement (.insb c rd ra pos w1) := by
  intro _ _ h; cases h
  refine ⟨by decide, FR.read (fun f => if f.sub = 0 ∧ f.aux.extractLsb' 10 6 = 0 then some (.insb c f.rd f.ra (f.aux.extractLsb' 0 5) (f.aux.extractLsb' 5 5)) else none) (FR.mk rd ra 0 0 ((0 : BitVec 6) ++ w1 ++ pos)) ?_⟩
  simp (disch := omega) only [extract_append_high, extract_append_low, bit_append_high, bit_append_low, Nat.reduceSub, extract_self, bit_ofBool] <;> rfl
theorem hash (c : Ctl) (rd : Reg) (ra : Reg) (rb : Reg) : Statement (.hash c rd ra rb) := by
  intro _ _ h; cases h
  exact ⟨by decide, FR.read (fun f => sub0 f (.hash c f.rd f.ra f.rb)) (FR.mk rd ra rb 0 0) rfl⟩
theorem bswap (c : Ctl) (rd : Reg) (ra : Reg) : Statement (.bswap c rd ra) := by
  intro _ _ h; cases h
  exact ⟨by decide, FR.read (fun f => sub0 f (.bswap c f.rd f.ra)) (FR.mk rd ra 0 0 0) rfl⟩
theorem addi (c : Ctl) (rd : Reg) (ra : Reg) (imm : BitVec 24) : Statement (.addi c rd ra imm) := by
  intro _ _ h; cases h
  exact ⟨by decide, FI.read (fun f => sub0I f (.addi c f.rd f.ra f.imm)) (FI.mk rd ra imm 0) rfl⟩
theorem andi (c : Ctl) (rd : Reg) (ra : Reg) (imm : BitVec 24) : Statement (.andi c rd ra imm) := by
  intro _ _ h; cases h
  exact ⟨by decide, FI.read (fun f => sub0I f (.andi c f.rd f.ra f.imm)) (FI.mk rd ra imm 0) rfl⟩
theorem ori (c : Ctl) (rd : Reg) (ra : Reg) (imm : BitVec 24) : Statement (.ori c rd ra imm) := by
  intro _ _ h; cases h
  exact ⟨by decide, FI.read (fun f => sub0I f (.ori c f.rd f.ra f.imm)) (FI.mk rd ra imm 0) rfl⟩
theorem xori (c : Ctl) (rd : Reg) (ra : Reg) (imm : BitVec 24) : Statement (.xori c rd ra imm) := by
  intro _ _ h; cases h
  exact ⟨by decide, FI.read (fun f => sub0I f (.xori c f.rd f.ra f.imm)) (FI.mk rd ra imm 0) rfl⟩
theorem shli (c : Ctl) (rd : Reg) (ra : Reg) (imm : BitVec 24) : Statement (.shli c rd ra imm) := by
  intro _ _ h; cases h
  exact ⟨by decide, FI.read (fun f => sub0I f (.shli c f.rd f.ra f.imm)) (FI.mk rd ra imm 0) rfl⟩
theorem shri (c : Ctl) (rd : Reg) (ra : Reg) (imm : BitVec 24) : Statement (.shri c rd ra imm) := by
  intro _ _ h; cases h
  exact ⟨by decide, FI.read (fun f => sub0I f (.shri c f.rd f.ra f.imm)) (FI.mk rd ra imm 0) rfl⟩
theorem sari (c : Ctl) (rd : Reg) (ra : Reg) (imm : BitVec 24) : Statement (.sari c rd ra imm) := by
  intro _ _ h; cases h
  exact ⟨by decide, FI.read (fun f => sub0I f (.sari c f.rd f.ra f.imm)) (FI.mk rd ra imm 0) rfl⟩
theorem cmpi (c : Ctl) (cc : CC) (rd : Reg) (ra : Reg) (imm : BitVec 24) : Statement (.cmpi c cc rd ra imm) := by
  intro _ _ h; cases h
  refine ⟨by decide, FI.read (fun f => (CC.ofCode f.sub.toNat).map fun x => .cmpi c x f.rd f.ra f.imm) (FI.mk rd ra imm (BitVec.ofNat 4 cc.code)) ?_⟩
  cases cc <;> rfl
theorem movi (c : Ctl) (rd : Reg) (imm : BitVec 32) : Statement (.movi c rd imm) := by
  intro _ _ h; cases h
  exact ⟨by decide, FL.read (fun f => some (.movi c f.rd f.imm)) (FL.mk rd imm) rfl⟩
theorem movhi (c : Ctl) (rd : Reg) (imm : BitVec 32) : Statement (.movhi c rd imm) := by
  intro _ _ h; cases h
  exact ⟨by decide, FL.read (fun f => some (.movhi c f.rd f.imm)) (FL.mk rd imm) rfl⟩
theorem fadd (c : Ctl) (rd : Reg) (ra : Reg) (rb : Reg) : Statement (.fadd c rd ra rb) := by
  intro _ _ h; cases h
  exact ⟨by decide, FR.read (fun f => sub0 f (.fadd c f.rd f.ra f.rb)) (FR.mk rd ra rb 0 0) rfl⟩
theorem fsub (c : Ctl) (rd : Reg) (ra : Reg) (rb : Reg) : Statement (.fsub c rd ra rb) := by
  intro _ _ h; cases h
  exact ⟨by decide, FR.read (fun f => sub0 f (.fsub c f.rd f.ra f.rb)) (FR.mk rd ra rb 0 0) rfl⟩
theorem fmul (c : Ctl) (rd : Reg) (ra : Reg) (rb : Reg) : Statement (.fmul c rd ra rb) := by
  intro _ _ h; cases h
  exact ⟨by decide, FR.read (fun f => sub0 f (.fmul c f.rd f.ra f.rb)) (FR.mk rd ra rb 0 0) rfl⟩
theorem ffma (c : Ctl) (rd : Reg) (ra : Reg) (rb : Reg) (rc : Reg) : Statement (.ffma c rd ra rb rc) := by
  intro _ _ h; cases h
  refine ⟨by decide, FR.read (fun f => sub0 f (.ffma c f.rd f.ra f.rb (f.aux.extractLsb' 12 4))) (FR.mk rd ra rb 0 (rc ++ (0 : BitVec 12))) ?_⟩
  simp (disch := omega) only [extract_append_high, extract_append_low, bit_append_high, bit_append_low, Nat.reduceSub, extract_self, bit_ofBool] <;> rfl
theorem fmin (c : Ctl) (rd : Reg) (ra : Reg) (rb : Reg) : Statement (.fmin c rd ra rb) := by
  intro _ _ h; cases h
  exact ⟨by decide, FR.read (fun f => sub0 f (.fmin c f.rd f.ra f.rb)) (FR.mk rd ra rb 0 0) rfl⟩
theorem fmax (c : Ctl) (rd : Reg) (ra : Reg) (rb : Reg) : Statement (.fmax c rd ra rb) := by
  intro _ _ h; cases h
  exact ⟨by decide, FR.read (fun f => sub0 f (.fmax c f.rd f.ra f.rb)) (FR.mk rd ra rb 0 0) rfl⟩
theorem fcmp (c : Ctl) (cc : FCC) (rd : Reg) (ra : Reg) (rb : Reg) : Statement (.fcmp c cc rd ra rb) := by
  intro _ _ h; cases h
  refine ⟨by decide, FR.read (fun f => (FCC.ofCode f.sub.toNat).map fun x => .fcmp c x f.rd f.ra f.rb) (FR.mk rd ra rb (BitVec.ofNat 8 cc.code) 0) ?_⟩
  cases cc <;> rfl
theorem fsgn (c : Ctl) (k : SgnOp) (rd : Reg) (ra : Reg) (rb : Reg) : Statement (.fsgn c k rd ra rb) := by
  intro _ _ h; cases h
  refine ⟨by decide, FR.read (fun f => (SgnOp.ofCode f.sub.toNat).map fun x => .fsgn c x f.rd f.ra f.rb) (FR.mk rd ra rb (BitVec.ofNat 8 k.code) 0) ?_⟩
  cases k <;> rfl
theorem frcp (c : Ctl) (rd : Reg) (ra : Reg) : Statement (.frcp c rd ra) := by
  intro _ _ h; cases h
  exact ⟨by decide, FR.read (fun f => sub0 f (.frcp c f.rd f.ra)) (FR.mk rd ra 0 0 0) rfl⟩
theorem frsq (c : Ctl) (rd : Reg) (ra : Reg) : Statement (.frsq c rd ra) := by
  intro _ _ h; cases h
  exact ⟨by decide, FR.read (fun f => sub0 f (.frsq c f.rd f.ra)) (FR.mk rd ra 0 0 0) rfl⟩
theorem fcvt (c : Ctl) (k : Cvt) (rd : Reg) (ra : Reg) : Statement (.fcvt c k rd ra) := by
  intro _ _ h; cases h
  refine ⟨by decide, FR.read (fun f => (Cvt.ofCode f.sub.toNat).map fun x => .fcvt c x f.rd f.ra) (FR.mk rd ra 0 (BitVec.ofNat 8 k.code) 0) ?_⟩
  cases k <;> rfl
theorem fcls (c : Ctl) (rd : Reg) (ra : Reg) : Statement (.fcls c rd ra) := by
  intro _ _ h; cases h
  exact ⟨by decide, FR.read (fun f => sub0 f (.fcls c f.rd f.ra)) (FR.mk rd ra 0 0 0) rfl⟩
theorem addp (c : Ctl) (rd : Reg) (ra : Reg) (rb : Reg) : Statement (.addp c rd ra rb) := by
  intro _ _ h; cases h
  exact ⟨by decide, FR.read (fun f => sub0 f (.addp c f.rd f.ra f.rb)) (FR.mk rd ra rb 0 0) rfl⟩
theorem addpi (c : Ctl) (rd : Reg) (ra : Reg) (imm : BitVec 24) : Statement (.addpi c rd ra imm) := by
  intro _ _ h; cases h
  exact ⟨by decide, FI.read (fun f => sub0I f (.addpi c f.rd f.ra f.imm)) (FI.mk rd ra imm 0) rfl⟩
theorem movp (c : Ctl) (rd : Reg) (ra : Reg) : Statement (.movp c rd ra) := by
  intro _ _ h; cases h
  exact ⟨by decide, FR.read (fun f => sub0 f (.movp c f.rd f.ra)) (FR.mk rd ra 0 0 0) rfl⟩
theorem cmpp (c : Ctl) (cc : CC) (rd : Reg) (ra : Reg) (rb : Reg) : Statement (.cmpp c cc rd ra rb) := by
  intro _ _ h; cases h
  refine ⟨by decide, FR.read (fun f => (CC.ofCode f.sub.toNat).map fun x => .cmpp c x f.rd f.ra f.rb) (FR.mk rd ra rb (BitVec.ofNat 8 cc.code) 0) ?_⟩
  cases cc <;> rfl
theorem br (c : Ctl) (off : BitVec 24) : Statement (.br c off) := by
  intro _ _ h; cases h
  exact ⟨by decide, FB.read (fun f => if f.cond = 0 then some (.br c f.off) else none) (FB.mk 0 off 0) rfl⟩
theorem bz (c : Ctl) (pair : Bool) (ra : Reg) (off : BitVec 24) : Statement (.bz c pair ra off) := by
  intro _ _ h; cases h
  refine ⟨by decide, FB.read (fun f => if f.cond.extractLsb' 1 7 = 0 then some (.bz c (f.cond.getLsbD 0) f.ra f.off) else none) (FB.mk ra off ((0 : BitVec 7) ++ BitVec.ofBool pair)) ?_⟩
  simp (disch := omega) only [extract_append_high, extract_append_low, bit_append_high, bit_append_low, Nat.reduceSub, extract_self, bit_ofBool] <;> rfl
theorem bnz (c : Ctl) (pair : Bool) (ra : Reg) (off : BitVec 24) : Statement (.bnz c pair ra off) := by
  intro _ _ h; cases h
  refine ⟨by decide, FB.read (fun f => if f.cond.extractLsb' 1 7 = 0 then some (.bnz c (f.cond.getLsbD 0) f.ra f.off) else none) (FB.mk ra off ((0 : BitVec 7) ++ BitVec.ofBool pair)) ?_⟩
  simp (disch := omega) only [extract_append_high, extract_append_low, bit_append_high, bit_append_low, Nat.reduceSub, extract_self, bit_ofBool] <;> rfl
theorem loop (c : Ctl) (ra : Reg) (off : BitVec 24) : Statement (.loop c ra off) := by
  intro _ _ h; cases h
  exact ⟨by decide, FB.read (fun f => if f.cond = 0 then some (.loop c f.ra f.off) else none) (FB.mk ra off 0) rfl⟩
theorem call (c : Ctl) (off : BitVec 24) : Statement (.call c off) := by
  intro _ _ h; cases h
  exact ⟨by decide, FB.read (fun f => if f.cond = 0 then some (.call c f.off) else none) (FB.mk 0 off 0) rfl⟩
theorem pca (c : Ctl) (ra : Reg) (off : BitVec 24) : Statement (.pca c ra off) := by
  intro _ _ h; cases h
  exact ⟨by decide, FB.read (fun f => if f.cond = 0 then some (.pca c f.ra f.off) else none) (FB.mk ra off 0) rfl⟩
theorem callr (c : Ctl) (ra : Reg) : Statement (.callr c ra) := by
  intro _ _ h; cases h
  exact ⟨by decide, FR.read (fun f => sub0 f (.callr c f.ra)) (FR.mk 0 ra 0 0 0) rfl⟩
theorem jmpr (c : Ctl) (ra : Reg) : Statement (.jmpr c ra) := by
  intro _ _ h; cases h
  exact ⟨by decide, FR.read (fun f => sub0 f (.jmpr c f.ra)) (FR.mk 0 ra 0 0 0) rfl⟩
theorem ret (c : Ctl) : Statement (.ret c) := by
  intro _ _ h; cases h
  exact ⟨by decide, rfl⟩
theorem dly (c : Ctl) (imm : BitVec 24) : Statement (.dly c imm) := by
  intro _ _ h; cases h
  exact ⟨by decide, FI.read (fun f => sub0I f (.dly c f.imm)) (FI.mk 0 0 imm 0) rfl⟩
theorem yield (c : Ctl) : Statement (.yield c) := by
  intro _ _ h; cases h
  exact ⟨by decide, rfl⟩
theorem exit (c : Ctl) : Statement (.exit c) := by
  intro _ _ h; cases h
  exact ⟨by decide, rfl⟩
theorem wait (c : Ctl) : Statement (.wait c) := by
  intro _ _ h; cases h
  exact ⟨by decide, rfl⟩
theorem bkpt (c : Ctl) (imm : BitVec 24) : Statement (.bkpt c imm) := by
  intro _ _ h; cases h
  exact ⟨by decide, FI.read (fun f => sub0I f (.bkpt c f.imm)) (FI.mk 0 0 imm 0) rfl⟩
theorem ld (c : Ctl) (sz : LdSz) (go : Bool) (rt : Reg) (pb : Reg) (off : BitVec 24) : Statement (.ld c sz go rt pb off) := by
  intro _ _ h; cases h
  refine ⟨by decide, FM.read (fun f => (LdSz.ofCode f.sz.toNat).map fun z => .ld c z f.go f.rt f.pb f.off) (FM.mk rt pb off go (BitVec.ofNat 3 sz.code)) ?_⟩
  cases sz <;> rfl
theorem st (c : Ctl) (sz : StSz) (go : Bool) (rt : Reg) (pb : Reg) (off : BitVec 24) : Statement (.st c sz go rt pb off) := by
  intro _ _ h; cases h
  refine ⟨by decide, FM.read (fun f => (StSz.ofCode f.sz.toNat).map fun z => .st c z f.go f.rt f.pb f.off) (FM.mk rt pb off go (BitVec.ofNat 3 sz.code)) ?_⟩
  cases sz <;> rfl
theorem ldp (c : Ctl) (go : Bool) (rt : Reg) (pb : Reg) (off : BitVec 24) : Statement (.ldp c go rt pb off) := by
  intro _ _ h; cases h
  exact ⟨by decide, FM.read (fun f => if f.sz = 6 then some (.ldp c f.go f.rt f.pb f.off) else none) (FM.mk rt pb off go 6) rfl⟩
theorem stp (c : Ctl) (go : Bool) (rt : Reg) (pb : Reg) (off : BitVec 24) : Statement (.stp c go rt pb off) := by
  intro _ _ h; cases h
  exact ⟨by decide, FM.read (fun f => if f.sz = 6 then some (.stp c f.go f.rt f.pb f.off) else none) (FM.mk rt pb off go 6) rfl⟩
theorem ldaq (c : Ctl) (sz : AqSz) (rt : Reg) (pb : Reg) (off : BitVec 24) : Statement (.ldaq c sz rt pb off) := by
  intro _ _ h; cases h
  refine ⟨by decide, FM.read (fun f => if f.go then none else (AqSz.ofCode f.sz.toNat).map fun z => .ldaq c z f.rt f.pb f.off) (FM.mk rt pb off false (BitVec.ofNat 3 sz.code)) ?_⟩
  cases sz <;> rfl
theorem strl (c : Ctl) (sz : AqSz) (rt : Reg) (pb : Reg) (off : BitVec 24) : Statement (.strl c sz rt pb off) := by
  intro _ _ h; cases h
  refine ⟨by decide, FM.read (fun f => if f.go then none else (AqSz.ofCode f.sz.toNat).map fun z => .strl c z f.rt f.pb f.off) (FM.mk rt pb off false (BitVec.ofNat 3 sz.code)) ?_⟩
  cases sz <;> rfl
theorem aadd (c : Ctl) (sz : AtSz) (go : Bool) (rt : Reg) (pb : Reg) (off : BitVec 24) : Statement (.aadd c sz go rt pb off) := by
  intro _ _ h; cases h
  refine ⟨by decide, FM.read (fun f => (AtSz.ofCode f.sz.toNat).map fun z => .aadd c z f.go f.rt f.pb f.off) (FM.mk rt pb off go (BitVec.ofNat 3 sz.code)) ?_⟩
  cases sz <;> rfl
theorem aand (c : Ctl) (sz : AtSz) (go : Bool) (rt : Reg) (pb : Reg) (off : BitVec 24) : Statement (.aand c sz go rt pb off) := by
  intro _ _ h; cases h
  refine ⟨by decide, FM.read (fun f => (AtSz.ofCode f.sz.toNat).map fun z => .aand c z f.go f.rt f.pb f.off) (FM.mk rt pb off go (BitVec.ofNat 3 sz.code)) ?_⟩
  cases sz <;> rfl
theorem aor (c : Ctl) (sz : AtSz) (go : Bool) (rt : Reg) (pb : Reg) (off : BitVec 24) : Statement (.aor c sz go rt pb off) := by
  intro _ _ h; cases h
  refine ⟨by decide, FM.read (fun f => (AtSz.ofCode f.sz.toNat).map fun z => .aor c z f.go f.rt f.pb f.off) (FM.mk rt pb off go (BitVec.ofNat 3 sz.code)) ?_⟩
  cases sz <;> rfl
theorem axor (c : Ctl) (sz : AtSz) (go : Bool) (rt : Reg) (pb : Reg) (off : BitVec 24) : Statement (.axor c sz go rt pb off) := by
  intro _ _ h; cases h
  refine ⟨by decide, FM.read (fun f => (AtSz.ofCode f.sz.toNat).map fun z => .axor c z f.go f.rt f.pb f.off) (FM.mk rt pb off go (BitVec.ofNat 3 sz.code)) ?_⟩
  cases sz <;> rfl
theorem amin (c : Ctl) (sz : AtSz) (go : Bool) (rt : Reg) (pb : Reg) (off : BitVec 24) : Statement (.amin c sz go rt pb off) := by
  intro _ _ h; cases h
  refine ⟨by decide, FM.read (fun f => (AtSz.ofCode f.sz.toNat).map fun z => .amin c z f.go f.rt f.pb f.off) (FM.mk rt pb off go (BitVec.ofNat 3 sz.code)) ?_⟩
  cases sz <;> rfl
theorem amax (c : Ctl) (sz : AtSz) (go : Bool) (rt : Reg) (pb : Reg) (off : BitVec 24) : Statement (.amax c sz go rt pb off) := by
  intro _ _ h; cases h
  refine ⟨by decide, FM.read (fun f => (AtSz.ofCode f.sz.toNat).map fun z => .amax c z f.go f.rt f.pb f.off) (FM.mk rt pb off go (BitVec.ofNat 3 sz.code)) ?_⟩
  cases sz <;> rfl
theorem aminu (c : Ctl) (sz : AtSz) (go : Bool) (rt : Reg) (pb : Reg) (off : BitVec 24) : Statement (.aminu c sz go rt pb off) := by
  intro _ _ h; cases h
  refine ⟨by decide, FM.read (fun f => (AtSz.ofCode f.sz.toNat).map fun z => .aminu c z f.go f.rt f.pb f.off) (FM.mk rt pb off go (BitVec.ofNat 3 sz.code)) ?_⟩
  cases sz <;> rfl
theorem amaxu (c : Ctl) (sz : AtSz) (go : Bool) (rt : Reg) (pb : Reg) (off : BitVec 24) : Statement (.amaxu c sz go rt pb off) := by
  intro _ _ h; cases h
  refine ⟨by decide, FM.read (fun f => (AtSz.ofCode f.sz.toNat).map fun z => .amaxu c z f.go f.rt f.pb f.off) (FM.mk rt pb off go (BitVec.ofNat 3 sz.code)) ?_⟩
  cases sz <;> rfl
theorem axch (c : Ctl) (sz : AtSz) (go : Bool) (rt : Reg) (pb : Reg) (off : BitVec 24) : Statement (.axch c sz go rt pb off) := by
  intro _ _ h; cases h
  refine ⟨by decide, FM.read (fun f => (AtSz.ofCode f.sz.toNat).map fun z => .axch c z f.go f.rt f.pb f.off) (FM.mk rt pb off go (BitVec.ofNat 3 sz.code)) ?_⟩
  cases sz <;> rfl
theorem acas (c : Ctl) (sz : AqSz) (go : Bool) (rt : Reg) (pb : Reg) (off : BitVec 24) : Statement (.acas c sz go rt pb off) := by
  intro _ _ h; cases h
  refine ⟨by decide, FM.read (fun f => (AqSz.ofCode f.sz.toNat).map fun z => .acas c z f.go f.rt f.pb f.off) (FM.mk rt pb off go (BitVec.ofNat 3 sz.code)) ?_⟩
  cases sz <;> rfl
theorem afadd (c : Ctl) (sz : AfSz) (go : Bool) (rt : Reg) (pb : Reg) (off : BitVec 24) : Statement (.afadd c sz go rt pb off) := by
  intro _ _ h; cases h
  refine ⟨by decide, FM.read (fun f => (AfSz.ofCode f.sz.toNat).map fun z => .afadd c z f.go f.rt f.pb f.off) (FM.mk rt pb off go (BitVec.ofNat 3 sz.code)) ?_⟩
  cases sz <;> rfl
theorem afmin (c : Ctl) (sz : AfSz) (go : Bool) (rt : Reg) (pb : Reg) (off : BitVec 24) : Statement (.afmin c sz go rt pb off) := by
  intro _ _ h; cases h
  refine ⟨by decide, FM.read (fun f => (AfSz.ofCode f.sz.toNat).map fun z => .afmin c z f.go f.rt f.pb f.off) (FM.mk rt pb off go (BitVec.ofNat 3 sz.code)) ?_⟩
  cases sz <;> rfl
theorem afmax (c : Ctl) (sz : AfSz) (go : Bool) (rt : Reg) (pb : Reg) (off : BitVec 24) : Statement (.afmax c sz go rt pb off) := by
  intro _ _ h; cases h
  refine ⟨by decide, FM.read (fun f => (AfSz.ofCode f.sz.toNat).map fun z => .afmax c z f.go f.rt f.pb f.off) (FM.mk rt pb off go (BitVec.ofNat 3 sz.code)) ?_⟩
  cases sz <;> rfl
theorem cinv (c : Ctl) (k : LineKind) (pb : Reg) (off : BitVec 24) : Statement (.cinv c k pb off) := by
  intro _ _ h; cases h
  refine ⟨by decide, FM.read (fun f => if f.go then none else (LineKind.ofCode f.sz.toNat).map fun k => .cinv c k f.pb f.off) (FM.mk 0 pb off false (BitVec.ofNat 3 k.code)) ?_⟩
  cases k <;> rfl
theorem cfls (c : Ctl) (k : LineKind) (pb : Reg) (off : BitVec 24) : Statement (.cfls c k pb off) := by
  intro _ _ h; cases h
  refine ⟨by decide, FM.read (fun f => if f.go then none else (LineKind.ofCode f.sz.toNat).map fun k => .cfls c k f.pb f.off) (FM.mk 0 pb off false (BitVec.ofNat 3 k.code)) ?_⟩
  cases k <;> rfl
theorem fence (c : Ctl) (k : FenceKind) (sc : Scope) : Statement (.fence c k sc) := by
  intro _ _ h; cases h
  refine ⟨by decide, ?_⟩
  show (fun (c : Ctl) (a : BitVec 36) => (match FenceKind.ofCode (a.extractLsb' 3 2).toNat, Scope.ofCode (a.extractLsb' 0 3).toNat with | some k, some s => some (.fence c k s) | _, _ => none : Option Instr)) _ _ = _
  cases k <;> cases sc <;> simp (disch := omega) only [Instr.area, extract_append_high, extract_append_low, bit_append_high, bit_append_low, Nat.reduceSub, extract_self, bit_ofBool] <;> rfl
theorem pfence (c : Ctl) (paths : BitVec 5) : Statement (.pfence c paths) := by
  intro _ _ h; cases h
  refine ⟨by decide, ?_⟩
  show (fun (c : Ctl) (a : BitVec 36) => (some (.pfence c (a.extractLsb' 0 5)) : Option Instr)) _ _ = _
  simp (disch := omega) only [Instr.area, extract_append_high, extract_append_low, bit_append_high, bit_append_low, Nat.reduceSub, extract_self, bit_ofBool] <;> rfl
theorem send (c : Ctl) (vt : Reg) (pl : Reg) (tag : BitVec 8) (mb : BitVec 2) : Statement (.send c vt pl tag mb) := by
  intro _ _ h; cases h
  refine ⟨by decide, FE.read (fun f => if f.sub.extractLsb' 10 6 = 0 then some (.send c f.f1 f.f2 (f.sub.extractLsb' 0 8) (f.sub.extractLsb' 8 2)) else none) (FE.mk vt pl 0 0 0 ((0 : BitVec 6) ++ mb ++ tag)) ?_⟩
  simp (disch := omega) only [extract_append_high, extract_append_low, bit_append_high, bit_append_low, Nat.reduceSub, extract_self, bit_ofBool] <;> rfl
theorem recv (c : Ctl) (pd : Reg) (gi : Reg) (mb : BitVec 2) : Statement (.recv c pd gi mb) := by
  intro _ _ h; cases h
  refine ⟨by decide, FE.read (fun f => if f.sub.extractLsb' 10 6 = 0 ∧ f.sub.extractLsb' 0 8 = 0 then some (.recv c f.f1 f.f2 (f.sub.extractLsb' 8 2)) else none) (FE.mk pd gi 0 0 0 ((0 : BitVec 6) ++ mb ++ (0 : BitVec 8))) ?_⟩
  simp (disch := omega) only [extract_append_high, extract_append_low, bit_append_high, bit_append_low, Nat.reduceSub, extract_self, bit_ofBool] <;> rfl
theorem mpoll (c : Ctl) (rd : Reg) (mb : BitVec 2) : Statement (.mpoll c rd mb) := by
  intro _ _ h; cases h
  refine ⟨by decide, FE.read (fun f => if f.sub.extractLsb' 10 6 = 0 ∧ f.sub.extractLsb' 0 8 = 0 then some (.mpoll c f.f1 (f.sub.extractLsb' 8 2)) else none) (FE.mk rd 0 0 0 0 ((0 : BitVec 6) ++ mb ++ (0 : BitVec 8))) ?_⟩
  simp (disch := omega) only [extract_append_high, extract_append_low, bit_append_high, bit_append_low, Nat.reduceSub, extract_self, bit_ofBool] <;> rfl
theorem put (c : Ctl) (nt : PutNote) (vt : Reg) (dst : Reg) (src : Reg) (n : Reg) : Statement (.put c nt vt dst src n) := by
  intro _ _ h; cases h
  refine ⟨by decide, FE.read (fun f => (PutNote.ofBits f.sub).map fun x => .put c x f.f1 f.f2 f.f3 f.f4) (FE.mk vt dst src n 0 nt.bits) ?_⟩
  simp only [PutNote.of_bits, Option.map_some]
theorem get (c : Ctl) (dst : Reg) (vt : Reg) (src : Reg) (n : Reg) : Statement (.get c dst vt src n) := by
  intro _ _ h; cases h
  exact ⟨by decide, FE.read (fun f => sub0E f (.get c f.f1 f.f2 f.f3 f.f4)) (FE.mk dst vt src n 0 0) rfl⟩
theorem migr (c : Ctl) (vt : Reg) : Statement (.migr c vt) := by
  intro _ _ h; cases h
  exact ⟨by decide, FE.read (fun f => sub0E f (.migr c f.f1)) (FE.mk vt 0 0 0 0 0) rfl⟩
theorem xin (c : Ctl) (loc : Reg) (gp : Reg) (sh : Reg) : Statement (.xin c loc gp sh) := by
  intro _ _ h; cases h
  exact ⟨by decide, FE.read (fun f => sub0E f (.xin c f.f1 f.f2 f.f3)) (FE.mk loc gp sh 0 0 0) rfl⟩
theorem xout (c : Ctl) (loc : Reg) (gp : Reg) (sh : Reg) : Statement (.xout c loc gp sh) := by
  intro _ _ h; cases h
  exact ⟨by decide, FE.read (fun f => sub0E f (.xout c f.f1 f.f2 f.f3)) (FE.mk loc gp sh 0 0 0) rfl⟩
theorem vadd (c : Ctl) (t : ElTy) (d : Reg) (a : Reg) (b : Reg) (n : Reg) : Statement (.vadd c t d a b n) := by
  intro _ _ h; cases h
  refine ⟨by decide, FE.read (fun f => (ElTy.ofCode f.sub.toNat).map fun x => .vadd c x f.f1 f.f2 f.f3 f.f5) (FE.mk d a b 0 n (BitVec.ofNat 16 t.code)) ?_⟩
  cases t <;> rfl
theorem vsub (c : Ctl) (t : ElTy) (d : Reg) (a : Reg) (b : Reg) (n : Reg) : Statement (.vsub c t d a b n) := by
  intro _ _ h; cases h
  refine ⟨by decide, FE.read (fun f => (ElTy.ofCode f.sub.toNat).map fun x => .vsub c x f.f1 f.f2 f.f3 f.f5) (FE.mk d a b 0 n (BitVec.ofNat 16 t.code)) ?_⟩
  cases t <;> rfl
theorem vmul (c : Ctl) (t : ElTy) (d : Reg) (a : Reg) (b : Reg) (n : Reg) : Statement (.vmul c t d a b n) := by
  intro _ _ h; cases h
  refine ⟨by decide, FE.read (fun f => (ElTy.ofCode f.sub.toNat).map fun x => .vmul c x f.f1 f.f2 f.f3 f.f5) (FE.mk d a b 0 n (BitVec.ofNat 16 t.code)) ?_⟩
  cases t <;> rfl
theorem vfma (c : Ctl) (t : ElTy) (d : Reg) (a : Reg) (b : Reg) (e : Reg) (n : Reg) : Statement (.vfma c t d a b e n) := by
  intro _ _ h; cases h
  refine ⟨by decide, FE.read (fun f => (ElTy.ofCode f.sub.toNat).map fun x => .vfma c x f.f1 f.f2 f.f3 f.f4 f.f5) (FE.mk d a b e n (BitVec.ofNat 16 t.code)) ?_⟩
  cases t <;> rfl
theorem vmin (c : Ctl) (t : MinTy) (d : Reg) (a : Reg) (b : Reg) (n : Reg) : Statement (.vmin c t d a b n) := by
  intro _ _ h; cases h
  refine ⟨by decide, FE.read (fun f => (MinTy.ofCode f.sub.toNat).map fun x => .vmin c x f.f1 f.f2 f.f3 f.f5) (FE.mk d a b 0 n (BitVec.ofNat 16 t.code)) ?_⟩
  cases t <;> rfl
theorem vmax (c : Ctl) (t : MinTy) (d : Reg) (a : Reg) (b : Reg) (n : Reg) : Statement (.vmax c t d a b n) := by
  intro _ _ h; cases h
  refine ⟨by decide, FE.read (fun f => (MinTy.ofCode f.sub.toNat).map fun x => .vmax c x f.f1 f.f2 f.f3 f.f5) (FE.mk d a b 0 n (BitVec.ofNat 16 t.code)) ?_⟩
  cases t <;> rfl
theorem vscl (c : Ctl) (t : ElTy) (d : Reg) (a : Reg) (b : Reg) (n : Reg) : Statement (.vscl c t d a b n) := by
  intro _ _ h; cases h
  refine ⟨by decide, FE.read (fun f => (ElTy.ofCode f.sub.toNat).map fun x => .vscl c x f.f1 f.f2 f.f3 f.f5) (FE.mk d a b 0 n (BitVec.ofNat 16 t.code)) ?_⟩
  cases t <;> rfl
theorem vadds (c : Ctl) (t : ElTy) (d : Reg) (a : Reg) (b : Reg) (n : Reg) : Statement (.vadds c t d a b n) := by
  intro _ _ h; cases h
  refine ⟨by decide, FE.read (fun f => (ElTy.ofCode f.sub.toNat).map fun x => .vadds c x f.f1 f.f2 f.f3 f.f5) (FE.mk d a b 0 n (BitVec.ofNat 16 t.code)) ?_⟩
  cases t <;> rfl
theorem vabs (c : Ctl) (t : ElTy) (d : Reg) (a : Reg) (n : Reg) : Statement (.vabs c t d a n) := by
  intro _ _ h; cases h
  refine ⟨by decide, FE.read (fun f => (ElTy.ofCode f.sub.toNat).map fun x => .vabs c x f.f1 f.f2 f.f5) (FE.mk d a 0 0 n (BitVec.ofNat 16 t.code)) ?_⟩
  cases t <;> rfl
theorem vneg (c : Ctl) (t : ElTy) (d : Reg) (a : Reg) (n : Reg) : Statement (.vneg c t d a n) := by
  intro _ _ h; cases h
  refine ⟨by decide, FE.read (fun f => (ElTy.ofCode f.sub.toNat).map fun x => .vneg c x f.f1 f.f2 f.f5) (FE.mk d a 0 0 n (BitVec.ofNat 16 t.code)) ?_⟩
  cases t <;> rfl
theorem vexp (c : Ctl) (d : Reg) (a : Reg) (n : Reg) : Statement (.vexp c d a n) := by
  intro _ _ h; cases h
  exact ⟨by decide, FE.read (fun f => sub0E f (.vexp c f.f1 f.f2 f.f5)) (FE.mk d a 0 0 n 0) rfl⟩
theorem vlog (c : Ctl) (d : Reg) (a : Reg) (n : Reg) : Statement (.vlog c d a n) := by
  intro _ _ h; cases h
  exact ⟨by decide, FE.read (fun f => sub0E f (.vlog c f.f1 f.f2 f.f5)) (FE.mk d a 0 0 n 0) rfl⟩
theorem vrcp (c : Ctl) (d : Reg) (a : Reg) (n : Reg) : Statement (.vrcp c d a n) := by
  intro _ _ h; cases h
  exact ⟨by decide, FE.read (fun f => sub0E f (.vrcp c f.f1 f.f2 f.f5)) (FE.mk d a 0 0 n 0) rfl⟩
theorem vrsq (c : Ctl) (d : Reg) (a : Reg) (n : Reg) : Statement (.vrsq c d a n) := by
  intro _ _ h; cases h
  exact ⟨by decide, FE.read (fun f => sub0E f (.vrsq c f.f1 f.f2 f.f5)) (FE.mk d a 0 0 n 0) rfl⟩
theorem vtanh (c : Ctl) (d : Reg) (a : Reg) (n : Reg) : Statement (.vtanh c d a n) := by
  intro _ _ h; cases h
  exact ⟨by decide, FE.read (fun f => sub0E f (.vtanh c f.f1 f.f2 f.f5)) (FE.mk d a 0 0 n 0) rfl⟩
theorem vsum (c : Ctl) (t : ElTy) (d : Reg) (a : Reg) (n : Reg) : Statement (.vsum c t d a n) := by
  intro _ _ h; cases h
  refine ⟨by decide, FE.read (fun f => (ElTy.ofCode f.sub.toNat).map fun x => .vsum c x f.f1 f.f2 f.f5) (FE.mk d a 0 0 n (BitVec.ofNat 16 t.code)) ?_⟩
  cases t <;> rfl
theorem vmaxr (c : Ctl) (t : ElTy) (d : Reg) (a : Reg) (n : Reg) : Statement (.vmaxr c t d a n) := by
  intro _ _ h; cases h
  refine ⟨by decide, FE.read (fun f => (ElTy.ofCode f.sub.toNat).map fun x => .vmaxr c x f.f1 f.f2 f.f5) (FE.mk d a 0 0 n (BitVec.ofNat 16 t.code)) ?_⟩
  cases t <;> rfl
theorem vminr (c : Ctl) (t : ElTy) (d : Reg) (a : Reg) (n : Reg) : Statement (.vminr c t d a n) := by
  intro _ _ h; cases h
  refine ⟨by decide, FE.read (fun f => (ElTy.ofCode f.sub.toNat).map fun x => .vminr c x f.f1 f.f2 f.f5) (FE.mk d a 0 0 n (BitVec.ofNat 16 t.code)) ?_⟩
  cases t <;> rfl
theorem vargm (c : Ctl) (t : ElTy) (d : Reg) (a : Reg) (n : Reg) : Statement (.vargm c t d a n) := by
  intro _ _ h; cases h
  refine ⟨by decide, FE.read (fun f => (ElTy.ofCode f.sub.toNat).map fun x => .vargm c x f.f1 f.f2 f.f5) (FE.mk d a 0 0 n (BitVec.ofNat 16 t.code)) ?_⟩
  cases t <;> rfl
theorem vdot (c : Ctl) (t : ElTy) (d : Reg) (a : Reg) (b : Reg) (n : Reg) : Statement (.vdot c t d a b n) := by
  intro _ _ h; cases h
  refine ⟨by decide, FE.read (fun f => (ElTy.ofCode f.sub.toNat).map fun x => .vdot c x f.f1 f.f2 f.f3 f.f5) (FE.mk d a b 0 n (BitVec.ofNat 16 t.code)) ?_⟩
  cases t <;> rfl
theorem vcmp (c : Ctl) (k : VCmp) (d : Reg) (a : Reg) (b : Reg) (n : Reg) : Statement (.vcmp c k d a b n) := by
  intro _ _ h; cases h
  refine ⟨by decide, FE.read (fun f => (VCmp.ofCode f.sub.toNat).map fun x => .vcmp c x f.f1 f.f2 f.f3 f.f5) (FE.mk d a b 0 n (BitVec.ofNat 16 k.code)) ?_⟩
  cases k <;> rfl
theorem vsel (c : Ctl) (t : ElTy) (d : Reg) (a : Reg) (b : Reg) (e : Reg) (n : Reg) : Statement (.vsel c t d a b e n) := by
  intro _ _ h; cases h
  refine ⟨by decide, FE.read (fun f => (ElTy.ofCode f.sub.toNat).map fun x => .vsel c x f.f1 f.f2 f.f3 f.f4 f.f5) (FE.mk d a b e n (BitVec.ofNat 16 t.code)) ?_⟩
  cases t <;> rfl
theorem vgath (c : Ctl) (t : ElTy) (d : Reg) (a : Reg) (b : Reg) (n : Reg) : Statement (.vgath c t d a b n) := by
  intro _ _ h; cases h
  refine ⟨by decide, FE.read (fun f => (ElTy.ofCode f.sub.toNat).map fun x => .vgath c x f.f1 f.f2 f.f3 f.f5) (FE.mk d a b 0 n (BitVec.ofNat 16 t.code)) ?_⟩
  cases t <;> rfl
theorem vscat (c : Ctl) (t : ElTy) (d : Reg) (a : Reg) (b : Reg) (n : Reg) : Statement (.vscat c t d a b n) := by
  intro _ _ h; cases h
  refine ⟨by decide, FE.read (fun f => (ElTy.ofCode f.sub.toNat).map fun x => .vscat c x f.f1 f.f2 f.f3 f.f5) (FE.mk d a b 0 n (BitVec.ofNat 16 t.code)) ?_⟩
  cases t <;> rfl
theorem vbcst (c : Ctl) (t : ElTy) (d : Reg) (a : Reg) (n : Reg) : Statement (.vbcst c t d a n) := by
  intro _ _ h; cases h
  refine ⟨by decide, FE.read (fun f => (ElTy.ofCode f.sub.toNat).map fun x => .vbcst c x f.f1 f.f2 f.f5) (FE.mk d a 0 0 n (BitVec.ofNat 16 t.code)) ?_⟩
  cases t <;> rfl
theorem viota (c : Ctl) (t : ElTy) (d : Reg) (a : Reg) (n : Reg) : Statement (.viota c t d a n) := by
  intro _ _ h; cases h
  refine ⟨by decide, FE.read (fun f => (ElTy.ofCode f.sub.toNat).map fun x => .viota c x f.f1 f.f2 f.f5) (FE.mk d a 0 0 n (BitVec.ofNat 16 t.code)) ?_⟩
  cases t <;> rfl
theorem vcopy (c : Ctl) (t : ElTy) (d : Reg) (a : Reg) (n : Reg) : Statement (.vcopy c t d a n) := by
  intro _ _ h; cases h
  refine ⟨by decide, FE.read (fun f => (ElTy.ofCode f.sub.toNat).map fun x => .vcopy c x f.f1 f.f2 f.f5) (FE.mk d a 0 0 n (BitVec.ofNat 16 t.code)) ?_⟩
  cases t <;> rfl
theorem vlogic (c : Ctl) (k : VLog) (d : Reg) (a : Reg) (b : Reg) (n : Reg) : Statement (.vlogic c k d a b n) := by
  intro _ _ h; cases h
  refine ⟨by decide, FE.read (fun f => (VLog.ofCode f.sub.toNat).map fun x => .vlogic c x f.f1 f.f2 f.f3 f.f5) (FE.mk d a b 0 n (BitVec.ofNat 16 k.code)) ?_⟩
  cases k <;> rfl
theorem vhash (c : Ctl) (d : Reg) (a : Reg) (b : Reg) (n : Reg) : Statement (.vhash c d a b n) := by
  intro _ _ h; cases h
  exact ⟨by decide, FE.read (fun f => if f.sub = 1 then some (.vhash c f.f1 f.f2 f.f3 f.f5) else none) (FE.mk d a b 0 n 1) rfl⟩
theorem wset (c : Ctl) (w : BitVec 3) (ra : Reg) : Statement (.wset c w ra) := by
  intro _ _ h; cases h
  refine ⟨by decide, FR.read (fun f => if f.sub = 0 ∧ f.rd.getLsbD 3 = false then some (.wset c (f.rd.extractLsb' 0 3) f.ra) else none) (FR.mk ((0 : BitVec 1) ++ w) ra 0 0 0) ?_⟩
  simp (disch := omega) only [extract_append_high, extract_append_low, bit_append_high, bit_append_low, Nat.reduceSub, extract_self, bit_ofBool] <;> rfl
theorem wget (c : Ctl) (w : BitVec 3) (ra : Reg) : Statement (.wget c w ra) := by
  intro _ _ h; cases h
  refine ⟨by decide, FR.read (fun f => if f.sub = 0 ∧ f.rd.getLsbD 3 = false then some (.wget c (f.rd.extractLsb' 0 3) f.ra) else none) (FR.mk ((0 : BitVec 1) ++ w) ra 0 0 0) ?_⟩
  simp (disch := omega) only [extract_append_high, extract_append_low, bit_append_high, bit_append_low, Nat.reduceSub, extract_self, bit_ofBool] <;> rfl
theorem qload (c : Ctl) (seeds : Bool) (ra : Reg) (rb : Reg) (cnt : BitVec 7) : Statement (.qload c seeds ra rb cnt) := by
  intro _ _ h; cases h
  refine ⟨by decide, FR.read (fun f => if f.sub = 0 then some (.qload c (f.aux.getLsbD 7) f.ra f.rb (f.aux.extractLsb' 0 7)) else none) (FR.mk 0 ra rb 0 ((0 : BitVec 8) ++ BitVec.ofBool seeds ++ cnt)) ?_⟩
  simp (disch := omega) only [extract_append_high, extract_append_low, bit_append_high, bit_append_low, Nat.reduceSub, extract_self, bit_ofBool] <;> rfl
theorem qsave (c : Ctl) (seeds : Bool) (ra : Reg) (rb : Reg) (cnt : BitVec 7) : Statement (.qsave c seeds ra rb cnt) := by
  intro _ _ h; cases h
  refine ⟨by decide, FR.read (fun f => if f.sub = 0 then some (.qsave c (f.aux.getLsbD 7) f.ra f.rb (f.aux.extractLsb' 0 7)) else none) (FR.mk 0 ra rb 0 ((0 : BitVec 8) ++ BitVec.ofBool seeds ++ cnt)) ?_⟩
  simp (disch := omega) only [extract_append_high, extract_append_low, bit_append_high, bit_append_low, Nat.reduceSub, extract_self, bit_ofBool] <;> rfl
theorem qseed (c : Ctl) (x : Bool) (ra : Reg) (rb : Reg) : Statement (.qseed c x ra rb) := by
  intro _ _ h; cases h
  refine ⟨by decide, FR.read (fun f => if f.sub.extractLsb' 1 7 = 0 then some (.qseed c (f.sub.getLsbD 0) f.ra f.rb) else none) (FR.mk 0 ra rb ((0 : BitVec 7) ++ BitVec.ofBool x) 0) ?_⟩
  simp (disch := omega) only [extract_append_high, extract_append_low, bit_append_high, bit_append_low, Nat.reduceSub, extract_self, bit_ofBool] <;> rfl
theorem qgen (c : Ctl) (rd : Reg) (ra : Reg) (rb : Reg) : Statement (.qgen c rd ra rb) := by
  intro _ _ h; cases h
  exact ⟨by decide, FR.read (fun f => sub0 f (.qgen c f.rd f.ra f.rb)) (FR.mk rd ra rb 0 0) rfl⟩
theorem qgenv (c : Ctl) (dst : Reg) (dim : Reg) (idx : Reg) (n : Reg) : Statement (.qgenv c dst dim idx n) := by
  intro _ _ h; cases h
  exact ⟨by decide, FE.read (fun f => sub0E f (.qgenv c f.f1 f.f2 f.f3 f.f5)) (FE.mk dst dim idx 0 n 0) rfl⟩
theorem oclm (c : Ctl) (s : Reg) (fm : OFmt) (role : Role) : Statement (.oclm c s fm role) := by
  intro _ _ h; cases h
  refine ⟨by decide, FR.read (fun f => if f.sub.extractLsb' 3 5 = 0 then (OFmt.ofCode (f.sub.extractLsb' 0 2).toNat).map fun m => .oclm c f.rd m (Role.ofBool (f.sub.getLsbD 2)) else none) (FR.mk s 0 0 ((0 : BitVec 5) ++ BitVec.ofBool role.toBool ++ (BitVec.ofNat 2 fm.code)) 0) ?_⟩
  cases fm <;> cases role <;> simp (disch := omega) only [extract_append_high, extract_append_low, bit_append_high, bit_append_low, Nat.reduceSub, extract_self, bit_ofBool] <;> rfl
theorem orls (c : Ctl) (rd : Reg) : Statement (.orls c rd) := by
  intro _ _ h; cases h
  exact ⟨by decide, FR.read (fun f => sub0 f (.orls c f.rd)) (FR.mk rd 0 0 0 0) rfl⟩
theorem oload (c : Ctl) (k : OSrc) (s : Reg) (src : Reg) (len : Reg) : Statement (.oload c k s src len) := by
  intro _ _ h; cases h
  refine ⟨by decide, FE.read (fun f => (OSrc.ofCode f.sub.toNat).map fun k => .oload c k f.f1 f.f2 f.f3) (FE.mk s src len 0 0 (BitVec.ofNat 16 k.code)) ?_⟩
  cases k <;> rfl
theorem mmg (c : Ctl) (k : OFmt) (acc : BitVec 1) (sa : Reg) (sb : Reg) (fd : Reg) : Statement (.mmg c k acc sa sb fd) := by
  intro _ _ h; cases h
  refine ⟨by decide, FR.read (fun f => match OFmt.ofCode f.sub.toNat with | some k => if f.rd.extractLsb' 1 3 = 0 then some (.mmg c k (f.rd.extractLsb' 0 1) f.ra f.rb (f.aux.extractLsb' 0 4)) else none | none => none) (FR.mk ((0 : BitVec 3) ++ acc) sa sb (BitVec.ofNat 8 k.code) ((0 : BitVec 12) ++ fd)) ?_⟩
  cases k <;> simp (disch := omega) only [extract_append_high, extract_append_low, bit_append_high, bit_append_low, Nat.reduceSub, extract_self, bit_ofBool] <;> rfl
theorem mol (c : Ctl) (acc : BitVec 1) (sa : Reg) (lst : Reg) (n : Reg) : Statement (.mol c acc sa lst n) := by
  intro _ _ h; cases h
  refine ⟨by decide, FE.read (fun f => if f.sub = 0 ∧ f.f1.extractLsb' 1 3 = 0 then some (.mol c (f.f1.extractLsb' 0 1) f.f2 f.f3 f.f5) else none) (FE.mk ((0 : BitVec 3) ++ acc) sa lst 0 n 0) ?_⟩
  simp (disch := omega) only [extract_append_high, extract_append_low, bit_append_high, bit_append_low, Nat.reduceSub, extract_self, bit_ofBool] <;> rfl
theorem mdrn (c : Ctl) (acc : BitVec 1) (dst : Reg) (cs : Reg) (rs : Reg) : Statement (.mdrn c acc dst cs rs) := by
  intro _ _ h; cases h
  refine ⟨by decide, FE.read (fun f => if f.sub = 0 ∧ f.f1.extractLsb' 1 3 = 0 then some (.mdrn c (f.f1.extractLsb' 0 1) f.f2 f.f3 f.f4) else none) (FE.mk ((0 : BitVec 3) ++ acc) dst cs rs 0 0) ?_⟩
  simp (disch := omega) only [extract_append_high, extract_append_low, bit_append_high, bit_append_low, Nat.reduceSub, extract_self, bit_ofBool] <;> rfl
theorem mclr (c : Ctl) (acc : BitVec 1) : Statement (.mclr c acc) := by
  intro _ _ h; cases h
  refine ⟨by decide, FR.read (fun f => if f.sub = 0 ∧ f.rd.extractLsb' 1 3 = 0 then some (.mclr c (f.rd.extractLsb' 0 1)) else none) (FR.mk ((0 : BitVec 3) ++ acc) 0 0 0 0) ?_⟩
  simp (disch := omega) only [extract_append_high, extract_append_low, bit_append_high, bit_append_low, Nat.reduceSub, extract_self, bit_ofBool] <;> rfl
theorem mstat (c : Ctl) (rd : Reg) (acc : BitVec 1) : Statement (.mstat c rd acc) := by
  intro _ _ h; cases h
  refine ⟨by decide, FR.read (fun f => if f.sub = 0 ∧ f.ra.extractLsb' 1 3 = 0 then some (.mstat c f.rd (f.ra.extractLsb' 0 1)) else none) (FR.mk rd ((0 : BitVec 3) ++ acc) 0 0 0) ?_⟩
  simp (disch := omega) only [extract_append_high, extract_append_low, bit_append_high, bit_append_low, Nat.reduceSub, extract_self, bit_ofBool] <;> rfl
theorem trst (c : Ctl) (rd : Reg) : Statement (.trst c rd) := by
  intro _ _ h; cases h
  exact ⟨by decide, FR.read (fun f => sub0 f (.trst c f.rd)) (FR.mk rd 0 0 0 0) rfl⟩
theorem tadd (c : Ctl) (rd : Reg) (imm : BitVec 24) : Statement (.tadd c rd imm) := by
  intro _ _ h; cases h
  exact ⟨by decide, FI.read (fun f => sub0I f (.tadd c f.rd f.imm)) (FI.mk rd 0 imm 0) rfl⟩
theorem trd (c : Ctl) (rd : Reg) (ra : Reg) : Statement (.trd c rd ra) := by
  intro _ _ h; cases h
  exact ⟨by decide, FR.read (fun f => sub0 f (.trd c f.rd f.ra)) (FR.mk rd ra 0 0 0) rfl⟩
theorem gnew (c : Ctl) (rd : Reg) (ra : Reg) : Statement (.gnew c rd ra) := by
  intro _ _ h; cases h
  exact ⟨by decide, FR.read (fun f => sub0 f (.gnew c f.rd f.ra)) (FR.mk rd ra 0 0 0) rfl⟩
theorem gjoin (c : Ctl) (ra : Reg) : Statement (.gjoin c ra) := by
  intro _ _ h; cases h
  exact ⟨by decide, FR.read (fun f => sub0 f (.gjoin c f.ra)) (FR.mk 0 ra 0 0 0) rfl⟩
theorem gleave (c : Ctl) (ra : Reg) : Statement (.gleave c ra) := by
  intro _ _ h; cases h
  exact ⟨by decide, FR.read (fun f => sub0 f (.gleave c f.ra)) (FR.mk 0 ra 0 0 0) rfl⟩
theorem gfree (c : Ctl) (ra : Reg) : Statement (.gfree c ra) := by
  intro _ _ h; cases h
  exact ⟨by decide, FR.read (fun f => sub0 f (.gfree c f.ra)) (FR.mk 0 ra 0 0 0) rfl⟩
theorem gcnt (c : Ctl) (rd : Reg) (ra : Reg) : Statement (.gcnt c rd ra) := by
  intro _ _ h; cases h
  exact ⟨by decide, FR.read (fun f => sub0 f (.gcnt c f.rd f.ra)) (FR.mk rd ra 0 0 0) rfl⟩
theorem gbar (c : Ctl) (ra : Reg) (k : Reg) : Statement (.gbar c ra k) := by
  intro _ _ h; cases h
  refine ⟨by decide, FR.read (fun f => sub0 f (.gbar c f.ra (f.aux.extractLsb' 0 4))) (FR.mk 0 ra 0 0 ((0 : BitVec 12) ++ k)) ?_⟩
  simp (disch := omega) only [extract_append_high, extract_append_low, bit_append_high, bit_append_low, Nat.reduceSub, extract_self, bit_ofBool] <;> rfl
theorem gred (c : Ctl) (k : RedOp) (h : Reg) (val : Reg) (cnt : Reg) (res : Reg) (tok : Reg) : Statement (.gred c k h val cnt res tok) := by
  intro _ _ h; cases h
  refine ⟨by decide, FE.read (fun f => if f.sub.getLsbD 3 = false ∧ f.sub.extractLsb' 8 8 = 0 then some (.gred c (RedOp.ofBits (f.sub.extractLsb' 0 3)) f.f1 f.f2 f.f3 f.f4 (f.sub.extractLsb' 4 4)) else none) (FE.mk h val cnt res 0 ((0 : BitVec 8) ++ tok ++ (0 : BitVec 1) ++ (BitVec.ofNat 3 k.code))) ?_⟩
  cases k <;> simp (disch := omega) only [extract_append_high, extract_append_low, bit_append_high, bit_append_low, Nat.reduceSub, extract_self, bit_ofBool] <;> rfl
theorem copy (c : Ctl) (res : Bool) (ra : Reg) : Statement (.copy c res ra) := by
  intro _ _ h; cases h
  refine ⟨by decide, FR.read (fun f => if f.sub.extractLsb' 1 7 = 0 then some (.copy c (f.sub.getLsbD 0) f.ra) else none) (FR.mk 0 ra 0 ((0 : BitVec 7) ++ BitVec.ofBool res) 0) ?_⟩
  simp (disch := omega) only [extract_append_high, extract_append_low, bit_append_high, bit_append_low, Nat.reduceSub, extract_self, bit_ofBool] <;> rfl
theorem cpyx (c : Ctl) (ra : Reg) : Statement (.cpyx c ra) := by
  intro _ _ h; cases h
  exact ⟨by decide, FR.read (fun f => sub0 f (.cpyx c f.ra)) (FR.mk 0 ra 0 0 0) rfl⟩
theorem cpyq (c : Ctl) (rd : Reg) (ra : Reg) : Statement (.cpyq c rd ra) := by
  intro _ _ h; cases h
  exact ⟨by decide, FR.read (fun f => sub0 f (.cpyq c f.rd f.ra)) (FR.mk rd ra 0 0 0) rfl⟩
theorem lnch (c : Ctl) (ra : Reg) : Statement (.lnch c ra) := by
  intro _ _ h; cases h
  exact ⟨by decide, FR.read (fun f => sub0 f (.lnch c f.ra)) (FR.mk 0 ra 0 0 0) rfl⟩
theorem trig (c : Ctl) : Statement (.trig c) := by
  intro _ _ h; cases h
  exact ⟨by decide, rfl⟩
theorem lwait (c : Ctl) : Statement (.lwait c) := by
  intro _ _ h; cases h
  exact ⟨by decide, rfl⟩
theorem trap (c : Ctl) (imm : BitVec 24) : Statement (.trap c imm) := by
  intro _ _ h; cases h
  exact ⟨by decide, FI.read (fun f => sub0I f (.trap c f.imm)) (FI.mk 0 0 imm 0) rfl⟩
theorem rett (c : Ctl) (nx : Bool) : Statement (.rett c nx) := by
  intro _ _ h; cases h
  refine ⟨by decide, ?_⟩
  show (fun (c : Ctl) (a : BitVec 36) => (some (.rett c (a.getLsbD 0)) : Option Instr)) _ _ = _
  simp (disch := omega) only [Instr.area, extract_append_high, extract_append_low, bit_append_high, bit_append_low, Nat.reduceSub, extract_self, bit_ofBool] <;> rfl
theorem srd (c : Ctl) (rd : Reg) (imm : BitVec 24) (sf : BitVec 4) : Statement (.srd c rd imm sf) := by
  intro _ _ h; cases h
  exact ⟨by decide, FI.read (fun f => some (.srd c f.rd f.imm f.sub)) (FI.mk rd 0 imm sf) rfl⟩
theorem swr (c : Ctl) (ra : Reg) (imm : BitVec 24) (sf : BitVec 4) : Statement (.swr c ra imm sf) := by
  intro _ _ h; cases h
  exact ⟨by decide, FI.read (fun f => some (.swr c f.ra f.imm f.sub)) (FI.mk 0 ra imm sf) rfl⟩
theorem spawn (c : Ctl) (se : Bool) (ti : Reg) (ent : Reg) (arg : Reg) (k : Reg) : Statement (.spawn c se ti ent arg k) := by
  intro _ _ h; cases h
  refine ⟨by decide, FE.read (fun f => if f.sub.extractLsb' 5 11 = 0 then some (.spawn c (f.sub.getLsbD 4) f.f1 f.f2 f.f3 (f.sub.extractLsb' 0 4)) else none) (FE.mk ti ent arg 0 0 ((0 : BitVec 11) ++ BitVec.ofBool se ++ k)) ?_⟩
  simp (disch := omega) only [extract_append_high, extract_append_low, bit_append_high, bit_append_low, Nat.reduceSub, extract_self, bit_ofBool] <;> rfl
theorem reap (c : Ctl) (rd : Reg) (ra : Reg) : Statement (.reap c rd ra) := by
  intro _ _ h; cases h
  exact ⟨by decide, FR.read (fun f => sub0 f (.reap c f.rd f.ra)) (FR.mk rd ra 0 0 0) rfl⟩
theorem svc (c : Ctl) (imm : BitVec 24) : Statement (.svc c imm) := by
  intro _ _ h; cases h
  exact ⟨by decide, FI.read (fun f => sub0I f (.svc c f.imm)) (FI.mk 0 0 imm 0) rfl⟩
theorem einj (c : Ctl) (gx : Reg) (gm : Reg) (tgt : Reg) : Statement (.einj c gx gm tgt) := by
  intro _ _ h; cases h
  refine ⟨by decide, ?_⟩
  show (fun (c : Ctl) (a : BitVec 36) => (some (.einj c (a.extractLsb' 32 4) (a.extractLsb' 28 4) (a.extractLsb' 0 4)) : Option Instr)) _ _ = _
  simp (disch := omega) only [Instr.area, extract_append_high, extract_append_low, bit_append_high, bit_append_low, Nat.reduceSub, extract_self, bit_ofBool] <;> rfl
theorem idem (c : Ctl) : Statement (.idem c) := by
  intro _ _ h; cases h
  exact ⟨by decide, rfl⟩
theorem fixedLatencyWriteback (t : TRef) (id : Nat) : Statement (.fixedLatencyWriteback t id) := by intro _ _ h; cases h
theorem longLatencyWrite (op : Nat) : Statement (.longLatencyWrite op) := by intro _ _ h; cases h
theorem signalPost (t : TRef) (region : Nat) (k : Tok) (n : Nat) : Statement (.signalPost t region k n) := by intro _ _ h; cases h
theorem gapExpiry (t : TRef) : Statement (.gapExpiry t) := by intro _ _ h; cases h
theorem dlyExpiry (t : TRef) : Statement (.dlyExpiry t) := by intro _ _ h; cases h
theorem takenTransferRefetch (t : TRef) : Statement (.takenTransferRefetch t) := by intro _ _ h; cases h
theorem scalarFpTrap (t : TRef) (id : Nat) : Statement (.scalarFpTrap t id) := by intro _ _ h; cases h
theorem reportDelivery (t : TRef) : Statement (.reportDelivery t) := by intro _ _ h; cases h
theorem consumedError (t : TRef) : Statement (.consumedError t) := by intro _ _ h; cases h
theorem deferredFaultReport (op : Nat) : Statement (.deferredFaultReport op) := by intro _ _ h; cases h
theorem retryLatchRelease (t : TRef) : Statement (.retryLatchRelease t) := by intro _ _ h; cases h
theorem threadReady (t : TRef) : Statement (.threadReady t) := by intro _ _ h; cases h
theorem vectorOpStart (op : Nat) : Statement (.vectorOpStart op) := by intro _ _ h; cases h
theorem vectorOpComplete (op : Nat) : Statement (.vectorOpComplete op) := by intro _ _ h; cases h
theorem qruCommandComplete (op : Nat) : Statement (.qruCommandComplete op) := by intro _ _ h; cases h
theorem transferComplete (op : Nat) : Statement (.transferComplete op) := by intro _ _ h; cases h
theorem oloadComplete (op : Nat) : Statement (.oloadComplete op) := by intro _ _ h; cases h
theorem gangLineRelease (l : Nat) (g : Nat) : Statement (.gangLineRelease l g) := by intro _ _ h; cases h
theorem mmgExecute (op : Nat) : Statement (.mmgExecute op) := by intro _ _ h; cases h
theorem molExecute (op : Nat) : Statement (.molExecute op) := by intro _ _ h; cases h
theorem mdrnExecute (op : Nat) : Statement (.mdrnExecute op) := by intro _ _ h; cases h
theorem mclrExecute (op : Nat) : Statement (.mclrExecute op) := by intro _ _ h; cases h
theorem mstatExecute (op : Nat) : Statement (.mstatExecute op) := by intro _ _ h; cases h
theorem parityUpdate (v : TileRef) (w : Nat) : Statement (.parityUpdate v w) := by intro _ _ h; cases h
theorem refreshWindowBegin (fld : Nat) (sl : Nat) : Statement (.refreshWindowBegin fld sl) := by intro _ _ h; cases h
theorem refreshWindowEnd (fld : Nat) (sl : Nat) : Statement (.refreshWindowEnd fld sl) := by intro _ _ h; cases h
theorem messageDelivery (op : Nat) : Statement (.messageDelivery op) := by intro _ _ h; cases h
theorem remoteAccessServe (op : Nat) : Statement (.remoteAccessServe op) := by intro _ _ h; cases h
theorem migrationDeparture (t : TRef) : Statement (.migrationDeparture t) := by intro _ _ h; cases h
theorem migrationLanding (op : Nat) : Statement (.migrationLanding op) := by intro _ _ h; cases h
theorem returnHome (t : TRef) : Statement (.returnHome t) := by intro _ _ h; cases h
theorem homeAccess (op : Nat) : Statement (.homeAccess op) := by intro _ _ h; cases h
theorem tlbWalkComplete (w : Nat) : Statement (.tlbWalkComplete w) := by intro _ _ h; cases h
theorem notResidentReport (op : Nat) : Statement (.notResidentReport op) := by intro _ _ h; cases h
theorem pageResident (vd : Nat) (home : Nat) (base : Nat) : Statement (.pageResident vd home base) := by intro _ _ h; cases h
theorem pageMoveSector (vd : Nat) (home : Nat) (base : Nat) : Statement (.pageMoveSector vd home base) := by intro _ _ h; cases h
theorem readCacheRefill (op : Nat) : Statement (.readCacheRefill op) := by intro _ _ h; cases h
theorem writeBufferRelease (op : Nat) : Statement (.writeBufferRelease op) := by intro _ _ h; cases h
theorem groupOpAtHome (op : Nat) : Statement (.groupOpAtHome op) := by intro _ _ h; cases h
theorem groupAck (op : Nat) : Statement (.groupAck op) := by intro _ _ h; cases h
theorem copyUnitComplete (op : Nat) : Statement (.copyUnitComplete op) := by intro _ _ h; cases h
theorem launchAccept (vd : Nat) (q : Nat) : Statement (.launchAccept vd q) := by intro _ _ h; cases h
theorem copyListEntry (l : Nat) : Statement (.copyListEntry l) := by intro _ _ h; cases h
theorem gangPlacement (l : Nat) (g : Nat) (place : Nat) : Statement (.gangPlacement l g place) := by intro _ _ h; cases h
theorem parkQueueDelivery (v : TileRef) : Statement (.parkQueueDelivery v) := by intro _ _ h; cases h
theorem workDonation (l : Nat) (src : Nat) (dst : Nat) : Statement (.workDonation l src dst) := by intro _ _ h; cases h
theorem vttCacheRefill (v : TileRef) (target : Nat) : Statement (.vttCacheRefill v target) := by intro _ _ h; cases h
theorem gangSwapOut (l : Nat) (g : Nat) : Statement (.gangSwapOut l g) := by intro _ _ h; cases h
theorem gangRestore (l : Nat) (g : Nat) (place : Nat) : Statement (.gangRestore l g place) := by intro _ _ h; cases h
theorem launchComplete (l : Nat) : Statement (.launchComplete l) := by intro _ _ h; cases h
theorem quantumExpiry (l : Nat) (g : Nat) : Statement (.quantumExpiry l g) := by intro _ _ h; cases h
theorem dispatch (pool : Nat) : Statement (.dispatch pool) := by intro _ _ h; cases h
theorem boostExpiry (pool : Nat) : Statement (.boostExpiry pool) := by intro _ _ h; cases h
theorem preemption (l : Nat) : Statement (.preemption l) := by intro _ _ h; cases h
theorem chunkCountCut (t : TRef) : Statement (.chunkCountCut t) := by intro _ _ h; cases h
theorem commitTurn (l : Nat) : Statement (.commitTurn l) := by intro _ _ h; cases h
theorem killFlood (l : Nat) : Statement (.killFlood l) := by intro _ _ h; cases h
theorem killSweepEnd (l : Nat) : Statement (.killSweepEnd l) := by intro _ _ h; cases h
theorem killConfirm (l : Nat) : Statement (.killConfirm l) := by intro _ _ h; cases h
theorem uncontainedError (u : StoreUnit) : Statement (.uncontainedError u) := by intro _ _ h; cases h
theorem voteRecord (p : Nat) : Statement (.voteRecord p) := by intro _ _ h; cases h
theorem unitRetire (u : RetUnit) (reason : Nat) : Statement (.unitRetire u reason) := by intro _ _ h; cases h
theorem droopEvent (fld : Nat) (mon : Nat) : Statement (.droopEvent fld mon) := by intro _ _ h; cases h
theorem woreriFlitReceive (port : Nat) (flit : List Byte) : Statement (.woreriFlitReceive port flit) := by intro _ _ h; cases h
theorem woreriNakReplay (port : Nat) (seq : Nat) : Statement (.woreriNakReplay port seq) := by intro _ _ h; cases h
theorem laneRetrain (port : Nat) (lane : Nat) : Statement (.laneRetrain port lane) := by intro _ _ h; cases h
theorem reduceOpPerform (op : Nat) : Statement (.reduceOpPerform op) := by intro _ _ h; cases h
theorem svcReturn (t : TRef) : Statement (.svcReturn t) := by intro _ _ h; cases h
theorem illegalOp (w : DWord) : Statement (.illegalOp w) := by intro _ _ h; cases h
theorem vdCapped (vd : Nat) : Statement (.vdCapped vd) := by intro _ _ h; cases h
theorem allowancePeriodBegin : Statement (.allowancePeriodBegin) := by intro _ _ h; cases h
theorem governorTick : Statement (.governorTick) := by intro _ _ h; cases h
theorem hostLinkDown : Statement (.hostLinkDown) := by intro _ _ h; cases h
theorem hostLinkUp : Statement (.hostLinkUp) := by intro _ _ h; cases h
theorem qtailDoorbell : Statement (.qtailDoorbell) := by intro _ _ h; cases h
theorem queueConfigWrite : Statement (.queueConfigWrite) := by intro _ _ h; cases h
theorem hostWindowRead : Statement (.hostWindowRead) := by intro _ _ h; cases h
theorem hostWindowWrite : Statement (.hostWindowWrite) := by intro _ _ h; cases h
theorem cmdKill : Statement (.cmdKill) := by intro _ _ h; cases h
theorem cmdKillvd : Statement (.cmdKillvd) := by intro _ _ h; cases h
theorem poolTableWrite : Statement (.poolTableWrite) := by intro _ _ h; cases h
theorem vdTableWrite : Statement (.vdTableWrite) := by intro _ _ h; cases h
theorem netctlWrite : Statement (.netctlWrite) := by intro _ _ h; cases h
theorem routeWrite : Statement (.routeWrite) := by intro _ _ h; cases h
theorem dbgcertWrite : Statement (.dbgcertWrite) := by intro _ _ h; cases h
theorem registerWrite : Statement (.registerWrite) := by intro _ _ h; cases h
theorem spdmSessionEstablish : Statement (.spdmSessionEstablish) := by intro _ _ h; cases h
theorem debugStop : Statement (.debugStop) := by intro _ _ h; cases h
theorem debugStep : Statement (.debugStep) := by intro _ _ h; cases h
theorem debugWithdraw : Statement (.debugWithdraw) := by intro _ _ h; cases h
theorem debugArm : Statement (.debugArm) := by intro _ _ h; cases h
theorem debugDisarm : Statement (.debugDisarm) := by intro _ _ h; cases h
theorem debugRead : Statement (.debugRead) := by intro _ _ h; cases h
theorem debugWrite : Statement (.debugWrite) := by intro _ _ h; cases h
theorem detach : Statement (.detach) := by intro _ _ h; cases h
theorem endSession : Statement (.endSession) := by intro _ _ h; cases h
theorem sessionTimeout : Statement (.sessionTimeout) := by intro _ _ h; cases h
theorem moduleReset : Statement (.moduleReset) := by intro _ _ h; cases h
theorem powerLoss : Statement (.powerLoss) := by intro _ _ h; cases h
theorem temperatureChange : Statement (.temperatureChange) := by intro _ _ h; cases h
theorem softError : Statement (.softError) := by intro _ _ h; cases h
theorem scrub : Statement (.scrub) := by intro _ _ h; cases h
theorem physicalFunctionPageRequest : Statement (.physicalFunctionPageRequest) := by intro _ _ h; cases h
theorem ringOscillatorWindow : Statement (.ringOscillatorWindow) := by intro _ _ h; cases h

end Sys2Proof.Laws.Encodes
end

