-- ==== Sys2Proof/Machine/Vat.lean ====
section
/-!
DEFINITION. The region of its VD's vat in which a virtual tile is saved, byte by byte (16 R339). Where the rule gives a part its place
and the spec no layout within it, its bytes are a free function of what is saved there (log 46).
-/
namespace Sys2Proof.Machine

/-- A byte of a part: one of a list of bytes, zero past its end. -/
def byteOf (l : List Byte) (i : Nat) : Byte := (l[i]?).getD 0

def SlotSt.code : SlotSt → Nat | .free => 0 | .claimed => 1 | .filling => 2 | .filled => 3
def vatFlag (b : Bool) : Nat := if b then 1 else 0

/-- What is saved of an operand slot besides its contents; of an accumulator besides its entries; of a group record; of a report. -/
def Slot.numbers (x : Slot) : List Nat := [x.st.code, OFmt.code x.fmt, vatFlag (decide (x.role = .a)), x.k, x.cursor]
def Acc.numbers (a : Acc) : List Nat :=
  [match a.tag with | .none => 0 | .int => 1 | .bf => 2, vatFlag a.sat, vatFlag a.ckinv, vatFlag a.rep.unc, vatFlag a.rep.ckfix, vatFlag a.rep.dovf,
   a.rep.ncorr, a.rep.row, a.rep.col] ++ (a.ck.flatMap fun e => [e.1, (e.2 % 2 ^ 64).toNat]) ++ a.msum.flatMap fun e => [e.1, e.2.toNat]
def Group.numbers (g : Group) : List Nat :=
  [vatFlag g.used, g.gen.toNat, g.count] ++ (g.bar.flatMap fun a => [a.t.v, a.t.th, a.tok.toNat]) ++
    match g.red with
    | none => []
    | some p => [p.n, p.part.toNat] ++ p.arr.flatMap fun a => [a.t.v, a.t.th, a.raddr]
def Report.numbers (p : Report) : List Nat := [p.cause, p.tval.toNat, p.taux.toNat]

/-- The 16 bytes of a mailbox entry (06 R160). -/
def Msg.bytes (m : Msg) : List Byte := leBytes m.payload.toNat 8 ++ m.tag :: leBytes m.source.toNat 3 ++ leBytes m.seq 4

/-- The 512 bytes of a thread's record: image, trap bank, TVEC, TSAVE, and the reports. -/
def Thread.record (t : Thread) : List Byte :=
  t.image ++ t.bank ++ leBytes t.tvec.toNat 8 ++ leBytes t.tsave.toNat 8 ++
    (List.range 272).map fun i => if t.reports = [] then 0 else Config.vatByte i (t.reports.flatMap Report.numbers)

/-- The bytes of a parked entry: a message as it stands in a mailbox; another of the size that log 46 gives it. -/
def Op.parkBytes (o : Op) (k : Nat) : List Byte :=
  match o.cls with
  | .send => Msg.bytes { payload := BitVec.ofNat 64 (leNat o.data), tag := BitVec.ofNat 8 o.line, source := BitVec.ofNat 24 o.tile.v, seq := k }
  | _ => (List.range o.parkSize).map fun i => Config.vatByte i ([o.ea.toNat, o.t.v, o.t.th] ++ (o.data.map BitVec.toNat) ++ o.vals.map BitVec.toNat)

/-- The byte of a region at an offset: what swap-out saves of the tile, what is parked for it, and zero. -/
def State.vatByte (s : State) (m : TileRef) (off : Nat) : Byte :=
  let v := (s.tile? m).getD {}
  let slot (i : Nat) : Slot := ((v.slots.toList)[i]?).getD {}
  let acc (i : Nat) : Acc := ((v.acc.toList)[i]?).getD {}
  if off < 0x100000 then v.spad.read off
  else if off < 0x140000 then (slot ((off - 0x100000) / 16384)).mem.read ((off - 0x100000) % 16384)
  else if off < 0x160000 then
    let i := off - 0x140000
    byteOf (leBytes ((acc (i / 65536)).at_ (i % 65536 / 8)).toNat 8) (i % 8)
  else if off < 0x164000 then Config.vatByte (off % 0x2000) (acc ((off - 0x160000) / 0x2000)).numbers
  else if off < 0x16C000 then
    let i := off - 0x164000
    byteOf (((s.thread? ⟨m.l, m.v, i / 512⟩).map Thread.record).getD []) (i % 512)
  else if off < 0x16D000 then
    let i := off - 0x16C000
    byteOf ((v.box (i / 1024)).flatMap Msg.bytes) (i % 1024)
  else if off < 0x16F200 then
    let i := off - 0x16D000
    byteOf ((v.qdim (i / 136)).bytes false) (i % 136)
  else if off < 0x16F300 then
    let i := off - 0x16F200
    byteOf (v.windowLast (i / 32)).toBytes (i % 32)
  else if off < 0x16F400 then Config.vatByte (off % 16) (slot ((off - 0x16F300) / 16)).numbers
  else if off < 0x16FC00 then Config.vatByte (off % 64) (v.group ((off - 0x16F400) / 64)).numbers
  else if off < 0x170000 then
    Config.vatByte (off - 0x16FC00) (vatFlag v.triggered :: vatFlag ((((s.launch? m.l).map Launch.summon).getD []).contains (gangOf (s.blk m.l) m.v)) :: v.lineQ)
  else if off < 0x1B0000 then
    byteOf ((v.park.zipIdx).flatMap fun e => ((s.op? e.1).map fun o => o.parkBytes e.2).getD []) (off - 0x170000)
  else 0

end Sys2Proof.Machine
end

