-- ==== Sys2Proof/Laws/Vat.lean ====
section
/-!
SUPPORT. Where the parts of a vat region begin (16 R339).
-/
namespace Sys2Proof.Machine

/-- The first MiB is the scratchpad's data. -/
theorem State.vatByte_spad (s : State) (m : TileRef) {off : Nat} (h : off < 0x100000) :
    s.vatByte m off = ((s.tile? m).getD {}).spad.read off := by simp [State.vatByte, h]

/-- The last 320 KiB are zero. -/
theorem State.vatByte_rest (s : State) (m : TileRef) {off : Nat} (h : 0x1B0000 ≤ off) : s.vatByte m off = 0 := by
  simp only [State.vatByte]
  repeat rw [if_neg (by omega)]

end Sys2Proof.Machine
end

