-- ==== Sys2Proof/Tests/Slice0.lean ====
section
/-!
SUPPORT. Tests: words decoded, terms that WellFormed refuses, worked examples of the spec, and, for every statement with hypotheses, a
machine and operands that meet the hypotheses of each of its clauses.
-/
namespace Sys2Proof.Tests
set_option Elab.async false
open Sys2Proof.Machine Sys2Proof.Claims

/-! ### Words written out from the tables of 03, field by field: each is decoded as its instruction, and encoded back -/

/-- The instruction that one word decodes to. -/
def reads (w : DWord) : Option Instr := match decodeWords [] false 3 [w] with | .ok (i, []) => some i | _ => none
def table (l : List (DWord × Instr)) : Bool := l.all fun e => decide (reads e.1 = some e.2) && decide (encode e.2 = [e.1])

/-- 03 R58, R76, R78, R79. -/
theorem test_decode_integer : table [
    (0x0100000123000000, .add {} 1 2 3), (0x0200000123000000, .sub {} 1 2 3), (0x0400000123000000, .mul {} 1 2 3),
    (0x0500000123000000, .mulh {} 1 2 3), (0x0600000123000000, .mulhu {} 1 2 3), (0x0700000123000000, .div {} 1 2 3),
    (0x0800000123000000, .divu {} 1 2 3), (0x0900000123000000, .rem {} 1 2 3), (0x0A00000123000000, .remu {} 1 2 3),
    (0x0E00000123000000, .andn {} 1 2 3), (0x1200000123000000, .shl {} 1 2 3), (0x1300000123000000, .shr {} 1 2 3),
    (0x1400000123000000, .sar {} 1 2 3), (0x1800000123000000, .rol {} 1 2 3), (0x1C00000123000000, .min {} 1 2 3),
    (0x1D00000123000000, .max {} 1 2 3), (0x1E00000123000000, .minu {} 1 2 3), (0x1F00000123000000, .maxu {} 1 2 3),
    (0x2A00000123000000, .hash {} 1 2 3), (0x0B00000123000000, .and {} 1 2 3), (0x0C00000123000000, .or {} 1 2 3),
    (0x0D00000123000000, .xor {} 1 2 3), (0x1900000120000000, .clz {} 1 2), (0x1A00000120000000, .popc {} 1 2),
    (0x1B00000120000000, .brev {} 1 2), (0x2700000120000000, .mov {} 1 2), (0x2B00000120000000, .bswap {} 1 2),
    (0x2000000123000000, .adds {} .sgn 1 2 3), (0x2100000123010000, .subs {} .uns 1 2 3),
    (0x2200000123050000, .cmp {} .leu 1 2 3), (0x2400000123004000, .sel {} 1 2 3 4),
    (0x28000001200006E8, .extb {} true 1 2 8 23), (0x290000012000001F, .insb {} 1 2 31 0)] = true := by decide +kernel
/-- 03 R59, R62, R76. -/
theorem test_decode_immediate : table [
    (0x0300000128000010, .addi {} 1 2 0x800001), (0x0F00000128000010, .andi {} 1 2 0x800001),
    (0x1000000128000010, .ori {} 1 2 0x800001), (0x1100000128000010, .xori {} 1 2 0x800001),
    (0x15000001200001F0, .shli {} 1 2 31), (0x16000001200001F0, .shri {} 1 2 31),
    (0x17000001200001F0, .sari {} 1 2 31), (0x2300000121234562, .cmpi {} .lt 1 2 0x123456),
    (0x2500000189ABCDEF, .movi {} 1 0x89ABCDEF), (0x2600000289ABCDEF, .movhi {} 2 0x89ABCDEF)] = true := by decide +kernel
/-- 03 R58, R59, R76, R78, R79. -/
theorem test_decode_float_and_pair : table [
    (0x3000000123000000, .fadd {} 1 2 3), (0x3100000123000000, .fsub {} 1 2 3), (0x3200000123000000, .fmul {} 1 2 3),
    (0x3400000123000000, .fmin {} 1 2 3), (0x3500000123000000, .fmax {} 1 2 3),
    (0x3300000123004000, .ffma {} 1 2 3 4), (0x3600000123050000, .fcmp {} .ord 1 2 3),
    (0x3700000123020000, .fsgn {} .cps 1 2 3), (0x3800000120000000, .frcp {} 1 2),
    (0x3900000120000000, .frsq {} 1 2), (0x3B00000120000000, .fcls {} 1 2),
    (0x3A000001200A0000, .fcvt {} .fracf32 1 2), (0x3C00000246000000, .addp {} 2 4 6),
    (0x3D00000247FFFFF0, .addpi {} 2 4 0x7FFFFF), (0x3E00000240000000, .movp {} 2 4),
    (0x3F00000146030000, .cmpp {} .le 1 4 6)] = true := by decide +kernel
/-- 03 R51, R58, R59, R61, R80. -/
theorem test_decode_control : table [
    (0x40000000FFFFFE00, .br {} 0xFFFFFE), (0x4100000300000500, .bz {} false 3 5),
    (0x4200000400000501, .bnz {} true 4 5), (0x43000003FFFFFE00, .loop {} 3 0xFFFFFE),
    (0x4400000000000700, .call {} 7), (0x4800000400000700, .pca {} 4 7), (0x4500000040000000, .callr {} 4),
    (0x4700000040000000, .jmpr {} 4), (0x4600000000000000, .ret {}), (0x4900000007FFFFF0, .dly {} 0x7FFFFF),
    (0x4A00000000000000, .yield {}), (0x4B00000000000000, .exit {}),
    (0x4C3FF59000000000, .wait { tok := 3, thr := 63, wc := true, sgEn := true, sgTok := 5, sgInc := 2, gap := 1 }),
    (0x4D0000000ABCDEF0, .bkpt {} 0xABCDEF)] = true := by decide +kernel
/-- 03 R60, R81 to R83. -/
theorem test_decode_memory : table [
    (0x500000012000010B, .ld {} .hu true 1 2 0x10), (0x5100000120000102, .st {} .h false 1 2 0x10),
    (0x5200000420000106, .ldp {} false 4 2 0x10), (0x530000042000010E, .stp {} true 4 2 0x10),
    (0x5400000420000106, .ldaq {} .d 4 2 0x10), (0x5500000120000104, .strl {} .w 1 2 0x10),
    (0x560000042FFFFF84, .aadd {} .w false 4 2 0xFFFFF8), (0x570000042FFFFF85, .aand {} .wn false 4 2 0xFFFFF8),
    (0x580000042FFFFF86, .aor {} .d false 4 2 0xFFFFF8), (0x590000042FFFFF87, .axor {} .dn false 4 2 0xFFFFF8),
    (0x5A0000042FFFFF8C, .amin {} .w true 4 2 0xFFFFF8), (0x5B0000042FFFFF8D, .amax {} .wn true 4 2 0xFFFFF8),
    (0x5C0000042FFFFF8E, .aminu {} .d true 4 2 0xFFFFF8), (0x5D0000042FFFFF8F, .amaxu {} .dn true 4 2 0xFFFFF8),
    (0x5E0000042FFFFF84, .axch {} .w false 4 2 0xFFFFF8), (0x5F0000042000008E, .acas {} .d true 4 2 8),
    (0x6000000120000084, .afadd {} .w false 1 2 8), (0x6100000120000085, .afmin {} .wn false 1 2 8),
    (0x6200000120000084, .afmax {} .w false 1 2 8), (0x6300000000000015, .fence {} .rel .systemS),
    (0x6400000000000011, .pfence {} 0x11), (0x6500000020000400, .cinv {} .line 2 0x40),
    (0x6600000020000401, .cfls {} .all 2 0x40)] = true := by decide +kernel
/-- 03 R63, R84. -/
theorem test_decode_messages : table [
    (0x7000000120000355, .send {} 1 2 0x55 3), (0x7100000230000200, .recv {} 2 3 2),
    (0x7200000100000100, .mpoll {} 1 1), (0x7300000123400755, .put {} (.note 0x55 3) 1 2 3 4),
    (0x7400000123400000, .get {} 1 2 3 4), (0x7500000100000000, .migr {} 1), (0x7600000123000000, .xin {} 1 2 3),
    (0x7700000123000000, .xout {} 1 2 3)] = true := by decide +kernel
/-- 03 R63, R85. -/
theorem test_decode_vector : table [
    (0x8000000123050000, .vadd {} .f 1 2 3 5), (0x8100000123050001, .vsub {} .i 1 2 3 5),
    (0x8200000123050000, .vmul {} .f 1 2 3 5), (0x8600000123050000, .vscl {} .f 1 2 3 5),
    (0x8700000123050001, .vadds {} .i 1 2 3 5), (0x9300000123050001, .vdot {} .i 1 2 3 5),
    (0x9600000123050000, .vgath {} .f 1 2 3 5), (0x9700000123050001, .vscat {} .i 1 2 3 5),
    (0x8300000123450001, .vfma {} .i 1 2 3 4 5), (0x8400000123050003, .vmin {} .u 1 2 3 5),
    (0x8500000123050000, .vmax {} .f 1 2 3 5), (0x8800000120050000, .vabs {} .f 1 2 5),
    (0x8900000120050001, .vneg {} .i 1 2 5), (0x8F00000120050001, .vsum {} .i 1 2 5),
    (0x9000000120050000, .vmaxr {} .f 1 2 5), (0x9100000120050001, .vminr {} .i 1 2 5),
    (0x9200000120050000, .vargm {} .f 1 2 5), (0x9800000120050000, .vbcst {} .f 1 2 5),
    (0x9900000120050001, .viota {} .i 1 2 5), (0x9A00000120050000, .vcopy {} .f 1 2 5),
    (0x8A00000120050000, .vexp {} 1 2 5), (0x8B00000120050000, .vlog {} 1 2 5), (0x8C00000120050000, .vrcp {} 1 2 5),
    (0x8D00000120050000, .vrsq {} 1 2 5), (0x8E00000120050000, .vtanh {} 1 2 5),
    (0x940000012305000C, .vcmp {} .fun_ 1 2 3 5), (0x9500000123450001, .vsel {} .i 1 2 3 4 5),
    (0x9B00000123050007, .vlogic {} .andn 1 2 3 5), (0x9C00000123050001, .vhash {} 1 2 3 5)] = true := by decide +kernel
/-- 03 R58, R63, R86, R87. -/
theorem test_decode_windows_and_matrix : table [
    (0xA000000720000000, .wset {} 7 2), (0xA100000720000000, .wget {} 7 2),
    (0xA200000023000040, .qload {} false 2 3 64), (0xA300000023000081, .qsave {} true 2 3 1),
    (0xA400000023010000, .qseed {} true 2 3), (0xA500000123000000, .qgen {} 1 2 3),
    (0xA600000123050000, .qgenv {} 1 2 3 5), (0xB000000F00060000, .oclm {} 15 .bf .b),
    (0xB100000F00000000, .orls {} 15), (0xB200000F23000002, .oload {} .g 15 2 3),
    (0xB3000001FE02000D, .mmg {} .bf 1 15 14 13), (0xB4000001F3050000, .mol {} 1 15 3 5),
    (0xB500000123400000, .mdrn {} 1 2 3 4), (0xB600000100000000, .mclr {} 1), (0xB700000310000000, .mstat {} 3 1)] = true := by decide +kernel
/-- 03 R58, R59, R63, R64, R77, R88, R89. -/
theorem test_decode_synchronisation_and_system : table [
    (0xC000000F00000000, .trst {} 15), (0xC100000F00000FF0, .tadd {} 15 255), (0xC2000001F0000000, .trd {} 1 15),
    (0xC300000120000000, .gnew {} 1 2), (0xC400000020000000, .gjoin {} 2), (0xC500000020000000, .gleave {} 2),
    (0xC600000020000000, .gfree {} 2), (0xC70000002000000F, .gbar {} 2 15),
    (0xC8000001234000F7, .gred {} .or 1 2 3 4 15), (0xC900000120000000, .gcnt {} 1 2),
    (0xD000000020010000, .copy {} true 2), (0xD100000020000000, .cpyx {} 2), (0xD200000120000000, .cpyq {} 1 2),
    (0xD300000020000000, .lnch {} 2), (0xD400000000000000, .trig {}), (0xD500000000000000, .lwait {}),
    (0xE0000000000001F0, .trap {} 31), (0xE100000000000001, .rett {} true), (0xE200000100000F00, .srd {} 1 0x0F0 0),
    (0xE300000020000460, .swr {} 2 0x046 0), (0xE40000012300001F, .spawn {} true 1 2 3 15),
    (0xE500000120000000, .reap {} 1 2), (0xE60000000ABCDEF0, .svc {} 0xABCDEF), (0xE700000350000004, .einj {} 3 5 4),
    (0xE800000000000000, .idem {}), (0x2C00000000000005, .illegalOp 0x2C00000000000005)] = true := by decide +kernel

/-- Values outside the limits of 03 R52, R78 to R89 and 06 R154, each one above its limit. -/
theorem test_decode_refuses : ([
    0x0100000123010000, 0x2200000123060000, 0x2000000123020000, 0x28000001200003E1, 0x3A000001200B0000,
    0x4100000300000502, 0x4900000008000000, 0x5000000120000005, 0x540000042000000E, 0x6300000000000001,
    0x630000000000000E, 0x6400000000000001, 0x7000000120000400, 0x8A00000120050001, 0x8000000123050002,
    0xA000000820000000, 0xA200000023000041, 0xB000000100030000, 0xB300000211000000, 0xB600000200000000,
    0xC100000100001000, 0xC800000123400008, 0xD000000020020000, 0xE000000000000200, 0xE400000123000020,
    0x1500000120000200, 0x5F00000F20000084].map (BitVec.ofNat 64) |>.all fun w => match decodeWords [] false 3 [w] with | .error e => decide (e = .badSubop) | .ok _ => false) = true := by
  decide +kernel

/-! ### Terms that the checks of WellFormed refuse, and prefix sequences (03 R70 to R75) -/

theorem test_wellFormed_refuses : ([
    -- 03 R79: the field reaches past bit 31.
    .extb {} false 1 2 1 31, .insb {} 1 2 31 1,
    -- 05 R123: a shift by 32, and by a negative number; with XIMM too.
    .shli {} 1 2 32, .shri {} 1 2 0xFFFFFF, .sari { pfx := [.ximm 1] } 1 2 0,
    -- 03 R80, R88, R89.
    .dly {} 0x800000, .tadd {} 1 256, .trap {} 32,
    -- 06 R154: no register after the last one. 03 R83, R86.
    .acas {} .w false 15 2 0, .pfence {} 0x10, .qload {} false 2 3 0, .qsave {} false 2 3 65,
    -- 03 R77: a word whose code is an instruction's.
    .illegalOp 0x0100000000000000,
    -- 03 R74, R75: a prefix that the instruction does not take; two of one kind.
    .vadd { pfx := [.trip] } .f 1 2 3 5, .add { pfx := [.ximm 0] } 1 2 3, .fence { pfx := [.scope .tileS] } .rel .tileS,
    .add { pfx := [.trip, .trip] } 1 2 3] : List Instr).all (fun i => !i.wellFormed) = true := by decide +kernel

def readsAll (l : List DWord) : Option Instr := match decodeWords [] false 3 l with | .ok (i, []) => some i | _ => none
def refuses (l : List DWord) (e : DecodeError) : Bool := match decodeWords [] false 3 l with | .error x => decide (x = e) | .ok _ => false

/-- The table after 03 R75. -/
theorem test_prefix_sequences :
    readsAll [0xFE00000000000002, 0xFD00000000000000, 0xFC00000000000001, 0x5000000420000004] =
      some (.ld { pfx := [.scope .gangS, .trip, .ximm 1] } .w false 4 2 0) ∧
    readsAll [0xFD00000000000000, 0xFE00000000000003, 0x5100000420000004] =
      some (.st { pfx := [.trip, .scope .vdS] } .w false 4 2 0) ∧
    refuses [0xFD00000000000000, 0x8000000123050000] .prefixMisuse ∧
    refuses [0xFD00000000000000, 0xFD00000000000000, 0x0100000123000000] .prefixMisuse ∧
    refuses [0xFC00000000000001, 0x0100000123000000] .prefixMisuse ∧
    refuses [0xFE00000000000001, 0x6300000000000011] .prefixMisuse ∧
    refuses [0xFE00000000000006, 0x5000000420000004] .prefixMisuse ∧
    refuses [0xFD10000000000000, 0x0100000123000000] .prefixMisuse := by decide +kernel

/-- The worked encodings at the end of 03, and that of 08 R203. -/
theorem test_worked_words :
    readsAll [0xFC00000000000100, 0x5000000480000404] = some (.ld { pfx := [.ximm 0x100] } .w false 4 8 0x40) ∧
    readsAll [0x7020600300000011] = some (.send { tok := 2, thr := 1, wc := true } 3 0 0x11 0) ∧
    refuses [0x7020600300000411] .badSubop ∧ readsAll [0xB000000500040000] = some (.oclm {} 5 .ts .b) := by decide +kernel

/-! ### Worked examples of the spec -/

/-- 04 R91: two TS8 values in units of 2^-6. -/
theorem test_ts8 : ts8Units 0x1B = 24 ∧ ts8Units 0x87 = -64 := by decide +kernel
/-- 04 R94: FRAC32 0xC00000FF is 0.75. -/
theorem test_frac : (fpCvt .fracf32 .rne 0xC00000FF).1 = 0x3F400000 := by decide +kernel
/-- 05 R127: 16,777,217 to FP32 in the four modes. -/
theorem test_fcvt_modes : [RM.rne, .rz, .rdn, .rup].map (fun m => (fpCvt .i32f32 m 0x01000001).1) =
    [0x4B800000, 0x4B800000, 0x4B800000, 0x4B800001] := by decide +kernel
/-- 04, the example before R114: an entry of -7288 units, drained with its two scales, and encoded as BF16 with RNE and RZ. -/
theorem test_drain : drained .int 0xFFFFFFFFFFFFE388 (65536 * 0x3DCD) (65536 * 0x3FAB) = 0xC173A540 ∧
    (encodeVal { fmt := 2 } (v32 0xC173A540)).1 = 0xC174 ∧ (encodeVal { fmt := 2, rnd := 1 } (v32 0xC173A540)).1 = 0xC173 := by
  decide +kernel
/-- 10, the example of "Layout". -/
theorem test_layout : spGroup 0x12344 = 2 ∧ spBank 0x12344 = 2 ∧ spRow 0x12344 = 0x91 := by decide +kernel
/-- 16, the example of a 4 x 4 grid with gangs of 2. -/
theorem test_gang_order :
    [(0, 0), (1, 0), (2, 0), (3, 0), (0, 2), (3, 2)].map (fun p => ({ w := 4, h := 4, gsize := 2, order := p.1, swz := p.2 } : Block).gangOrder) =
    [[0, 1, 2, 3, 4, 5, 6, 7], [0, 2, 4, 6, 1, 3, 5, 7], [0, 2, 1, 3, 4, 6, 5, 7], [0, 2, 4, 6, 5, 7, 3, 1], [0, 2, 4, 6, 1, 3, 5, 7],
     [0, 2, 4, 6, 1, 3, 5, 7]] := by decide +kernel

/-! ### A small machine -/

/-- A small machine: one launch, a gang of one tile at its first tile and another at its second, a lead thread on the first, a page of global memory. -/
def r0 : TRef := ⟨0, 0, 0⟩
def r1 : TRef := ⟨0, 0, 1⟩
def m0 : TileRef := ⟨0, 0⟩
def m1 : TileRef := ⟨0, 1⟩
/-- A lead thread with these registers. -/
def th (l : List (Reg × Word)) : Thread :=
  { g := Vector.ofFn fun k => ((l.find? fun p => decide (p.1.toNat = k.val)).map Prod.snd).getD 0, pc := 8, slot := some 0
    lead := true, block := some (0, 255) }
/-- Pairs 2, 4 and 6: the end of window 0, of window 0 of virtual tile 1, and of a page of home 0. -/
def t0 : Thread := th [(1, 0x80000000), (2, 0xFFFF8), (3, 0x80000000), (4, 0xFFFF8), (5, 0x90000010), (6, 0xFFF8), (8, 63), (9, 0xFFFFFFFF)]
def vt : VTile := { place := .present, vttCache := [(0, .present, 0, 0), (1, .present, 1, 0)] }
def bk : Block := { w := 2, h := 1, gsize := 1, heavy := 1 }
def ln : Launch :=
  { vd := 1, queue := 0, phase := .placing, blk := bk, gangs := [(0, { st := .resident }), (1, { st := .resident, first := 1, row := 1 })] }
def pg : Page := { vd := 1, home := 0, base := 0, size := 65536, frame := 0, rd := true, wr := true }
def wt : VTile := { vt with ltile := 1 }
def sys (t : Thread) (v : VTile := vt) (ops : Assoc Nat Op := []) (w : VTile := wt) : State :=
  { State.reset with
    cycle := 100, nextId := 10, cur := some r0, threads := [(r0, t)], vtiles := [(m0, v), (m1, w)]
    launches := [(0, ln)], nextLaunch := 1, vds := [(1, { en := true, weight := 1, effWeight := 1 })]
    pools := [(0, { rows := 0xF, wsn := 1 })], pages := [pg], tlb := [(1, 0, 0)], hbm := [(7, 0xFF)], ops }
/-- An operation of the thread, and the machine with it under the number 5. -/
def op (cls : Cls) (i : Instr) (vals : List Word := []) : Op := { t := r0, tile := m0, vd := 1, cls, ins := i, vals }
def at5 (o : Op) (v : VTile := vt) (t : Thread := t0) (w : VTile := wt) : State := sys t v [(5, o)] w
/-- What an OLOAD reads of weight space, and of a page of a home. -/
def weightBytes (s : State) (o : Op) (off b : Nat) : Option Byte := (s.wsAt (s.tilePool o.tile) (s.tileField o.tile) (off + b)).map s.ws.read
def homeBytes (s : State) (o : Op) (home off b : Nat) : Option Byte := (homePlace s o.vd home (off + b) true false).map s.hbm.read

/-- A header of two words, XIMM and ADDI, at address 0 (03 R65, R70, R71). -/
def codeHeader : DWord := 0xFF08000000000000
def codeWords : List DWord := [0xFC00000012345678, 0x0300000450000010]
def codeInstr : Instr := .addi { pfx := [.ximm 0x12345678] } 4 5 1
def codeBytes : Memory :=
  [(6, 0x08), (7, 0xFF), (8, 0x78), (9, 0x56), (10, 0x34), (11, 0x12), (15, 0xFC), (16, 0x10), (19, 0x50), (20, 0x04), (23, 0x03)]
/-- A machine whose refresh windows end. -/
def forcedState : State := { State.reset with cycle := 128 }
theorem forced_some : forcedState.forced?.isSome = true := by decide +kernel
/-- The state of an answer. -/
def nextOf : Host.Outcome State Fault Refusal → State | .next s => s | _ => State.reset
def isNext : Host.Outcome State Fault Refusal → Bool | .next _ => true | _ => false
theorem nextOf_eq {o : Host.Outcome State Fault Refusal} (h : isNext o = true) : o = .next (nextOf o) := by
  cases o <;> first | rfl | cases h

/-- With one small page, the firmware finds room for a block's copy, whatever it prefers. -/
theorem lpb_room (s : State) (vd : Nat) (hp : s.pages = [pg]) : ∃ x, s.lpbAddr vd = some x := by
  unfold State.lpbAddr
  rw [← Option.isSome_iff_exists, List.findSome?_isSome_iff]
  by_cases h : Config.lpbSlot s.nextLaunch % 2 ^ 50 < 256
  · refine ⟨256, List.mem_range.2 (by omega), ?_⟩
    simp [State.unmapped, hp, pg]
    omega
  · refine ⟨0, List.mem_range.2 (by omega), ?_⟩
    simp [State.unmapped, hp, pg]
    omega
theorem miss_clear (s : State) (home f : Nat) (ha : s.missArea = State.reset.missArea) (hf : f < 200000) : s.missClear home f 256 = true := by
  unfold State.missClear
  rw [ha]
  cases h : (State.reset.missArea.toList)[home]? with
  | none => rfl
  | some a =>
    have : a = 2 ^ 36 - 2 ^ 26 := by
      have := List.mem_of_getElem? h
      simp [State.reset] at this
      exact this
    subst this
    simp
    omega
theorem frame_room (s : State) (home n : Nat) (p : Page) (hp : s.pages = [p]) (hh : p.home = 0) (hf : p.frame = 0) (hn : p.size = n)
    (hl : n < 100000) (hm : s.moves = []) (hg : s.pcgOut = []) (ha : s.missArea = State.reset.missArea) : ∃ f, s.pickFrame home 256 = some f := by
  have h : ∃ f ∈ 0 :: (s.pages.filter fun p => decide (p.home = home)).map (fun p => (p.frame + p.size + 256 - 1) / 256 * 256),
      s.frameFree home f 256 = true := by
    by_cases h0 : home = 0
    · refine ⟨(n + 255) / 256 * 256, by simp [hp, hh, hf, hn, h0], ?_⟩
      simp [State.frameFree, State.frameUsable, miss_clear s home ((n + 255) / 256 * 256) ha (by omega), hp, hm, hg, hh, hf, hn]
      omega
    · refine ⟨0, List.mem_cons_self, ?_⟩
      have hb : decide (p.home = home) = false := by simp [hh, Ne.symm h0]
      simp only [State.frameFree, State.frameUsable, miss_clear s home 0 ha (by omega), hp, hm, hg, List.all_cons, List.all_nil, hb, Bool.not_false, Bool.true_or, Bool.and_true,
        decide_eq_true_eq]
      omega
  obtain ⟨f, hf, hb⟩ := h
  unfold State.pickFrame
  refine ⟨_, List.getElem?_eq_getElem (Nat.lt_of_lt_of_le (Nat.mod_lt _ (by omega)) (Nat.max_le.2 ⟨?_, Nat.le_refl _⟩))⟩
  refine List.length_pos_of_mem (List.mem_filter.2 ⟨?_, hb⟩)
  simpa [hg] using hf
theorem accepts (s : State) (vd q : Nat) (d : List Byte) (b : Block) (hp : s.pages = [pg]) (hm : s.moves = []) (hg : s.pcgOut = []) (ha : s.missArea = State.reset.missArea) :
    (s.acceptOk vd q d b).isSome = true := by
  obtain ⟨⟨home, off⟩, h⟩ := lpb_room s vd hp
  obtain ⟨f, hf⟩ := frame_room s home 65536 pg hp rfl rfl rfl (by decide) hm hg ha
  unfold State.acceptOk
  rw [h]
  dsimp only
  rw [hf]
  rfl

def div0 : Thread :=
  { th [(4, 100), (5, 0), (14, 0x11), (15, 0x22)] with pc := 0x2018, block := some (0x2000, 63), tvec := 0x10000, tsave := 0x80000000000FFE00 }
/-- 12, the example of a division by zero. -/
theorem test_div0_entry : ((nextOf (exec (.div {} 3 4 5) { sys div0 with iword := 0x0700000345000000 })).thread? r0).map (fun t =>
      (t.half1.tpc, t.half1.tcause, t.half1.tval, t.half1.taux, t.half1.tscL, t.half1.tscH)) = some (0x2018, 0x20, 0x64, 0, 0x11, 0x22) ∧
    ((nextOf (exec (.div {} 3 4 5) { sys div0 with iword := 0x0700000345000000 })).thread? r0).map (fun t =>
      (t.half1.tinst, t.pair 14, t.tl, t.pc, t.refetchUntil)) = some (0x0700000345000000, 0x80000000000FFE00, 1, 0x10040, 112) := by
  decide +kernel
/-- 12: RETT.N resumes at 0x2020. -/
theorem test_rett_resumes : ((nextOf (exec (.rett {} true) (sys { t0 with tl := 1, half1 := { tpc := 0x2018, tscL := 0x11 } }))).thread? r0).map
    (fun t => (t.pc, t.tl, t.reg 14)) = some (0x2020, 0, 0x11) := by decide +kernel
/-- A first step runs the word that stands where the first thread fetches: ADDI g4, g5, 7 writes 7 two cycles on. -/
theorem test_first_step : ((nextOf (step (State.reset.withFetchWord 64 0x0300000450000070))).thread? ⟨0, 0, 0⟩).map
    (fun t => t.inflight.map fun f => (f.writes, f.due)) = some [([(4, 7)], 2)] := by decide +kernel
/-- A store of the last byte of the scratchpad, and the load of it. -/
theorem test_store_last_byte : ((nextOf (exec (.st {} .b false 9 2 7) (sys t0))).tile? m0).map (fun v => v.spad) =
    some [(0xFFFFF, 0xFF)] := by decide +kernel

/-! ### The statements' hypotheses can be met: one theorem a statement, one conjunct a clause -/

theorem witness_IntegerRegisterResults :
    (∃ (i : Instr) (s : State) (r : TRef) (t : Thread) (w : Row), registerRow t i = some w ∧ w.c.hasTrip = false ∧
      s.clearToIssue r t w.c w.u = true) :=
  ⟨.sar {} 0 1 8, sys t0, r0, t0, _, rfl, by and_intros <;> decide +kernel⟩

theorem witness_ImmediateAndPairResults :
    (∃ (i : Instr) (s : State) (r : TRef) (t : Thread) (w : Row), immediateRow t i = some w ∧ w.c.hasTrip = false ∧
      s.clearToIssue r t w.c w.u = true) :=
  ⟨.addpi {} 14 2 0x800000, sys t0, r0, t0, _, rfl, by and_intros <;> decide +kernel⟩

theorem witness_DivisionResults :
    (∃ (i : Instr) (s : State) (r : TRef) (t : Thread) (ra rb : Reg) (w : Row), divisionRow t i = some (ra, rb, w) ∧
      w.c.hasTrip = false ∧ s.clearToIssue r t w.c w.u = true ∧ t.reg rb = 0) ∧
    (∃ (i : Instr) (s : State) (r : TRef) (t : Thread) (ra rb : Reg) (w : Row), divisionRow t i = some (ra, rb, w) ∧
      w.c.hasTrip = false ∧ s.clearToIssue r t w.c w.u = true ∧ t.reg rb ≠ 0) :=
  ⟨⟨.div {} 15 1 0, sys t0, r0, t0, _, _, _, rfl, by and_intros <;> decide +kernel⟩,
   ⟨.rem {} 15 1 9, sys t0, r0, t0, _, _, _, rfl, by and_intros <;> decide +kernel⟩⟩

theorem witness_FloatingPointResults :
    (∃ (i : Instr) (s : State) (r : TRef) (t : Thread) (w : FpRow), fpRow t i = some w ∧ w.c.hasTrip = false ∧
      s.clearToIssue r t w.c { reads := w.reads, writes := [w.rd] } = true ∧ (w.holds = false ∨ fpSEN t.fpctl =
      0)) ∧
    (∃ (i : Instr) (s : State) (r : TRef) (t : Thread) (w : FpRow), fpRow t i = some w ∧ w.c.hasTrip = false ∧
      s.clearToIssue r t w.c { reads := w.reads, writes := [w.rd] } = true ∧ w.holds = true ∧ fpSEN t.fpctl ≠ 0) ∧
    (∃ (i : Instr) (t : Thread) (w : FpRow), fpRow t i = some w) :=
  ⟨⟨.fcvt {} .f32i32 15 1, sys t0, r0, t0, _, rfl, by and_intros <;> decide +kernel⟩,
   ⟨.fadd {} 0 1 1, sys { t0 with fpctl := 0x7C }, r0, { t0 with fpctl := 0x7C }, _, rfl,
      by and_intros <;> decide +kernel⟩,
   ⟨.fadd {} 0 1 1, t0, _, rfl⟩⟩

theorem witness_Transfers :
    (∃ (i : Instr) (s : State) (r : TRef) (t : Thread) (j : JumpRow), jumpRow t i = some j ∧ j.c.hasTrip = false ∧
      s.clearToIssue r t j.c j.u = true ∧ (j.call = true → t.lastInBlock j.c = true) ∧ (j.taken = true →
      s.badTarget r.l j.target = false ∧ s.targetAway r.l j.target = false)) ∧
    (∃ (i : Instr) (s : State) (r : TRef) (t : Thread) (j : JumpRow), jumpRow t i = some j ∧ j.c.hasTrip = false ∧
      s.clearToIssue r t j.c j.u = true ∧ j.call = true ∧ t.lastInBlock j.c = false) ∧
    (∃ (i : Instr) (s : State) (r : TRef) (t : Thread) (j : JumpRow), jumpRow t i = some j ∧ j.c.hasTrip = false ∧
      s.clearToIssue r t j.c j.u = true ∧ (j.call = true → t.lastInBlock j.c = true) ∧ j.taken = true ∧
      s.badTarget r.l j.target = true) ∧
    (∃ (i : Instr) (s : State) (r : TRef) (t : Thread) (j : JumpRow), jumpRow t i = some j ∧ j.c.hasTrip = false ∧
      s.clearToIssue r t j.c j.u = true ∧ (j.call = true → t.lastInBlock j.c = true) ∧ j.taken = true ∧
      s.badTarget r.l j.target = false ∧ s.targetAway r.l j.target = true) :=
  ⟨⟨.loop {} 1 0xFFFFFF, sys t0, r0, t0, _, rfl, by and_intros <;> decide +kernel⟩,
   ⟨.call {} 0, sys { t0 with block := some (0, 2) }, r0, { t0 with block := some (0, 2) }, _, rfl,
      by and_intros <;> decide +kernel⟩,
   ⟨.jmpr {} 8, sys t0, r0, t0, _, rfl, by and_intros <;> decide +kernel⟩,
   ⟨.jmpr {} 8,
      { sys (th [(8, 0x10000)]) with pages := [pg, { pg with base := 0x10000, frame := 0x10000, resident := false }] },
      r0, th [(8, 0x10000)], _, rfl, by and_intros <;> decide +kernel⟩⟩

theorem witness_TripVotes :
    (∃ (i : Instr) (s : State) (r : TRef) (t : Thread) (b : Ballot), ballotOf t i = some b ∧ b.c.hasTrip = true ∧
      s.clearToIssue r t b.c b.u = true ∧ ballotOpen s r t i = true) ∧
    (∃ (i : Instr) (s : State) (r : TRef) (t : Thread) (b : Ballot) (p : _), ballotOf t i = some b ∧ b.c.hasTrip =
      true ∧ s.cur = some r ∧ s.thread? r = some t ∧ t.run = .ready ∧ ((loadRow i).isNone && (storeRow i).isNone
      || inFreeMode s r) = true ∧ t.trip = [p]) ∧
    (∃ (i : Instr) (s : State) (r : TRef) (t : Thread) (b : Ballot) (p : _) (q : _), ballotOf t i = some b ∧
      b.c.hasTrip = true ∧ s.cur = some r ∧ s.thread? r = some t ∧ t.run = .ready ∧ ((loadRow i).isNone &&
      (storeRow i).isNone || inFreeMode s r) = true ∧ t.trip = [p, q] ∧ agreed p q (copyOf t b) = none) ∧
    (∃ (i : Instr) (s : State) (r : TRef) (t : Thread) (b : Ballot) (p q m : Copy) (w : _), ballotOf t i = some b ∧
      b.c.hasTrip = true ∧ s.cur = some r ∧ s.thread? r = some t ∧ t.run = .ready ∧ t.trip = [p, q] ∧ agreed p q
      (copyOf t b) = some m ∧ (registerRow t i = some w ∨ immediateRow t i = some w ∨ (∃ ra rb, divisionRow t i =
      some (ra, rb, w)))) ∧
    (∃ (i : Instr) (s : State) (r : TRef) (t : Thread) (b : Ballot) (p q m : Copy) (w : _), ballotOf t i = some b ∧
      b.c.hasTrip = true ∧ s.cur = some r ∧ s.thread? r = some t ∧ t.run = .ready ∧ t.trip = [p, q] ∧ agreed p q
      (copyOf t b) = some m ∧ fpRow t i = some w ∧ (w.holds = false ∨ fpSEN t.fpctl = 0)) ∧
    (∃ (i : Instr) (s : State) (r : TRef) (t : Thread) (b : Ballot) (p q m : Copy) (w : _), ballotOf t i = some b ∧
      b.c.hasTrip = true ∧ s.cur = some r ∧ s.thread? r = some t ∧ t.run = .ready ∧ t.trip = [p, q] ∧ agreed p q
      (copyOf t b) = some m ∧ fpRow t i = some w ∧ w.holds = true ∧ fpSEN t.fpctl ≠ 0) ∧
    (∃ (i : Instr) (s : State) (r : TRef) (t : Thread) (b : Ballot) (p q m : Copy) (j : _), ballotOf t i = some b ∧
      b.c.hasTrip = true ∧ s.cur = some r ∧ s.thread? r = some t ∧ t.run = .ready ∧ t.trip = [p, q] ∧ agreed p q
      (copyOf t b) = some m ∧ jumpRow t i = some j ∧ m.1 = 0) ∧
    (∃ (i : Instr) (s : State) (r : TRef) (t : Thread) (b : Ballot) (p q m : Copy) (j : _), ballotOf t i = some b ∧
      b.c.hasTrip = true ∧ s.cur = some r ∧ s.thread? r = some t ∧ t.run = .ready ∧ t.trip = [p, q] ∧ agreed p q
      (copyOf t b) = some m ∧ jumpRow t i = some j ∧ m.1 ≠ 0 ∧ s.badTarget r.l j.target = true) ∧
    (∃ (i : Instr) (s : State) (r : TRef) (t : Thread) (b : Ballot) (p q m : Copy) (j : _), ballotOf t i = some b ∧
      b.c.hasTrip = true ∧ s.cur = some r ∧ s.thread? r = some t ∧ t.run = .ready ∧ t.trip = [p, q] ∧ agreed p q
      (copyOf t b) = some m ∧ jumpRow t i = some j ∧ m.1 ≠ 0 ∧ s.badTarget r.l j.target = false) ∧
    (∃ (i : Instr) (s : State) (r : TRef) (t : Thread) (b : Ballot) (p q m : Copy) (a : Access) (w off n : Nat),
      ballotOf t i = some b ∧ b.c.hasTrip = true ∧ s.cur = some r ∧ s.thread? r = some t ∧ t.run = .ready ∧ t.trip
      = [p, q] ∧ agreed p q (copyOf t b) = some m ∧ loadRow i = some a ∧ inFreeMode s r = true ∧ ownPlace r a.go
      m.1 = some (w, off) ∧ a.through ((tileOf s r).window w).fmt = some n ∧ goAllowed s r t a.go = true ∧ (a.go =
      true → r.v < s.gridSize r.l) ∧ m.1.toNat % n = 0 ∧ scopeAllowed s r (a.c.scope .tileS) = true ∧ (s.coreAfter
      r .load m.1 8 false).all s.closed = true ∧ sound s (tileOf s r) off n = true) ∧
    (∃ (i : Instr) (s : State) (r : TRef) (t : Thread) (b : Ballot) (p q m : Copy) (v : VTile) (a : Access) (rl :
      Bool) (w off n : Nat), ballotOf t i = some b ∧ b.c.hasTrip = true ∧ s.cur = some r ∧ s.thread? r = some t ∧
      t.run = .ready ∧ t.trip = [p, q] ∧ agreed p q (copyOf t b) = some m ∧ storeRow i = some (a, rl) ∧ inFreeMode
      s r = true ∧ ownPlace r a.go m.1 = some (w, off) ∧ s.tile? r.tile = some v ∧ v.spad.wf = true ∧ a.through
      (v.window w).fmt = some n ∧ goAllowed s r t a.go = true ∧ (a.go = true → r.v < s.gridSize r.l) ∧ m.1.toNat %
      n = 0 ∧ scopeAllowed s r (a.c.scope .tileS) = true ∧ (s.coreAfter r .store m.1 8 false).all s.closed = true
      ∧ s.staleFull v off 8 = false) :=
  ⟨⟨.add { pfx := [.trip] } 0 1 8, sys t0, r0, t0, _, rfl, by and_intros <;> decide +kernel⟩,
   ⟨.add { pfx := [.trip] } 0 1 8, sys { t0 with trip := [(0x8000003F, 0)] }, r0,
      { t0 with trip := [(0x8000003F, 0)] }, _, (0x8000003F, 0), rfl, by and_intros <;> decide +kernel⟩,
   ⟨.add { pfx := [.trip] } 0 1 8, sys { t0 with trip := [(1, 0), (2, 0)] }, r0, { t0 with trip := [(1, 0), (2, 0)] },
      _, (1, 0), (2, 0), rfl, by and_intros <;> decide +kernel⟩,
   ⟨.add { pfx := [.trip] } 0 1 8, sys { t0 with trip := [(0x8000003F, 0), (7, 0)] }, r0,
      { t0 with trip := [(0x8000003F, 0), (7, 0)] }, _, (0x8000003F, 0), (7, 0), (0x8000003F, 0), _, rfl,
      (by decide +kernel), (by decide +kernel), (by decide +kernel), (by decide +kernel), (by decide +kernel),
      (by decide +kernel), .inl rfl⟩,
   ⟨.fadd { pfx := [.trip] } 0 1 1, sys { t0 with trip := [(7, 1), (0x80000000, 0)] }, r0,
      { t0 with trip := [(7, 1), (0x80000000, 0)] }, _, (7, 1), (0x80000000, 0), (0x80000000, 0), _, rfl,
      (by decide +kernel), (by decide +kernel), (by decide +kernel), (by decide +kernel), (by decide +kernel),
      (by decide +kernel), rfl, by decide +kernel⟩,
   ⟨.fadd { pfx := [.trip] } 0 1 1, sys
      { t0 with trip := [(0x80000000, 0), (0x80000000, 0)], fpctl := 0x7C, upsets := [7] }, r0,
      { t0 with trip := [(0x80000000, 0), (0x80000000, 0)], fpctl := 0x7C, upsets := [7] }, _, (0x80000000, 0),
      (0x80000000, 0), (0x80000000, 0), _, rfl, (by decide +kernel), (by decide +kernel), (by decide +kernel),
      (by decide +kernel), (by decide +kernel), (by decide +kernel), rfl, by and_intros <;> decide +kernel⟩,
   ⟨.bz { pfx := [.trip] } false 8 0xFFFFFF, sys { t0 with trip := [(0, 0), (1, 0)] }, r0,
      { t0 with trip := [(0, 0), (1, 0)] }, _, (0, 0), (1, 0), (0, 0), _, rfl, (by decide +kernel),
      (by decide +kernel), (by decide +kernel), (by decide +kernel), (by decide +kernel), (by decide +kernel), rfl,
      by decide +kernel⟩,
   ⟨.bz { pfx := [.trip] } false 0 0, sys { t0 with trip := [(1, 0), (0, 0)] }, r0,
      { t0 with trip := [(1, 0), (0, 0)] }, _, (1, 0), (0, 0), (1, 0), _, rfl, (by decide +kernel),
      (by decide +kernel), (by decide +kernel), (by decide +kernel), (by decide +kernel), (by decide +kernel), rfl,
      by and_intros <;> decide +kernel⟩,
   ⟨.bnz { pfx := [.trip] } false 8 0xFFFFFE, sys { t0 with trip := [(1, 0), (1, 0)] }, r0,
      { t0 with trip := [(1, 0), (1, 0)] }, _, (1, 0), (1, 0), (1, 0), _, rfl, (by decide +kernel),
      (by decide +kernel), (by decide +kernel), (by decide +kernel), (by decide +kernel), (by decide +kernel), rfl,
      by and_intros <;> decide +kernel⟩,
   ⟨.ldp { pfx := [.trip] } false 10 2 0, sys { t0 with trip := [(0x80000000000FFFF8, 0), (0, 0)] }, r0,
      { t0 with trip := [(0x80000000000FFFF8, 0), (0, 0)] }, _, (0x80000000000FFFF8, 0), (0, 0),
      (0x80000000000FFFF8, 0), _, 0, 0xFFFF8, 8, rfl, (by decide +kernel), (by decide +kernel),
      (by decide +kernel), (by decide +kernel), (by decide +kernel), (by decide +kernel), rfl,
      by and_intros <;> decide +kernel⟩,
   ⟨.stp { pfx := [.trip] } false 8 2 0, sys { t0 with trip := [(8, 0), (0x80000000000FFFF8, 0)] }, r0,
      { t0 with trip := [(8, 0), (0x80000000000FFFF8, 0)] }, _, (8, 0), (0x80000000000FFFF8, 0),
      (0x80000000000FFFF8, 0), vt, _, _, 0, 0xFFFF8, 8, rfl, (by decide +kernel), (by decide +kernel),
      (by decide +kernel), (by decide +kernel), (by decide +kernel), (by decide +kernel), rfl,
      by and_intros <;> decide +kernel⟩⟩

theorem witness_ChecksBeforeIssue :
    (∃ (i : Instr) (s : State) (r : TRef) (t : Thread) (w : Row), (registerRow t i = some w ∨ immediateRow t i = some
      w) ∧ s.atTurn r t = true ∧ w.u.pairs.any Reg.odd) ∧
    (∃ (i : Instr) (s : State) (r : TRef) (t : Thread) (w : Row), (registerRow t i = some w ∨ immediateRow t i = some
      w) ∧ s.atTurn r t = true ∧ ¬ (w.u.pairs.any Reg.odd) ∧ w.c.thr ≠ 0 ∧ t.overAt w.c.tok (if w.c.wc then
      w.c.thr.toNat else 0) = true) ∧
    (∃ (i : Instr) (s : State) (r : TRef) (t : Thread) (w : Row), (registerRow t i = some w ∨ immediateRow t i = some
      w) ∧ s.atTurn r t = true ∧ ¬ (w.u.pairs.any Reg.odd) ∧ ¬ (w.c.thr ≠ 0 ∧ t.overAt w.c.tok (if w.c.wc then
      w.c.thr.toNat else 0) = true) ∧ (t.tokAt w.c.tok).value < w.c.thr.toNat ∧ s.isDet r.l = false) ∧
    (∃ (i : Instr) (s : State) (r : TRef) (t : Thread) (w : Row) (x : Reg), (registerRow t i = some w ∨ immediateRow t
      i = some w) ∧ s.atTurn r t = true ∧ ¬ (w.u.pairs.any Reg.odd) ∧ ¬ (w.c.thr ≠ 0 ∧ t.overAt w.c.tok (if w.c.wc
      then w.c.thr.toNat else 0) = true) ∧ ¬ ((t.tokAt w.c.tok).value < w.c.thr.toNat) ∧ t.uwchk = true ∧ x ∈
      w.u.reads ++ w.u.writes ∧ t.pend.getLsbD x.toNat = true ∧ (∀ y : Reg, y ∈ w.u.reads ++ w.u.writes →
      t.pend.getLsbD y.toNat = true → x.toNat ≤ y.toNat)) :=
  ⟨⟨.movp {} 0 3, sys t0, r0, t0, _, .inr rfl, by and_intros <;> decide +kernel⟩,
   ⟨.mov { tok := 15, thr := 1 } 0 1, sys { t0 with tovf := 0x8000 }, r0, { t0 with tovf := 0x8000 }, _, .inl rfl,
      by and_intros <;> decide +kernel⟩,
   ⟨.mov { tok := 15, thr := 63 } 0 1, sys t0, r0, t0, _, .inl rfl, by and_intros <;> decide +kernel⟩,
   ⟨.add {} 15 0 1, sys { t0 with uwchk := true, pend := 0x8002 }, r0, { t0 with uwchk := true, pend := 0x8002 }, _,
      1, .inl rfl, by and_intros <;> decide +kernel⟩⟩

theorem witness_EveryIssue :
    (∃ (t : Thread) (c : Ctl) (k : Tok), c.thr.toNat ≤ (t.tokAt c.tok).value ∧ k ≠ c.tok) ∧
    (∃ (t : Thread) (c : Ctl), c.thr.toNat ≤ (t.tokAt c.tok).value) :=
  ⟨⟨{ t0 with tok := Vector.replicate 16 { count := 63 } }, { tok := 15, thr := 63, wc := true }, 0,
      by and_intros <;> decide +kernel⟩,
   ⟨{ t0 with tok := Vector.replicate 16 { count := 63 } }, { tok := 15, thr := 63, wc := true }, by decide +kernel⟩⟩

theorem witness_PlainInstructions :
    (∃ (i : Instr) (s : State) (r : TRef) (t : Thread) (c : Ctl) (f : Thread → Thread), plainRow s r t i = some (c, f)
      ∧ s.clearToIssue r t c {} = true) ∧
    (∃ (s : State) (r q : TRef) (t : Thread) (c : Ctl), s.clearToIssue r t c {} = true ∧ s.isDet r.l = false ∧ t.slot
      ≠ none ∧ s.nextReady r.tile = some q ∧ (s.threads.map Prod.fst).Nodup) :=
  ⟨⟨.tadd {} 15 255, sys t0, r0, t0, _, _, rfl, by decide +kernel⟩,
   ⟨{ sys t0 with threads := [(r0, t0), (r1, { t0 with lead := false, slot := none })] }, r0, r1, t0, {},
      by and_intros <;> decide +kernel⟩⟩

theorem witness_TokenRead :
    (∃ (s : State) (r : TRef) (t : Thread) (c : Ctl) (rd : Reg), s.clearToIssue r t c { writes := [rd] } = true ∧
      s.isDet r.l = false) ∧
    (∃ (s : State) (r : TRef) (t : Thread) (c : Ctl) (rd : Reg), s.clearToIssue r t c { writes := [rd] } = true ∧
      s.isDet r.l = true) ∧
    (∃ (s : State) (r : TRef) (t : Thread) (f : Flight) (k : Tok) (rd : Reg), s.thread? r = some t ∧ f ∈ t.inflight ∧
      f.trd = some (k, rd) ∧ steady t = true) :=
  ⟨⟨sys t0, r0, t0, {}, 0, by and_intros <;> decide +kernel⟩,
   ⟨{ sys t0 with launches := [(0, { ln with blk := { bk with det := true } })] }, r0, t0, {}, 0,
      by and_intros <;> decide +kernel⟩,
   ⟨sys { t0 with inflight := [{ id := 3, due := 102, trd := some (15, 0) }] }, r0,
      { t0 with inflight := [{ id := 3, due := 102, trd := some (15, 0) }] },
      { id := 3, due := 102, trd := some (15, 0) }, 15, 0, by and_intros <;> decide +kernel⟩⟩

theorem witness_TrapEntry :
    (∃ (s : State) (r : TRef) (t : Thread) (i : TrapInfo), s.thread? r = some t ∧ t.tl < 2 ∧ s.awaitsCommit r = false
      ∧ t.inflight = [] ∧ t.pend = 0 ∧ i.cause < 256) :=
  ⟨sys { t0 with tl := 1 }, r0, { t0 with tl := 1 }, { cause := 255 }, by and_intros <;> decide +kernel⟩

theorem witness_TrapInstructions :
    (∃ (i : Instr) (s : State) (r : TRef) (t : Thread) (c : Ctl) (cause : Nat) (tval : DWord), trapRow s r t i = some
      (c, cause, tval) ∧ s.clearToIssue r t c {} = true ∧ t.tl < 2 ∧ s.awaitsCommit r = false ∧ t.inflight = [] ∧
      t.pend = 0) ∧
    (∃ (s : State) (r : TRef) (t : Thread) (w : DWord), s.atTurn r t = true ∧ s.iword = w ∧ t.tl < 2 ∧ s.awaitsCommit
      r = false ∧ t.inflight = [] ∧ t.pend = 0) ∧
    (∃ (s : State) (r : TRef) (t : Thread) (ln : Launch) (c : Ctl), s.clearToIssue r t c {} = true ∧ s.launch? r.l =
      some ln ∧ ln.armed = true ∧ t.bkptPass = false ∧ t.stopped = false) ∧
    (∃ (s : State) (r : TRef) (t : Thread) (ln : Launch) (c : Ctl), s.clearToIssue r t c {} = true ∧ s.launch? r.l =
      some ln ∧ ln.armed = true ∧ (t.bkptPass = true ∨ t.stopped = true)) :=
  ⟨⟨.trap {} 31, sys t0, r0, t0, _, _, _, rfl, by and_intros <;> decide +kernel⟩,
   ⟨{ sys t0 with iword := 0x35 }, r0, t0, 0x35, by and_intros <;> decide +kernel⟩,
   ⟨{ sys t0 with launches := [(0, { ln with armed := true })] }, r0, t0, { ln with armed := true }, {},
      by and_intros <;> decide +kernel⟩,
   ⟨{ sys ({ t0 with bkptPass := true }) with launches := [(0, { ln with armed := true })] }, r0,
      { t0 with bkptPass := true }, { ln with armed := true }, {}, by and_intros <;> decide +kernel⟩⟩

theorem witness_Escalation :
    (∃ (s : State) (r : TRef) (t : Thread) (ln : Launch), s.thread? r = some t ∧ t.tl = 2 ∧ s.launch? r.l = some ln ∧
      ln.phase = .placing ∧ ln.esc = none) :=
  ⟨sys { t0 with tl := 2 }, r0, { t0 with tl := 2 }, ln, by and_intros <;> decide +kernel⟩

theorem witness_Returns :
    (∃ (s : State) (r : TRef) (t : Thread) (c : Ctl) (nx : Bool), s.clearToIssue r t c {} = true ∧ t.tl ≠ 0 ∧ t.pend =
      0 ∧ t.held = [] ∧ (nx = true → s.prefixAway r.l (t.half t.tl).tpc = none)) ∧
    (∃ (s : State) (r : TRef) (t : Thread), s.atTurn r t = true ∧ t.tl = 0) :=
  ⟨⟨sys { t0 with tl := 2 }, r0, { t0 with tl := 2 }, {}, true, by and_intros <;> decide +kernel⟩,
   ⟨sys t0, r0, t0, by and_intros <;> decide +kernel⟩⟩

theorem witness_SpecialRegisters :
    (∃ (s : State) (r : TRef) (t : Thread) (c : Ctl) (rd : Reg) (imm : BitVec 24) (v : Word), imageValue r t
      (imm.toNat % 4096) = some v ∧ c.imm imm = (imm.toNat % 4096 : Nat) ∧ s.clearToIssue r t c { writes := [rd] }
      = true) ∧
    (∃ (s : State) (r : TRef) (t t' : Thread) (c : Ctl) (ra : Reg) (imm : BitVec 24), imageWrite ((t.consumeWait
      c).passAt c s.cycle s.nextId) (imm.toNat % 4096) (t.reg ra) = some t' ∧ c.imm imm = (imm.toNat % 4096 : Nat)
      ∧ (t.tl ≠ 0 ∨ imm.toNat % 4096 = 0x020 ∨ imm.toNat % 4096 = 0x021 ∨ (0x043 ≤ imm.toNat % 4096 ∧ imm.toNat %
      4096 ≤ 0x046)) ∧ s.clearToIssue r t c { reads := [ra] } = true ∧ s.isDet r.l = false) ∧
    (∃ (s : State) (r : TRef) (t : Thread) (imm : BitVec 24), s.atTurn r t = true ∧ 0x800 ≤ imm.toNat % 4096) ∧
    (∃ (s : State) (r : TRef) (t : Thread) (imm : BitVec 24), s.atTurn r t = true ∧ t.tl = 0 ∧ ((0x031 ≤ imm.toNat %
      4096 ∧ imm.toNat % 4096 ≤ 0x040) ∨ (0x047 ≤ imm.toNat % 4096 ∧ imm.toNat % 4096 ≤ 0x04A))) ∧
    (∃ (s : State) (r : TRef) (t : Thread) (imm : BitVec 24), s.atTurn r t = true ∧ (imm.toNat % 4096 ≤ 0x00C ∨
      imm.toNat % 4096 ∈ [0x010, 0x011, 0x012, 0x022, 0x030, 0x060, 0x061, 0x062, 0x0F0])) :=
  ⟨⟨sys t0, r0, t0, {}, 0, 0x0F0, _, rfl, by and_intros <;> decide +kernel⟩,
   ⟨sys t0, r0, t0, _, {}, 9, 0x046, rfl, by and_intros <;> decide +kernel⟩,
   ⟨sys t0, r0, t0, 0x800, by and_intros <;> decide +kernel⟩,
   ⟨sys t0, r0, t0, 0x04A, by and_intros <;> decide +kernel⟩,
   ⟨sys t0, r0, t0, 0x062, by and_intros <;> decide +kernel⟩⟩

theorem witness_RegionBegins :
    (∃ (s : State) (r : TRef) (t : Thread) (c : Ctl), s.clearToIssue r t c {} = true) :=
  ⟨sys t0, r0, t0, {}, by decide +kernel⟩

theorem witness_Exits :
    (∃ (s : State) (r : TRef) (t : Thread) (c : Ctl), s.clearToIssue r t c {} = true ∧ t.lead = false ∧ t.away = false
      ∧ inFreeMode s r = true ∧ t.held = []) ∧
    (∃ (s : State) (r : TRef) (t : Thread) (c : Ctl) (v : VTile), s.clearToIssue r t c {} = true ∧ t.lead = true ∧
      t.away = false ∧ s.isDet r.l = false ∧ s.tile? r.tile = some v ∧ t.held = [] ∧ s.exitClear r = false) ∧
    (∃ (s : State) (r : TRef) (t : Thread) (c : Ctl) (v : VTile), s.clearToIssue r t c {} = true ∧ t.lead = true ∧
      t.away = false ∧ s.isDet r.l = false ∧ s.tile? r.tile = some v ∧ t.held = [] ∧ s.exitClear r = true) :=
  ⟨⟨sys { t0 with lead := false }, r0, { t0 with lead := false }, {}, by and_intros <;> decide +kernel⟩,
   ⟨{ sys t0 with threads := [(r0, t0), (r1, { t0 with lead := false })] }, r0, t0, {}, vt,
      by and_intros <;> decide +kernel⟩,
   ⟨sys t0, r0, t0, {}, vt, by and_intros <;> decide +kernel⟩⟩

theorem witness_LocalLoads :
    (∃ (i : Instr) (s : State) (r : TRef) (t : Thread) (a : Access) (w off n : Nat), loadRow i = some a ∧ a.c.hasTrip
      = false ∧ ownPlace r a.go (eaOf t a.c a.pb a.off) = some (w, off) ∧ a.through ((tileOf s r).window w).fmt =
      some n ∧ inFreeMode s r = true ∧ s.clearToIssue r t a.c a.loadUses = true ∧ goAllowed s r t a.go = true ∧
      (a.go = true → r.v < s.gridSize r.l) ∧ (eaOf t a.c a.pb a.off).toNat % n = 0 ∧ scopeAllowed s r (a.c.scope
      .tileS) = true ∧ (s.coreAfter r .load (eaOf t a.c a.pb a.off) 8 false).all s.closed = true ∧ sound s (tileOf
      s r) off n = true) ∧
    (∃ (s : State) (r : TRef) (t : Thread) (c : Ctl) (sz : AqSz) (rt pb : Reg) (o : BitVec 24) (w off n : Nat),
      c.hasTrip = false ∧ ownPlace r false (eaOf t c pb o) = some (w, off) ∧ (⟨c, false, rt, pb, o, aqBytes sz,
      false⟩ : Access).through ((tileOf s r).window w).fmt = some n ∧ inFreeMode s r = true ∧ s.clearToIssue r t c
      (⟨c, false, rt, pb, o, aqBytes sz, false⟩ : Access).loadUses = true ∧ (eaOf t c pb o).toNat % n = 0 ∧
      scopeAllowed s r (c.scope .vdS) = true ∧ (s.coreAfter r .load (eaOf t c pb o) 8 false).all s.closed = true ∧
      sound s (tileOf s r) off n = true ∧ s.ops.all (fun e => decide (e.1 < s.nextId)) = true) :=
  ⟨⟨.ldp {} false 10 2 0, sys t0, r0, t0, _, 0, 0xFFFF8, 8, rfl, by and_intros <;> decide +kernel⟩,
   ⟨sys t0, r0, t0, {}, .d, 10, 2, 0, 0, 0xFFFF8, 8, by and_intros <;> decide +kernel⟩⟩

theorem witness_LocalStores :
    (∃ (i : Instr) (s : State) (r : TRef) (t : Thread) (v : VTile) (a : Access) (rl : Bool) (w off n : Nat), storeRow
      i = some (a, rl) ∧ a.c.hasTrip = false ∧ ownPlace r a.go (eaOf t a.c a.pb a.off) = some (w, off) ∧ s.tile?
      r.tile = some v ∧ v.spad.wf = true ∧ a.through (v.window w).fmt = some n ∧ s.clearToIssue r t a.c
      a.storeUses = true ∧ goAllowed s r t a.go = true ∧ (a.go = true → r.v < s.gridSize r.l) ∧ (eaOf t a.c a.pb
      a.off).toNat % n = 0 ∧ scopeAllowed s r (a.c.scope (if rl then .vdS else .tileS)) = true ∧ (s.coreAfter r
      .store (eaOf t a.c a.pb a.off) 8 false ++ (if rl then s.releaseAfter r (a.c.scope .vdS) else [])).all
      s.closed = true ∧ s.staleFull v off 8 = false ∧ s.logFits r 1 0 = true) :=
  ⟨.strl {} .w 10 2 4, sys t0, r0, t0, vt, _, _, 0, 0xFFFFC, 4, rfl, by and_intros <;> decide +kernel⟩

theorem witness_LocalAtomics :
    (∃ (i : Instr) (s : State) (r : TRef) (t : Thread) (v : VTile) (a : AtomicRow) (w off : Nat), atomicRow i = some a
      ∧ a.c.hasTrip = false ∧ ownPlace r a.go (eaOf t a.c a.pb a.off) = some (w, off) ∧ s.tile? r.tile = some v ∧
      v.spad.wf = true ∧ inFreeMode s r = true ∧ s.clearToIssue r t a.c (a.uses (isAcas i)) = true ∧ goAllowed s r
      t a.go = true ∧ (a.go = true → r.v < s.gridSize r.l) ∧ (eaOf t a.c a.pb a.off).toNat % a.n = 0 ∧
      scopeAllowed s r (a.c.scope .vdS) = true ∧ (s.coreAfter r .atomic (eaOf t a.c a.pb a.off) 8 false).all
      s.closed = true ∧ s.staleFull v off 8 = false ∧ sound s v off a.n = true ∧ s.ops.all (fun e => decide (e.1 <
      s.nextId)) = true) :=
  ⟨.acas {} .d false 12 2 0, sys t0, r0, t0, vt, _, 0, 0xFFFF8, rfl, by and_intros <;> decide +kernel⟩

theorem witness_AccessRequests :
    (∃ (i : Instr) (s : State) (r : TRef) (t : Thread) (q : Request), accessRequest s r t i = some q ∧ q.c.hasTrip =
      false ∧ inFreeMode s r = true ∧ requestReady s r t q = true) :=
  ⟨.stp {} false 10 6 0, sys t0, r0, t0, _, rfl, by and_intros <;> decide +kernel⟩

theorem witness_CachedLoads :
    (∃ (i : Instr) (s : State) (r : TRef) (t : Thread) (a : Leaving) (l : Line) (home off : Nat), leavingRow t i =
      some a ∧ a.c.hasTrip = false ∧ inFreeMode s r = true ∧ a.cacheable s r = true ∧ a.go = false ∧ a.n ≤ 64 ∧
      Addr.of (eaOf t a.c a.pb a.off) = .glob home off ∧ s.cached r (eaOf t a.c a.pb a.off).toNat = some l ∧ (eaOf
      t a.c a.pb a.off).toNat % a.n = 0 ∧ s.clearToIssue r t a.c a.u = true ∧ s.coreAfter r .load (eaOf t a.c a.pb
      a.off) a.n true = [] ∧ [Hold.refills, .homes].all (s.holdFree r.tile) = true ∧ s.ops.all (fun e => decide
      (e.1 < s.nextId)) = true) :=
  ⟨.ldp {} false 10 6 0, sys t0
    { vt with rcache := [{ vdAddr := 0xFFC0, bytes := List.replicate 64 0x5A, stamp := 0 }] }, r0, t0, _,
    { vdAddr := 0xFFC0, bytes := List.replicate 64 0x5A, stamp := 0 }, 0, 0xFFF8, rfl,
    by and_intros <;> decide +kernel⟩

theorem witness_AccessChecks :
    (∃ (i : Instr) (s : State) (r : TRef) (t : Thread) (a : Leaving) (cause : Nat), leavingRow t i = some a ∧
      a.c.hasTrip = false ∧ s.clearToIssue r t a.c a.u = true ∧ goAllowed s r t a.go = true ∧ accessTrap s r a
      (eaOf t a.c a.pb a.off) = some cause) :=
  ⟨.ldp {} false 10 2 7, sys t0, r0, t0, _, 0x40, rfl, by and_intros <;> decide +kernel⟩

theorem witness_VectorRequests :
    (∃ (i : Instr) (s : State) (r : TRef) (t : Thread) (q : Request), vectorRequest s r t i = some q ∧ inFreeMode s r
      = true ∧ requestReady s r t q = true) :=
  ⟨.vadd {} .i 10 11 12 8, sys t0, r0, t0, _, rfl, by and_intros <;> decide +kernel⟩

theorem witness_MessageRequests :
    (∃ (i : Instr) (s : State) (r : TRef) (t : Thread) (q : Request), messageRequest s r t i = some q ∧ inFreeMode s r
      = true ∧ requestReady s r t q = true) :=
  ⟨.send {} 11 2 0xFF 3, sys t0, r0, t0, _, rfl, by and_intros <;> decide +kernel⟩

theorem witness_EngineRequests :
    (∃ (i : Instr) (s : State) (r : TRef) (t : Thread) (q : Request), engineRequest s r t i = some q ∧ inFreeMode s r
      = true ∧ requestReady s r t q = true) :=
  ⟨.qseed {} false 8 9, sys t0, r0, t0, _, rfl, by and_intros <;> decide +kernel⟩

theorem witness_GroupRequests :
    (∃ (i : Instr) (s : State) (r : TRef) (t : Thread) (q : Request), groupRequest s r t i = some q ∧ inFreeMode s r =
      true ∧ requestReady s r t q = true) :=
  ⟨.gnew {} 15 11, sys t0, r0, t0, _, rfl, by and_intros <;> decide +kernel⟩

theorem witness_MailboxReads :
    (∃ (s : State) (r : TRef) (t : Thread) (c : Ctl) (pd gi : Reg) (mb : BitVec 2) (m : Msg) (rest : List Msg),
      s.clearToIssue r t c { writes := [pd, Reg.hi pd, gi], pairs := [pd] } = true ∧ inFreeMode s r = true ∧
      s.firstRecv r.tile mb.toNat = none ∧ (tileOf s r).box mb.toNat = m :: rest ∧ m.poison = false ∧
      (List.finRange 16).all (fun x => decide (t.landed[x] ≤ s.nextId)) = true) ∧
    (∃ (s : State) (r : TRef) (t : Thread) (c : Ctl) (pd gi : Reg) (mb : BitVec 2), s.clearToIssue r t c
      { writes := [pd, Reg.hi pd, gi], pairs := [pd] } = true ∧ inFreeMode s r = true ∧ ((tileOf s r).box mb.toNat
      = [] ∨ s.firstRecv r.tile mb.toNat ≠ none)) ∧
    (∃ (s : State) (r : TRef) (t : Thread) (c : Ctl) (rd : Reg), s.clearToIssue r t c { writes := [rd] } = true ∧
      s.isDet r.l = false ∧ s.ops.all (fun e => decide (e.1 < s.nextId)) = true) :=
  ⟨⟨sys t0 { vt with mbox := Vector.replicate 4 [{ payload := 0x123456789ABCDEF0, tag := 7, source := 1 }] }, r0, t0,
      {}, 2, 4, 3, { payload := 0x123456789ABCDEF0, tag := 7, source := 1 }, [], by and_intros <;> decide +kernel⟩,
   ⟨sys t0, r0, t0, {}, 2, 4, 3, by and_intros <;> decide +kernel⟩,
   ⟨sys t0, r0, t0, {}, 2, by and_intros <;> decide +kernel⟩⟩

theorem witness_WindowsAndPoints :
    (∃ (s : State) (r : TRef) (t : Thread) (c : Ctl) (ra : Reg) (k off : Nat), s.clearToIssue r t c { reads := [ra] }
      = true ∧ inFreeMode s r = true ∧ shortAddr (t.reg ra) = some (k, off) ∧ off % 32 = 0 ∧ (s.coreAfter r .load
      (localAddr 0 off) 32 false).all s.closed = true ∧ (s.tile? r.tile).isSome = true ∧ sound s (tileOf s r) off
      32 = true) ∧
    (∃ (s : State) (r : TRef) (t : Thread) (c : Ctl) (ra : Reg) (k off : Nat), s.clearToIssue r t c { reads := [ra] }
      = true ∧ inFreeMode s r = true ∧ shortAddr (t.reg ra) = some (k, off) ∧ off % 32 = 0 ∧ (s.coreAfter r .store
      (localAddr 0 off) 32 false).all s.closed = true ∧ s.staleFull (tileOf s r) off 32 = false) ∧
    (∃ (s : State) (r : TRef) (t : Thread) (c : Ctl) (rd ra rb : Reg), s.clearToIssue r t c
      { reads := [ra, rb], writes := [rd] } = true ∧ s.isDet r.l = false ∧ (t.reg ra).toNat < 64 ∧ qruIdle s r =
      true) :=
  ⟨⟨sys (th [(1, 0xFFFE0)]), r0, th [(1, 0xFFFE0)], {}, 1, 0, 0xFFFE0, by and_intros <;> decide +kernel⟩,
   ⟨sys (th [(1, 0xFFFE0)]), r0, th [(1, 0xFFFE0)], {}, 1, 0, 0xFFFE0, by and_intros <;> decide +kernel⟩,
   ⟨sys t0, r0, t0, {}, 1, 8, 9, by and_intros <;> decide +kernel⟩⟩

theorem witness_SlotsAndLine :
    (∃ (s : State) (r : TRef) (t : Thread) (c : Ctl), s.clearToIssue r t c {} = true ∧ s.isDet r.l = false) ∧
    (∃ (s : State) (r : TRef) (t : Thread) (c : Ctl), s.clearToIssue r t c {} = true ∧ s.isDet r.l = false) ∧
    (∃ (s : State) (r : TRef) (t : Thread) (v : VTile) (c : Ctl) (k : OFmt) (acc : BitVec 1) (sa fd : Reg),
      s.clearToIssue r t c {} = true ∧ inFreeMode s r = true ∧ s.tile? r.tile = some v ∧ (s.blk r.l).heavy ≠ 0 ∧
      fd.toNat < (s.gangOfTile r.tile).length ∧ (s.gangOfTile r.tile).any s.finishedAt = false ∧ (v.slot
      sa.toNat).st = .filled ∧ (v.slot sa.toNat).role = .a ∧ (v.slot sa.toNat).fmt = k ∧ (v.accu acc.toNat).tag.ok
      k = true ∧ s.ops.all (fun e => decide (e.1 < s.nextId)) = true) :=
  ⟨⟨sys t0, r0, t0, {}, by and_intros <;> decide +kernel⟩,
   ⟨sys t0, r0, t0, {}, by and_intros <;> decide +kernel⟩,
   ⟨sys t0
      ({ vt with slots := (vt.slots.set 15 { st := .filled, fmt := .bf, k := 1 }).set 14 { st := .filled, fmt := .bf, role := .b } }),
      r0, t0,
      { vt with slots := (vt.slots.set 15 { st := .filled, fmt := .bf, k := 1 }).set 14 { st := .filled, fmt := .bf, role := .b } },
      {}, .bf, 1, 15, 0, by and_intros <;> decide +kernel⟩⟩

theorem witness_CopyInstructions :
    (∃ (s : State) (r : TRef) (t : Thread) (v : VTile) (c : Ctl) (res : Bool) (ra : Reg) (off : Nat), s.clearToIssue r
      t c { reads := [ra] } = true ∧ inFreeMode s r = true ∧ s.tile? r.tile = some v ∧ handleOf (t.reg ra) = some
      off ∧ v.spad.wf = true ∧ s.copyBuffered r off = false ∧ s.ops.all (fun e => decide (e.1 < s.nextId)) = true
      ∧ (if res then (v.copies.get? off).map CopyTr.state = some 3 else (v.copies.get? off).all (fun x => decide
      (x.state ≠ 1 ∧ x.state ≠ 3)) = true ∧ s.copiesTracked r.tile < 16)) ∧
    (∃ (s : State) (r : TRef) (t : Thread) (v : VTile) (c : Ctl) (ra : Reg) (off : Nat), s.clearToIssue r t c
      { reads := [ra] } = true ∧ inFreeMode s r = true ∧ s.tile? r.tile = some v ∧ handleOf (t.reg ra) = some off
      ∧ v.copies.get? off = none) ∧
    (∃ (s : State) (r : TRef) (t : Thread) (v : VTile) (c : Ctl) (ra : Reg) (off : Nat) (x : _), s.clearToIssue r t c
      { reads := [ra] } = true ∧ inFreeMode s r = true ∧ s.tile? r.tile = some v ∧ handleOf (t.reg ra) = some off
      ∧ v.copies.get? off = some x ∧ x.state = 3) ∧
    (∃ (s : State) (r : TRef) (t : Thread) (v : VTile) (c : Ctl) (rd ra : Reg) (off : Nat), s.clearToIssue r t c
      { reads := [ra], writes := [rd] } = true ∧ s.isDet r.l = false ∧ s.tile? r.tile = some v ∧ handleOf (t.reg
      ra) = some off ∧ sound s v (off + 0x20) 4 = true) :=
  ⟨⟨sys (th [(1, 0xFFFC0)]), r0, th [(1, 0xFFFC0)], vt, {}, false, 1, 0xFFFC0, by and_intros <;> decide +kernel⟩,
   ⟨sys (th [(1, 0xFFFC0)]), r0, th [(1, 0xFFFC0)], vt, {}, 1, 0xFFFC0, by and_intros <;> decide +kernel⟩,
   ⟨sys (th [(1, 0xFFFC0)]) { vt with copies := [(0xFFFC0, { state := 3, op := 2 })] }, r0, th [(1, 0xFFFC0)],
      { vt with copies := [(0xFFFC0, { state := 3, op := 2 })] }, {}, 1, 0xFFFC0, { state := 3, op := 2 },
      by and_intros <;> decide +kernel⟩,
   ⟨sys (th [(1, 0xFFFC0)]), r0, th [(1, 0xFFFC0)], vt, {}, 15, 1, 0xFFFC0, by and_intros <;> decide +kernel⟩⟩

theorem witness_ThreadInstructions :
    (∃ (s : State) (r : TRef) (t : Thread) (c : Ctl) (ti ent arg : Reg) (n : Nat), s.clearToIssue r t c
      { reads := [ent, Reg.hi ent, arg], writes := [ti], pairs := [ent] } = true ∧ inFreeMode s r = true ∧ t.lead
      = true ∧ s.badTarget r.l (t.pair ent) = false ∧ s.targetAway r.l (t.pair ent) = false ∧ (s.tileThreads
      r.tile).length < 64 ∧ s.freeIndex r.tile = some n ∧ s.ops.all (fun e => decide (e.1 < s.nextId)) = true) ∧
    (∃ (s : State) (r : TRef) (t u : Thread) (c : Ctl) (rd ra : Reg), s.clearToIssue r t c
      { reads := [ra], writes := [rd] } = true ∧ inFreeMode s r = true ∧ t.lead = true ∧ (t.reg ra).toNat ≠ 0 ∧
      (t.reg ra).toNat < 64 ∧ s.thread? ⟨r.l, r.v, (t.reg ra).toNat⟩ = some u ∧ u.run = .exited ∧ s.ops.all (fun e
      => decide (e.1 < s.nextId)) = true ∧ t.run = .ready) ∧
    (∃ (s : State) (r : TRef) (t : Thread) (c : Ctl), s.clearToIssue r t c {} = true ∧ inFreeMode s r = true ∧
      t.inflight = [] ∧ s.pendClear r = true ∧ s.serviceSent r = true ∧ s.ops.all (fun e => decide (e.1 <
      s.nextId)) = true) ∧
    (∃ (s : State) (r : TRef) (t : Thread) (c : Ctl) (vt : Reg), s.clearToIssue r t c { reads := [vt] } = true ∧
      s.isDet r.l = false ∧ t.tl = 0 ∧ (t.reg vt).toNat < s.gridSize r.l ∧ s.holdFree r.tile (.vtt (t.reg
      vt).toNat) = true) ∧
    (∃ (i : Instr) (s : State) (r : TRef) (t : Thread) (a : Leaving) (v w off : Nat), leavingRow t i = some a ∧ a.go =
      true ∧ a.c.hasTrip = false ∧ s.clearToIssue r t a.c a.u = true ∧ s.isDet r.l = false ∧ t.tl = 0 ∧ Addr.of
      (eaOf t a.c a.pb a.off) = .remote v w off ∧ v ≠ r.v ∧ v < s.gridSize r.l ∧ s.holdFree r.tile (.vtt v) =
      true) :=
  ⟨⟨sys t0, r0, t0, {}, 10, 12, 1, 1, by and_intros <;> decide +kernel⟩,
   ⟨{ sys (th [(1, 63)]) with threads := [(r0, th [(1, 63)]), (⟨0, 0, 63⟩, { t0 with lead := false, run := .exited })] },
      r0, th [(1, 63)], { t0 with lead := false, run := .exited }, {}, 2, 1, by and_intros <;> decide +kernel⟩,
   ⟨sys t0, r0, t0, {}, by and_intros <;> decide +kernel⟩,
   ⟨sys (th [(1, 1)]), r0, th [(1, 1)], {}, 1, by and_intros <;> decide +kernel⟩,
   ⟨.ldp {} true 10 4 0, sys t0, r0, t0, _, 1, 0, 0xFFFF8, rfl, by and_intros <;> decide +kernel⟩⟩

theorem witness_OrderingInstructions :
    (∃ (s : State) (r : TRef) (t : Thread) (c : Ctl) (sc : Scope), s.clearToIssue r t c {} = true ∧ scopeAllowed s r
      sc = true) ∧
    (∃ (s : State) (r : TRef) (t : Thread) (c : Ctl), s.clearToIssue r t c {} = true ∧ s.isDet r.l = false) ∧
    (∃ (s : State) (r : TRef) (t : Thread) (c : Ctl) (k : LineKind) (pb : Reg), s.clearToIssue r t c (lineUses k pb) =
      true ∧ (s.pathAfter r .core true false).all s.closed = true) ∧
    (∃ (s : State) (r : TRef) (t : Thread) (c : Ctl) (k : LineKind) (pb : Reg), s.clearToIssue r t c (lineUses k pb) =
      true ∧ (s.pathAfter r .core false true).all s.closed = true) ∧
    (∃ (s : State) (r : TRef) (t : Thread) (c : Ctl), s.clearToIssue r t c {} = true ∧ s.isDet r.l = false ∧ s.allOpen
      r = []) ∧
    (∃ (s : State) (r : TRef) (t : Thread) (c : Ctl), s.clearToIssue r t c {} = true ∧ s.isDet r.l = false) :=
  ⟨⟨sys t0, r0, t0, {}, .vdS, by and_intros <;> decide +kernel⟩,
   ⟨sys t0, r0, t0, {}, by and_intros <;> decide +kernel⟩,
   ⟨sys t0, r0, t0, {}, .line, 6, by and_intros <;> decide +kernel⟩,
   ⟨sys t0, r0, t0, {}, .line, 6, by and_intros <;> decide +kernel⟩,
   ⟨sys t0, r0, t0, {}, by and_intros <;> decide +kernel⟩,
   ⟨sys t0, r0, t0, {}, by and_intros <;> decide +kernel⟩⟩

theorem witness_ErrorInjection :
    (∃ (s : State) (r : TRef) (t : Thread), s.atTurn r t = true ∧ ((s.blk r.l).test && s.injallow.getLsbD (s.vdOf
      r.l)) = false) ∧
    (∃ (s : State) (r : TRef) (t : Thread) (c : Ctl) (gx gm tgt : Reg), s.clearToIssue r t c { reads := [gx, gm] } =
      true ∧ (s.blk r.l).test = true ∧ s.injallow.getLsbD (s.vdOf r.l) = true ∧ (4 < tgt.toNat ∨ einjBad tgt
      (t.reg gx) = true)) ∧
    (∃ (s : State) (r : TRef) (t : Thread) (c : Ctl) (gx gm tgt : Reg), s.clearToIssue r t c { reads := [gx, gm] } =
      true ∧ inFreeMode s r = true ∧ (s.blk r.l).test = true ∧ s.injallow.getLsbD (s.vdOf r.l) = true ∧ tgt.toNat
      ≤ 4 ∧ einjBad tgt (t.reg gx) = false ∧ s.ops.all (fun e => decide (e.1 < s.nextId)) = true) ∧
    (∃ (s : State) (r : TRef) (t : Thread) (v : VTile) (c : Ctl) (gx gm tgt : Reg), s.clearToIssue r t c
      { reads := [gx, gm] } = true ∧ inFreeMode s r = true ∧ s.tile? r.tile = some v ∧ (s.blk r.l).test = true ∧
      s.injallow.getLsbD (s.vdOf r.l) = true ∧ tgt.toNat ≤ 4 ∧ einjBad tgt (t.reg gx) = false ∧ s.ops.all (fun e
      => decide (e.1 < s.nextId) && !(decide (e.2.tile = r.tile) && (decide (e.2.cls = .array) || decide (e.2.cls
      = .oload)))) = true ∧ noInjection s = true) :=
  ⟨⟨sys t0, r0, t0, by and_intros <;> decide +kernel⟩,
   ⟨{ sys (th [(2, 1)]) with launches := [(0, { ln with blk := { bk with test := true } })], injallow := 2 }, r0, th
      [(2, 1)], {}, 1, 2, 5, by and_intros <;> decide +kernel⟩,
   ⟨{ sys (th [(2, 1)]) with launches := [(0, { ln with blk := { bk with test := true } })], injallow := 2 }, r0, th
      [(2, 1)], {}, 1, 2, 4, by and_intros <;> decide +kernel⟩,
   ⟨{ sys (th [(2, 1)]) with launches := [(0, { ln with blk := { bk with test := true } })], injallow := 2 }, r0, th
      [(2, 1)], vt, {}, 1, 2, 4, by and_intros <;> decide +kernel⟩⟩

theorem witness_ResultsAndPosts :
    (∃ (s : State) (r : TRef) (t : Thread) (f : Flight) (x : Reg) (w : Word), s.thread? r = some t ∧ t.inflight.find?
      (fun g => decide (g.id = f.id)) = some f ∧ f.due ≤ s.cycle ∧ f.fpTrap = none ∧ f.writes = [(x, w)] ∧ steady
      t = true ∧ marksStand s r = true) ∧
    (∃ (s : State) (r : TRef) (t : Thread), s.thread? r = some t) ∧
    (∃ (s : State) (r : TRef) (t : Thread), s.thread? r = some t ∧ t.gapUntil ≤ s.cycle) ∧
    (∃ (s : State) (r : TRef) (t : Thread), s.thread? r = some t ∧ t.dlyUntil ≤ s.cycle) ∧
    (∃ (s : State) (r : TRef) (t : Thread), s.thread? r = some t ∧ t.refetchUntil ≤ s.cycle) ∧
    (∃ (s : State) (r : TRef) (t : Thread) (h : Hold), s.thread? r = some t ∧ t.run = .latch h ∧ s.holdFree r.tile h =
      true) ∧
    (∃ (s : State) (r : TRef), s.atCount r = true) :=
  ⟨⟨sys { t0 with inflight := [{ id := 3, due := 100, writes := [(15, 7)] }] }, r0,
      { t0 with inflight := [{ id := 3, due := 100, writes := [(15, 7)] }] },
      { id := 3, due := 100, writes := [(15, 7)] }, 15, 7, by and_intros <;> decide +kernel⟩,
   ⟨sys t0, r0, t0, by decide +kernel⟩,
   ⟨sys { t0 with gapUntil := 100 }, r0, { t0 with gapUntil := 100 }, by and_intros <;> decide +kernel⟩,
   ⟨sys { t0 with dlyUntil := 100 }, r0, { t0 with dlyUntil := 100 }, by and_intros <;> decide +kernel⟩,
   ⟨sys { t0 with refetchUntil := 100 }, r0, { t0 with refetchUntil := 100 }, by and_intros <;> decide +kernel⟩,
   ⟨sys { t0 with run := .latch .vecQueue }, r0, { t0 with run := .latch .vecQueue }, .vecQueue,
      by and_intros <;> decide +kernel⟩,
   ⟨{ sys t0 with launches := [(0, { ln with blk := { bk with det := true, chunk := 16 } })], lanes := [(r0, { chunks := [{ snap := t0, retired := 16 }] })] },
      r0, by decide +kernel⟩⟩

theorem witness_Upkeep :
    (∃ (s : State) (v : TileRef) (x : VTile) (i : Nat) (e : Stale), s.tile? v = some x ∧ x.stale.find? (fun y =>
      decide (y.row * 4 + y.grp = i)) = some e ∧ e.due ≠ 0 ∧ e.due ≤ s.cycle) ∧
    (∃ (s : State) (v : TileRef) (x : VTile) (i : Nat) (e : Stale), s.tile? v = some x ∧ x.stale.find? (fun y =>
      decide (y.row * 4 + y.grp = i)) = some e ∧ e.due = 0) ∧
    (∃ (s : State) (f sl : Nat), f < 64 ∧ (s.field f).inWindow.contains sl = false) ∧
    (∃ (f : Nat), f < 64) ∧
    (∃ (s : State) (p n at_ : Nat), s.votes.get? p = some (n, at_) ∧ n ≠ 0 ∧ at_ ≤ s.cycle) :=
  ⟨⟨sys t0 { vt with stale := [{ grp := 3, row := 8191, due := 100 }] }, m0,
      { vt with stale := [{ grp := 3, row := 8191, due := 100 }] }, 32767, { grp := 3, row := 8191, due := 100 },
      by and_intros <;> decide +kernel⟩,
   ⟨sys t0 { vt with stale := [{ grp := 3, row := 8191, due := 0 }] }, m0,
      { vt with stale := [{ grp := 3, row := 8191, due := 0 }] }, 32767, { grp := 3, row := 8191, due := 0 },
      by and_intros <;> decide +kernel⟩,
   ⟨sys t0, 63, 15, by and_intros <;> decide +kernel⟩,
   ⟨63, by decide +kernel⟩,
   ⟨{ sys t0 with votes := [(5, (3, 100))] }, 5, 3, 100, by and_intros <;> decide +kernel⟩⟩

theorem witness_LateResults :
    (∃ (s : State) (id : Nat) (o : Op) (t : Thread), s.op? id = some o ∧ o.phase = .reply ∧ o.atStart = false ∧
      s.thread? o.t = some t ∧ t.run = .ready ∧ steady t = true ∧ o.regs = o.res.map Prod.fst ∧ o.regs.Nodup) ∧
    (∃ (s : State) (id : Nat) (o : Op) (i : TrapInfo) (t : Thread), s.op? id = some o ∧ o.phase = .faulted ∧ o.fault =
      some i ∧ o.consumedF = false ∧ heldForRett o.cls = true ∧ s.thread? o.t = some t ∧ t.run = .ready ∧ steady t
      = true ∧ t.reports.length < 8 ∧ s.isDet o.t.l = false) ∧
    (∃ (s : State) (r : TRef) (t : Thread) (p : Report) (rest : List Report), s.thread? r = some t ∧ standing t.run =
      true ∧ t.reports = p :: rest ∧ p.consumed = false ∧ s.isDet r.l = false ∧ t.stopped = false ∧ t.slot ≠ none
      ∧ t.tl < 2 ∧ t.inflight = [] ∧ t.pend = 0 ∧ s.awaitsCommit r = false ∧ p.cause < 256) ∧
    (∃ (s : State) (r : TRef) (t : Thread) (p : Report) (rest : List Report), s.thread? r = some t ∧ standing t.run =
      true ∧ t.reports = p :: rest ∧ p.consumed = true ∧ s.isDet r.l = false ∧ t.stopped = false ∧ t.slot ≠ none ∧
      t.inflight = [] ∧ t.held = []) ∧
    (∃ (i : Instr) (s : State) (r : TRef) (t : Thread) (w : Row) (p : Report) (rest : List Report), (registerRow t i =
      some w ∨ immediateRow t i = some w) ∧ s.cur = some r ∧ s.thread? r = some t ∧ t.run = .ready ∧ t.trip = [] ∧
      t.reports = p :: rest ∧ s.isDet r.l = false ∧ (w.u.pairs.any Reg.odd || decide (w.c.thr ≠ 0) && t.overAt
      w.c.tok (if w.c.wc then w.c.thr.toNat else 0) || decide (w.c.thr.toNat ≤ (t.tokAt w.c.tok).value)) = false ∧
      t.reports.length < 8 ∧ t.reports.any Report.now = false) ∧
    (∃ (i : Instr) (s : State) (r : TRef) (t : Thread) (w : Row) (p : Report) (rest : List Report), (registerRow t i =
      some w ∨ immediateRow t i = some w) ∧ s.cur = some r ∧ s.thread? r = some t ∧ t.run = .ready ∧ t.trip = [] ∧
      t.reports = p :: rest ∧ s.isDet r.l = false ∧ ((w.u.pairs.any Reg.odd || decide (w.c.thr ≠ 0) && t.overAt
      w.c.tok (if w.c.wc then w.c.thr.toNat else 0) || decide (w.c.thr.toNat ≤ (t.tokAt w.c.tok).value)) = true ∨
      8 ≤ t.reports.length) ∧ p.consumed = false ∧ t.tl < 2 ∧ t.inflight = [] ∧ t.pend = 0 ∧ s.awaitsCommit r =
      false ∧ p.cause < 256) ∧
    (∃ (i : Instr) (s : State) (r : TRef) (t : Thread) (w : Row) (p : Report) (rest : List Report), (registerRow t i =
      some w ∨ immediateRow t i = some w) ∧ s.cur = some r ∧ s.thread? r = some t ∧ t.run = .ready ∧ t.trip = [] ∧
      t.reports = p :: rest ∧ s.isDet r.l = false ∧ ((w.u.pairs.any Reg.odd || decide (w.c.thr ≠ 0) && t.overAt
      w.c.tok (if w.c.wc then w.c.thr.toNat else 0) || decide (w.c.thr.toNat ≤ (t.tokAt w.c.tok).value)) = true ∨
      8 ≤ t.reports.length) ∧ p.consumed = true ∧ t.inflight = [] ∧ t.held = []) ∧
    (∃ (s : State) (r : TRef) (t : Thread) (p : Report) (rest : List Report), s.thread? r = some t ∧ t.reports = p ::
      rest ∧ s.isDet r.l = false ∧ t.stopped = false ∧ t.run = .ready ∧ (t.gapUntil ≠ 0 ∨ t.dlyUntil ≠ 0) ∧ t.trip
      = [] ∧ t.slot ≠ none) ∧
    (∃ (s : State) (r : TRef) (t : Thread) (p : Report) (rest : List Report) (mb : _) (n : _) (c : _) (pd : _) (gi :
      _), s.thread? r = some t ∧ t.reports = p :: rest ∧ s.isDet r.l = false ∧ t.stopped = false ∧ t.run = .recv
      mb n c pd gi ∧ t.slot = none) :=
  ⟨⟨at5 ({ op .globalLoad (.ldp {} false 10 6 0) with phase := .reply, regs := [10, 11], res := [(10, 1), (11, 2)] }),
      5,
      { op .globalLoad (.ldp {} false 10 6 0) with phase := .reply, regs := [10, 11], res := [(10, 1), (11, 2)] },
      t0, by and_intros <;> decide +kernel⟩,
   ⟨at5 ({ op .globalLoad (.ldp {} false 10 6 0) with phase := .faulted, fault := some { cause := 0x4C } }) (vt)
      ({ t0 with reports := List.replicate 7 { cause := 0x4C } }), 5,
      { op .globalLoad (.ldp {} false 10 6 0) with phase := .faulted, fault := some { cause := 0x4C } },
      { cause := 0x4C }, { t0 with reports := List.replicate 7 { cause := 0x4C } },
      by and_intros <;> decide +kernel⟩,
   ⟨sys { t0 with run := .line, reports := [{ cause := 0xFF }], tl := 1 }, r0,
      { t0 with run := .line, reports := [{ cause := 0xFF }], tl := 1 }, { cause := 0xFF }, [],
      by and_intros <;> decide +kernel⟩,
   ⟨sys { t0 with run := .latch .outQueue, reports := [{ cause := 0x4E, consumed := true }] }, r0,
      { t0 with run := .latch .outQueue, reports := [{ cause := 0x4E, consumed := true }] },
      { cause := 0x4E, consumed := true }, [], by and_intros <;> decide +kernel⟩,
   ⟨.mov { tok := 15, thr := 63 } 0 1, sys { t0 with reports := [{ cause := 0xFF }] }, r0,
      { t0 with reports := [{ cause := 0xFF }] }, _, { cause := 0xFF }, [], .inl rfl,
      by and_intros <;> decide +kernel⟩,
   ⟨.mov {} 0 1, sys { t0 with reports := [{ cause := 0xFF }] }, r0, { t0 with reports := [{ cause := 0xFF }] }, _,
      { cause := 0xFF }, [], .inl rfl, by and_intros <;> decide +kernel⟩,
   ⟨.addi {} 0 1 7, sys { t0 with reports := [{ cause := 0x4E, consumed := true }] }, r0,
      { t0 with reports := [{ cause := 0x4E, consumed := true }] }, _, { cause := 0x4E, consumed := true }, [],
      .inr rfl, by and_intros <;> decide +kernel⟩,
   ⟨sys { t0 with reports := [{ cause := 0x4E, consumed := true }], dlyUntil := 200 }, r0,
      { t0 with reports := [{ cause := 0x4E, consumed := true }], dlyUntil := 200 },
      { cause := 0x4E, consumed := true }, [], by and_intros <;> decide +kernel⟩,
   ⟨sys { t0 with reports := [{ cause := 0xFF }], run := .recv 3 1 {} 2 4, slot := none }, r0,
      { t0 with reports := [{ cause := 0xFF }], run := .recv 3 1 {} 2 4, slot := none }, { cause := 0xFF }, [], 3,
      1, {}, 2, 4, by and_intros <;> decide +kernel⟩⟩

theorem witness_ThreadEvents :
    (∃ (s : State) (r : TRef) (t : Thread) (f : Flight) (i : TrapInfo) (k : Tok) (n : Nat), s.thread? r = some t ∧
      t.inflight = [f] ∧ f.fpTrap = some i ∧ f.giveBack = some (k, n) ∧ f.due ≤ s.cycle ∧ t.tl < 2 ∧ t.pend = 0 ∧
      s.isDet r.l = false ∧ s.awaitsCommit r = false ∧ i.cause < 256) ∧
    (∃ (s : State) (r : TRef) (t : Thread), s.thread? r = some t ∧ t.run = .evicted ∧ t.slot = none ∧ t.evictable =
      false ∧ s.awaitsPage r = false ∧ s.pendClear r = true) ∧
    (∃ (s : State) (r : TRef) (t : Thread) (n : DWord), s.thread? r = some t ∧ t.run = .service n ∧ n ≠ 1 ∧ n ≠ 2 ∧
      s.awaitsPage r = false ∧ t.evictable = false ∧ s.ops.all (fun e => !(decide (e.2.t = r) && decide (e.2.cls =
      .service)) || (s.clear e.2 && decide (e.2.res = []))) = true) :=
  ⟨⟨sys
      { t0 with inflight := [{ id := 3, due := 100, fpTrap := some { cause := 0x2A }, giveBack := some (15, 63) }], fpHold := some 3 },
      r0,
      { t0 with inflight := [{ id := 3, due := 100, fpTrap := some { cause := 0x2A }, giveBack := some (15, 63) }], fpHold := some 3 },
      { id := 3, due := 100, fpTrap := some { cause := 0x2A }, giveBack := some (15, 63) }, { cause := 0x2A }, 15,
      63, by and_intros <;> decide +kernel⟩,
   ⟨sys { t0 with run := .evicted, slot := none }, r0, { t0 with run := .evicted, slot := none },
      by and_intros <;> decide +kernel⟩,
   ⟨sys { t0 with run := .service 5 }, r0, { t0 with run := .service 5 }, 5, by and_intros <;> decide +kernel⟩⟩

theorem witness_VectorEvents :
    (∃ (s : State) (id : Nat) (o : Op) (v : VTile) (g : List Word → Word → Nat → Word) (d : Nat) (srcs : List Nat),
      vectorInteger o.ins = some g ∧ atHead s id o .vector = true ∧ s.tile? o.tile = some v ∧ v.spad.wf = true ∧
      o.vals.length = 6 ∧ integerWindows o = true ∧ vectorPlaces o = some (d, srcs) ∧ (o.val 5).toNat ≤ 2 ^ 20 ∧
      srcs.all (fun a => apart d a (o.val 5).toNat && sound s v a (4 * (o.val 5).toNat)) = true) ∧
    (∃ (s : State) (id : Nat) (o : Op) (v : VTile) (g : List Word → Word → Nat → Word) (d : Nat) (srcs : List Nat),
      vectorInteger o.ins = some g ∧ vectorRuns s id o = true ∧ s.tile? o.tile = some v ∧ v.spad.wf = true ∧ v.lag
      = [] ∧ o.vals.length = 6 ∧ integerWindows o = true ∧ vectorPlaces o = some (d, srcs) ∧ (o.val 5).toNat ≤ 2 ^
      20 ∧ srcs.all (fun a => apart d a (o.val 5).toNat) = true) ∧
    (∃ (s : State) (id : Nat) (o : Op), (vectorRow o.ins).isSome = true ∧ atHead s id o .vector = true ∧ 2 ^ 20 <
      (o.val 5).toNat) ∧
    (∃ (s : State) (id : Nat) (o : Op) (t : Thread), s.op? id = some o ∧ o.cls = .vector ∧ o.phase = .sent ∧ o.atStart
      = false ∧ (vectorRow o.ins).isSome = true ∧ o.elems = (o.val 5).toNat ∧ o.elems ≠ 0 ∧ s.thread? o.t = some t
      ∧ t.run = .ready ∧ steady t = true ∧ s.isDet o.t.l = false ∧ o.fault = none) ∧
    (∃ (s : State) (id : Nat) (o : Op) (t : Thread) (i : _), s.op? id = some o ∧ o.cls = .vector ∧ o.phase = .sent ∧
      o.atStart = false ∧ (vectorRow o.ins).isSome = true ∧ o.elems = (o.val 5).toNat ∧ o.elems ≠ 0 ∧ s.thread?
      o.t = some t ∧ t.run = .ready ∧ steady t = true ∧ s.isDet o.t.l = false ∧ o.fault = some i ∧
      t.reports.length < 8) :=
  ⟨⟨at5
      ({ op .vector (.vadd {} .i 10 11 12 8) [0xFFFF8, 0, 0xFFFF8, 0, 0, 2] with wins := List.replicate 8 { fmt := 7 } }),
      5,
      { op .vector (.vadd {} .i 10 11 12 8) [0xFFFF8, 0, 0xFFFF8, 0, 0, 2] with wins := List.replicate 8 { fmt := 7 } },
      vt, _, 0xFFFF8, [0, 0xFFFF8], rfl, by and_intros <;> decide +kernel⟩,
   ⟨at5
      ({ op .vector (.vadd {} .i 10 11 12 8) [0xFFFF8, 0, 0xFFFF8, 0, 0, 2] with wins := List.replicate 8 { fmt := 7 }, phase := .sent }),
      5,
      { op .vector (.vadd {} .i 10 11 12 8) [0xFFFF8, 0, 0xFFFF8, 0, 0, 2] with wins := List.replicate 8 { fmt := 7 }, phase := .sent },
      vt, _, 0xFFFF8, [0, 0xFFFF8], rfl, by and_intros <;> decide +kernel⟩,
   ⟨at5 (op .vector (.vexp {} 10 11 8) [0, 0, 0, 0, 0, 0x100001]), 5, op .vector (.vexp {} 10 11 8) [0, 0, 0, 0, 0,
      0x100001], by and_intros <;> decide +kernel⟩,
   ⟨at5 ({ op .vector (.vexp {} 10 11 8) [0, 0, 0, 0, 0, 2] with phase := .sent, elems := 2 }), 5,
      { op .vector (.vexp {} 10 11 8) [0, 0, 0, 0, 0, 2] with phase := .sent, elems := 2 }, t0,
      by and_intros <;> decide +kernel⟩,
   ⟨at5
      ({ op .vector (.vexp {} 10 11 8) [0, 0, 0, 0, 0, 2] with phase := .sent, elems := 2, fault := some { cause := 0x60 } })
      (vt) ({ t0 with reports := List.replicate 7 { cause := 0x4C } }), 5,
      { op .vector (.vexp {} 10 11 8) [0, 0, 0, 0, 0, 2] with phase := .sent, elems := 2, fault := some { cause := 0x60 } },
      { t0 with reports := List.replicate 7 { cause := 0x4C } }, { cause := 0x60 },
      by and_intros <;> decide +kernel⟩⟩

theorem witness_QuasiRandomEvents :
    (∃ (s : State) (id : Nat) (o : Op) (v : VTile) (c : _) (x : _) (ra : _) (rb : _), atHead s id o .qru = true ∧
      s.tile? o.tile = some v ∧ v.spad.wf = true ∧ v.lag = [] ∧ o.elems = 0 ∧ o.fault = none ∧ s.isDet o.tile.l =
      false ∧ o.ins = .qseed c x ra rb) ∧
    (∃ (s : State) (id : Nat) (o : Op) (v : VTile) (c : _) (short : _) (ra : _) (rb : _) (cnt : _), atHead s id o .qru
      = true ∧ s.tile? o.tile = some v ∧ v.spad.wf = true ∧ v.lag = [] ∧ o.elems = 0 ∧ o.fault = none ∧ s.isDet
      o.tile.l = false ∧ o.ins = .qload c short ra rb cnt ∧ sound s v (offsetOf (o.val 0)) (cnt.toNat * (if short
      then 8 else 136)) = true) ∧
    (∃ (s : State) (id : Nat) (o : Op) (v : VTile) (c : _) (short : _) (ra : _) (rb : _) (cnt : _), atHead s id o .qru
      = true ∧ s.tile? o.tile = some v ∧ v.spad.wf = true ∧ v.lag = [] ∧ o.elems = 0 ∧ o.fault = none ∧ s.isDet
      o.tile.l = false ∧ o.ins = .qsave c short ra rb cnt) ∧
    (∃ (s : State) (id : Nat) (o : Op) (v : VTile) (c : _) (dst : _) (dim : _) (idx : _) (n : _) (d : _), atHead s id
      o .qru = true ∧ s.tile? o.tile = some v ∧ v.spad.wf = true ∧ v.lag = [] ∧ o.elems = 0 ∧ o.fault = none ∧
      s.isDet o.tile.l = false ∧ o.ins = .qgenv c dst dim idx n ∧ o.wins.length = 8 ∧ o.wins.all (fun w => decide
      (w.fmt = 0)) = true ∧ (o.val 1).toNat < 64 ∧ (o.val 3).toNat ≤ 2 ^ 20 ∧ wordsPlace (o.val 0) (o.val 3).toNat
      = some d) :=
  ⟨⟨at5 (op .qru (.qseed {} true 8 9) [63, 7]), 5, op .qru (.qseed {} true 8 9) [63, 7], vt, {}, true, 8, 9,
      by and_intros <;> decide +kernel⟩,
   ⟨at5 (op .qru (.qload {} false 1 2 1) [0xFFF78, 63]), 5, op .qru (.qload {} false 1 2 1) [0xFFF78, 63], vt, {},
      false, 1, 2, 1, by and_intros <;> decide +kernel⟩,
   ⟨at5 (op .qru (.qsave {} true 1 2 1) [0xFFFF8, 63]), 5, op .qru (.qsave {} true 1 2 1) [0xFFFF8, 63], vt, {}, true,
      1, 2, 1, by and_intros <;> decide +kernel⟩,
   ⟨at5 ({ op .qru (.qgenv {} 1 2 3 4) [0xFFFFC, 63, 9, 1] with wins := List.replicate 8 {} }), 5,
      { op .qru (.qgenv {} 1 2 3 4) [0xFFFFC, 63, 9, 1] with wins := List.replicate 8 {} }, vt, {}, 1, 2, 3, 4,
      0xFFFFC, by and_intros <;> decide +kernel⟩⟩

theorem witness_MatrixEvents :
    (∃ (s : State) (id : Nat) (o : Op) (v : VTile) (c : Ctl) (x src gk : Reg) (off : Nat), atHead s id o .oload = true
      ∧ noInjection s = true ∧ s.tile? o.tile = some v ∧ o.ins = .oload c .l x src gk ∧ (v.slot x.toNat).mem.wf =
      true ∧ v.lag = [] ∧ o.parts = [] ∧ placeOf (o.val 0) (slotBytes (v.slot x.toNat)) 8 = some off ∧ sound s v
      off (slotBytes (v.slot x.toNat)) = true) ∧
    (∃ (s : State) (id : Nat) (o : Op) (v : VTile) (c : Ctl) (src : OSrc) (x sr gk : Reg) (off : Nat) (from_ : Nat →
      Option Byte), atHead s id o .oload = true ∧ noInjection s = true ∧ s.tile? o.tile = some v ∧ o.ins = .oload
      c src x sr gk ∧ (v.slot x.toNat).mem.wf = true ∧ o.parts = [] ∧ off % 8 = 0 ∧ (∀ b, b < slotBytes (v.slot
      x.toNat) → (from_ b).isSome = true) ∧ (src = .w ∧ Addr.of (DWord.mk (o.val 0) (o.val 1)) = .weight off ∧
      s.wsBusy o.tile off (slotBytes (v.slot x.toNat)) = false ∧ 0 < slotBytes (v.slot x.toNat) ∧ s.wsFlips = [] ∧
      s.wsPoison = [] ∧ (∀ b, from_ b = (s.wsAt (s.tilePool o.tile) (s.tileField o.tile) (off + b)).map s.ws.read)
      ∨ src = .g ∧ s.memWf = true ∧ homesSound s = true ∧ s.hist = [] ∧ s.homesFull o = false ∧ s.isDet o.tile.l =
      false ∧ ∃ home, Addr.of (DWord.mk (o.val 0) (o.val 1)) = .glob home off ∧ off + slotBytes (v.slot x.toNat) ≤
      2 ^ 52 ∧ ∀ b, from_ b = (homePlace s o.vd home (off + b) true false).map s.hbm.read)) ∧
    (∃ (s : State) (l g : Nat) (heads : List AtLine) (acc : BitVec 1) (k : OFmt) (sb fd : Reg) (f : AtLine), heads.map
      AtLine.m = s.gangMembers l g ∧ heads ≠ [] ∧ (heads.map AtLine.m).Nodup ∧ heads.all (lineReady s acc k sb fd)
      = true ∧ heads[fd.toNat]? = some f ∧ (f.v.slot sb.toNat).st = .filled ∧ (f.v.slot sb.toNat).role = .b ∧
      (f.v.slot sb.toNat).fmt = k) ∧
    (∃ (s : State) (id : Nat) (o : Op) (heads : List (Nat × Op)) (k : OFmt) (acc : BitVec 1) (sb fd : Reg) (fm :
      TileRef) (f : VTile), s.op? id = some o ∧ o.cls = .array ∧ (∃ c sa, o.ins = .mmg c k acc sa sb fd) ∧
      s.siblings o = heads ∧ noInjection s = true ∧ (heads.map fun e => e.2.tile).Nodup ∧ (heads.map
      Prod.fst).Nodup ∧ (∀ e ∈ heads, atHead s e.1 e.2 .array = true ∧ (s.tile? e.2.tile).isSome = true ∧ ∃ c sa,
      e.2.ins = .mmg c k acc sa sb fd ∧ cleanSlot ((tileAt s e.2.tile).slot sa.toNat) = true) ∧ (s.gangOfTile
      o.tile)[fd.toNat]? = some fm ∧ s.tile? fm = some f ∧ cleanSlot (f.slot sb.toNat) = true) ∧
    (∃ (s : State) (id : Nat) (o : Op) (v : VTile) (c : Ctl) (acc : BitVec 1) (sa lst n : Reg) (off : Nat), atHead s
      id o .array = true ∧ noInjection s = true ∧ s.tile? o.tile = some v ∧ o.ins = .mol c acc sa lst n ∧ v.lag =
      [] ∧ (o.val 1).toNat ≤ 16384 ∧ placeOf (o.val 0) (8 * (o.val 1).toNat) 8 = some off ∧ sound s v off (8 *
      (o.val 1).toNat) = true ∧ cleanSlot (v.slot sa.toNat) = true ∧ (∀ j, j < (o.val 1).toNat → littleEndian
      (v.spad.readN (off + 8 * j + 6) 2) < (v.slot sa.toNat).k ∧ littleEndian (v.spad.readN (off + 8 * j + 4) 2) <
      512)) ∧
    (∃ (s : State) (id : Nat) (o : Op) (v : VTile) (c : Ctl) (acc : BitVec 1) (dst cs rs : Reg) (w : Window) (e d col
      row : Nat), atHead s id o .array = true ∧ noInjection s = true ∧ s.tile? o.tile = some v ∧ o.ins = .mdrn c
      acc dst cs rs ∧ v.spad.wf = true ∧ v.lag = [] ∧ o.parts = [] ∧ o.snap = none ∧ s.isDet o.tile.l = false ∧
      o.wins[((o.val 0).extractLsb' 21 3).toNat]? = some w ∧ 1 ≤ w.fmt ∧ w.fmt ≤ 9 ∧ fmtSize w.fmt = some e ∧
      placeOf (o.val 0) (8192 * e) e = some d ∧ placeOf (o.val 1) 1024 2 = some col ∧ placeOf (o.val 2) 32 2 =
      some row ∧ sound s v col 1024 = true ∧ sound s v row 32 = true ∧ (∀ b < 8,
      ({ v.accu acc.toNat with rep := {} } : Acc).check b = ({ v.accu acc.toNat with rep := {} }, true))) ∧
    (∃ (s : State) (id : Nat) (o : Op) (v : VTile) (c : Ctl) (acc : BitVec 1), atHead s id o .array = true ∧
      noInjection s = true ∧ s.tile? o.tile = some v ∧ o.ins = .mclr c acc) ∧
    (∃ (s : State) (id : Nat) (o : Op) (v : VTile) (c : Ctl) (acc : BitVec 1) (rd : _), atHead s id o .array = true ∧
      noInjection s = true ∧ s.tile? o.tile = some v ∧ o.ins = .mstat c rd acc ∧ (v.accu acc.toNat).rep.ncorr < 16
      ∧ (v.accu acc.toNat).rep.row < 16 ∧ (v.accu acc.toNat).rep.col < 512) :=
  ⟨⟨at5 (op .oload (.oload {} .l 15 1 2) [0xFC000, 0, 1])
      ({ vt with slots := vt.slots.set 15 { st := .filling, role := .b, k := 1 } }), 5, op .oload (.oload {} .l 15
      1 2) [0xFC000, 0, 1], { vt with slots := vt.slots.set 15 { st := .filling, role := .b, k := 1 } }, {}, 15, 1,
      2, 0xFC000, by and_intros <;> decide +kernel⟩,
   ⟨{ at5 (op .oload (.oload {} .w 15 2 1) [0x7FFFF0, 0xA0000000, 1]) ({ vt with slots := vt.slots.set 15 { st := .filling, k := 1 } }) with fields := Vector.replicate 64 {} },
      5, op .oload (.oload {} .w 15 2 1) [0x7FFFF0, 0xA0000000, 1],
      { vt with slots := vt.slots.set 15 { st := .filling, k := 1 } }, {}, .w, 15, 2, 1, 0x7FFFF0, weightBytes
      ({ at5 (op .oload (.oload {} .w 15 2 1) [0x7FFFF0, 0xA0000000, 1]) ({ vt with slots := vt.slots.set 15 { st := .filling, k := 1 } }) with fields := Vector.replicate 64 {} })
      (op .oload (.oload {} .w 15 2 1) [0x7FFFF0, 0xA0000000, 1]) (0x7FFFF0),
      by exact ⟨by decide +kernel, by decide +kernel, by decide +kernel, by decide +kernel, by decide +kernel, by decide +kernel, by decide +kernel, by decide +kernel, .inl ⟨rfl, by decide +kernel, by decide +kernel, by decide +kernel, rfl, rfl, fun _ => rfl⟩⟩⟩,
   ⟨{ sys ({ t0 with run := .line, tok := Vector.replicate 16 { count := 1 } }) ({ vt with lineQ := [5], slots := (vt.slots.set 15 { st := .filled, fmt := .bf, k := 1 }).set 14 { st := .filled, fmt := .bf, role := .b } }) [(5, op .array (.mmg { tok := 15, thr := 1 } .bf 1 15 14 0)), (6, { op .array (.mmg {} .bf 1 0 14 0) with t := ⟨0, 1, 0⟩, tile := m1 })] ({ wt with lineQ := [6], slots := wt.slots.set 0 { st := .filled, fmt := .bf, k := 1 } }) with threads := [(r0, { t0 with run := .line, tok := Vector.replicate 16 { count := 1 } }), (⟨0, 1, 0⟩, { t0 with run := .line })], launches := [(0, { ln with blk := { bk with gsize := 2 }, gangs := [(0, { st := .resident, size := 2 })] })] },
      0, 0, [⟨m0,
      { vt with lineQ := [5], slots := (vt.slots.set 15 { st := .filled, fmt := .bf, k := 1 }).set 14 { st := .filled, fmt := .bf, role := .b } },
      5, op .array (.mmg { tok := 15, thr := 1 } .bf 1 15 14 0),
      { t0 with run := .line, tok := Vector.replicate 16 { count := 1 } }, { tok := 15, thr := 1 }, 15⟩, ⟨m1,
      { wt with lineQ := [6], slots := wt.slots.set 0 { st := .filled, fmt := .bf, k := 1 } }, 6,
      { op .array (.mmg {} .bf 1 0 14 0) with t := ⟨0, 1, 0⟩, tile := m1 }, { t0 with run := .line }, {}, 0⟩], 1,
      .bf, 14, 0, ⟨m0,
      { vt with lineQ := [5], slots := (vt.slots.set 15 { st := .filled, fmt := .bf, k := 1 }).set 14 { st := .filled, fmt := .bf, role := .b } },
      5, op .array (.mmg { tok := 15, thr := 1 } .bf 1 15 14 0),
      { t0 with run := .line, tok := Vector.replicate 16 { count := 1 } }, { tok := 15, thr := 1 }, 15⟩,
      by exact ⟨by decide +kernel, List.cons_ne_nil _ _, by decide +kernel, by decide +kernel, rfl, by decide +kernel, by decide +kernel, by decide +kernel⟩⟩,
   ⟨{ sys t0 vt [(5, op .array (.mmg {} .bf 1 15 14 0)), (6, { op .array (.mmg {} .bf 1 0 14 0) with t := ⟨0, 1, 0⟩, tile := m1 })] wt with launches := [(0, { ln with blk := { bk with gsize := 2 }, gangs := [(0, { st := .resident, size := 2 })] })] },
      5, op .array (.mmg {} .bf 1 15 14 0), [(5, op .array (.mmg {} .bf 1 15 14 0)), (6,
      { op .array (.mmg {} .bf 1 0 14 0) with t := ⟨0, 1, 0⟩, tile := m1 })], .bf, 1, 14, 0, m0, vt,
      by exact ⟨by decide +kernel, by decide +kernel, ⟨_, _, rfl⟩, by decide +kernel, by decide +kernel, by decide +kernel, by decide +kernel, by rw [List.forall_mem_cons]; exact ⟨⟨by decide +kernel, by decide +kernel, _, _, rfl, by decide +kernel⟩, by rw [List.forall_mem_cons]; exact ⟨⟨by decide +kernel, by decide +kernel, _, _, rfl, by decide +kernel⟩, fun _ h => nomatch h⟩⟩, by decide +kernel, by decide +kernel, by decide +kernel⟩⟩,
   ⟨at5 (op .array (.mol {} 1 15 2 3) [0xFFFF8, 1]) ({ vt with slots := vt.slots.set 15 { st := .filled, k := 1 } }),
      5, op .array (.mol {} 1 15 2 3) [0xFFFF8, 1], { vt with slots := vt.slots.set 15 { st := .filled, k := 1 } },
      {}, 1, 15, 2, 3, 0xFFFF8, by and_intros <;> decide +kernel⟩,
   ⟨at5 ({ op .array (.mdrn {} 1 1 2 3) [0xF8000, 0xFFC00, 0xFFFE0] with wins := List.replicate 8 { fmt := 9 } }), 5,
      { op .array (.mdrn {} 1 1 2 3) [0xF8000, 0xFFC00, 0xFFFE0] with wins := List.replicate 8 { fmt := 9 } }, vt,
      {}, 1, 1, 2, 3, { fmt := 9 }, 4, 0xF8000, 0xFFC00, 0xFFFE0, by and_intros <;> decide +kernel⟩,
   ⟨at5 (op .array (.mclr {} 1)), 5, op .array (.mclr {} 1), vt, {}, 1, by and_intros <;> decide +kernel⟩,
   ⟨at5 (op .array (.mstat {} 15 1)), 5, op .array (.mstat {} 15 1), vt, {}, 1, 15, by and_intros <;> decide +kernel⟩⟩

theorem witness_GroupEvents :
    (∃ (s : State) (id : Nat) (o : Op) (v : VTile) (c : _) (rd : _) (ra : _) (j : Nat), mayLeave s id o .group o.unit
      = true ∧ arrivesAt s o.tile (groupHome o) v = true ∧ o.ins = .gnew c rd ra ∧ j < 32 ∧ (recordOf v j).used =
      false ∧ (∀ i : Nat, i < j → (recordOf v i).used = true)) ∧
    (∃ (s : State) (id : Nat) (o : Op) (v : VTile) (c : _) (rd : _) (ra : _), mayLeave s id o .group o.unit = true ∧
      arrivesAt s o.tile (groupHome o) v = true ∧ o.ins = .gnew c rd ra ∧ (∀ i : Nat, i < 32 → (recordOf v i).used
      = true)) ∧
    (∃ (s : State) (id : Nat) (o : Op) (v : VTile) (c : _) (ra : _), mayLeave s id o .group o.unit = true ∧ arrivesAt
      s o.tile (groupHome o) v = true ∧ (o.ins = .gjoin c ra ∨ o.ins = .gleave c ra) ∧ live v (o.val 0) = true ∧
      plainArrivers s (recordOf v (recordNo (o.val 0))).bar = true ∧ (recordOf v (recordNo (o.val 0))).bar.all
      (fun a => decide (a.op ≠ id)) = true ∧ (o.ins = .gleave c ra → (recordOf v (recordNo (o.val 0))).count ≠ 0)) ∧
    (∃ (s : State) (id : Nat) (o : Op) (v : VTile) (c : _) (ra : _), mayLeave s id o .group o.unit = true ∧ arrivesAt
      s o.tile (groupHome o) v = true ∧ o.ins = .gfree c ra ∧ live v (o.val 0) = true ∧ (recordOf v (recordNo
      (o.val 0))).count = 0 ∧ (recordOf v (recordNo (o.val 0))).bar = [] ∧ (recordOf v (recordNo (o.val 0))).red =
      none) ∧
    (∃ (s : State) (id : Nat) (o : Op) (v : VTile) (c : _) (ra : _), mayLeave s id o .group o.unit = true ∧ arrivesAt
      s o.tile (groupHome o) v = true ∧ o.ins = .gfree c ra ∧ live v (o.val 0) = true ∧ (recordOf v (recordNo
      (o.val 0))).count ≠ 0) ∧
    (∃ (s : State) (id : Nat) (o : Op) (v : VTile) (c : _) (rd : _) (ra : _), mayLeave s id o .group o.unit = true ∧
      arrivesAt s o.tile (groupHome o) v = true ∧ o.ins = .gcnt c rd ra ∧ live v (o.val 0) = true) ∧
    (∃ (s : State) (id : Nat) (o : Op) (v : VTile), mayLeave s id o .group o.unit = true ∧ arrivesAt s o.tile
      (groupHome o) v = true ∧ usesHandle o.ins = true ∧ live v (o.val 0) = false) ∧
    (∃ (s : State) (id : Nat) (o : Op) (v : VTile) (c : _) (ra : _) (k : _), mayLeave s id o .group o.unit = true ∧
      arrivesAt s o.tile (groupHome o) v = true ∧ o.ins = .gbar c ra k ∧ live v (o.val 0) = true ∧ plainArrivers s
      (recordOf v (recordNo (o.val 0))).bar = true ∧ (recordOf v (recordNo (o.val 0))).bar.all (fun a => decide
      (a.op ≠ id)) = true ∧ (recordOf v (recordNo (o.val 0))).count ≠ 0) ∧
    (∃ (s : State) (id : Nat) (o : Op) (v : VTile) (c : Ctl) (k : RedOp) (h val cnt res tok : Reg) (off : Nat),
      mayLeave s id o .group o.unit = true ∧ arrivesAt s o.tile (groupHome o) v = true ∧ o.ins = .gred c k h val
      cnt res tok ∧ s.memWf = true ∧ live v (o.val 0) = true ∧ wordsPlace (o.val 3) 1 = some off ∧ (recordOf v
      (recordNo (o.val 0))).count ≠ 0 ∧ ((o.val 2).toNat) = 0) ∧
    (∃ (s : State) (id : Nat) (o : Op) (v : VTile) (c : Ctl) (k : RedOp) (h val cnt res tok : Reg) (off : Nat),
      mayLeave s id o .group o.unit = true ∧ arrivesAt s o.tile (groupHome o) v = true ∧ o.ins = .gred c k h val
      cnt res tok ∧ s.memWf = true ∧ live v (o.val 0) = true ∧ wordsPlace (o.val 3) 1 = some off ∧ (recordOf v
      (recordNo (o.val 0))).count ≠ 0 ∧ ((o.val 2).toNat) = 1 ∧ (recordOf v (recordNo (o.val 0))).red = none) ∧
    (∃ (s : State) (id : Nat) (o : Op) (v : VTile) (c : Ctl) (k : RedOp) (h val cnt res tok : Reg) (off : Nat),
      mayLeave s id o .group o.unit = true ∧ arrivesAt s o.tile (groupHome o) v = true ∧ o.ins = .gred c k h val
      cnt res tok ∧ s.memWf = true ∧ live v (o.val 0) = true ∧ wordsPlace (o.val 3) 1 = some off ∧ (recordOf v
      (recordNo (o.val 0))).count < ((o.val 2).toNat) ∧ (recordOf v (recordNo (o.val 0))).count ≠ 0) ∧
    (∃ (s : State) (id : Nat) (o : Op) (v : VTile) (c : Ctl) (k : RedOp) (h val cnt res tok : Reg) (off : Nat),
      mayLeave s id o .group o.unit = true ∧ arrivesAt s o.tile (groupHome o) v = true ∧ o.ins = .gred c k h val
      cnt res tok ∧ s.memWf = true ∧ live v (o.val 0) = true ∧ wordsPlace (o.val 3) 1 = some off ∧ 2 ≤ ((o.val
      2).toNat) ∧ ((o.val 2).toNat) ≤ (recordOf v (recordNo (o.val 0))).count ∧ (recordOf v (recordNo (o.val
      0))).red = none) ∧
    (∃ (s : State) (id : Nat) (o : Op) (v : VTile) (c : Ctl) (k : RedOp) (h val cnt res tok : Reg) (off : Nat) (p :
      _), mayLeave s id o .group o.unit = true ∧ arrivesAt s o.tile (groupHome o) v = true ∧ o.ins = .gred c k h
      val cnt res tok ∧ s.memWf = true ∧ live v (o.val 0) = true ∧ wordsPlace (o.val 3) 1 = some off ∧ (recordOf v
      (recordNo (o.val 0))).red = some p ∧ 1 ≤ ((o.val 2).toNat) ∧ ((o.val 2).toNat) ≤ (recordOf v (recordNo
      (o.val 0))).count ∧ (p.n ≠ ((o.val 2).toNat) ∨ p.rop ≠ k)) ∧
    (∃ (s : State) (id : Nat) (o : Op) (v : VTile) (c : Ctl) (k : RedOp) (h val cnt res tok : Reg) (off : Nat) (p :
      _), mayLeave s id o .group o.unit = true ∧ arrivesAt s o.tile (groupHome o) v = true ∧ o.ins = .gred c k h
      val cnt res tok ∧ s.memWf = true ∧ live v (o.val 0) = true ∧ wordsPlace (o.val 3) 1 = some off ∧ (recordOf v
      (recordNo (o.val 0))).red = some p ∧ p.n = ((o.val 2).toNat) ∧ p.rop = k ∧ ((o.val 2).toNat) ≤ (recordOf v
      (recordNo (o.val 0))).count ∧ p.arr.length + 1 < ((o.val 2).toNat)) ∧
    (∃ (s : State) (id : Nat) (o : Op) (v : VTile) (c : Ctl) (k : RedOp) (h val cnt res tok : Reg) (off : Nat) (p :
      _), mayLeave s id o .group o.unit = true ∧ arrivesAt s o.tile (groupHome o) v = true ∧ o.ins = .gred c k h
      val cnt res tok ∧ s.memWf = true ∧ live v (o.val 0) = true ∧ wordsPlace (o.val 3) 1 = some off ∧ (recordOf v
      (recordNo (o.val 0))).red = some p ∧ p.n = ((o.val 2).toNat) ∧ p.rop = k ∧ ((o.val 2).toNat) ≤ (recordOf v
      (recordNo (o.val 0))).count ∧ p.arr.length + 1 = ((o.val 2).toNat) ∧ plainArrivers s p.arr = true ∧
      p.arr.all (fun a => decide (a.op ≠ id) && decide (a.raddr % 4 = 0)) = true ∧ (p.arr.map Arriver.op).Nodup) ∧
    (∃ (s : State) (id : Nat) (o : Op) (t : Thread), s.op? id = some o ∧ o.cls = .group ∧ o.phase = .reply ∧ o.atStart
      = false ∧ s.thread? o.t = some t ∧ t.run = .ready ∧ steady t = true ∧ (o.res.map Prod.fst).Nodup) :=
  ⟨⟨at5 ({ op .group (.gnew {} 15 1) [1] with unit := 1 }) (vt) (t0)
      ({ wt with groups := (List.range 31).map fun k => (k, { used := true }) }), 5,
      { op .group (.gnew {} 15 1) [1] with unit := 1 },
      { wt with groups := (List.range 31).map fun k => (k, { used := true }) }, {}, 15, 1, 31,
      by and_intros <;> decide +kernel⟩,
   ⟨at5 ({ op .group (.gnew {} 15 1) [1] with unit := 1 }) (vt) (t0)
      ({ wt with groups := (List.range 32).map fun k => (k, { used := true }) }), 5,
      { op .group (.gnew {} 15 1) [1] with unit := 1 },
      { wt with groups := (List.range 32).map fun k => (k, { used := true }) }, {}, 15, 1,
      by and_intros <;> decide +kernel⟩,
   ⟨at5 ({ op .group (.gleave {} 1) [0xFF000001] with unit := 1 }) (vt) (t0)
      ({ wt with groups := [(31, { used := true, gen := 7, count := 1, bar := [{ op := 6, t := r1, tok := 15 }] })] }),
      5, { op .group (.gleave {} 1) [0xFF000001] with unit := 1 },
      { wt with groups := [(31, { used := true, gen := 7, count := 1, bar := [{ op := 6, t := r1, tok := 15 }] })] },
      {}, 1, by and_intros <;> decide +kernel⟩,
   ⟨at5 ({ op .group (.gfree {} 1) [0xFF000001] with unit := 1 }) (vt) (t0)
      ({ wt with groups := [(31, { used := true, gen := 7 })] }), 5,
      { op .group (.gfree {} 1) [0xFF000001] with unit := 1 },
      { wt with groups := [(31, { used := true, gen := 7 })] }, {}, 1, by and_intros <;> decide +kernel⟩,
   ⟨at5 ({ op .group (.gfree {} 1) [0xFF000001] with unit := 1 }) (vt) (t0)
      ({ wt with groups := [(31, { used := true, gen := 7, count := 1 })] }), 5,
      { op .group (.gfree {} 1) [0xFF000001] with unit := 1 },
      { wt with groups := [(31, { used := true, gen := 7, count := 1 })] }, {}, 1,
      by and_intros <;> decide +kernel⟩,
   ⟨at5 ({ op .group (.gcnt {} 15 1) [0xFF000001] with unit := 1 }) (vt) (t0)
      ({ wt with groups := [(31, { used := true, gen := 7 })] }), 5,
      { op .group (.gcnt {} 15 1) [0xFF000001] with unit := 1 },
      { wt with groups := [(31, { used := true, gen := 7 })] }, {}, 15, 1, by and_intros <;> decide +kernel⟩,
   ⟨at5 ({ op .group (.gred {} .addF 1 2 3 4 15) [0xFF000001] with unit := 1 }) (vt) (t0)
      ({ wt with groups := [(31, { used := true, gen := 6 })] }), 5,
      { op .group (.gred {} .addF 1 2 3 4 15) [0xFF000001] with unit := 1 },
      { wt with groups := [(31, { used := true, gen := 6 })] }, by and_intros <;> decide +kernel⟩,
   ⟨at5 ({ op .group (.gbar {} 1 15) [0xFF000001] with unit := 1 }) (vt) (t0)
      ({ wt with groups := [(31, { used := true, gen := 7, count := 2, bar := [{ op := 6, t := r1, tok := 15 }] })] }),
      5, { op .group (.gbar {} 1 15) [0xFF000001] with unit := 1 },
      { wt with groups := [(31, { used := true, gen := 7, count := 2, bar := [{ op := 6, t := r1, tok := 15 }] })] },
      {}, 1, 15, by and_intros <;> decide +kernel⟩,
   ⟨at5 ({ op .group (.gred {} .addF 1 2 3 4 15) [0xFF000001, 9, 0, 0xFFFFC] with unit := 1 }) (vt) (t0)
      ({ wt with groups := [(31, { used := true, gen := 7, count := 1 })] }), 5,
      { op .group (.gred {} .addF 1 2 3 4 15) [0xFF000001, 9, 0, 0xFFFFC] with unit := 1 },
      { wt with groups := [(31, { used := true, gen := 7, count := 1 })] }, {}, .addF, 1, 2, 3, 4, 15, 0xFFFFC,
      by and_intros <;> decide +kernel⟩,
   ⟨at5 ({ op .group (.gred {} .addF 1 2 3 4 15) [0xFF000001, 9, 1, 0xFFFFC] with unit := 1 }) (vt) (t0)
      ({ wt with groups := [(31, { used := true, gen := 7, count := 1 })] }), 5,
      { op .group (.gred {} .addF 1 2 3 4 15) [0xFF000001, 9, 1, 0xFFFFC] with unit := 1 },
      { wt with groups := [(31, { used := true, gen := 7, count := 1 })] }, {}, .addF, 1, 2, 3, 4, 15, 0xFFFFC,
      by and_intros <;> decide +kernel⟩,
   ⟨at5 ({ op .group (.gred {} .addF 1 2 3 4 15) [0xFF000001, 9, 2, 0xFFFFC] with unit := 1 }) (vt) (t0)
      ({ wt with groups := [(31, { used := true, gen := 7, count := 1 })] }), 5,
      { op .group (.gred {} .addF 1 2 3 4 15) [0xFF000001, 9, 2, 0xFFFFC] with unit := 1 },
      { wt with groups := [(31, { used := true, gen := 7, count := 1 })] }, {}, .addF, 1, 2, 3, 4, 15, 0xFFFFC,
      by and_intros <;> decide +kernel⟩,
   ⟨at5 ({ op .group (.gred {} .addF 1 2 3 4 15) [0xFF000001, 9, 2, 0xFFFFC] with unit := 1 }) (vt) (t0)
      ({ wt with groups := [(31, { used := true, gen := 7, count := 2 })] }), 5,
      { op .group (.gred {} .addF 1 2 3 4 15) [0xFF000001, 9, 2, 0xFFFFC] with unit := 1 },
      { wt with groups := [(31, { used := true, gen := 7, count := 2 })] }, {}, .addF, 1, 2, 3, 4, 15, 0xFFFFC,
      by and_intros <;> decide +kernel⟩,
   ⟨at5 ({ op .group (.gred {} .addF 1 2 3 4 15) [0xFF000001, 9, 2, 0xFFFFC] with unit := 1 }) (vt) (t0)
      ({ wt with groups := [(31, { used := true, gen := 7, count := 3, red := some { rop := .addF, n := 3, arr := [{ op := 6, t := r1, tok := 15 }], part := 9 } })] }),
      5, { op .group (.gred {} .addF 1 2 3 4 15) [0xFF000001, 9, 2, 0xFFFFC] with unit := 1 },
      { wt with groups := [(31, { used := true, gen := 7, count := 3, red := some { rop := .addF, n := 3, arr := [{ op := 6, t := r1, tok := 15 }], part := 9 } })] },
      {}, .addF, 1, 2, 3, 4, 15, 0xFFFFC,
      { rop := .addF, n := 3, arr := [{ op := 6, t := r1, tok := 15 }], part := 9 },
      by and_intros <;> decide +kernel⟩,
   ⟨at5 ({ op .group (.gred {} .addF 1 2 3 4 15) [0xFF000001, 9, 3, 0xFFFFC] with unit := 1 }) (vt) (t0)
      ({ wt with groups := [(31, { used := true, gen := 7, count := 3, red := some { rop := .addF, n := 3, arr := [{ op := 6, t := r1, tok := 15 }], part := 9 } })] }),
      5, { op .group (.gred {} .addF 1 2 3 4 15) [0xFF000001, 9, 3, 0xFFFFC] with unit := 1 },
      { wt with groups := [(31, { used := true, gen := 7, count := 3, red := some { rop := .addF, n := 3, arr := [{ op := 6, t := r1, tok := 15 }], part := 9 } })] },
      {}, .addF, 1, 2, 3, 4, 15, 0xFFFFC,
      { rop := .addF, n := 3, arr := [{ op := 6, t := r1, tok := 15 }], part := 9 },
      by and_intros <;> decide +kernel⟩,
   ⟨at5 ({ op .group (.gred {} .addF 1 2 3 4 15) [0xFF000001, 9, 2, 0xFFFFC] with unit := 1 }) (vt) (t0)
      ({ wt with groups := [(31, { used := true, gen := 7, count := 2, red := some { rop := .addF, n := 2, arr := [{ op := 6, t := r1, tok := 15, raddr := 0xFFFFC }], part := 9 } })] }),
      5, { op .group (.gred {} .addF 1 2 3 4 15) [0xFF000001, 9, 2, 0xFFFFC] with unit := 1 },
      { wt with groups := [(31, { used := true, gen := 7, count := 2, red := some { rop := .addF, n := 2, arr := [{ op := 6, t := r1, tok := 15, raddr := 0xFFFFC }], part := 9 } })] },
      {}, .addF, 1, 2, 3, 4, 15, 0xFFFFC,
      { rop := .addF, n := 2, arr := [{ op := 6, t := r1, tok := 15, raddr := 0xFFFFC }], part := 9 },
      by and_intros <;> decide +kernel⟩,
   ⟨at5 ({ op .group (.gcnt {} 15 1) with phase := .reply, regs := [15], res := [(15, 1)] }), 5,
      { op .group (.gcnt {} 15 1) with phase := .reply, regs := [15], res := [(15, 1)] }, t0,
      by and_intros <;> decide +kernel⟩⟩

theorem witness_TransferEvents :
    (∃ (s : State) (id : Nat) (o : Op) (v u : VTile) (src dst : Nat) (c : _) (k : _) (vt : _) (d : _) (n : _) (m : _),
      s.memWf = true ∧ s.isDet o.tile.l = false ∧ s.reportRoom o.t = true ∧ s.tile? o.tile = some v ∧ o.poison =
      false ∧ o.unit < s.gridSize o.tile.l ∧ mayLeave s id o .transfer o.unit = true ∧ arrivesAt s o.tile
      (groupHome o) u = true ∧ v.lag = [] ∧ u.lag = [] ∧ o.parts = [] ∧ o.got = none ∧ (o.val 3).toNat ≤ 2 ^ 20 ∧
      placeOf (o.val 2) (o.val 3).toNat 1 = some src ∧ o.ins = .put c k vt d m n ∧ (o.val 0).toNat = o.unit ∧
      placeOf (o.val 1) (o.val 3).toNat 1 = some dst ∧ sound s v src (o.val 3).toNat = true) ∧
    (∃ (s : State) (id : Nat) (o : Op) (v u : VTile) (src dst : Nat) (c : _) (d : _) (vt : _) (m : _) (n : _), s.memWf
      = true ∧ s.isDet o.tile.l = false ∧ s.reportRoom o.t = true ∧ s.tile? o.tile = some v ∧ o.poison = false ∧
      o.unit < s.gridSize o.tile.l ∧ mayLeave s id o .transfer o.unit = true ∧ arrivesAt s o.tile (groupHome o) u
      = true ∧ v.lag = [] ∧ u.lag = [] ∧ o.parts = [] ∧ o.got = none ∧ (o.val 3).toNat ≤ 2 ^ 20 ∧ placeOf (o.val
      2) (o.val 3).toNat 1 = some src ∧ o.ins = .get c d vt m n ∧ (o.val 1).toNat = o.unit ∧ placeOf (o.val 0)
      (o.val 3).toNat 1 = some dst ∧ sound s u src (o.val 3).toNat = true) ∧
    (∃ (s : State) (id : Nat) (o : Op) (v : VTile) (home off loc sh : Nat) (c : _) (d : _) (b : _) (m : _), s.memWf =
      true ∧ homesSound s = true ∧ s.isDet o.tile.l = false ∧ s.reportRoom o.t = true ∧ s.tile? o.tile = some v ∧
      s.op? id = some o ∧ o.cls = .xfer ∧ o.phase = .waiting ∧ s.clear o = true ∧ o.atStart = false ∧ o.fault =
      none ∧ o.parts = [] ∧ o.got = none ∧ v.lag = [] ∧ s.hist = [] ∧ s.homesFull o = false ∧ Addr.of (DWord.mk
      (o.val 1) (o.val 2)) = .glob home off ∧ placeOf (o.val 3) 24 8 = some sh ∧ littleEndian (o.data.take 4) *
      littleEndian ((o.data.drop 4).take 4) ≤ 2 ^ 20 ∧ shortAddr (o.val 0) = some ((o.val 0).toNat / 2 ^ 21 % 8,
      loc) ∧ (movedBytes o off loc).all (fun e => decide (0 ≤ e.1) && decide (e.1 < 2 ^ 52) && decide (e.2 < 2 ^
      20)) = true ∧ o.ins = .xin c d b m ∧ (movedBytes o off loc).all (fun e => (homePlace s o.vd home e.1.toNat
      true false).isSome) = true ∧ ((movedBytes o off loc).map Prod.snd).Nodup) ∧
    (∃ (s : State) (id : Nat) (o : Op) (v : VTile) (home off loc sh : Nat) (c : _) (d : _) (b : _) (m : _), s.memWf =
      true ∧ homesSound s = true ∧ s.isDet o.tile.l = false ∧ s.reportRoom o.t = true ∧ s.tile? o.tile = some v ∧
      s.op? id = some o ∧ o.cls = .xfer ∧ o.phase = .waiting ∧ s.clear o = true ∧ o.atStart = false ∧ o.fault =
      none ∧ o.parts = [] ∧ o.got = none ∧ v.lag = [] ∧ s.hist = [] ∧ s.homesFull o = false ∧ Addr.of (DWord.mk
      (o.val 1) (o.val 2)) = .glob home off ∧ placeOf (o.val 3) 24 8 = some sh ∧ littleEndian (o.data.take 4) *
      littleEndian ((o.data.drop 4).take 4) ≤ 2 ^ 20 ∧ shortAddr (o.val 0) = some ((o.val 0).toNat / 2 ^ 21 % 8,
      loc) ∧ (movedBytes o off loc).all (fun e => decide (0 ≤ e.1) && decide (e.1 < 2 ^ 52) && decide (e.2 < 2 ^
      20)) = true ∧ o.ins = .xout c d b m ∧ (movedBytes o off loc).all (fun e => (homePlace s o.vd home e.1.toNat
      false true).isSome && sound s v e.2 1) = true ∧ ((movedBytes o off loc).map fun e => homePlace s o.vd home
      e.1.toNat false true).Nodup) ∧
    (∃ (s : State) (id : Nat) (o : Op) (v : VTile), mayLeave s id o .send o.unit = true ∧ arrivesAt s o.tile
      (groupHome o) v = true ∧ (v.box o.prog).length < 64 ∧ o.prog < 4 ∧ s.firstRecv (groupHome o) o.prog = none) ∧
    (∃ (s : State) (id : Nat) (o : Op) (v : VTile), mayLeave s id o .send o.unit = true ∧ arrivesAt s o.tile
      (groupHome o) v = true ∧ 64 ≤ (v.box o.prog).length) ∧
    (∃ (s : State) (id : Nat) (o : Op) (v : VTile) (r : _) (t : Thread) (n : _) (c : _) (pd : _) (gi : _), mayLeave s
      id o .send o.unit = true ∧ arrivesAt s o.tile (groupHome o) v = true ∧ v.box o.prog = [] ∧ o.prog < 4 ∧
      o.poison = false ∧ s.isDet r.l = false ∧ s.firstRecv (groupHome o) o.prog = some (r, t, n, c, pd, gi) ∧
      s.thread? r = some t ∧ t.slot ≠ none ∧ t.evictDue = false ∧ t.stopped = false ∧ r.tile = groupHome o ∧ r ≠
      o.t ∧ (s.lanes.get? r).isNone = true ∧ gi ≠ pd ∧ gi ≠ Reg.hi pd ∧ pd ≠ Reg.hi pd ∧ t.landed.toList.all (fun
      x => decide (x ≤ s.nextId)) = true) ∧
    (∃ (s : State) (id : Nat) (o : Op) (v : VTile), mayLeave s id o .send o.unit = true ∧ s.tile? (groupHome o) = some
      v ∧ v.finished = false ∧ v.place = .absent ∧ s.parkFull (groupHome o) o = false) ∧
    (∃ (s : State) (id : Nat) (o : Op) (v : VTile), mayLeave s id o .send o.unit = true ∧ s.tile? (groupHome o) = some
      v ∧ v.finished = true) ∧
    (∃ (s : State) (m : TileRef) (v : VTile) (id : Nat) (o : Op) (rest : List Nat), s.tile? m = some v ∧ v.place =
      .present ∧ v.finished = false ∧ v.park = id :: rest ∧ s.op? id = some o ∧ o.cls = .send ∧ o.prog < 4 ∧
      (v.box o.prog).length < 64 ∧ o.atStart = false ∧ s.firstRecv m o.prog = none) ∧
    (∃ (s : State) (m : TileRef) (d : Nat) (v u : VTile), s.tile? m = some v ∧ s.tile? ⟨m.l, d⟩ = some u ∧
      v.vttCache.get? d = none) :=
  ⟨⟨at5 ({ op .transfer (.put {} .plain 1 2 3 4) [1, 0xFFFFF, 0xFFFFF, 1] with unit := 1 }), 5,
      { op .transfer (.put {} .plain 1 2 3 4) [1, 0xFFFFF, 0xFFFFF, 1] with unit := 1 }, vt, wt, 0xFFFFF, 0xFFFFF,
      {}, .plain, 1, 2, 4, 3, by and_intros <;> decide +kernel⟩,
   ⟨at5 ({ op .transfer (.get {} 1 2 3 4) [0xFFFFF, 1, 0xFFFFF, 1] with unit := 1 }), 5,
      { op .transfer (.get {} 1 2 3 4) [0xFFFFF, 1, 0xFFFFF, 1] with unit := 1 }, vt, wt, 0xFFFFF, 0xFFFFF, {}, 1,
      2, 3, 4, by and_intros <;> decide +kernel⟩,
   ⟨at5
      ({ op .xfer (.xin {} 1 2 4) [0xFFFFF, 0xFFFF, 0, 0] with data := [1, 0, 0, 0, 1, 0, 0, 0] ++ List.replicate 16 0 }),
      5,
      { op .xfer (.xin {} 1 2 4) [0xFFFFF, 0xFFFF, 0, 0] with data := [1, 0, 0, 0, 1, 0, 0, 0] ++ List.replicate 16 0 },
      vt, 0, 0xFFFF, 0xFFFFF, 0, {}, 1, 2, 4, by and_intros <;> decide +kernel⟩,
   ⟨at5
      ({ op .xfer (.xout {} 1 2 4) [0xFFFFF, 0xFFFF, 0, 0] with data := [1, 0, 0, 0, 1, 0, 0, 0] ++ List.replicate 16 0 }),
      5,
      { op .xfer (.xout {} 1 2 4) [0xFFFFF, 0xFFFF, 0, 0] with data := [1, 0, 0, 0, 1, 0, 0, 0] ++ List.replicate 16 0 },
      vt, 0, 0xFFFF, 0xFFFFF, 0, {}, 1, 2, 4, by and_intros <;> decide +kernel⟩,
   ⟨at5 ({ op .send (.send {} 1 2 0xFF 3) with unit := 1, prog := 3 }) (vt) (t0)
      ({ wt with mbox := Vector.replicate 4 (List.replicate 63 { payload := 0, tag := 0, source := 0 }) }), 5,
      { op .send (.send {} 1 2 0xFF 3) with unit := 1, prog := 3 },
      { wt with mbox := Vector.replicate 4 (List.replicate 63 { payload := 0, tag := 0, source := 0 }) },
      by and_intros <;> decide +kernel⟩,
   ⟨at5 ({ op .send (.send {} 1 2 0xFF 3) with unit := 1, prog := 3 }) (vt) (t0)
      ({ wt with mbox := Vector.replicate 4 (List.replicate 64 { payload := 0, tag := 0, source := 0 }) }), 5,
      { op .send (.send {} 1 2 0xFF 3) with unit := 1, prog := 3 },
      { wt with mbox := Vector.replicate 4 (List.replicate 64 { payload := 0, tag := 0, source := 0 }) },
      by and_intros <;> decide +kernel⟩,
   ⟨{ at5 ({ op .send (.send {} 1 2 0xFF 3) with unit := 1, prog := 3 }) with threads := [(r0, t0), (⟨0, 1, 0⟩, { t0 with run := .recv 3 1 {} 2 4 })] },
      5, { op .send (.send {} 1 2 0xFF 3) with unit := 1, prog := 3 }, wt, ⟨0, 1, 0⟩,
      { t0 with run := .recv 3 1 {} 2 4 }, 1, {}, 2, 4, by and_intros <;> decide +kernel⟩,
   ⟨at5 ({ op .send (.send {} 1 2 0xFF 3) with unit := 1, prog := 3 }) (vt) (t0) ({ wt with place := .absent }), 5,
      { op .send (.send {} 1 2 0xFF 3) with unit := 1, prog := 3 }, { wt with place := .absent },
      by and_intros <;> decide +kernel⟩,
   ⟨at5 ({ op .send (.send {} 1 2 0xFF 3) with unit := 1, prog := 3 }) (vt) (t0) ({ wt with finished := true }), 5,
      { op .send (.send {} 1 2 0xFF 3) with unit := 1, prog := 3 }, { wt with finished := true },
      by and_intros <;> decide +kernel⟩,
   ⟨at5 ({ op .send (.send {} 1 2 0xFF 3) with unit := 1, prog := 3 }) (vt) (t0)
      ({ { wt with mbox := Vector.replicate 4 (List.replicate 63 { payload := 0, tag := 0, source := 0 }) } with park := [5] }),
      m1,
      { { wt with mbox := Vector.replicate 4 (List.replicate 63 { payload := 0, tag := 0, source := 0 }) } with park := [5] },
      5, { op .send (.send {} 1 2 0xFF 3) with unit := 1, prog := 3 }, [], by and_intros <;> decide +kernel⟩,
   ⟨sys t0 {}, m0, 1, {}, wt, by and_intros <;> decide +kernel⟩⟩

theorem witness_RemoteAccesses :
    (∃ (s : State) (id : Nat) (o : Op) (d w off : Nat) (v : VTile) (a : Access) (n : Nat), anyLoad o.ins = some a ∧
      mayLeave s id o .remote d = true ∧ Addr.of o.ea = .remote d w off ∧ s.isDet o.tile.l = false ∧ o.poison =
      false ∧ s.memWf = true ∧ arrivesAt s o.tile ⟨o.tile.l, d⟩ v = true ∧ a.through (v.window w).fmt = some n ∧
      o.ea.toNat % n = 0 ∧ sound s v off n = true) ∧
    (∃ (s : State) (id : Nat) (o : Op) (d w off : Nat) (v : VTile) (a : Access) (rl : Bool) (n : Nat), storeRow o.ins
      = some (a, rl) ∧ mayLeave s id o .remote d = true ∧ Addr.of o.ea = .remote d w off ∧ s.isDet o.tile.l =
      false ∧ o.poison = false ∧ s.memWf = true ∧ arrivesAt s o.tile ⟨o.tile.l, d⟩ v = true ∧ a.through (v.window
      w).fmt = some n ∧ o.ea.toNat % n = 0 ∧ o.data.length = a.n) ∧
    (∃ (s : State) (id : Nat) (o : Op) (d w off : Nat) (v : VTile) (a : AtomicRow), atomicRow o.ins = some a ∧
      mayLeave s id o .remote d = true ∧ Addr.of o.ea = .remote d w off ∧ s.isDet o.tile.l = false ∧ o.poison =
      false ∧ s.memWf = true ∧ arrivesAt s o.tile ⟨o.tile.l, d⟩ v = true ∧ o.ea.toNat % a.n = 0 ∧ sound s v off
      a.n = true) ∧
    (∃ (s : State) (id : Nat) (o : Op) (d w off : Nat) (v : VTile) (a : Access), anyLoad o.ins = some a ∧ mayLeave s
      id o .remote d = true ∧ Addr.of o.ea = .remote d w off ∧ s.isDet o.tile.l = false ∧ o.poison = false ∧
      s.memWf = true ∧ s.tile? ⟨o.tile.l, d⟩ = some v ∧ v.finished = true) :=
  ⟨⟨at5 ({ op .remote (.ldp {} false 10 4 0) with ea := 0x90000010000FFFF8, size := 8 }), 5,
      { op .remote (.ldp {} false 10 4 0) with ea := 0x90000010000FFFF8, size := 8 }, 1, 0, 0xFFFF8, wt, _, 8, rfl,
      by and_intros <;> decide +kernel⟩,
   ⟨at5
      ({ op .remote (.stp {} false 10 4 0) with ea := 0x90000010000FFFF8, size := 8, data := List.replicate 8 0xA5 }),
      5,
      { op .remote (.stp {} false 10 4 0) with ea := 0x90000010000FFFF8, size := 8, data := List.replicate 8 0xA5 },
      1, 0, 0xFFFF8, wt, _, _, 8, rfl, by and_intros <;> decide +kernel⟩,
   ⟨at5
      ({ op .remote (.acas {} .d false 12 4 0) with ea := 0x90000010000FFFF8, size := 8, data := List.replicate 16 0 }),
      5,
      { op .remote (.acas {} .d false 12 4 0) with ea := 0x90000010000FFFF8, size := 8, data := List.replicate 16 0 },
      1, 0, 0xFFFF8, wt, _, rfl, by and_intros <;> decide +kernel⟩,
   ⟨at5 ({ op .remote (.ldp {} false 10 4 0) with ea := 0x90000010000FFFF8, size := 8 }) (vt) (t0)
      ({ wt with finished := true }), 5,
      { op .remote (.ldp {} false 10 4 0) with ea := 0x90000010000FFFF8, size := 8 }, 1, 0, 0xFFFF8,
      { wt with finished := true }, _, rfl, by and_intros <;> decide +kernel⟩⟩

theorem witness_MigrationEvents :
    (∃ (s : State) (r : TRef) (t : Thread) (dest : Nat) (go : Bool) (c : Ctl), s.thread? r = some t ∧ t.run =
      .migrDrain dest go c ∧ s.drained r = true ∧ t.pend = 0 ∧ t.inflight = [] ∧ t.reports = [] ∧ (s.lanes.get?
      r).isNone = true ∧ c.thr.toNat ≤ (t.tokAt c.tok).value ∧ r.v < 2 ^ 24 ∧ s.ops.all (fun e => decide (e.1 <
      s.nextId)) = true ∧ s.threads.all (fun e => decide (e.1.v < 2 ^ 24 + s.nextId)) = true ∧ dest = r.v ∧ go =
      false) ∧
    (∃ (s : State) (r : TRef) (t : Thread) (dest : Nat) (go : Bool) (c : Ctl), s.thread? r = some t ∧ t.run =
      .migrDrain dest go c ∧ s.drained r = true ∧ t.pend = 0 ∧ t.inflight = [] ∧ t.reports = [] ∧ (s.lanes.get?
      r).isNone = true ∧ c.thr.toNat ≤ (t.tokAt c.tok).value ∧ r.v < 2 ^ 24 ∧ s.ops.all (fun e => decide (e.1 <
      s.nextId)) = true ∧ s.threads.all (fun e => decide (e.1.v < 2 ^ 24 + s.nextId)) = true ∧ (dest ≠ r.v ∨ go =
      true)) ∧
    (∃ (s : State) (id : Nat) (o : Op) (t : Thread) (v : VTile) (n : Nat), s.op? id = some o ∧ o.cls = .migrate ∧
      o.phase = .waiting ∧ s.thread? o.t = some t ∧ s.tile? (groupHome o) = some v ∧ s.firstTo id o.tile
      (groupHome o) Op.destVt = true ∧ arrivesAt s o.tile (groupHome o) v = true ∧ o.t ≠ ⟨o.tile.l, o.unit, n⟩ ∧
      o.t.tile ≠ groupHome o ∧ s.ops.all (fun e => decide (e.2.t ≠ ⟨o.tile.l, o.unit, n⟩) && (decide (e.2.t ≠ o.t)
      || decide (e.2.phase ≠ .heldNR))) = true ∧ t.evictable = false ∧ s.thread? ⟨o.tile.l, o.unit, n⟩ = none ∧ n
      < 64 ∧ (if t.lead = true ∧ t.homev.toNat = o.unit ∧ s.thread? ⟨o.tile.l, o.unit, 0⟩ = none then n = 0 else
      (1 ≤ n ∧ ∀ k : Nat, 1 ≤ k → k < n → s.thread? ⟨o.tile.l, o.unit, k⟩ ≠ none) ∨ (n = 0 ∧ ∀ k : Nat, 1 ≤ k → k
      < 64 → s.thread? ⟨o.tile.l, o.unit, k⟩ ≠ none))) ∧
    (∃ (s : State) (id : Nat) (o : Op) (t : Thread) (v : VTile), s.op? id = some o ∧ o.cls = .migrate ∧ o.phase =
      .waiting ∧ s.thread? o.t = some t ∧ s.tile? (groupHome o) = some v ∧ s.firstTo id o.tile (groupHome o)
      Op.destVt = true ∧ v.finished = true) ∧
    (∃ (s : State) (id : Nat) (o : Op) (t : Thread) (v : VTile), s.op? id = some o ∧ o.cls = .migrate ∧ o.phase =
      .waiting ∧ s.thread? o.t = some t ∧ s.tile? (groupHome o) = some v ∧ s.firstTo id o.tile (groupHome o)
      Op.destVt = true ∧ v.finished = false ∧ v.place = .absent ∧ s.parkFull (groupHome o) o = false) ∧
    (∃ (s : State) (r : TRef) (t : Thread) (x : Bool), s.thread? r = some t ∧ t.run = .homeDrain x ∧ s.drained r =
      true ∧ t.pend = 0 ∧ t.inflight = [] ∧ t.reports = [] ∧ r.v < 2 ^ 24 ∧ s.ops.all (fun e => decide (e.1 <
      s.nextId)) = true ∧ s.threads.all (fun e => decide (e.1.v < 2 ^ 24 + s.nextId)) = true) :=
  ⟨⟨sys { t0 with run := .migrDrain 0 false {} }, r0, { t0 with run := .migrDrain 0 false {} }, 0, false, {},
      by and_intros <;> decide +kernel⟩,
   ⟨sys { t0 with run := .migrDrain 1 false {} }, r0, { t0 with run := .migrDrain 1 false {} }, 1, false, {},
      by and_intros <;> decide +kernel⟩,
   ⟨at5 ({ op .migrate (.migr {} 1) with unit := 1 }) (vt) ({ t0 with run := .transit }), 5,
      { op .migrate (.migr {} 1) with unit := 1 }, { t0 with run := .transit }, wt, 1,
      by refine ⟨?_, ?_, ?_, ?_, ?_, ?_, ?_, ?_, ?_, ?_, ?_, ?_, ?_, by rw [if_neg (by decide +kernel)]; exact Or.inl ⟨by decide, fun k a b => absurd a (by omega)⟩⟩ <;> decide +kernel⟩,
   ⟨at5 ({ op .migrate (.migr {} 1) with unit := 1 }) (vt) ({ t0 with run := .transit })
      ({ wt with finished := true }), 5, { op .migrate (.migr {} 1) with unit := 1 }, { t0 with run := .transit },
      { wt with finished := true }, by and_intros <;> decide +kernel⟩,
   ⟨at5 ({ op .migrate (.migr {} 1) with unit := 1 }) (vt) ({ t0 with run := .transit })
      ({ wt with place := .absent }), 5, { op .migrate (.migr {} 1) with unit := 1 }, { t0 with run := .transit },
      { wt with place := .absent }, by and_intros <;> decide +kernel⟩,
   ⟨sys { t0 with run := .homeDrain true }, r0, { t0 with run := .homeDrain true }, true,
      by and_intros <;> decide +kernel⟩⟩

theorem witness_HomeEvents :
    (∃ (s : State) (id : Nat) (o : Op) (home off f : Nat) (a : Access), anyLoad o.ins = some a ∧ Addr.of o.ea = .glob
      home off ∧ translated s o home off = true ∧ homePlace s o.vd home off true false = some f ∧ o.size = a.n ∧
      o.ea.toNat % a.n = 0 ∧ noStores s o = true ∧ s.hist = [] ∧ stands s id o .globalLoad .waiting = true ∧
      o.line = 0) ∧
    (∃ (s : State) (id : Nat) (o : Op) (home off f : Nat) (a : Access), anyLoad o.ins = some a ∧ Addr.of o.ea = .glob
      home off ∧ translated s o home off = true ∧ homePlace s o.vd home off true false = some f ∧ o.size = a.n ∧
      o.ea.toNat % a.n = 0 ∧ noStores s o = true ∧ s.hist = [] ∧ stands s id o .globalLoad .waiting = true ∧
      o.line = 1 ∧ s.cached o.t o.ea.toNat = none ∧ (s.tile? o.tile).isSome = true) ∧
    (∃ (s : State) (id : Nat) (o : Op) (home off f : Nat) (a : Access) (rl : Bool), storeRow o.ins = some (a, rl) ∧
      stands s id o .globalStore .sent = true ∧ o.prog ≠ 2 ∧ Addr.of o.ea = .glob home off ∧ translated s o home
      off = true ∧ homePlace s o.vd home off false true = some f ∧ o.size = a.n ∧ o.data.length = a.n) ∧
    (∃ (s : State) (id : Nat) (o : Op), s.op? id = some o ∧ o.cls = .globalStore ∧ o.phase = .waiting ∧ s.clear o =
      true) ∧
    (∃ (s : State) (id : Nat) (o : Op) (home off f : Nat) (a : AtomicRow), atomicRow o.ins = some a ∧ stands s id o
      .globalAtomic .waiting = true ∧ Addr.of o.ea = .glob home off ∧ translated s o home off = true ∧ homePlace s
      o.vd home off true true = some f ∧ o.size = a.n ∧ noMerge s id = true) ∧
    (∃ (s : State) (id : Nat) (o : Op) (home off : Nat) (a : Access), anyLoad o.ins = some a ∧ stands s id o
      .globalLoad .waiting = true ∧ o.line = 0 ∧ Addr.of o.ea = .glob home off ∧ translated s o home off = false ∧
      s.walksOf home < 256 ∧ s.walks.all (fun e => decide (e.1 < s.nextId)) = true ∧ s.walks.all (fun e =>
      !(decide (e.2.vd = o.vd) && decide (e.2.home = home) && decide (e.2.page = s.pageBase o.vd home off))) =
      true) ∧
    (∃ (s : State) (w id : Nat) (o : Op) (home off : Nat) (a : Access) (f : _), anyLoad o.ins = some a ∧ stands s id o
      .globalLoad (.walking w) = true ∧ Addr.of o.ea = .glob home off ∧ o.size = a.n ∧ o.ea.toNat % a.n = 0 ∧
      noStores s o = true ∧ o.line = 0 ∧ s.hist = [] ∧ s.walks.get? w = some
      { vd := o.vd, home, page := s.pageBase o.vd home off, ops := [id] } ∧ homePlace s o.vd home off true false =
      some f ∧ s.page? o.vd home (s.pageBase o.vd home off) ≠ none) ∧
    (∃ (s : State) (w id : Nat) (o : Op) (home off : Nat) (a : Access), anyLoad o.ins = some a ∧ stands s id o
      .globalLoad (.walking w) = true ∧ Addr.of o.ea = .glob home off ∧ o.size = a.n ∧ o.ea.toNat % a.n = 0 ∧
      noStores s o = true ∧ o.line = 0 ∧ s.hist = [] ∧ s.walks.get? w = some
      { vd := o.vd, home, page := s.pageBase o.vd home off, ops := [id] } ∧ s.page? o.vd home off = none) ∧
    (∃ (s : State) (w id : Nat) (o : Op) (home off : Nat) (a : Access) (p : _), anyLoad o.ins = some a ∧ stands s id o
      .globalLoad (.walking w) = true ∧ Addr.of o.ea = .glob home off ∧ o.size = a.n ∧ o.ea.toNat % a.n = 0 ∧
      noStores s o = true ∧ o.line = 0 ∧ s.hist = [] ∧ s.walks.get? w = some
      { vd := o.vd, home, page := s.pageBase o.vd home off, ops := [id] } ∧ s.page? o.vd home off = some p ∧ p.rd
      = false) ∧
    (∃ (s : State) (w id : Nat) (o : Op) (home off : Nat) (a : Access) (p : _), anyLoad o.ins = some a ∧ stands s id o
      .globalLoad (.walking w) = true ∧ Addr.of o.ea = .glob home off ∧ o.size = a.n ∧ o.ea.toNat % a.n = 0 ∧
      noStores s o = true ∧ o.line = 0 ∧ s.hist = [] ∧ s.walks.get? w = some
      { vd := o.vd, home, page := s.pageBase o.vd home off, ops := [id] } ∧ s.page? o.vd home off = some p ∧ p.rd
      = true ∧ p.remote = none ∧ p.resident = false ∧ (s.launch? o.tile.l).all (fun ln => !ln.dying) = true) ∧
    (∃ (s : State) (id : Nat) (o : Op) (a : AtomicRow), atomicRow o.ins = some a ∧ s.op? id = some o ∧ o.phase = .sent
      ∧ o.prog = 2 ∧ s.isReduce o = true ∧ o.atStart = false ∧ s.loopback o true true = none) ∧
    (∃ (s : State) (id : Nat) (o : Op) (a : AtomicRow) (x : _), atomicRow o.ins = some a ∧ s.op? id = some o ∧ o.phase
      = .sent ∧ o.prog = 2 ∧ s.isReduce o = true ∧ o.atStart = false ∧ s.loopback o true true = some (.nomap, x)) ∧
    (∃ (s : State) (id : Nat) (o : Op) (a : AtomicRow) (q : _) (x : _), atomicRow o.ins = some a ∧ s.op? id = some o ∧
      o.phase = .sent ∧ o.prog = 2 ∧ s.isReduce o = true ∧ o.atStart = false ∧ s.loopback o true true = some (.ok
      q, x) ∧ homesSound s = true ∧ s.hbm.wf = true ∧ q.base ≤ x ∧ o.poison = false ∧ o.size = a.n ∧ noMerge s id
      = true) :=
  ⟨⟨at5 ({ op .globalLoad (.ldp {} false 10 6 0) with ea := 0xFFF8, size := 8 }), 5,
      { op .globalLoad (.ldp {} false 10 6 0) with ea := 0xFFF8, size := 8 }, 0, 0xFFF8, 0xFFF8, _, rfl,
      by and_intros <;> decide +kernel⟩,
   ⟨at5 ({ op .globalLoad (.ldp {} false 10 6 0) with ea := 0xFFF8, size := 8, line := 1 }), 5,
      { op .globalLoad (.ldp {} false 10 6 0) with ea := 0xFFF8, size := 8, line := 1 }, 0, 0xFFF8, 0xFFF8, _, rfl,
      by and_intros <;> decide +kernel⟩,
   ⟨at5
      ({ op .globalStore (.stp {} false 10 6 0) with ea := 0xFFF8, size := 8, data := List.replicate 8 0xA5, phase := .sent }),
      5,
      { op .globalStore (.stp {} false 10 6 0) with ea := 0xFFF8, size := 8, data := List.replicate 8 0xA5, phase := .sent },
      0, 0xFFF8, 0xFFF8, _, _, rfl, by and_intros <;> decide +kernel⟩,
   ⟨at5 ({ op .globalStore (.stp {} false 10 6 0) with ea := 0xFFF8, size := 8 }), 5,
      { op .globalStore (.stp {} false 10 6 0) with ea := 0xFFF8, size := 8 }, by and_intros <;> decide +kernel⟩,
   ⟨at5 ({ op .globalAtomic (.acas {} .d false 12 6 0) with ea := 0xFFF8, size := 8, data := List.replicate 16 0 }),
      5, { op .globalAtomic (.acas {} .d false 12 6 0) with ea := 0xFFF8, size := 8, data := List.replicate 16 0 },
      0, 0xFFF8, 0xFFF8, _, rfl, by and_intros <;> decide +kernel⟩,
   ⟨{ at5 ({ op .globalLoad (.ldp {} false 10 6 0) with ea := 0xFFF8, size := 8 }) with tlb := [] }, 5,
      { op .globalLoad (.ldp {} false 10 6 0) with ea := 0xFFF8, size := 8 }, 0, 0xFFF8, _, rfl,
      by and_intros <;> decide +kernel⟩,
   ⟨{ at5 ({ op .globalLoad (.ldp {} false 10 6 0) with ea := 0xFFF8, size := 8, phase := .walking 3 }) with walks := [(3, { vd := 1, home := 0, page := 0, ops := [5] })] },
      3, 5, { op .globalLoad (.ldp {} false 10 6 0) with ea := 0xFFF8, size := 8, phase := .walking 3 }, 0, 0xFFF8,
      _, 0xFFF8, rfl, by and_intros <;> decide +kernel⟩,
   ⟨{ at5 ({ op .globalLoad (.ldp {} false 10 6 0) with ea := 0xFFF8, size := 8, phase := .walking 3 }) with walks := [(3, { vd := 1, home := 0, page := 0, ops := [5] })], pages := [] },
      3, 5, { op .globalLoad (.ldp {} false 10 6 0) with ea := 0xFFF8, size := 8, phase := .walking 3 }, 0, 0xFFF8,
      _, rfl, by and_intros <;> decide +kernel⟩,
   ⟨{ at5 ({ op .globalLoad (.ldp {} false 10 6 0) with ea := 0xFFF8, size := 8, phase := .walking 3 }) with walks := [(3, { vd := 1, home := 0, page := 0, ops := [5] })], pages := [{ pg with rd := false }] },
      3, 5, { op .globalLoad (.ldp {} false 10 6 0) with ea := 0xFFF8, size := 8, phase := .walking 3 }, 0, 0xFFF8,
      _, { pg with rd := false }, rfl, by and_intros <;> decide +kernel⟩,
   ⟨{ at5 ({ op .globalLoad (.ldp {} false 10 6 0) with ea := 0xFFF8, size := 8, phase := .walking 3 }) with walks := [(3, { vd := 1, home := 0, page := 0, ops := [5] })], pages := [{ pg with resident := false }] },
      3, 5, { op .globalLoad (.ldp {} false 10 6 0) with ea := 0xFFF8, size := 8, phase := .walking 3 }, 0, 0xFFF8,
      _, { pg with resident := false }, rfl, by and_intros <;> decide +kernel⟩,
   ⟨{ at5 ({ op .globalAtomic (.aadd {} .dn false 10 6 0) with ea := 0xFFF8, size := 8, data := List.replicate 8 1, scope := .moduleS, phase := .sent, prog := 2 }) with pages := [{ pg with redwin := true, remote := some (1, 1, 0) }] },
      5,
      { op .globalAtomic (.aadd {} .dn false 10 6 0) with ea := 0xFFF8, size := 8, data := List.replicate 8 1, scope := .moduleS, phase := .sent, prog := 2 },
      _, rfl, by and_intros <;> decide +kernel⟩,
   ⟨{ at5 ({ op .globalAtomic (.aadd {} .dn false 10 6 0) with ea := 0xFFF8, size := 8, data := List.replicate 8 1, scope := .moduleS, phase := .sent, prog := 2 }) with pages := [{ pg with redwin := true, remote := some (0, 1, 0x10000000000000) }] },
      5,
      { op .globalAtomic (.aadd {} .dn false 10 6 0) with ea := 0xFFF8, size := 8, data := List.replicate 8 1, scope := .moduleS, phase := .sent, prog := 2 },
      _, 0xFFF8, rfl, by and_intros <;> decide +kernel⟩,
   ⟨{ at5 ({ op .globalAtomic (.aadd {} .dn false 10 6 0) with ea := 0xFFF8, size := 8, data := List.replicate 8 1, scope := .moduleS, phase := .sent, prog := 2 }) with pages := [{ pg with redwin := true, remote := some (0, 1, 0x10000000000000) }, { pg with home := 1 }] },
      5,
      { op .globalAtomic (.aadd {} .dn false 10 6 0) with ea := 0xFFF8, size := 8, data := List.replicate 8 1, scope := .moduleS, phase := .sent, prog := 2 },
      _, { pg with home := 1 }, 0xFFF8, rfl, by and_intros <;> decide +kernel⟩⟩

theorem witness_PageEvents :
    (∃ (s : State) (id : Nat) (o : Op) (t : Thread), s.op? id = some o ∧ o.phase = .heldNR ∧ o.prog = 0 ∧ (accOf
      o.ins).isSome = true ∧ s.thread? o.t = some t ∧ t.run = .ready ∧ t.inflight = [] ∧ t.slot ≠ none ∧ t.trip =
      [] ∧ (s.updOp id fun o => { o with prog := 1 }).pendClear o.t = true) ∧
    (∃ (s : State) (p : Page), (∀ x, p.size ≤ x → p.saved.read x = 0) ∧ p ∈ s.pages ∧ p.resident = false ∧ s.hbm.wf =
      true ∧ p.saved.wf = true ∧ (∀ q ∈ s.pages, q.vd = p.vd → q.home = p.home → q.base = p.base → q = p) ∧
      s.frameFor p = some p.frame ∧ s.ops.all (fun e => decide (e.2.phase ≠ .heldNR)) = true) ∧
    (∃ (s : State) (p : Page) (id : _) (o : _) (a : _) (off : _), (∀ x, p.size ≤ x → p.saved.read x = 0) ∧ p ∈ s.pages
      ∧ p.resident = false ∧ s.hbm.wf = true ∧ p.saved.wf = true ∧ (∀ q ∈ s.pages, q.vd = p.vd → q.home = p.home →
      q.base = p.base → q = p) ∧ s.frameFor p = some p.frame ∧ stands s id o .globalLoad .heldNR = true ∧
      (s.launch? o.tile.l).all (fun ln => !ln.dying) = true ∧ o.vd = p.vd ∧ Addr.of o.ea = .glob p.home off ∧
      s.page? p.vd p.home off = some p ∧ p.remote = none ∧ p.rd = true ∧ p.base % 65536 = 0 ∧ off + 64 ≤ p.base +
      p.size ∧ s.ops.all (fun e => decide (e.2.phase ≠ .heldNR) || decide (e.1 = id)) = true ∧ anyLoad o.ins =
      some a ∧ o.size = a.n ∧ o.ea.toNat % a.n = 0 ∧ noStores s o = true ∧ o.line = 0 ∧ s.hist = []) ∧
    (∃ (s : State) (p : Page) (m : Move), p ∈ s.pages ∧ s.moves = [m] ∧ m.home = p.home ∧ m.frame = p.frame ∧ p.remote
      = none ∧ s.hbm.wf = true ∧ s.hbmFlips = [] ∧ s.hbmPoison = [] ∧ (∀ q ∈ s.pages, q.vd = p.vd → q.home =
      p.home → q.base = p.base → q = p) ∧ (p.frame + 65536 ≤ m.newFrame ∨ m.newFrame + 65536 ≤ p.frame)) ∧
    (∃ (s : State) (id : Nat) (o : Op) (v : VTile) (c : Ctl) (r : Bool) (ra : Reg) (off : Nat) (l : _), stands s id o
      .copy .waiting = true ∧ s.reportRoom o.t = true ∧ s.tile? o.tile = some v ∧ v.spad.wf = true ∧ o.ins = .copy
      c r ra ∧ handleOf (o.val 0) = some off ∧ o.stamp = 0 ∧ copyInvalid o.copySrc o.copyDst o.copyLen ((o.val
      0).setWidth 64) = none ∧ copyPlaces s o = some l ∧ 0 < o.copyLen ∧ o.copyLen ≤ 65536 ∧ o.parts = [] ∧ o.got
      = none ∧ o.line = 1 ∧ s.hist = [] ∧ (l.map Prod.snd).Nodup ∧ (∀ e ∈ l, e.1 ∉ l.map Prod.snd)) ∧
    (∃ (s : State) (id : Nat) (o : Op) (v : VTile) (c : Ctl) (r : Bool) (ra : Reg) (off : Nat), stands s id o .copy
      .waiting = true ∧ s.reportRoom o.t = true ∧ s.tile? o.tile = some v ∧ v.spad.wf = true ∧ o.ins = .copy c r
      ra ∧ handleOf (o.val 0) = some off ∧ o.stamp = 0 ∧ copyInvalid o.copySrc o.copyDst o.copyLen ((o.val
      0).setWidth 64) = none ∧ o.unitsLeft = [] ∧ o.line = 1 ∧ o.fault = none) :=
  ⟨⟨at5 ({ op .globalLoad (.ldp {} false 10 6 0) with phase := .heldNR }), 5,
      { op .globalLoad (.ldp {} false 10 6 0) with phase := .heldNR }, t0, by and_intros <;> decide +kernel⟩,
   ⟨{ sys t0 with pages := [{ pg with resident := false }] }, { pg with resident := false }, fun _ _ => rfl,
      by and_intros <;> decide +kernel⟩,
   ⟨{ at5 ({ op .globalLoad (.ld {} .w false 10 6 0) with phase := .heldNR, ea := 0xFFC0, size := 4 }) with pages := [{ pg with resident := false }] },
      { pg with resident := false }, 5,
      { op .globalLoad (.ld {} .w false 10 6 0) with phase := .heldNR, ea := 0xFFC0, size := 4 }, ⟨{}, false, 10,
      6, 0, 4, false⟩, 0xFFC0, fun _ _ => rfl, by and_intros <;> first | decide +kernel | rfl⟩,
   ⟨{ sys t0 with moves := [{ vd := 1, home := 0, base := 0, frame := 0, newFrame := 65536 }] }, pg,
      { vd := 1, home := 0, base := 0, frame := 0, newFrame := 65536 }, by and_intros <;> decide +kernel⟩,
   ⟨at5
      ({ op .copy (.copy {} false 1) [0xFFFC0] with data := [0xF0, 0xFF, 0, 0, 0, 0, 0, 0, 0xF8, 0xFF, 0, 0, 0, 0, 0, 0, 8, 0, 0, 0, 0, 0, 0, 0], line := 1 }),
      5,
      { op .copy (.copy {} false 1) [0xFFFC0] with data := [0xF0, 0xFF, 0, 0, 0, 0, 0, 0, 0xF8, 0xFF, 0, 0, 0, 0, 0, 0, 8, 0, 0, 0, 0, 0, 0, 0], line := 1 },
      vt, {}, false, 1, 0xFFFC0, (List.range 8).map fun i => (0xFFF0 + i, 0xFFF8 + i),
      by and_intros <;> decide +kernel⟩,
   ⟨at5
      ({ op .copy (.copy {} false 1) [0xFFFC0] with data := [0xF0, 0xFF, 0, 0, 0, 0, 0, 0, 0xF8, 0xFF, 0, 0, 0, 0, 0, 0, 8, 0, 0, 0, 0, 0, 0, 0], line := 1, parts := [(0, 1)] }),
      5,
      { op .copy (.copy {} false 1) [0xFFFC0] with data := [0xF0, 0xFF, 0, 0, 0, 0, 0, 0, 0xF8, 0xFF, 0, 0, 0, 0, 0, 0, 8, 0, 0, 0, 0, 0, 0, 0], line := 1, parts := [(0, 1)] },
      vt, {}, false, 1, 0xFFFC0, by and_intros <;> decide +kernel⟩⟩

theorem witness_LaunchEvents :
    (∃ (s : State) (vd q : Nat) (d : List Byte), q < 3 ∧ (s.vds.get? vd).isSome = true ∧ (queueOf s vd q).qbase ≠ 0 ∧
      (queueOf s vd q).qhead ≠ (queueOf s vd q).tail ∧ inPage s vd (entryAt (queueOf s vd q)) 256 true false =
      true ∧ s.moves = [] ∧ globalBytes s vd (entryAt (queueOf s vd q)) 256 = some d ∧ s.crecOk vd (BitVec.ofNat
      64 (blockField d 0x38 8)) = false) ∧
    (∃ (s : State) (vd q : Nat) (d : List Byte), q < 3 ∧ (s.vds.get? vd).isSome = true ∧ (queueOf s vd q).qbase ≠ 0 ∧
      (queueOf s vd q).qhead ≠ (queueOf s vd q).tail ∧ inPage s vd (entryAt (queueOf s vd q)) 256 true false =
      true ∧ s.moves = [] ∧ globalBytes s vd (entryAt (queueOf s vd q)) 256 = some d ∧ s.crecOk vd (BitVec.ofNat
      64 (blockField d 0x38 8)) = true ∧ s.blockRejected vd d (blockOf d) = true ∧ s.launches.all (fun e => decide
      (e.1 < s.nextLaunch)) = true) ∧
    (∃ (s : State) (vd q : Nat) (d : List Byte), q < 3 ∧ (s.vds.get? vd).isSome = true ∧ (queueOf s vd q).qbase ≠ 0 ∧
      (queueOf s vd q).qhead ≠ (queueOf s vd q).tail ∧ inPage s vd (entryAt (queueOf s vd q)) 256 true false =
      true ∧ s.moves = [] ∧ globalBytes s vd (entryAt (queueOf s vd q)) 256 = some d ∧ s.crecOk vd (BitVec.ofNat
      64 (blockField d 0x38 8)) = true ∧ s.blockRejected vd d (blockOf d) = false ∧ (s.acceptOk vd q d (blockOf
      d)).isSome = true ∧ s.launches.all (fun e => decide (e.1 < s.nextLaunch)) = true) ∧
    (∃ (s : State) (l i : Nat) (ln : Launch), s.launch? l = some ln ∧ homesSound s = true ∧ s.hbm.wf = true ∧ ln.phase
      = .copyList i ∧ ln.blk.ncopy ≤ i ∧ s.entryOf l = none) ∧
    (∃ (s : State) (l : Nat) (ln : Launch) (id : _) (o : _) (bs : List Byte), s.launch? l = some ln ∧ homesSound s =
      true ∧ s.hbm.wf = true ∧ ln.phase = .imageCopy ∧ s.entryOf l = some (id, o) ∧ startedAs o (imageOp l ln.vd
      ln.blk) ∧ ln.image = [] ∧ s.hist = [] ∧ inPage s ln.vd ln.blk.image ln.blk.imglen true false = true ∧
      ln.blk.imglen % 8 = 0 ∧ ln.blk.imglen ≤ 2 ^ 20 ∧ globalBytes s ln.vd ln.blk.image ln.blk.imglen = some bs ∧
      ln.blk.image.toNat % 8 = 0) ∧
    (∃ (s : State) (l i : Nat) (ln : Launch) (d : _), s.launch? l = some ln ∧ homesSound s = true ∧ s.hbm.wf = true ∧
      ln.phase = .copyList i ∧ i < ln.blk.ncopy ∧ s.entryOf l = none ∧ inPage s ln.vd (ln.blk.copyl + BitVec.ofNat
      64 (32 * i)) 32 true false = true ∧ globalBytes s ln.vd (ln.blk.copyl + BitVec.ofNat 64 (32 * i)) 32 = some
      d ∧ s.entryInvalid ln (entryOp l ln.vd d).copySrc (entryOp l ln.vd d).copyDst (entryOp l ln.vd d).copyLen =
      none) ∧
    (∃ (s : State) (l i : Nat) (ln : Launch) (d : _) (c : _), s.launch? l = some ln ∧ homesSound s = true ∧ s.hbm.wf =
      true ∧ ln.phase = .copyList i ∧ i < ln.blk.ncopy ∧ s.entryOf l = none ∧ inPage s ln.vd (ln.blk.copyl +
      BitVec.ofNat 64 (32 * i)) 32 true false = true ∧ globalBytes s ln.vd (ln.blk.copyl + BitVec.ofNat 64 (32 *
      i)) 32 = some d ∧ s.entryInvalid ln (entryOp l ln.vd d).copySrc (entryOp l ln.vd d).copyDst (entryOp l ln.vd
      d).copyLen = some c) ∧
    (∃ (s : State) (l i : Nat) (ln : Launch) (id : _) (o : _) (d : _) (ps : _), s.launch? l = some ln ∧ homesSound s =
      true ∧ s.hbm.wf = true ∧ ln.phase = .copyList i ∧ s.entryOf l = some (id, o) ∧ startedAs o (entryOp l ln.vd
      d) ∧ s.hist = [] ∧ s.entryInvalid ln o.copySrc o.copyDst o.copyLen = none ∧ copyPlaces s o = some ps ∧
      (ps.map Prod.snd).Nodup ∧ (∀ e ∈ ps, e.1 ∉ ps.map Prod.snd)) ∧
    (∃ (s : State) (l home off f : Nat) (ln : Launch), s.launch? l = some ln ∧ ln.phase = .placing ∧ ln.allFinished =
      true ∧ s.hbm.wf = true ∧ homesSound s = true ∧ s.ops.all (fun e => decide (e.2.tile.l ≠ l)) = true ∧ ln.esc
      = none ∧ ln.lpbPage = false ∧ Addr.of ln.blk.crec = .glob home off ∧ inPage s ln.vd ln.blk.crec 64 false
      false = true ∧ ln.blk.crec.toNat % 64 = 0 ∧ homePlace s ln.vd home off false false = some f) :=
  ⟨⟨{ sys t0 with vds := [(1, { en := true, weight := 1, effWeight := 1, queues := Vector.replicate 4 { qbase := 0x1000, qhead := 0xFFFFFFFF, tail := 0 } })], hbm := [(0x7, 0xFF), (0x1F38, 0x1)] },
      1, 2, (List.range 256).map fun i => if i = 0x38 then 0x1 else 0, by and_intros <;> decide +kernel⟩,
   ⟨{ sys t0 with vds := [(1, { en := true, weight := 1, effWeight := 1, queues := Vector.replicate 4 { qbase := 0x1000, qhead := 0xFFFFFFFF, tail := 0 } })], hbm := [(0x7, 0xFF), (0x1F38, 0x40)] },
      1, 2, (List.range 256).map fun i => if i = 0x38 then 0x40 else 0, by and_intros <;> decide +kernel⟩,
   ⟨{ sys t0 with vds := [(1, { en := true, weight := 1, effWeight := 1, queues := Vector.replicate 4 { qbase := 0x1000, qhead := 0xFFFFFFFF, tail := 0 } })], hbm := [(0x7, 0xFF), (0x1F08, 0x1), (0x1F10, 0x1), (0x1F12, 0x1)] },
      1, 2, (List.range 256).map fun i => if i = 0x8 then 0x1 else if i = 0x10 then 0x1 else if i = 0x12 then 0x1
      else 0,
      by exact ⟨by decide, by decide +kernel, by decide +kernel, by decide +kernel, by decide +kernel, by decide +kernel, by decide +kernel, by decide +kernel, by decide +kernel, accepts _ _ _ _ _ rfl rfl rfl rfl, by decide +kernel⟩⟩,
   ⟨{ sys t0 with launches := [(0, { ln with phase := .copyList 0 })] }, 0, 0, { ln with phase := .copyList 0 },
      by and_intros <;> decide +kernel⟩,
   ⟨{ sys t0 with launches := [(0, { ln with phase := .imageCopy, blk := { bk with image := 0xFFF8, imglen := 8 } })], ops := [(5, imageOp 0 1 { bk with image := 0xFFF8, imglen := 8 })] },
      0, { ln with phase := .imageCopy, blk := { bk with image := 0xFFF8, imglen := 8 } }, 5, imageOp 0 1
      { bk with image := 0xFFF8, imglen := 8 }, List.replicate 8 0, by and_intros <;> first | decide +kernel | rfl⟩,
   ⟨{ sys t0 with launches := [(0, { ln with phase := .copyList 63, blk := { bk with ncopy := 64, copyl := 0x2820 } })], hbm := [(0x3000, 0xF0), (0x3001, 0xFF), (0x3008, 0xF8), (0x3009, 0xFF), (0x3010, 8)] },
      0, 63, { ln with phase := .copyList 63, blk := { bk with ncopy := 64, copyl := 0x2820 } }, [0xF0, 0xFF, 0, 0,
      0, 0, 0, 0, 0xF8, 0xFF, 0, 0, 0, 0, 0, 0, 8, 0, 0, 0, 0, 0, 0, 0, 0, 0, 0, 0, 0, 0, 0, 0],
      by and_intros <;> decide +kernel⟩,
   ⟨{ sys t0 with launches := [(0, { ln with phase := .copyList 63, blk := { bk with ncopy := 64, copyl := 0x2820 } })], hbm := [(0x3000, 0xF0), (0x3001, 0xFF), (0x3008, 0xF8), (0x3009, 0xFF), (0x3010, 7)] },
      0, 63, { ln with phase := .copyList 63, blk := { bk with ncopy := 64, copyl := 0x2820 } }, [0xF0, 0xFF, 0, 0,
      0, 0, 0, 0, 0xF8, 0xFF, 0, 0, 0, 0, 0, 0, 7, 0, 0, 0, 0, 0, 0, 0, 0, 0, 0, 0, 0, 0, 0, 0], 0x40,
      by and_intros <;> decide +kernel⟩,
   ⟨{ sys t0 with launches := [(0, { ln with phase := .copyList 63, blk := { bk with ncopy := 64, copyl := 0x2820 } })], hbm := [(0x3000, 0xF0), (0x3001, 0xFF), (0x3008, 0xF8), (0x3009, 0xFF), (0x3010, 8)], ops := [(5, entryOp 0 1 ([0xF0, 0xFF, 0, 0, 0, 0, 0, 0, 0xF8, 0xFF, 0, 0, 0, 0, 0, 0, 8, 0, 0, 0, 0, 0, 0, 0, 0, 0, 0, 0, 0, 0, 0, 0]))] },
      0, 63, { ln with phase := .copyList 63, blk := { bk with ncopy := 64, copyl := 0x2820 } }, 5, entryOp 0 1
      ([0xF0, 0xFF, 0, 0, 0, 0, 0, 0, 0xF8, 0xFF, 0, 0, 0, 0, 0, 0, 8, 0, 0, 0, 0, 0, 0, 0, 0, 0, 0, 0, 0, 0, 0,
      0]), [0xF0, 0xFF, 0, 0, 0, 0, 0, 0, 0xF8, 0xFF, 0, 0, 0, 0, 0, 0, 8, 0, 0, 0, 0, 0, 0, 0, 0, 0, 0, 0, 0, 0,
      0, 0], (List.range 8).map fun i => (0xFFF0 + i, 0xFFF8 + i), by and_intros <;> first | decide +kernel | rfl⟩,
   ⟨{ sys (th []) with launches := [(0, { ln with blk := { bk with crec := 0xFFC0 }, gangs := [(0, { st := .finished })] })] },
      0, 0, 0xFFC0, 0xFFC0, { ln with blk := { bk with crec := 0xFFC0 }, gangs := [(0, { st := .finished })] },
      by and_intros <;> decide +kernel⟩⟩

theorem witness_GangEvents :
    (∃ (s : State) (l g f : Nat) (ln : Launch) (ts : List Nat), placedOn s l g f ln ts = true ∧ (ln.gang g).st =
      .unstarted) ∧
    (∃ (s : State) (l g f : Nat) (ln : Launch) (ts : List Nat), placedOn s l g f ln ts = true ∧ (ln.gang g).st =
      .swapped) ∧
    (∃ (s : State) (l g : Nat) (ln : Launch), s.launch? l = some ln ∧ (ln.gangs.get? g).isSome = true ∧ (s.gangMembers
      l g).all (fun m => (s.tile? m).isSome) = true ∧ (ln.gang g).st = .resident ∧ s.swapChosen l g ln = true ∧
      s.vatFree l g = true ∧ (s.lanes.all fun e => decide (e.1.l ≠ l)) = true) ∧
    (∃ (s : State) (l g : Nat) (ln : Launch), s.launch? l = some ln ∧ (ln.gangs.get? g).isSome = true ∧ (s.gangMembers
      l g).all (fun m => (s.tile? m).isSome) = true ∧ (ln.gang g).st = .swapping ∧ s.swapDrained l g = true) ∧
    (∃ (s : State) (l g : Nat) (ln : Launch), s.launch? l = some ln ∧ (ln.gangs.get? g).isSome = true ∧ (s.gangMembers
      l g).all (fun m => (s.tile? m).isSome) = true ∧ (ln.gang g).st = .resident ∧ (ln.gang g).since + 2 ^ 20 ≤
      s.cycle ∧ (s.vdRec ln.vd).capped = true) ∧
    (∃ (s : State) (l src dst : Nat) (ln : Launch) (run : List Nat), s.launch? l = some ln ∧ ln.phase = .placing ∧
      ln.runs.get? src = some run ∧ ln.runs.get? dst = some [] ∧ src ≠ dst ∧ ln.donor = some src ∧ (s.poolRec
      (s.vdRec ln.vd).pool).hasField dst = true ∧ (s.freeRun (s.poolRec (s.vdRec ln.vd).pool) dst (ln.blk.gangSize
      ((run.drop (run.length / 2)).headD 0))).isSome = true) ∧
    (∃ (s : State) (l c n : Nat) (ln : Launch) (r : TRef) (t : Thread) (la : Lane) (k : Chunk), turnOf s l ln r t la k
      c n = true ∧ (la.reruns = true ∨ s.conflict r ln k = none) ∧ k.buffered = [] ∧ t.run = .ready) ∧
    (∃ (s : State) (l c n : Nat) (ln : Launch) (r : TRef) (t : Thread) (la : Lane) (k : Chunk) (w : _), turnOf s l ln
      r t la k c n = true ∧ la.reruns = false ∧ s.conflict r ln k = some w) :=
  ⟨⟨{ sys t0 vt [] { region := true } with launches := [(0, { ln with gangs := [(0, { st := .resident }), (1, { st := .unstarted, first := 1 })], runs := [(0, [1])] })], pools := [(0, { rows := 0xF, wsn := 1, choice := some (0, 1, 0) })] },
      0, 1, 0,
      { ln with gangs := [(0, { st := .resident }), (1, { st := .unstarted, first := 1 })], runs := [(0, [1])] },
      [1], by and_intros <;> decide +kernel⟩,
   ⟨{ sys t0 vt [] { region := true } with launches := [(0, { ln with gangs := [(0, { st := .resident }), (1, { st := .swapped, first := 1 })], summon := [1] })], pools := [(0, { rows := 0xF, wsn := 1, choice := some (0, 1, 0) })] },
      0, 1, 0, { ln with gangs := [(0, { st := .resident }), (1, { st := .swapped, first := 1 })], summon := [1] },
      [1], by and_intros <;> decide +kernel⟩,
   ⟨{ sys t0 { vt with region := true } with launches := [(0, { ln with gangs := [(0, { st := .resident, preempt := true })] })] },
      0, 0, { ln with gangs := [(0, { st := .resident, preempt := true })] }, by and_intros <;> decide +kernel⟩,
   ⟨{ sys t0 with launches := [(0, { ln with gangs := [(0, { st := .swapping })] })] }, 0, 0,
      { ln with gangs := [(0, { st := .swapping })] }, by and_intros <;> decide +kernel⟩,
   ⟨{ sys t0 with cycle := 2 ^ 20, vds := [(1, { capped := true })] }, 0, 0, ln, by and_intros <;> decide +kernel⟩,
   ⟨{ sys t0 with launches := [(0, { ln with runs := [(0, [0, 1]), (1, [])] })], pools := [(0, { rows := 0x1000F })] },
      0, 0, 1, { ln with runs := [(0, [0, 1]), (1, [])] }, [0, 1], by and_intros <;> decide +kernel⟩,
   ⟨{ sys { t0 with lane := 0 } with launches := [(0, { ln with blk := { bk with det := true, chunk := 128 }, turnWrites := [] })], lanes := [(r0, { chunks := [{ snap := { t0 with lane := 0 }, retired := 128, cut := .count }] })] },
      0, 0, 0, { ln with blk := { bk with det := true, chunk := 128 }, turnWrites := [] }, r0,
      { t0 with lane := 0 }, { chunks := [{ snap := { t0 with lane := 0 }, retired := 128, cut := .count }] },
      { snap := { t0 with lane := 0 }, retired := 128, cut := .count }, by and_intros <;> decide +kernel⟩,
   ⟨{ sys { t0 with lane := 0 } with launches := [(0, { ln with blk := { bk with det := true, chunk := 128 }, turnWrites := [(1, 0x40, 8)] })], lanes := [(r0, { chunks := [{ snap := { t0 with lane := 0 }, retired := 128, cut := .count, reads := [0x40] }] })] },
      0, 0, 0, { ln with blk := { bk with det := true, chunk := 128 }, turnWrites := [(1, 0x40, 8)] }, r0,
      { t0 with lane := 0 },
      { chunks := [{ snap := { t0 with lane := 0 }, retired := 128, cut := .count, reads := [0x40] }] },
      { snap := { t0 with lane := 0 }, retired := 128, cut := .count, reads := [0x40] }, (0x40, 8),
      by and_intros <;> decide +kernel⟩⟩

theorem witness_TenancyEvents :
    (∃ (s : State) (vd : Nat) (d : Vd), s.vds.get? vd = some d ∧ d.effCap * s.liveOf (s.poolRec d.pool) * 2 ^ 24 / 100
      ≤ s.usedNow vd) ∧
    (∃ (s : State) (pool : Nat), distinct s = true ∧ s.choiceStands pool = false ∧ (s.pools.get? pool).isSome = true) ∧
    (∃ (s : State) (l g : Nat) (ln : Launch) (x : Gang), distinct s = true ∧ s.launch? l = some ln ∧ ln.gangs.get? g =
      some x ∧ s.preemptTarget l = some g) ∧
    (∃ (s : State) (l g : Nat) (ln : Launch) (x : Gang), distinct s = true ∧ s.launch? l = some ln ∧ ln.gangs.get? g =
      some x ∧ s.preemptTarget l = some g) ∧
    (∃ (s : State) (vd home base size frame : Nat) (rd wr res : Bool), s.input = .page (.map vd home base size frame
      rd wr res) ∧ vd < 512 ∧ home < 64 ∧ pageSizeOk base size = true ∧ s.unmapped vd home base size = true ∧
      frame % 65536 = 0 ∧ s.frameFree home frame size = true ∧ (rd = true ∨ wr = true)) ∧
    (∃ (s : State) (vd home base : Nat) (rd wr : Bool) (q : PageReq), s.input = .page q ∧ (q = .unmap vd home base ∨ q
      = .rights vd home base rd wr ∨ q = .evict vd home base) ∧ s.pageBusy vd home base = true) ∧
    (∃ (s : State) (vd home base : Nat) (rd wr : Bool) (q : PageReq) (p : _), s.input = .page q ∧ (q = .unmap vd home
      base ∨ q = .rights vd home base rd wr ∨ q = .evict vd home base) ∧ s.pageBusy vd home base = false ∧ p ∈
      s.pages ∧ p.vd = vd ∧ p.home = home ∧ p.base = base ∧ (∀ x ∈ s.pages, x.vd = vd → x.home = home → x.base =
      base → x = p)) :=
  ⟨⟨{ sys t0 with vds := [(1, { en := true, weight := 1, effCap := 0 })] }, 1,
      { en := true, weight := 1, effCap := 0 }, by and_intros <;> decide +kernel⟩,
   ⟨sys t0, 0, by and_intros <;> decide +kernel⟩,
   ⟨{ sys t0 with cycle := 2 ^ 20, launches := [(0, { ln with gangs := [(0, { st := .resident })] }), (1, { ln with vd := 2, blk := { bk with heavy := 641 }, gangs := [(0, {})], runs := [(0, [0])] })], vds := [(1, { en := true, effWeight := 1 }), (2, { en := true, effWeight := 1, owed := true })] },
      0, 0, { ln with gangs := [(0, { st := .resident })] }, { st := .resident }, by and_intros <;> decide +kernel⟩,
   ⟨{ sys t0 with cycle := 2 ^ 20, launches := [(0, { ln with gangs := [(0, { st := .resident })] }), (1, { ln with vd := 2, blk := { bk with heavy := 641 }, gangs := [(0, {})], runs := [(0, [0])] })], vds := [(1, { en := true, effWeight := 1 }), (2, { en := true, effWeight := 1, owed := true })] },
      0, 0, { ln with gangs := [(0, { st := .resident })] }, { st := .resident }, by and_intros <;> decide +kernel⟩,
   ⟨{ sys t0 with input := .page (.map 511 63 0xFFFFFFFFF0000 65536 0xFFBFF0000 true false true) }, 511, 63,
      0xFFFFFFFFF0000, 65536, 0xFFBFF0000, true, false, true, by and_intros <;> decide +kernel⟩,
   ⟨{ sys t0 with input := .page (.evict 1 0 0), walks := [(3, { vd := 1, home := 0, page := 0 })] }, 1, 0, 0, false,
      false, .evict 1 0 0, by and_intros <;> first | decide +kernel | exact Or.inr (Or.inr rfl)⟩,
   ⟨{ sys t0 with input := .page (.evict 1 0 0) }, 1, 0, 0, false, false, .evict 1 0 0, pg,
      by and_intros <;> first | decide +kernel | exact Or.inr (Or.inr rfl)⟩⟩

theorem witness_ModuleEvents :
    (∃ (s : State) (f : Fin 64) (sensor val : Nat) (_h : sensor < 16), s.input = .temp f sensor val ∧ val < 256) ∧
    (∃ (s : State) (f : Fin 64) (sensor val : Nat), s.input = .temp f sensor val ∧ val < 256 ∧ sensor = 16) ∧
    (∃ (s : State) (f : Fin 64) (vals : List Nat), s.input = .ring f vals ∧ vals.length = 4) ∧
    (∃ (s : State), (∀ e ∈ s.agenda, ∀ u n, e.2 ≠ .unitRetire u n)) :=
  ⟨⟨{ State.reset with input := .temp 63 15 255 }, 63, 15, 255, by decide, by and_intros <;> decide +kernel⟩,
   ⟨{ State.reset with input := .temp 63 16 255 }, 63, 16, 255, by and_intros <;> decide +kernel⟩,
   ⟨{ State.reset with input := .ring 63 [1, 2, 3, 4] }, 63, [1, 2, 3, 4], by and_intros <;> decide +kernel⟩,
   ⟨{ State.reset with agenda := [] }, by exact fun _ h => nomatch h⟩⟩

theorem witness_KillAndErrorEvents :
    (∃ (s : State) (vd : Nat) (lid : Word), reached s = true ∧ s.input = .kill vd lid ∧ distinct s = true ∧ (∀ e ∈
      s.launches, e.2.vd = vd → e.2.blk.lid = lid → e.2.phase = .ended)) ∧
    (∃ (s : State) (vd : Nat) (lid : Word) (l : _) (ln : Launch), reached s = true ∧ s.input = .kill vd lid ∧ distinct
      s = true ∧ s.launch? l = some ln ∧ ln.vd = vd ∧ ln.blk.lid = lid ∧ ln.dying = false ∧ (∀ e ∈ s.launches,
      e.2.vd = vd → e.2.blk.lid = lid → e.2.phase ≠ .ended → e.1 = l)) ∧
    (∃ (s : State) (vd : Nat) (lid : Word) (d : Vd), reached s = true ∧ s.input = .kill vd lid ∧ distinct s = true ∧
      s.vds.get? vd = some d ∧ (s.ops.all fun e => decide (e.2.cls ≠ .launchQ)) = true) ∧
    (∃ (s : State) (l : Nat) (ln : Launch), s.launch? l = some ln ∧ ln.phase = .killFlood) ∧
    (∃ (s : State) (l : Nat) (ln : Launch) (c : _), s.launch? l = some ln ∧ ln.phase = .killSweep c ∧ (∀ e ∈ s.vtiles,
      e.1.l = l → e.2.copies = []) ∧ s.entryOf l = none) ∧
    (∃ (s : State) (l : Nat) (ln : Launch) (c : _) (home : _) (off : _) (f : _), s.launch? l = some ln ∧ ln.phase =
      .killConfirm c ∧ s.hbm.wf = true ∧ homesSound s = true ∧ ln.esc = none ∧ ln.lpbPage = false ∧ Addr.of
      ln.blk.crec = .glob home off ∧ inPage s ln.vd ln.blk.crec 64 false false = true ∧ ln.blk.crec.toNat % 64 = 0
      ∧ homePlace s ln.vd home off false false = some f) ∧
    (∃ (s : State) (u : StoreUnit) (m : DWord) (v : _) (t : _) (off : _), s.bootState = 1 ∧ s.input = .upset u m ∧ m ≠
      0 ∧ u = .spad v off ∧ s.tile? v = some t) ∧
    (∃ (s : State) (u : StoreUnit) (m : DWord) (h : _) (off : _), s.bootState = 1 ∧ s.input = .upset u m ∧ m ≠ 0 ∧ u =
      .hbm h off) ∧
    (∃ (s : State) (u : StoreUnit) (m : DWord) (r : _) (t : _) (ln : Launch), s.bootState = 1 ∧ s.input = .upset u m ∧
      m ≠ 0 ∧ u = .ctx r ∧ s.thread? r = some t ∧ s.launch? r.l = some ln ∧ nFlips m = 1) ∧
    (∃ (s : State) (u : StoreUnit) (m : DWord) (r : _) (t : _) (ln : Launch), s.bootState = 1 ∧ s.input = .upset u m ∧
      m ≠ 0 ∧ u = .ctx r ∧ s.thread? r = some t ∧ s.launch? r.l = some ln ∧ 2 ≤ nFlips m ∧ ln.dying = false) ∧
    (∃ (s : State) (h off : Nat), s.bootState = 1 ∧ s.input = .unit (.hbm h off) ∧ off < 2 ^ 36 ∧ flipsAt s.hbmFlips
      (hbmKey h (off / 8 * 8)) = 0) ∧
    (∃ (s : State) (h off : Nat), s.bootState = 1 ∧ s.input = .unit (.hbm h off) ∧ off < 2 ^ 36 ∧ nFlips (flipsAt
      s.hbmFlips (hbmKey h (off / 8 * 8))) = 1) ∧
    (∃ (s : State) (h off : Nat), s.bootState = 1 ∧ s.input = .unit (.hbm h off) ∧ off < 2 ^ 36 ∧ 2 ≤ nFlips (flipsAt
      s.hbmFlips (hbmKey h (off / 8 * 8)))) ∧
    (∃ (s : State), s.bootState = 1 ∧ distinct s = true) ∧
    (∃ (s : State) (u : RetUnit), s.bootState = 1 ∧ RetUnit.ok u = true ∧ s.recorded u = false ∧ s.mordant.recs.length
      < 2 ^ 20 ∧ s.epoch < 4096) :=
  ⟨⟨{ sys t0 with input := .kill 511 0 }, 511, 0, by and_intros <;> decide +kernel⟩,
   ⟨{ sys t0 with input := .kill 1 0 }, 1, 0, 0, ln, by and_intros <;> decide +kernel⟩,
   ⟨{ sys t0 with input := .kill 1 0 }, 1, 0, { en := true, weight := 1, effWeight := 1 },
      by and_intros <;> decide +kernel⟩,
   ⟨{ sys t0 with launches := [(0, { ln with phase := .killFlood })] }, 0, { ln with phase := .killFlood },
      by and_intros <;> decide +kernel⟩,
   ⟨{ sys t0 with launches := [(0, { ln with phase := .killSweep 9 })] }, 0, { ln with phase := .killSweep 9 }, 9,
      by and_intros <;> decide +kernel⟩,
   ⟨{ sys t0 with launches := [(0, { ln with phase := .killConfirm 9, blk := { bk with crec := 0xFFC0 } })] }, 0,
      { ln with phase := .killConfirm 9, blk := { bk with crec := 0xFFC0 } }, 9, 0, 0xFFC0, 0xFFC0,
      by and_intros <;> decide +kernel⟩,
   ⟨{ sys t0 with input := .upset (.spad m0 0xFFFF8) 0x8000000000000000 }, .spad m0 0xFFFF8, 0x8000000000000000, m0,
      vt, 0xFFFF8, by and_intros <;> decide +kernel⟩,
   ⟨{ sys t0 with input := .upset (.hbm 63 0xFFFFFFFF8) 0x8000000000000000 }, .hbm 63 0xFFFFFFFF8, 0x8000000000000000,
      63, 0xFFFFFFFF8, by and_intros <;> decide +kernel⟩,
   ⟨{ sys t0 with input := .upset (.ctx r0) 0x8000000000000000 }, .ctx r0, 0x8000000000000000, r0, t0, ln,
      by and_intros <;> decide +kernel⟩,
   ⟨{ sys t0 with input := .upset (.ctx r0) 0x8000000000000001 }, .ctx r0, 0x8000000000000001, r0, t0, ln,
      by and_intros <;> decide +kernel⟩,
   ⟨{ State.reset with input := .unit (.hbm 63 0xFFFFFFFFF) }, 63, 0xFFFFFFFFF, by and_intros <;> decide +kernel⟩,
   ⟨{ State.reset with input := .unit (.hbm 63 0xFFFFFFFFF), hbmFlips := [(hbmKey 63 0xFFFFFFFF8, 0x8000000000000000)] },
      63, 0xFFFFFFFFF, by and_intros <;> decide +kernel⟩,
   ⟨{ State.reset with input := .unit (.hbm 63 0xFFFFFFFFF), hbmFlips := [(hbmKey 63 0xFFFFFFFF8, 0x8000000000000001)] },
      63, 0xFFFFFFFFF, by and_intros <;> decide +kernel⟩,
   ⟨sys t0, by and_intros <;> decide +kernel⟩,
   ⟨{ State.reset with epoch := 4095 }, ⟨8, 63, 0⟩, by and_intros <;> decide +kernel⟩⟩

theorem witness_LinkEvents :
    (∃ (s : State) (i : Fin 64) (flit : List Byte) (f : _), s.bootState = 1 ∧ s.ports[i].width ≠ 0 ∧ openFlit
      (flit.map BitVec.toNat) = some f ∧ (BitVec.ofNat 12 (flitWord f 0 4)) = (s.ports[i]).lastGood + 1) ∧
    (∃ (s : State) (i : Fin 64) (flit : List Byte) (f : _), s.bootState = 1 ∧ s.ports[i].width ≠ 0 ∧ openFlit
      (flit.map BitVec.toNat) = some f ∧ (BitVec.ofNat 12 (flitWord f 0 4)) ≠ (s.ports[i]).lastGood + 1 ∧ 2048 ≤
      ((BitVec.ofNat 12 (flitWord f 0 4)) - (s.ports[i]).lastGood - 1).toNat) ∧
    (∃ (s : State) (i : Fin 64) (flit : List Byte), s.bootState = 1 ∧ s.ports[i].width ≠ 0 ∧ (openFlit (flit.map
      BitVec.toNat) = none ∨ ∃ f, openFlit (flit.map BitVec.toNat) = some f ∧ 0 < (BitVec.ofNat 12 (flitWord f 0
      4) - (s.ports[i]).lastGood - 1).toNat ∧ (BitVec.ofNat 12 (flitWord f 0 4) - (s.ports[i]).lastGood - 1).toNat
      < 2048)) ∧
    (∃ (s : State), s.bootState = 1) ∧
    (∃ (s : State) (i : Fin 64) (lane : Nat), (4 ≤ lane ∨ lane ∈ s.ports[i].lanes)) ∧
    (∃ (s : State) (i : Fin 64) (lane : Nat), s.bootState = 1 ∧ s.ports[i].width ≠ 0 ∧ usesLane s.ports[i] lane = true
      ∧ s.recorded ⟨7, i, lane⟩ = false) ∧
    (∃ (s : State) (i : Fin 64) (lane : Nat), s.bootState = 1 ∧ s.ports[i].width ≠ 0 ∧ usesLane s.ports[i] lane = true
      ∧ s.recorded ⟨7, i, lane⟩ = true) ∧
    (∃ (s : State), (∀ p, s.input = .hostPort p → p % 4 = s.primary)) ∧
    (∃ (s : State), (∀ p, s.input = .hostPort p → p % 4 = s.primary)) ∧
    (∃ (s : State) (p : Nat), s.input = .hostPort p ∧ p < 4 ∧ p ≠ s.primary) ∧
    (∃ (s : State) (p : Nat), s.input = .hostPort p ∧ p < 4 ∧ p ≠ s.primary) :=
  ⟨⟨State.reset, 63, (sealFlit []).map (BitVec.ofNat 8), sealFlit [], by and_intros <;> decide +kernel⟩,
   ⟨{ State.reset with ports := Vector.replicate 64 { lastGood := 0 } }, 63, (sealFlit []).map (BitVec.ofNat 8),
      sealFlit [], by and_intros <;> decide +kernel⟩,
   ⟨State.reset, 63, [], by exact ⟨by decide, by decide, Or.inl (by decide +kernel)⟩⟩,
   ⟨State.reset, by decide +kernel⟩,
   ⟨State.reset, 63, 4, by decide +kernel⟩,
   ⟨State.reset, 63, 3, by and_intros <;> decide +kernel⟩,
   ⟨{ State.reset with mordA := { recs := [⟨0, 7, 0, 63, 3, 0, 0⟩] } }, 63, 3, by and_intros <;> decide +kernel⟩,
   ⟨State.reset, fun _ h => nomatch h⟩,
   ⟨State.reset, fun _ h => nomatch h⟩,
   ⟨{ State.reset with input := .hostPort 3 }, 3, by and_intros <;> decide +kernel⟩,
   ⟨{ State.reset with input := .hostPort 3 }, 3, by and_intros <;> decide +kernel⟩⟩

theorem witness_HostWrites :
    (∃ (s : State) (i : Instr), fromHost i = true ∧ s.bootState ≠ 1) ∧
    (∃ (s : State) (i : Instr), fromHost i = true ∧ s.bootState = 1 ∧ s.linkUp = false) ∧
    (∃ (s : State) (vd : Nat) (q : Fin 4) (d : Vd) (t : Word), reached s = true ∧ s.vds.get? vd = some d ∧ vd < 512 ∧
      s.input = .doorbell vd q t) ∧
    (∃ (s : State) (vd : Nat) (q : Fin 4) (d : Vd) (v : DWord), reached s = true ∧ s.vds.get? vd = some d ∧ vd < 512 ∧
      s.input = .queueCfg vd q 0 v ∧ v.toNat % 4096 = 0) ∧
    (∃ (s : State) (vd : Nat) (q : Fin 4) (d : Vd) (v : DWord), reached s = true ∧ s.vds.get? vd = some d ∧ vd < 512 ∧
      s.input = .queueCfg vd q 1 v ∧ 4 ≤ v.toNat ∧ v.toNat ≤ 16) ∧
    (∃ (s : State) (vd : Nat) (q : Fin 4) (d : Vd) (v : DWord), reached s = true ∧ s.vds.get? vd = some d ∧ vd < 512 ∧
      s.input = .queueCfg vd q 2 v) ∧
    (∃ (s : State) (vd addr n : Nat) (d : Vd) (bs : _), reached s = true ∧ vd < 512 ∧ addr + n ≤ 2 ^ 42 ∧ 0 < n ∧
      s.vds.get? vd = some d ∧ (s.ops.all fun e => decide (e.2.cls ≠ .hostAccess)) = true ∧ homesSound s = true ∧
      s.hbm.wf = true ∧ (addr + n - 1) / 2 ^ 36 = addr / 2 ^ 36 ∧ s.input = .winRead vd addr n ∧ inPage s vd
      (BitVec.ofNat 64 (addr / 2 ^ 36 * 2 ^ 52 + addr % 2 ^ 36)) n true false = true ∧ globalBytes s vd
      (BitVec.ofNat 64 (addr / 2 ^ 36 * 2 ^ 52 + addr % 2 ^ 36)) n = some bs) ∧
    (∃ (s : State) (vd addr n : Nat) (d : Vd), reached s = true ∧ vd < 512 ∧ addr + n ≤ 2 ^ 42 ∧ 0 < n ∧ s.vds.get? vd
      = some d ∧ (s.ops.all fun e => decide (e.2.cls ≠ .hostAccess)) = true ∧ homesSound s = true ∧ s.hbm.wf =
      true ∧ (addr + n - 1) / 2 ^ 36 = addr / 2 ^ 36 ∧ s.input = .winRead vd addr n ∧ (∀ i, i < n → s.page? vd
      (addr / 2 ^ 36) (addr % 2 ^ 36 + i) = none)) ∧
    (∃ (s : State) (vd addr n : Nat) (d : Vd) (bs : _) (f : _), reached s = true ∧ vd < 512 ∧ addr + n ≤ 2 ^ 42 ∧ 0 <
      n ∧ s.vds.get? vd = some d ∧ (s.ops.all fun e => decide (e.2.cls ≠ .hostAccess)) = true ∧ homesSound s =
      true ∧ s.hbm.wf = true ∧ (addr + n - 1) / 2 ^ 36 = addr / 2 ^ 36 ∧ s.input = .winWrite vd addr bs ∧
      bs.length = n ∧ inPage s vd (BitVec.ofNat 64 (addr / 2 ^ 36 * 2 ^ 52 + addr % 2 ^ 36)) n false true = true ∧
      homePlace s vd (addr / 2 ^ 36) (addr % 2 ^ 36) false true = some f) ∧
    (∃ (s : State) (i reg val : Nat), reached s = true ∧ s.input = .table i reg val ∧ i < 64 ∧ reg < 2) ∧
    (∃ (s : State) (i reg val : Nat), reached s = true ∧ s.input = .table i reg val ∧ i < 512 ∧ reg = 0) ∧
    (∃ (s : State) (i reg val : Nat), reached s = true ∧ s.input = .table i reg val ∧ i < 512 ∧ reg = 1) ∧
    (∃ (s : State) (i reg val : Nat) (_h : i < 1024), reached s = true ∧ s.input = .table i reg val) ∧
    (∃ (s : State) (i reg val : Nat) (_h : i < 8), reached s = true ∧ s.input = .table i reg val) ∧
    (∃ (s : State) (w : _), reached s = true ∧ s.input = .word w) ∧
    (∃ (s : State) (v : _), reached s = true ∧ s.input = .reg 0 0x8004 v) ∧
    (∃ (s : State) (k : _) (v : _), reached s = true ∧ s.input = .reg 0 (0x8040 + 8 * k) v ∧ k < 8) ∧
    (∃ (s : State) (v : _), reached s = true ∧ s.input = .reg 0 0x8100 v ∧ v.toNat % 16 ≠ 1 ∧ v.toNat % 16 ≠ 2) ∧
    (∃ (s : State) (fn : _) (off : _) (v : _), reached s = true ∧ s.input = .reg fn off v ∧ fn ≠ 0) ∧
    (∃ (s : State), s.bootState = 1) :=
  ⟨⟨{ State.reset with bootState := 2 }, .detach, by and_intros <;> decide +kernel⟩,
   ⟨{ State.reset with linkUp := false }, .detach, by and_intros <;> decide +kernel⟩,
   ⟨{ State.reset with vds := [(511, {})], input := .doorbell 511 3 9 }, 511, 3, {}, 9,
      by and_intros <;> decide +kernel⟩,
   ⟨{ State.reset with vds := [(511, {})], input := .queueCfg 511 3 0 0x1000 }, 511, 3, {}, 0x1000,
      by and_intros <;> decide +kernel⟩,
   ⟨{ State.reset with vds := [(511, {})], input := .queueCfg 511 3 1 16 }, 511, 3, {}, 16,
      by and_intros <;> decide +kernel⟩,
   ⟨{ State.reset with vds := [(511, {})], input := .queueCfg 511 3 2 1 }, 511, 3, {}, 1,
      by and_intros <;> decide +kernel⟩,
   ⟨{ sys t0 with input := .winRead 1 0xFFF8 8 }, 1, 0xFFF8, 8, { en := true, weight := 1, effWeight := 1 },
      List.replicate 8 0, by and_intros <;> decide +kernel⟩,
   ⟨{ sys t0 with input := .winRead 1 0x3FFFFFFFFF8 8 }, 1, 0x3FFFFFFFFF8, 8,
      { en := true, weight := 1, effWeight := 1 }, by and_intros <;> decide +kernel⟩,
   ⟨{ sys t0 with input := .winWrite 1 0xFFF8 (List.replicate 8 5) }, 1, 0xFFF8, 8,
      { en := true, weight := 1, effWeight := 1 }, List.replicate 8 5, 0xFFF8, by and_intros <;> decide +kernel⟩,
   ⟨{ State.reset with input := .table 63 1 5 }, 63, 1, 5, by and_intros <;> decide +kernel⟩,
   ⟨{ State.reset with input := .table 511 0 5 }, 511, 0, 5, by and_intros <;> decide +kernel⟩,
   ⟨{ State.reset with input := .table 511 1 5 }, 511, 1, 5, by and_intros <;> decide +kernel⟩,
   ⟨{ State.reset with input := .table 1023 0 5 }, 1023, 0, 5, by decide, by and_intros <;> decide +kernel⟩,
   ⟨{ State.reset with input := .table 7 0 5 }, 7, 0, 5, by decide, by and_intros <;> decide +kernel⟩,
   ⟨{ State.reset with input := .word 64 }, 64, by and_intros <;> decide +kernel⟩,
   ⟨{ State.reset with input := .reg 0 0x8004 9 }, 9, by and_intros <;> decide +kernel⟩,
   ⟨{ State.reset with input := .reg 0 0x8078 9 }, 7, 9, by and_intros <;> decide +kernel⟩,
   ⟨{ State.reset with input := .reg 0 0x8100 0 }, 0, by and_intros <;> decide +kernel⟩,
   ⟨{ State.reset with input := .reg 1 0x8100 1 }, 1, 0x8100, 1, by and_intros <;> decide +kernel⟩,
   ⟨State.reset, by decide +kernel⟩⟩

theorem witness_DebugEvents :
    (∃ (s : State) (digest : Nat) (ok : Bool) (vd : Nat), reached s = true ∧ s.input = .spdm digest ok vd ∧ ok =
      false) ∧
    (∃ (s : State) (digest : Nat) (ok : Bool) (vd : Nat), reached s = true ∧ s.input = .spdm digest ok vd ∧ (∀ k : Fin
      8, s.dbgcert[k].en = true → s.dbgcert[k].digest = digest → s.dbgcert[k].vd ≠ vd)) ∧
    (∃ (s : State) (digest : Nat) (ok : Bool) (vd : Nat) (k : Fin 8), reached s = true ∧ s.input = .spdm digest ok vd
      ∧ ok = true ∧ s.dbgcert[k] = { digest, vd, en := true } ∧ (∀ j : Fin 8, j < k → s.dbgcert[j].en = false ∨
      s.dbgcert[j].digest ≠ digest ∨ s.dbgcert[j].vd ≠ vd)) ∧
    (∃ (s : State) (slot vd : Nat) (tg : DbgTarget) (space off n : Nat) (bs : List Byte) (i : _), reached s = true ∧
      s.input = .debug slot vd tg space off n bs ∧ debugCommand i = true ∧ (∀ x ∈ s.sessions, x.slot ≠ slot)) ∧
    (∃ (s : State) (slot vd : Nat) (tg : DbgTarget) (space off n : Nat) (bs : List Byte) (i : _) (x : Session),
      reached s = true ∧ s.input = .debug slot vd tg space off n bs ∧ debugCommand i = true ∧ s.sessions.find?
      (fun x => decide (x.slot = slot)) = some x ∧ (x.vd ≠ vd ∨ s.targetVd vd tg = false)) ∧
    (∃ (s : State) (slot vd : Nat) (r : TRef) (t : Thread) (space off n : Nat) (bs : List Byte), inSession s slot vd
      (.thread r) space off n bs = true ∧ s.thread? r = some t ∧ t.stopped = false) ∧
    (∃ (s : State) (slot vd : Nat) (r : TRef) (t : Thread) (space off n : Nat) (bs : List Byte), inSession s slot vd
      (.thread r) space off n bs = true ∧ s.thread? r = some t ∧ t.stopped = true) ∧
    (∃ (s : State) (slot vd : Nat) (r : TRef) (t : Thread) (space off n : Nat) (bs : List Byte), inSession s slot vd
      (.thread r) space off n bs = true ∧ s.thread? r = some t ∧ t.stopped = true ∧ t.stepPending = true) ∧
    (∃ (s : State) (slot vd : Nat) (r : TRef) (t : Thread) (space off n : Nat) (bs : List Byte), inSession s slot vd
      (.thread r) space off n bs = true ∧ s.thread? r = some t ∧ space = 0) ∧
    (∃ (s : State) (slot vd : Nat) (r : TRef) (t : Thread) (space off n : Nat) (bs : List Byte), inSession s slot vd
      (.thread r) space off n bs = true ∧ s.thread? r = some t ∧ space = 1) ∧
    (∃ (s : State) (slot vd : Nat) (r : TRef) (t : Thread) (space off n : Nat) (bs : List Byte), inSession s slot vd
      (.thread r) space off n bs = true ∧ s.thread? r = some t ∧ space ≤ 1 ∧ t.stopped = false) ∧
    (∃ (s : State) (slot vd : Nat) (r : TRef) (t : Thread) (space off n : Nat) (bs : List Byte) (k : Fin 16),
      inSession s slot vd (.thread r) space off n bs = true ∧ s.thread? r = some t ∧ space = 0 ∧ off = 4 * k ∧
      bs.length = 4 ∧ t.stopped = true) ∧
    (∃ (s : State) (slot vd : Nat) (r : TRef) (t : Thread) (space off n : Nat) (bs : List Byte), inSession s slot vd
      (.thread r) space off n bs = true ∧ s.thread? r = some t ∧ 2 ≤ space) ∧
    (∃ (s : State) (slot vd : Nat) (q : TileRef) (v : VTile) (off n : Nat) (bs : List Byte), s.tile? q = some v ∧
      inSession s slot vd (.tile q) 3 off n bs = true) ∧
    (∃ (s : State) (slot vd : Nat) (q : TileRef) (v : VTile) (off n : Nat) (bs : List Byte), s.tile? q = some v ∧
      inSession s slot vd (.tile q) 3 off n bs = true ∧ v.spad.wf = true ∧ s.tileStopped q = true ∧ (∀ e ∈
      s.lanes, e.1.tile = q → e.2.chunks = []) ∧ off + bs.length ≤ 2 ^ 20) ∧
    (∃ (s : State) (slot vd : Nat) (q : TileRef) (v : VTile) (off n : Nat) (bs : List Byte), s.tile? q = some v ∧
      inSession s slot vd (.tile q) 3 off n bs = true ∧ s.tileStopped q = false) ∧
    (∃ (s : State) (slot vd l : Nat) (ln : Launch) (space off n : Nat) (bs : List Byte), inSession s slot vd (.launch
      l) space off n bs = true ∧ s.launch? l = some ln) ∧
    (∃ (s : State) (slot vd l : Nat) (ln : Launch) (space off n : Nat) (bs : List Byte), inSession s slot vd (.launch
      l) space off n bs = true ∧ s.launch? l = some ln) ∧
    (∃ (s : State) (slot : Nat) (x : Session) (vd : _) (tg : _) (space : _) (off : _) (n : _) (bs : _), x ∈ s.sessions
      ∧ x.slot = slot ∧ (∀ y ∈ s.sessions, y.slot = slot → y = x) ∧ reached s = true ∧ s.input = .debug slot vd tg
      space off n bs ∧ vd = x.vd) ∧
    (∃ (s : State) (slot : Nat) (x : Session) (vd : _) (tg : _) (space : _) (off : _) (n : _) (bs : _), x ∈ s.sessions
      ∧ x.slot = slot ∧ (∀ y ∈ s.sessions, y.slot = slot → y = x) ∧ reached s = true ∧ s.input = .debug slot vd tg
      space off n bs ∧ vd ≠ x.vd) ∧
    (∃ (s : State) (slot : Nat) (x : Session), x ∈ s.sessions ∧ x.slot = slot ∧ (∀ y ∈ s.sessions, y.slot = slot → y =
      x) ∧ reached s = true ∧ s.input = .session slot) ∧
    (∃ (s : State) (slot : Nat) (x : Session), x ∈ s.sessions ∧ x.slot = slot ∧ (∀ y ∈ s.sessions, y.slot = slot → y =
      x) ∧ x.lastMsg + 2 ^ 31 ≤ s.cycle) :=
  ⟨⟨{ State.reset with input := .spdm 9 false 1 }, 9, false, 1, by and_intros <;> decide +kernel⟩,
   ⟨{ State.reset with input := .spdm 9 true 1 }, 9, true, 1, by and_intros <;> decide +kernel⟩,
   ⟨{ State.reset with dbgcert := State.reset.dbgcert.set 7 { digest := 9, vd := 511, en := true }, input := .spdm 9 true 511 },
      9, true, 511, 7, by and_intros <;> decide +kernel⟩,
   ⟨{ sys t0 with sessions := [], input := .debug 7 1 (.thread r0) 0 0 4 [] }, 7, 1, .thread r0, 0, 0, 4, [],
      .debugRead, by and_intros <;> decide +kernel⟩,
   ⟨{ sys t0 with sessions := [{ slot := 7, vd := 2, lastMsg := 100 }], input := .debug 7 1 (.thread r0) 0 0 4 [] },
      7, 1, .thread r0, 0, 0, 4, [], .debugRead, { slot := 7, vd := 2, lastMsg := 100 },
      by and_intros <;> decide +kernel⟩,
   ⟨{ sys t0 with sessions := [{ slot := 7, vd := 1, lastMsg := 100 }], input := .debug 7 1 (.thread r0) 0 0 4 [] },
      7, 1, r0, t0, 0, 0, 4, [], by and_intros <;> decide +kernel⟩,
   ⟨{ sys { t0 with stopped := true } with sessions := [{ slot := 7, vd := 1, lastMsg := 100 }], input := .debug 7 1 (.thread r0) 0 0 4 [] },
      7, 1, r0, { t0 with stopped := true }, 0, 0, 4, [], by and_intros <;> decide +kernel⟩,
   ⟨{ sys { t0 with stopped := true, stepPending := true } with sessions := [{ slot := 7, vd := 1, lastMsg := 100 }], input := .debug 7 1 (.thread r0) 0 0 4 [] },
      7, 1, r0, { t0 with stopped := true, stepPending := true }, 0, 0, 4, [], by and_intros <;> decide +kernel⟩,
   ⟨{ sys t0 with sessions := [{ slot := 7, vd := 1, lastMsg := 100 }], input := .debug 7 1 (.thread r0) 0 0 4 [] },
      7, 1, r0, t0, 0, 0, 4, [], by and_intros <;> decide +kernel⟩,
   ⟨{ sys t0 with sessions := [{ slot := 7, vd := 1, lastMsg := 100 }], input := .debug 7 1 (.thread r0) 1 0 4 [] },
      7, 1, r0, t0, 1, 0, 4, [], by and_intros <;> decide +kernel⟩,
   ⟨{ sys t0 with sessions := [{ slot := 7, vd := 1, lastMsg := 100 }], input := .debug 7 1 (.thread r0) 1 0 4 [1, 2, 3, 4] },
      7, 1, r0, t0, 1, 0, 4, [1, 2, 3, 4], by and_intros <;> decide +kernel⟩,
   ⟨{ sys { t0 with stopped := true } with sessions := [{ slot := 7, vd := 1, lastMsg := 100 }], input := .debug 7 1 (.thread r0) 0 60 4 [1, 2, 3, 4] },
      7, 1, r0, { t0 with stopped := true }, 0, 60, 4, [1, 2, 3, 4], 15, by and_intros <;> decide +kernel⟩,
   ⟨{ sys { t0 with stopped := true } with sessions := [{ slot := 7, vd := 1, lastMsg := 100 }], input := .debug 7 1 (.thread r0) 6 0 4 [1, 2, 3, 4] },
      7, 1, r0, { t0 with stopped := true }, 6, 0, 4, [1, 2, 3, 4], by and_intros <;> decide +kernel⟩,
   ⟨{ sys t0 with sessions := [{ slot := 7, vd := 1, lastMsg := 100 }], input := .debug 7 1 (.tile m0) 3 0xFFFFF 1 [] },
      7, 1, m0, vt, 0xFFFFF, 1, [], by and_intros <;> decide +kernel⟩,
   ⟨{ sys { t0 with stopped := true } with sessions := [{ slot := 7, vd := 1, lastMsg := 100 }], input := .debug 7 1 (.tile m0) 3 0xFFFFF 1 [5] },
      7, 1, m0, vt, 0xFFFFF, 1, [5], by and_intros <;> decide +kernel⟩,
   ⟨{ sys t0 with sessions := [{ slot := 7, vd := 1, lastMsg := 100 }], input := .debug 7 1 (.tile m0) 3 0xFFFFF 1 [5] },
      7, 1, m0, vt, 0xFFFFF, 1, [5], by and_intros <;> decide +kernel⟩,
   ⟨{ sys t0 with sessions := [{ slot := 7, vd := 1, lastMsg := 100 }], input := .debug 7 1 (.launch 0) 0 0 4 [] }, 7,
      1, 0, ln, 0, 0, 4, [], by and_intros <;> decide +kernel⟩,
   ⟨{ sys t0 with sessions := [{ slot := 7, vd := 1, lastMsg := 100 }], input := .debug 7 1 (.launch 0) 0 0 4 [] }, 7,
      1, 0, ln, 0, 0, 4, [], by and_intros <;> decide +kernel⟩,
   ⟨{ sys t0 with sessions := [{ slot := 7, vd := 1, lastMsg := 100 }], input := .debug 7 1 (.thread r0) 0 0 0 [] },
      7, { slot := 7, vd := 1, lastMsg := 100 }, 1, .thread r0, 0, 0, 0, [], by and_intros <;> decide +kernel⟩,
   ⟨{ sys t0 with sessions := [{ slot := 7, vd := 1, lastMsg := 100 }], input := .debug 7 2 (.thread r0) 0 0 0 [] },
      7, { slot := 7, vd := 1, lastMsg := 100 }, 2, .thread r0, 0, 0, 0, [], by and_intros <;> decide +kernel⟩,
   ⟨{ sys t0 with sessions := [{ slot := 7, vd := 1, lastMsg := 100 }], input := .session 7 }, 7,
      { slot := 7, vd := 1, lastMsg := 100 }, by and_intros <;> decide +kernel⟩,
   ⟨{ sys t0 with sessions := [{ slot := 7, vd := 1, lastMsg := 100 }], cycle := 2 ^ 31 + 100 }, 7,
      { slot := 7, vd := 1, lastMsg := 100 }, by and_intros <;> decide +kernel⟩⟩

theorem witness_DecodingInvertsEncoding :
    (∃ (i : Instr), i.isWord = true ∧ i.wellFormed = true) ∧
    (∃ (i : Instr), i.isWord = true ∧ i.wellFormed = true) :=
  ⟨⟨.addi { tok := 15, thr := 63, wc := true, gap := 3, pfx := [.ximm 0xFFFFFFFF] } 15 14 0xFF,
      by and_intros <;> decide +kernel⟩,
   ⟨.addi { tok := 15, thr := 63, wc := true, gap := 3, pfx := [.ximm 0xFFFFFFFF] } 15 14 0xFF,
      by and_intros <;> decide +kernel⟩⟩

theorem witness_StepRunsDecoded :
    (∃ (s : State) (i : Instr) (s1 : State), s.forced? = some (i, s1)) ∧
    (∃ (s : State), s.forced? = none) ∧
    (∃ (s : State) (r : TRef), s.forced? = none ∧ s.choices = [.turn r]) ∧
    (∃ (s' : State), (s'.threads.any fun e => e.2.stepPending) = false) ∧
    (∃ (s : State) (r : TRef) (t0 t : Thread) (i : Instr) (ws : List DWord) (n : _), s.thread? r = some t0 ∧
      t0.skipTurn = false ∧ (s.openChunk r).thread? r = some t ∧ decodeWords [] false 3 ws = .ok (i, []) ∧
      t.wordsLeft = some n ∧ ws.length ≤ n ∧ t.arrive ≠ 2 ∧ (∀ k, k < ws.length → (s.openChunk r).fetchWord
      ((s.openChunk r).vdOf r.l) (t.pc + BitVec.ofNat 64 (8 * k)) = .word (ws.getD k 0))) ∧
    (∃ (s : State) (r : TRef) (t0 t : Thread) (i : Instr) (ws : List DWord) (h : _), s.thread? r = some t0 ∧
      t0.skipTurn = false ∧ (s.openChunk r).thread? r = some t ∧ decodeWords [] false 3 ws = .ok (i, []) ∧
      (s.openChunk r).fetchWord ((s.openChunk r).vdOf r.l) t.pc = .word h ∧ opOf h = 0xFF ∧ (t.wordsLeft = none ∨
      t.wordsLeft = some 0) ∧ hdrBad h = false ∧ (t.away = false ∨ t.pc ≠ t.rethdr) ∧ ws.length ≤ hdrLen h ∧ (∀ k,
      k < ws.length → (s.openChunk r).fetchWord ((s.openChunk r).vdOf r.l) (t.pc + 8 + BitVec.ofNat 64 (8 * k)) =
      .word (ws.getD k 0))) :=
  ⟨⟨forcedState, (forcedState.forced?.get forced_some).1, (forcedState.forced?.get forced_some).2,
      by exact (Option.some_get forced_some).symm⟩,
   ⟨State.reset, by decide +kernel⟩,
   ⟨State.reset.withFetchWord 64 5, ⟨0, 0, 0⟩, by and_intros <;> decide +kernel⟩,
   ⟨State.reset, by decide +kernel⟩,
   ⟨{ sys ({ t0 with block := some (0, 2) }) with hbm := codeBytes }, r0, { t0 with block := some (0, 2) },
      { t0 with block := some (0, 2) }, codeInstr, codeWords, 2, by and_intros <;> first | decide +kernel | rfl⟩,
   ⟨{ sys ({ t0 with block := none, pc := 0 }) with hbm := codeBytes }, r0, { t0 with block := none, pc := 0 },
      { t0 with block := none, pc := 0 }, codeInstr, codeWords, codeHeader,
      by and_intros <;> first | decide +kernel | rfl⟩⟩

theorem witness_StepKeepsMemoryForm :
    (∃ (s s' : State), s.memWf = true ∧ step s = .next s') :=
  ⟨State.reset, nextOf (step State.reset), by exact ⟨by decide +kernel, nextOf_eq (by decide +kernel)⟩⟩

/-- The second disjunct of OLOAD's clause: a page of a home. -/
theorem witness_MatrixEvents_home : ∃ (s : State) (o : Op) (v : VTile), s = at5 o v ∧ atHead s 5 o .oload = true ∧
    o.ins = .oload {} .g 15 2 1 ∧ s.memWf = true ∧ homesSound s = true ∧ s.homesFull o = false ∧
    Addr.of (DWord.mk (o.val 0) (o.val 1)) = .glob 0 0xFFF0 ∧ slotBytes (v.slot 15) = 16 ∧
    ∀ b, b < 16 → (homeBytes s o 0 0xFFF0 b).isSome = true :=
  ⟨_, op .oload (.oload {} .g 15 2 1) [0xFFF0, 0, 1], { vt with slots := vt.slots.set 15 { st := .filling, k := 1 } }, rfl,
   by decide +kernel, rfl, by decide +kernel, by decide +kernel, by decide +kernel, by decide +kernel, by decide +kernel,
   by decide +kernel⟩

/-- What a consumed error meets: a launch that is being killed, a region, neither. -/
theorem witness_LateResults_consumed : ∃ t : Thread, t.reports = [{ cause := 0x4E, consumed := true }] ∧ t.rst = true ∧ t.rcnt < 3 ∧
    t.tl ≤ t.irtl ∧ (sys t).restartDrained r0 t = true ∧ ln.dying = false ∧ ln.phase = .placing ∧
    ({ ln with phase := .killFlood } : Launch).dying = true ∧ ({ t with rst := false } : Thread).rst = false :=
  ⟨{ t0 with reports := [{ cause := 0x4E, consumed := true }], rst := true }, by and_intros <;> decide +kernel⟩

theorem witness_ModuleEvents_sensors :
    (∃ (f : Fld) (h : Nat), isHottest f h ∧ 95 < h) ∧ (∃ f : Fld, ∀ t ∈ f.temp.toList, t = 0xFF) :=
  ⟨⟨{ temp := Vector.replicate 16 96 }, 96, by unfold isHottest; decide +kernel⟩, ⟨{ temp := Vector.replicate 16 0xFF }, by decide +kernel⟩⟩

end Sys2Proof.Tests
end

section
/-!
SUPPORT. The statement that every step keeps the canonical form fails: a launch from another module that this one refuses (16 R341) is
filed with its image as it came, and where the number that it takes is a launch's already, it is that launch which State.finishLaunch
ends and empties. O59.
-/
namespace Sys2Proof.Claims
open Sys2Proof.Machine

/-- The canonical form after a step. -/
def formAfter : Out → Option Bool
  | .next s => some s.memWf
  | _ => none

/-- A launch that the host moves here from a module of another version; its image lists a byte that is zero. -/
def movedLaunch : Moved :=
  { capv := 0, vd := 0, queue := 0, block := [], launch := { vd := 0, queue := 0, blk := {}, image := [(0, 0)] } }

/-- The machine that is about to take it, whose next launch number a launch bears already. -/
def numberTaken : State :=
  { State.reset with
    agenda := []
    inputs := [(0, .gangRestore 0 0 0, .moved movedLaunch)]
    launches := [(0, { vd := 0, queue := 0, blk := {} })] }

theorem numberTaken_memWf : numberTaken.memWf = true := by decide +kernel

theorem formAfter_numberTaken : formAfter (step numberTaken) = some false := by decide +kernel

/-- Refutes O59: in a state whose next launch number is taken, a refused launch leaves an image that is not in the canonical form. -/
theorem not_stepKeepsMemoryForm : ¬ Obligations.StepKeepsMemoryForm := by
  unfold Obligations.StepKeepsMemoryForm
  intro h
  have hform := formAfter_numberTaken
  cases hs : step numberTaken with
  | next s' =>
    rw [hs, formAfter, h numberTaken s' numberTaken_memWf hs] at hform
    cases hform
  | fault r => rw [hs] at hform; cases hform
  | refused r => rw [hs] at hform; cases hform

end Sys2Proof.Claims
end

section
/-!
SUPPORT. What a turn finds at a thread's pc when the words of one instruction stand there (03 R66, R67, R75), and what a step is when
nothing is forced (log 3). O58.
-/
namespace Sys2Proof.Machine

/-! ### The words at a pc (03 R75) -/

theorem isPrefixOp_ne_header {n : Nat} (h : isPrefixOp n = true) : n ≠ 0xFF := by
  rintro rfl
  simp [isPrefixOp] at h

/-- A word of 03 R70 before the instruction word uses one unit of fuel. -/
theorem decodeWords_isPrefix {w : DWord} {ws : List DWord} {ps : List Prefix} {bad : Bool} {f : Nat} {x : Instr × List DWord}
    (hp : isPrefixOp (opOf w) = true) (h : decodeWords ps bad f (w :: ws) = .ok x) :
    ∃ g ps' bad', f = g + 1 ∧ decodeWords ps' bad' g ws = .ok x ∧
      ∀ k, decodeWords ps bad (k + 1) (w :: ws) = decodeWords ps' bad' k ws := by
  obtain _ | g := f
  · rw [decodeWords.eq_def] at h; simp [hp] at h
  · cases hd : decodePrefix w with
    | none =>
      have hk : ∀ k, decodeWords ps bad (k + 1) (w :: ws) = decodeWords ps true k ws := by
        intro k; rw [decodeWords.eq_def]; simp only [hp, hd, if_true]
      exact ⟨g, ps, true, rfl, (hk g).symm.trans h, hk⟩
    | some p =>
      have hk : ∀ k, decodeWords ps bad (k + 1) (w :: ws) = decodeWords (ps ++ [p]) bad k ws := by
        intro k; rw [decodeWords.eq_def]; simp only [hp, hd, if_true]
      exact ⟨g, _, bad, rfl, (hk g).symm.trans h, hk⟩

/-- The instruction word ends a decoded sequence, and is no header. -/
theorem decodeWords_word {w : DWord} {ws l : List DWord} {ps : List Prefix} {bad : Bool} {f : Nat} {i : Instr}
    (hp : isPrefixOp (opOf w) = false) (h : decodeWords ps bad f (w :: ws) = .ok (i, l)) :
    l = ws ∧ opOf w ≠ 0xFF ∧ ∀ g, decodeWords ps bad g (w :: ws) = .ok (i, l) := by
  have hg : ∀ g, decodeWords ps bad g (w :: ws) = decodeWords ps bad f (w :: ws) := by
    intro g; rw [decodeWords.eq_def, decodeWords.eq_def ps bad f]; simp [hp]
  refine ⟨?_, ?_, fun g => (hg g).trans h⟩
  · rw [decodeWords.eq_def] at h
    simp only [hp, Bool.false_eq_true, if_false] at h
    split at h
    · cases h
    split at h
    · cases h; rfl
    split at h
    · cases h
    split at h <;> cases h
    rfl
  · intro hw
    rw [decodeWords.eq_def] at h
    simp [hw, isPrefixOp] at h

/-- The words of one decoded sequence: with any fuel from their number on they decode to the same, they are at most one more than the
fuel, and the first is no header. -/
theorem decodeWords_sequence {ws : List DWord} {ps : List Prefix} {bad : Bool} {f : Nat} {i : Instr}
    (h : decodeWords ps bad f ws = .ok (i, [])) :
    ws.length ≤ f + 1 ∧ ws ≠ [] ∧ opOf (ws.getD 0 0) ≠ 0xFF ∧ ∀ g, f ≤ g → decodeWords ps bad g ws = .ok (i, []) := by
  induction ws generalizing ps bad f with
  | nil => simp [decodeWords] at h
  | cons w ws ih =>
    cases hp : isPrefixOp (opOf w) with
    | true =>
      obtain ⟨g, ps', bad', rfl, h', hk⟩ := decodeWords_isPrefix hp h
      obtain ⟨hl, -, -, hf⟩ := ih h'
      refine ⟨by simpa using hl, by simp, isPrefixOp_ne_header hp, fun k hk' => ?_⟩
      obtain ⟨k, rfl⟩ : ∃ j, k = j + 1 := ⟨k - 1, by omega⟩
      rw [hk]; exact hf k (by omega)
    | false =>
      obtain ⟨rfl, hw, hf⟩ := decodeWords_word hp h
      exact ⟨by simp, by simp, hw, fun g _ => hf g⟩

/-- Where the words of one decoded sequence stand in memory, the sequence is read to its end. -/
theorem State.readSeq_eq {s : State} {vd n f : Nat} {ws : List DWord} {a : DWord} {ps : List Prefix} {bad : Bool} {i : Instr}
    (h : decodeWords ps bad f ws = .ok (i, [])) (hn : ws.length ≤ n)
    (hw : ∀ k, k < ws.length → s.fetchWord vd (a + BitVec.ofNat 64 (8 * k)) = .word (ws.getD k 0)) :
    s.readSeq vd n a = (ws, none) := by
  induction ws generalizing ps bad f n a with
  | nil => simp [decodeWords] at h
  | cons w ws ih =>
    obtain ⟨n, rfl⟩ : ∃ j, n = j + 1 := ⟨n - 1, by simp at hn; omega⟩
    have h0 : s.fetchWord vd a = .word w := by simpa using hw 0 (by simp)
    cases hp : isPrefixOp (opOf w) with
    | true =>
      obtain ⟨g, ps', bad', rfl, h', -⟩ := decodeWords_isPrefix hp h
      have hnext : s.readSeq vd n (a + 8) = (ws, none) := by
        refine ih h' (by simpa using hn) fun k hk => ?_
        have := hw (k + 1) (by simpa using hk)
        rwa [show a + BitVec.ofNat 64 (8 * (k + 1)) = a + 8 + BitVec.ofNat 64 (8 * k) by
          rw [BitVec.add_assoc, show (8 : DWord) = BitVec.ofNat 64 8 from rfl, ← BitVec.ofNat_add]; congr 2; omega] at this
      simp only [State.readSeq, h0, hp, if_true, hnext]
    | false =>
      obtain ⟨rfl, -, -⟩ := decodeWords_word hp h
      simp [State.readSeq, h0, hp]

/-- Inside its block, or with no block, a thread finds the instruction whose words stand at its pc. -/
theorem State.lookInside_eq {s : State} {r : TRef} {t : Thread} {ws : List DWord} {i : Instr} {n : Nat}
    (h : decodeWords [] false 3 ws = .ok (i, [])) (hl : t.wordsLeft = some n) (hn : ws.length ≤ n)
    (hw : ∀ k, k < ws.length → s.fetchWord (s.vdOf r.l) (t.pc + BitVec.ofNat 64 (8 * k)) = .word (ws.getD k 0)) :
    s.lookInside r t = .instr i (ws.getLastD 0) := by
  obtain ⟨hlen, -, -, hf⟩ := decodeWords_sequence h
  have hr : s.readSeq (s.vdOf r.l) (min 64 n) t.pc = (ws, none) := State.readSeq_eq h (by omega) hw
  simp only [State.lookInside, hl, hr, hf 64 (by omega)]

/-- Behind the header that it enters, a thread has the words of the block before it (03 R66). -/
theorem Thread.enterBlock_pc (t : Thread) (w : DWord) (n : Nat) : (t.enterBlock w n).pc = t.pc + 8 := by
  unfold Thread.enterBlock
  dsimp only
  split <;> rfl

theorem Thread.enterBlock_block (t : Thread) (w : DWord) (n : Nat) : (t.enterBlock w n).block = some (t.pc, hdrLen w) := by
  unfold Thread.enterBlock
  dsimp only
  split <;> rfl

theorem Thread.wordsLeft_enterBlock (t : Thread) (w : DWord) (n : Nat) : (t.enterBlock w n).wordsLeft = some (hdrLen w) := by
  have hlt : hdrLen w < 64 := (w.extractLsb' 50 6).isLt
  simp only [Thread.wordsLeft, Thread.blockEnd, Thread.enterBlock_block, Thread.enterBlock_pc, Option.map_some, Option.some.injEq]
  have : t.pc + BitVec.ofNat 64 (8 * (hdrLen w + 1)) - (t.pc + 8) = BitVec.ofNat 64 (8 * hdrLen w) := by
    bv_omega
  rw [this, BitVec.toNat_ofNat, Nat.mod_eq_of_lt (by omega)]
  omega

/-- A thread inside its block looks at the words at its pc. -/
theorem State.look_inside {s : State} {r : TRef} {t : Thread} {w : DWord} {n : Nat} (hf : s.fetchWord (s.vdOf r.l) t.pc = .word w)
    (hw : opOf w ≠ 0xFF) (hl : t.wordsLeft = some n) (hn : 0 < n) (ha : t.arrive ≠ 2) : s.look r t = (t, s.lookInside r t) := by
  simp [State.look, hf, hw, ha, hl, hn]

/-- A thread at a good header, at which it does not go home, enters its block and looks at the words behind it. -/
theorem State.look_header {s : State} {r : TRef} {t : Thread} {w : DWord} (hf : s.fetchWord (s.vdOf r.l) t.pc = .word w)
    (hw : opOf w = 0xFF) (hl : t.wordsLeft = none ∨ t.wordsLeft = some 0) (hb : hdrBad w = false)
    (ha : t.away = false ∨ t.pc ≠ t.rethdr) :
    s.look r t = (t.enterBlock w s.nextId, s.lookInside r (t.enterBlock w s.nextId)) := by
  have hhome : ¬ (t.away = true ∧ t.tl = 0 ∧ t.rethdr ≠ 0 ∧ t.pc = t.rethdr) := by
    rintro ⟨h1, -, -, h2⟩
    rcases ha with h | h
    · simp [h] at h1
    · exact h h2
  rcases hl with hl | hl <;>
    simp only [State.look, hf, hw, hl, hb, if_true, Nat.lt_irrefl, decide_false, Bool.false_eq_true, if_false, if_neg hhome]

/-- A turn that does not pass acts on what the thread finds at its pc. -/
theorem State.turn_eq {s : State} {r : TRef} {t0 t : Thread} (h0 : s.thread? r = some t0) (hs : t0.skipTurn = false)
    (h1 : (s.openChunk r).thread? r = some t) :
    s.turn r = State.act { ((s.openChunk r).setThread r ((s.openChunk r).look r t).1).updTile r.tile
        (fun v => { v with issuedAt := some (s.openChunk r).cycle }) with cur := some r } r
      ((s.openChunk r).look r t).1 ((s.openChunk r).look r t).2 := by
  simp only [State.turn, h0, hs, h1, Bool.false_eq_true, if_false]

/-! ### The move (log 3) -/

theorem State.choices_ne_nil (s : State) : s.choices ≠ [] := by
  unfold State.choices
  dsimp only
  split
  · simp
  · next h => simp [h]

/-- With nothing forced, a step is a move that the state allows. -/
theorem State.pick_mem {s : State} {l : List Choice} (hl : l ≠ []) : ∃ m ∈ l, ∃ n, s.pick l = State.move { s with fresh := n } m := by
  match l with
  | [] => exact absurd rfl hl
  | [m] => exact ⟨m, by simp, s.fresh, rfl⟩
  | a :: b :: l =>
    have hlt : Config.freeNat s.fresh % (a :: b :: l).length < (a :: b :: l).length := Nat.mod_lt _ (by simp)
    refine ⟨(a :: b :: l)[Config.freeNat s.fresh % (a :: b :: l).length], List.getElem_mem hlt, s.fresh + 1, ?_⟩
    simp only [State.pick, State.draw, List.getElem?_eq_getElem hlt, Option.getD_some]

theorem step_forced {s s1 : State} {i : Instr} (h : s.forced? = some (i, s1)) :
    step s = finish s (exec i { s1 with cur := none }) := by
  simp only [step, State.advance, h]

theorem step_free {s : State} (h : s.forced? = none) : step s = finish s (s.pick s.choices) := by
  simp only [step, State.advance, h]

theorem State.endSteps_of_none {s old : State} (h : (s.threads.any fun e => e.2.stepPending) = false) : old.endSteps s = s := by
  simp [State.endSteps, h]

end Sys2Proof.Machine

namespace Sys2Proof.Claims
open Sys2Proof.Machine

/-- Settles O58: by what a turn finds at the pc, inside the block and behind the header that it enters. -/
theorem stepRunsDecoded : Obligations.StepRunsDecoded := by
  unfold Obligations.StepRunsDecoded
  refine ⟨fun s i s1 => step_forced, fun s h => ?_, fun s r h hc => ?_, fun s s' h => ?_, ?_⟩
  · obtain ⟨m, hm, n, he⟩ := State.pick_mem (s := s) s.choices_ne_nil
    exact ⟨m, hm, n, by rw [step_free h, he]⟩
  · rw [step_free h, hc]; rfl
  · simp only [finish, State.endSteps_of_none h]
  · intro s r t0 t i ws h0 hs s1 words atPc h1 hd
    obtain ⟨-, hne, hfirst, -⟩ := decodeWords_sequence hd
    have hpos : 0 < ws.length := List.length_pos_iff.mpr hne
    refine ⟨fun n hl hn ha hw => ?_, fun h hf hop hl hb ha hn hw => ?_⟩
    · have hpc : s1.fetchWord (s1.vdOf r.l) t.pc = .word (ws.getD 0 0) := by simpa using hw 0 hpos
      rw [State.turn_eq h0 hs h1, State.look_inside hpc hfirst hl (by omega) ha, State.lookInside_eq hd hl hn hw]
      rfl
    · have hin : s1.lookInside r (t.enterBlock h s1.nextId) = .instr i (ws.getLastD 0) :=
        State.lookInside_eq hd (Thread.wordsLeft_enterBlock t h _) hn (by rw [Thread.enterBlock_pc]; exact hw)
      rw [State.turn_eq h0 hs h1, State.look_header hf hop hl hb ha, hin]
      rfl

end Sys2Proof.Claims
end

section
/-!
SUPPORT. Special registers (02 R43, R44; 09 R250): which index passes the checks of SRD and SWR, and that the model reads and writes
what the image holds under it. O15.
-/
namespace Sys2Proof.Machine
open Sys2Proof.Claims

/-- An update of the thread that was just set. -/
theorem State.updThread_setThread (s : State) (r : TRef) (t : Thread) (f : Thread → Thread) :
    (s.setThread r t).updThread r f = s.setThread r (f t) := by
  rw [State.updThread_eq (t := t) (by rw [State.thread?_setThread, if_pos rfl]), State.setThread_setThread]

theorem srIndex_eq (imm : BitVec 24) : srIndex imm = imm.toNat % 4096 := by
  simp [srIndex, BitVec.extractLsb'_toNat]

/-! ### The checks of R43 and R250 -/

/-- An index that an SRD may name. -/
def readableIndex (i : Nat) : Bool := plainIndex i || (bankIndex i).isSome

theorem srPriv_read {imm : BitVec 24} {tl : Nat} (h : srIndex imm < 0x800) : srPriv imm false tl = none := by
  simp [srPriv, show ¬ 0x800 ≤ srIndex imm by omega]

theorem srPriv_write {imm : BitVec 24} {tl : Nat} (h : srIndex imm < 0x800)
    (hw : (plainIndex (srIndex imm) && !writableIndex (srIndex imm)) = false) (hb : (bankIndex (srIndex imm)).isSome = true → tl ≠ 0) :
    srPriv imm true tl = none := by
  have hb' : ((bankIndex (srIndex imm)).isSome && decide (tl = 0)) = false := by
    cases hs : (bankIndex (srIndex imm)).isSome
    · rfl
    · simp [hb hs]
  simp only [srPriv, hw, hb', show ¬ srIndex imm ≥ 0x800 by omega, decide_false, Bool.or_false, Bool.and_false, Bool.false_eq_true,
    if_false]

theorem srBad_eq_false {c : Ctl} {imm : BitVec 24} (hi : c.imm imm = (srIndex imm : Nat)) (hr : readableIndex (srIndex imm) = true) :
    srBad c imm 0 = false := by
  have hlt : srIndex imm < 4096 := (imm.extractLsb' 0 12).isLt
  simp only [readableIndex] at hr
  simp only [srBad, hi, hr]
  simp
  omega

/-- From 0x800 on, every index traps PRIVILEGED. -/
theorem srPriv_high {imm : BitVec 24} {write : Bool} {tl : Nat} (h : 0x800 ≤ srIndex imm) :
    srPriv imm write tl = some (BitVec.ofNat 64 (srIndex imm)) := by
  simp [srPriv, h]

/-- So does a write of the trap bank at level 0. -/
theorem srPriv_bank {imm : BitVec 24} (h : (bankIndex (srIndex imm)).isSome = true) :
    srPriv imm true 0 = some (BitVec.ofNat 64 (srIndex imm)) := by
  simp [srPriv, h]

/-- So does a write of a register marked R. -/
theorem srPriv_readOnly {imm : BitVec 24} {tl : Nat} (h : (plainIndex (srIndex imm) && !writableIndex (srIndex imm)) = true) :
    srPriv imm true tl = some (BitVec.ofNat 64 (srIndex imm)) := by
  simp only [srPriv, h, Bool.true_or, Bool.true_and, Bool.or_true, if_true]

theorem bankIndex_isSome {i : Nat} (h : (0x031 ≤ i ∧ i ≤ 0x040) ∨ (0x047 ≤ i ∧ i ≤ 0x04A)) : (bankIndex i).isSome = true := by
  unfold bankIndex
  split
  · rfl
  split
  · rfl
  split
  · rfl
  split
  · rfl
  · omega

/-- The indexes marked R in 02 R44. -/
theorem readOnly_of_mem {i : Nat}
    (h : i ≤ 0x00C ∨ i ∈ [0x010, 0x011, 0x012, 0x022, 0x030, 0x060, 0x061, 0x062, 0x0F0]) :
    (plainIndex i && !writableIndex i) = true := by
  have hlow : ∀ j, j < 0x00D → (plainIndex j && !writableIndex j) = true := by decide
  have hlist : ∀ j ∈ [0x010, 0x011, 0x012, 0x022, 0x030, 0x060, 0x061, 0x062, 0x0F0], (plainIndex j && !writableIndex j) = true := by
    decide
  exact h.elim (fun h => hlow i (by omega)) (hlist i)

/-! ### What the image holds -/

/-- The registers of the image pass the checks, and their reads touch no latch. -/
theorem imageValue_index {r : TRef} {t : Thread} {i : Nat} {v : Word} (h : imageValue r t i = some v) :
    i < 0x800 ∧ readableIndex i = true ∧ i ≠ 0x010 ∧ i ≠ 0x011 := by
  unfold imageValue at h
  split at h <;> simp only [reduceCtorEq, Option.some.injEq] at h <;> decide

theorem special_imageValue {s : State} {r : TRef} {t : Thread} {i : Nat} {v : Word} (h : imageValue r t i = some v) :
    s.special r t i = v := by
  unfold imageValue at h
  split at h <;> simp only [reduceCtorEq, Option.some.injEq] at h <;> exact h

/-- A register that SWR may write, with the plain ones told apart from the trap bank. -/
theorem imageWrite_index {t t' : Thread} {i : Nat} {w : Word} (h : imageWrite t i w = some t') :
    i < 0x800 ∧ readableIndex i = true ∧ i ≠ 0x070 ∧ (plainIndex i && !writableIndex i) = false ∧
      ((bankIndex i).isSome = true → i ≠ 0x020 ∧ i ≠ 0x021 ∧ ¬ (0x043 ≤ i ∧ i ≤ 0x046)) := by
  unfold imageWrite at h
  split at h <;> simp only [reduceCtorEq, Option.some.injEq] at h <;> decide

theorem setSpecial_imageWrite {t t' : Thread} {i : Nat} {w : Word} (h : imageWrite t i w = some t') : t.setSpecial i w = t' := by
  unfold imageWrite at h
  split at h <;> simp only [reduceCtorEq, Option.some.injEq] at h <;> exact h

/-! ### The instructions -/

/-- An SRD of an image register issues, and the register's value is on its way. -/
theorem execSrd_image {s : State} {r : TRef} {t : Thread} {c : Ctl} {rd : Reg} {imm : BitVec 24} {v : Word}
    (hv : imageValue r t (srIndex imm) = some v) (hi : c.imm imm = (srIndex imm : Nat))
    (h : s.clearToIssue r t c { writes := [rd] } = true) :
    execSrd c rd imm 0 s = .next ((s.retire r c).fly r 2 [(rd, v)] 0 (sigOf c t)) := by
  obtain ⟨hlt, hr, h10, h11⟩ := imageValue_index hv
  rw [execSrd, issue_clear h (by simp only [srPriv_read hlt, srBad_eq_false hi hr])]
  simp only [h10, h11, if_false, special_imageValue hv]

/-- A SWR of an image register issues, and replaces the register. -/
theorem execSwr_image {s : State} {r : TRef} {t t' : Thread} {c : Ctl} {ra : Reg} {imm : BitVec 24}
    (hw : imageWrite ((t.consumeWait c).passAt c s.cycle s.nextId) (srIndex imm) (t.reg ra) = some t')
    (hi : c.imm imm = (srIndex imm : Nat)) (hl : (bankIndex (srIndex imm)).isSome = true → t.tl ≠ 0)
    (h : s.clearToIssue r t c { reads := [ra] } = true) (hd : s.isDet r.l = false) :
    execSwr c ra imm 0 s = .next ((s.setThread r t').postNext r (sigOf c t)) := by
  obtain ⟨hlt, hr, h70, hro, -⟩ := imageWrite_index hw
  obtain ⟨-, ht, -, -, -⟩ := State.atTurn_iff.mp (State.clearToIssue_iff.mp h).1
  rw [execSwr, issue_clear h (by simp only [srPriv_write hlt hro hl, srBad_eq_false hi hr])]
  simp only [h70, if_false, State.retire_eq c ht hd, State.updThread_setThread, setSpecial_imageWrite hw]

/-- PRIVILEGED at the index of a register that may not be read, or written, at the thread's level. -/
theorem execSrd_privileged {s : State} {r : TRef} {t : Thread} {imm : BitVec 24} {d : DWord} (c : Ctl) (rd : Reg) (sf : BitVec 4)
    (h : s.atTurn r t = true) (hp : srPriv imm false t.tl = some d) :
    execSrd c rd imm sf s = .next (s.trapHere r t cPrivileged d) := issue_privileged h hp

theorem execSwr_privileged {s : State} {r : TRef} {t : Thread} {imm : BitVec 24} {d : DWord} (c : Ctl) (ra : Reg) (sf : BitVec 4)
    (h : s.atTurn r t = true) (hp : srPriv imm true t.tl = some d) :
    execSwr c ra imm sf s = .next (s.trapHere r t cPrivileged d) := issue_privileged h hp

end Sys2Proof.Machine

namespace Sys2Proof.Claims
open Sys2Proof.Machine

/-- Settles O15, by the checks of an index and what the image holds under it. -/
theorem specialRegisters : Obligations.SpecialRegisters := by
  unfold Obligations.SpecialRegisters
  simp only [← srIndex_eq]
  refine ⟨fun s r t c rd imm v hv hi h => execSrd_image hv hi h, fun s r t t' c ra imm hw hi hl h hd => ?_, ?_⟩
  · refine execSwr_image hw hi (fun hb => ?_) h hd
    obtain ⟨-, -, -, -, hp⟩ := imageWrite_index hw
    obtain ⟨h20, h21, h43⟩ := hp hb
    omega
  · intro s r t c x imm sf h
    refine ⟨fun hi => ⟨execSrd_privileged c x sf h (srPriv_high hi), execSwr_privileged c x sf h (srPriv_high hi)⟩,
      fun ht hi => execSwr_privileged c x sf h ?_, fun hi => execSwr_privileged c x sf h (srPriv_readOnly (readOnly_of_mem hi))⟩
    rw [ht]; exact srPriv_bank (bankIndex_isSome hi)

end Sys2Proof.Claims
end

section
/-!
SUPPORT. The statement about late results fails: a thread that a home's report took out of its slot in RECV (06 R149, R162) and that
still has an access held for a page does not become ready when another report wakes it, but stays evicted (State.makeReady). O37.
-/
namespace Sys2Proof.Claims
open Sys2Proof.Machine

/-- The run state of a thread after an event. -/
def runAfter (r : TRef) : Out → Option Run
  | .next s => (s.thread? r).map Thread.run
  | _ => none

/-- A thread out of its slot in RECV, with a report that waits. -/
def receiver : Thread := { reports := [{ cause := 0x41 }], run := .recv 0 0 {} 0 2 }

/-- The machine with that thread, one of whose accesses its home holds for a page that is not resident. -/
def receiverHeld : State :=
  { State.reset with
    threads := [(⟨0, 0, 0⟩, receiver)]
    ops := [(0, { t := ⟨0, 0, 0⟩, tile := ⟨0, 0⟩, cls := .globalStore, ins := .st {} .w false 0 2 0, phase := .heldNR, prog := 1 })] }

/-- The report abandons the RECV, and the held access keeps the thread evicted. -/
theorem runAfter_receiverHeld : runAfter ⟨0, 0, 0⟩ (exec (.reportDelivery ⟨0, 0, 0⟩) receiverHeld) = some .evicted := by
  decide +kernel

/-- Refutes O37: its last clause has a thread that is out of its slot in RECV ready after any report, also while a home holds an access
of it for a page that is not resident (06 R149). -/
theorem not_lateResults : ¬ Obligations.LateResults := by
  unfold Obligations.LateResults
  rintro ⟨-, -, -, -, -, h⟩
  obtain ⟨-, hrecv⟩ := h receiverHeld ⟨0, 0, 0⟩ receiver { cause := 0x41 } [] rfl rfl rfl rfl
  obtain ⟨s', t', he, ht, hrun, -⟩ := hrecv 0 0 {} 0 2 rfl rfl
  have hready : runAfter ⟨0, 0, 0⟩ (exec (.reportDelivery ⟨0, 0, 0⟩) receiverHeld) = some .ready := by
    rw [show exec (.reportDelivery ⟨0, 0, 0⟩) receiverHeld = .next s' from he, runAfter, ht, Option.map_some, hrun]
  rw [runAfter_receiverHeld] at hready
  cases hready

end Sys2Proof.Claims
end

section
/-!
SUPPORT. Results and posts (02 R40, R41; 03 R55): what the landing of a result, a post and the counts that run out do, and what the end
of a result sets off at its tile. With them, O35 comes down to the draws of a free constant.
-/
namespace Sys2Proof.Machine
open Sys2Proof.Claims

/-! ### What the end of a result sets off (05 R447; 12 R293, R300) -/

/-- A fold whose every step leaves the state as it is. -/
theorem foldl_eq_self {σ α : Type} {f : σ → α → σ} {s : σ} {l : List α} (h : ∀ e ∈ l, f s e = s) : l.foldl f s = s := by
  induction l with
  | nil => rfl
  | cons e l ih =>
    rw [List.foldl_cons, h e List.mem_cons_self]
    exact ih fun e he => h e (List.mem_cons_of_mem _ he)

/-- While no mark of a thread's tile waits for its completion alone, none completes. -/
theorem State.fencesDone_eq {s : State} {r : TRef} (h : marksStand s r = true) : s.fencesDone r = s := by
  refine foldl_eq_self fun e he => ?_
  have hm := List.all_eq_true.mp h e he
  rw [if_neg, if_neg]
  · rintro ⟨h1, h2, h3⟩
    rcases h2 with h2 | h2 <;> simp [h1, h2, h3] at hm
  · rintro ⟨h1, h2, -, -, h3⟩
    simp [h1, h2, h3] at hm

/-- Nothing waits for the results of a steady thread. -/
theorem State.drainDone_eq {s : State} {r : TRef} {t : Thread} (ht : s.thread? r = some t) (h : steady t = true) : s.drainDone r = s := by
  simp only [steady, Bool.and_eq_true, Bool.not_eq_true'] at h
  obtain ⟨⟨hdue, -⟩, hrun⟩ := h
  have hev : s.tryEvict r = s := by simp [State.tryEvict, ht, hdue]
  simp only [State.drainDone, ht]
  split
  · next he => rw [he] at hrun; cases hrun
  · next he => rw [he] at hrun; cases hrun
  · exact hev

/-- What is left of the end of a result at a steady thread: the free slots are filled. -/
theorem State.settle_eq {s : State} {r : TRef} {t : Thread} (ht : s.thread? r = some t) (hs : steady t = true)
    (hm : marksStand s r = true) : s.settle r = s.fillSlots r.tile := by
  simp only [State.settle, State.fencesDone_eq hm, State.drainDone_eq ht hs, ht, Option.isSome_some, if_true]

/-- What filling the slots of a tile leaves of a thread and of the rest: the thread may have got a slot and lost its mark. -/
structure SlotsFilled (r : TRef) (s s' : State) : Prop where
  hbm : s'.hbm = s.hbm
  vtiles : s'.vtiles = s.vtiles
  ops : s'.ops = s.ops
  thread : ∀ t, s.thread? r = some t → ∃ sl ev, s'.thread? r = some { t with slot := sl, evictable := ev }

theorem SlotsFilled.refl (r : TRef) (s : State) : SlotsFilled r s s := ⟨rfl, rfl, rfl, fun t h => ⟨t.slot, t.evictable, h⟩⟩

theorem SlotsFilled.trans {r : TRef} {s s' s'' : State} (h : SlotsFilled r s s') (h' : SlotsFilled r s' s'') : SlotsFilled r s s'' := by
  refine ⟨h'.hbm.trans h.hbm, h'.vtiles.trans h.vtiles, h'.ops.trans h.ops, fun t ht => ?_⟩
  obtain ⟨sl, ev, h1⟩ := h.thread t ht
  obtain ⟨sl', ev', h2⟩ := h'.thread _ h1
  exact ⟨sl', ev', h2⟩

/-- Every draw of a free value is even. -/
def EvenDraws : Prop := ∀ n, Config.freeNat n % 2 = 0

/-- With even draws, no thread's lines are pushed out (05 R135). -/
theorem State.pushOut_filled (hd : EvenDraws) (r : TRef) (s : State) (v : TileRef) : SlotsFilled r s (s.pushOut v) := by
  unfold State.pushOut
  generalize s.tileThreads v = l
  induction l generalizing s with
  | nil => exact .refl r s
  | cons e l ih =>
    rw [List.foldl_cons]
    refine SlotsFilled.trans ?_ (ih _)
    split
    · rw [if_neg (by rw [State.draw, hd s.fresh]; decide)]
      exact ⟨rfl, rfl, rfl, fun t h => ⟨t.slot, t.evictable, h⟩⟩
    · exact .refl r s

theorem State.giveSlot_filled (r q : TRef) (s : State) (sl : Thread → Option Nat) :
    SlotsFilled r s (s.updThread q fun t => { t with slot := sl t, evictable := false }) := by
  refine ⟨rfl, rfl, rfl, fun t ht => ?_⟩
  rw [State.thread?_updThread, ht]
  split
  · exact ⟨sl t, false, rfl⟩
  · exact ⟨t.slot, t.evictable, rfl⟩

theorem fillSlotsN_filled (hd : EvenDraws) (r : TRef) (n : Nat) (v : TileRef) (s : State) : SlotsFilled r s (fillSlotsN n v s) := by
  induction n generalizing s with
  | zero => exact .refl r s
  | succ n ih =>
    unfold fillSlotsN
    split
    · exact ((State.giveSlot_filled r _ s fun t => some (if s.isDet v.l then t.lane.toNat % 16 else _)).trans
        (State.pushOut_filled hd ..)).trans (ih _)
    · exact .refl r s

theorem State.fillSlots_filled (hd : EvenDraws) (r : TRef) (v : TileRef) (s : State) : SlotsFilled r s (s.fillSlots v) := by
  unfold State.fillSlots
  split
  · exact (State.pushOut_filled hd ..).trans (fillSlotsN_filled hd ..)
  · exact fillSlotsN_filled hd ..

/-! ### Posts (02 R34 to R36; 22 R421) -/

theorem Thread.tokAt_post (t : Thread) (k j : Tok) (n : Nat) :
    ((t.post k n).tokAt j).count = (t.tokAt j).count ∧ ((t.post k n).tokAt j).inc = (t.tokAt j).inc + (if j = k then n else 0) := by
  rw [Thread.post, Thread.tokAt_setTok]
  by_cases h : k = j
  · subst h; simp
  · simp [h, Ne.symm h]

/-- A post that has landed in a thread that has not exited. -/
def Thread.landPost (t : Thread) (g : Sig) : Thread :=
  let t := t.post g.tok g.inc
  if t.rst ∧ g.region = t.region then { t with acc := t.acc.set g.tok.toFin (t.acc[g.tok.toFin] - g.inc) } else t

theorem State.postSig_eq {s : State} {r : TRef} {t : Thread} (ht : s.thread? r = some t) (g : Sig) :
    s.postSig r g = s.setThread r (if t.run = .exited then t else t.landPost g) := by
  rw [State.postSig, State.updThread_eq ht]; rfl

theorem Thread.landPost_fields (t : Thread) (g : Sig) :
    (t.landPost g).g = t.g ∧ (t.landPost g).pc = t.pc ∧ (t.landPost g).pend = t.pend ∧ (t.landPost g).fpctl = t.fpctl ∧
    (t.landPost g).inflight = t.inflight ∧ (t.landPost g).run = t.run ∧ (t.landPost g).evictDue = t.evictDue ∧
    (t.landPost g).evictable = t.evictable ∧ ∀ j, (t.landPost g).tokAt j = (t.post g.tok g.inc).tokAt j := by
  unfold Thread.landPost
  dsimp only
  split <;> exact ⟨rfl, rfl, rfl, rfl, rfl, rfl, rfl, rfl, fun _ => rfl⟩

theorem Thread.landPost_acc (t : Thread) (g : Sig) (j : Tok) : (t.landPost g).acc[j.toFin] =
    t.acc[j.toFin] - (if j = g.tok ∧ t.rst = true ∧ g.region = t.region then (g.inc : Int) else 0) := by
  unfold Thread.landPost
  dsimp only
  by_cases hc : t.rst = true ∧ g.region = t.region
  · rw [if_pos (show (t.post g.tok g.inc).rst = true ∧ g.region = (t.post g.tok g.inc).region from hc)]
    by_cases hj : j = g.tok
    · subst hj; simp [hc, Thread.post, Thread.setTok]
    · have hne : g.tok.toNat ≠ j.toNat := fun h => hj (BitVec.eq_of_toNat_eq h.symm)
      simp [hj, Thread.post, Thread.setTok, hne]
  · rw [if_neg (show ¬ ((t.post g.tok g.inc).rst = true ∧ g.region = (t.post g.tok g.inc).region) from hc), if_neg (fun h => hc h.2)]
    simp [Thread.post, Thread.setTok]


/-! ### A result that lands (02 R40, R41) -/

/-- One result lands: its register, unless a later producer's result stands there, its flags, and its flight is gone. -/
theorem Thread.landFlight_one {t : Thread} {f : Flight} {x : Reg} {w : Word} (h : f.writes = [(x, w)]) :
    (t.landFlight f).reg x = (if t.landed[x.toFin] ≤ f.id then w else t.reg x) ∧
    (∀ y, y ≠ x → (t.landFlight f).reg y = t.reg y) ∧ (t.landFlight f).fpctl = orSFLG t.fpctl f.flags ∧
    (∀ g ∈ (t.landFlight f).inflight, g.id ≠ f.id) ∧ (t.landFlight f).pc = t.pc ∧ (t.landFlight f).pend = t.pend ∧
    (∀ k, (t.landFlight f).tokAt k = t.tokAt k) ∧ (t.landFlight f).run = t.run ∧ steady (t.landFlight f) = steady t := by
  have hin : ∀ u : Thread, ∀ g ∈ (u.inflight.filter fun g => decide (g.id ≠ f.id)), g.id ≠ f.id := by
    intro u g hg; simpa using (List.mem_filter.mp hg).2
  simp only [Thread.landFlight, h, Thread.landWrites, Thread.landWrite]
  split
  · refine ⟨?_, fun y hy => ?_, rfl, hin _, rfl, rfl, fun _ => rfl, rfl, rfl⟩
    · exact (Thread.reg_setReg ..).trans (if_pos rfl)
    · exact (Thread.reg_setReg ..).trans (if_neg hy.symm)
  · exact ⟨rfl, fun _ _ => rfl, rfl, hin _, rfl, rfl, fun _ => rfl, rfl, rfl⟩

/-- A thread after an optional post. -/
def Thread.landPost? (t : Thread) : Option Sig → Thread
  | none => t
  | some g => if t.run = .exited then t else t.landPost g

theorem State.postSig?_eq {s : State} {r : TRef} {t : Thread} (ht : s.thread? r = some t) (g : Option Sig) :
    s.postSig? r g = s.setThread r (t.landPost? g) := by
  cases g with
  | none => exact (State.setThread_self ht).symm
  | some g => exact State.postSig_eq ht g

theorem Thread.landPost?_fields (t : Thread) (g : Option Sig) :
    (t.landPost? g).g = t.g ∧ (t.landPost? g).pc = t.pc ∧ (t.landPost? g).pend = t.pend ∧ (t.landPost? g).fpctl = t.fpctl ∧
    (t.landPost? g).inflight = t.inflight ∧ steady (t.landPost? g) = steady t := by
  cases g with
  | none => exact ⟨rfl, rfl, rfl, rfl, rfl, rfl⟩
  | some g =>
    obtain ⟨h1, h2, h3, h4, h5, h6, h7, h8, -⟩ := t.landPost_fields g
    unfold Thread.landPost?
    dsimp only
    split
    · exact ⟨rfl, rfl, rfl, rfl, rfl, rfl⟩
    · exact ⟨h1, h2, h3, h4, h5, by simp only [steady, h6, h7, h8]⟩

theorem Thread.landPost?_inc (t : Thread) (g : Option Sig) (k : Tok) :
    ((t.landPost? g).tokAt k).inc = (t.tokAt k).inc + (match g with
      | some g => if g.tok = k ∧ t.run ≠ .exited then g.inc else 0
      | none => 0) := by
  cases g with
  | none => rfl
  | some g =>
    unfold Thread.landPost?
    dsimp only
    by_cases hr : t.run = .exited
    · rw [if_pos hr, if_neg (fun h => h.2 hr)] <;> rfl
    · obtain ⟨-, -, -, -, -, -, -, -, ht⟩ := t.landPost_fields g
      rw [if_neg hr, ht, (t.tokAt_post ..).2]
      by_cases hk : k = g.tok
      · rw [if_pos hk, if_pos ⟨hk.symm, hr⟩]
      · rw [if_neg hk, if_neg fun h => hk h.1.symm]

/-- FIXED_LATENCY_WRITEBACK of a result that is due (02 R40): it lands, it posts, and the free slots are filled. -/
theorem execFixedLatencyWriteback_eq {s : State} {r : TRef} {t : Thread} {f : Flight} {x : Reg} {w : Word} (ht : s.thread? r = some t)
    (hf : t.inflight.find? (fun g => decide (g.id = f.id)) = some f) (hdue : f.due ≤ s.cycle) (htrap : f.fpTrap = none)
    (hw : f.writes = [(x, w)]) (hs : steady t = true) (hm : marksStand s r = true) :
    execFixedLatencyWriteback r f.id s = .next ((s.setThread r ((t.landFlight f).landPost? f.sig)).fillSlots r.tile) := by
  obtain ⟨-, -, -, -, -, -, -, -, hsteady⟩ := Thread.landFlight_one (t := t) hw
  obtain ⟨-, -, -, -, -, hsteady'⟩ := (t.landFlight f).landPost?_fields f.sig
  have hno : ¬ (f.due > s.cycle ∨ f.fpTrap.isSome = true) := by simp [htrap]; omega
  have hset : ∀ u : Thread, (s.setThread r u).thread? r = some u := fun u => by rw [State.thread?_setThread, if_pos rfl]
  simp only [execFixedLatencyWriteback, ht, hf, if_neg hno]
  rw [State.postSig?_eq (hset _), State.setThread_setThread,
    State.settle_eq (hset _) ((hsteady'.trans hsteady).trans hs) (show marksStand (s.setThread r _) r = true from hm)]

theorem State.closeChunk_eq {s : State} {r : TRef} {l : Lane} {c : Chunk} (hl : s.lanes.get? r = some l) (hc : l.openChunk? = some c)
    (k : Cut) : s.closeChunk r k = s.updChunk r fun c => { c with cut := k } := by
  have hlast : ∀ l : List Chunk, l.getLast? = some c → c.cut = .opened →
      updLast (fun c => if c.cut = .opened then { c with cut := k } else c) l = updLast (fun c => { c with cut := k }) l := by
    intro l
    induction l with
    | nil => intro _ _; rfl
    | cons a l ih =>
      intro h ho
      cases l with
      | nil =>
        obtain rfl : a = c := by simpa using h
        simp [updLast, ho]
      | cons b l =>
        rw [List.getLast?_cons_cons] at h
        simp only [updLast]
        rw [ih h ho]
  unfold Lane.openChunk? at hc
  split at hc
  · next d hd =>
    split at hc
    · next ho =>
      obtain rfl : d = c := by simpa using hc
      simp only [State.closeChunk, State.updChunk, State.updLane, Assoc.upd_of_get? _ hl, hlast _ hd ho]
    · cases hc
  · cases hc

theorem State.atCount_chunk {s : State} {r : TRef} (h : s.atCount r = true) :
    ∃ l c, s.lanes.get? r = some l ∧ l.openChunk? = some c := by
  unfold State.atCount at h
  split at h
  · next c hc =>
    obtain ⟨l, hl, ho⟩ := Option.bind_eq_some_iff.mp hc
    exact ⟨l, c, hl, ho⟩
  · cases h

end Sys2Proof.Machine

namespace Sys2Proof.Claims
open Sys2Proof.Machine

/-- With even draws no thread is pushed out, and every clause holds, whatever the thread table lists. -/
theorem resultsAndPosts_of_even (hd : EvenDraws) : Obligations.ResultsAndPosts := by
  unfold Obligations.ResultsAndPosts
  refine ⟨fun s r t f x w ht hf hdue htrap hw hs hm => ?_, fun s r t region n k ht => ?_, fun s r t ht => ⟨fun h => ?_, fun h => ?_,
    fun h => ?_, fun h hrun hfree => ?_⟩, fun s r h => ?_⟩
  · obtain ⟨hx, hy, hfl, hin, hpc, hpend, htok, hrun, -⟩ := Thread.landFlight_one (t := t) hw
    obtain ⟨pg, ppc, ppend, pfl, pin, -⟩ := (t.landFlight f).landPost?_fields f.sig
    have hfill := State.fillSlots_filled hd r r.tile (s.setThread r ((t.landFlight f).landPost? f.sig))
    obtain ⟨sl, ev, hth⟩ := hfill.thread _ (by rw [State.thread?_setThread, if_pos rfl])
    have hreg : ∀ y, ((t.landFlight f).landPost? f.sig).reg y = (t.landFlight f).reg y := fun y => by simp only [Thread.reg, pg]
    refine ⟨_, _, execFixedLatencyWriteback_eq ht hf hdue htrap hw hs hm, hth, (hreg x).trans hx, fun y h => (hreg y).trans (hy y h),
      pfl.trans hfl, fun g hg => hin g (pin ▸ hg), ppc.trans hpc, ppend.trans hpend, fun k => ?_, hfill.hbm, hfill.vtiles, hfill.ops⟩
    refine ((t.landFlight f).landPost?_inc f.sig k).trans ?_
    rw [htok, hrun] <;> rfl
  · refine ⟨_, congrArg _ (State.postSig_eq ht ⟨k, n, region⟩), fun h => if_pos h, fun h => ?_⟩
    obtain ⟨hg, hpc, -, -, -, -, -, -, htok⟩ := t.landPost_fields ⟨k, n, region⟩
    rw [if_neg h]
    refine ⟨fun j => ?_, hg, hpc⟩
    rw [htok]
    exact ⟨(t.tokAt_post k j n).1, (t.tokAt_post k j n).2, t.landPost_acc ⟨k, n, region⟩ j⟩
  · exact congrArg _ ((State.updThread_eq ht _).trans (by rw [if_pos h]))
  · exact congrArg _ ((State.updThread_eq ht _).trans (by rw [if_pos h]))
  · exact congrArg _ ((State.updThread_eq ht _).trans (by rw [if_pos h]))
  · refine congrArg Host.Outcome.next ?_
    simp only [ht, hrun, hfree, if_true, State.updThread_eq ht]
  · obtain ⟨l, c, hl, hc⟩ := State.atCount_chunk h
    refine congrArg Host.Outcome.next ?_
    rw [if_pos h, State.closeChunk_eq hl hc]

end Sys2Proof.Claims

namespace Sys2Proof.Claims
open Sys2Proof.Machine

/-! ### A thread table with two entries of one thread -/

/-- A result that is due, and the thread that waits for it. -/
def dueFlight : Flight := { id := 0, due := 0, writes := [(0, 5)] }
def waitingThread : Thread := { inflight := [dueFlight] }

/-- A thread whose lines may be pushed out, and the same as it stands afterwards. -/
def evictableThread : Thread := { g := Vector.replicate 16 9, pc := 1, evictable := true }
def pushedThread : Thread := { evictableThread with evictable := false }

/-- A tile's thread table: a thread, a second entry of its name, and a thread in each of the 16 slots. -/
def doubledTable (t : Thread) : Assoc TRef Thread :=
  (⟨0, 0, 0⟩, t) :: (⟨0, 0, 0⟩, evictableThread) :: (List.range 16).map fun i => (⟨0, 0, i + 1⟩, { slot := some i })

/-- The machine with that table; its next draw is the one of number `n`. -/
def doubled (n : Nat) (t : Thread) : State := { State.reset with fresh := n, threads := doubledTable t }

/-- An odd draw pushes the second entry out, and puts it in place of the first. -/
theorem pushOut_doubled {n : Nat} (h : Config.freeNat n % 2 = 1) {t : Thread} (ht : t.evictable = false) :
    (doubled n t).pushOut ⟨0, 0⟩ = { doubled (n + 1) pushedThread with nextId := 2 } := by
  rw [State.pushOut, show (doubled n t).tileThreads ⟨0, 0⟩ = doubledTable t from rfl, doubledTable, List.foldl_cons,
    if_neg (by simp [ht]), List.foldl_cons, if_pos ⟨rfl, rfl, rfl, rfl, rfl⟩]
  refine (foldl_eq_self fun e he => ?_).trans ((if_pos h).trans rfl)
  obtain ⟨i, -, rfl⟩ := List.mem_map.mp he
  exact if_neg (by simp)

theorem fillSlots_doubled {n : Nat} (h : Config.freeNat n % 2 = 1) {t : Thread} (ht : t.evictable = false)
    (hw : ((doubled n t).nextReady ⟨0, 0⟩).isSome = true ∧ (doubled n t).lowestSlot ⟨0, 0⟩ = none) :
    (doubled n t).fillSlots ⟨0, 0⟩ = { doubled (n + 1) pushedThread with nextId := 2 } := by
  have hfull : ({ doubled (n + 1) pushedThread with nextId := 2 } : State).lowestSlot ⟨0, 0⟩ = none := rfl
  rw [State.fillSlots, if_pos hw, pushOut_doubled h ht, fillSlotsN, hfull]
  cases ({ doubled (n + 1) pushedThread with nextId := 2 } : State).nextReady ⟨0, 0⟩ <;> rfl

/-- After an odd draw, the thread holds the registers of its second entry, and not those that it had. -/
theorem not_resultsAndPosts_of_odd {n : Nat} (h : Config.freeNat n % 2 = 1) : ¬ Obligations.ResultsAndPosts := by
  unfold Obligations.ResultsAndPosts
  rintro ⟨hland, -⟩
  have hrun := execFixedLatencyWriteback_eq (s := doubled n waitingThread) (r := ⟨0, 0, 0⟩) (t := waitingThread) (f := dueFlight)
    rfl rfl (Nat.zero_le _) rfl rfl rfl rfl
  rw [show (doubled n waitingThread).setThread ⟨0, 0, 0⟩ ((waitingThread.landFlight dueFlight).landPost? dueFlight.sig) =
    doubled n (waitingThread.landFlight dueFlight) from rfl,
    show (⟨0, 0, 0⟩ : TRef).tile = ⟨0, 0⟩ from rfl, fillSlots_doubled h rfl ⟨rfl, rfl⟩] at hrun
  obtain ⟨s', t', he, ht, -, hreg, -⟩ := hland (doubled n waitingThread) ⟨0, 0, 0⟩ waitingThread dueFlight 0 5 rfl rfl
    (Nat.zero_le _) rfl rfl rfl rfl
  obtain rfl := Host.Outcome.next.inj (hrun.symm.trans he)
  obtain rfl : pushedThread = t' := Option.some.inj ht
  exact absurd (hreg 1 (by decide)) (by decide)

/-- O35 is equivalent to a fact about Config.freeNat, which has no body, so that neither it nor its negation follows: its first clause is
also about states whose thread table lists a thread twice, and there State.pushOut replaces the first entry at an odd draw. -/
theorem resultsAndPosts_iff_evenDraws : Obligations.ResultsAndPosts ↔ EvenDraws := by
  refine ⟨fun h n => ?_, resultsAndPosts_of_even⟩
  rcases Nat.mod_two_eq_zero_or_one (Config.freeNat n) with h0 | h1
  · exact h0
  · exact absurd h (not_resultsAndPosts_of_odd h1)

end Sys2Proof.Claims

end

section
/-!
SUPPORT. The encoder and the decoder together: what the decoder makes of the words of 03 R70, of the word of each instruction, and of
the bytes of words (03 R51, R70 to R76). O56, O57.
-/
namespace Sys2Proof.Laws.Encodes

/-- Every instruction of the opcode map, by its own lemma. -/
theorem decodeArea_area (i : Instr) : Statement i :=
  i.casesOn
    add sub mul mulh mulhu div divu rem remu and or xor andn shl shr sar rol clz popc brev min max minu maxu adds subs cmp sel mov
    extb insb hash bswap addi andi ori xori shli shri sari cmpi movi movhi fadd fsub fmul ffma fmin fmax fcmp fsgn frcp frsq fcvt fcls
    addp addpi movp cmpp br bz bnz loop call pca callr jmpr ret dly yield exit wait bkpt ld st ldp stp ldaq strl aadd aand aor axor
    amin amax aminu amaxu axch acas afadd afmin afmax cinv cfls fence pfence send recv mpoll put get migr xin xout vadd vsub vmul vfma
    vmin vmax vscl vadds vabs vneg vexp vlog vrcp vrsq vtanh vsum vmaxr vminr vargm vdot vcmp vsel vgath vscat vbcst viota vcopy
    vlogic vhash wset wget qload qsave qseed qgen qgenv oclm orls oload mmg mol mdrn mclr mstat trst tadd trd gnew gjoin gleave gfree
    gcnt gbar gred copy cpyx cpyq lnch trig lwait trap rett srd swr spawn reap svc einj idem fixedLatencyWriteback longLatencyWrite
    signalPost gapExpiry dlyExpiry takenTransferRefetch scalarFpTrap reportDelivery consumedError deferredFaultReport
    retryLatchRelease threadReady vectorOpStart vectorOpComplete qruCommandComplete transferComplete oloadComplete gangLineRelease
    mmgExecute molExecute mdrnExecute mclrExecute mstatExecute parityUpdate refreshWindowBegin refreshWindowEnd messageDelivery
    remoteAccessServe migrationDeparture migrationLanding returnHome homeAccess tlbWalkComplete notResidentReport pageResident
    pageMoveSector readCacheRefill writeBufferRelease groupOpAtHome groupAck copyUnitComplete launchAccept copyListEntry gangPlacement
    parkQueueDelivery workDonation vttCacheRefill gangSwapOut gangRestore launchComplete quantumExpiry dispatch boostExpiry preemption
    chunkCountCut commitTurn killFlood killSweepEnd killConfirm uncontainedError voteRecord unitRetire droopEvent woreriFlitReceive
    woreriNakReplay laneRetrain reduceOpPerform svcReturn illegalOp vdCapped allowancePeriodBegin governorTick hostLinkDown hostLinkUp
    qtailDoorbell queueConfigWrite hostWindowRead hostWindowWrite cmdKill cmdKillvd poolTableWrite vdTableWrite netctlWrite routeWrite
    dbgcertWrite registerWrite spdmSessionEstablish debugStop debugStep debugWithdraw debugArm debugDisarm debugRead debugWrite detach
    endSession sessionTimeout moduleReset powerLoss temperatureChange softError scrub physicalFunctionPageRequest ringOscillatorWindow

end Sys2Proof.Laws.Encodes

namespace Sys2Proof

/-! ### The instruction word (03 R51) -/

/-- The primary codes of the map are neither unassigned (03 R77) nor those of prefixes and headers. -/
theorem Instr.opcode_legal {i : Instr} {op : Nat} (h : i.opcode = some op) : op < 0xFC ∧ illegalCode op = false := by
  cases i <;> cases h <;> decide

/-- Bit 3 of an F-M area is GO (03 R60). -/
theorem FM.bits_go (f : FM) : f.bits.getLsbD 3 = f.go := by
  rw [← congrArg FM.go (FM.of_bits f)]; rfl

/-- The GO bit of a word is that of its instruction (03 R81). -/
theorem Instr.area_go {i : Instr} {op : Nat} (h : i.opcode = some op) : (hasGo op && i.area.getLsbD 3) = i.goForm := by
  cases i
  case ld | st | ldp | stp | aadd | aand | aor | axor | amin | amax | aminu | amaxu | axch | acas | afadd | afmin | afmax =>
    cases h; exact FM.bits_go _
  all_goals cases h <;> rfl

theorem opOf_word {op : Nat} (h : op < 256) (c : BitVec 20) (a : BitVec 36) : opOf (BitVec.ofNat 8 op ++ c ++ a) = op := by
  simp (disch := omega) only [opOf, extract_append_high, Nat.reduceSub, extract_self, BitVec.toNat_ofNat, Nat.reducePow, Nat.mod_eq_of_lt]

theorem decodeWord_word {i : Instr} {op : Nat} (ho : i.opcode = some op) (hf : i.fieldsOk = true)
    (hp : prefixesOk op i.goForm i.ctl.pfx = true) :
    decodeWord i.ctl.pfx (BitVec.ofNat 8 op ++ i.ctl.bits ++ i.area) = .ok i := by
  obtain ⟨hlt, hd⟩ := Laws.Encodes.decodeArea_area i hf op ho
  simp (disch := omega) only [decodeWord, opOf_word hlt, extract_append_high, extract_append_low, bit_append_low, Nat.reduceSub,
    extract_self, Ctl.of_bits, Instr.area_go ho, hp, hd, hf, (Instr.opcode_legal ho).2, Bool.false_eq_true, if_true, if_false]

/-! ### Prefixes before it (03 R70, R75) -/

theorem isPrefixOp_word (p : Prefix) : isPrefixOp (opOf p.word) = true := by
  cases p with
  | ximm v | scope v =>
    simp (disch := omega) only [Prefix.word, opOf, extract_append_high, Nat.reduceSub, extract_self]; rfl
  | trip => rfl

theorem decodePrefix_word (p : Prefix) : decodePrefix p.word = some p := by
  cases p with
  | ximm v =>
    simp (disch := omega) only [decodePrefix, Prefix.word, opOf, extract_append_high, extract_append_low, Nat.reduceSub, extract_self]
    rfl
  | scope s => cases s <;> rfl
  | trip => rfl

/-- The kinds of prefixes are numbered from 0 to 2. -/
theorem Prefix.kind_lt (p : Prefix) : p.kind < 3 := by
  cases p <;> simp only [Prefix.kind] <;> decide

/-- There are three kinds, so that a sequence of different kinds holds at most three prefixes. -/
theorem length_le_of_prefixesOk {op : Nat} {go : Bool} {ps : List Prefix} (h : prefixesOk op go ps = true) : ps.length ≤ 3 := by
  have hn : (ps.map Prefix.kind).Nodup := by
    simp only [prefixesOk, Bool.and_eq_true, decide_eq_true_eq] at h; exact h.2
  match ps, hn with
  | [], _ | [_], _ | [_, _], _ | [_, _, _], _ => simp only [List.length_cons, List.length_nil]; omega
  | p :: q :: r :: u :: _, hn =>
    simp only [List.map_cons, List.nodup_cons, List.mem_cons, not_or] at hn
    obtain ⟨⟨hpq, hpr, hpu, -⟩, ⟨hqr, hqu, -⟩, ⟨hru, -⟩, -⟩ := hn
    have hp := p.kind_lt
    have hq := q.kind_lt
    have hr := r.kind_lt
    have hu := u.kind_lt
    omega

/-- Prefix words are read one after the other, each for one unit of fuel. -/
theorem decodeWords_prefixes (ps qs : List Prefix) (f : Nat) (ws : List DWord) :
    decodeWords qs false (f + ps.length) (ps.map Prefix.word ++ ws) = decodeWords (qs ++ ps) false f ws := by
  induction ps generalizing qs with
  | nil => simp
  | cons p ps ih =>
    rw [List.map_cons, List.cons_append, List.length_cons, ← Nat.add_assoc, decodeWords.eq_def]
    simp only [isPrefixOp_word, decodePrefix_word, if_true]
    rw [ih, List.append_assoc]; rfl

theorem decodeWords_instr {w : DWord} {ps : List Prefix} {i : Instr} (hlt : opOf w < 0xFC) (hleg : illegalCode (opOf w) = false)
    (h : decodeWord ps w = .ok i) (f : Nat) (ws : List DWord) : decodeWords ps false f (w :: ws) = .ok (i, ws) := by
  have hp : isPrefixOp (opOf w) = false := by simp [isPrefixOp]; omega
  have hh : opOf w ≠ 0xFF := by omega
  rw [decodeWords.eq_def]
  simp only [hp, hh, hleg, h, Bool.false_eq_true, if_false]

theorem illegalCode_lt {n : Nat} (h : illegalCode n = true) : n < 0xFC := by
  simp only [illegalCode, Bool.or_eq_true, Bool.and_eq_true, decide_eq_true_eq, beq_iff_eq] at h
  omega

theorem decodeWords_illegal {w : DWord} (h : illegalCode (opOf w) = true) (f : Nat) (ws : List DWord) :
    decodeWords [] false f (w :: ws) = .ok (.illegalOp w, ws) := by
  have hlt := illegalCode_lt h
  have hp : isPrefixOp (opOf w) = false := by simp [isPrefixOp]; omega
  have hh : opOf w ≠ 0xFF := by omega
  rw [decodeWords.eq_def]
  simp only [hp, hh, h, Bool.false_eq_true, if_true, if_false]

/-- A word that has no primary code of its own keeps the one it came with (03 R77). -/
theorem Instr.eq_illegalOp {i : Instr} (hw : i.isWord = true) (ho : i.opcode = none) : ∃ w, i = .illegalOp w := by
  cases i
  case illegalOp w => exact ⟨w, rfl⟩
  all_goals cases ho <;> cases hw

/-- Well-formed words decode to their instruction, whatever words follow. -/
theorem decodeWords_encode {i : Instr} (hw : i.isWord = true) (h : i.wellFormed = true) (ws : List DWord) :
    decodeWords [] false 3 (encode i ++ ws) = .ok (i, ws) := by
  simp only [Instr.wellFormed, Bool.and_eq_true] at h
  obtain ⟨hf, hp⟩ := h
  cases ho : i.opcode with
  | some op =>
    rw [ho] at hp
    have hlen := length_le_of_prefixesOk hp
    obtain ⟨hlt, hleg⟩ := Instr.opcode_legal ho
    have hop := opOf_word (show op < 256 by omega) i.ctl.bits i.area
    have hrun := decodeWords_prefixes i.ctl.pfx [] (3 - i.ctl.pfx.length) ((BitVec.ofNat 8 op ++ i.ctl.bits ++ i.area) :: ws)
    rw [Nat.sub_add_cancel hlen] at hrun
    simp only [encode, ho, List.append_assoc, List.singleton_append]
    exact hrun.trans (decodeWords_instr (by rwa [hop]) (by rwa [hop]) (decodeWord_word ho hf hp) _ _)
  | none =>
    obtain ⟨w, rfl⟩ := Instr.eq_illegalOp hw ho
    exact decodeWords_illegal hf 3 ws

/-! ### Bytes (03 R51: little-endian) -/

theorem wordOf_bytesOf (w : DWord) :
    w.extractLsb' 56 8 ++ w.extractLsb' 48 8 ++ w.extractLsb' 40 8 ++ w.extractLsb' 32 8 ++ w.extractLsb' 24 8 ++
      w.extractLsb' 16 8 ++ w.extractLsb' 8 8 ++ w.extractLsb' 0 8 = w := by
  iterate 7 rw [BitVec.extractLsb'_append_extractLsb'_eq_extractLsb' (by rfl)]
  exact extract_self w

theorem bytesOf_bytes (b0 b1 b2 b3 b4 b5 b6 b7 : Byte) :
    bytesOf (b7 ++ b6 ++ b5 ++ b4 ++ b3 ++ b2 ++ b1 ++ b0) = [b0, b1, b2, b3, b4, b5, b6, b7] := by
  simp (disch := omega) only [bytesOf, extract_append_high, extract_append_low, Nat.reduceSub, extract_self]

theorem wordsOf_flatMap (ws : List DWord) (rest : List Byte) :
    wordsOf (ws.flatMap bytesOf ++ rest) = (ws ++ (wordsOf rest).1, (wordsOf rest).2) := by
  induction ws with
  | nil => rfl
  | cons w ws ih =>
    rw [List.flatMap_cons, List.append_assoc]
    simp only [bytesOf, List.cons_append, List.nil_append, wordsOf, ih, wordOf_bytesOf]

theorem bytes_wordsOf (bs : List Byte) : (wordsOf bs).1.flatMap bytesOf ++ (wordsOf bs).2 = bs := by
  induction bs using wordsOf.induct with
  | case1 b0 b1 b2 b3 b4 b5 b6 b7 t ih =>
    simp only [wordsOf, List.flatMap_cons, bytesOf_bytes, ih, List.cons_append, List.nil_append]
  | case2 l h => rw [wordsOf.eq_2 l h]; rfl

/-- Decoding from bytes is decoding from the words that they make. -/
theorem decode_flatMap {ws : List DWord} {i : Instr} (h : ∀ more, decodeWords [] false 3 (ws ++ more) = .ok (i, more))
    (rest : List Byte) : decode (ws.flatMap bytesOf ++ rest) = .ok (i, rest) := by
  simp only [decode, wordsOf_flatMap, h, bytes_wordsOf]

end Sys2Proof

namespace Sys2Proof.Claims

/-- Settles O56, from what the decoder makes of the words of 03 R70, of the word of each instruction, and of the bytes of words. -/
theorem decodingInvertsEncoding : Obligations.DecodingInvertsEncoding := by
  unfold Obligations.DecodingInvertsEncoding
  intro i hw h
  refine ⟨?_, decode_flatMap (decodeWords_encode hw h)⟩
  simpa using decodeWords_encode hw h []

/-- Settles O57, by running the decoder on each sequence of words. -/
theorem decodedWords : Obligations.DecodedWords := by
  unfold Obligations.DecodedWords
  and_intros <;> rfl

end Sys2Proof.Claims
end

section
/-!
SUPPORT. The checks before issue in their order (03 R53), and what issue changes of a thread (03 R54, R56). O7, O8.
-/
namespace Sys2Proof.Machine

/-! ### Issue (02 R35, R44; 03 R54, R56; 22 R421) -/

theorem Thread.consumeWait_none {t : Thread} {c : Ctl} (h : ¬ (c.wc = true ∧ c.thr ≠ 0)) : t.consumeWait c = t :=
  if_neg (by simpa using h)

/-- A wait that consumes: the token, and ACC while a region stands. -/
theorem Thread.consumeWait_some {t : Thread} {c : Ctl} (h : c.wc = true ∧ c.thr ≠ 0) :
    t.consumeWait c = { t with
      tok := t.tok.set c.tok.toFin ((t.tokAt c.tok).consume c.thr.toNat)
      acc := if t.rst then t.acc.set c.tok.toFin (t.acc[c.tok.toFin] + c.thr.toNat) else t.acc } := by
  refine (if_pos (by simpa using h)).trans ?_
  by_cases hr : t.rst = true
  · rw [if_pos hr]; exact if_pos hr
  · rw [if_neg hr]; exact if_neg hr

/-- What is not of tokens and ACC, consuming leaves as it is. -/
theorem Thread.consumeWait_fields (t : Thread) (c : Ctl) :
    (t.consumeWait c).pc = t.pc ∧ (t.consumeWait c).instret = t.instret ∧ (t.consumeWait c).g = t.g ∧
    (t.consumeWait c).fpctl = t.fpctl ∧ (t.consumeWait c).tovf = t.tovf ∧ (t.consumeWait c).tl = t.tl ∧ (t.consumeWait c).rst = t.rst ∧
    (t.consumeWait c).inflight = t.inflight := by
  by_cases hc : c.wc = true ∧ c.thr ≠ 0
  · rw [Thread.consumeWait_some hc]; exact ⟨rfl, rfl, rfl, rfl, rfl, rfl, rfl, rfl⟩
  · rw [Thread.consumeWait_none hc]; exact ⟨rfl, rfl, rfl, rfl, rfl, rfl, rfl, rfl⟩

/-- Passing an instruction touches no token and no register. -/
theorem Thread.passAt_fields (t : Thread) (c : Ctl) (now stamp : Nat) :
    (t.passAt c now stamp).pc = t.pc + BitVec.ofNat 64 (8 * (c.pfx.length + 1)) ∧
    (t.passAt c now stamp).gapUntil = now + 1 + c.gap.toNat ∧ (t.passAt c now stamp).instret = t.instret + 1 ∧
    (t.passAt c now stamp).g = t.g ∧ (t.passAt c now stamp).fpctl = t.fpctl ∧ (t.passAt c now stamp).tovf = t.tovf ∧
    (t.passAt c now stamp).tl = t.tl ∧ (t.passAt c now stamp).rst = t.rst ∧ (t.passAt c now stamp).inflight = t.inflight ∧
    (∀ k, (t.passAt c now stamp).tokAt k = t.tokAt k) ∧ (t.passAt c now stamp).acc = t.acc := by
  unfold Thread.passAt
  split <;> exact ⟨rfl, rfl, rfl, rfl, rfl, rfl, rfl, rfl, rfl, fun _ => rfl, rfl⟩

/-- A consume comes off the sum of count and posts. -/
theorem Token.consume_sum (k : Token) (n : Nat) : (k.consume n).count + (k.consume n).inc = k.count + k.inc - n := by
  unfold Token.consume
  split
  · dsimp only; omega
  · exact Nat.zero_add _

theorem Thread.tokAt_consumeWait (t : Thread) (c : Ctl) (k : Tok) :
    (t.consumeWait c).tokAt k = if k = c.tok ∧ c.wc = true ∧ c.thr ≠ 0 then (t.tokAt k).consume c.thr.toNat else t.tokAt k := by
  by_cases hc : c.wc = true ∧ c.thr ≠ 0
  · have hset : (t.consumeWait c).tokAt k = (t.setTok c.tok ((t.tokAt c.tok).consume c.thr.toNat)).tokAt k := by
      rw [Thread.consumeWait_some hc]; rfl
    rw [hset, Thread.tokAt_setTok]
    by_cases hk : k = c.tok
    · subst hk; rw [if_pos rfl, if_pos ⟨rfl, hc⟩]
    · rw [if_neg (Ne.symm hk), if_neg fun h => hk h.1]
  · rw [Thread.consumeWait_none hc, if_neg fun h => hc h.2]

/-- While a region stands, ACC counts what is consumed. -/
theorem Thread.acc_consumeWait (t : Thread) (c : Ctl) (k : Tok) :
    (t.consumeWait c).acc[k.toFin] = t.acc[k.toFin] + if k = c.tok ∧ c.wc = true ∧ t.rst = true then (c.thr.toNat : Int) else 0 := by
  by_cases hc : c.wc = true ∧ c.thr ≠ 0
  · simp only [Thread.consumeWait_some hc, Fin.getElem_fin]
    by_cases hr : t.rst = true
    · by_cases hk : k = c.tok
      · subst hk; simp [hc.1, hr]
      · have hne : c.tok.toNat ≠ k.toNat := fun h => hk (BitVec.eq_of_toNat_eq h.symm)
        simp [hk, hne, hr]
    · simp [hr]
  · have h0 : (if k = c.tok ∧ c.wc = true ∧ t.rst = true then (c.thr.toNat : Int) else 0) = 0 := by
      split
      · next h => rw [Decidable.not_and_not_right.mp hc h.2.1]; rfl
      · rfl
    rw [Thread.consumeWait_none hc, h0, Int.add_zero]

/-! ### The checks in their order (03 R53) -/

/-- An instruction that is restricted in no way meets the checks on pairs, on its token, on its wait and on PEND bits, in this order. -/
theorem gate_unrestricted (c : Ctl) (u : Uses) (t : Thread) (det : Bool) :
    gate c { reads := u.reads, writes := u.writes, pairs := u.pairs } t det =
      if u.pairs.any Reg.odd then .trap cBadPair 0 0
      else if c.thr ≠ 0 ∧ t.overAt c.tok (if c.wc then c.thr.toNat else 0) = true then .trap cTokenOverflow (c.tok.setWidth 64) 0
      else if (t.tokAt c.tok).value < c.thr.toNat then .wait
      else if t.uwchk = true ∧ pendMask t (u.reads ++ u.writes) ≠ 0 then
        .trap cUnderwait (BitVec.ofNat 64 (lowestBit (pendMask t (u.reads ++ u.writes)))) (t.pend.setWidth 64)
      else .go := by
  simp [gate]

/-- The lowest register named whose PEND bit is set. -/
theorem lowestBit_pendMask {t : Thread} {l : List Reg} {x : Reg} (hx : x ∈ l) (hp : t.pend.getLsbD x.toNat = true)
    (hmin : ∀ y ∈ l, t.pend.getLsbD y.toNat = true → x.toNat ≤ y.toNat) :
    pendMask t l ≠ 0 ∧ lowestBit (pendMask t l) = x.toNat := by
  have hlt : x.toNat < 16 := x.isLt
  have hbit : (pendMask t l).getLsbD x.toNat = true := by
    rw [pendMask_getLsbD t l _ hlt, hp, Bool.true_and, List.any_eq_true]
    exact ⟨x, hx, beq_self_eq_true _⟩
  refine ⟨fun h => by simp [h] at hbit, ?_⟩
  have hfind : (List.range 16).find? (fun i => (pendMask t l).getLsbD i) = some x.toNat := by
    rw [List.find?_range_eq_some]
    refine ⟨hbit, by simpa using hlt, fun j hj => ?_⟩
    rw [pendMask_getLsbD t l j (by omega), Bool.not_eq_true', Bool.and_eq_false_imp]
    intro hpj
    rw [List.any_eq_false]
    intro y hy he
    have hyj : y.toNat = j := beq_iff_eq.mp he
    have := hmin y hy (by rw [hyj]; exact hpj)
    omega
  rw [lowestBit, hfind, Option.getD_some]

end Sys2Proof.Machine

namespace Sys2Proof.Claims
open Sys2Proof.Machine

/-- Integer, immediate and pair forms are restricted in no way: the checks before their issue ask for what they use. -/
theorem exec_row {t : Thread} {i : Instr} {w : Row} (h : registerRow t i = some w ∨ immediateRow t i = some w) :
    ∃ body, ∀ s, exec i s = issue w.c (fun _ => { reads := w.u.reads, writes := w.u.writes, pairs := w.u.pairs }) body s := by
  rcases h with h | h
  · cases i
    case adds c u rd ra rb | subs c u rd ra rb => cases u <;> cases h <;> exact ⟨_, fun _ => rfl⟩
    all_goals cases h <;> exact ⟨_, fun _ => rfl⟩
  · cases i <;> cases h <;> exact ⟨_, fun _ => rfl⟩

/-- Settles O7: at its turn such a form does what the first check that fails says. -/
theorem checksBeforeIssue : Obligations.ChecksBeforeIssue := by
  unfold Obligations.ChecksBeforeIssue
  intro i s r t w hw hturn trap
  obtain ⟨body, hexec⟩ := exec_row hw
  have hrun := (hexec s).trans (issue_atTurn hturn)
  rw [gate_unrestricted] at hrun
  by_cases hpair : w.u.pairs.any Reg.odd = true
  · rw [if_pos hpair] at hrun ⊢; exact hrun
  rw [if_neg hpair] at hrun ⊢
  by_cases hover : w.c.thr ≠ 0 ∧ t.overAt w.c.tok (if w.c.wc then w.c.thr.toNat else 0) = true
  · rw [if_pos hover] at hrun ⊢; exact hrun
  rw [if_neg hover] at hrun ⊢
  by_cases hwait : (t.tokAt w.c.tok).value < w.c.thr.toNat
  · rw [if_pos hwait] at hrun ⊢
    exact fun hfree => hrun.trans (congrArg _ (State.waitTurn_eq hfree))
  rw [if_neg hwait] at hrun ⊢
  intro x hchk hx hp hmin
  obtain ⟨hne, hlow⟩ := lowestBit_pendMask hx hp hmin
  rw [if_pos ⟨hchk, hne⟩, hlow] at hrun
  exact hrun

/-- Settles O8: the consume touches one token and its ACC, and passing the instruction the rest. -/
theorem everyIssue : Obligations.EveryIssue := by
  unfold Obligations.EveryIssue
  intro t c now stamp _ t'
  obtain ⟨hpc, hret, hg, hfp, hov, htl, hrst, hfl⟩ := t.consumeWait_fields c
  obtain ⟨hpc', hgap, hret', hg', hfp', hov', htl', hrst', hfl', htok, hacc⟩ := (t.consumeWait c).passAt_fields c now stamp
  refine ⟨?_, hgap, hret'.trans (by rw [hret]), hg'.trans hg, hfp'.trans hfp, hov'.trans hov, htl'.trans htl, hrst'.trans hrst,
    hfl'.trans hfl, fun k hk => ⟨?_, ?_⟩, ?_, ?_⟩
  · rw [hpc', hpc, Nat.mul_add, BitVec.ofNat_add, ← BitVec.add_assoc]; rfl
  · rw [htok, Thread.tokAt_consumeWait, if_neg fun h => hk h.1]
  · rw [hacc, Thread.acc_consumeWait, if_neg fun h => hk h.1, Int.add_zero]
  · rw [htok, Thread.tokAt_consumeWait]
    split
    · next h => rw [Token.consume_sum, if_pos h.2.1]
    · next h =>
      by_cases hwc : c.wc = true
      · have h0 : c.thr = 0 := by simpa [hwc] using h
        simp [h0]
      · simp [hwc]
  · rw [hacc, Thread.acc_consumeWait]
    simp

end Sys2Proof.Claims
end

section
/-!
SUPPORT. The statement about TRIP fails at a trap level: it is also about GO forms, and one of those traps MIGRATE_IN_TRAP there before it
makes a copy (03 R53 step 6). O6.
-/
namespace Sys2Proof.Claims
open Sys2Proof.Machine

/-- The level of the first thread after a turn. -/
def levelAfter : Out → Option Nat
  | .next s => (s.thread? ⟨0, 0, 0⟩).map Thread.tl
  | _ => none

/-- A load that goes, with TRIP before it. -/
def trippedGo : Instr := .ld { pfx := [.trip] } .w true 0 2 0

/-- A thread in a trap handler, at its turn. -/
def inHandler : Thread := { tl := 1 }
def handlerTurn : State := { State.reset with cur := some ⟨0, 0, 0⟩, threads := [(⟨0, 0, 0⟩, inHandler)] }

/-- What the load puts to the vote: its address, which is 0. -/
def goBallot : Ballot :=
  { c := { pfx := [.trip] }, u := { reads := [2, Reg.hi 2], writes := [0], pairs := [2] }, v := eaOf inHandler { pfx := [.trip] } 2 0 }

theorem ballotOf_trippedGo : ballotOf inHandler trippedGo = some goBallot := rfl

/-- The turn traps, to level 2. -/
theorem levelAfter_trippedGo : levelAfter (exec trippedGo handlerTurn) = some 2 := by decide +kernel

/-- Refutes O6: a GO form of a load with TRIP, at its first turn at level 1, traps MIGRATE_IN_TRAP and makes no copy. No words decode to
this term, since a GO form takes XIMM alone (06 R171); the statement's first clause excludes neither it nor the level. -/
theorem not_tripVotes : ¬ Obligations.TripVotes := by
  unfold Obligations.TripVotes
  rintro ⟨hturns, -⟩
  have hclear : handlerTurn.clearToIssue ⟨0, 0, 0⟩ inHandler goBallot.c goBallot.u = true := by decide +kernel
  have hopen : ballotOpen handlerTurn ⟨0, 0, 0⟩ inHandler trippedGo = true := by decide +kernel
  have hcopy := (hturns trippedGo handlerTurn ⟨0, 0, 0⟩ inHandler goBallot ballotOf_trippedGo (by decide)).1 hclear hopen
  have hlevel := congrArg levelAfter hcopy
  rw [levelAfter_trippedGo] at hlevel
  exact absurd hlevel (by decide +kernel)

end Sys2Proof.Claims
end

section
/-!
SUPPORT. The slots and the gang line (08 R204, R210): what the checks of OCLM, ORLS and MMG say, what handing an operation over in free
mode leaves as it is, and how an MMG joins the line. O30.
-/
namespace Sys2Proof.Machine
open Sys2Proof.Claims

theorem State.isDet_issuedOnce (s : State) (r : TRef) (c : Ctl) (l : Nat) : (issuedOnce s r c).isDet l = s.isDet l := by
  obtain ⟨-, -, -, -, -, -, hl, -⟩ := State.retire_fields s r c
  rw [issuedOnce, State.isDet_updThread]
  simp only [State.isDet, State.blk, State.launch?, hl]

/-! ### The checks of a matrix word (08 R202, R204, R210) -/

theorem State.mtxChecked_passes {s : State} {r : TRef} {t : Thread} {i : Instr} {n : Nat} {body : State → State}
    (hd : s.isDet r.l = false) (h : s.mtxBad r.tile i n = none) : s.mtxChecked r t i n body = body s := by
  simp [State.mtxChecked, hd, h]

theorem State.mtxChecked_traps {s : State} {r : TRef} {t : Thread} {i : Instr} {n : Nat} {body : State → State} {cause : Nat}
    {tval : DWord} (hd : s.isDet r.l = false) (h : s.mtxBad r.tile i n = some (cause, tval)) :
    s.mtxChecked r t i n body = s.trapHere r t cause tval := by
  simp [State.mtxChecked, hd, h]

theorem State.mtxBad_oclm (s : State) (r : TRef) (c : Ctl) (x : Reg) (fm : OFmt) (role : Role) (n : Nat) :
    s.mtxBad r.tile (.oclm c x fm role) n = if (slotAt s r x).st = .free then none else some (cSlotState, 0) :=
  ite_not ..

/-- A slot that is neither free nor filling is claimed or filled. -/
theorem State.mtxBad_orls (s : State) (r : TRef) (c : Ctl) (x : Reg) (n : Nat) :
    s.mtxBad r.tile (.orls c x) n =
      if ((slotAt s r x).st = .claimed ∨ (slotAt s r x).st = .filled) ∧ s.slotInUse r.tile x.toNat = false then none
      else some (cSlotState, 0) := by
  change (if (decide ((slotAt s r x).st = .free ∨ (slotAt s r x).st = .filling) || s.slotInUse r.tile x.toNat) = true then
    some (cSlotState, 0) else none) = _
  cases (slotAt s r x).st <;> cases s.slotInUse r.tile x.toNat <;> simp

theorem State.mtxBad_mmg {s : State} {r : TRef} {v : VTile} {c : Ctl} {k : OFmt} {acc : BitVec 1} {sa : Reg} (sb fd : Reg) (n : Nat)
    (hv : s.tile? r.tile = some v) (hst : (v.slot sa.toNat).st = .filled) (hrole : (v.slot sa.toNat).role = .a)
    (hfmt : (v.slot sa.toNat).fmt = k) (htag : (v.accu acc.toNat).tag.ok k = true)
    (hfin : (s.gangOfTile r.tile).any s.finishedAt = false) : s.mtxBad r.tile (.mmg c k acc sa sb fd) n = none := by
  simp [State.mtxBad, mmgOwn, hv, hst, hrole, hfmt, htag, hfin]

/-! ### An operation that is handed over in free mode -/

/-- A number beyond those of a table finds the entry that is put at its end. -/
theorem Assoc.get?_append_new {α : Type} {l : Assoc Nat α} {n : Nat} (a : α) (h : l.all (fun e => decide (e.1 < n)) = true) :
    Assoc.get? (l ++ [(n, a)]) n = some a := by
  induction l with
  | nil => simp [Assoc.get?]
  | cons e l ih =>
    simp only [List.all_cons, Bool.and_eq_true, decide_eq_true_eq] at h
    rw [List.cons_append, Assoc.get?_cons, if_neg (Nat.ne_of_lt h.1), ih h.2]

/-- Two threads that stand alike, with the same registers and tokens. -/
structure StandsAs (t t' : Thread) : Prop where
  run : t'.run = t.run
  pc : t'.pc = t.pc
  tok : t'.tok = t.tok
  instret : t'.instret = t.instret
  g : t'.g = t.g

theorem State.thread?_updThread_eq {s : State} {r : TRef} {t : Thread} (ht : s.thread? r = some t) (f : Thread → Thread) :
    (s.updThread r f).thread? r = some (f t) := by
  rw [State.thread?_updThread, if_pos rfl, ht, Option.map_some]

/-- Joining what a thread has issued changes only what happens before its accesses. -/
theorem State.issued_thread {s : State} {r : TRef} {t : Thread} (k : Fin 7) (id : Nat) (l : List Nat) (ht : s.thread? r = some t) :
    ∃ t', (s.issued r k id l).thread? r = some t' ∧ StandsAs t t' := by
  unfold State.issued
  split
  · exact ⟨t, ht, rfl, rfl, rfl, rfl, rfl⟩
  · exact ⟨_, State.thread?_updThread_eq ht _, rfl, rfl, rfl, rfl, rfl⟩

theorem State.issued_fields (s : State) (r : TRef) (k : Fin 7) (id : Nat) (l : List Nat) :
    (s.issued r k id l).ops = s.ops ∧ (s.issued r k id l).vtiles = s.vtiles ∧ (s.issued r k id l).hbm = s.hbm := by
  unfold State.issued
  split <;> exact ⟨rfl, rfl, rfl⟩

/-- The thread of an operation that is handed over has PEND bits set, and stands as before. -/
theorem State.launchOp_thread {s : State} {o : Op} {t : Thread} (hd : s.isDet o.tile.l = false) (ht : s.thread? o.t = some t) :
    ∃ t', (s.launchOp o).thread? o.t = some t' ∧ StandsAs t t' := by
  rw [State.launchOp_eq hd]
  obtain ⟨t', ht', h⟩ := State.issued_thread o.track s.nextId (s.viewOf o)
    (State.thread?_updThread_eq (s := { s with ops := s.ops ++ [(s.nextId, filed s o)], nextId := s.nextId + 1 }) ht fun t =>
      { t with pend := t.pend ||| pendOf o.regs })
  exact ⟨t', ht', h.run, h.pc, h.tok, h.instret, h.g⟩

/-- The operation stands under the next number; no tile and no memory changes. -/
theorem State.launchOp_fields {s : State} {o : Op} (hd : s.isDet o.tile.l = false) :
    (s.launchOp o).ops = s.ops ++ [(s.nextId, filed s o)] ∧ (s.launchOp o).vtiles = s.vtiles ∧ (s.launchOp o).hbm = s.hbm := by
  rw [State.launchOp_eq hd]
  exact State.issued_fields _ _ _ _ _

/-! ### The gang line (08 R210) -/

/-- A thread's MMG as it is handed to the gang line. -/
def lineOp (s : State) (r : TRef) (t : Thread) (c : Ctl) (i : Instr) : Op :=
  { t := r, tile := r.tile, vd := s.vdOf r.l, cls := .array, ins := i, path := .mtx
    waddr := t.wordAddr c, tinst := s.iword, region := t.region, ea := t.pc }

/-- The machine with a thread's MMG at the gang line, where the thread waits. -/
def atLine (s : State) (r : TRef) (o : Op) : State :=
  (((s.updThread r fun t => { t with run := .line }).launchOp o).updOp s.nextId fun o => { o with phase := .parked }).updTile r.tile
    fun v => { v with lineQ := v.lineQ ++ [s.nextId] }

/-- An MMG whose own checks pass joins its tile's gang line. -/
theorem execMmg_atLine {s : State} {r : TRef} {t : Thread} {c : Ctl} {k : OFmt} {acc : BitVec 1} {sa sb fd : Reg}
    (h : s.clearToIssue r t c {} = true) (hd : s.isDet r.l = false) (hheavy : (s.blk r.l).heavy ≠ 0)
    (hfd : fd.toNat < (s.gangOfTile r.tile).length) (hbad : s.mtxBad r.tile (.mmg c k acc sa sb fd) 0 = none) :
    execMmg c k acc sa sb fd s = .next (atLine s r (lineOp s r t c (.mmg c k acc sa sb fd))) := by
  rw [execMmg, issue_clear h rfl]
  simp only [if_neg hheavy, if_neg (Nat.not_le.mpr hfd)]
  rw [State.mtxChecked_passes hd hbad]
  simp only [hd, Bool.false_eq_true, if_false, State.submitMtx, State.isDet_updThread]
  rfl

/-- The thread waits at the line, and has not issued. -/
theorem atLine_thread {s : State} {r : TRef} {t : Thread} {o : Op} (hr : o.t = r) (ho : o.tile = r.tile) (hd : s.isDet r.l = false)
    (ht : s.thread? r = some t) : ∃ t', (atLine s r o).thread? r = some t' ∧ StandsAs { t with run := .line } t' := by
  subst hr
  exact State.launchOp_thread (s := s.updThread o.t fun t => { t with run := .line }) (by rw [ho]; exact hd)
    (State.thread?_updThread_eq ht _)

theorem atLine_fields {s : State} {r : TRef} {v : VTile} {o : Op} (ho : o.tile = r.tile) (hd : s.isDet r.l = false)
    (hv : s.tile? r.tile = some v) (hids : s.ops.all (fun e => decide (e.1 < s.nextId)) = true) :
    (atLine s r o).tile? r.tile = some { v with lineQ := v.lineQ ++ [s.nextId] } ∧ (atLine s r o).hbm = s.hbm ∧
      ∃ o', (atLine s r o).op? s.nextId = some o' ∧ o'.ins = o.ins := by
  obtain ⟨hops, htiles, hhbm⟩ := State.launchOp_fields (s := s.updThread r fun t => { t with run := .line }) (o := o) (by rw [ho]; exact hd)
  refine ⟨?_, hhbm, ?_⟩
  · rw [atLine, State.tile?_updTile, if_pos rfl, State.tile?_updOp, State.tile?, htiles]
    exact congrArg _ hv
  · rw [atLine, State.op?_updTile, State.op?_updOp, if_pos rfl, State.op?, hops, State.updThread_nextId, State.updThread_ops,
      Assoc.get?_append_new _ hids]
    exact ⟨_, rfl, rfl⟩

end Sys2Proof.Machine

namespace Sys2Proof.Claims
open Sys2Proof.Machine

/-- A check that passes lets OCLM issue; one that fails traps SLOT_STATE. -/
theorem execOclm_eq {s : State} {r : TRef} {t : Thread} {c : Ctl} (x : Reg) (fm : OFmt) (role : Role)
    (h : s.clearToIssue r t c {} = true) (hd : s.isDet r.l = false) :
    execOclm c x fm role s = if (slotAt s r x).st = .free then
        .next ((putSlot r x (fun y => { y with st := .claimed, fmt := fm, role }) (issuedOnce s r c)).postNext r (sigOf c t))
      else .next (s.trapHere r t cSlotState) := by
  have hbad := State.mtxBad_oclm s r c x fm role 0
  have hd' : (issuedOnce s r c).isDet r.l = false := (State.isDet_issuedOnce s r c r.l).trans hd
  rw [execOclm, issue_clear h rfl]
  split
  · next hfree =>
    rw [State.mtxChecked_passes hd (hbad.trans (if_pos hfree))]
    exact congrArg _ (if_neg (Bool.eq_false_iff.mp hd'))
  · next hfree => rw [State.mtxChecked_traps hd (hbad.trans (if_neg hfree))]

theorem execOrls_eq {s : State} {r : TRef} {t : Thread} {c : Ctl} (x : Reg) (h : s.clearToIssue r t c {} = true)
    (hd : s.isDet r.l = false) :
    execOrls c x s = if ((slotAt s r x).st = .claimed ∨ (slotAt s r x).st = .filled) ∧ s.slotInUse r.tile x.toNat = false then
        .next ((putSlot r x (fun y => { y with st := .free }) (issuedOnce s r c)).postNext r (sigOf c t))
      else .next (s.trapHere r t cSlotState) := by
  have hbad := State.mtxBad_orls s r c x 0
  have hd' : (issuedOnce s r c).isDet r.l = false := (State.isDet_issuedOnce s r c r.l).trans hd
  rw [execOrls, issue_clear h rfl]
  split
  · next hidle =>
    rw [State.mtxChecked_passes hd (hbad.trans (if_pos hidle))]
    exact congrArg _ (if_neg (Bool.eq_false_iff.mp hd'))
  · next hidle => rw [State.mtxChecked_traps hd (hbad.trans (if_neg hidle))]

/-- Settles O30: by what each word's checks say of its slot, and by what joining the gang line leaves of the thread and the tile. -/
theorem slotsAndLine : Obligations.SlotsAndLine := by
  unfold Obligations.SlotsAndLine
  refine ⟨fun s r t c x fm role h hd => execOclm_eq x fm role h hd, fun s r t c x h hd => execOrls_eq x h hd, ?_⟩
  intro s r t v c k acc sa sb fd h hfree hv hheavy hfd hfin hst hrole hfmt htag hids
  have hd : s.isDet r.l = false := by simpa using (Bool.and_eq_true_iff.mp hfree).1
  obtain ⟨-, ht, -⟩ := State.atTurn_iff.mp (State.clearToIssue_iff.mp h).1
  have hexec := execMmg_atLine h hd hheavy hfd (State.mtxBad_mmg sb fd 0 hv hst hrole hfmt htag hfin)
  obtain ⟨t', ht', hrun, hpc, htok, hret, hg⟩ := atLine_thread (o := lineOp s r t c (.mmg c k acc sa sb fd)) rfl rfl hd ht
  obtain ⟨htile, hhbm, o', ho', hins⟩ := atLine_fields (o := lineOp s r t c (.mmg c k acc sa sb fd)) rfl hd hv hids
  exact ⟨_, t', _, o', hexec, ht', hrun, hpc, htok, hret, hg, htile, rfl, rfl, rfl, rfl, ho', hins, hhbm⟩

end Sys2Proof.Claims
end

section
/-!
SUPPORT. The statement about the matrix path's events fails: nothing in it asks that the table of operations holds one entry a number, as
tables do. Where a fence bears the number of an MSTAT, the answer of the MSTAT completes the fence (State.fencesDone), and both entries go
with their number. O41.
-/
namespace Sys2Proof.Claims
open Sys2Proof.Machine

/-- What the table of operations holds under a number after an event. -/
def opAfter (id : Nat) : Out → Option Op
  | .next s => s.op? id
  | _ => none

/-- An MSTAT at the head of its tile's array queue, and a fence of its thread that waits for nothing. -/
def statusRead : Op := { t := ⟨0, 0, 0⟩, tile := ⟨0, 0⟩, cls := .array, ins := .mstat {} 0 0, path := .mtx, regs := [0] }
def openFence : Op := { t := ⟨0, 0, 0⟩, tile := ⟨0, 0⟩, cls := .fence, ins := .fence {} .rel .tileS }

/-- The machine with both under one number. -/
def numberTwice : State :=
  { State.reset with
    threads := [(⟨0, 0, 0⟩, { slot := some 0, pend := 1 })]
    vtiles := [(⟨0, 0⟩, {})]
    ops := [(5, statusRead), (5, openFence)] }

theorem atHead_numberTwice : atHead numberTwice 5 statusRead .array = true := by decide +kernel

/-- The MSTAT runs, and no operation is left under its number. -/
theorem opAfter_numberTwice : opAfter 5 (exec (.mstatExecute 5) numberTwice) = none := by decide +kernel

/-- Refutes O41: its last clause has an MSTAT that has run stand in the table with its answer, also while a fence that its answer completes
bears the same number. -/
theorem not_matrixEvents : ¬ Obligations.MatrixEvents := by
  unfold Obligations.MatrixEvents
  rintro ⟨-, -, -, -, -, -, hclear⟩
  obtain ⟨-, hstat⟩ := hclear numberTwice 5 statusRead {} {} 0 atHead_numberTwice rfl rfl
  obtain ⟨s', o', hexec, hop, -⟩ := hstat 0 rfl (by decide) (by decide) (by decide)
  have hfiled : opAfter 5 (exec (.mstatExecute 5) numberTwice) = some o' := by rw [hexec, opAfter, hop]
  rw [opAfter_numberTwice] at hfiled
  cases hfiled

end Sys2Proof.Claims
end
